-- ==== Sys2Proof/Word.lean ====
section
/-!
DEFINITION. The bit-vector words of the GX9 (R12, R14): bytes, and the words that registers and records are made of.
-/

namespace Sys2Proof

/-- One byte. -/
abbrev Byte := BitVec 8

/-- A 32-bit word: a 32-bit register, or the bits of an FP32 or INT32 value (R116). -/
abbrev W32 := BitVec 32

/-- A 64-bit word: the widest register (R23). -/
abbrev W64 := BitVec 64

end Sys2Proof
end

