-- ==== Sys2Proof/Config.lean ====
section
/-!
DEFINITION. What the manual names and does not define, and what it leaves open. Every constant here is opaque: no proof
can see a value of it, so a claim about it holds for every value (log entries 6 and 7).

The standard primitives (SHAKE256, AES-256-GCM, KMAC256, X448, Ed448, the SMBus PEC) are named by the manual and
defined in other documents: they are functions of their inputs and nothing more is known of them here.
-/

namespace Sys2Proof.Config

/-- The fresh free value number `n`: a value that the manual leaves open. `State.free` counts the ones used. -/
opaque freeNat : Nat → Nat

/-- The credits that a shared-memory attachment grants to a route that binds to it: the manual gives no number (R231, R249). -/
opaque attachCredits : Nat

/-- Flits that the dual-clock queue of a die bridge holds beyond one: the manual gives no depth (R40, R41). -/
opaque bridgeDepth : Nat

/-- Records that the match engine scores in 1,024 cycles: the manual gives typical rates only (R299, R313, R319). -/
opaque scanRate : Nat

/-- The result of vector function `code` on the FP32 bits `x`, where R189 gives only an error bound: "a fixed map of
input bits to output bits". -/
opaque func : Nat → BitVec 32 → BitVec 32

/-- SHAKE256 of `x`, the first `n` bytes (R376, R429, R437, R443, R445, R450, R459, R463). -/
opaque shake256 : List Byte → Nat → List Byte

/-- The AES-256 block function under a key (R429). -/
opaque aes256 : List Byte → List Byte → List Byte

/-- The AES-256-GCM tag: key, nonce, authenticated data, further data (R343, R374). -/
opaque gcmTag : List Byte → List Byte → List Byte → List Byte → BitVec 128

/-- The AES-256-GCM key stream: key, nonce, how many bytes (R343, R374). -/
opaque gcmStream : List Byte → List Byte → Nat → List Byte

/-- The ROUND that a NORM or BAR frame carries for the exchange of level_sum with this number: the manual gives the field
and no numbers but 63 (R341, R359). -/
opaque laneRound : Nat → Nat

/-- KMAC256: key, input, customisation string, output bytes (R430). -/
opaque kmac256 : List Byte → List Byte → List Byte → Nat → List Byte

/-- The X448 shared secret of a private and a public key (R376). -/
opaque x448 : List Byte → List Byte → List Byte

/-- The X448 public key of a private key (R375). -/
opaque x448Pub : List Byte → List Byte

/-- The Ed448 signature that the private half of a public key makes: public key, context, message (R375, R436, R438, R452). -/
opaque ed448Sig : List Byte → List Byte → List Byte → List Byte

/-- The SMBus packet error code of the bytes of a transaction (R496). -/
opaque smbusPec : List Byte → Byte

/-- The module's identity public key, 57 bytes, generated at manufacture (R435). -/
opaque identityKey : List Byte

/-- The identity certificate's serial number, the identifier of the Eloarid signing key, and that public key (R436). -/
opaque certSerial : BitVec 64
opaque certIssuer : BitVec 64
opaque issuerKey : List Byte

/-- The Eloarid boot public key, and what follows key and signature in the boot image, written at manufacture only (R442, R445). -/
opaque bootKey : List Byte
opaque bootBody : List Byte

/-- The identifier of the Eloarid firmware key in the boot image, and the key (R445, R450, R452). -/
opaque fwKeyId : List Byte
opaque fwKey : List Byte

/-- What stands in the flash when the module leaves manufacture: the package of bank 0, its manifest, the hashes of its components by
TYPE, and the owner's first host key (log entry 4). -/
opaque factoryPackage : List Byte
opaque factoryManifest : List Byte
opaque factoryHash : Nat → List Byte
opaque ownerKey : Nat

/-- One step of settings migration (R461): from a settings version, the items; none when the step fails. -/
opaque migrate : Nat → List (Nat × List Byte) → Option (List (Nat × List Byte))

end Sys2Proof.Config
end

