-- ==== Sys2Proof/Machine/Bits.lean ====
section
/-!
DEFINITION. Bit fields, byte order (R12), sparse tables in one canonical form, and the byte memory built on them.
-/

namespace Sys2Proof

/-- Bits `hi` down to `lo` of `x` (R12). -/
def bits (x hi lo : Nat) : Nat := (x >>> lo) % 2 ^ (hi + 1 - lo)

/-- Bit `i` of `x`. -/
def bit (x i : Nat) : Bool := (x >>> i) % 2 == 1

/-- A Bool as a bit. -/
def b2n (b : Bool) : Nat := if b then 1 else 0

/-- `n` divided by `d`, rounded up. -/
def cdiv (n d : Nat) : Nat := (n + d - 1) / d

/-- The smaller of `x` and the largest value of a saturating counter. -/
def satAt (cap x : Nat) : Nat := if x ≤ cap then x else cap

/-- The number that little-endian bytes hold (R12). -/
def leNat : List Byte → Nat
  | [] => 0
  | b :: bs => b.toNat + 256 * leNat bs

/-- The `n` low bytes of `x`, least significant first (R12). -/
def natLe : Nat → Nat → List Byte
  | 0, _ => []
  | n + 1, x => BitVec.ofNat 8 x :: natLe n (x / 256)

/-- `n` bytes of `bs` from offset `o`. -/
def slice (bs : List Byte) (o n : Nat) : List Byte := (bs.drop o).take n

/-- The little-endian field of `n` bytes at offset `o`. -/
def fld (bs : List Byte) (o n : Nat) : Nat := leNat (slice bs o n)

/-- `n` zero bytes. -/
def zeros (n : Nat) : List Byte := List.replicate n 0

/-- `bs` cut or filled with zero bytes to `n` bytes. -/
def padTo (n : Nat) (bs : List Byte) : List Byte := bs.take n ++ zeros (n - bs.length)

/-- The bytes of an ASCII string. -/
def ascii (t : String) : List Byte := t.toList.map fun c => BitVec.ofNat 8 c.toNat

/-- True when every byte is zero. -/
def allZero (bs : List Byte) : Bool := bs.all (· == 0)

/-- `bs` cut into pieces of `n` elements, the last one shorter. -/
def chunksF {α : Type} (n : Nat) : Nat → List α → List (List α)
  | 0, _ => []
  | fuel + 1, l => if l.isEmpty then [] else l.take n :: chunksF n fuel (l.drop n)

/-- The pieces of `n` elements of a list. -/
def chunks {α : Type} (n : Nat) (l : List α) : List (List α) := chunksF n l.length l

/-- Element `i` of a list, or `d` beyond its end. -/
def nth {α : Type} (d : α) (l : List α) (i : Nat) : α := l.getD i d

/-- The list with element `i` replaced; no change beyond its end. -/
def putAt {α : Type} (l : List α) (i : Nat) (v : α) : List α := l.set i v

/-- The list with `f` applied to element `i`. -/
def modAt {α : Type} (l : List α) (i : Nat) (f : α → α) : List α := l.modify i f

/-- The first element that satisfies `p`, with its place. -/
def findAt {α : Type} (p : α → Bool) : List α → Option (Nat × α)
  | [] => none
  | a :: l => if p a then some (0, a) else (findAt p l).map fun x => (x.1 + 1, x.2)

/-- The list without its element `i`. -/
def dropAt {α : Type} : List α → Nat → List α
  | [], _ => []
  | _ :: l, 0 => l
  | a :: l, i + 1 => a :: dropAt l i

/-- Insertion into a list sorted by `lt`; equals go behind. -/
def insertBy {α : Type} (lt : α → α → Bool) (a : α) : List α → List α
  | [] => [a]
  | b :: l => if lt a b then a :: b :: l else b :: insertBy lt a l

/-- Insertion sort: stable, least first. -/
def sortBy {α : Type} (lt : α → α → Bool) (l : List α) : List α := l.foldl (fun acc a => insertBy lt a acc) []

/-- True when no element appears twice. -/
def noDup {α : Type} [BEq α] : List α → Bool
  | [] => true
  | a :: l => !(l.contains a) && noDup l

/-- A sparse table: keys strictly rising, and no entry equal to what an unlisted key reads as. -/
abbrev SMap (α : Type) := List (Nat × α)

namespace SMap

/-- The entry of key `k`, or `d` where none is listed. -/
def get {α : Type} (d : α) : SMap α → Nat → α
  | [], _ => d
  | (k', v) :: m, k => if k = k' then v else get d m k

/-- Insertion or replacement of an entry that differs from the default. -/
def put {α : Type} : SMap α → Nat → α → SMap α
  | [], k, v => [(k, v)]
  | (k', v') :: m, k, v =>
    if k < k' then (k, v) :: (k', v') :: m else if k = k' then (k, v) :: m else (k', v') :: put m k v

/-- Removal of an entry. -/
def del {α : Type} (m : SMap α) (k : Nat) : SMap α := m.filter fun e => e.1 != k

/-- Writes `v` at key `k`: the entry goes when `v` is what an unlisted key reads as. -/
def set {α : Type} [DecidableEq α] (d : α) (m : SMap α) (k : Nat) (v : α) : SMap α :=
  if v = d then del m k else put m k v

/-- Keys strictly rising from `lo` on, and no entry equal to `d`. -/
def wfFrom {α : Type} [DecidableEq α] (d : α) : Nat → SMap α → Bool
  | _, [] => true
  | lo, (k, v) :: m => decide (lo ≤ k) && decide (v ≠ d) && wfFrom d (k + 1) m

/-- The canonical form. -/
def wf {α : Type} [DecidableEq α] (d : α) (m : SMap α) : Bool := wfFrom d 0 m

/-- The table without the keys that satisfy `p`. -/
def dropKeys {α : Type} (p : Nat → Bool) (m : SMap α) : SMap α := m.filter fun e => !p e.1

end SMap

/-- A byte memory over device addresses (R18), canonical; an unlisted address reads as zero (R105, R306, R444). -/
abbrev Memory := List Host.Cell

namespace Memory

/-- One byte: zero where nothing is listed. -/
def byte (m : Memory) (a : Nat) : Byte := SMap.get 0 m a

/-- Writes one byte. -/
def setByte (m : Memory) (a : Nat) (b : Byte) : Memory := SMap.set 0 m a b

/-- `n` bytes from address `a`. -/
def read (m : Memory) (a : Nat) : Nat → List Byte
  | 0 => []
  | n + 1 => byte m a :: read m (a + 1) n

/-- Writes a run of bytes from address `a`. -/
def write (m : Memory) (a : Nat) : List Byte → Memory
  | [] => m
  | b :: bs => write (setByte m a b) (a + 1) bs

/-- The memory with `n` bytes from `a` zero: their entries go. -/
def clear (m : Memory) (a n : Nat) : Memory := SMap.dropKeys (fun k => a ≤ k && k < a + n) m

/-- Addresses strictly rising, and no entry that holds zero. -/
def wf (m : Memory) : Bool := SMap.wf (0 : Byte) m

end Memory

end Sys2Proof
end

