-- ==== Sys2Proof/Machine/Float.lean ====
section
/-!
DEFINITION. The number formats and the exact arithmetic on them: R115-R122, R126, R180, R186, R189, R197-R198, R203-R207,
R310. A finite value is kept exactly as a sign, a magnitude and a power of two, and is rounded once where the manual rounds.
-/

namespace Sys2Proof

/-- A decoded floating value: finite is (-1)^neg x m x 2^e. -/
inductive FV where
  | nan
  | inf (neg : Bool)
  | fin (neg : Bool) (m : Nat) (e : Int)
deriving DecidableEq, Repr

/-- The fields of a floating format (R116): mantissa bits, exponent bits, bias, and the largest finite value maxM x 2^maxE. -/
structure FFmt where
  mb : Nat
  eb : Nat
  bias : Nat
  maxM : Nat
  maxE : Int
deriving DecidableEq, Repr

def fmtFP32 : FFmt := ⟨23, 8, 127, 16777215, 104⟩
def fmtBF16 : FFmt := ⟨7, 8, 127, 255, 120⟩
def fmtFP16 : FFmt := ⟨10, 5, 15, 2047, 5⟩
def fmtE4M3 : FFmt := ⟨3, 4, 7, 14, 5⟩
def fmtE5M2 : FFmt := ⟨2, 5, 15, 7, 13⟩

/-- The floating format of a code (R115, R184). -/
def ffmt : Nat → Option FFmt
  | 1 => some fmtE4M3
  | 2 => some fmtE5M2
  | 6 => some fmtBF16
  | 7 => some fmtFP16
  | 8 => some fmtFP32
  | _ => none

/-- Bits of an element of a format code (R115, R184). -/
def elemBits : Nat → Nat
  | 1 => 8
  | 2 => 8
  | 3 => 8
  | 4 => 4
  | 5 => 4
  | 6 => 16
  | 7 => 16
  | 8 => 32
  | 9 => 32
  | _ => 0

/-- Weight of the least significant bit of a format's subnormal numbers. -/
def FFmt.minE (t : FFmt) : Int := 1 - (t.bias : Int) - (t.mb : Int)

/-- The value that the bits of a format stand for (R116). E4M3 has no infinity. -/
def FFmt.decode (t : FFmt) (x : Nat) : FV :=
  let neg := bit x (t.mb + t.eb)
  let e := bits x (t.mb + t.eb - 1) t.mb
  let m := x % 2 ^ t.mb
  let top := 2 ^ t.eb - 1
  if e == top && t.maxM == 14 && m == 7 then .nan
  else if e == top && t.maxM != 14 then (if m == 0 then .inf neg else .nan)
  else if e == 0 then .fin neg m t.minE
  else .fin neg (2 ^ t.mb + m) (t.minE + (e : Int) - 1)

/-- FP32 bits as a value. -/
def fv (x : W32) : FV := fmtFP32.decode x.toNat

/-- The canonical NaN (R122, R180). -/
def nan32 : W32 := 0x7FC00000#32
def inf32 (neg : Bool) : W32 := if neg then 0xFF800000#32 else 0x7F800000#32
def zero32 (neg : Bool) : W32 := if neg then 0x80000000#32 else 0#32
def one32 : W32 := 0x3F800000#32

/-- Exponent of the leading bit of m x 2^e, for m above 0. -/
def leadE (m : Nat) (e : Int) : Int := (Nat.log2 m : Int) + e

/-- Whether a discarded part rounds the magnitude up (R203, R205): `rem` of `2^sh`, `odd` the kept last bit, `r` the 16
stochastic bits. -/
def roundsUp (mode : Nat) (neg odd : Bool) (rem sh r : Nat) : Bool :=
  let half := 2 ^ (sh - 1)
  match mode with
  | 0 => decide (half < rem) || (rem == half && odd)
  | 1 => false
  | 2 => !neg && rem != 0
  | 3 => neg && rem != 0
  | 4 => decide (half ≤ rem)
  | _ => decide (65536 ≤ rem * 65536 / 2 ^ sh + r)

/-- Rounds m x 2^e to a multiple of 2^lsb: the multiple. -/
def roundAt (mode : Nat) (neg : Bool) (m : Nat) (e lsb : Int) (r : Nat) : Nat :=
  if lsb ≤ e then m * 2 ^ (e - lsb).toNat
  else
    let sh := (lsb - e).toNat
    let q := m >>> sh
    let rem := m % 2 ^ sh
    if rem == 0 then q else q + b2n (roundsUp mode neg (q % 2 == 1) rem sh r)

/-- The encoding of the magnitude M x 2^lsb in a format; M is at most 2^(mb+1). -/
def FFmt.pack (t : FFmt) (neg : Bool) (M : Nat) (lsb : Int) : Nat :=
  let (M', l) := if M ≥ 2 ^ (t.mb + 1) then (M / 2, lsb + 1) else (M, lsb)
  let sign := if neg then 2 ^ (t.mb + t.eb) else 0
  if M' < 2 ^ t.mb then sign + M'
  else sign + ((l - t.minE + 1).toNat * 2 ^ t.mb) + (M' - 2 ^ t.mb)

/-- The last place to which a format rounds m x 2^e, with gradual underflow. -/
def FFmt.lsbOf (t : FFmt) (m : Nat) (e : Int) : Int := max (leadE m e - (t.mb : Int)) t.minE

/-- True when M x 2^lsb exceeds the largest finite value of a format. -/
def FFmt.beyond (t : FFmt) (M : Nat) (lsb : Int) : Bool :=
  if t.maxE ≤ lsb then decide (t.maxM < M * 2 ^ (lsb - t.maxE).toNat) else decide (t.maxM * 2 ^ (t.maxE - lsb).toNat < M)

/-- A finite value rounded once to FP32, to nearest with ties to even; beyond range it becomes infinity (R121, R122). -/
def fp32Of (neg : Bool) (m : Nat) (e : Int) : W32 :=
  if m = 0 then zero32 neg
  else
    let l := fmtFP32.lsbOf m e
    let M := roundAt 0 neg m e l 0
    if fmtFP32.beyond M l then inf32 neg else BitVec.ofNat 32 (fmtFP32.pack neg M l)

/-- A signed exact number over 2^e, rounded to FP32; an exact zero takes the sign `zneg`. -/
def fp32OfInt (zneg : Bool) (x : Int) (e : Int) : W32 :=
  if x = 0 then zero32 zneg else fp32Of (decide (x < 0)) x.natAbs e

/-- The numerator of a finite value over 2^e, for e at most its own exponent. -/
def fixAt (neg : Bool) (m : Nat) (e0 e : Int) : Int :=
  let v : Int := (m : Int) * (2 ^ (e0 - e).toNat : Nat)
  if neg then -v else v

/-- Exact sum of two values rounded once to FP32 (R180): a zero sum is +0 unless both addends are -0. -/
def addFV (a b : FV) : W32 :=
  match a, b with
  | .nan, _ => nan32
  | _, .nan => nan32
  | .inf x, .inf y => if x == y then inf32 x else nan32
  | .inf x, .fin .. => inf32 x
  | .fin .., .inf y => inf32 y
  | .fin n1 m1 e1, .fin n2 m2 e2 =>
    let e := min e1 e2
    fp32OfInt (n1 && n2 && m1 == 0 && m2 == 0) (fixAt n1 m1 e1 e + fixAt n2 m2 e2 e) e

/-- The exact product of two values. -/
def mulFV (a b : FV) : FV :=
  match a, b with
  | .nan, _ => .nan
  | _, .nan => .nan
  | .inf x, .inf y => .inf (x != y)
  | .inf x, .fin n m _ => if m = 0 then .nan else .inf (x != n)
  | .fin n m _, .inf y => if m = 0 then .nan else .inf (n != y)
  | .fin n1 m1 e1, .fin n2 m2 e2 => .fin (n1 != n2) (m1 * m2) (e1 + e2)

/-- A value rounded to FP32; a NaN becomes the canonical NaN. -/
def toFP32 : FV → W32
  | .nan => nan32
  | .inf n => inf32 n
  | .fin n m e => fp32Of n m e

def fadd (a b : W32) : W32 := addFV (fv a) (fv b)
def fmul (a b : W32) : W32 := toFP32 (mulFV (fv a) (fv b))
def fneg (a : W32) : W32 := a ^^^ 0x80000000#32
def fabs (a : W32) : W32 := a &&& 0x7FFFFFFF#32
def fsub (a b : W32) : W32 := fadd a (fneg b)
/-- v x A + B with one rounding (R185, R180). -/
def fma (v a b : W32) : W32 := addFV (mulFV (fv v) (fv a)) (fv b)

def isNan (x : W32) : Bool := fv x == .nan
def isInf (x : W32) : Bool := match fv x with | .inf _ => true | _ => false
def isFinite (x : W32) : Bool := match fv x with | .fin .. => true | _ => false
/-- NONZERO of R187: every value but +0 and -0, a NaN included. -/
def isNonzero (x : W32) : Bool := x.toNat % 2147483648 != 0

/-- A correctly rounded quotient (R349, R310). -/
def fdiv (a b : W32) : W32 :=
  match fv a, fv b with
  | .nan, _ => nan32
  | _, .nan => nan32
  | .inf _, .inf _ => nan32
  | .inf x, .fin n _ _ => inf32 (x != n)
  | .fin n _ _, .inf y => zero32 (n != y)
  | .fin n1 m1 e1, .fin n2 m2 e2 =>
    if m2 = 0 then (if m1 = 0 then nan32 else inf32 (n1 != n2))
    else if m1 = 0 then zero32 (n1 != n2)
    else
      let sh := Nat.log2 m2 + 60
      let q := (m1 <<< sh) / m2
      let st := b2n ((m1 <<< sh) % m2 != 0)
      fp32Of (n1 != n2) (2 * q + st) (e1 - e2 - (sh : Int) - 1)

/-- The integer square root, one bit at a time from bit `i - 1` down. -/
def isqrtF (n : Nat) : Nat → Nat → Nat
  | 0, r => r
  | i + 1, r => isqrtF n i (if (r + 2 ^ i) * (r + 2 ^ i) ≤ n then r + 2 ^ i else r)

/-- The integer square root. -/
def isqrt (n : Nat) : Nat := isqrtF n (Nat.log2 n / 2 + 1) 0

/-- A correctly rounded square root (R189, R349): -0 gives -0, below 0 gives NaN. -/
def fsqrt (a : W32) : W32 :=
  match fv a with
  | .nan => nan32
  | .inf n => if n then nan32 else inf32 false
  | .fin n m e =>
    if m = 0 then zero32 n
    else if n then nan32
    else
      let sh := if e % 2 = 0 then 80 else 81
      let x := m <<< sh
      let r := isqrt x
      fp32Of false (2 * r + b2n (r * r != x)) ((e - (sh : Int)) / 2 - 1)

/-- A number that orders FP32 values other than NaN, -0 below +0 (R186). -/
def fkey (x : W32) : Int :=
  let m : Int := (x.toNat % 2147483648 : Nat)
  if x.toNat < 2147483648 then m else -m - 1

/-- MIN and MAX of R186: a NaN on either side gives the canonical NaN. -/
def fmin (a b : W32) : W32 := if isNan a || isNan b then nan32 else if fkey a ≤ fkey b then a else b
def fmax (a b : W32) : W32 := if isNan a || isNan b then nan32 else if fkey a ≤ fkey b then b else a

/-- Numeric comparison: false with a NaN; zeros of both signs are equal. -/
def feq (a b : W32) : Bool := !isNan a && !isNan b && (a == b || (!isNonzero a && !isNonzero b))
def flt (a b : W32) : Bool := !isNan a && !isNan b && decide (fkey a < fkey b) && (isNonzero a || isNonzero b)

/-- Truncates the magnitude of a term to bits of weight 2^cut and above, as a number over 2^cut (R121). -/
def truncAt (neg : Bool) (m : Nat) (e cut : Int) : Int :=
  let v : Int := if cut ≤ e then (m : Int) * (2 ^ (e - cut).toNat : Nat) else ((m >>> (cut - e).toNat : Nat) : Int)
  if neg then -v else v

/-- A term of a row pass: a value, and whether a zero counts with its sign (R122). -/
def maxLead (ts : List FV) : Option Int :=
  ts.foldl (fun acc t => match t with
    | .fin _ m e => if m = 0 then acc else match acc with
      | none => some (leadE m e)
      | some a => some (max a (leadE m e))
    | _ => acc) none

/-- The column adder tree of R121 with the special values of R122. -/
def treeSum (ts : List FV) : W32 :=
  if ts.any (· == .nan) then nan32
  else if ts.any (· == .inf false) && ts.any (· == .inf true) then nan32
  else if ts.any (· == .inf false) then inf32 false
  else if ts.any (· == .inf true) then inf32 true
  else
    let allNegZero := ts.all fun t => match t with | .fin n m _ => n && m == 0 | _ => false
    match maxLead ts with
    | none => zero32 (allNegZero && !ts.isEmpty)
    | some em =>
      let cut := em - 47
      let s := ts.foldl (fun (acc : Int) t => match t with | .fin n m e => acc + truncAt n m e cut | _ => acc) 0
      fp32OfInt false s cut

/-- The exact sum of terms, rounded once to FP32, to nearest with ties to even (R310, R133). -/
def exactSum (ts : List FV) : W32 :=
  if ts.any (· == .nan) then nan32
  else if ts.any (· == .inf false) && ts.any (· == .inf true) then nan32
  else if ts.any (· == .inf false) then inf32 false
  else if ts.any (· == .inf true) then inf32 true
  else
    let e := ts.foldl (fun (acc : Int) t => match t with | .fin _ _ e => min acc e | _ => acc) 0
    let s := ts.foldl (fun (acc : Int) t => match t with | .fin n m e0 => acc + fixAt n m e0 e | _ => acc) 0
    fp32OfInt (!ts.isEmpty && ts.all fun t => match t with | .fin n m _ => n && m == 0 | _ => false) s e

/-- Two's complement of `w` bits. -/
def sint (w x : Nat) : Int := if x % 2 ^ w < 2 ^ (w - 1) then (x % 2 ^ w : Nat) else ((x % 2 ^ w : Nat) : Int) - (2 ^ w : Nat)

/-- A number modulo 2^w. -/
def wrapW (w : Nat) (x : Int) : Nat := (x % ((2 ^ w : Nat) : Int)).toNat

/-- An integer as an exact value. -/
def intFV (x : Int) : FV := .fin (decide (x < 0)) x.natAbs 0

/-- The value of a G4 element code of a sub-block (R118): X and MU from the scale word. -/
def g4FV (scale sub code : Nat) : FV :=
  let x := scale % 256
  if x = 255 then .nan
  else .fin (bit code 3) (code % 8) ((x : Int) - 129 - (bits scale (9 + 2 * sub) (8 + 2 * sub) : Nat))

/-- An element's bits in a format, other than G4, as an exact value (R180). -/
def elemFV (fmt x : Nat) : FV :=
  match ffmt fmt with
  | some t => t.decode x
  | none => if fmt = 3 then intFV (sint 8 x) else if fmt = 4 then intFV (sint 4 x) else intFV (sint 32 x)

/-- A value that a stage hands on (R180): a NaN loses its payload. -/
def canon32 (v : W32) : W32 := if isNan v then nan32 else v

/-- Conversion of an element to FP32 (R180): exact for every format but INT32, which rounds to nearest even. -/
def elemToFP32 (fmt x : Nat) : W32 := if fmt = 8 then BitVec.ofNat 32 x else toFP32 (elemFV fmt x)

/-- The pseudo-random bits of stochastic rounding (R205). -/
def srBits (seed c i : Nat) : Nat :=
  let x := (seed + i * 0x9E3779B9 + c * 0x85EBCA6B) % 4294967296
  let x := x ^^^ (x / 65536)
  let x := (x * 0x7FEB352D) % 4294967296
  let x := x ^^^ (x / 32768)
  let x := (x * 0x846CA68B) % 4294967296
  let x := x ^^^ (x / 65536)
  x % 65536

/-- Whether a rounding mode rounds a magnitude of this sign toward zero (R204). -/
def towardZero (mode : Nat) (neg : Bool) : Bool := mode == 1 || (mode == 2 && neg) || (mode == 3 && !neg)

/-- A converted element: its bits, and whether OVF and INV are set (R204). -/
structure Conv where
  v : Nat
  ovf : Bool
  inv : Bool
deriving DecidableEq, Repr

/-- The infinity code of a format, or its NaN of the sign for E4M3 (R204). -/
def FFmt.infCode (t : FFmt) (neg : Bool) : Nat :=
  let s := if neg then 2 ^ (t.mb + t.eb) else 0
  if t.maxM = 14 then s + 0x7F else s + (2 ^ t.eb - 1) * 2 ^ t.mb

/-- The largest finite code of a sign. -/
def FFmt.maxCode (t : FFmt) (neg : Bool) : Nat := t.pack neg t.maxM t.maxE

/-- The NaN code of a format (R204). -/
def FFmt.nanCode (t : FFmt) : Nat :=
  if t.maxM = 14 then 0x7F else (2 ^ t.eb - 1) * 2 ^ t.mb + 2 ^ (t.mb - 1)

/-- Conversion to a floating target under RMODE and SAT (R203, R204). -/
def toFloatFmt (t : FFmt) (mode : Nat) (sat : Bool) (r : Nat) (x : FV) : Conv :=
  match x with
  | .nan => ⟨t.nanCode, false, false⟩
  | .inf n =>
    if t.maxM = 14 then ⟨if sat then t.maxCode n else t.infCode n, true, false⟩
    else ⟨if sat then t.maxCode n else t.infCode n, false, false⟩
  | .fin n m e =>
    if m = 0 then ⟨t.pack n 0 t.minE, false, false⟩
    else
      let l := t.lsbOf m e
      let M := roundAt mode n m e l r
      if t.beyond M l then
        if towardZero mode n then ⟨t.maxCode n, true, false⟩ else ⟨if sat then t.maxCode n else t.infCode n, true, false⟩
      else ⟨t.pack n M l, false, false⟩

/-- Conversion to a two's complement integer of `w` bits under RMODE (R203, R204). -/
def toIntFmt (w mode r : Nat) (x : FV) : Conv :=
  let hi : Int := (2 ^ (w - 1) : Nat) - 1
  let lo : Int := -((2 ^ (w - 1) : Nat) : Int)
  match x with
  | .nan => ⟨0, false, true⟩
  | .inf n => ⟨wrapW w (if n then lo else hi), true, false⟩
  | .fin n m e =>
    let M : Int := (roundAt mode n m e 0 r : Nat)
    let v := if n then -M else M
    if v < lo then ⟨wrapW w lo, true, false⟩ else if hi < v then ⟨wrapW w hi, true, false⟩ else ⟨wrapW w v, false, false⟩

/-- Conversion of an FP32 value to a format other than G4 (R203-R206). FP32 to FP32 does no rounding. -/
def convert (fmt mode : Nat) (sat : Bool) (r : Nat) (x : W32) : Conv :=
  if fmt = 8 then ⟨x.toNat, false, false⟩
  else match ffmt fmt with
    | some t => toFloatFmt t mode sat r (fv x)
    | none => toIntFmt (elemBits fmt) mode r (fv x)

/-- A value rounded to a target and held as FP32: the ROUND stage (R185, R206). -/
def roundStage (fmt mode : Nat) (sat : Bool) (r : Nat) (x : W32) : W32 × Conv :=
  let c := convert fmt mode sat r x
  (if fmt = 8 then x else match ffmt fmt with | some t => toFP32 (t.decode c.v) | none => x, c)

/-- An FP32 value rounded to BF16, to nearest even (R126). -/
def bf16Of (x : W32) : Nat := (toFloatFmt fmtBF16 0 false 0 (fv x)).v

/-- BF16 bits as FP32 bits. -/
def bf16To32 (x : Nat) : W32 := BitVec.ofNat 32 (x * 65536)

/-- The split of an FP32 operand into h and l (R126): h in bits [31:16], l in bits [15:0]. -/
def tpSplit (a : W32) : W32 :=
  match fv a with
  | .fin .. =>
    let h0 := bf16Of a
    let h := if h0 % 32768 = 0x7F80 then a.toNat / 65536 else h0
    let l := bf16Of (fsub a (bf16To32 h))
    BitVec.ofNat 32 (h * 65536 + l)
  | _ => BitVec.ofNat 32 (bf16Of a * 65536)

/-- The smallest integer p with A ≤ 7 x 2^p, for A = m x 2^e above 0: the ⌈log2(A ÷ 7)⌉ of R207. -/
def ceilLog7 (m : Nat) (e : Int) : Int :=
  let l := (Nat.log2 m : Int)
  -- m ≤ 7 x 2^(q) for q between l - 3 and l - 1
  let fits (q : Int) : Bool := if 0 ≤ q then decide (m ≤ 7 * 2 ^ q.toNat) else decide (m * 2 ^ (-q).toNat ≤ 7)
  if fits (l - 3) then l - 3 + e else if fits (l - 2) then l - 2 + e else l - 1 + e

/-- True when the magnitude m x 2^e is at most 7 x 2^p. -/
def leSeven (m : Nat) (e p : Int) : Bool :=
  if p ≤ e then decide (m * 2 ^ (e - p).toNat ≤ 7) else decide (m ≤ 7 * 2 ^ (p - e).toNat)

/-- The largest magnitude of finite values, as (m, e). -/
def maxMag (xs : List FV) : Nat × Int :=
  xs.foldl (fun acc x => match x with
    | .fin _ m e =>
      if m = 0 then acc
      else if acc.1 = 0 then (m, e)
      else
        let c := min e acc.2
        if acc.1 * 2 ^ (acc.2 - c).toNat < m * 2 ^ (e - c).toNat then (m, e) else acc
    | _ => acc) (0, 0)

/-- An encoded G4 block: scale word, the 64 codes, and whether a conversion overflowed (R204, R207). -/
structure G4Block where
  scale : Nat
  codes : List Nat
  ovf : Bool
deriving DecidableEq, Repr

/-- G4 encoding of a block of 64 values under RMODE (R207); `rs` holds the stochastic bits of each element. -/
def g4Encode (mode : Nat) (xs : List W32) (rs : List Nat) : G4Block :=
  let vs := xs.map fv
  if vs.any (fun v => match v with | .fin .. => false | _ => true) then ⟨0x00FF, List.replicate 64 0, false⟩
  else
    let A := maxMag vs
    if A.1 = 0 then ⟨0, List.replicate 64 0, false⟩
    else
      let X := min 254 (max 0 (129 + ceilLog7 A.1 A.2))
      let mu : Nat → Nat := fun q =>
        let a := maxMag (slice' vs (16 * q) 16)
        match ([3, 2, 1, 0] : List Nat).find? (fun (m : Nat) => a.1 == 0 || leSeven a.1 a.2 (X - 129 - Int.ofNat m)) with
        | some m => m
        | none => 0
      let enc (p : Nat × (FV × Nat)) : Nat × Bool :=
        match p.2.1 with
        | .fin n m e =>
          let M := roundAt mode n m e (X - 129 - (mu (p.1 / 16) : Nat)) p.2.2
          let M' := min M 7
          (if M' = 0 then 0 else M' + 8 * b2n n, decide (7 < M))
        | _ => (0, false)
      let r := ((List.range 64).zip (vs.zip rs)).map enc
      ⟨X.toNat + 256 * mu 0 + 1024 * mu 1 + 4096 * mu 2 + 16384 * mu 3, r.map (·.1), r.any (·.2)⟩
where
  /-- `n` elements from element `o`. -/
  slice' (l : List FV) (o n : Nat) : List FV := (l.drop o).take n

/-- Pairwise combination of a piece (R198). -/
def pairUp {α : Type} (f : α → α → α) : List α → List α
  | a :: b :: l => f a b :: pairUp f l
  | l => l

/-- Repeats `pairUp` until one value is left (R198). -/
def pieceF {α : Type} (f : α → α → α) (d : α) : Nat → List α → α
  | 0, l => l.headD d
  | fuel + 1, l => match l with
    | [] => d
    | [a] => a
    | _ => pieceF f d fuel (pairUp f l)

/-- The value of a piece in the fixed pairwise order of R198; `d` for an empty list. -/
def piece {α : Type} (f : α → α → α) (d : α) (l : List α) : α := pieceF f d (l.length + 1) l

/-- A sum in the pairwise order of R198, each addition rounded to FP32 (R344, R346, R353). -/
def pairSum (l : List W32) : W32 := piece fadd 0#32 l

end Sys2Proof
end

