-- ==== Sys2Proof/Machine/Binary64.lean ====
section
/-!
DEFINITION. Binary64 arithmetic, each operation rounded to nearest with ties to even, and the per-step constants of the update
engine (R348).
-/

namespace Sys2Proof

/-- The fields of binary64. -/
def fmtFP64 : FFmt := ⟨52, 11, 1023, 9007199254740991, 971⟩

/-- A value rounded once to binary64. -/
def r64 (x : FV) : FV := match x with
  | .nan => .nan
  | .inf n => .inf n
  | .fin n m e => fmtFP64.decode (toFloatFmt fmtFP64 0 false 0 (.fin n m e)).v

/-- The exact sum of two values. -/
def sumFV (a b : FV) : FV :=
  match a, b with
  | .nan, _ => .nan
  | _, .nan => .nan
  | .inf x, .inf y => if x == y then .inf x else .nan
  | .inf x, .fin .. => .inf x
  | .fin .., .inf y => .inf y
  | .fin n1 m1 e1, .fin n2 m2 e2 =>
    let e := min e1 e2
    let v := fixAt n1 m1 e1 e + fixAt n2 m2 e2 e
    if v = 0 then .fin (n1 && n2) 0 0 else .fin (decide (v < 0)) v.natAbs e

/-- The value with its sign changed. -/
def negFV : FV → FV
  | .nan => .nan
  | .inf n => .inf (!n)
  | .fin n m e => .fin (!n) m e

/-- A sum in binary64. -/
def add64 (a b : FV) : FV := r64 (sumFV a b)
/-- A difference in binary64. -/
def sub64 (a b : FV) : FV := r64 (sumFV a (negFV b))
/-- A product in binary64. -/
def mul64 (a b : FV) : FV := r64 (mulFV a b)

/-- A quotient in binary64. -/
def div64 (a b : FV) : FV :=
  match a, b with
  | .nan, _ => .nan
  | _, .nan => .nan
  | .inf _, .inf _ => .nan
  | .inf x, .fin n _ _ => .inf (x != n)
  | .fin n _ _, .inf y => .fin (n != y) 0 0
  | .fin n1 m1 e1, .fin n2 m2 e2 =>
    if m2 = 0 then (if m1 = 0 then .nan else .inf (n1 != n2))
    else if m1 = 0 then .fin (n1 != n2) 0 0
    else
      let sh := Nat.log2 m2 + 60
      let q := (m1 <<< sh) / m2
      r64 (.fin (n1 != n2) (2 * q + b2n ((m1 <<< sh) % m2 != 0)) (e1 - e2 - (sh : Int) - 1))

/-- A square root in binary64. -/
def sqrt64 (a : FV) : FV :=
  match a with
  | .nan => .nan
  | .inf n => if n then .nan else .inf false
  | .fin n m e =>
    if m = 0 then .fin n 0 0
    else if n then .nan
    else
      let sh := if e % 2 = 0 then 120 else 121
      let x := m <<< sh
      let r := isqrt x
      r64 (.fin false (2 * r + b2n (r * r != x)) ((e - (sh : Int)) / 2 - 1))

/-- The loop of pow64 (R348), over the bits of the exponent. -/
def pow64F : Nat → FV → FV → Nat → FV
  | 0, r, _, _ => r
  | n + 1, r, x, t => if t = 0 then r else pow64F n (if t % 2 = 1 then mul64 r x else r) (mul64 x x) (t / 2)

/-- pow64 (R348). -/
def pow64 (b : FV) (t : Nat) : FV := pow64F 64 (.fin false 1 0) b t

/-- The constants of a step (R348). -/
structure StepConst where
  o1 : W32
  o2 : W32
  k : W32
  a : W32
  eps : W32
deriving DecidableEq, Repr

/-- The constants from beta 1, beta 2, epsilon, lambda, eta, BIASC and the step number (R348). -/
def stepConst (b1 b2 eps wd lr : W32) (biasc : Bool) (t : Nat) : StepConst :=
  let one : FV := .fin false 1 0
  let root := sqrt64 (sub64 one (pow64 (fv b2) t))
  { o1 := toFP32 (sub64 one (fv b1)), o2 := toFP32 (sub64 one (fv b2)), k := toFP32 (sub64 one (mul64 (fv lr) (fv wd))),
    a := if biasc then toFP32 (div64 (mul64 (fv lr) root) (sub64 one (pow64 (fv b1) t))) else lr,
    eps := if biasc then toFP32 (mul64 (fv eps) root) else eps }

end Sys2Proof
end

