-- ==== Sys2Proof/Machine/Functions.lean ====
section
/-!
DEFINITION. The functions of the vector chain (R189): the special values and exact cases, and for every other input a fixed map
of which the manual gives the maximum error. The exact result is found in fixed point, well below the errors allowed, and the
map `Config.func` counts only where it keeps its bound.
-/

namespace Sys2Proof

/-- Fraction bits of the fixed-point results below. -/
def fxP : Nat := 256
/-- One in fixed point. -/
def fxOne : Int := 2 ^ fxP

/-- A finite value in fixed point. -/
def fxOf (n : Bool) (m : Nat) (e : Int) : Int :=
  let a : Int := if 0 ≤ e + fxP then ((m * 2 ^ (e + fxP).toNat : Nat) : Int) else ((m / 2 ^ (-(e + fxP)).toNat : Nat) : Int)
  if n then -a else a

/-- Product and quotient in fixed point. -/
def fxMul (a b : Int) : Int := a * b / fxOne
def fxDiv (a b : Int) : Int := a * fxOne / b

/-- The sum t + (s z t) / (c 0) + ... of `fuel` terms: each term is the last one times `z`, over what `c` gives, and `w` weighs it. -/
def fxSeries (z : Int) (c : Nat → Nat) (w : Nat → Nat) : Nat → Nat → Int → Int → Int
  | 0, _, _, acc => acc
  | fuel + 1, i, t, acc => fxSeries z c w fuel (i + 1) (fxMul t z / (c i : Int)) (acc + t / (w i : Int))

/-- Artanh of a fixed-point value of magnitude 1/3 at most. -/
def fxAtanh (t : Int) : Int := fxSeries (fxMul t t) (fun _ => 1) (fun i => 2 * i + 1) 90 0 t 0

/-- ln 2 = 2 artanh (1/3). -/
def fxLn2 : Int := 2 * fxAtanh (fxOne / 3)

/-- Arctan of 1 over a number, by its alternating series. -/
def fxAtanInv (n : Nat) : Int := fxSeries (-(fxOne / (n * n : Nat))) (fun _ => 1) (fun i => 2 * i + 1) 60 0 (fxOne / (n : Int)) 0

/-- Pi, by Machin's formula. -/
def fxPi : Int := 16 * fxAtanInv 5 - 4 * fxAtanInv 239

/-- e^x for x between -200 and 200; 0 below. -/
def fxExp (x : Int) : Int :=
  if x < -200 * fxOne then 0
  else
    let k := x / fxLn2
    let y := fxSeries (x - k * fxLn2) (fun i => i + 1) (fun _ => 1) 70 0 fxOne 0
    if 0 ≤ k then y * 2 ^ k.toNat else y / 2 ^ (-k).toNat

/-- ln x for a fixed-point value above 0. -/
def fxLn (x : Int) : Int :=
  let l : Nat := Nat.log2 x.toNat
  let m : Int := if l ≤ fxP then x * 2 ^ (fxP - l) else x / 2 ^ (l - fxP)
  ((l : Int) - fxP) * fxLn2 + 2 * fxAtanh (fxDiv (m - fxOne) (m + fxOne))

/-- e^-|x|. -/
def fxExpNeg (x : Int) : Int := fxExp (-(x.natAbs : Int))

/-- tanh x. -/
def fxTanh (x : Int) : Int :=
  let q := fxExpNeg (2 * x)
  let y := fxDiv (fxOne - q) (fxOne + q)
  if x < 0 then -y else y

/-- 1 / (1 + e^-x). -/
def fxSigmoid (x : Int) : Int :=
  let q := fxExpNeg x
  if x < 0 then fxDiv q (fxOne + q) else fxDiv fxOne (fxOne + q)

/-- The square root of a fixed-point value not below 0. -/
def fxSqrt (x : Int) : Int := (isqrt (x.toNat * 2 ^ fxP) : Nat)

/-- erf x: its series up to |x| = 9, and 1 in magnitude beyond, which is within 2^-120 of it. -/
def fxErf (x : Int) : Int :=
  if 9 * fxOne < x.natAbs then (if x < 0 then -fxOne else fxOne)
  else
    let s := fxSeries (-(fxMul x x)) (fun i => i + 1) (fun i => 2 * i + 1) 400 0 x 0
    fxDiv (2 * s) (fxSqrt fxPi)

/-- sin x, x reduced modulo 2 pi. -/
def fxSin (x : Int) : Int :=
  let r := x % (2 * fxPi)
  let r := if fxPi < r then r - 2 * fxPi else r
  fxSeries (-(fxMul r r)) (fun i => (2 * i + 2) * (2 * i + 3)) (fun _ => 1) 60 0 r 0

/-- The GELU of R189 with tanh: its constants are the FP32 values 0x3F4C_422A and 0.044715 rounded to FP32. -/
def fxGeluT (x : Int) : Int :=
  if 256 * fxOne < x.natAbs then (if x < 0 then 0 else x)
  else
    let con := fun (w : W32) => match fv w with | .fin n m e => fxOf n m e | _ => 0
    let cub := fxMul (fxMul x x) x
    let u := fxMul (con 0x3F4C422A#32) (x + fxMul (con (fp32Of false (44715 * 2 ^ 64 / 1000000) (-64))) cub)
    fxMul (x / 2) (fxOne + fxTanh u)

/-- The spacing of FP32 values at the magnitude of a fixed-point result, 2^-149 below 2^-126 (R189). -/
def fxUlp (y : Int) : Int :=
  let e : Int := (Nat.log2 y.natAbs : Int) - fxP
  (2 ^ ((max e (-126)) - 23 + fxP).toNat : Nat)

/-- The exact result of a function at a finite x other than its special values, and the largest error allowed (R189). -/
def fxFunc (code : Nat) (x : Int) : Int × Int :=
  let ulps := fun (n : Int) (y : Int) => (y, n * fxUlp y + 2 ^ (fxP - 210))
  let abs := fun (k : Nat) (scale : Int) (y : Int) => (y, max fxOne scale / 2 ^ k + 2 ^ (fxP - 60))
  match code with
  | 1 => ulps 1 (fxDiv fxOne (fxSqrt x))
  | 3 => ulps 2 (fxExp x)
  | 4 => ulps 1 (fxExp (fxMul x fxLn2))
  | 5 => ulps 2 (fxLn x)
  | 6 => ulps 2 (fxDiv (fxLn x) fxLn2)
  | 7 => ulps 2 (fxTanh x)
  | 8 => ulps 2 (fxSigmoid x)
  | 9 => abs 22 x.natAbs (fxGeluT x)
  | 10 => abs 22 x.natAbs (fxMul (x / 2) (fxOne + fxErf (fxDiv x (fxSqrt (2 * fxOne)))))
  | 11 => ulps 3 (fxMul x (fxSigmoid x))
  | 12 => abs 23 0 (fxErf x)
  | 13 => abs 22 0 (fxSin x)
  | 14 => abs 22 0 (fxSin (x + fxPi / 2))
  | _ =>
    let y := (if 0 < x then x else 0) + fxLn (fxOne + fxExpNeg x)
    abs 22 y.natAbs y

/-- The fixed map's value where it keeps the bound of R189; otherwise the exact result rounded to FP32 (log entry 24). -/
def within (r : Int × Int) (y : W32) : W32 :=
  let ok := match fv y with
    | .fin n m e => decide (((fxOf n m e - r.1).natAbs : Int) ≤ r.2)
    | _ => false
  if ok then y else fp32Of (decide (r.1 < 0)) r.1.natAbs (-(fxP : Int))

/-- A function at an input without a special value: an infinite one is left to the map. -/
def vbound (code : Nat) (x : W32) : W32 :=
  match fv x with
  | .fin n m e => within (fxFunc code (fxOf n m e)) (Config.func code x)
  | _ => Config.func code x

/-- True when |r - 1/x| is at most one ulp of the exact result, for finite x other than zero (R189). -/
def recipClose (x r : W32) : Bool :=
  match fv x, fv r with
  | .fin nx mx ex, .fin nr mr er =>
    -- compare |mr x 2^er x mx x 2^ex - 1| with ulp x mx x 2^ex, in a common scale
    let ulpE : Int := max (-(leadE mx ex) - (if Nat.log2 mx = 0 ∨ mx = 2 ^ Nat.log2 mx then 0 else 1) - 23) (-149)
    let c := min (min (er + ex) 0) (ulpE + ex)
    let p : Int := ((mr * mx) * 2 ^ (er + ex - c).toNat : Nat)
    let one : Int := (2 ^ (0 - c).toNat : Nat)
    let u : Int := (mx * 2 ^ (ulpE + ex - c).toNat : Nat)
    nx == nr && decide ((p - one).natAbs ≤ u.natAbs)
  | .fin nx _ _, .inf nr => nx == nr && fdiv one32 x == inf32 nx
  | _, _ => false

/-- x > 88.7228, the limit of EXP (R189). -/
def aboveExpLimit (x : W32) : Bool :=
  match fv x with
  | .fin false m e => if 0 ≤ e then decide (887228 < m * 2 ^ e.toNat * 10000) else decide (887228 * 2 ^ (-e).toNat < m * 10000)
  | .inf false => true
  | _ => false

/-- The functions of R189: the special values and exact cases it states, SQRT correctly rounded, and otherwise the fixed map
`Config.func`, held to the maximum error of each function (log entry 24). -/
def vfunc (code : Nat) (x : W32) : W32 :=
  if isNan x then nan32
  else
    let negv := decide (2147483648 ≤ x.toNat)
    let zero := !isNonzero x
    let inf := isInf x
    match code with
    | 0 => if zero then inf32 negv else if inf then zero32 negv
        else if recipClose x (Config.func 0 x) then Config.func 0 x else fdiv one32 x
    | 1 => if zero then inf32 negv else if negv then nan32 else if inf then zero32 false else vbound 1 x
    | 2 => fsqrt x
    | 3 => if inf && negv then zero32 false else if aboveExpLimit x then inf32 false else vbound 3 x
    | 4 => if decide (fkey 0x43000000#32 ≤ fkey x) then inf32 false else vbound 4 x
    | 5 => if zero then inf32 true else if negv then nan32 else if x == one32 then 0#32 else vbound 5 x
    | 6 =>
      if zero then inf32 true else if negv then nan32
      else match fv x with
        | .fin _ m e => if m = 2 ^ Nat.log2 m then toFP32 (intFV (leadE m e)) else vbound 6 x
        | _ => vbound 6 x
    | 7 => if inf then (if negv then fneg one32 else one32) else vbound 7 x
    | 8 => if inf then (if negv then 0#32 else one32) else vbound 8 x
    | 9 => if inf then (if negv then zero32 true else inf32 false) else vbound 9 x
    | 10 => if inf then (if negv then zero32 true else inf32 false) else vbound 10 x
    | 11 => if inf then (if negv then zero32 true else inf32 false) else vbound 11 x
    | 12 => if inf then (if negv then fneg one32 else one32) else vbound 12 x
    | 13 => if decide (fkey 0x47000000#32 < fkey (fabs x)) then nan32 else vbound 13 x
    | 14 => if decide (fkey 0x47000000#32 < fkey (fabs x)) then nan32 else vbound 14 x
    | _ => if inf then (if negv then 0#32 else inf32 false) else vbound 15 x

end Sys2Proof
end

