-- ==== Sys2Proof/Machine/Layout.lean ====
section
/-!
DEFINITION. Coordinates, numbering and the address map: R6-R10, R18, R19, R22, R29-R34, R216, R283, R412.
-/

namespace Sys2Proof

/-- The grades of R1 and R4. -/
inductive Grade where
  | gx9_3072
  | gx9_2880
deriving DecidableEq, Repr

/-- Active files of a grade (R1): 64 or 60. -/
def Grade.files : Grade → Nat
  | .gx9_3072 => 64
  | .gx9_2880 => 60

/-- The GRADE field of MGMT_IDENT (R4). -/
def Grade.code : Grade → Nat
  | .gx9_3072 => 1
  | .gx9_2880 => 2

/-- Allocation blocks of a grade, the B of R52. -/
def Grade.blocks : Grade → Nat
  | .gx9_3072 => 96
  | .gx9_2880 => 90

/-- The index k x 64 + f of core f.k (R18, R205). -/
def coreId (f k : Nat) : Nat := k * 64 + f

/-- The file of a core index. -/
def fileOf (c : Nat) : Nat := c % 64

/-- The rank of a core index. -/
def rankOf (c : Nat) : Nat := c / 64

/-- True for an active core (R1, R2). -/
def coreActive (g : Grade) (f k : Nat) : Bool := decide (f < g.files) && decide (k < 48)

/-- The die of core f.k (R8). -/
def dieOf (f k : Nat) : Nat := b2n (decide (32 ≤ f)) + 2 * b2n (decide (24 ≤ k))

/-- The die of a core index. -/
def dieOfCore (c : Nat) : Nat := dieOf (fileOf c) (rankOf c)

/-- A region rectangle f0.k0-f1.k1, both corners included (R7). -/
structure Rect where
  f0 : Nat
  k0 : Nat
  f1 : Nat
  k1 : Nat
deriving DecidableEq, Repr

/-- Width in files. -/
def Rect.files (r : Rect) : Nat := r.f1 + 1 - r.f0

/-- Height in ranks. -/
def Rect.ranks (r : Rect) : Nat := r.k1 + 1 - r.k0

/-- True when core f.k lies in the rectangle. -/
def Rect.has (r : Rect) (f k : Nat) : Bool :=
  decide (r.f0 ≤ f) && decide (f ≤ r.f1) && decide (r.k0 ≤ k) && decide (k ≤ r.k1)

/-- True when a core index lies in the rectangle. -/
def Rect.hasCore (r : Rect) (c : Nat) : Bool := r.has (fileOf c) (rankOf c)

/-- The core indices of the rectangle, rank by rank, file by file. -/
def Rect.cores (r : Rect) : List Nat :=
  (List.range r.ranks).flatMap fun dk => (List.range r.files).map fun df => coreId (r.f0 + df) (r.k0 + dk)

/-- True when the two rectangles share a core. -/
def Rect.meets (a b : Rect) : Bool :=
  decide (a.f0 ≤ b.f1) && decide (b.f0 ≤ a.f1) && decide (a.k0 ≤ b.k1) && decide (b.k0 ≤ a.k1)

/-- The dies that the rectangle touches. -/
def Rect.dies (r : Rect) : List Nat :=
  (List.range 4).filter fun d => r.cores.any fun c => dieOfCore c == d

/-- True when the rectangle spans dies (R49). -/
def Rect.spans (r : Rect) : Bool := dieOf r.f0 r.k0 != dieOf r.f1 r.k1

/-- The global allocation block of core f.k: g = 24 x d + j (R216, R412). -/
def blockOf (f k : Nat) : Nat := 24 * dieOf f k + (f % 32) / 4 + 8 * ((k % 24) / 8)

/-- True for a block that the grade has (R2): dies 1 and 3 lose j = 7, 15, 23 on the GX9-2880. -/
def blockActive (g : Grade) (b : Nat) : Bool :=
  decide (b < 96) && (g == .gx9_3072 || b / 24 % 2 == 0 || b % 8 != 7)

/-- Where an address lies (R18, R19). -/
inductive Place where
  /-- byte `ofs` of stack `s` -/
  | stack (s ofs : Nat)
  /-- byte `ofs` of die `d`'s shared memory -/
  | shared (d ofs : Nat)
  /-- byte `ofs` of the core window of core index `c` -/
  | window (c ofs : Nat)
  /-- byte `ofs` of die `d`'s book -/
  | book (d ofs : Nat)
  /-- management register offset -/
  | mgmt (ofs : Nat)
  | part (p ofs : Nat)
  | die (d ofs : Nat)
  | hstk (s ofs : Nat)
  | lnka (n ofs : Nat)
  | lnkb (n ofs : Nat)
  /-- an address that the map does not list -/
  | none
deriving DecidableEq, Repr

/-- Bytes of a stack: 96 GiB. -/
def stackBytes : Nat := 0x1800000000
/-- First address of stack s (R18). -/
def stackBase (s : Nat) : Nat := s * stackBytes
/-- First address of die d's shared memory (R18). -/
def sharedBase (d : Nat) : Nat := 0x010000000000 + d * 0x08000000
/-- Populated bytes of a die's shared memory: 72 MiB. -/
def sharedBytes : Nat := 0x04800000
/-- The part of shared memory that goes with one allocation block: 3 MiB (R216). -/
def partBytes : Nat := 0x300000
/-- First address of core index c's window (R18). -/
def windowBase (c : Nat) : Nat := 0x020000000000 + c * 0x80000
/-- Bytes of core memory: 384 KiB. -/
def coreMemBytes : Nat := 0x60000
/-- First address of accumulator row `r` of array `a` of core `c` (R212). -/
def accAddr (c a r : Nat) : Nat := windowBase c + 0x60000 + a * 0x8000 + r * 64
/-- First address of the core registers of core c (R19). -/
def coreRegBase (c : Nat) : Nat := windowBase c + 0x70000

/-- The place of a device address (R18, R22). Register blocks end where the next instance begins. -/
def place (g : Grade) (a : Nat) : Place :=
  if a < 8 * stackBytes then .stack (a / stackBytes) (a % stackBytes)
  else if 0x010000000000 ≤ a ∧ a < 0x010000000000 + 4 * 0x08000000 then
    let o := a - 0x010000000000
    if o % 0x08000000 < sharedBytes then .shared (o / 0x08000000) (o % 0x08000000) else .none
  else if 0x020000000000 ≤ a ∧ a < 0x020060000000 then
    let o := a - 0x020000000000
    let c := o / 0x80000
    if coreActive g (fileOf c) (rankOf c) then .window c (o % 0x80000) else .none
  else if 0x030000000000 ≤ a ∧ a < 0x030000000000 + 4 * 0x08000000 then
    let o := a - 0x030000000000
    if o % 0x08000000 < 0x02000000 then .book (o / 0x08000000) (o % 0x08000000) else .none
  else if 0x040000000000 ≤ a ∧ a < 0x040000100000 then .mgmt (a - 0x040000000000)
  else if 0x040000100000 ≤ a ∧ a < 0x040000180000 then .part ((a - 0x040000100000) / 0x10000) ((a - 0x040000100000) % 0x10000)
  else if 0x040001000000 ≤ a ∧ a < 0x040001400000 then .die ((a - 0x040001000000) / 0x100000) ((a - 0x040001000000) % 0x100000)
  else if 0x040002000000 ≤ a ∧ a < 0x040002800000 then .hstk ((a - 0x040002000000) / 0x100000) ((a - 0x040002000000) % 0x100000)
  else if 0x040003000000 ≤ a ∧ a < 0x040003040000 then .lnka ((a - 0x040003000000) / 0x10000) ((a - 0x040003000000) % 0x10000)
  else if 0x040003100000 ≤ a ∧ a < 0x040003140000 then .lnkb ((a - 0x040003100000) / 0x10000) ((a - 0x040003100000) % 0x10000)
  else .none

/-- The stack whose edge router core f.k is, if any (R30, R31). -/
def stackOfEdge (g : Grade) (f k : Nat) : Option Nat :=
  if coreActive g f k then
    if k = 0 then some (f / 16) else if k = 47 then some (4 + f / 16) else none
  else none

/-- The network A port at core f.k, if any (R30). -/
def portAOfEdge (f k : Nat) : Option Nat :=
  if f = 0 then (if k = 6 then some 0 else if k = 17 then some 1 else if k = 30 then some 2 else if k = 41 then some 3 else none)
  else none

/-- The network B port at core f.k, if any (R30, R31). -/
def portBOfEdge (g : Grade) (f k : Nat) : Option Nat :=
  if f + 1 = g.files then (if k = 6 then some 0 else if k = 17 then some 1 else if k = 30 then some 2 else if k = 41 then some 3 else none)
  else none

/-- The core at which network B port n attaches. -/
def portBCore (g : Grade) (n : Nat) : Nat := coreId (g.files - 1) (nth 6 [6, 17, 30, 41] n)

/-- True for a shared-memory attachment core (R32). -/
def isAttach (f k : Nat) : Bool :=
  (f % 8 == 3) && decide (f < 64) && (k == 5 || k == 17 || k == 29 || k == 41)

/-- The five ports of a router, and the vertical and outward ones (R30, R32, R36), in the fixed cyclic order of R252. The
outward port of an edge router is the one of the four sides that faces nothing. -/
inductive RPort where
  | north
  | east
  | south
  | west
  | loc
  | vertical
deriving DecidableEq, Repr

/-- The cyclic order of R252. -/
def RPort.num : RPort → Nat
  | .north => 0
  | .east => 1
  | .south => 2
  | .west => 3
  | .loc => 4
  | .vertical => 5

/-- The port with a number of the cyclic order. -/
def RPort.ofNum : Nat → RPort
  | 0 => .north
  | 1 => .east
  | 2 => .south
  | 3 => .west
  | 4 => .loc
  | _ => .vertical

/-- The core that a side of a router faces; none outside the active grid. -/
def neighbour (g : Grade) (c : Nat) : RPort → Option Nat
  | .north => if rankOf c + 1 < 48 then some (c + 64) else none
  | .south => if 0 < rankOf c then some (c - 64) else none
  | .east => if fileOf c + 1 < g.files then some (c + 1) else none
  | .west => if 0 < fileOf c then some (c - 1) else none
  | _ => none

/-- The side on which a flit that leaves through a port comes in at the neighbour. -/
def RPort.facing : RPort → RPort
  | .north => .south
  | .south => .north
  | .east => .west
  | .west => .east
  | p => p

/-- Where in a stack a codeword lies (R284). -/
structure StackPlace where
  pc : Nat
  col : Nat
  bank : Nat
  row : Nat
  sid : Nat
deriving DecidableEq, Repr

/-- The address interleave of R284. -/
def stackPlace (a : Nat) : StackPlace where
  pc := bits a 10 6 ^^^ bits a 15 11 ^^^ bits a 20 16 ^^^ bits a 25 21 ^^^ bits a 30 26 ^^^ bits a 35 31
  col := bits a 14 11
  bank := bits a 18 15 ^^^ bits a 29 26
  row := bits a 34 19
  sid := bits a 36 35

end Sys2Proof
end

