-- ==== Sys2Proof/Machine/Formats.lean ====
section
/-!
DEFINITION. The layouts of a setup as plain data, each with the reader of its bytes: header and tables (R57-R61), the
section of a core (R62, R63), matrix instructions (R106), tile descriptors (R145, R146), vector programs (R181, R182),
memory actions (R223-R229, R232-R239), queue and route words (R246, R247), flag actions (R261), steering actions (R88).
-/

namespace Sys2Proof

/-- A step program entry (R58). -/
structure ProgE where
  step : Nat
  last : Bool
  rep : Nat
  lcEn : Bool
  lcSel : Nat
  ltgt : Nat
  guse : Nat
  cldEn : Bool
  cld : Nat
  cslot : Nat
deriving DecidableEq, Repr

/-- Reads a step program entry (R58). -/
def ProgE.read (x : Nat) : ProgE where
  step := bits x 9 0
  last := bit x 10
  rep := bits x 31 16
  lcEn := bit x 35
  lcSel := bits x 34 32
  ltgt := bits x 47 36
  guse := bits x 55 48
  cldEn := bit x 59
  cld := bits x 58 56
  cslot := bits x 62 60

/-- A gated slot descriptor (R59, R263). -/
structure GateD where
  file : Nat
  rank : Nat
  chan : Nat
  out : Bool
  kind : Nat
deriving DecidableEq, Repr

/-- Reads a gated slot descriptor (R59). -/
def GateD.read (bs : List Byte) : GateD where
  file := fld bs 0 1
  rank := fld bs 1 1
  chan := fld bs 2 1
  out := bit (fld bs 3 1) 0
  kind := bits (fld bs 3 1) 3 1

/-- A steered channel table entry (R61). -/
structure SteerD where
  file : Nat
  rank : Nat
  ndest : Nat
deriving DecidableEq, Repr

/-- The setup header (R57). -/
structure SetupHdr where
  format : Nat
  hdrsize : Nat
  files : Nat
  ranks : Nat
  proglen : Nat
  ngate : Nat
  nsteer : Nat
  nguse : Nat
  progOfs : Nat
  gateOfs : Nat
  guseOfs : Nat
  steerOfs : Nat
  total : Nat
deriving DecidableEq, Repr

/-- Reads the setup header (R57). -/
def SetupHdr.read (bs : List Byte) : SetupHdr where
  format := fld bs 0 2
  hdrsize := fld bs 2 2
  files := fld bs 4 1
  ranks := fld bs 5 1
  proglen := fld bs 6 2
  ngate := fld bs 8 1
  nsteer := fld bs 9 1
  nguse := fld bs 10 2
  progOfs := fld bs 12 4
  gateOfs := fld bs 16 4
  guseOfs := fld bs 20 4
  steerOfs := fld bs 24 4
  total := fld bs 28 4

/-- The tables of a setup, read into a region's sequencer (R56). -/
structure Tables where
  prog : List ProgE
  gates : List GateD
  guse : List Nat
  steer : List SteerD
deriving DecidableEq, Repr

/-- No tables. -/
def Tables.empty : Tables := ⟨[], [], [], []⟩

/-- `n` items of `sz` bytes from offset `o`. -/
def items (bs : List Byte) (o sz n : Nat) : List (List Byte) := (List.range n).map fun i => slice bs (o + i * sz) sz

/-- Reads the tables by the header (R57). -/
def Tables.read (h : SetupHdr) (bs : List Byte) : Tables where
  prog := (items bs h.progOfs 8 h.proglen).map fun b => ProgE.read (leNat b)
  gates := (items bs h.gateOfs 8 h.ngate).map GateD.read
  guse := (items bs h.guseOfs 4 h.nguse).map leNat
  steer := (items bs h.steerOfs 8 h.nsteer).map fun b => ⟨fld b 0 1, fld b 1 1, fld b 2 1⟩

/-- A matrix instruction (R106). -/
structure MatI where
  op : Nat
  ifmt : Nat
  wfmt : Nat
  pair : Bool
  swap : Bool
  chk : Bool
  hin : Bool
  dest : Nat
  src : Nat
  gpos : Nat
  khalf : Nat
  nrows : Nat
  arow : Nat
  /-- the field as it stands; 0 encodes 512 -/
  alenF : Nat
  tile : Nat
  wsrc : Nat
  chan : Nat
  stag : Nat
deriving DecidableEq, Repr

/-- Reads a matrix instruction (R106). -/
def MatI.read (bs : List Byte) : MatI :=
  let x := leNat bs
  { op := bits x 3 0, ifmt := bits x 7 4, wfmt := bits x 11 8, pair := bit x 12, swap := bit x 13, chk := bit x 14,
    hin := bit x 15, dest := bits x 17 16, src := bits x 19 18, gpos := bits x 24 20, khalf := bits x 25 25,
    nrows := bits x 47 32, arow := bits x 56 48, alenF := bits x 65 57, tile := bits x 79 72, wsrc := bits x 83 80,
    chan := bits x 87 84, stag := bits x 103 88 }

/-- The reserved bits of R106: [31:26], [71:66], [127:104]. -/
def MatI.reserved (bs : List Byte) : Nat :=
  let x := leNat bs
  bits x 31 26 + bits x 71 66 + bits x 127 104

/-- ALEN in rows: 0 encodes 512 (R106). -/
def MatI.alen (i : MatI) : Nat := if i.alenF = 0 then 512 else i.alenF

/-- Cycles per row (R102), by input format. -/
def cycPerRow (ifmt : Nat) : Nat := if ifmt = 8 then 6 else if ifmt = 6 ∨ ifmt = 7 then 2 else 1

/-- A base word (R146). -/
structure BaseW where
  ofs : Nat
  cast : Bool
  buf : Nat
  tr : Bool
  resv : Nat
deriving DecidableEq, Repr

/-- Reads a base word (R146). -/
def BaseW.read (x : Nat) : BaseW := ⟨bits x 18 0, bit x 19, bits x 23 20, bit x 24, bits x 31 25⟩

/-- A tile descriptor (R145). -/
structure TileD where
  aen : Bool
  wen : Bool
  cen : Bool
  kfirst : Bool
  fprod : Bool
  fcons : Bool
  ord1 : Nat
  ord2 : Nat
  curve : Nat
  flink : Nat
  cfmt : Nat
  mv : Nat
  nv : Nat
  kv : Nat
  mb : Nat
  mt1 : Nat
  nt1 : Nat
  kt1 : Nat
  ofEn : Bool
  ofSel : Nat
  a : BaseW
  b : BaseW
  c : BaseW
  astr : Nat
  bstr : Nat
  cstr : Nat
  frows : Nat
  ascl : BaseW
  bscl : BaseW
  /-- batch counts of loops 0, 1, 2, each at least 1 -/
  bc : List Nat
  /-- batch strides in bytes: per loop, of A, B and C -/
  bs : List (Nat × Nat × Nat)
  /-- sum of the reserved fields -/
  resv : Nat
deriving DecidableEq, Repr

/-- Reads a tile descriptor (R145): counts of 0 read as what they encode. -/
def TileD.read (bs : List Byte) : TileD :=
  let ctl := fld bs 0 1
  let ord := fld bs 1 1
  let e256 := fun x => if x = 0 then 256 else x
  let bst := fun o => (fld bs o 2 * 64, fld bs (o + 2) 2 * 64, fld bs (o + 4) 2 * 64)
  let scl := fun (x : Nat) => (⟨bits x 18 0, bit x 19, bits x 23 20, false, 0⟩ : BaseW)
  { aen := bit ctl 0, wen := bit ctl 1, cen := bit ctl 2, kfirst := bit ctl 3, fprod := bit ctl 4, fcons := bit ctl 5,
    ord1 := bits ord 2 0, ord2 := bits ord 5 3, curve := bits ord 7 6, flink := fld bs 2 1, cfmt := bits (fld bs 3 1) 3 0,
    mv := fld bs 4 2, nv := fld bs 6 2, kv := fld bs 8 2, mb := bits (fld bs 10 2) 9 0, mt1 := e256 (fld bs 12 1),
    nt1 := e256 (fld bs 13 1), kt1 := e256 (fld bs 14 1), ofEn := bit (fld bs 15 1) 3, ofSel := bits (fld bs 15 1) 2 0,
    a := BaseW.read (fld bs 16 4), b := BaseW.read (fld bs 20 4), c := BaseW.read (fld bs 24 4), astr := fld bs 28 2,
    bstr := fld bs 30 2, cstr := fld bs 32 2, frows := fld bs 34 2, ascl := scl (fld bs 36 3), bscl := scl (fld bs 39 3),
    bc := [max 1 (fld bs 42 1), max 1 (fld bs 43 1), max 1 (fld bs 44 1)], bs := [bst 46, bst 52, bst 58],
    resv := bits ctl 7 6 + bits (fld bs 3 1) 7 4 + bits (fld bs 10 2) 15 10 + bits (fld bs 15 1) 7 4 + fld bs 45 1
      + (BaseW.read (fld bs 16 4)).resv + (BaseW.read (fld bs 20 4)).resv + (BaseW.read (fld bs 24 4)).resv }

/-- A vector stage word (R182). -/
structure Stage where
  type : Nat
  opt : Nat
  param : Nat
  imm : W32
  /-- the reserved bits of TYPE -/
  resv : Nat
deriving DecidableEq, Repr

/-- A vector chain program (R181). -/
structure VecP where
  countF : Nat
  nsel : Nat
  nselEn : Bool
  unit : Bool
  nstg : Nat
  rmode : Nat
  sat : Bool
  xk : Nat
  xf : Nat
  yk : Nat
  yf : Nat
  dk : Nat
  df : Nat
  xadr : Nat
  yadr : Nat
  dadr : Nat
  scSel : Nat
  scEn : Bool
  seed : Nat
  ylen : Nat
  ydiv : Nat
  stages : List Stage
  /-- true when every reserved field and every stage word beyond NSTG is zero -/
  clean : Bool
deriving DecidableEq, Repr

/-- Reads a stage word (R182). -/
def Stage.read (bs : List Byte) : Stage :=
  ⟨bits (fld bs 0 1) 3 0, fld bs 1 1, fld bs 2 2, BitVec.ofNat 32 (fld bs 4 4), bits (fld bs 0 1) 7 4⟩

/-- Reads a vector chain program (R181). -/
def VecP.read (bs : List Byte) : VecP :=
  let ctl := fld bs 3 1
  let nstg := bits ctl 2 0
  { countF := bits (fld bs 0 2) 11 0, nsel := bits (fld bs 2 1) 2 0, nselEn := bit (fld bs 2 1) 3, unit := bit (fld bs 2 1) 4,
    nstg := nstg, rmode := bits ctl 5 3, sat := bit ctl 6, xk := bits (fld bs 4 1) 3 0, xf := bits (fld bs 4 1) 7 4,
    yk := bits (fld bs 5 1) 3 0, yf := bits (fld bs 5 1) 7 4, dk := bits (fld bs 6 1) 3 0, df := bits (fld bs 6 1) 7 4,
    xadr := fld bs 8 2, yadr := fld bs 10 2, dadr := fld bs 12 2, scSel := bits (fld bs 14 1) 2 0, scEn := bit (fld bs 14 1) 3,
    seed := fld bs 16 4, ylen := bits (fld bs 20 2) 12 0, ydiv := bits (fld bs 22 2) 12 0,
    stages := (items bs 24 8 (min nstg 5)).map Stage.read,
    clean := bits (fld bs 0 2) 15 12 == 0 && bits (fld bs 2 1) 7 5 == 0 && !bit ctl 7 && fld bs 7 1 == 0
      && bits (fld bs 14 1) 7 4 == 0 && fld bs 15 1 == 0 && bits (fld bs 20 2) 15 13 == 0 && bits (fld bs 22 2) 15 13 == 0
      && allZero (bs.drop (24 + 8 * nstg)) }

/-- COUNT in elements: 0 encodes 4,096 (R181). -/
def VecP.count (p : VecP) : Nat := if p.countF = 0 then 4096 else p.countF

/-- The first stage of a type, if the program has one. -/
def VecP.stage? (p : VecP) (t : Nat) : Option Stage := p.stages.find? (·.type == t)

/-- A DMAIN or DMAOUT action (R225). -/
structure DmaA where
  port : Nat
  pace : Nat
  fdone : Bool
  acc : Bool
  arr : Nat
  base : BaseW
  rowb : Nat
  nrow : Nat
  stride : Nat
deriving DecidableEq, Repr

/-- A BUFDEF action (R232). -/
structure BufA where
  buf : Nat
  bank0 : Nat
  bank1 : Nat
  nbank : Nat
  cmask : Nat
  fmask : Nat
  flag : Nat
  finit : Bool
  cur : Nat
deriving DecidableEq, Repr

/-- A ROTDEF action (R238). -/
structure RotD where
  rbank : Nat
  rnb : Nat
  tsz : Nat
  nslot : Nat
  rdir : Nat
deriving DecidableEq, Repr

/-- A memory action (R223). -/
inductive MemA where
  | bankmap (masks : List Nat)
  | bufdef (b : BufA)
  | rotdef (r : RotD)
  | cursor (arr : Nat) (weight : Bool) (base : BaseW) (stride : Nat)
  | castle (bufs : Nat)
  | dmain (d : DmaA)
  | dmaout (d : DmaA)
  | smreq (route : Nat) (write : Bool) (dchan addr entries stride : Nat)
  | rotate (rslot rnt mode : Nat)
  /-- an op code that R223 does not list -/
  | bad
deriving DecidableEq, Repr

/-- Reads a DMA action (R225). -/
def DmaA.read (bs : List Byte) : DmaA :=
  let pf := fld bs 1 1
  let d := fld bs 2 1
  ⟨bits pf 3 0, bits pf 7 4 + 1, bit d 0, bit d 1, bits d 2 2, BaseW.read (fld bs 4 4), fld bs 8 2, fld bs 10 2,
    bits (fld bs 12 4) 18 0⟩

/-- Reads a memory action (R223). -/
def MemA.read (bs : List Byte) : MemA :=
  match fld bs 0 1 % 16 with
  | 1 => .bankmap ((List.range 24).map fun b => bits (fld bs 1 12) (4 * b + 3) (4 * b))
  | 2 => .bufdef ⟨bits (fld bs 1 1) 3 0, fld bs 2 1, fld bs 3 1, fld bs 4 1, bits (fld bs 5 1) 3 0, bits (fld bs 5 1) 7 4,
      bits (fld bs 6 1) 5 0, bit (fld bs 6 1) 6, bits (fld bs 7 1) 0 0⟩
  | 3 => .rotdef ⟨fld bs 1 1, fld bs 2 1, fld bs 3 1, fld bs 4 1, bits (fld bs 5 1) 0 0⟩
  | 4 => .cursor (bits (fld bs 1 1) 0 0) (bit (fld bs 1 1) 1) (BaseW.read (fld bs 4 4)) (fld bs 8 2)
  | 5 => .castle (fld bs 2 2)
  | 6 => .dmain (DmaA.read bs)
  | 7 => .dmaout (DmaA.read bs)
  | 8 => .smreq (bits (fld bs 1 1) 3 0) (bit (fld bs 1 1) 4) (fld bs 2 1) (fld bs 4 6) (fld bs 10 2) (bits (fld bs 12 4) 23 0)
  | 9 => .rotate (fld bs 1 1) (fld bs 2 1) (bits (fld bs 3 1) 0 0)
  | _ => .bad

/-- True when the bits of a memory action that a load wants zero are zero: the upper half of byte 0 (R223), and the reserved
fields of CURSOR (R224), DMAIN and DMAOUT (R501). Those of the other actions are ignored (R13). -/
def MemA.clean (bs : List Byte) : Bool :=
  bits (fld bs 0 1) 7 4 == 0 &&
  match fld bs 0 1 % 16 with
  | 4 => bits (fld bs 1 1) 7 2 == 0 && fld bs 2 2 == 0 && allZero (bs.drop 10)
  | 6 => bits (fld bs 2 1) 7 3 == 0 && fld bs 3 1 == 0 && bits (fld bs 12 4) 31 19 == 0
  | 7 => bits (fld bs 2 1) 7 3 == 0 && fld bs 3 1 == 0 && bits (fld bs 12 4) 31 19 == 0
  | _ => true

/-- A flag action (R261). -/
structure FlagA where
  op : Nat
  tgt : Nat
  flag : Nat
  route : Nat
  dfile : Nat
  drank : Nat
  clean : Bool
deriving DecidableEq, Repr

/-- Reads a flag action (R261). -/
def FlagA.read (bs : List Byte) : FlagA :=
  ⟨bits (fld bs 0 1) 1 0, bits (fld bs 0 1) 3 2, fld bs 1 1, fld bs 2 1, fld bs 3 1, fld bs 4 1,
    bits (fld bs 0 1) 7 4 == 0 && fld bs 5 3 == 0⟩

/-- A steering action (R88). -/
structure SteerA where
  slot : Nat
  op : Nat
  dchan : Nat
  tchan : Nat
  dest : Nat
deriving DecidableEq, Repr

/-- Reads a steering action (R88). -/
def SteerA.read (bs : List Byte) : SteerA :=
  ⟨bits (fld bs 0 1) 2 0, fld bs 1 1, fld bs 2 1, fld bs 3 1, fld bs 4 2⟩

/-- The queue table word of a queue (R246). -/
structure QWord where
  depth : Nat
  skind : Nat
  sfile : Nat
  srank : Nat
  sroute : Nat
deriving DecidableEq, Repr

/-- Reads a queue word (R246). -/
def QWord.read (x : Nat) : QWord := ⟨bits x 8 0, bits x 11 9, bits x 17 12, bits x 23 18, bits x 27 24⟩

/-- No queue. -/
def QWord.empty : QWord := ⟨0, 0, 0, 0, 0⟩

/-- A route word (R247). -/
structure RWord where
  dfile : Nat
  drank : Nat
  dchan : Nat
  tgt : Nat
  rankFirst : Bool
deriving DecidableEq, Repr

/-- Reads a route word (R247). -/
def RWord.read (x : Nat) : RWord := ⟨bits x 5 0, bits x 11 6, bits x 15 12, bits x 18 16, bit x 19⟩

/-- The destination core of a route word. -/
def RWord.core (w : RWord) : Nat := coreId w.dfile w.drank

/-- The micro-schedule section of a core (R62). -/
structure Sect where
  acts : List (List Nat)
  mats : List MatI
  vecs : List VecP
  mems : List MemA
  rtes : List (List Nat)
  flgs : List FlagA
  strs : List SteerA
  tiles : List TileD
  finit : Nat
  fval : Nat
deriving DecidableEq, Repr

/-- The section of a core without a setup. -/
def Sect.empty : Sect := ⟨[], [], [], [], [], [], [], [], 0, 0⟩

/-- The counts of a section header (R62): NACT, NMAT, NVEC, NMEM, NRTE, NFLG, NSTR, NTILE, SIZE. -/
structure SectHdr where
  nact : Nat
  nmat : Nat
  nvec : Nat
  nmem : Nat
  nrte : Nat
  nflg : Nat
  nstr : Nat
  ntile : Nat
  size : Nat
deriving DecidableEq, Repr

/-- Reads a section header (R62). -/
def SectHdr.read (bs : List Byte) : SectHdr :=
  ⟨fld bs 0 2, fld bs 2 1, fld bs 3 1, fld bs 4 1, fld bs 5 1, fld bs 6 1, fld bs 7 1, fld bs 8 1, fld bs 12 4⟩

/-- Offsets of the lists, one after the other from 32 (R62): acts, mats, vecs, mems, rtes, flgs, strs, tiles, end. -/
def SectHdr.ofs (h : SectHdr) : List Nat :=
  let o1 := 32 + 8 * h.nact
  let o2 := o1 + 16 * h.nmat
  let o3 := o2 + 64 * h.nvec
  let o4 := o3 + 16 * h.nmem
  let o5 := o4 + 64 * h.nrte
  let o6 := o5 + 8 * h.nflg
  let o7 := o6 + 8 * h.nstr
  [32, o1, o2, o3, o4, o5, o6, o7, o7 + 64 * h.ntile]

/-- Reads a section (R62, R63). -/
def Sect.read (bs : List Byte) : Sect :=
  let h := SectHdr.read bs
  let o := nth 0 h.ofs
  { acts := (items bs (o 0) 8 h.nact).map fun b => (List.range 7).map fun i => fld b i 1,
    mats := (items bs (o 1) 16 h.nmat).map MatI.read,
    vecs := (items bs (o 2) 64 h.nvec).map VecP.read,
    mems := (items bs (o 3) 16 h.nmem).map MemA.read,
    rtes := (items bs (o 4) 64 h.nrte).map fun b => (List.range 16).map fun i => fld b (4 * i) 4,
    flgs := (items bs (o 5) 8 h.nflg).map FlagA.read,
    strs := (items bs (o 6) 8 h.nstr).map SteerA.read,
    tiles := (items bs (o 7) 64 h.ntile).map TileD.read,
    finit := fld bs 16 8, fval := fld bs 24 8 }

/-- The queue table of a core: route set element 0; every queue at DEPTH 0 without one (R246). -/
def Sect.queueWord (t : Sect) (q : Nat) : QWord :=
  match t.rtes with
  | [] => QWord.empty
  | e :: _ => QWord.read (nth 0 e q)

/-- The route words that phase 7 loads: element 1, or null (R247). -/
def Sect.route0 (t : Sect) (r : Nat) : Nat := nth 0 (nth [] t.rtes 1) r

/-- Every word that a route set element of the section gives to route r (R79, R248). -/
def Sect.routeWords (t : Sect) (r : Nat) : List Nat := (t.rtes.drop 1).map fun e => nth 0 e r

/-- The BUFDEF of a castled buffer, if the section defines it. -/
def Sect.bufdef? (t : Sect) (b : Nat) : Option BufA :=
  t.mems.findSome? fun m => match m with
    | .bufdef d => if d.buf = b then some d else none
    | _ => none

/-- The ROTDEF of a section. -/
def Sect.rotdef? (t : Sect) : Option RotD :=
  t.mems.findSome? fun m => match m with
    | .rotdef d => some d
    | _ => none

end Sys2Proof
end

