-- ==== Sys2Proof/Machine/FabricTypes.lean ====
section
/-!
DEFINITION. The state of the fabric as plain data: arrays, vector engine, memories' engines, queues, routes, flags of a
core (02-07), regions, jobs and moves of a partition (02), routers and what travels between them (07).
-/

namespace Sys2Proof

/-- A 64-byte queue entry or flit payload (R14). -/
abbrev Entry := List Byte

/-- A weight register of an array: the tile of 16 rows, its format (0: no tile), its records and check column values
(R101, R113, R133, R162). A G4 cell holds its two codes, the even K row in the low four bits (R119). -/
structure Tile where
  rows : List (List Nat)
  scales : List Nat
  fmt : Nat
  khalf : Nat
  /-- descriptor index and weight step of a WLOAD that names a descriptor (R162) -/
  desc : Option (Nat × Nat)
  chkF : List W32
  chkL : List W32
  chkI : List Int
deriving DecidableEq, Repr

/-- "No tile" (R105). -/
def Tile.empty : Tile := ⟨[], [], 0, 0, none, [], [], []⟩

/-- The sticky bits of CORE_VSTAT (R210). -/
structure VFlags where
  nan : Bool
  inf : Bool
  ovf : Bool
  inv : Bool
deriving DecidableEq, Repr

/-- No bit set. -/
def VFlags.zero : VFlags := ⟨false, false, false, false⟩

/-- Both of two sets of sticky bits. -/
def VFlags.or (a b : VFlags) : VFlags := ⟨a.nan || b.nan, a.inf || b.inf, a.ovf || b.ovf, a.inv || b.inv⟩

/-- A row cursor (R224). -/
structure Cursor where
  ofs : Nat
  cast : Bool
  buf : Nat
  stride : Nat
deriving DecidableEq, Repr

/-- Offset 0 with stride 0 (R224). -/
def Cursor.zero : Cursor := ⟨0, false, 0, 0⟩

/-- CORE_ARRSTAT and the registers of an array (R101, R139, R224). -/
structure ArrayS where
  loaded : Tile
  shadow : Tile
  nan : Bool
  inf : Bool
  iovf : Bool
  chkmm : Bool
  chkna : Bool
  rows : Nat
  icur : Cursor
  wcur : Cursor
deriving DecidableEq, Repr

/-- An array at module start (R105, R139). -/
def ArrayS.reset : ArrayS := ⟨Tile.empty, Tile.empty, false, false, false, false, false, 0, Cursor.zero, Cursor.zero⟩

/-- A tile step: batch indices, level-2 indices, global tile indices, and the accumulator slot (R148, R149, R163). -/
structure TStep where
  b0 : Nat
  b1 : Nat
  b2 : Nat
  mb : Nat
  nb : Nat
  kb : Nat
  mt : Nat
  nt : Nat
  kt : Nat
  slot : Nat
deriving DecidableEq, Repr

/-- A WLOAD in progress; `arr` is 0, 1, or 2 for the pair. -/
structure WRun where
  arr : Nat
  i : MatI
  t : Nat
  /-- the weight step's index and its tile step -/
  step : Option (Nat × TStep)
  /-- the high nibbles of the last INT4 row read, and the G4 scale words -/
  hold : List Nat
deriving DecidableEq, Repr

/-- An input row on its way to the cells: element codes, and the G4 scale word. -/
structure RowIn where
  xs : List Nat
  scale : Nat
deriving DecidableEq, Repr

/-- A mismatch that a check comparison will report (R134, R135). -/
structure ChkFail where
  arr : Nat
  row : Nat
  pass : Nat
  stag : Nat
  pc : Nat
deriving DecidableEq, Repr

/-- A STREAM between its first tempo and its end (R109, R112, R131). -/
structure SRun where
  arr : Nat
  i : MatI
  pc : Nat
  /-- tempos since the action -/
  t : Nat
  /-- position in the descriptor: the tile step and the OFSEL value in force -/
  step : Option (TStep × Nat)
  /-- the tiles that the run uses, taken at its first tempo; empty before -/
  tiles : List Tile
  /-- input rows read and not yet through the cells -/
  rows : List RowIn
  /-- hand-off values received and not yet used (R132) -/
  hin : List (List W32)
  written : Nat
  /-- comparisons not yet complete: tempo, and the mismatch found -/
  chks : List (Nat × Option ChkFail)
deriving DecidableEq, Repr

/-- True while the STREAM occupies its array in its tempo `t`: SWAP + NROWS x c tempos from its start, which a gang delays
by 3 x GPOS (R104, R112, R131). -/
def SRun.occupies (r : SRun) (t : Nat) : Bool :=
  decide (3 * r.i.gpos ≤ t) && decide (t < 3 * r.i.gpos + b2n r.i.swap + r.i.nrows * cycPerRow r.i.ifmt)

/-- An ACLR in progress (R110). -/
structure ARun where
  arr : Nat
  row : Nat
  left : Nat
deriving DecidableEq, Repr

/-- The positions of a tile descriptor and its fused counters (R160, R172), with what the drain checks of R166 need:
which accumulator rows hold a final value not yet drained. -/
structure DPos where
  spos : Nat
  wpos : Nat
  dpos : Nat
  ofsv : Nat
  prod : Nat
  cons : Nat
  /-- element rows of the present tile that the drain has read -/
  drow : Nat
  /-- elements of the present row that the drain has read -/
  dcol : Nat
  /-- by 2 x (slot x ALEN + row of the window) + array: 1,024 x output tile + row + 1, once final and not yet drained -/
  fin : SMap Nat
  /-- columns of the row in progress that the drain has written, by run row (R172) -/
  wrote : SMap Nat
  /-- the linear batch iterations that the stream and the drain have finished -/
  sbat : Nat
  dbat : Nat
deriving DecidableEq, Repr

/-- The counters after a setup load (R160). -/
def DPos.zero : DPos := ⟨0, 0, 0, 0, 0, 0, 0, 0, [], [], 0, 0⟩

/-- A write that the vector engine has still to make: core memory bytes, a route entry, or elements of C given by
descriptor and (run row, column, element bits) (R193, R156). -/
inductive VWrite where
  | mem (adr : Nat) (bs : List Byte)
  | half (adr : Nat) (high v : Nat)
  | route (r : Nat) (e : Entry)
  | c (desc : Nat) (es : List (Nat × Nat × Nat × Nat))
deriving DecidableEq, Repr

/-- A vector chain program between its start and its completion tempo (R193). -/
structure VRun where
  p : VecP
  n : Nat
  seed : Nat
  pc : Nat
  t : Nat
  /-- the descriptor of a DRAIN stage -/
  drain : Option Nat
  /-- the running segment of a REDUCE: its value, if it has an active element, and its elements so far -/
  seg : Option W32
  segN : Nat
  segOpen : Bool
  /-- output elements formed so far -/
  outN : Nat
  /-- packed output element codes not yet in a complete unit; none where no element is written -/
  pack : List (Option Nat)
  /-- X elements fetched and not yet consumed by EXPAND, and the count consumed and fetched -/
  xbuf : List W32
  consumed : Nat
  fetched : Nat
  /-- bytes of channel entries taken and not yet used -/
  xch : List Byte
  ych : List Byte
  writes : List (Nat × VWrite)
  fl : VFlags
deriving DecidableEq, Repr

/-- A DMAIN or DMAOUT in progress: entries moved, tempos since the action (R226). -/
structure DRun where
  a : DmaA
  pc : Nat
  t : Nat
  e : Nat
deriving DecidableEq, Repr

/-- A ROTATE in progress (R240). -/
structure RRun where
  rslot : Nat
  rnt : Nat
  mode : Nat
  t : Nat
  pc : Nat
deriving DecidableEq, Repr

/-- A unit on its way to this core's rotation input: tempos left, slot and unit, whether it is written into the slot. -/
structure RIn where
  left : Nat
  slot : Nat
  unit : Nat
  store : Bool
  data : Entry
deriving DecidableEq, Repr

/-- A tile in the weight operand buffers (R241). -/
structure WTile where
  id : Nat
  units : List Entry
  loaded : Bool
deriving DecidableEq, Repr

/-- A PAIR in force: what its two sides hold, and the data entries that the token sent governs (R91). -/
structure PairS where
  a : SteerA
  tok : List Entry
  dat : List Entry
  left : Nat
  /-- the route of the data; none when they are dropped -/
  route : Option Nat
deriving DecidableEq, Repr

/-- A DELIVER in force: data entries of the last token still to be placed (R93). -/
structure DelivS where
  a : SteerA
  left : Nat
deriving DecidableEq, Repr

/-- A route's end as a queue or an agent knows it: the kind of source, its core, its route, and the number of the binding. -/
structure Src where
  kind : Nat
  core : Nat
  route : Nat
  ep : Nat
deriving DecidableEq, Repr

/-- An input channel queue (R245, R246, R249, R268). -/
structure Queue where
  w : QWord
  /-- entries in order; of a steered input queue, those that DELIVER has placed (R93) -/
  ents : List Entry
  /-- entries of a steered input queue that DELIVER has not placed yet -/
  raw : List Entry
  /-- credits granted and not yet used -/
  cred : Nat
  bound : Option Src
  /-- BINDs not answered, oldest first (R249) -/
  rem : List Src
  /-- true for a cleared queue until it answers a BIND (R257) -/
  shut : Bool
  hwm : Nat
  /-- the queue was empty, was full, in some cycle since the last sample (R279) -/
  sawEmpty : Bool
  sawFull : Bool
  /-- entries that arrived in the cycle before `lateAt`: the units of that cycle do not see them (R111) -/
  lateAt : Nat
  lateN : Nat
deriving DecidableEq, Repr

/-- A queue of DEPTH 0 (R246). -/
def Queue.reset : Queue := ⟨QWord.empty, [], [], 0, none, [], true, 0, true, false, 0, 0⟩

/-- Entries that arrived in cycle `now`. -/
def Queue.late (q : Queue) (now : Nat) : Nat := if q.lateAt = now + 1 then q.lateN else 0

/-- A queue as it stood at the start of cycle `now` (R111); an entry of a steered input queue arrives in `raw`. -/
def Queue.start (q : Queue) (steered : Bool) (now : Nat) : Queue :=
  let n := q.late now
  if n = 0 then q
  else if steered then { q with raw := q.raw.take (q.raw.length - n) }
  else { q with ents := q.ents.take (q.ents.length - n) }

/-- Occupancy (R249). -/
def Queue.occ (q : Queue) : Nat := q.ents.length + q.raw.length

/-- Where a flit goes: the core, the kind of target (R247 TGT), the queue or input, and the order of dimensions. -/
structure Dst where
  core : Nat
  tgt : Nat
  chan : Nat
  rankFirst : Bool
deriving DecidableEq, Repr

/-- Where a route word leads. -/
def RWord.dst (w : RWord) : Dst := ⟨w.core, w.tgt, w.dchan, w.rankFirst⟩

/-- A flag operation on a core flag or chip flag (R260, R267, R269): who signals it, and under which LASTSRC code. -/
structure FlagOp where
  set : Bool
  src : Nat
  /-- signalling core; none where no core signals -/
  core : Option Nat
  region : Nat
  pc : Nat
deriving DecidableEq, Repr

/-- What a flit carries (R249, R250, R253). -/
inductive Cargo where
  | entry (data : Entry)
  | bind
  | unbind (credits : Nat)
  | flag (f : Nat) (op : FlagOp)
deriving DecidableEq, Repr

/-- A flit on the mesh: ready to leave its router from cycle `ready` on (R252). -/
structure Flit where
  src : Src
  dst : Dst
  cargo : Cargo
  ready : Nat
  /-- partition and job of the core that sent it -/
  part : Nat
  job : Nat
deriving DecidableEq, Repr

/-- An item of a core's output store, in write order for each route (R251); BIND and UNBIND take their turn in it. -/
structure OutE where
  route : Nat
  ep : Nat
  dst : Dst
  cargo : Cargo
deriving DecidableEq, Repr

/-- A route register (R247, R250, R268): `st` 0 null, 1 BIND sent, 2 bound, 3 DISCARDED. -/
structure Route where
  word : Nat
  credit : Nat
  st : Nat
  /-- number of the present binding -/
  ep : Nat
  /-- earlier bindings whose entries still wait: number and credits -/
  olds : List (Nat × Nat)
deriving DecidableEq, Repr

/-- A null route. -/
def Route.null : Route := ⟨0, 0, 0, 0, []⟩

/-- A flag and its debug record (R260, R267, R269). `stamp` is the cycle of the last change plus one, `old` the value
at the start of that cycle. -/
structure FlagR where
  val : Bool
  lastop : Bool
  src : Nat
  core : Option Nat
  region : Nat
  pc : Nat
  stamp : Nat
  old : Bool
deriving DecidableEq, Repr

/-- A clear flag with no signaller. -/
def FlagR.reset : FlagR := ⟨false, false, 0, none, 0, 0, 0, false⟩

/-- The value of a flag as a read in cycle `now` sees it: a change takes effect at the end of its cycle (R260). -/
def FlagR.read (r : FlagR) (now : Nat) : Bool := if r.stamp = now + 1 then r.old else r.val

/-- A castled buffer as CORE_BUFSTAT shows it (R236). -/
structure Buf where
  d : BufA
  cur : Nat
  castles : Nat
deriving DecidableEq, Repr

/-- CORE_CHKLOG (R141). -/
structure ChkLog where
  valid : Bool
  arr : Nat
  row : Nat
  pass : Nat
  stag : Nat
  pc : Nat
deriving DecidableEq, Repr

/-- CORE_MEMERR (R243). -/
structure MemErr where
  valid : Bool
  engine : Nat
  bank : Nat
  tau : Nat
  code : Nat
  pc : Nat
deriving DecidableEq, Repr

/-- The default bank map (R219). -/
def defaultMap : List Nat := List.replicate 16 0xD ++ List.replicate 8 0x2

/-- Everything of a core but its memories (R36). -/
structure Core where
  /-- the region that holds the core: partition and number -/
  owner : Option (Nat × Nat)
  sect : Sect
  a0 : ArrayS
  a1 : ArrayS
  wloads : List WRun
  streams : List SRun
  aclrs : List ARun
  pos : SMap DPos
  vrun : List VRun
  vflags : VFlags
  vruns : Nat
  velems : Nat
  ventries : Nat
  vconsumed : Nat
  banks : List Nat
  bufs : SMap (Option Buf)
  rot : Option RotD
  din : Option DRun
  dout : Option DRun
  dmaMoved : Nat
  memerr : MemErr
  rots : List RRun
  rotIn : List RIn
  wbuf : List WTile
  rotsDone : Nat
  rotNext : Nat
  pairs : List PairS
  /-- tokens of TOKGEN that wait for room in their queue -/
  toks : List (Nat × Entry)
  delivs : List DelivS
  queues : SMap Queue
  routes : SMap Route
  out : List OutE
  flags : SMap FlagR
  /-- flag operations that wait while the core is LOADING (R84) -/
  heldOps : List (Nat × FlagOp × Nat)
  chklog : ChkLog
  /-- fuses: spare row and spare column of arrays 0 and 1 in use (R140) -/
  rrow0 : Bool
  rcol0 : Bool
  rrow1 : Bool
  rcol1 : Bool
  tdsel : Nat
  flagsel : Nat
  qsel : Nat
  qempty : Bool
  qhead : Entry
  /-- CORE_ECC counters (R479) -/
  eccCorr : Nat
  eccUnc : Nat
deriving DecidableEq, Repr

/-- No mismatch recorded. -/
def ChkLog.reset : ChkLog := ⟨false, 0, 0, 0, 0, 0⟩
/-- No failure recorded. -/
def MemErr.reset : MemErr := ⟨false, 0, 0, 0, 0, 0⟩

/-- A core at module start. -/
def Core.reset : Core :=
  { owner := none, sect := Sect.empty, a0 := ArrayS.reset, a1 := ArrayS.reset, wloads := [], streams := [], aclrs := [],
    pos := [], vrun := [], vflags := VFlags.zero, vruns := 0, velems := 0, ventries := 0, vconsumed := 0, banks := defaultMap,
    bufs := [], rot := none, din := none, dout := none, dmaMoved := 0, memerr := MemErr.reset, rots := [], rotIn := [],
    wbuf := [], rotsDone := 0, rotNext := 0, pairs := [], toks := [], delivs := [], queues := [], routes := [], out := [], flags := [],
    heldOps := [], chklog := ChkLog.reset, rrow0 := false, rcol0 := false, rrow1 := false, rcol1 := false, tdsel := 0,
    flagsel := 0, qsel := 0, qempty := true, qhead := [], eccCorr := 0, eccUnc := 0 }

/-- A queue of a core. -/
def Core.queue (c : Core) (q : Nat) : Queue := c.queues.get Queue.reset q
/-- The core with a queue replaced. -/
def Core.setQueue (c : Core) (q : Nat) (x : Queue) : Core := { c with queues := SMap.set Queue.reset c.queues q x }
/-- A route of a core. -/
def Core.route (c : Core) (r : Nat) : Route := c.routes.get Route.null r
/-- The core with a route replaced. -/
def Core.setRoute (c : Core) (r : Nat) (x : Route) : Core := { c with routes := SMap.set Route.null c.routes r x }
/-- A flag of a core. -/
def Core.flag (c : Core) (i : Nat) : FlagR := c.flags.get FlagR.reset i
/-- The core with a flag replaced. -/
def Core.setFlag (c : Core) (i : Nat) (x : FlagR) : Core := { c with flags := SMap.set FlagR.reset c.flags i x }
/-- An array of a core. -/
def Core.arr (c : Core) (a : Nat) : ArrayS := if a = 0 then c.a0 else c.a1
/-- The core with an array changed. -/
def Core.modArr (c : Core) (a : Nat) (f : ArrayS → ArrayS) : Core :=
  if a = 0 then { c with a0 := f c.a0 } else { c with a1 := f c.a1 }
/-- The positions of a descriptor. -/
def Core.dpos (c : Core) (d : Nat) : DPos := c.pos.get DPos.zero d
/-- The core with the positions of a descriptor changed. -/
def Core.modPos (c : Core) (d : Nat) (f : DPos → DPos) : Core :=
  { c with pos := SMap.set DPos.zero c.pos d (f (c.dpos d)) }
/-- A castled buffer. -/
def Core.buf (c : Core) (b : Nat) : Option Buf := c.bufs.get none b
/-- Whether array `a` has a check column (R133, R140). -/
def Core.hasCheck (c : Core) (a : Nat) : Bool := if a = 0 then !c.rcol0 else !c.rcol1

/-- The states of a region (R53). -/
inductive RState where
  | undefined
  | idle
  | loading
  | ready
  | running
  | held
  | quarantined
deriving DecidableEq, Repr

/-- The value of R53. -/
def RState.code : RState → Nat
  | .undefined => 0
  | .idle => 1
  | .loading => 2
  | .ready => 3
  | .running => 4
  | .held => 5
  | .quarantined => 6

/-- A program position: index, tempos of the entry done, the loop counters (R76), and the count that a CLD entry in
progress took (R93). -/
structure Pos where
  pc : Nat
  rep : Nat
  lc : List Nat
  cld : Option Nat
deriving DecidableEq, Repr

/-- The position after a setup load (R74). -/
def Pos.zero : Pos := ⟨0, 0, List.replicate 8 0, none⟩

/-- A lane (R68), with the job and the move it belongs to. -/
structure Lane where
  region : Nat
  reconf : Bool
  keeppc : Bool
  setup : Nat
  tempo : Nat
  start : Nat
  lcsel : Nat
  lcen : Nat
  val0 : Nat
  val1 : Nat
  fwait : Nat
  fset : Nat
  job : Nat
  move : Nat
deriving DecidableEq, Repr

/-- Reads a lane (R68). -/
def Lane.read (job move : Nat) (bs : List Byte) : Lane where
  region := fld bs 0 1
  reconf := bit (fld bs 1 1) 0
  keeppc := bit (fld bs 1 1) 1
  setup := bits (fld bs 2 2) 11 0
  tempo := fld bs 4 4
  start := bits (fld bs 8 2) 11 0
  lcsel := fld bs 10 1
  lcen := fld bs 11 1
  val0 := fld bs 12 4
  val1 := fld bs 16 4
  fwait := fld bs 20 2
  fset := fld bs 22 2
  job := job
  move := move

/-- A granted tempo not yet executed (R77): the cycle of its grant, whether it is the first of its entry, the count that a
CLD entry took. -/
structure Grant where
  at_ : Nat
  pc : Nat
  first : Bool
  cld : Option Nat
deriving DecidableEq, Repr

/-- The running lane: what its start still waits for, the tempos left to grant (none: until END), and whether the last
tempo has been granted. -/
structure LaneRun where
  lane : Lane
  fwait : Bool
  left : Option Nat
  done : Bool
deriving DecidableEq, Repr

/-- A staged setup as the book holds it (R56, R62): the header and tables, and the sections by core index. -/
structure Staged where
  part : Nat
  region : Nat
  setup : Nat
  tables : List Byte
  sects : List (Nat × List Byte)
deriving DecidableEq, Repr

/-- The phases of a reload (R82). -/
inductive Phase where
  | drain
  | freeze
  | tables
  | check
  | sections
  | registers
  | release
deriving DecidableEq, Repr

/-- A reload in progress: phase, the cycle in which it began, the setup found, and the section bytes still to read per die. -/
structure Load where
  phase : Phase
  since : Nat
  staged : Option Staged
  tab : Tables
  left : List Nat
deriving DecidableEq, Repr

/-- True once a load has read its setup from the book: phase 6 has ended (R82, R434). -/
def Load.bookRead (l : Load) : Bool := l.phase == .registers || l.phase == .release

/-- A gated slot as the sequencer sees it (R80, R263): credits seen less those debited, and what becomes visible later. -/
structure Slot where
  cred : Nat
  soon : List (Nat × Nat)
deriving DecidableEq, Repr

/-- A steered channel of a region: the SEQ expected and to generate, whether it stopped, and its count queue (R90-R93). -/
structure SteerCh where
  expect : Nat
  gen : Nat
  stopped : Bool
  counts : List Nat
deriving DecidableEq, Repr

/-- A steered channel after a setup load. -/
def SteerCh.zero : SteerCh := ⟨0, 0, false, []⟩

/-- A region (R47-R53) with its sequencer. -/
structure Region where
  state : RState
  rect : Rect
  /-- physical sequencer: 64 x die + number (R50, R51) -/
  seq : Nat
  setup : Nat
  tab : Tables
  slots : List Slot
  steer : List SteerCh
  /-- position for the next grant, and of the tempo executing -/
  gpos : Pos
  xpos : Pos
  run : Option LaneRun
  pend : Option Lane
  granted : List Grant
  /-- cycle after the one of the last grant, of the last executed tempo -/
  gcyc : Nat
  xcyc : Nat
  load : Option Load
  /-- executed tempos since release (R220) -/
  tau : Nat
  hold : Nat
  hmax : Nat
  /-- occupancy seen of the output stores: cycle from which it holds, core, count (R251) -/
  press : List (Nat × Nat × Nat)
  /-- true while the region stops for a job that ended (R95) -/
  stopping : Bool
  /-- true in the freeze of that stop, and the cycle in which the stop or its freeze began (R82 phase 3, R95) -/
  froze : Bool
  stopAt : Nat
deriving DecidableEq, Repr

/-- No region with this number. -/
def Region.reset : Region :=
  { state := .undefined, rect := ⟨0, 0, 0, 0⟩, seq := 0, setup := 0, tab := Tables.empty, slots := [], steer := [],
    gpos := Pos.zero, xpos := Pos.zero, run := none, pend := none, granted := [], gcyc := 0, xcyc := 0, load := none,
    tau := 0, hold := 0, hmax := 0, press := [], stopping := false, froze := false, stopAt := 0 }

/-- A move fetched, its lanes not yet dispatched (R71). -/
structure Move where
  id : Nat
  job : Nat
  last : Bool
  sync : Bool
  bytes : Nat
  lanes : List Lane
deriving DecidableEq, Repr

/-- A job in progress (R94): moves not yet retired with the lanes they have left, whether its LAST move was fetched, how
it ends. `fail` holds the code, the charged region, and the failing core. -/
structure Job where
  id : Nat
  /-- the regions that its lanes name -/
  regions : List Nat
  moves : List (Nat × Nat)
  lastSeen : Bool
  fail : Option (Nat × Option Nat × Option Nat)
  /-- true from the stop until the completion record -/
  stopping : Bool
  /-- a stalemate snapshot is still to be written (R272) -/
  snap : Bool
deriving DecidableEq, Repr

/-- A router (R36, R252): the flits at its six inputs, and per output port the input served last and the next free cycle, in half
cycles for an outward or a vertical port, which is two flits wide (R30, R32); likewise per input port from outside the mesh;
flits that left by the local, the outward and the vertical port and are not taken in yet. -/
structure Router where
  inq : List (List Flit)
  last : List Nat
  freeAt : List Nat
  inAt : List Nat
  arrL : List Flit
  arrE : List Flit
  arrV : List Flit
  /-- failed replays of the flit at each input, and failed links (R472) -/
  replays : List Nat
  dead : List Bool
deriving DecidableEq, Repr

/-- A router at module start: every port counts as having served the vertical input last (R252). -/
def Router.reset : Router :=
  ⟨List.replicate 6 [], List.replicate 6 5, List.replicate 6 0, List.replicate 6 0, [], [], [], List.replicate 6 0, List.replicate 6 false⟩

/-- Credits on their way to a route or an agent (R249, R250). -/
structure CreditMsg where
  dst : Src
  n : Nat
deriving DecidableEq, Repr

/-- A flag operation on its way other than along a route (R261): to a core flag, or to a chip flag of a partition. -/
structure FlagMsg where
  part : Nat
  core : Option Nat
  flag : Nat
  op : FlagOp
deriving DecidableEq, Repr

/-- The mesh: routers by core index, credits and flag operations on their way. -/
structure Mesh where
  routers : SMap Router
  credits : List CreditMsg
  ops : List FlagMsg
deriving DecidableEq, Repr

/-- An idle mesh. -/
def Mesh.reset : Mesh := ⟨[], [], []⟩

/-- A shared-memory stream request (R229, R230): the requester and its route, what is left. -/
structure SmReq where
  src : Src
  part : Nat
  job : Nat
  write : Bool
  dchan : Nat
  addr : Nat
  left : Nat
  stride : Nat
  /-- a write stream that failed: its remaining entries are taken in and not written (R230) -/
  dead : Bool
deriving DecidableEq, Repr

/-- A queue that an agent delivers to, as a source (R249, R288): core, queue, credits held, whether bound. -/
structure AgentOut where
  core : Nat
  queue : Nat
  credit : Nat
  bound : Bool
  ep : Nat
deriving DecidableEq, Repr

/-- A shared-memory attachment (R32, R230, R231): contexts, requests that wait, routes bound, queues it returns to. -/
structure Attach where
  ctxs : List SmReq
  wait : List SmReq
  binds : List (Src × Nat)
  outs : List AgentOut
deriving DecidableEq, Repr

/-- The source that an agent at a core is to a queue. -/
def agentSrc (kind agent c q ep : Nat) : Src := ⟨kind, agent, 16 * c + q, ep⟩

/-- The binding of an agent with a queue, if it has one. -/
def outOf (l : List AgentOut) (c q : Nat) : Option (Nat × AgentOut) := findAt (fun o => o.core == c && o.queue == q) l

/-- An idle attachment. -/
def Attach.reset : Attach := ⟨[], [], [], []⟩

end Sys2Proof
end

