-- ==== Sys2Proof/Machine/PartTypes.lean ====
section
/-!
DEFINITION. The state of a partition (R411-R420, R64, R264-R281) and the records that reach a host (R399), as plain data.
-/

namespace Sys2Proof

/-- A grant record (R413). -/
structure GrantR where
  defd : Bool
  blocks : List Nat
  stks : List Nat
  membs : List Nat
  shares : List Nat
  book : List Nat
deriving DecidableEq, Repr

/-- Nothing granted. -/
def GrantR.empty : GrantR := ⟨false, [], [], [], [0, 0, 0, 0], [0, 0, 0, 0]⟩

/-- Every resource of a module, as partition 0 holds them with no other record (R412). -/
def GrantR.all (g : Grade) : GrantR :=
  ⟨true, (List.range 96).filter (blockActive g), List.range 8, List.range 8, [64, 64, 64, 64], [480, 480, 480, 480]⟩

/-- A notify record (R399): kind, code, time, body from offset 16. -/
structure Rec where
  kind : Nat
  code : Nat
  time : Nat
  body : List Byte
deriving DecidableEq, Repr

/-- The subject fields of an event (R399); 0xFF where one does not apply. -/
structure Ev where
  region : Nat
  file : Nat
  rank : Nat
  stack : Nat
  port : Nat
  memb : Nat
  job : Nat
  arg0 : Nat
  arg1 : Nat
deriving DecidableEq, Repr

/-- An event with no subject. -/
def Ev.none : Ev := ⟨0xFF, 0xFF, 0xFF, 0xFF, 0xFF, 0xFF, 0, 0, 0⟩

/-- The event record (R399). -/
def Ev.record (e : Ev) (code time : Nat) : Rec :=
  ⟨4, code, time, natLe 1 e.region ++ natLe 1 e.file ++ natLe 1 e.rank ++ natLe 1 e.stack ++ natLe 1 e.port ++ natLe 1 e.memb
    ++ natLe 2 e.job ++ natLe 8 e.arg0 ++ natLe 8 e.arg1⟩

/-- A job completion record (R399): JOB, REGION, FILE, RANK. -/
def jobRecord (job code time region file rank : Nat) : Rec :=
  ⟨2, code, time, natLe 2 job ++ natLe 1 region ++ natLe 1 file ++ natLe 1 rank ++ natLe 3 0⟩

/-- What an error puts wrong before a step acts: `n` bits (bytes in a stack) of the protected word at a device address; a
wrong bit pattern added to a column's sum (R134); a parity error in a core's unprotected-by-correction structures; `n`
wrong bits in a word of a die's book; `n` wrong bits in a piece of a core's queue store or output store; a parity error of a message on the
chip flag network, or on the register bus; `n` wrong bits in a word of the management processor's memory (R468). -/
inductive Upset where
  | mem (addr n : Nat)
  | sum (core arr col : Nat) (delta : W32)
  | parity (core : Nat)
  | book (die n : Nat)
  | queue (core n : Nat)
  | flagNet
  | bus
  | mgmt (n : Nat)
deriving DecidableEq, Repr

/-- Where a completion goes: the session and the CTAG of the command (R393, R399, R400). -/
structure Org where
  sid : Nat
  ctag : Nat
deriving DecidableEq, Repr

/-- The scoresheet of a partition (R278-R280). -/
structure Sheet where
  en : Bool
  period : Nat
  base : Nat
  size : Nat
  head : Nat
  tail : Nat
  lost : Nat
  sel : SMap Nat
  hist : SMap Nat
  /-- sample number, whether samples were dropped just before, cycle of the last sample -/
  seq : Nat
  dropping : Bool
  since : Nat
  /-- true while the ring holds unread records to its last byte, HEAD and TAIL then being equal -/
  full : Bool
deriving DecidableEq, Repr

/-- The scoresheet at module start (R278). -/
def Sheet.reset : Sheet := ⟨false, 0x0A, 0, 1, 0, 0, 0, [], [], 0, false, 0, false⟩

/-- The watchdog and snapshot registers (R271, R273). -/
structure Watch where
  log2 : Nat
  /-- the limit that still applies in the cycle before `newAt`: a new one applies from the next cycle (R271) -/
  old : Nat
  newAt : Nat
  base : Nat
  size : Nat
  valid : Bool
  trunc : Bool
  missed : Nat
  seq : Nat
deriving DecidableEq, Repr

/-- Their reset values (R271, R273). -/
def Watch.reset : Watch := ⟨0x14, 0x14, 0, 0, 0, false, false, 0, 0⟩

/-- The watchdog limit in force in a cycle, as a power of two (R271). -/
def Watch.limit (w : Watch) (now : Nat) : Nat := if w.newAt = now + 1 then w.old else w.log2

/-- What was detected of a stalemate whose snapshot is not yet written (R272, R274): region, cycle, watchdog setting, HOLDs. -/
structure Stale where
  region : Nat
  tdet : Nat
  log2 : Nat
  holds : List (Nat × Nat)
deriving DecidableEq, Repr

/-- PART_BARRIER (R265), and whether ARRIVE has changed from clear to set since the binding became active. -/
structure Barrier where
  arrive : Nat
  done : Nat
  levels : Nat
  ring : Nat
  en : Bool
  busy : Bool
  due : Bool
deriving DecidableEq, Repr

/-- Its reset value (R265). -/
def Barrier.reset : Barrier := ⟨0, 0, 1, 0, false, false, false⟩

/-- Chip flag `i` goes from `was` to `v`: a change of ARRIVE from clear to set is an arrival (R265). -/
def Barrier.sees (b : Barrier) (i : Nat) (was v : Bool) : Barrier :=
  if b.en ∧ b.arrive = i then { b with due := v && (b.due || !was) } else b

/-- The move stream of a partition (R64-R70, R97). -/
structure Stream where
  base : Nat
  size : Nat
  en : Bool
  head : Nat
  tail : Nat
  expect : Option Nat
  /-- true in state STOPPED -/
  stopped : Bool
  /-- job whose remaining moves are skipped, and whether the skipping of R97 is going on -/
  ended : Option Nat
  skipping : Bool
  fetched : Option Move
  nextMove : Nat
deriving DecidableEq, Repr

/-- The move stream at module start (R64). -/
def Stream.reset : Stream := ⟨0, 0, false, 0, 0, none, false, none, false, none, 0⟩

/-- A partition. -/
structure Part where
  grant : GrantR
  /-- host keys by slot (R425) -/
  keys : SMap (List Byte)
  ms : Stream
  job : Option Job
  /-- the last ended job and the code with which it ended (R94, R96) -/
  lastJob : Option (Nat × Nat)
  /-- the JOB field of PART_SEQSTAT (R64) -/
  jobField : Nat
  /-- commands that wait for the end of the current job (R396) -/
  aborts : List Org
  regions : SMap Region
  cflags : SMap FlagR
  cfsel : Nat
  watch : Watch
  stale : Option Stale
  sheet : Sheet
  barrier : Barrier
  /-- records that no session may receive, oldest first, and the records dropped (R401) -/
  held : List Rec
  lost : Nat
  /-- digest records by region: NIMG, LASTID, RDIG (R437) -/
  digs : SMap (Nat × List Byte × List Byte)
deriving DecidableEq, Repr

/-- The digest record of a region that has taken no image (R437). -/
def noDigest : Nat × List Byte × List Byte := (0, zeros 16, zeros 32)

/-- A partition without a grant. -/
def Part.reset : Part :=
  { grant := GrantR.empty, keys := [], ms := Stream.reset, job := none, lastJob := none, jobField := 0, aborts := [], regions := [],
    cflags := [], cfsel := 0, watch := Watch.reset, stale := none, sheet := Sheet.reset, barrier := Barrier.reset, held := [], lost := 0,
    digs := [] }

/-- Allotment of chip flags and steered channels (R52). -/
def Part.allot (p : Part) (g : Grade) : Nat := 256 * p.grant.blocks.length / g.blocks

/-- A region of a partition. -/
def Part.region (p : Part) (r : Nat) : Region := p.regions.get Region.reset r
/-- The partition with a region replaced. -/
def Part.setRegion (p : Part) (r : Nat) (x : Region) : Part := { p with regions := SMap.set Region.reset p.regions r x }
/-- A chip flag of a partition. -/
def Part.cflag (p : Part) (i : Nat) : FlagR := p.cflags.get FlagR.reset i
/-- The partition with a chip flag replaced. -/
def Part.setCflag (p : Part) (i : Nat) (x : FlagR) : Part := { p with cflags := SMap.set FlagR.reset p.cflags i x }

end Sys2Proof
end

