-- ==== Sys2Proof/Machine/StackTypes.lean ====
section
/-!
DEFINITION. The state of edge agents and Haldob stacks as plain data (R286-R320), with the layouts of DMA descriptors (R290)
and match commands (R307).
-/

namespace Sys2Proof

/-- A DMA descriptor (R290). -/
structure DmaDesc where
  op : Nat
  flag : Bool
  dfile : Nat
  drank : Nat
  dq : Nat
  flg : Nat
  tag : Nat
  addr : Nat
  rowb : Nat
  nrow : Nat
  stride : Nat
  /-- true when every reserved field is zero -/
  clean : Bool
deriving DecidableEq, Repr

/-- Reads a DMA descriptor (R290). -/
def DmaDesc.read (e : Entry) : DmaDesc :=
  { op := fld e 0 1, flag := bit (fld e 1 1) 0, dfile := fld e 2 1, drank := fld e 3 1, dq := bits (fld e 4 1) 3 0,
    flg := bits (fld e 5 1) 5 0, tag := fld e 6 2, addr := fld e 8 8, rowb := fld e 16 4, nrow := fld e 20 4, stride := fld e 24 8,
    clean := bits (fld e 1 1) 7 1 == 0 && bits (fld e 4 1) 7 4 == 0 && bits (fld e 5 1) 7 6 == 0 && allZero (slice e 32 32) }

/-- Entries that a READ or WRITE covers (R291). -/
def DmaDesc.entries (d : DmaDesc) : Nat := d.nrow * d.rowb / 64

/-- The core that a descriptor names. -/
def DmaDesc.core (d : DmaDesc) : Nat := coreId d.dfile d.drank

/-- A request of an edge agent: a descriptor in progress, or results of a match that go to a queue (R289, R312). -/
structure EReq where
  src : Src
  part : Nat
  job : Nat
  d : DmaDesc
  /-- GATHER: indices that have arrived and not been used; others: empty -/
  idx : List Nat
  /-- data entries or indices still to come -/
  left : Nat
  /-- entries delivered -/
  done : Nat
  /-- match results: the entries; none for a descriptor -/
  data : Option (List Entry)
  /-- GATHER: an element beyond `idx` lies outside the view (R293) -/
  bad : Bool
deriving DecidableEq, Repr

/-- Entries that a refused or stopped request still takes in and discards (R257, R293, R297). -/
structure Drain where
  src : Src
  /-- 2 write data, 3 gather indices, 1 query entries -/
  kind : Nat
  left : Nat
deriving DecidableEq, Repr

/-- An edge agent, of a stack (R286-R289) or of a network B port (R325). -/
structure EdgeAgent where
  /-- bound routes: input and source -/
  binds : List (Nat × Src)
  /-- BINDs not answered -/
  unanswered : List (Nat × Src)
  /-- queue bindings, the one longest without a request first -/
  outs : List AgentOut
  reqs : List EReq
  drains : List Drain
  /-- deliveries of the present cycle: cycle, core, queue -/
  sent : List (Nat × Nat × Nat)
deriving DecidableEq, Repr

/-- An idle agent. -/
def EdgeAgent.reset : EdgeAgent := ⟨[], [], [], [], [], []⟩

/-- A match command (R307). -/
structure MatchC where
  op : Nat
  metric : Nat
  thEn : Bool
  rdst : Bool
  flag : Bool
  fmt : Nat
  nq : Nat
  dim : Nat
  k : Nat
  addr : Nat
  nitem : Nat
  recb : Nat
  naddr : Nat
  idbase : Nat
  thresh : W32
  dfile : Nat
  drank : Nat
  dq : Nat
  flg : Nat
  raddr : Nat
  tag : Nat
  clean : Bool
deriving DecidableEq, Repr

/-- Reads a match command (R307). -/
def MatchC.read (e : List Byte) : MatchC :=
  { op := fld e 0 1, metric := bits (fld e 1 1) 1 0, thEn := bit (fld e 1 1) 2, rdst := bit (fld e 1 1) 3, flag := bit (fld e 1 1) 4,
    fmt := bits (fld e 2 1) 3 0, nq := fld e 3 1, dim := fld e 4 2, k := fld e 6 2, addr := fld e 8 8, nitem := fld e 16 4,
    recb := fld e 20 4, naddr := fld e 24 8, idbase := fld e 32 8, thresh := BitVec.ofNat 32 (fld e 40 4), dfile := fld e 44 1,
    drank := fld e 45 1, dq := bits (fld e 46 1) 3 0, flg := bits (fld e 47 1) 5 0, raddr := fld e 48 8, tag := fld e 56 2,
    clean := bits (fld e 1 1) 7 5 == 0 && bits (fld e 2 1) 7 4 == 0 && bits (fld e 46 1) 7 4 == 0 && bits (fld e 47 1) 7 6 == 0
      && allZero (slice e 58 6) }

/-- Query entries of a match command (R307). -/
def MatchC.qEntries (c : MatchC) : Nat := c.nq * c.dim / 16

/-- A match command taken by a stack: where it came from, and its query entries as they arrive. -/
structure MCmd where
  c : MatchC
  /-- edge core and issuing route; none for a command of the mailbox -/
  src : Option (Nat × Src)
  part : Nat
  job : Nat
  /-- number of the MATCH_MULTI it belongs to -/
  multi : Nat
  queries : List Entry
  left : Nat
deriving DecidableEq, Repr

/-- HSTK_ERRLOG (R318). -/
structure ErrLog where
  valid : Bool
  src : Nat
  line : Nat
deriving DecidableEq, Repr

/-- Who asks a stack for an access from outside (R45, R298): an edge agent of a core, a network B link interface, bursts of a
network A port, the firmware. -/
inductive Client where
  | edge (c : Nat)
  | link (b : Nat)
  | burst (i : Nat)
  | firmware
deriving DecidableEq, Repr

/-- A Haldob stack. -/
structure Stack where
  /-- the partition whose grant waits for the clearing (R306) -/
  clearing : Option Nat
  /-- HSTK_SCRUB: period in hours, the codeword that the scrub reads next, passes completed (R316) -/
  period : Nat
  scrubAt : Nat
  passes : Nat
  corr : Nat
  unc : Nat
  errlog : ErrLog
  /-- codewords queued for write-back (R301), and codewords written back (R477) -/
  wback : List Nat
  written : List Nat
  /-- codewords corrected in the present scrub period (R477) -/
  seen : List Nat
  /-- rows that meet the first case of R477 once they are written -/
  uncRows : List Nat
  /-- spare rows used by bank, rows moved to a spare, the rows whose copy waits, the first in progress (R304) -/
  spares : SMap Nat
  moved : List Nat
  copying : List Nat
  /-- times of the corrected reads of the last hour, and of the last CORRECTED_RATE (R305) -/
  times : List Nat
  rateAt : Option Nat
  mq : List MCmd
  run : Option MCmd
  /-- the running command's results wait for delivery -/
  delivering : Bool
  /-- the cycle in which the running scan started (R319) -/
  runAt : Nat
  items : Nat
  traffic : Nat
  /-- row that the refresh takes next, when the refresh is due, in thousandths of a cycle, and whether the stack is above 85 °C
  (R302) -/
  refRow : Nat
  refDue : Nat
  hot : Bool
  /-- external cap in units of 0.1 TB/s (R315), and the window of 1 µs in progress: first cycle, bytes (R298) -/
  cap : Nat
  winAt : Nat
  winBytes : Nat
  /-- requests that wait for the stack in the order in which they came, each with the cycle in which it last asked (R45, R298) -/
  line : List (Client × Nat)
  /-- accesses that met the row being copied, for which `State.paced` makes them wait (R304) -/
  clash : Nat
deriving DecidableEq, Repr

/-- A stack at module start in the 720 W profile. -/
def Stack.reset : Stack :=
  { clearing := none, period := 0x0C, scrubAt := 0, passes := 0, corr := 0, unc := 0, errlog := ⟨false, 0, 0⟩,
    wback := [], written := [], seen := [], uncRows := [], spares := [], moved := [], copying := [], times := [], rateAt := none,
    mq := [], run := none, delivering := false, runAt := 0, items := 0, traffic := 0, refRow := 0, refDue := 0, hot := false,
    cap := 16, winAt := 0, winBytes := 0, line := [], clash := 0 }

/-- Codewords of a stack. -/
def stackWords : Nat := stackBytes / 64

/-- Number of the bank of a stack offset (R283, R284). -/
def bankNum (a : Nat) : Nat := let p := stackPlace a; (p.sid * 32 + p.pc) * 16 + p.bank

/-- Number of the row of a stack offset. -/
def rowNum (a : Nat) : Nat := bankNum a * 65536 + (stackPlace a).row

/-- Entries per row or element. -/
def DmaDesc.words (d : DmaDesc) : Nat := d.rowb / 64

/-- Address of entry `n` of a READ or WRITE (R291). -/
def DmaDesc.entryAddr (d : DmaDesc) (n : Nat) : Nat := d.addr + n / max 1 d.words * d.stride + n % max 1 d.words * 64

/-- True when a WRITE covers the codeword at an address (R291). -/
def DmaDesc.writes (d : DmaDesc) (a : Nat) : Bool :=
  if a < d.addr then false
  else
    let o := a - d.addr
    if d.nrow ≤ 1 ∨ d.stride = 0 then decide (o < d.rowb)
    else decide (o / d.stride < d.nrow) && decide (o % d.stride < d.rowb)

/-- Entries that a request delivers. -/
def EReq.total (q : EReq) : Nat :=
  match q.data with
  | some l => l.length
  | none => if q.d.op = 1 then q.d.entries else if q.d.op = 3 then q.d.nrow * q.d.words else 0

/-- The codewords that a READ or GATHER is known to read from its present place on. -/
def EReq.reads (q : EReq) : List Nat :=
  match q.data with
  | some _ => []
  | none =>
    if q.d.op = 1 then (List.range (q.d.entries - q.done)).map fun n => q.d.entryAddr (q.done + n)
    else if q.d.op = 3 then q.idx.flatMap fun i => (List.range q.d.words).map fun j => q.d.addr + i * q.d.stride + 64 * j
    else []

/-- Address of the next codeword that a request reads; none where none is known. -/
def EReq.nextAddr (q : EReq) : Option Nat :=
  if q.d.op = 1 then (if q.done < q.d.entries then some (q.d.entryAddr q.done) else none)
  else match q.idx with
    | i :: _ => some (q.d.addr + i * q.d.stride + q.done % max 1 q.d.words * 64)
    | [] => none

/-- True while a request has entries to deliver. -/
def EReq.undelivered (q : EReq) : Bool := decide (q.done < q.total)

/-- True when a request waits for a WRITE started earlier by the same agent (R294). -/
def EReq.blocked (q : EReq) (before : List EReq) : Bool :=
  q.data.isNone && before.any fun w => w.data.isNone && w.d.op == 2 && decide (0 < w.left) && q.reads.any fun a => w.d.writes a

end Sys2Proof
end

