-- ==== Sys2Proof/Machine/RingTypes.lean ====
section
/-!
DEFINITION. The state of network B's ring memberships as plain data, with the layouts of ring tables (R328), step descriptors
(R332), optimizer records (R334), vector maps (R335) and ring frames (R341).
-/

namespace Sys2Proof

/-- A ring table header (R328). -/
structure RingHdr where
  format : Nat
  gen : Nat
  sysid : Nat
  levels : Nat
  n1 : Nat
  n2 : Nat
  n3 : Nat
  pos1 : Nat
  pos2 : Nat
  pos3 : Nat
  nspare : Nat
  ipv6 : Bool
  enc : Bool
  standby : Bool
  pmask : Nat
  prio : Nat
  vlan : Nat
  udp : Nat
  lmac : Nat
  tout : Nat
  lip : Nat
deriving DecidableEq, Repr

/-- Reads a ring table header (R328). -/
def RingHdr.read (b : List Byte) : RingHdr :=
  { format := fld b 0 2, gen := fld b 2 2, sysid := fld b 4 4, levels := fld b 8 1, n1 := fld b 9 1, n2 := fld b 10 1, n3 := fld b 11 1,
    pos1 := fld b 12 1, pos2 := fld b 13 1, pos3 := fld b 14 1, nspare := fld b 15 1, ipv6 := bit (fld b 16 1) 0,
    enc := bit (fld b 16 1) 1, standby := bit (fld b 16 1) 2, pmask := bits (fld b 17 1) 3 0, prio := bits (fld b 18 1) 2 0,
    vlan := bits (fld b 20 2) 11 0, udp := fld b 22 2, lmac := fld b 24 6, tout := fld b 30 2, lip := fld b 32 16 }

/-- Ring size of a level. -/
def RingHdr.n (h : RingHdr) (lvl : Nat) : Nat := if lvl = 1 then h.n1 else if lvl = 2 then h.n2 else h.n3
/-- Own position of a level. -/
def RingHdr.pos (h : RingHdr) (lvl : Nat) : Nat := if lvl = 1 then h.pos1 else if lvl = 2 then h.pos2 else h.pos3
/-- Member entries of a table. -/
def RingHdr.count (h : RingHdr) : Nat := h.n1 + h.n2 + h.n3 + h.nspare
/-- Ports used by the membership. -/
def RingHdr.ports (h : RingHdr) : List Nat := (List.range 4).filter fun b => bit h.pmask b

/-- A member entry (R328). -/
structure RingEnt where
  mac : Nat
  self : Bool
  ip : Nat
  modid : Nat
deriving DecidableEq, Repr

/-- Reads a member entry (R328). -/
def RingEnt.read (b : List Byte) : RingEnt := ⟨fld b 0 6, bit (fld b 6 1) 0, fld b 8 16, fld b 24 4⟩

/-- A loaded ring table. -/
structure RingTab where
  h : RingHdr
  ents : List RingEnt
deriving DecidableEq, Repr

/-- The entry of a position of a level; standbys follow the three rings (R328). -/
def RingTab.ent (t : RingTab) (lvl pos : Nat) : RingEnt :=
  let base := if lvl = 1 then 0 else if lvl = 2 then t.h.n1 else if lvl = 3 then t.h.n1 + t.h.n2 else t.h.n1 + t.h.n2 + t.h.n3
  nth ⟨0, false, 0, 0⟩ t.ents (base + pos)

/-- MODID of the sender of a frame, as its SRCID names it, and of the module itself (R328, R341). -/
def RingTab.sender (t : RingTab) (lvl pos : Nat) (standby : Bool) : Nat := (t.ent (if standby then 4 else max 1 lvl) pos).modid
def RingTab.self (t : RingTab) : Nat := t.sender 1 t.h.pos1 t.h.standby

/-- A step descriptor (R332). Its reserved bits are ignored (R13). -/
structure StepD where
  op : Nat
  ring : Nat
  erst : Bool
  bar : Bool
  dfen : Bool
  done : Nat
  step : Nat
  lr : W32
  gscale : W32
  orec : Nat
  tag : Nat
deriving DecidableEq, Repr

/-- Reads a step descriptor (R332). -/
def StepD.read (b : List Byte) : StepD :=
  { op := fld b 0 1, ring := fld b 1 1, erst := bit (fld b 2 1) 0, bar := bit (fld b 2 1) 1, dfen := bit (fld b 2 1) 2,
    done := fld b 3 1, step := fld b 4 4, lr := BitVec.ofNat 32 (fld b 8 4), gscale := BitVec.ofNat 32 (fld b 12 4),
    orec := fld b 16 8, tag := fld b 24 2 }

/-- An optimizer record (R334). Its reserved bits are ignored (R13). -/
structure OptR where
  opt : Nat
  nest : Bool
  biasc : Bool
  gfmt : Nat
  cfmt : Nat
  b1 : W32
  b2 : W32
  eps : W32
  wd : W32
  clip : W32
  nseg : Nat
  ostate : List Nat
  work : List Nat
  vmap : Nat
  cbuf : List Nat
deriving DecidableEq, Repr

/-- Reads an optimizer record (R334). -/
def OptR.read (b : List Byte) : OptR :=
  { opt := fld b 0 1, nest := bit (fld b 1 1) 0, biasc := bit (fld b 1 1) 1, gfmt := fld b 2 1, cfmt := fld b 3 1,
    b1 := BitVec.ofNat 32 (fld b 4 4), b2 := BitVec.ofNat 32 (fld b 8 4), eps := BitVec.ofNat 32 (fld b 12 4),
    wd := BitVec.ofNat 32 (fld b 16 4), clip := BitVec.ofNat 32 (fld b 20 4), nseg := fld b 24 4,
    ostate := (List.range 4).map fun i => fld b (32 + 8 * i) 8, work := (List.range 4).map fun i => fld b (64 + 8 * i) 8,
    vmap := fld b 96 8, cbuf := (List.range 4).map fun i => fld b (104 + 8 * i) 8 }

/-- A segment of the vector map (R335), with the vector index of its first entry. Its reserved bytes are ignored (R13). -/
structure Seg where
  first : Nat
  count : Nat
  g : Nat
  p : Nat
  c : Nat
deriving DecidableEq, Repr

/-- Reads the vector map: the segments in order (R335). -/
def readSegs : Nat → List (List Byte) → List Seg
  | _, [] => []
  | first, b :: bs =>
    ⟨first, fld b 0 4, fld b 8 8, fld b 16 8, fld b 24 8⟩ :: readSegs (first + fld b 0 4) bs

/-- A frame that its stream keeps until it is acknowledged (R345): its number and its UDP payload. -/
structure Kept where
  lseq : Nat
  data : List Byte
deriving DecidableEq, Repr

/-- A stream that a port sends (R345): phase 1 Reduce or 2 Broadcast, level, receiver (0 the successor, 1 and above standby
receiver - 1), the next number, the frames kept, the resends without an advance, and whether the receiver is not ready. -/
structure RTx where
  phase : Nat
  lvl : Nat
  peer : Nat
  next : Nat
  kept : List Kept
  resends : Nat
  held : Bool
deriving DecidableEq, Repr

/-- A stream that a port receives (R345): phase, level, next number, frames accepted since the last ACK. -/
structure RRx where
  phase : Nat
  lvl : Nat
  next : Nat
  since : Nat
deriving DecidableEq, Repr

/-- A step on one port (R336-R339, R349-R356). Runs of blocks are (first, count). -/
structure PStep where
  part : Nat × Nat
  /-- own pieces of levels 1 to LEVELS -/
  own : List (Nat × Nat)
  /-- entries of the chain that this position starts, sent, by level; entries of the own sub-piece that hold their sum -/
  sent : List Nat
  sums : List Nat
  /-- entries received by 64 x level + sub-piece: partial sums, and in the broadcast -/
  got : SMap Nat
  bgot : SMap Nat
  /-- entries of the own sub-piece sent in the broadcast, by level -/
  bsent : List Nat
  /-- blocks of the shard updated; how the shard is sent, once decided: full width or compressed (R351) -/
  upd : Nat
  full : Option Bool
  /-- corrections and values held in CBUF and WORK: first entry, entries, full width (R356) -/
  avail : List (Nat × Nat × Bool)
  /-- entries reconstructed, and writes of the requester not yet complete -/
  recon : Nat
  writes : Nat
  /-- the sum of squares of the shard, once formed (R346) -/
  q : Option W32
  tx : List RTx
  rx : List RRx
deriving DecidableEq, Repr

/-- An exchange of level_sum (R346): the level in progress, its input, the values received by level and position, the sends
made at this level, the frames that wait for their acknowledgement, and the result. -/
structure LaneS where
  lvl : Nat
  top : Nat
  x : W32
  recv : List (Nat × Nat × W32)
  sent : Nat
  unacked : List (Nat × Nat × List Byte)
  result : Option W32
deriving DecidableEq, Repr

/-- A barrier in progress: its number, its exchange, whether PART_BARRIER started it, and whether every member has arrived and
only acknowledgements are missing (R265, R358). -/
structure Bar where
  num : Nat
  lane : LaneS
  chip : Bool
  told : Bool
deriving DecidableEq, Repr

/-- A step of a membership. -/
structure Step where
  d : StepD
  o : OptR
  segs : List Seg
  len : Nat
  k : StepConst
  ports : List (Nat × PStep)
  lane : LaneS
  /-- the module value has been handed to the norm lane -/
  norm : Bool
  q : Option W32
  skipped : Bool
  rejected : Bool
  /-- barrier of the step: 0 not started, 1 waiting or running, 2 complete -/
  bar : Nat
deriving DecidableEq, Repr

/-- A ring membership context (R326-R366). -/
structure Memb where
  key : Option (List Byte)
  /-- by port: a key has been loaded since the port last loaded a table -/
  fresh : List Bool
  tabs : List (Option RingTab)
  /-- VALID and ADDR of LNKB_RINGTAB by port (R327) -/
  tvalid : List Bool
  taddr : List Nat
  lastGen : List Nat
  fcnt : List Nat
  resent : Nat
  reject : Nat
  code : Nat
  lastOk : Nat
  /-- number of the step started last, and whether it failed (R345, R363) -/
  cur : Nat
  failed : Bool
  /-- numbers of failed steps and of barriers that failed with their step: nothing of them is acknowledged (R363) -/
  dead : List Nat
  barDead : List Nat
  /-- pending step descriptor (R333) -/
  pend : Option (List Byte)
  step : Option Step
  bar : Option Bar
  barNum : Nat
  /-- a BARRIER of PART_BARRIER that waits for the one in progress -/
  barWait : Bool
deriving DecidableEq, Repr

/-- A membership at module start (R330, R364). -/
def Memb.reset : Memb :=
  { key := none, fresh := [false, false, false, false], tabs := [none, none, none, none],
    tvalid := [false, false, false, false], taddr := [0, 0, 0, 0], lastGen := [0, 0, 0, 0],
    fcnt := [0, 0, 0, 0], resent := 0, reject := 0, code := 0, lastOk := 0, cur := 0, failed := false, dead := [], barDead := [], pend := none, step := none,
    bar := none, barNum := 0, barWait := false }

/-- The table of a port. -/
def Memb.tab (m : Memb) (b : Nat) : Option RingTab := nth none m.tabs b

/-- A ring frame header (R341). Its reserved bits are ignored (R13). -/
structure RingF where
  ver : Nat
  type : Nat
  enc : Bool
  last : Bool
  lvl : Nat
  round : Nat
  sysid : Nat
  gen : Nat
  pos1 : Nat
  pos2 : Nat
  pos3 : Nat
  port : Nat
  standby : Bool
  fcnt : Nat
  step : Nat
  lseq : Nat
  arg0 : Nat
  count : Nat
  arg1 : Nat
deriving DecidableEq, Repr

/-- Reads a ring frame header (R341). -/
def RingF.read (b : List Byte) : RingF :=
  let src := fld b 10 3
  { ver := fld b 0 1, type := fld b 1 1, enc := bit (fld b 2 1) 0, last := bit (fld b 2 1) 1, lvl := bits (fld b 3 1) 1 0,
    round := bits (fld b 3 1) 7 2, sysid := fld b 4 4, gen := fld b 8 2, pos1 := bits src 5 0, pos2 := bits src 11 6,
    pos3 := bits src 17 12, port := bits src 19 18, standby := bit src 20, fcnt := bits (fld b 16 8) 59 0, step := fld b 24 4,
    lseq := fld b 28 4, arg0 := fld b 32 8, count := fld b 40 4, arg1 := fld b 44 4 }

/-- SRCID of a sender (R341). -/
def srcId (h : RingHdr) (port : Nat) : Nat :=
  h.pos1 + 2 ^ 6 * h.pos2 + 2 ^ 12 * h.pos3 + 2 ^ 18 * port + 2 ^ 20 * b2n h.standby

/-- The 48 bytes of a ring frame header that port `port` sends (R341). -/
def ringHeader (h : RingHdr) (port type : Nat) (last : Bool) (lvl round fcnt step lseq arg0 count arg1 : Nat) : List Byte :=
  natLe 1 1 ++ natLe 1 type ++ natLe 1 (b2n h.enc + 2 * b2n last) ++ natLe 1 (lvl + 4 * round) ++ natLe 4 h.sysid ++ natLe 2 h.gen
    ++ natLe 3 (srcId h port) ++ natLe 3 0 ++ natLe 8 (fcnt % 2 ^ 60) ++ natLe 4 step ++ natLe 4 lseq ++ natLe 8 arg0 ++ natLe 4 count
    ++ natLe 4 arg1

/-- The nonce of a ring frame (R343): SRCID [19:0], GEN, FCNT [59:0], 96 bits. -/
def ringNonce (src gen fcnt : Nat) : List Byte := natLe 12 (src % 2 ^ 20 + 2 ^ 20 * gen + 2 ^ 36 * (fcnt % 2 ^ 60))

end Sys2Proof
end

