-- ==== Sys2Proof/Machine/HostTypes.lean ====
section
/-!
DEFINITION. The state of the Ethernet ports, of Ranow sessions and their rings and bursts (R369-R409), of deferred commands
(R391), as plain data.
-/

namespace Sys2Proof

/-- A datagram that reaches a port: source MAC and IP, destination IP, destination and source UDP port, UDP payload. -/
structure Dgram where
  mac : Nat
  src : Nat
  dst : Nat
  udp : Nat
  sport : Nat
  data : List Byte
deriving DecidableEq, Repr

/-- A message at a transmitter: whether it goes before all others (network B: priority 7, R357; network A: what no partition
sends), the priority and VLAN of a ring frame's 802.1Q tag (R328, R341), whose it is (network A: the partition; network B: the
membership), its session, its destination, and its UDP payload. -/
structure TxMsg where
  high : Bool
  tag : Option (Nat × Nat)
  who : Nat
  sid : Nat
  mac : Nat
  ip : Nat
  udp : Nat
  data : List Byte
deriving DecidableEq, Repr

/-- A half-open session (R375, R379): the INIT message, the REPLY payload, the ephemeral private key, and its fields. -/
structure HalfOpen where
  sid : Nat
  part : Nat
  rings : Nat
  msgmax : Nat
  mac : Nat
  ip : Nat
  udp : Nat
  init : List Byte
  reply : List Byte
  priv : List Byte
deriving DecidableEq, Repr

/-- The settings of a network A port (R369, R459); 0 where it has no such address. -/
structure PortCfg where
  mac : Nat
  vlan : Nat
  ip4 : Nat
  ip6 : Nat
  udp : Nat
deriving DecidableEq, Repr

/-- An Ethernet port: 0-3 are A0-A3, 4-7 are B0-B3 (R322, R369, R408, R409). -/
structure Port where
  enabled : Bool
  link : Bool
  foreign : Nat
  reject : Nat
  resent : Nat
  /-- the message in transmission, and those that wait, oldest first -/
  cur : Option TxMsg
  wait : List TxMsg
  /-- network B: the membership served last; network A: the session served last, by partition -/
  last : Nat
  turn : List Nat
  /-- network A (R424, log entry 63): where each partition's turn ends, in bytes at its share; the same for the port; the partitions that
  have a message again after they left share unused; whether the message in transmission leaves in time that shares left unused -/
  used : List Nat
  vtime : Nat
  resumed : List Nat
  surplus : Bool
  cfg : PortCfg
  half : List HalfOpen
  /-- times of the INITs answered within the last second (R379) -/
  inits : List Nat
deriving DecidableEq, Repr

/-- A port with no settings, disabled. -/
def Port.reset : Port :=
  { enabled := false, link := false, foreign := 0, reject := 0, resent := 0, cur := none, wait := [], last := 0,
    turn := List.replicate 8 0, used := List.replicate 8 0, vtime := 0, resumed := [], surplus := false, cfg := ⟨0, 0, 0, 0, 50310⟩, half := [], inits := [] }

/-- A reliable message that the module keeps until it is acknowledged (R382). -/
structure RelMsg where
  seq : Nat
  data : List Byte
  resends : Nat
deriving DecidableEq, Repr

/-- An open burst (R403, R404): direction, chunk, address, length, chunks done. -/
structure Burst where
  bid : Nat
  rd : Bool
  chunk : Nat
  addr : Nat
  len : Nat
  next : Nat
deriving DecidableEq, Repr

/-- A Ranow session (R375-R402). -/
structure Sess where
  sid : Nat
  port : Nat
  part : Nat
  mac : Nat
  ip : Nat
  udp : Nat
  msgmax : Nat
  /-- keys and salts, host to module and module to host (R376) -/
  kin : List Byte
  kout : List Byte
  sin : List Byte
  sout : List Byte
  /-- the CONFIRM that opened the session, for its duplicates (R379) -/
  confirm : List Byte
  /-- next reliable SEQ expected, messages that arrived out of order, whether an ACK is due, messages since the last one -/
  rxNext : Nat
  rxBuf : List (Nat × Nat × List Byte)
  ackDue : Bool
  rxSince : Nat
  /-- next reliable SEQ to send, next control SEQ, messages not acknowledged, messages that wait for room -/
  txNext : Nat
  ctl : Nat
  unack : List RelMsg
  txWait : List (Nat × List Byte)
  /-- command ring: size, bytes, HEAD and TAIL counts -/
  csize : Nat
  cring : Memory
  chead : Nat
  ctail : Nat
  /-- notify ring: size, bytes, HEAD and TAIL counts -/
  nsize : Nat
  nring : Memory
  nhead : Nat
  ntail : Nat
  mask : Nat
  /-- records that wait for room, and those dropped since the last one delivered (R402) -/
  waitq : List Rec
  /-- records in the notify ring whose NOTIFY messages, from one SEQ to another, are not acknowledged (R384) -/
  sentq : List (Rec × Nat × Nat)
  lost : Nat
  bursts : List Burst
deriving DecidableEq, Repr

/-- Per stack of a MATCH_MULTI (R398). -/
structure MStk where
  stack : Nat
  nitem : Nat
  addr : Nat
  naddr : Nat
  idbase : Nat
  waddr : Nat
deriving DecidableEq, Repr

/-- What a deferred command still does (R391). -/
inductive DefK where
  /-- MATCH_MULTI: its number, where the results go, the template, the stacks, the queries, the stacks that have no place for
  their command yet -/
  | matchMulti (num raddr : Nat) (c : MatchC) (stks : List MStk) (queries : List Entry) (todo : List Nat)
  /-- GRANT_SET or PART_DELETE: the partition and its new record; whether it is deleted; the stacks cleared; whether the blocks that
  are lost have been freed -/
  | grant (part : Nat) (g : GrantR) (delete : Bool) (cleared : List Nat) (freed : Bool)
  /-- IMAGE_LOAD: region, source, length, secret, bytes staged per die -/
  | image (region src len : Nat) (secret : List Byte) (staged : List Nat)
  /-- ATTEST: nonce, destination -/
  | attest (nonce : List Byte) (dest : Nat)
  /-- FW_STAGE: the package -/
  | stage (src len : Nat)
  /-- FW_PROMOTE or RESTART: the bank (none: RESTART), forced, whether the preload has ended -/
  | promote (bank : Option Nat) (force : Bool) (loaded : Bool)
deriving DecidableEq, Repr

/-- A deferred command in progress: where its completion goes, its partition, its OP. -/
structure Defr where
  o : Org
  part : Nat
  op : Nat
  k : DefK
deriving DecidableEq, Repr

end Sys2Proof
end

