-- ==== Sys2Proof/Machine/ModuleTypes.lean ====
section
/-!
DEFINITION. The state of the flash, the fuses, the boot status, the power and thermal controllers, the pins and the sideband as
plain data (R442-R467, R473-R482, R485-R497).
-/

namespace Sys2Proof

/-- The bank select record (R443). -/
structure BankRec where
  seq : Nat
  active : Nat
  trial : Bool
  fellback : Bool
  st0 : Nat
  st1 : Nat
deriving DecidableEq, Repr

/-- Bytes 0-31 of a bank select record (R443). -/
def BankRec.head (r : BankRec) : List Byte :=
  natLe 4 r.seq ++ natLe 1 r.active ++ natLe 1 (b2n r.trial + 2 * b2n r.fellback) ++ zeros 2 ++ natLe 1 r.st0 ++ natLe 1 r.st1 ++ zeros 22

/-- The 64 bytes of a bank select record, with its CHECK (R443). -/
def BankRec.bytes (r : BankRec) : List Byte := r.head ++ padTo 32 (Config.shake256 r.head 32)

/-- A bank select record as 64 bytes hold it; none where CHECK does not hold (R443). -/
def BankRec.read (b : List Byte) : Option BankRec :=
  if slice b 32 32 = padTo 32 (Config.shake256 (slice b 0 32) 32) then
    some ⟨fld b 0 4, fld b 4 1 % 2, bit (fld b 5 1) 0, bit (fld b 5 1) 1, fld b 8 1 % 4, fld b 9 1 % 4⟩
  else none

/-- STATE of a bank. -/
def BankRec.st (r : BankRec) (b : Nat) : Nat := if b = 0 then r.st0 else r.st1
/-- The record with STATE of a bank set. -/
def BankRec.setSt (r : BankRec) (b v : Nat) : BankRec := if b = 0 then { r with st0 := v } else { r with st1 := v }

/-- A firmware bank (R442, R450): the package as it was written, its manifest, signature block included, with the fields the module uses,
the hashes of its components by TYPE, and whether the package passed R452. -/
structure Bank where
  image : List Byte
  manifest : List Byte
  fwver : Nat
  svn : Nat
  sver : Nat
  advance : Bool
  hashes : List (Nat × List Byte)
  good : Bool
deriving DecidableEq, Repr

/-- An empty bank. -/
def Bank.empty : Bank := ⟨[], [], 0, 0, 0, false, [], false⟩

/-- The hash of the component of a TYPE (R450). -/
def Bank.hash (b : Bank) (t : Nat) : List Byte := match b.hashes.find? fun x => x.1 == t with | some x => x.2 | none => zeros 32

/-- The bytes of the component of a TYPE, as the bank's manifest places them (R450). -/
def Bank.component (b : Bank) (t : Nat) : List Byte :=
  match ((List.range (fld b.manifest 6 2)).map fun i => slice b.manifest (64 + 64 * i) 64).find? fun e => fld e 0 2 == t with
  | some e => slice b.image (fld e 8 8) (fld e 16 8)
  | none => []

/-- A valid settings slot (R459): SVER, SEQ and the items. -/
structure SetSlot where
  sver : Nat
  seq : Nat
  items : List (Nat × List Byte)
deriving DecidableEq, Repr

/-- An in-field repair entry (R478). -/
structure Repair where
  kind : Nat
  drank : Nat
  pcore : Nat
  lfile : Nat
  lrank : Nat
  cause : Nat
deriving DecidableEq, Repr

/-- The fuses: security version (R453), repair entries by die (R474), withdrawal fields by die (R475), the spares of the arrays in use, by
core, as bits [5:2] of CORE_ARRCAP (R38, R140), and the hash of the boot key (R445). -/
structure Fuses where
  svn : Nat
  repairs : List (List Repair)
  wdraw : List Nat
  spares : SMap Nat
  bootHash : List Byte
deriving DecidableEq, Repr

/-- The layout of the flash (R442): offset and size of the boot image, of boot control, of the firmware banks, of the settings and of the
event log. -/
def flashMap : List (Nat × Nat) :=
  [(0, 4 * 2 ^ 20), (0x00400000, 4 * 2 ^ 20), (0x00800000, 112 * 2 ^ 20), (0x07800000, 112 * 2 ^ 20), (0x0E800000, 16 * 2 ^ 20), (0x0F800000, 8 * 2 ^ 20)]

/-- Bytes of a firmware bank (R442). -/
def bankBytes : Nat := 112 * 2 ^ 20
/-- Bytes of a settings slot (R442). -/
def slotBytes : Nat := 4 * 2 ^ 20
/-- Where the copies of the bank select record and the settings slots lie in the flash (R442). -/
def recOffset (i : Nat) : Nat := 0x00400000 + 0x10000 * i
def bankOffset (b : Nat) : Nat := 0x00800000 + bankBytes * b
def slotOffset (i : Nat) : Nat := 0x0E800000 + slotBytes * i

/-- The flash (R442): the boot image, the two copies of the bank select record (none: CHECK does not hold), the banks, the settings slots
(none: empty or invalid), and the trips in the event log, whose other entries are `State.elog` (R473). -/
structure Flash where
  boot : List Byte
  recs : List (Option BankRec)
  banks : List Bank
  slots : List (Option SetSlot)
  trips : Nat
deriving DecidableEq, Repr

/-- The copy of the bank select record in force: the valid one with the higher SEQ (R443). -/
def Flash.recordAt (f : Flash) : Option (Nat × BankRec) :=
  ((f.recs.zip (List.range f.recs.length)).filterMap fun x => x.1.map fun r => (x.2, r)).foldl
    (fun (b : Option (Nat × BankRec)) x => match b with | some y => if y.2.seq < x.2.seq then some x else b | none => some x) none

/-- The record that the firmware sees. -/
def Flash.cur (f : Flash) : BankRec := match f.recordAt with | some x => x.2 | none => ⟨0, 0, false, false, 2, 0⟩

/-- A write of the bank select record goes to the other copy with SEQ + 1 (R443). -/
def Flash.writeRec (f : Flash) (g : BankRec → BankRec) : Flash :=
  let i := match f.recordAt with | some (0, _) => 1 | _ => 0
  { f with recs := putAt f.recs i (some { g f.cur with seq := (f.cur.seq + 1) % 2 ^ 32 }) }

/-- The boot status word (R449). -/
structure BootW where
  stage : Nat
  failed : Bool
  bank : Nat
  fellback : Bool
  code : Nat
deriving DecidableEq, Repr

/-- The 32 bits of the boot status word (R449). -/
def BootW.word (b : BootW) : Nat := b.stage + 2 ^ 4 * b2n b.failed + 2 ^ 5 * b.bank + 2 ^ 6 * b2n b.fellback + 2 ^ 8 * b.code

/-- Power, thermal state, clock and pins (R480-R496). -/
structure Power where
  /-- standby rail, slot number, pins of the carrier, PGOOD; REFCLK has met R497 -/
  standby : Bool
  slot : Nat
  pwrEn : Bool
  resetN : Bool
  pgood : Bool
  /-- open-drain outputs: true when asserted -/
  fault : Bool
  therm : Bool
  alert : Bool
  /-- PGOOD has fallen with PWR_EN high and the input in range (R492) -/
  railFault : Bool
  /-- the input (R489): 0 40-60 V, 1 36-40 V, 2 60-63 V, 3 below 36 V, 4 above 63 V -/
  input : Nat
  /-- power profile: 0 720 W, 1 450 W (R43), and the one set for the next start -/
  profile : Nat
  boot : BootW
  /-- service ready (R444) -/
  ready : Bool
  /-- the fabric and ports are stopped by a trip or for want of power (R481, R490) -/
  stopped : Bool
  /-- thermal state: 0 normal, 1 WARNING, 2 THROTTLE; hottest sensors; the clock of the thermal state; caps of the stacks -/
  tstate : Nat
  dieMax : Nat
  stkMax : Nat
  thermClk : Nat
  thermCap : List Nat
  /-- 1 ms steps at 500 MHz still in THROTTLE (R480) -/
  atFloor : Nat
  /-- power controller: its clock, its stack cap in 0.1 TB/s, whether it caps, the floors reached, ticks 30 W below target -/
  powClk : Nat
  powCap : Nat
  capping : Bool
  floor : Bool
  calm : Nat
  /-- correction factor k in units of 1/1000 (R493) -/
  k : Nat
  /-- SB registers (R496) -/
  vin : Nat
  iin : Nat
  pin : Nat
  /-- input energy since standby up, in units of 0.1 mJ -/
  energy : Nat
  sbDie : Nat
  sbStk : Nat
  inlet : Nat
  outlet : Nat
  pwrlim : Nat
  sbstat : Nat
  alerten : Nat
deriving DecidableEq, Repr

/-- What a start meets (R444-R447, R474-R476, R491): REFCLK good; what the flash reads otherwise than it was written: the boot image, the
copies of the bank select record, by bank the package and the firmware image, the settings slots (`none`: as written); by bank the
controllers that do not take their image, each by its number in the load order with the image it gets (none: it does not report ready);
stacks trained; fabric self-test; the cores that fail it; the ports with a partner; the stage at which 10 s pass, and the same after a
fallback. -/
structure StartEnv where
  refclk : Bool
  boot : Option (List Byte)
  recs : List (Option (List Byte))
  bank : List (Option (List Byte))
  fw : List (Option (List Byte))
  ctl : List (List (Nat × Option (List Byte)))
  slots : List (Option (List Byte))
  train : Bool
  fabric : Bool
  failing : List Nat
  links : List Bool
  late : Option Nat
  late2 : Option Nat
deriving DecidableEq, Repr

/-- A start in which nothing fails. -/
def StartEnv.good : StartEnv :=
  { refclk := true, boot := none, recs := [none, none], bank := [none, none], fw := [none, none], ctl := [[], []],
    slots := [none, none, none, none], train := true, fabric := true, failing := [], links := List.replicate 8 true, late := none, late2 := none }

/-- What a second attempt of a start meets: the records and slots stand as the first one found and left them. -/
def StartEnv.again (e : StartEnv) : StartEnv := { e with recs := [none, none], slots := [none, none, none, none] }

/-- The activity that the power model takes in (R493): arrays and accesses in 1/1000, GB/s by stack, load by port in 1/1000. -/
structure Activity where
  arrays : Nat
  access : Nat
  rates : List Nat
  loads : List Nat
deriving DecidableEq, Repr

/-- What the power controller measures (R494, R496): the 1 ms average of the input power in 0.1 W, input voltage in 10 mV, input
current in 10 mA, coolant in and out in °C, the hottest die junction, and by stack its hottest sensor (R302, R480, R482). -/
structure Measured where
  pin : Nat
  vin : Nat
  iin : Nat
  inlet : Nat
  outlet : Nat
  die : Nat
  stks : List Nat
deriving DecidableEq, Repr

/-- The fabric clock of a profile in MHz (R43). -/
def profileClock (p : Nat) : Nat := if p = 0 then 1400 else 1000
/-- The external cap of a stack in a profile, 0.1 TB/s (R44). -/
def profileCap (p : Nat) : Nat := if p = 0 then 16 else 12
/-- The power limit of a profile in W (R43). -/
def profileWatts (p : Nat) : Nat := if p = 0 then 720 else 450

/-- The settings item of network A port `n` (R459; its layout is log entry 21): port, MAC, VLAN, IPv4, IPv6, UDP port. -/
def portItem (n mac vlan ip4 ip6 udp : Nat) : Nat × List Byte :=
  (1, natLe 1 n ++ natLe 6 mac ++ natLe 2 vlan ++ natLe 4 ip4 ++ natLe 16 ip6 ++ natLe 2 udp)

/-- The settings of a module that leaves manufacture (log entry 4). -/
def factoryItems : List (Nat × List Byte) :=
  ((List.range 4).map fun n => portItem n (0x020000000001 + n) 1 (0x0A000001 + n) 0 50310)
    ++ [(2, [0]), (4, natLe 2 0 ++ natLe 57 Config.ownerKey)]

/-- The settings slot of a module that leaves manufacture (log entry 4). -/
def factorySlot : SetSlot := ⟨1, 1, factoryItems⟩

/-- The firmware bank of a module that leaves manufacture (log entry 4). -/
def factoryBank : Bank :=
  { image := Config.factoryPackage, manifest := Config.factoryManifest, fwver := 0x01000000, svn := 0, sver := 1, advance := false,
    hashes := (List.range 5).map (fun t => (t + 1, Config.factoryHash (t + 1))), good := true }

/-- The boot image of a module that leaves manufacture (R445): the boot key, its signature over the rest, the rest. -/
def factoryBoot : List Byte :=
  padTo 57 Config.bootKey ++ padTo 114 (Config.ed448Sig (padTo 57 Config.bootKey) (ascii "GX9-BOOT") Config.bootBody) ++ Config.bootBody

/-- True when the boot ROM accepts a boot image (R445): the key matches the hash in the fuses and the signature verifies. -/
def Fuses.accepts (f : Fuses) (b : List Byte) : Bool :=
  padTo 32 (Config.shake256 (b.take 57) 32) == f.bootHash
    && slice b 57 114 == padTo 114 (Config.ed448Sig (b.take 57) (ascii "GX9-BOOT") (b.drop 171))

/-- The flash of a module that leaves manufacture (log entry 4). -/
def factoryFlash : Flash :=
  { boot := factoryBoot, recs := [some ⟨1, 0, false, false, 2, 0⟩, some ⟨0, 0, false, false, 2, 0⟩], banks := [factoryBank, Bank.empty],
    slots := [some factorySlot, none, none, none], trips := 0 }

/-- Fuses with no repair, no withdrawal and no spare in use (log entry 3). -/
def factoryFuses : Fuses := ⟨0, [[], [], [], []], [0, 0, 0, 0], [], padTo 32 (Config.shake256 (padTo 57 Config.bootKey) 32)⟩

/-- Power, pins and sideband with the rails up, the input at 52 V and RESET_N just released (log entry 5). -/
def Power.reset : Power :=
  { standby := true, slot := 0, pwrEn := true, resetN := true, pgood := true, fault := false, therm := false, alert := false,
    railFault := false, input := 0, profile := 0, boot := ⟨0, false, 0, false, 0⟩, ready := false, stopped := false, tstate := 0,
    dieMax := 0, stkMax := 0, thermClk := 1400, thermCap := List.replicate 8 16, atFloor := 0, powClk := 1400, powCap := 16,
    capping := false, floor := false, calm := 0, k := 1000, vin := 0, iin := 0, pin := 0, energy := 0, sbDie := 0, sbStk := 0, inlet := 0,
    outlet := 0, pwrlim := 0, sbstat := 0, alerten := 0 }

end Sys2Proof
end

