-- ==== Sys2Proof/Syntax.lean ====
section
/-!
DEFINITION. The commands of the block: one constructor per row of the command table, with the operands of the row (log entry 39
says how they were chosen). `o` is where a mailbox command comes from; `p` a partition, `r` a region of it, `f k` a core by file and
rank, `t` a stack, `c` a membership context by its physical number, `b` a port of network B, `us` the errors that damaged protected
words or sums before the row (none where a command leaves them out).
-/

namespace Sys2Proof

/-- A command. -/
inductive Instr where
  /-- REGION_DEFINE (R48): Mailbox command that defines or redefines a region rectangle: it checks the grants, overlap and
  limits, clears the cores and completes. -/
  | regionDefine (o : Org) (r : Nat) (rect : Rect)
  /-- REGION_RELEASE (R395): Mailbox command that releases a region in IDLE, READY or QUARANTINED, clears its cores and
  unbinds its routes. -/
  | regionRelease (o : Org) (r : Nat)
  /-- MOVE_STREAM_CONFIG_WRITE (R65): Write to PART_MSBASE or PART_MSCTL.SIZE: refused with BUSY while EN = 1, otherwise
  HEAD and TAIL are set to 0 and the expected SEQ is unset. -/
  | moveStreamConfigWrite (o : Org) (size : Bool) (v : Nat)
  /-- MOVE_STREAM_ENABLE (R65): Write of PART_MSCTL.EN = 1: refused if the ring leaves the shared-memory view, otherwise the
  chip sequencer starts fetching, which also leaves STOPPED. -/
  | moveStreamEnable (o : Org) (size : Nat)
  /-- MOVE_STREAM_DISABLE (R65): Write of PART_MSCTL.EN = 0, which stops the chip sequencer fetching moves. -/
  | moveStreamDisable (o : Org)
  /-- MOVE_STREAM_ABORT (R94): Write of 1 to PART_MSCTL.ABORT: requests an abort of the current job, decided at the retire
  point. -/
  | moveStreamAbort (o : Org)
  /-- MOVE_FETCH (R71): The chip sequencer fetches a move header and its lanes from the ring, checks SEQ and format, follows
  WRAP headers and skips moves of an ended job. -/
  | moveFetch (p : Nat)
  /-- LANE_DISPATCH (R71): A lane is handed to its region sequencer's pending place once a place is free and any SYNC
  condition holds, with partitions served in turn. -/
  | laneDispatch
  /-- LANE_START (R74): A lane becomes the region's running lane: it starts a reload if RECONF = 1, applies the loop-counter
  updates and sets the program position. -/
  | laneStart (p r : Nat)
  /-- LANE_FWAIT_PASS (R74): A lane waiting on FWAIT passes once its chip flag is set, clearing the flag if requested. -/
  | laneFwaitPass (p r : Nat)
  /-- RECONF_DRAIN_END (R82): The drain ends once started unit operations have finished, and the freeze phase begins. -/
  | reconfDrainEnd (p r : Nat)
  /-- RECONF_FREEZE_END (R82): The 8-cycle freeze ends, with outbound traffic stopped and border flags frozen, and the table
  read begins. -/
  | reconfFreezeEnd (p r : Nat)
  /-- RECONF_TABLES_END (R82): The setup header and tables have been read into the sequencer (or SETUP_MISSING is found),
  and the check phase begins. -/
  | reconfTablesEnd (p r : Nat) (us : List Upset)
  /-- RECONF_CHECK_END (R500): The 32-cycle check of the header and tables ends: it either fails the load with SETUP_FORMAT
  or STEER_LIMIT, or the section read begins. -/
  | reconfCheckEnd (p r : Nat)
  /-- BOOK_SECTION_UNIT (R83): The die's book port serves one 512-byte section unit to the next region in turn. -/
  | bookSectionUnit (d : Nat)
  /-- RECONF_SECTIONS_END (R82): All core sections have been read and checked: the load either fails (SETUP_FORMAT,
  ACCUM_CAPACITY, QUEUE_RESIDUE) or proceeds to the register phase. -/
  | reconfSectionsEnd (p r : Nat) (us : List Upset)
  /-- RECONF_REGISTERS_END (R82): Route and queue registers, the bank map, buffers, the rotation area and flag initial
  values are loaded. -/
  | reconfRegistersEnd (p r : Nat)
  /-- RECONF_RELEASE (R82): Phase 8 ends: credits are restored, queued flag operations are applied, BINDs are answered and
  the region is ready to grant a tempo. -/
  | reconfRelease (p r : Nat)
  /-- TEMPO_GRANT (R81): The region sequencer grants a tempo when the lane, FWAIT, gate credits, count queue and
  output-store pressure all allow, debiting the named slots. -/
  | tempoGrant (p r : Nat)
  /-- TEMPO_EXECUTE (R76): A granted tempo reaches the cores: each starts the actions of its step, advances every running
  unit one step, and the sequencer applies the loop or CLD rule. -/
  | tempoExecute (p r : Nat) (us : List Upset)
  /-- LANE_RETIRE (R74): A lane retires once its tempos are used and all the matrix, vector, DMA and stack work it started
  has ended; FSET applies and the move or job may retire. -/
  | laneRetire (p r : Nat)
  /-- JOB_STOP_DRAIN_END (R95): After an abort or failure, the job's regions finish draining, go to IDLE or QUARANTINED, and
  the completion record is posted. -/
  | jobStopDrainEnd (p : Nat)
  /-- WLOAD (R113): Matrix instruction that loads a weight tile into the shadow registers over 16 tempos. -/
  | wload (f k arr idx : Nat)
  /-- STREAM (R109): Matrix instruction that streams NROWS input rows through the loaded tile, optionally swapping,
  checking, handing off or ganged. -/
  | stream (f k arr idx : Nat)
  /-- ACLR (R110): Matrix instruction that zeroes an accumulator window at 16 rows per tempo. -/
  | aclr (f k arr idx : Nat)
  /-- VECTOR_CHAIN_PROGRAM (R193): VEC action starting a vector chain program that reads groups, runs its stages and writes
  a destination or drains tiles. -/
  | vectorChainProgram (f k idx : Nat)
  /-- ROUTE_SET_LOAD (R247): RTE action that loads a route set into the route registers, sending UNBIND and BIND for
  replaced TGT 1 words. -/
  | routeSetLoad (f k idx : Nat)
  /-- FLAG_SET (R261): Flag action that sets a flag of this core, a route's core, a named core or a chip flag. -/
  | flagSet (f k idx : Nat)
  /-- FLAG_CLEAR (R261): Flag action that clears a flag of this core, a route's core, a named core or a chip flag. -/
  | flagClear (f k idx : Nat)
  /-- FLAG_OP_ARRIVE (R84): A flag operation reaches its target core or the chip flag network and changes the flag (set
  wins), or waits at a LOADING core. -/
  | flagOpArrive (viaMesh : Bool) (f k n : Nat) (us : List Upset := [])
  /-- PAIR (R91): Steering action that pairs each token with its COUNT data entries and sends them to the destination route,
  or drops them, checking the token SEQ. -/
  | pair (f k idx : Nat)
  /-- DELIVER (R93): Steering action that places a token's count in the sequencer's count queue and its data in the steered
  input queue. -/
  | deliver (f k idx : Nat)
  /-- TOKGEN (R90): Steering action that writes a token carrying the last variable run's entry count into the TCHAN queue. -/
  | tokgen (f k idx : Nat)
  /-- CURSOR (R224): Memory action that sets an input or weight cursor for instructions without a tile descriptor. -/
  | cursor (f k idx : Nat)
  /-- CASTLE (R234): Memory action that exchanges the halves of filled castled buffers, failing with CASTLE_UNFILLED if a
  fill flag is clear. -/
  | castle (f k idx : Nat)
  /-- DMAIN (R226): Memory action that moves entries from a channel queue into core memory, one every PACE tempos. -/
  | dmain (f k idx : Nat)
  /-- DMAOUT (R226): Memory action that sends core or accumulator memory rows as entries on a route, one every PACE tempos. -/
  | dmaout (f k idx : Nat)
  /-- SMREQ (R229): Memory action that sends a shared-memory stream request on a route to an attachment. -/
  | smreq (f k idx : Nat)
  /-- ROTATE (R240): Memory action that moves weight tiles around the rotation ring (PASS) or into the core's own rotation
  input (LOCAL). -/
  | rotate (f k idx : Nat)
  /-- STREAM_REQUEST (R230): A shared-memory attachment takes a stream request into one of its 8 contexts and checks every
  entry address against the view. -/
  | streamRequest (f k : Nat)
  /-- SM_READ_ENTRY (R231): A read stream issues its next 64-byte access when its return route has credit and returns the
  entry to the requesting core. -/
  | smReadEntry (f k ctx : Nat)
  /-- STREAM_WRITE_ENTRY (R230): An attachment takes the next write entry of a write stream and writes it to shared memory. -/
  | streamWriteEntry (f k : Nat)
  /-- BIND (R249): A BIND control flit reaches a queue or agent, which grants credits, remembers the BIND, or rebinds. -/
  | bind (f k port : Nat)
  /-- UNBIND (R249): An UNBIND reaches a queue or agent, returning the unused credits and freeing the binding place. -/
  | unbind (f k port : Nat)
  /-- CREDIT_GRANT (R250): A credit reaches a route and becomes visible to the sequencer after 3 or 17 cycles. -/
  | creditGrant (n : Nat)
  /-- OUTPUT_STORE_SEND (R251): A waiting output-store entry leaves on its route when the route holds a credit. -/
  | outputStoreSend (f k route : Nat)
  /-- FLIT_FORWARD (R252): A router output port forwards one flit per cycle in round-robin, with rotation flits first. -/
  | flitForward (f k port : Nat)
  /-- ENTRY_ARRIVAL (R245): An entry reaches its destination queue in arrival order, or is discarded if the route was
  released. -/
  | entryArrival (f k : Nat)
  /-- LINK_REPLAY (R472): A flit with a wrong CRC is replayed; after 8 failures the link is marked failed and
  MESH_LINK_FAULT is raised. -/
  | linkReplay (f k port : Nat) (good : Bool)
  /-- STALEMATE (R272): A region's HOLD reaches the watchdog limit: granting stops for the job, STALEMATE is charged and the
  snapshot is written. -/
  | stalemate (p r : Nat)
  /-- STALEMATE_SNAPSHOT_DONE (R272): Once the firmware has written the stalemate snapshot, the job stops and its completion
  record is posted. -/
  | stalemateSnapshotDone (p : Nat)
  /-- WATCHDOG_WRITE (R271): Write to PART_WDOG that sets a new limit, expiring at once any region whose HOLD already
  exceeds it. -/
  | watchdogWrite (o : Org) (v : Nat)
  /-- SNAPSHOT_ACK (R273): Write of 1 to PART_SNAPSTAT.VALID that clears VALID, TRUNC and MISSED. -/
  | snapshotAck (o : Org)
  /-- CHIP_FLAG_SET (R269): PART_CFOP write with OP 0 that sets a chip flag of the partition. -/
  | chipFlagSet (o : Org) (flag : Nat)
  /-- CHIP_FLAG_CLEAR (R269): PART_CFOP write with OP 1 that clears a chip flag of the partition. -/
  | chipFlagClear (o : Org) (flag : Nat)
  /-- QHEAD_LATCH (R268): Read of CORE_QHEAD0 that latches the head entry of the selected queue without dequeuing it. -/
  | qheadLatch (f k : Nat)
  /-- SCORESHEET_ENABLE (R278): Write of PART_SSCTL.EN = 1 that resets HEAD, TAIL, LOST and the histograms and fixes the
  selection count. -/
  | scoresheetEnable (o : Org) (period : Nat)
  /-- SCORESHEET_DISABLE (R278): Write of PART_SSCTL.EN = 0 that stops sampling. -/
  | scoresheetDisable (o : Org)
  /-- SCORESHEET_SAMPLE (R279): Every 2^PERIOD cycles the selected queue occupancies are sampled into a record and the
  histograms, or the sample is dropped when the ring is full. -/
  | scoresheetSample (p : Nat)
  /-- BARRIER_ARRIVE (R265): The ARRIVE chip flag is set, so the link interface clears it and sends the module's arrival on
  the ring membership. -/
  | barrierArrive (p : Nat)
  /-- BARRIER_TIMEOUT (R358): A barrier that has not completed after TOUT ms fails with RING_TIMEOUT. -/
  | barrierTimeout (c : Nat)
  /-- STACK_READ (R291): DMA descriptor READ taken by an edge agent: it is checked as a whole, then codewords are read and
  delivered in row order. -/
  | stackRead (f k : Nat)
  /-- STACK_WRITE (R291): DMA descriptor WRITE taken by an edge agent, which is checked and then takes the next E data
  entries from the route. -/
  | stackWrite (f k : Nat)
  /-- STACK_WRITE_DATA (R291): A write data entry is taken in by the edge agent and written as a codeword, or discarded if
  the request was refused. -/
  | stackWriteData (f k : Nat)
  /-- GATHER (R292): DMA descriptor GATHER taken by an edge agent, which delivers indexed elements in index order. -/
  | gather (f k : Nat)
  /-- GATHER_INDEX (R292): A gather index entry arrives and its indices are checked and read. -/
  | gatherIndex (f k : Nat)
  /-- EDGE_DELIVERY (R289): An edge agent delivers a read or result entry to a destination queue when it holds credit,
  binding the queue first if needed. -/
  | edgeDelivery (f k : Nat) (us : List Upset)
  /-- STACK_REQUEST_COMPLETE (R295): A stack request completes and, with FLAG, sets a core flag. -/
  | stackRequestComplete (f k : Nat)
  /-- MATCH (R307): Match command taken at a match input and checked, then queued for the engine. -/
  | matchCommand (f k : Nat)
  /-- MATCH_QUERY_ENTRY (R307): A query entry of a match command is taken in. -/
  | matchQueryEntry (f k : Nat)
  /-- MATCH_SCAN_START (R309): The engine starts the next waiting match command once the previous one has ended. -/
  | matchScanStart (t : Nat)
  /-- MATCH_PASS_END (R312): A scan pass ends and the ranked results are delivered query by query to a queue or the result
  area. -/
  | matchPassEnd (t : Nat) (us : List Upset)
  /-- REFRESH (R302): The refresh timer refreshes stack rows at 3.9 or 1.95 µs per bank. -/
  | refresh (t : Nat)
  /-- SCRUB_READ (R303): The patrol scrub reads the next codeword and rewrites it if it was corrected or queued. -/
  | scrubRead (t : Nat) (us : List Upset)
  /-- ROW_SPARED (R304): The row copy ends, the row address is remapped and waiting requests resume. -/
  | rowSpared (t : Nat) (us : List Upset)
  /-- STACK_CLEAR_DONE (R306): Clearing of a re-granted stack ends and the pending grant takes effect. -/
  | stackClearDone (t : Nat)
  /-- HSTK_ECC_CLEAR (R317): Write of 1 to HSTK_ECC.CLR that zeroes the stack's ECC counters. -/
  | hstkEccClear (o : Org) (t : Nat)
  /-- CORE_ECC_CLEAR (R479): Write of 1 to CORE_ECC.CLR or DIE_ECC.CLR that zeroes the counters. -/
  | coreEccClear (o : Org) (die : Bool) (n : Nat)
  /-- RING_TABLE_LOAD (R329): Write of LNKB_RINGTAB.LOAD that reads and checks a ring table from shared memory. -/
  | ringTableLoad (o : Org) (b m addr : Nat)
  /-- RING_KEY (R330): Mailbox command that loads a membership's ring key and resets its frame counters. -/
  | ringKey (o : Org) (m : Nat) (key : List Byte)
  /-- RING_STEP (R397): Mailbox command that hands a step descriptor to the step input as pending. -/
  | ringStep (o : Org) (desc : List Byte)
  /-- STEP_DESCRIPTOR (R332): A step descriptor reaches a step input from a core route or command and starts the step on
  every PMASK port after the checks. -/
  | stepDescriptor (b : Nat)
  /-- RED_FRAME (R339): A RED frame of partial sums is received, checked and added, then forwarded or stored. -/
  | redFrame (b : Nat) (d : Dgram)
  /-- BCC_FRAME (R354): A BCC frame of compressed corrections is received, reconstructed into replicas and forwarded. -/
  | bccFrame (b : Nat) (d : Dgram)
  /-- BCF_FRAME (R355): A BCF frame of full parameters is received, checked exactly and written into replicas. -/
  | bcfFrame (b : Nat) (d : Dgram)
  /-- ACK_FRAME (R345): A ring ACK frame advances the acknowledged LSEQ, triggers a resend on GAP or holds the sender on
  READY = 0. -/
  | ackFrame (b : Nat) (d : Dgram)
  /-- NORM_FRAME (R346): A NORM frame carries a norm-lane partial value for the level_sum exchange. -/
  | normFrame (b : Nat) (d : Dgram)
  /-- BAR_FRAME (R358): A BAR frame carries a barrier exchange of level_sum. -/
  | barFrame (b : Nat) (d : Dgram)
  /-- RING_RESEND_TIMEOUT (R345): 50 µs pass without ACK progress, so frames are resent from the oldest unacknowledged;
  after 8 resends the step fails with RING_TIMEOUT. -/
  | ringResendTimeout (c b phase lvl peer : Nat)
  /-- RING_PROGRESS_TIMEOUT (R345): No expected frame or READY = 0 answer arrives for TOUT ms and the step fails with
  RING_TIMEOUT. -/
  | ringProgressTimeout (c : Nat)
  /-- PRIORITY_RESEND_TIMEOUT (R358): A BAR or NORM frame not acknowledged within 5 µs is resent. -/
  | priorityResendTimeout (c : Nat) (bar : Bool)
  /-- UPDATE_BLOCK (R349): Once the norm result and a block's sum are available, the update engine updates the block's shard
  entries and forms its corrections. -/
  | updateBlock (c b : Nat)
  /-- STEP_COMPLETE (R361): All entries are reconstructed, all frames are acknowledged and the barrier is done, so DONE is
  set and the step completion record is posted. -/
  | stepComplete (c : Nat)
  /-- RING_STEP_ABORT (R362): Write of 1 to PART_RCTL.ABORT that aborts the running step with RING_ABORTED, or has no effect
  if the step has completed. -/
  | ringStepAbort (o : Org) (m : Nat)
  /-- INIT (R375): Ranow INIT received: the module answers with a REPLY or a REJECT and keeps a half-open session. -/
  | init (port : Nat) (d : Dgram)
  /-- CONFIRM (R377): Ranow CONFIRM received: the host signature and key are checked, the keys are derived and the session
  opens with an ACK. -/
  | confirm (port : Nat) (d : Dgram)
  /-- HALF_OPEN_EXPIRY (R379): A half-open session is dropped 1 s after its REPLY. -/
  | halfOpenExpiry (port sid : Nat)
  /-- ACK (R380): Ranow ACK received: it updates delivery state and the reader's ring head. -/
  | ack (port : Nat) (d : Dgram)
  /-- KEEPALIVE (R383): Ranow KEEPALIVE received, which keeps the session alive. -/
  | keepalive (port : Nat) (d : Dgram)
  /-- CLOSE (R384): Ranow CLOSE received, which ends the session. -/
  | close (port : Nat) (d : Dgram)
  /-- MBOX (R385): Ranow MBOX received: it writes a range of the command ring and a new tail, optionally with RESET. -/
  | mbox (port : Nat) (d : Dgram)
  /-- RANOW_ACK_TIMER (R381): An ACK is sent within 20 µs of a reliable message. -/
  | ranowAckTimer (sid : Nat)
  /-- RANOW_RETRANSMIT (R382): The retransmission time expires, so an unacknowledged message is resent; after 12 resends the
  session is lost. -/
  | ranowRetransmit (sid seq : Nat)
  /-- SESSION_TIMEOUT (R383): 30 s pass without an authenticated host message and the session is declared lost. -/
  | sessionTimeout (sid : Nat)
  /-- ARP_REQUEST (R370): An ARP request or IPv6 neighbour solicitation for the port's address is answered. -/
  | arpRequest (port mac target : Nat)
  /-- ECHO_REQUEST (R370): An ICMP or ICMPv6 echo request is answered. -/
  | echoRequest (port : Nat) (d : Dgram)
  /-- FOREIGN_FRAME (R370): Any other frame on network A is discarded and counted. -/
  | foreignFrame (port : Nat)
  /-- COMMAND_RECORD_TAKE (R388): The firmware takes the next command record from a session's ring, handling PAD records,
  bad lengths and wrap violations. -/
  | commandRecordTake (us : List Upset := [])
  /-- NOP (R392): Command that completes OK. -/
  | nop (o : Org)
  /-- SUBSCRIBE (R400): Command that sets the session's notify mask and releases held records. -/
  | subscribe (o : Org) (mask : Nat)
  /-- SESSION_INFO (R392): Command that returns the session state. -/
  | sessionInfo (o : Org)
  /-- REG_READ (R394): Command that reads 1–64 registers after checking the grants. -/
  | regRead (o : Org) (a w n : Nat) (us : List Upset := [])
  /-- REG_WRITE (R394): Command that writes one register under its field types, used for registers without their own row. -/
  | regWrite (o : Org) (a w v : Nat) (us : List Upset := [])
  /-- JOB_ABORT (R396): Deferred command that aborts the current or last job and completes with the outcome of R94. -/
  | jobAbort (o : Org) (job : Nat)
  /-- MATCH_MULTI (R398): Deferred command that issues one match command per named stack into work areas. -/
  | matchMulti (o : Org) (qaddr raddr : Nat) (tmpl : List Byte) (stks : List MStk)
  /-- MATCH_MULTI_MERGE (R398): When every stack's match has ended, the firmware merges the lists and writes the results or
  the failure code. -/
  | matchMultiMerge (num : Nat)
  /-- DOPEN (R403): Ranow DOPEN received: a burst is checked and opened, and DSTAT is sent. -/
  | dopen (port : Nat) (d : Dgram)
  /-- DWRITE (R404): Ranow DWRITE chunk received: it is checked and written at its address, and DSTAT is sent when the burst
  is done. -/
  | dwrite (port : Nat) (d : Dgram)
  /-- DREAD (R404): The module sends the next read chunk of a burst when its data have been read, then DSTAT. -/
  | dread (sid bid : Nat)
  /-- GRANT_SET (R416): Deferred command from partition 0 that sets a partition's grant record, aborting, releasing and
  clearing as required. -/
  | grantSet (o : Org) (rec : List Byte)
  /-- PART_DELETE (R417): Deferred command from partition 0 that drops every resource of a partition and closes its
  sessions. -/
  | partDelete (o : Org) (q : Nat)
  /-- GRANT_READ (R426): Command that returns a partition's grant record. -/
  | grantRead (o : Org) (q : Nat)
  /-- HOSTKEY_SET (R425): Command that sets or empties a host-key slot. -/
  | hostkeySet (o : Org) (q slot op : Nat) (key : List Byte)
  /-- IMAGE_LOAD (R431): Deferred command that reads, authenticates, checks and stages a region image. -/
  | imageLoad (o : Org) (r src len : Nat) (secret : List Byte)
  /-- ATTEST (R438): Deferred command that writes a signed attestation report. -/
  | attest (o : Org) (nonce : List Byte) (dest : Nat)
  /-- CERT_READ (R436): Command that writes the identity certificate to shared memory. -/
  | certRead (o : Org) (dest : Nat)
  /-- FW_STAGE (R454): Deferred command that checks a firmware package and writes it into the inactive bank. -/
  | fwStage (o : Org) (src len : Nat)
  /-- FW_PROMOTE (R455): Deferred command that accepts a bank promotion, announces it and preloads the images. -/
  | fwPromote (o : Org) (target force deadline : Nat)
  /-- FW_CANCEL (R464): Command that ends a pending promotion before its decision. -/
  | fwCancel (o : Org)
  /-- SET_READ (R464): Command that writes the settings slot in force to shared memory. -/
  | setRead (o : Org) (dest : Nat)
  /-- SET_WRITE (R460): Command that replaces network and profile items by writing a new settings slot. -/
  | setWrite (o : Org) (n : Nat) (items : List Byte)
  /-- RESTART (R464): Deferred command requesting an activation pause without a bank change. -/
  | restart (o : Org) (force deadline : Nat)
  /-- ACTIVATION_DECISION (R456): In the first quiescent cycle (unforced) or at the deadline (forced), the pause is decided
  and performed. -/
  | activationDecision (e : StartEnv)
  /-- ACTIVATION_DEFERRED (R456): The deadline of an unforced promotion passes without a quiescent cycle and the promotion
  completes deferred. -/
  | activationDeferred
  /-- START (R444): A start begins 1 ms after RESET_N and PGOOD are both high and runs the start stages to service ready. -/
  | start (e : StartEnv)
  /-- START_TIMEOUT (R449): Service ready is not reached within 10 s of the start. -/
  | startTimeout (e : StartEnv)
  /-- LINK_UP (R444): An Ethernet port comes up when its link partner appears. -/
  | linkUp (port : Nat)
  /-- RETIRE_REQUEST (R474): Write of MGMT_RETIRE.REQ that makes the named core pending retirement. -/
  | retireRequest (o : Org) (f k : Nat)
  /-- THERMAL_WARNING (R480): A sensor reaches the WARNING threshold, so THERM_N is asserted and partitions are notified. -/
  | thermalWarning (die : Nat) (stks : List Nat)
  /-- THERMAL_THROTTLE (R480): A sensor reaches the THROTTLE threshold and clock and stack reduction begins. -/
  | thermalThrottle (die : Nat) (stks : List Nat)
  /-- THROTTLE_STEP (R480): Every 1 ms while hot, the fabric clock is lowered by 100 MHz down to 500 MHz. -/
  | throttleStep
  /-- THERMAL_TRIP (R481): A trip threshold or 100 ms at 500 MHz stops the fabric and ports and asserts FAULT_N. -/
  | thermalTrip (die : Nat) (stks : List Nat)
  /-- THERMAL_CLEAR (R480): Sensors stay 5 °C below the entry threshold for 100 ms, the state is left and the clock ramps
  back. -/
  | thermalClear (die : Nat) (stks : List Nat)
  /-- THERMAL_CLOCK_RAMP (R480): Each millisecond after a clear, the fabric clock rises 100 MHz toward the profile clock. -/
  | thermalClockRamp
  /-- INPUT_VOLTAGE (R489): The input enters or leaves the 36–40 V or 60–63 V band for 50 µs and partitions are notified. -/
  | inputVoltage (v : Nat)
  /-- INPUT_OUT_OF_RANGE (R489): The input falls below 36 V or rises above 63 V and the main rails go off as for PWR_EN low. -/
  | inputOutOfRange (v : Nat)
  /-- OVERCURRENT_TRIP (R490): Input current above 24 A for 100 µs stops the module with POWER_CAP in the boot status. -/
  | overcurrentTrip (cur : Nat)
  /-- STANDBY_UP (R488): The standby rail comes up, SLOT_ID is read, the sideband registers reset and the status read is
  answered. -/
  | standbyUp (slot : Nat)
  /-- PWR_EN_RISE (R491): The carrier raises PWR_EN, the main rails come up and PGOOD rises. -/
  | pwrEnRise
  /-- POWER_DOWN (R492): PWR_EN falls, so the fabric and ports stop, PGOOD falls and the main rails go off. -/
  | powerDown
  /-- RAIL_FAULT (R492): PGOOD falls while PWR_EN is high and the input is in range, and FAULT_N stays asserted. -/
  | railFault
  /-- RESET (R491): RESET_N held low for 10 µs with PGOOD high stops every clock domain and ends a start failure. -/
  | resetPin
  /-- REFCLK_LOSS (R497): REFCLK missing for 10 µs after a start stops the module with HARDWARE_SELFTEST. -/
  | refclkLoss
  /-- POWER_CAP_TICK (R494): Each 1 ms the power controller compares power with the target and steps the clock or stack caps
  down or up. -/
  | powerCapTick (m : Measured) (a : Activity)
  /-- POWER_MODEL_UPDATE (R493): Every 10 ms the correction factor k moves toward the measured-to-predicted power ratio. -/
  | powerModelUpdate (pin : Nat) (a : Activity)
  /-- SB_PWRLIM_WRITE (R494): SMBus write of SB_PWRLIM that sets the rack cap. -/
  | sbPwrlimWrite (data : List Byte) (pec : Byte)
  /-- SMBUS_STATUS_READ (R496): SMBus read of command code 0x00 that returns the boot status word. -/
  | smbusStatusRead
  /-- SMBUS_BLOCK_READ (R496): SMBus Block Read of a data-side register. -/
  | smbusBlockRead (code : Nat)
  /-- SMBUS_BLOCK_WRITE (R496): SMBus Block Write with PEC to a sideband register, NACKed if invalid. -/
  | smbusBlockWrite (code : Nat) (data : List Byte) (pec : Byte)
  /-- SMBUS_ALERT_RESPONSE (R496): The module answers the SMBus Alert Response Address with its own address. -/
  | smbusAlertResponse
  /-- REGISTER_WRITE (R394): A write to any register without its own row, applied under its field types and checks. -/
  | registerWrite (o : Org) (a w v : Nat) (us : List Upset := [])
  /-- STACK_REQUESTER_COMPLETION (R323): A network B link interface's stack requester read or write completes, so the
  interface can start a ring chain with its own gradient values, feed the update engine or count a reconstruction write
  as done. -/
  | stackRequesterCompletion (c b : Nat) (write : Bool)
  /-- LINK_DOWN (R408): An Ethernet port loses its link partner or its PCS alignment, and LINK and ALIGN go to 0. -/
  | linkDown (port : Nat)
  /-- STANDBY_RAIL_DOWN (R489): The input falls below the 30 V that the standby rail holds to, so the standby rail and the
  sideband registers are lost. -/
  | standbyRailDown
  /-- DEFERRED_COMMAND_END (R391): A deferred command such as IMAGE_LOAD, ATTEST, FW_STAGE or the FW_PROMOTE preload ends
  its long-running work, and its completion is posted. -/
  | deferredCommandEnd (num : Nat) (fail : Bool)
  /-- SHARED_MEMORY_SCRUB (R469): The 24-hour patrol scrub of shared memory and the book reads the next location and
  rewrites it if it was corrected. -/
  | sharedMemoryScrub (d : Nat) (us : List Upset)
  /-- SMBUS_CLOCK_LOW_TIMEOUT (R496): SMB_CLK held low beyond the 25–35 ms clock-low timeout makes the sideband abandon the
  transaction. -/
  | smbusClockLowTimeout
  /-- UNMATCHED_RING_FRAME (R324): A frame on network B that matches no loaded ring table is discarded without an answer and
  counted in LNKB_STAT.FOREIGN. -/
  | unmatchedRingFrame (b : Nat) (d : Dgram)
  /-- TRANSMITTER_FRAME_END (R357): A port transmitter finishes a frame and, at that message boundary, picks the next one by
  priority 7, membership turns or partition share weights. -/
  | transmitterFrameEnd (port : Nat)
deriving DecidableEq, Repr

end Sys2Proof
end

