-- ==== Sys2Proof/Decode.lean ====
section
/-!
DEFINITION. The commands of the table have no words: no row of spec/opcode_table.json gives bits, so a word spells none.
-/

namespace Sys2Proof

/-- The command that a word spells by the table's bits: none, since no row has any. -/
def decodeTableWord (_nbits _w : Nat) : Option Instr := none

end Sys2Proof
end

