-- ==== Sys2Proof/Machine/Codes.lean ====
section
/-!
DEFINITION. The status and event codes (R24, R25): the complete list of R484, one definition a code.
-/

namespace Sys2Proof.Code

/-- OK (R484). -/
def ok : Nat := 0x0000
/-- ABORTED (R484). -/
def aborted : Nat := 0x0001
/-- ABORT_NO_EFFECT (R484). -/
def abortNoEffect : Nat := 0x0002
/-- BUSY (R484). -/
def busy : Nat := 0x0003
/-- NOT_PERMITTED (R484). -/
def notPermitted : Nat := 0x0004
/-- BAD_ARGUMENT (R484). -/
def badArgument : Nat := 0x0005

/-- STALEMATE (R484). -/
def stalemate : Nat := 0x0110
/-- STEER_SEQ_MISMATCH (R484). -/
def steerSeqMismatch : Nat := 0x0120
/-- SETUP_MISSING (R484). -/
def setupMissing : Nat := 0x0130
/-- SETUP_FORMAT (R484). -/
def setupFormat : Nat := 0x0131
/-- STEER_LIMIT (R484). -/
def steerLimit : Nat := 0x0132
/-- QUEUE_RESIDUE (R484). -/
def queueResidue : Nat := 0x0133
/-- REGION_NOT_READY (R484). -/
def regionNotReady : Nat := 0x0134
/-- REGION_INVALID (R484). -/
def regionInvalid : Nat := 0x0140
/-- REGION_BUSY (R484). -/
def regionBusy : Nat := 0x0141
/-- MOVE_FORMAT (R484). -/
def moveFormat : Nat := 0x0150

/-- ROUTE_NULL (R484). -/
def routeNull : Nat := 0x0160
/-- QUEUE_CONFLICT (R484). -/
def queueConflict : Nat := 0x0161
/-- QUEUE_UNDERRUN (R484). -/
def queueUnderrun : Nat := 0x0162
/-- SCORESHEET_LOST (R484). -/
def scoresheetLost : Nat := 0x0170

/-- CHECK_COLUMN_MISMATCH (R484). -/
def checkColumnMismatch : Nat := 0x0230
/-- CHECK_UNAVAILABLE (R484). -/
def checkUnavailable : Nat := 0x0231
/-- ARRAY_FORMAT (R484). -/
def arrayFormat : Nat := 0x0240
/-- ARRAY_OVERLAP (R484). -/
def arrayOverlap : Nat := 0x0241

/-- ACCUM_CAPACITY (R484). -/
def accumCapacity : Nat := 0x0210
/-- TILE_BOUNDS (R484). -/
def tileBounds : Nat := 0x0220
/-- TILE_SEQUENCE (R484). -/
def tileSequence : Nat := 0x0221
/-- ACCUM_UNDRAINED (R484). -/
def accumUndrained : Nat := 0x0222
/-- FUSE_UNDERRUN (R484). -/
def fuseUnderrun : Nat := 0x0250
/-- FUSE_OVERRUN (R484). -/
def fuseOverrun : Nat := 0x0251

/-- VEC_OVERLAP (R484). -/
def vecOverlap : Nat := 0x0260
/-- VEC_COUNT (R484). -/
def vecCount : Nat := 0x0261
/-- VEC_UNDERRUN (R484). -/
def vecUnderrun : Nat := 0x0262

/-- BANK_SLOT (R484). -/
def bankSlot : Nat := 0x0310
/-- BANK_CONFLICT (R484). -/
def bankConflict : Nat := 0x0311
/-- CASTLE_UNFILLED (R484). -/
def castleUnfilled : Nat := 0x0312
/-- DMA_UNDERRUN (R484). -/
def dmaUnderrun : Nat := 0x0313
/-- DMA_OVERLAP (R484). -/
def dmaOverlap : Nat := 0x0314
/-- STREAM_ADDRESS (R484). -/
def streamAddress : Nat := 0x0315
/-- ROTATION_TIMING (R484). -/
def rotationTiming : Nat := 0x0316

/-- STACK_ADDRESS (R484). -/
def stackAddress : Nat := 0x0320
/-- STACK_DESC_FORMAT (R484). -/
def stackDescFormat : Nat := 0x0321
/-- MATCH_FORMAT (R484). -/
def matchFormat : Nat := 0x0322
/-- UNCORRECTABLE_DATA (R484). -/
def uncorrectableData : Nat := 0x0330
/-- SCRUB_UNCORRECTABLE (R484). -/
def scrubUncorrectable : Nat := 0x0331
/-- ROW_SPARED (R484). -/
def rowSpared : Nat := 0x0332
/-- CORRECTED_RATE (R484). -/
def correctedRate : Nat := 0x0333

/-- RING_TIMEOUT (R484). -/
def ringTimeout : Nat := 0x0410
/-- RING_TABLE_FORMAT (R484). -/
def ringTableFormat : Nat := 0x0411
/-- RING_KEY_STALE (R484). -/
def ringKeyStale : Nat := 0x0412
/-- RING_STEP_FORMAT (R484). -/
def ringStepFormat : Nat := 0x0420
/-- LINK_ADD_MISMATCH (R484). -/
def linkAddMismatch : Nat := 0x0430
/-- GRAD_NONFINITE (R484). -/
def gradNonfinite : Nat := 0x0440
/-- UPDATE_NONFINITE (R484). -/
def updateNonfinite : Nat := 0x0441
/-- RING_FRAME_REJECT (R484). -/
def ringFrameReject : Nat := 0x0450
/-- OWNER_STATE_INIT (R484). -/
def ownerStateInit : Nat := 0x0460
/-- RING_ABORTED (R484). -/
def ringAborted : Nat := 0x0470

/-- RING_WRAP_VIOLATION (R484). -/
def ringWrapViolation : Nat := 0x0510
/-- RING_RECORD_FORMAT (R484). -/
def ringRecordFormat : Nat := 0x0511
/-- SESSION_REJECTED (R484). -/
def sessionRejected : Nat := 0x0520
/-- SESSION_LOST (R484). -/
def sessionLost : Nat := 0x0521
/-- SESSION_PROTOCOL (R484). -/
def sessionProtocol : Nat := 0x0522
/-- BURST_FORMAT (R484). -/
def burstFormat : Nat := 0x0530
/-- COMMAND_UNKNOWN (R484). -/
def commandUnknown : Nat := 0x0540

/-- IMAGE_TAG_FAIL (R484). -/
def imageTagFail : Nat := 0x0610
/-- IMAGE_OUT_OF_REGION (R484). -/
def imageOutOfRegion : Nat := 0x0611
/-- IMAGE_TOO_LARGE_FOR_BOOK (R484). -/
def imageTooLargeForBook : Nat := 0x0612
/-- IMAGE_FORMAT (R484). -/
def imageFormat : Nat := 0x0613
/-- GRANT_CONFLICT (R484). -/
def grantConflict : Nat := 0x0620
/-- PARTITION_DELETED (R484). -/
def partitionDeleted : Nat := 0x0621
/-- GRANT_CHANGED (R484). -/
def grantChanged : Nat := 0x0622
/-- GUARANTEE_YIELDED (R484). -/
def guaranteeYielded : Nat := 0x0630

/-- MANIFEST_INCOMPLETE (R484). -/
def manifestIncomplete : Nat := 0x0710
/-- MANIFEST_PRODUCT (R484). -/
def manifestProduct : Nat := 0x0711
/-- MANIFEST_SVN (R484). -/
def manifestSvn : Nat := 0x0712
/-- MANIFEST_SIGNATURE (R484). -/
def manifestSignature : Nat := 0x0713
/-- MANIFEST_FORMAT (R484). -/
def manifestFormat : Nat := 0x0714
/-- MIGRATION_FAILED (R484). -/
def migrationFailed : Nat := 0x0720
/-- BOOT_IMAGE_FAIL (R484). -/
def bootImageFail : Nat := 0x0730
/-- FW_BANK_FAIL (R484). -/
def fwBankFail : Nat := 0x0731
/-- CONTROLLER_LOAD_FAIL (R484). -/
def controllerLoadFail : Nat := 0x0732
/-- SETTINGS_INVALID (R484). -/
def settingsInvalid : Nat := 0x0733
/-- START_TIMEOUT (R484). -/
def startTimeout : Nat := 0x0734
/-- HARDWARE_SELFTEST (R484). -/
def hardwareSelftest : Nat := 0x0735
/-- ACTIVATION_PENDING (R484). -/
def activationPending : Nat := 0x0740
/-- ACTIVATION_DEFERRED (R484). -/
def activationDeferred : Nat := 0x0741
/-- FW_ROLLED_BACK (R484). -/
def fwRolledBack : Nat := 0x0750
/-- FLASH_WRITE_FAIL (R484). -/
def flashWriteFail : Nat := 0x0760

/-- CORE_RETIRE_PENDING (R484). -/
def coreRetirePending : Nat := 0x0810
/-- CORE_RETIRED (R484). -/
def coreRetired : Nat := 0x0811
/-- BLOCK_WITHDRAWN (R484). -/
def blockWithdrawn : Nat := 0x0812
/-- THERMAL_WARNING (R484). -/
def thermalWarning : Nat := 0x0820
/-- THERMAL_THROTTLE (R484). -/
def thermalThrottle : Nat := 0x0821
/-- THERMAL_TRIP (R484). -/
def thermalTrip : Nat := 0x0822
/-- THERMAL_CLEAR (R484). -/
def thermalClear : Nat := 0x0823
/-- POWER_CAP (R484). -/
def powerCap : Nat := 0x0830
/-- INPUT_VOLTAGE (R484). -/
def inputVoltage : Nat := 0x0831
/-- MESH_LINK_FAULT (R484). -/
def meshLinkFault : Nat := 0x0840
/-- SRAM_CORRECTED_RATE (R484). -/
def sramCorrectedRate : Nat := 0x0850

end Sys2Proof.Code
end

