-- ==== Sys2Proof/Machine/Tiles.lean ====
section
/-!
DEFINITION. Tiles, loop orders, positions, accumulator slots, addresses and footprints: R143-R170.
-/

namespace Sys2Proof

/-- What the instructions that name a descriptor agree on (R144): PAIR, formats, accumulator window. -/
structure TUse where
  pair : Bool
  ifmt : Nat
  wfmt : Nat
  arow : Nat
  alen : Nat
  hasW : Bool
  hasS : Bool
deriving DecidableEq, Repr

/-- The matrix instructions that name descriptor index `d` (0-254). -/
def Sect.users (t : Sect) (d : Nat) : List MatI := t.mats.filter fun i => i.tile == d + 1

/-- What the users of a descriptor agree on, taken from the first of each kind. -/
def Sect.tuse (t : Sect) (d : Nat) : TUse :=
  let us := t.users d
  let st := us.find? (·.op == 2)
  let wl := us.find? (·.op == 1)
  { pair := us.any (·.pair),
    ifmt := match st with | some i => i.ifmt | none => 0,
    wfmt := match st with | some i => i.wfmt | none => (match wl with | some i => i.wfmt | none => 0),
    arow := match st with | some i => i.arow | none => 0,
    alen := match st with | some i => i.alen | none => 0,
    hasW := wl.isSome, hasS := st.isSome }

/-- True where the descriptor works at G4. -/
def TUse.g4 (u : TUse) : Bool := u.wfmt == 5

/-- kw and nw of R148. -/
def TUse.kw (u : TUse) : Nat := if u.g4 then 32 else 16
def TUse.nw (u : TUse) : Nat := if u.pair then 32 else 16

/-- Tile counts and level-2 extents of R148. -/
def TileD.mtt (d : TileD) : Nat := cdiv d.mv d.mb
def TileD.ntt (d : TileD) (u : TUse) : Nat := cdiv d.nv u.nw
def TileD.ktt (d : TileD) (u : TUse) : Nat := if u.g4 then 2 * cdiv d.kv 64 else cdiv d.kv 16
def TileD.mt2 (d : TileD) : Nat := cdiv d.mtt d.mt1
def TileD.nt2 (d : TileD) (u : TUse) : Nat := cdiv (d.ntt u) d.nt1
def TileD.kt2 (d : TileD) (u : TUse) : Nat := cdiv (d.ktt u) d.kt1

/-- Batch count of loop `i`, at least 1 (R145). -/
def TileD.batch (d : TileD) (i : Nat) : Nat := nth 1 d.bc i
/-- The product of the batch counts. -/
def TileD.batches (d : TileD) : Nat := d.batch 0 * d.batch 1 * d.batch 2

/-- The number of tile steps, S (R149). -/
def TileD.steps (d : TileD) (u : TUse) : Nat := d.batches * d.mtt * d.ntt u * d.ktt u

/-- The loops of an order code, outermost first: 0 M, 1 N, 2 K (R150). -/
def ordLoops : Nat → List Nat
  | 0 => [0, 1, 2]
  | 1 => [1, 0, 2]
  | 2 => [0, 2, 1]
  | 3 => [1, 2, 0]
  | 4 => [2, 0, 1]
  | _ => [2, 1, 0]

/-- The index triples (m, n, k) of three loops in the order of a code. -/
def nest3 (o em en ek : Nat) : List (Nat × Nat × Nat) :=
  let ext := fun t => if t = 0 then em else if t = 1 then en else ek
  let l := ordLoops o
  let k0 := nth 0 l 0
  let k1 := nth 0 l 1
  (List.range (ext k0)).flatMap fun a => (List.range (ext k1)).flatMap fun b =>
    (List.range (ext (3 - k0 - k1))).map fun c =>
      let v := fun t => if t = k0 then a else if t = k1 then b else c
      (v 0, v 1, v 2)

/-- The smallest b with 2^b at least x. -/
def clog2 (x : Nat) : Nat := if x ≤ 1 then 0 else Nat.log2 (x - 1) + 1

/-- The Morton point of R151: (mb, nb). -/
def mortonPoint (p b : Nat) : Nat × Nat :=
  (List.range b).foldl (fun (acc : Nat × Nat) i =>
    (acc.1 + p / (2 * 4 ^ i) % 2 * 2 ^ i, acc.2 + p / 4 ^ i % 2 * 2 ^ i)) (0, 0)

/-- The Hilbert point of R151: (mb, nb). -/
def hilbertPoint (p b : Nat) : Nat × Nat :=
  let r := (List.range b).foldl (fun (acc : Nat × Nat × Nat) i =>
    let (x, y, t) := acc
    let s := 2 ^ i
    let rx := t / 2 % 2
    let ry := (t % 2 + rx) % 2
    let (x, y) := if ry = 0 then (if rx = 1 then (s - 1 - y, s - 1 - x) else (y, x)) else (x, y)
    (x + s * rx, y + s * ry, t / 4)) (0, 0, p)
  (r.2.1, r.1)

/-- The points that a curve visits, in order (R151). -/
def curvePoints (curve em en : Nat) : List (Nat × Nat) :=
  let b := clog2 (max em en)
  ((List.range (4 ^ b)).map fun p => if curve = 1 then mortonPoint p b else hilbertPoint p b).filter
    fun x => x.1 < em && x.2 < en

/-- The level-2 visits: (mb, nb, kb, curve index) (R149, R151). -/
def TileD.level2 (d : TileD) (u : TUse) : List (Nat × Nat × Nat × Nat) :=
  if d.curve = 0 then (nest3 d.ord2 d.mt2 (d.nt2 u) (d.kt2 u)).map fun x => (x.1, x.2.1, x.2.2, 0)
  else
    let pts := curvePoints d.curve d.mt2 (d.nt2 u)
    let ix := pts.zip (List.range pts.length)
    if d.ord2 = 0 then ix.flatMap fun x => (List.range (d.kt2 u)).map fun kb => (x.1.1, x.1.2, kb, x.2)
    else (List.range (d.kt2 u)).flatMap fun kb => ix.map fun x => (x.1.1, x.1.2, kb, x.2)

/-- The loops of the nest below the batch loops, outermost first: kind (0 M, 1 N, 2 K, 3 curve), level, full extent. -/
def TileD.loops (d : TileD) (u : TUse) : List (Nat × Nat × Nat) :=
  let e2 := fun t => if t = 0 then d.mt2 else if t = 1 then d.nt2 u else d.kt2 u
  let e1 := fun t => if t = 0 then min d.mt1 d.mtt else if t = 1 then min d.nt1 (d.ntt u) else min d.kt1 (d.ktt u)
  let l2 := if d.curve = 0 then (ordLoops d.ord2).map fun t => (t, 2, e2 t)
    else if d.ord2 = 0 then [(3, 2, d.mt2 * d.nt2 u), (2, 2, d.kt2 u)] else [(2, 2, d.kt2 u), (3, 2, d.mt2 * d.nt2 u)]
  l2 ++ (ordLoops d.ord1).map fun t => (t, 1, e1 t)

/-- The M and N loops inside the outermost K loop whose full extent is above 1 (R163); none without such a loop. -/
def TileD.liveLoops (d : TileD) (u : TUse) : List (Nat × Nat × Nat) :=
  ((d.loops u).dropWhile fun l => !(l.1 == 2 && decide (1 < l.2.2))).filter fun l => l.1 != 2

/-- LIVE (R163). -/
def TileD.live (d : TileD) (u : TUse) : Nat := (d.liveLoops u).foldl (fun acc l => acc * l.2.2) 1

/-- The tile steps in the order of visit (R149). -/
def TileD.tileSteps (d : TileD) (u : TUse) : List TStep :=
  let lv := d.liveLoops u
  let body : List TStep := (d.level2 u).flatMap fun x =>
    let (mb, nb, kb, ci) := x
    (nest3 d.ord1 (min d.mt1 (d.mtt - mb * d.mt1)) (min d.nt1 (d.ntt u - nb * d.nt1)) (min d.kt1 (d.ktt u - kb * d.kt1))).map fun y =>
      let (m1, n1, k1) := y
      let dig := fun (l : Nat × Nat × Nat) =>
        if l.2.1 = 2 then (if l.1 = 0 then mb else if l.1 = 1 then nb else ci) else (if l.1 = 0 then m1 else n1)
      (⟨0, 0, 0, mb, nb, kb, mb * d.mt1 + m1, nb * d.nt1 + n1, kb * d.kt1 + k1,
        lv.foldl (fun (acc : Nat) (l : Nat × Nat × Nat) => acc * l.2.2 + dig l) 0⟩ : TStep)
  (List.range (d.batch 2)).flatMap fun b2 => (List.range (d.batch 1)).flatMap fun b1 =>
    (List.range (d.batch 0)).flatMap fun b0 => body.map fun s => { s with b0 := b0, b1 := b1, b2 := b2 }

/-- The stride of a batch loop for tensor `t` (0 A, 1 B, 2 C), in bytes (R145). -/
def TileD.bstride (d : TileD) (loop t : Nat) : Nat :=
  let x := nth (0, 0, 0) d.bs loop
  if t = 0 then x.1 else if t = 1 then x.2.1 else x.2.2

/-- The batch offset of a tensor at a step (R152). -/
def TileD.bofs (d : TileD) (t : Nat) (s : TStep) : Nat :=
  s.b0 * d.bstride 0 t + s.b1 * d.bstride 1 t + s.b2 * d.bstride 2 t

/-- True when two steps share the weight tile (R161). -/
def TileD.sameW (d : TileD) (x y : TStep) : Bool :=
  x.kt == y.kt && x.nt == y.nt && (d.bstride 0 1 == 0 || x.b0 == y.b0) && (d.bstride 1 1 == 0 || x.b1 == y.b1)
    && (d.bstride 2 1 == 0 || x.b2 == y.b2)

/-- Runs of equal weight tiles collapsed to their first step (R161). -/
def collapse (same : TStep → TStep → Bool) : List TStep → List TStep
  | [] => []
  | [x] => [x]
  | x :: y :: l => if same x y then (match collapse same (y :: l) with | [] => [x] | _ :: r => x :: r) else x :: collapse same (y :: l)

/-- The weight steps (R161). -/
def TileD.weightSteps (d : TileD) (u : TUse) : List TStep := collapse d.sameW (d.tileSteps u)

/-- The weight step of a tile step (R162): changes of weight tile up to it. -/
def TileD.wstepOf (d : TileD) (u : TUse) (spos : Nat) : Nat :=
  (collapse d.sameW ((d.tileSteps u).take (spos + 1))).length - 1

/-- The tile steps that finish an output tile: the order in which the drain reads (R166). -/
def TileD.drainTiles (d : TileD) (u : TUse) : List TStep :=
  (d.tileSteps u).filter fun s => s.kt + 1 == d.ktt u

/-- The linear batch iteration index, loop 0 fastest (R170). -/
def TileD.batchOf (d : TileD) (s : TStep) : Nat := s.b0 + d.batch 0 * (s.b1 + d.batch 1 * s.b2)

/-- Element bytes of an input or weight format other than the 4-bit ones (R153). -/
def fmtBytes (f : Nat) : Nat := elemBits f / 8

/-- Bytes of `n` elements along a row of A or of a 16- or 8-bit row. -/
def rowBytes (f n : Nat) : Nat := cdiv (n * elemBits f) 8

/-- A run of bytes in a space: 0 core memory, b + 1 the compute half of castled buffer b. -/
structure Run where
  space : Nat
  ofs : Nat
  len : Nat
deriving DecidableEq, Repr

/-- The space of a base word. -/
def BaseW.space (b : BaseW) : Nat := if b.cast then b.buf + 1 else 0

/-- Local extents of the blocks of a dimension: the whole extent, or per level-2 block of a castled tensor. -/
def extents (cast : Bool) (total blk : Nat) : List Nat :=
  if cast then (List.range (cdiv total (max 1 blk))).map fun i => min blk (total - i * blk) else [total]

/-- All offsets that the batch loops add to a tensor (R152). -/
def TileD.batchOfs (d : TileD) (t : Nat) : List Nat :=
  (List.range (d.batch 2)).flatMap fun b2 => (List.range (d.batch 1)).flatMap fun b1 => (List.range (d.batch 0)).map fun b0 =>
    b0 * d.bstride 0 t + b1 * d.bstride 1 t + b2 * d.bstride 2 t

/-- QA and NB of R155. -/
def TileD.qa (d : TileD) : Nat := if d.ascl.cast then d.kt1 / 2 else cdiv d.kv 64
def TileD.nbw (d : TileD) (u : TUse) : Nat := if d.bscl.cast then d.nt1 * u.nw else d.ntt u * u.nw

/-- `n` runs of `len` bytes at a stride. -/
def stripes (space ofs stride n len : Nat) : List Run := (List.range n).map fun i => ⟨space, ofs + i * stride, len⟩

/-- The footprint of A (R157): of a consumer, the rows of its ring of `fr` rows that it reads (R171). The scale words follow
the blocks of their own CAST bit, and castled ones take no batch offset (R152, R155). -/
def TileD.runsA (d : TileD) (u : TUse) (fr : Nat) : List Run :=
  if d.fcons then stripes d.a.space d.a.ofs d.astr (min fr (d.batches * d.mv)) (rowBytes u.ifmt d.kv)
  else (d.batchOfs 0).flatMap fun bo =>
    ((extents d.a.cast d.mv (d.mt1 * d.mb)).flatMap fun rm => (extents d.a.cast d.kv (d.kt1 * u.kw)).flatMap fun rk =>
      if d.a.tr then stripes d.a.space (d.a.ofs + bo) d.astr rk (rowBytes u.ifmt rm)
      else stripes d.a.space (d.a.ofs + bo) d.astr rm (rowBytes u.ifmt rk))
    ++ (if u.g4 then (extents d.ascl.cast d.mv (d.mt1 * d.mb)).flatMap fun rm =>
          (extents d.ascl.cast d.kv (d.kt1 * u.kw)).flatMap fun rk =>
            stripes d.ascl.space (d.ascl.ofs + if d.ascl.cast then 0 else bo) (2 * d.qa) rm (2 * cdiv rk 64)
        else [])

/-- The footprint of B (R157). -/
def TileD.runsB (d : TileD) (u : TUse) : List Run :=
  (d.batchOfs 1).flatMap fun bo =>
    ((extents d.b.cast d.nv (d.nt1 * u.nw)).flatMap fun rn => (extents d.b.cast d.kv (d.kt1 * u.kw)).flatMap fun rk =>
      if u.wfmt = 4 ∨ u.wfmt = 5 then stripes d.b.space (d.b.ofs + bo) d.bstr (cdiv rk 2) rn
      else if d.b.tr then stripes d.b.space (d.b.ofs + bo) d.bstr rn (rk * fmtBytes u.wfmt)
      else stripes d.b.space (d.b.ofs + bo) d.bstr rk (rn * fmtBytes u.wfmt))
    ++ (if u.g4 then (extents d.bscl.cast d.nv (d.nt1 * u.nw)).flatMap fun rn =>
          (extents d.bscl.cast d.kv (d.kt1 * u.kw)).flatMap fun rk =>
            stripes d.bscl.space (d.bscl.ofs + if d.bscl.cast then 0 else bo) (2 * d.nbw u) (cdiv rk 64) (2 * rn)
        else [])

/-- The footprint of C (R157, R170). -/
def TileD.runsC (d : TileD) (u : TUse) : List Run :=
  if d.fprod then [⟨d.c.space, d.c.ofs, d.frows * d.cstr⟩]
  else (d.batchOfs 2).flatMap fun bo => (extents d.c.cast d.mv (d.mt1 * d.mb)).flatMap fun rm =>
    (extents d.c.cast d.nv (d.nt1 * u.nw)).flatMap fun rn => stripes d.c.space (d.c.ofs + bo) d.cstr rm (rn * fmtBytes d.cfmt)

/-- True when a run ends beyond the limit that `lim` gives its space. -/
def Run.beyond (lim : Nat → Nat) (r : Run) : Bool := decide (0 < r.len) && decide (lim r.space < r.ofs + r.len)

/-- True when two runs share a byte. -/
def Run.meets (x y : Run) : Bool :=
  x.space == y.space && decide (0 < x.len) && decide (0 < y.len) && decide (x.ofs < y.ofs + y.len) && decide (y.ofs < x.ofs + x.len)

/-- Where a row reads: the runs of bytes, with the position of each element as (index, byte offset in the space, high
nibble), over the elements that are read (R153, R154, R167). -/
structure RowPlan where
  runs : List Run
  /-- (element index, space, byte offset, nibble: 0 whole, 1 low, 2 high) -/
  elems : List (Nat × Nat × Nat × Nat)
deriving DecidableEq, Repr

/-- The reads of A row n of a step (R153, R155, R167); `ofsv` is the OFSEL value in force (R158), `fr` the
rows of the ring that a consumer reads (R171). -/
def TileD.planA (d : TileD) (u : TUse) (fr : Nat) (s : TStep) (ofsv n : Nat) : RowPlan :=
  let m := s.mt * d.mb + n
  if d.mv ≤ m then ⟨[], []⟩
  else
    let m' := if d.a.cast then m - s.mb * d.mt1 * d.mb else if d.fcons then (d.batchOf s * d.mv + m) % max 1 fr else m
    let k0 := s.kt * u.kw
    let nk := min u.kw (d.kv - k0)
    let kl := if d.a.cast then k0 - s.kb * d.kt1 * u.kw else k0
    let base := d.a.ofs + (if d.a.cast then 0 else d.bofs 0 s + (if d.fcons then 0 else ofsv * 64))
    let e := fmtBytes u.ifmt
    if u.g4 then
      let o := base + m' * d.astr + kl / 2
      ⟨[⟨d.a.space, o, cdiv nk 2⟩], (List.range nk).map fun j => (j, d.a.space, o + j / 2, 1 + j % 2)⟩
    else if d.a.tr then
      ⟨(List.range nk).map fun j => ⟨d.a.space, base + (kl + j) * d.astr + m' * e, e⟩,
        (List.range nk).map fun j => (j, d.a.space, base + (kl + j) * d.astr + m' * e, 0)⟩
    else
      let o := base + m' * d.astr + kl * e
      ⟨[⟨d.a.space, o, nk * e⟩], (List.range nk).map fun j => (j, d.a.space, o + j * e, 0)⟩

/-- The place of the scale word of A row n of a step (R155); none where the block lies beyond KV (R167). -/
def TileD.sclA (d : TileD) (s : TStep) (ofsv n : Nat) : Option Run :=
  let m := s.mt * d.mb + n
  let q := s.kt / 2
  if d.mv ≤ m ∨ d.kv ≤ 64 * q then none
  else
    let m' := if d.ascl.cast then m - s.mb * d.mt1 * d.mb else m
    let q' := if d.ascl.cast then q - s.kb * d.kt1 / 2 else q
    some ⟨d.ascl.space, d.ascl.ofs + (if d.ascl.cast then 0 else d.bofs 0 s + ofsv * 64) + m' * 2 * d.qa + q' * 2, 2⟩

/-- The reads of weight row i of a step for columns `c0` to `c0 + cols - 1` of the tile (R154, R167). At the 4-bit formats
the row is the pair of K rows 2i and 2i + 1 (G4) or the byte row of rows i and i + 1 (INT4, even i). -/
def TileD.planB (d : TileD) (u : TUse) (s : TStep) (i c0 cols : Nat) : RowPlan :=
  let k := s.kt * u.kw + (if u.g4 then 2 * i else i)
  if d.kv ≤ k then ⟨[], []⟩
  else
    let n0 := s.nt * u.nw + c0
    let nn := min cols (d.nv - n0)
    let kl := if d.b.cast then k - s.kb * d.kt1 * u.kw else k
    let nl := if d.b.cast then n0 - s.nb * d.nt1 * u.nw else n0
    let base := d.b.ofs + (if d.b.cast then 0 else d.bofs 1 s)
    let e := fmtBytes u.wfmt
    if u.wfmt = 4 ∨ u.wfmt = 5 then
      let o := base + kl / 2 * d.bstr + nl
      ⟨[⟨d.b.space, o, nn⟩], (List.range nn).map fun j => (c0 + j, d.b.space, o + j, 0)⟩
    else if d.b.tr then
      ⟨(List.range nn).map fun j => ⟨d.b.space, base + (nl + j) * d.bstr + kl * e, e⟩,
        (List.range nn).map fun j => (c0 + j, d.b.space, base + (nl + j) * d.bstr + kl * e, 0)⟩
    else
      let o := base + kl * d.bstr + nl * e
      ⟨[⟨d.b.space, o, nn * e⟩], (List.range nn).map fun j => (c0 + j, d.b.space, o + j * e, 0)⟩

/-- The places of the column scale words of a step's weight tile (R155, R222). -/
def TileD.sclB (d : TileD) (u : TUse) (s : TStep) : Option Run :=
  let q := s.kt / 2
  let n0 := s.nt * u.nw
  if d.kv ≤ 64 * q then none
  else
    let q' := if d.bscl.cast then q - s.kb * d.kt1 / 2 else q
    let nl := if d.bscl.cast then n0 - s.nb * d.nt1 * u.nw else n0
    some ⟨d.bscl.space, d.bscl.ofs + (if d.bscl.cast then 0 else d.bofs 1 s) + q' * 2 * d.nbw u + nl * 2,
      2 * min u.nw (d.nv - n0)⟩

/-- The address of C element (m, n) of a step, in its space (R156, R170): for a fused ring, of the run row. -/
def TileD.addrC (d : TileD) (u : TUse) (s : TStep) (ofsv m n : Nat) : Nat :=
  let m' := if d.fprod then (d.batchOf s * d.mv + m) % max 1 d.frows
    else if d.c.cast then m - s.mb * d.mt1 * d.mb else m
  let n' := if d.c.cast then n - s.nb * d.nt1 * u.nw else n
  d.c.ofs + (if d.c.cast then 0 else d.bofs 2 s + (if d.fprod then 0 else ofsv * 64)) + m' * d.cstr + n' * fmtBytes d.cfmt

/-- True when the footprints of A and C, offset under OFSEL, stay inside core memory (R158). -/
def TileD.offsetFits (d : TileD) (u : TUse) (ofsv : Nat) : Bool :=
  let lim := fun sp => if sp = 0 then coreMemBytes else 2 ^ 40
  let sh := fun (r : Run) => if r.space = 0 then { r with ofs := r.ofs + ofsv * 64 } else r
  (d.fcons || !d.aen || ((d.runsA u 0).map sh).all fun r => !r.beyond lim) && (d.fprod || !d.cen || ((d.runsC u).map sh).all fun r => !r.beyond lim)

end Sys2Proof
end

