-- ==== Sys2Proof/Machine/SetupCheck.lean ====
section
/-!
DEFINITION. What a setup load checks: header and tables (R57-R61, R263), matrix instructions (R102-R107), tile descriptors
(R144-R171), vector programs (R183-R208), memory actions (R219-R239, R501), flag and steering actions (R88, R261), queue and
route tables (R246-R248, R286, R325), gangs (R129, R169), the rotation ring (R237-R239).
-/

namespace Sys2Proof

/-- What of a partition's grants a load looks at: grade, blocks held, allotment (R52). -/
structure PView where
  grade : Grade
  blocks : List Nat
  allot : Nat
deriving DecidableEq, Repr

/-- True for a core inside the partition's grants. -/
def PView.grants (v : PView) (f k : Nat) : Bool := coreActive v.grade f k && v.blocks.contains (blockOf f k)

/-- A table's span, when it has entries. -/
def span (ofs sz n : Nat) : List (Nat × Nat) := if n = 0 then [] else [(ofs, ofs + sz * n)]

/-- The placement rules of R57. -/
def SetupHdr.placed (h : SetupHdr) (staged : Nat) : Bool :=
  let sp := span h.progOfs 8 h.proglen ++ span h.gateOfs 8 h.ngate ++ span h.guseOfs 4 h.nguse ++ span h.steerOfs 8 h.nsteer
  decide (h.total ≤ staged) && sp.all (fun x => decide (64 ≤ x.1) && decide (x.2 ≤ h.total))
    && (sp.zip (List.range sp.length)).all fun x => (sp.zip (List.range sp.length)).all fun y =>
      x.2 == y.2 || decide (x.1.2 ≤ y.1.1) || decide (y.1.2 ≤ x.1.1)

/-- A step program entry that the load accepts (R58, R93). -/
def ProgE.ok (h : SetupHdr) (x : ProgE) : Bool :=
  (!(x.lcEn || x.cldEn) || decide (x.ltgt < h.proglen)) && decide (x.guse ≤ h.nguse)
    && (!x.cldEn || (!x.lcEn && x.lcSel == 0 && decide (x.cslot < h.nsteer)))

/-- A gated slot that the load accepts (R59, R263). -/
def GateD.ok (v : PView) (r : Rect) (x : GateD) : Bool :=
  if x.kind = 6 then x.file == 0 && x.rank == 0 && decide (x.chan < v.allot)
  else if x.kind = 5 then decide (x.file < r.files) && decide (x.rank < r.ranks) && decide (x.chan < 64)
  else decide (x.kind < 5) && decide (x.file < r.files) && decide (x.rank < r.ranks) && decide (x.chan < 16)
    && (x.kind != 4 || !x.out)

/-- The check of phase 5 (R500): the code that fails the load. `others` is the number of steered channels that the
partition's other regions hold (R52). Of several causes the header comes first, then the steered channels' limits, then the
tables' entries (log entry 105). -/
def checkTables (v : PView) (r : Rect) (bs : List Byte) (others : Nat) (ok fmt lim : Nat) : Nat :=
  let h := SetupHdr.read bs
  let t := Tables.read h bs
  if h.format != 1 || h.hdrsize != 64 || h.files != r.files || h.ranks != r.ranks || h.proglen == 0 || decide (4096 < h.proglen)
    || decide (32 < h.ngate) || decide (255 < h.nguse) || !h.placed bs.length || decide (bs.length < 64) then fmt
  else if decide (8 < h.nsteer) || decide (v.allot < others + h.nsteer) then lim
  else if t.prog.all (ProgE.ok h) && t.gates.all (GateD.ok v r) && t.guse.all (fun w => decide (w < 2 ^ h.ngate))
    && t.steer.all (fun s => decide (s.file < r.files) && decide (s.rank < r.ranks) && decide (1 ≤ s.ndest) && decide (s.ndest ≤ 4))
  then ok else fmt

/-- The combinations of R102. -/
def fmtPair (i w : Nat) : Bool :=
  ((i == 1 || i == 2) && (w == 1 || w == 2)) || (i == 3 && (w == 3 || w == 4)) || (i == 5 && w == 5) || (i == 6 && w == 6)
    || (i == 7 && w == 7) || (i == 8 && w == 8)

/-- A matrix instruction that the load accepts on its own (R106, R107, R144 first point). -/
def MatI.ok (i : MatI) (bs : List Byte) (ntile : Nat) : Bool :=
  MatI.reserved bs == 0 && decide (i.tile ≤ ntile) &&
  match i.op with
  | 1 => decide (1 ≤ i.wfmt) && decide (i.wfmt ≤ 8) && decide (i.wsrc < 3) && (i.wsrc == 2 || i.chan == 0)
      && (i.wfmt == 5 || i.khalf == 0) && i.ifmt == 0 && !i.swap && !i.chk && !i.hin && i.dest == 0 && i.src == 0
      && i.gpos == 0 && i.nrows == 0 && i.arow == 0 && i.alenF == 0 && i.stag == 0
  | 2 => fmtPair i.ifmt i.wfmt && decide (i.dest < 3) && decide (i.src < 3) && decide (i.gpos < 24) && decide (1 ≤ i.nrows)
      && decide (i.arow + i.alen ≤ 512) && (i.wfmt == 5 || i.khalf == 0) && i.wsrc == 0 && i.chan == 0
      && (i.src != 0 || (i.gpos == 0 && !i.hin && i.dest != 2))
  | 3 => decide (i.arow + i.alen ≤ 512) && i.tile == 0 && i.ifmt == 0 && i.wfmt == 0 && !i.swap && !i.chk && !i.hin
      && i.dest == 0 && i.src == 0 && i.gpos == 0 && i.khalf == 0 && i.nrows == 0 && i.wsrc == 0 && i.chan == 0 && i.stag == 0
  | _ => false

/-- The rules of R144 over the instructions that name descriptor `d`. -/
def usersOk (t : Sect) (d : Nat) (x : TileD) : Bool :=
  let us := t.users d
  let u := t.tuse d
  us.all (fun i => i.pair == u.pair && (i.wfmt != 5 || i.khalf == 0)
    && (if i.op = 1 then i.wsrc == 0 && x.wen && i.wfmt == u.wfmt
      else i.op == 2 && i.ifmt == u.ifmt && i.wfmt == u.wfmt && i.arow == u.arow && i.alen == u.alen && i.nrows == x.mb
        && (if i.src = 1 then !x.aen else x.aen)))

/-- Half size of the buffers that a section defines, and the end of core memory, by space (R157). -/
def Sect.limit (t : Sect) (space : Nat) : Nat :=
  if space = 0 then coreMemBytes
  else match t.bufdef? (space - 1) with | some b => b.nbank * 0x4000 | none => 0

/-- The bytes of core memory that a run can mean: of a castled buffer, those of either half (R157). -/
def Sect.places (t : Sect) (r : Run) : List Run :=
  if r.space = 0 then [r]
  else match t.bufdef? (r.space - 1) with
    | some b => [⟨0, b.bank0 * 0x4000 + r.ofs, r.len⟩, ⟨0, b.bank1 * 0x4000 + r.ofs, r.len⟩]
    | none => []

/-- True when two runs can share a byte of core memory (R157). -/
def Sect.meets (t : Sect) (x y : Run) : Bool := (t.places x).any fun a => (t.places y).any fun b => a.meets b

/-- CFMT values that the load accepts (R145). -/
def cfmtOk (f : Nat) : Bool := f == 1 || f == 2 || f == 3 || f == 6 || f == 7 || f == 8 || f == 9

/-- A tile descriptor that the load accepts, but for its accumulator need (R144-R157, R170, R171). -/
def tileOk (t : Sect) (d : Nat) (x : TileD) : Bool :=
  let u := t.tuse d
  let four := u.wfmt == 4 || u.wfmt == 5
  let fr := match t.tiles[x.flink - 1]? with | some y => y.frows | none => 0
  x.resv == 0 && x.curve != 3 && cfmtOk x.cfmt && decide (1 ≤ x.mv) && decide (1 ≤ x.nv) && decide (1 ≤ x.kv) && decide (1 ≤ x.mb)
    && decide (x.mb ≤ 512) && decide (x.ord1 < 6) && decide (x.ord2 < 6) && (x.curve == 0 || x.ord2 == 0 || x.ord2 == 4)
    && x.a.ofs % 16 == 0 && x.b.ofs % 16 == 0 && x.c.ofs % 16 == 0 && x.astr % 16 == 0 && x.bstr % 16 == 0 && x.cstr % 16 == 0
    && x.ascl.ofs % 2 == 0 && x.bscl.ofs % 2 == 0 && decide (x.a.ofs < coreMemBytes) && decide (x.b.ofs < coreMemBytes)
    && decide (x.c.ofs < coreMemBytes) && decide (x.ascl.ofs < coreMemBytes) && decide (x.bscl.ofs < coreMemBytes)
    && !x.c.tr && (!x.a.tr || (u.ifmt != 5 && x.astr / 16 % 2 == 1)) && (!x.b.tr || (!four && x.bstr / 16 % 2 == 1))
    && (!u.g4 || x.kt1 % 2 == 0) && decide (x.steps u ≤ 16777215) && usersOk t d x
    && (!x.a.cast || (x.bstride 0 0 == 0 && x.bstride 1 0 == 0 && x.bstride 2 0 == 0))
    && (!x.b.cast || (x.bstride 0 1 == 0 && x.bstride 1 1 == 0 && x.bstride 2 1 == 0))
    && (!x.c.cast || (x.bstride 0 2 == 0 && x.bstride 1 2 == 0 && x.bstride 2 2 == 0))
    && (!x.aen || (x.runsA u fr).all fun r => !r.beyond t.limit) && (!x.wen || (x.runsB u).all fun r => !r.beyond t.limit)
    && (!x.cen || (x.runsC u).all fun r => !r.beyond t.limit)
    && (!x.cen || (x.runsC u).all fun c => (!x.aen || (x.runsA u fr).all fun r => !t.meets r c) && (!x.wen || (x.runsB u).all fun r => !t.meets r c))
    && (if x.fprod then x.cen && !x.c.cast && x.bstride 0 2 == 0 && x.bstride 1 2 == 0 && x.bstride 2 2 == 0 && decide (x.mb ≤ x.frows)
        && decide (1 ≤ x.frows) else x.frows == 0)
    && (if x.fcons then
          match t.tiles[x.flink - 1]? with
          | none => false
          | some p =>
            let up := t.tuse (x.flink - 1)
            decide (1 ≤ x.flink) && p.fprod && decide (x.mb ≤ p.frows) && x.aen && !x.a.cast && !x.a.tr && x.bstride 0 0 == 0
              && x.bstride 1 0 == 0 && x.bstride 2 0 == 0 && x.a.ofs == p.c.ofs && x.astr == p.cstr && (!u.hasS || u.ifmt == p.cfmt) && p.cfmt != 9
              && x.kv == p.nv && x.mv == p.mv && x.bc == p.bc && (x.ord1 == 0 || x.ord1 == 2) && (x.ord2 == 0 || x.ord2 == 2)
              && x.curve == 0 && (t.tiles.filter fun y => y.fcons && y.flink == x.flink).length == 1 && decide (up.nw ≤ 32)
        else x.flink == 0)

/-- The capacity rule (R164): true when the accumulators suffice. It holds where a STREAM writes accumulator rows, so in a
gang at the northmost members (R169). -/
def tileFits (t : Sect) (d : Nat) (x : TileD) : Bool :=
  let u := t.tuse d
  !((t.users d).any fun i => i.op == 2 && i.dest != 2) || (decide (u.arow + x.live u * u.alen ≤ 512) && !(decide (u.alen < x.mb) && (decide (1 < x.live u) || decide (1 < x.ktt u))))

/-- Bytes of `n` elements of a format in core memory, scale words of G4 included (R184). -/
def opBytes (f n : Nat) : Nat := if f = 5 then cdiv n 2 + 2 * cdiv n 64 else cdiv (n * elemBits f) 8

/-- The format rules of an operand for N elements (R184). -/
def fmtCount (f n : Nat) : Bool := (f != 4 || n % 2 == 0) && (f != 5 || n % 64 == 0)

/-- Element bytes times two, so that 0.5 is 1 (R190, R192). -/
def half2 (f : Nat) : Nat := elemBits f / 4

/-- A source or destination format valid for its kind (R183, R184). -/
def kindFmt (k f : Nat) : Bool :=
  if k = 0 then f == 0 else if k = 1 then decide (1 ≤ f) && decide (f ≤ 9)
  else if k = 2 ∨ k = 3 ∨ k = 4 then f == 8 || f == 9 else decide (1 ≤ f) && decide (f ≤ 9) && f != 5

/-- An address field with its reserved bits zero (R183). -/
def kindAddr (k a : Nat) : Bool :=
  if k = 0 then a == 0 else if k = 1 then decide (a ≤ 0x5FFF) else if k = 2 ∨ k = 3 ∨ k = 4 then decide (a < 512) else decide (a < 16)

/-- True when a stage selects Y (R185, R200). -/
def Stage.usesY (s : Stage) : Bool :=
  (s.type == 1 && (bits s.opt 1 0 == 1 || bits s.opt 3 2 == 1)) || (s.type == 2 && bits s.opt 4 3 == 1)
    || (s.type == 4 && bit s.opt 3) || s.type == 6

/-- A stage word whose unused bits are zero and whose codes exist (R185). -/
def Stage.ok (s : Stage) : Bool :=
  s.resv == 0 &&
  match s.type with
  | 1 => decide (s.opt < 16) && bits s.opt 1 0 != 3 && (bits s.opt 3 2 == 2 || s.param == 0)
      && (bits s.opt 1 0 == 0 || bits s.opt 3 2 == 3 || s.imm == 0)
  | 2 =>
    let op := bits s.opt 2 0
    decide (op < 6) && decide (s.opt < 16) && (op == 5 || s.param == 0)
      && (if op = 2 ∨ op = 3 then s.opt == op && s.imm == 0 else bits s.opt 4 3 == 0 || s.imm == 0)
  | 3 => decide (s.opt < 16) && s.param == 0 && s.imm == 0
  | 4 => decide (s.opt < 32) && s.param == 0 && (!bit s.opt 3 || s.imm == 0)
  | 5 => s.opt == 0 && s.param == 0 && s.imm == 0
  | 6 => s.opt == 0 && s.param == 0
  | 7 => decide (s.opt < 8) && s.imm == 0 && (if bit s.opt 2 then s.param == 0 else decide (s.param ≤ 4096))
  | 8 => (s.opt == 1 || s.opt == 2 || s.opt == 6 || s.opt == 7 || s.opt == 8) && s.param == 0 && s.imm == 0
  | 9 => s.opt == 0 && decide (1 ≤ s.param) && decide (s.param ≤ 255) && s.imm == 0
  | _ => false

/-- Segment length of a REDUCE with SEGMODE = 0 (R185). -/
def Stage.segLen (s : Stage) : Nat := if s.param = 0 then 4096 else s.param

/-- True for a variable program (R201). -/
def VecP.variable (p : VecP) : Bool :=
  p.stages.any fun s => s.type == 5 || s.type == 6 || (s.type == 7 && bit s.opt 2)

/-- Stages after the first of a type. -/
def VecP.after (p : VecP) (t : Nat) : List Stage := (p.stages.dropWhile fun s => s.type != t).drop 1

/-- Stages before the first of a type. -/
def VecP.before (p : VecP) (t : Nat) : List Stage := p.stages.takeWhile fun s => s.type != t

/-- Output elements of N elements when every element is kept (R197). -/
def VecP.outMax (p : VecP) (n : Nat) : Nat :=
  match p.stage? 7 with
  | some s => if bit s.opt 2 then n else cdiv n s.segLen
  | none => n

/-- Y elements that a run over N elements reaches (R188): N is the count of segments where only stages after REDUCE select Y. -/
def VecP.yMax (p : VecP) (n : Nat) : Nat :=
  let n := if (p.after 7).any (fun s => s.usesY) && !((p.before 7).any fun s => s.usesY) then p.outMax n else n
  let m := cdiv n (max 1 p.ydiv)
  if p.ylen = 0 then m else min p.ylen m

/-- The rules of R184 and R202 that a count must meet: at load for a fixed N, at the start for one taken (R190). -/
def VecP.countOk (t : Sect) (p : VecP) (n : Nat) : Bool :=
  fmtCount p.xf n && fmtCount p.yf n && fmtCount p.df n
    && (!(p.xk == 2 || p.xk == 3) || decide (p.xadr + cdiv n 16 ≤ 512)) && (p.xk != 4 || decide (p.xadr + cdiv n 32 ≤ 512))
    && (match p.stage? 9 with | some s => n % (t.tuse (s.param - 1)).nw == 0 | none => true)

/-- A vector program that the load accepts (R181-R208). -/
def vecOk (t : Sect) (core : Nat) (p : VecP) : Bool :=
  let drain := p.stage? 9
  let n := if p.nselEn then 4096 else p.count
  let td := match drain with | some s => t.tiles[s.param - 1]? | none => none
  let writesC := match td with | some x => x.cen | none => false
  p.clean && decide (1 ≤ p.nstg) && decide (p.nstg ≤ 5) && decide (p.rmode < 6) && p.stages.all Stage.ok
    && noDup (p.stages.map (·.type)) && (p.stages.drop 1).all (fun s => s.type != 9)
    && (p.xk == 0 || p.xk == 1 || p.xk == 2 || p.xk == 3 || p.xk == 4 || p.xk == 6) && (p.yk == 0 || p.yk == 1 || p.yk == 6)
    && (p.dk == 0 || p.dk == 1 || p.dk == 7) && kindFmt p.xk p.xf && kindFmt p.yk p.yf && kindFmt p.dk p.df
    && kindAddr p.xk p.xadr && kindAddr p.yk p.yadr && kindAddr p.dk p.dadr && decide (p.ylen ≤ 4096) && decide (p.ydiv ≤ 4096)
    && (p.yk != 6 || (p.ylen == 0 && decide (p.ydiv ≤ 1))) && (p.yk != 0 || p.stages.all fun s => !s.usesY)
    && (p.yk != 6 || (p.after 7).all fun s => !s.usesY)
    && !(p.nselEn && p.unit && p.xk == 0 && drain.isNone)
    && (p.nselEn || p.countOk t p.count)
    && (p.xk != 1 || decide (p.xadr * 16 + opBytes p.xf n ≤ coreMemBytes))
    && (p.yk != 1 || decide (p.yadr * 16 + opBytes p.yf (p.yMax n) ≤ coreMemBytes))
    && (p.dk != 1 || decide (p.dadr * 16 + opBytes p.df (p.outMax n) ≤ coreMemBytes))
    && (!p.variable || (
      (p.stages.filter fun s => s.type == 5 || s.type == 6 || s.type == 7).length == 1
      && (p.stage? 5 == none || (p.after 5).all fun s => !s.usesY)
      && (p.stage? 6 == none || ((p.before 6).all (fun s => !s.usesY) && p.yk != 0 && (p.xk == 1 || p.xk == 6)))
      && p.df != 5 && !writesC
      && (p.dk != 7 || ((t.routeWords p.dadr).any (fun w => (RWord.read w).tgt != 0) && (t.routeWords p.dadr).all fun w => (RWord.read w).tgt == 0 ||
          ((RWord.read w).tgt == 1 && (RWord.read w).core == core
            && t.strs.any fun a => a.op == 1 && a.dchan == (RWord.read w).dchan)))))
    && (match drain with
        | none => true
        | some _ =>
          match td with
          | none => false
          | some x => (x.cen || !x.fprod) && p.xk == 0 && p.xf == 0
              && (!x.cen || (p.dk == 0 && p.stages.all fun s => s.type != 7 && s.type != 5 && s.type != 6)))

/-- A mask that holds V holds nothing else (R219). -/
def maskOk (m : Nat) : Bool := !bit m 1 || m % 16 == 2

/-- The pieces of entry `e` of a DMA, as 16-byte piece numbers from its base (R226). -/
def DmaA.pieces (a : DmaA) (e : Nat) : List Nat :=
  ((List.range 4).filterMap fun i =>
    let pos := 64 * e + 16 * i
    if pos < a.nrow * a.rowb then some ((a.base.ofs + pos / a.rowb * a.stride + pos % a.rowb) / 16) else none)

/-- Pieces in distinct sub-banks of each bank (R217). -/
def distinctSub (ps : List Nat) : Bool := noDup (ps.map fun p => (p / 1024, p % 16))

/-- Entries of a DMA (R226). -/
def DmaA.entries (a : DmaA) : Nat := cdiv (a.nrow * a.rowb) 64

/-- A DMAIN or DMAOUT that the load accepts (R225, R226, R501). -/
def DmaA.ok (t : Sect) (out : Bool) (a : DmaA) : Bool :=
  decide (1 ≤ a.nrow) && a.rowb % 16 == 0 && decide (16 ≤ a.rowb) && decide (a.rowb ≤ 16384) && a.stride % 16 == 0
    && decide (a.entries ≤ 65535) && a.base.resv == 0 && !a.base.tr
    && (if a.acc then
          out && !a.fdone && a.rowb % 64 == 0 && a.stride % 64 == 0 && decide (a.base.ofs < 512) && !a.base.cast && a.base.buf == 0
            && decide (a.base.ofs + ((a.nrow - 1) * a.stride + a.rowb) / 64 ≤ 512)
        else
          a.arr == 0 && a.base.ofs % 16 == 0 && (!a.fdone || a.base.cast)
            && (!a.base.cast || (t.bufdef? a.base.buf).isSome)
            && decide (a.base.ofs + (a.nrow - 1) * a.stride + a.rowb ≤ t.limit a.base.space)
            && (List.range a.entries).all fun e => distinctSub (a.pieces e))

/-- Banks of a buffer's halves. -/
def BufA.banks (b : BufA) : List Nat := (List.range b.nbank).flatMap fun i => [b.bank0 + i, b.bank1 + i]

/-- The bank map after the configuration actions of a section in list order (R223), with each buffer's compute half as BUFDEF sets it (R219, R233). -/
def Sect.bankMap (t : Sect) : List Nat :=
  t.mems.foldl (fun m a => match a with
    | .bankmap ms => ms
    | .bufdef b => (List.range b.nbank).foldl (fun m i =>
        let c0 := if b.cur = 0 then b.bank0 else b.bank1
        let f0 := if b.cur = 0 then b.bank1 else b.bank0
        putAt (putAt m (c0 + i) b.cmask) (f0 + i) b.fmask) m
    | _ => m) defaultMap

/-- All buffers of a section. -/
def Sect.bufdefs (t : Sect) : List BufA := t.mems.filterMap fun m => match m with | .bufdef b => some b | _ => none

/-- Banks of the rotation area. -/
def RotD.banks (r : RotD) : List Nat := (List.range r.rnb).map fun i => r.rbank + i

/-- True when a region has a rotation ring in the order RDIR (R237). -/
def ringOk (r : Rect) (rdir : Nat) : Bool :=
  !r.spans && ((r.files == 1 && r.ranks == 1) || (decide (2 ≤ r.files) && decide (2 ≤ r.ranks)
    && (if rdir = 0 then r.ranks % 2 == 0 else r.files % 2 == 0)))

/-- A memory action that the load accepts (R219-R239). -/
def memOk (t : Sect) (r : Rect) (m : MemA) : Bool :=
  match m with
  | .bankmap ms => ms.all maskOk
  | .bufdef b =>
    let rb := match t.rotdef? with | some x => x.banks | none => []
    decide (1 ≤ b.nbank) && decide (b.nbank ≤ 12) && decide (b.bank0 + b.nbank ≤ 24) && decide (b.bank1 + b.nbank ≤ 24)
      && noDup b.banks && b.banks.all (fun x => !rb.contains x) && maskOk b.cmask && maskOk b.fmask && b.cmask != 0 && b.fmask != 0
      && !bit t.finit b.flag
      && (t.bufdefs.filter fun c => c.buf != b.buf).all fun c => c.flag != b.flag && b.banks.all fun x => !c.banks.contains x
  | .rotdef x => decide (1 ≤ x.rnb) && decide (x.rbank + x.rnb ≤ 24) && decide (1 ≤ x.tsz) && decide (x.tsz ≤ 32)
      && decide (1 ≤ x.nslot) && decide (x.nslot * x.tsz * 64 ≤ x.rnb * 0x4000) && ringOk r x.rdir
      && x.banks.all fun b => nth 0 t.bankMap b == 8
  | .cursor _ _ b st => b.resv == 0 && !b.tr && b.ofs % 16 == 0 && st % 16 == 0 && (!b.cast || (t.bufdef? b.buf).isSome)
      && decide (b.ofs < t.limit b.space)
  | .castle bufs => (List.range 16).all fun b => !bit bufs b || (t.bufdef? b).isSome
  | .dmain a => a.ok t false
  | .dmaout a => a.ok t true
  | .smreq _ wr dch ad en st => (if wr then dch == 0 else decide (dch < 16)) && ad % 64 == 0 && decide (1 ≤ en) && st % 64 == 0 && decide (64 ≤ st)
  | .rotate s n _ => decide (1 ≤ n) && (match t.rotdef? with | some x => decide (s < x.nslot) | none => false)
  | .bad => false

/-- True for a configuration action (R223). -/
def MemA.config : MemA → Bool
  | .bankmap _ => true
  | .bufdef _ => true
  | .rotdef _ => true
  | _ => false

/-- A flag action that the load accepts (R261). -/
def FlagA.ok (v : PView) (a : FlagA) : Bool :=
  a.clean && (a.op == 1 || a.op == 2) && (if a.tgt = 3 then decide (a.flag < v.allot) else decide (a.flag < 64))
    && (if a.tgt = 1 then decide (a.route < 16) else a.route == 0) && (a.tgt != 2 || v.grants a.dfile a.drank)

/-- A route word that the load accepts on its own (R247, R248, R286, R325). -/
def routeOk (v : PView) (x : Nat) : Bool :=
  let w := RWord.read x
  bits x 31 20 == 0 && decide (w.tgt < 5) &&
  match w.tgt with
  | 0 => true
  | 1 => v.grants w.dfile w.drank
  | 2 => (stackOfEdge v.grade w.dfile w.drank).isSome && decide (w.dchan < 2)
  | 3 => (portAOfEdge w.dfile w.drank).isSome || ((portBOfEdge v.grade w.dfile w.drank).isSome && w.dchan == 0)
  | _ => isAttach w.dfile w.drank && coreActive v.grade w.dfile w.drank

/-- A queue word that the load accepts on its own (R246, R248). -/
def queueOk (x : Nat) : Bool :=
  let w := QWord.read x
  bits x 31 28 == 0 && decide (w.depth ≤ 256) && decide (w.skind < 6) && (w.skind != 0 || w.depth == 0)
    && (w.skind == 1 || w.sroute == 0)

/-- The queues that a section's elements name (R248). -/
def Sect.namedQueues (t : Sect) : List Nat :=
  (t.mems.filterMap fun m => match m with | .dmain a => some a.port | _ => none)
  ++ t.vecs.flatMap (fun p => (if p.xk = 6 then [p.xadr] else []) ++ (if p.yk = 6 then [p.yadr] else []))
  ++ t.strs.flatMap (fun a => if a.op = 1 then [a.dchan, a.tchan] else if a.op = 2 then [a.dchan] else [a.tchan])
  ++ (t.mats.filterMap fun i => if i.op = 1 ∧ i.wsrc = 2 then some i.chan else none)

/-- An action entry that the load accepts (R62, R63, R103, R223, R247). -/
def actOk (t : Sect) (a : List Nat) : Bool :=
  let i := nth 0 a
  decide (i 0 ≤ t.mats.length) && decide (i 1 ≤ t.mats.length) && decide (i 2 ≤ t.vecs.length) && decide (i 3 ≤ t.mems.length)
    && decide (i 4 ≤ t.rtes.length) && decide (i 5 ≤ t.flgs.length) && decide (i 6 ≤ t.strs.length) && i 4 != 1
    && (match t.mats[i 0 - 1]? with | some x => i 0 == 0 || !x.pair | none => true)
    && (match t.mats[i 1 - 1]? with | some x => i 1 == 0 || !x.pair || i 0 == 0 | none => true)
    && (match t.mems[i 3 - 1]? with | some x => i 3 == 0 || !x.config | none => true)

/-- A steering action that the load accepts (R86, R88): its operation, its slot, and the channels that the operation uses. -/
def SteerA.ok (nsteer : Nat) (a : SteerA) : Bool :=
  decide (1 ≤ a.op) && decide (a.op ≤ 3) && decide (a.slot < nsteer) && (a.op == 3 || decide (a.dchan < 16))
    && (a.op == 2 || decide (a.tchan < 16))

/-- The layout of a section's bytes (R62). -/
def sectLayout (bs : List Byte) : Bool :=
  let h := SectHdr.read bs
  decide (32 ≤ h.size) && decide (h.size ≤ bs.length) && decide (h.size ≤ 16384) && decide (1 ≤ h.nact) && decide (h.nact ≤ 1024)
    && decide (nth 0 h.ofs 8 ≤ h.size)

/-- The elements of a section, taken on their own (phase 6 of R82). -/
def sectOk (v : PView) (r : Rect) (core nsteer : Nat) (bs : List Byte) : Bool :=
  let h := SectHdr.read bs
  let t := Sect.read bs
  let o := nth 0 h.ofs
  sectLayout bs && t.acts.all (actOk t)
    && (t.mats.zip (items bs (o 1) 16 h.nmat)).all (fun x => x.1.ok x.2 h.ntile)
    && t.vecs.all (vecOk t core)
    && (items bs (o 3) 16 h.nmem).all MemA.clean && t.mems.all (memOk t r)
    && noDup (t.bufdefs.map (·.buf)) && decide ((t.mems.filter fun m => match m with | .bankmap _ => true | _ => false).length ≤ 1)
    && decide ((t.mems.filter fun m => match m with | .rotdef _ => true | _ => false).length ≤ 1)
    && t.flgs.all (FlagA.ok v) && t.strs.all (SteerA.ok nsteer)
    && (t.tiles.zip (List.range t.tiles.length)).all (fun x => tileOk t x.2 x.1)
    && (match t.rtes with
        | [] => true
        | e :: rest => e.all queueOk && decide ((e.map fun x => (QWord.read x).depth).sum ≤ 256) && rest.all fun w => w.all (routeOk v))
    && t.namedQueues.all fun q => (t.queueWord q).depth != 0

/-- The STREAMs of a section's action entry at a step that belong to a gang: (array field, instruction). -/
def Sect.gangAt (t : Sect) (step : Nat) : List (Nat × MatI) :=
  match t.acts[step]? with
  | none => []
  | some a => [0, 1].filterMap fun fi =>
    if nth 0 a fi = 0 then none
    else match t.mats[nth 0 a fi - 1]? with
      | some i => if i.op = 2 ∧ i.src ≠ 0 then some (fi, i) else none
      | none => none

/-- The gang rules of R129 and R169 at one step: `ss` are the cores with their sections. -/
def gangOk (ss : List (Nat × Sect)) (step : Nat) : Bool :=
  let ms := ss.flatMap fun x => (x.2.gangAt step).map fun y => (x.1, x.2, y.1, y.2)
  match ms with
  | [] => true
  | (c0, t0, _, i0) :: _ =>
    let fs := ms.map fun m => fileOf m.1
    let ks := ms.map fun m => rankOf m.1
    let fmin := fs.foldl min (fileOf c0)
    let fmax := fs.foldl max (fileOf c0)
    let kmin := ks.foldl min (rankOf c0)
    let kmax := ks.foldl max (rankOf c0)
    let r : Rect := ⟨fmin, kmin, fmax, kmax⟩
    let has := fun c => ms.any fun m => m.1 == c
    let d0 := t0.tiles[i0.tile - 1]?
    noDup (ms.map fun m => m.1) && decide (ms.length = r.files * r.ranks) && ms.all (fun m => dieOfCore m.1 == dieOfCore c0)
      && ms.all (fun m =>
        let (c, t, _, i) := m
        i.ifmt == i0.ifmt && i.wfmt == i0.wfmt && i.pair == i0.pair && i.swap == i0.swap && i.nrows == i0.nrows
          && i.khalf == i0.khalf && i.gpos == rankOf c - kmin
          && (if rankOf c = kmax then i.dest != 2 else true) && (if rankOf c = kmin then !i.hin else true)
          && (i.dest != 2 || (has (c + 64) && ms.any fun n => n.1 == c + 64 && n.2.2.2.hin))
          && (!i.hin || ms.any fun n => n.1 + 64 == c && n.2.2.2.dest == 2)
          && ((i.tile == 0) == (i0.tile == 0))
          && (i.tile == 0 || match t.tiles[i.tile - 1]?, d0 with
              | some d, some e =>
                let u := t.tuse (i.tile - 1)
                let u0 := t0.tuse (i0.tile - 1)
                d.mv == e.mv && d.mb == e.mb && d.mtt == e.mtt && d.ntt u == e.ntt u0 && d.ktt u == e.ktt u0 && d.mt1 == e.mt1
                  && d.nt1 == e.nt1 && d.kt1 == e.kt1 && d.ord1 == e.ord1 && d.ord2 == e.ord2 && d.curve == e.curve && d.bc == e.bc
                  && d.kfirst == e.kfirst && (if i.src = 2 then d.aen else !d.aen) && (!d.cen || rankOf c == kmax)
              | _, _ => false))
      && (List.range r.ranks).all fun dk => (ms.filter fun m => rankOf m.1 == kmin + dk && m.2.2.2.src == 2).length == 1

/-- The ROTATEs of a section's action entry at a step. -/
def Sect.rotAt (t : Sect) (step : Nat) : Option (Nat × Nat × Nat) :=
  match t.acts[step]? with
  | none => none
  | some a => if nth 0 a 3 = 0 then none else match t.mems[nth 0 a 3 - 1]? with
    | some (.rotate s n m) => some (s, n, m)
    | _ => none

/-- The rotation rules over a region (R238, R239). -/
def rotOk (ss : List (Nat × Sect)) (steps : Nat) : Bool :=
  match ss with
  | [] => true
  | (_, t0) :: _ =>
    (match t0.rotdef? with
      | none => ss.all fun x => x.2.rotdef?.isNone
      | some d => ss.all fun x => match x.2.rotdef? with
        | some e => e.tsz == d.tsz && e.nslot == d.nslot && e.rdir == d.rdir
        | none => false)
    && (List.range steps).all fun s => ss.all fun x => x.2.rotAt s == t0.rotAt s

/-- The routes of a core against the queue tables of the same region (R248). -/
def routesMatch (ss : List (Nat × Sect)) (x : Nat × Sect) : Bool :=
  (List.range 16).all fun r => (x.2.routeWords r).all fun wd =>
    let w := RWord.read wd
    w.tgt != 1 || (match ss.find? fun y => y.1 == w.core with
      | none => true
      | some y =>
        let q := y.2.queueWord w.dchan
        q.skind == 1 && coreId q.sfile q.srank == x.1 && q.sroute == r)

/-- The peers of a gated slot of kind 0 lie in the grants, and an input slot names a queue with a DEPTH (R79, R248). -/
def gateMatch (v : PView) (r : Rect) (ss : List (Nat × Sect)) (g : GateD) : Bool :=
  match ss.find? fun x => x.1 == coreId (r.f0 + g.file) (r.k0 + g.rank) with
  | none => true
  | some x =>
    if 4 < g.kind then true
    else if g.out then g.kind != 0 || (x.2.routeWords g.chan).all fun wd =>
      (RWord.read wd).tgt != 1 || v.grants (RWord.read wd).dfile (RWord.read wd).drank
    else
      let q := x.2.queueWord g.chan
      q.depth != 0 && (g.kind != 0 || q.skind != 1 || v.grants q.sfile q.srank)

/-- The format checks of phase 6 over all sections of a region (R62, R86): every core has exactly one section. -/
def sectionsOk (v : PView) (r : Rect) (tab : Tables) (sects : List (Nat × List Byte)) : Bool :=
  let ss := sects.map fun x => (x.1, Sect.read x.2)
  let steps := (ss.map fun x => x.2.acts.length).foldl max 0
  noDup (sects.map (·.1)) && decide (sects.length = r.files * r.ranks) && sects.all (fun x => r.hasCore x.1)
    && sects.all (fun x => sectOk v r x.1 tab.steer.length x.2)
    && ss.all (routesMatch ss) && tab.gates.all (gateMatch v r ss) && (List.range steps).all (gangOk ss) && rotOk ss steps

/-- The capacity check of phase 6 (R164). -/
def sectionsFit (sects : List (Nat × List Byte)) : Bool :=
  sects.all fun x =>
    let t := Sect.read x.2
    (t.tiles.zip (List.range t.tiles.length)).all fun y => tileFits t y.2 y.1

/-- The residue check of a core at a load (R85, R256): an entry that waits in the output store keeps its place where the new word of
its route is the word that it was written under. -/
def residueOk (c : Core) (t : Sect) : Bool :=
  (List.range 16).all (fun i =>
    let q := c.queue i
    let w := t.queueWord i
    q.occ + q.cred == 0 || (w.skind == q.w.skind && w.sfile == q.w.sfile && w.srank == q.w.srank && w.sroute == q.w.sroute
      && decide (q.occ + q.cred ≤ w.depth)))
  && c.out.all fun o => match o.cargo with
    | .entry _ => (RWord.read (t.route0 o.route)).tgt != 0 && (RWord.read (t.route0 o.route)).dst == o.dst
    | _ => true

end Sys2Proof
end

