-- ==== Sys2Proof/Machine/Tempo.lean ====
section
/-!
DEFINITION. One executed tempo of one core: the start-of-cycle view that its units read (R111), the accesses they make to
banks and ports (R217-R221, R228), what they take from queues (R254), and what leaves the core.
-/

namespace Sys2Proof

/-- An upset that reaches a value in a tempo: a wrong bit pattern added to a column's sum (R134). -/
structure Adder where
  core : Nat
  arr : Nat
  col : Nat
  delta : W32
deriving DecidableEq, Repr

/-- One access: engine (0 F, 1 V, 2 D, 3 R, 4 accumulator read port), whether it writes, its 16-byte pieces. -/
structure Acc where
  eng : Nat
  write : Bool
  pieces : List Nat
deriving DecidableEq, Repr

/-- The context of a core's tempo. Units read `core0` and `mem0`, the state at the start of the cycle, and change `core`
and `mem`. -/
structure TC where
  grade : Grade
  id : Nat
  pc : Nat
  lc : List Nat
  tau : Nat
  core0 : Core
  mem0 : Memory
  core : Core
  mem : Memory
  accs : List Acc
  deqs : List Nat
  /-- first failure: order of R63, code -/
  fail : Option (Nat × Nat)
  /-- route writes: order of R194, route, what is sent -/
  outs : List (Nat × Nat × Cargo)
  /-- hand-off values sent north (R132), by the tempo that their STREAM is in next -/
  north : List (Nat × List W32)
  /-- the row driven on the rank line, by the tempo that its STREAM is in next (R130) -/
  line : List (Nat × RowIn)
  /-- units sent to the successor in the rotation ring (R240) -/
  ring : List RIn
  /-- events to raise: code and two arguments -/
  events : List (Nat × Nat × Nat)
  /-- chip flag and core flag operations of this tempo: target core (none: chip flag), flag, operation -/
  ops : List (Option Nat × Nat × FlagOp)
  /-- the steered channels of the region (R87-R93) -/
  steer : List SteerCh
  /-- queues into which a unit of the core placed an entry: TOKGEN, DELIVER -/
  placed : List Nat
  /-- the route set that an RTE action loads at the end of the tempo (R247) -/
  rte : Option Nat
  now : Nat
  upsets : List Adder
  /-- first addresses of accumulator rows read and written in this tempo (R468) -/
  areads : List Nat
  awrites : List Nat
  /-- free values used so far -/
  free : Nat
  /-- cursors that a CURSOR of this tempo sets: array, weight cursor (R224) -/
  curs : List (Nat × Bool)
  /-- banks in which two reads, or two writes, met in this tempo, and those barred for that: write, bank (R221) -/
  clash : List (Bool × Nat)
  banned : List (Bool × Nat)
deriving DecidableEq, Repr

/-- Fails the job; of several failures of a tempo the first in the order of R63 stands. -/
def TC.raise (x : TC) (ord code : Nat) : TC :=
  match x.fail with
  | none => { x with fail := some (ord, code) }
  | some (o, _) => if ord < o then { x with fail := some (ord, code) } else x

/-- First failure into CORE_MEMERR (R221, R243). -/
def TC.memErr (x : TC) (ord eng bank code : Nat) : TC :=
  let x := x.raise ord code
  if x.core.memerr.valid then x else { x with core := { x.core with memerr := ⟨true, eng, bank, x.tau, code, x.pc⟩ } }

/-- The engine that owns a bank with mask `m` in tempo τ (R220). -/
def slotOwner (m tau : Nat) : Option Nat :=
  (([0, 1, 2, 3].map fun i => (tau + i) % 4).find? fun e => bit m e)

/-- First byte in core memory of the half of a buffer that holds role `fill` (R234). -/
def Core.halfBase (c : Core) (b : Nat) (fill : Bool) : Option Nat :=
  match c.buf b with
  | none => none
  | some x => some ((if (x.cur == 0) != fill then x.d.bank0 else x.d.bank1) * 0x4000)

/-- The byte in core memory of an offset in a space, the buffers as they stand at the start of the tempo (R234). -/
def TC.resolve (x : TC) (space ofs : Nat) : Nat :=
  if space = 0 then ofs else match x.core0.halfBase (space - 1) false with | some b => b + ofs | none => coreMemBytes + ofs

/-- A byte of core memory at the start of the tempo. -/
def TC.byte0 (x : TC) (a : Nat) : Byte := x.mem0.byte (windowBase x.id + a)

/-- Bytes of core memory at the start of the tempo. -/
def TC.bytes0 (x : TC) (a n : Nat) : List Byte := x.mem0.read (windowBase x.id + a) n

/-- The pieces of a run of bytes. -/
def runPieces (a n : Nat) : List Nat := if n = 0 then [] else (List.range ((a + n - 1) / 16 - a / 16 + 1)).map fun i => a / 16 + i

/-- One transfer of an engine port: one access in each bank that it touches (R217), checked under R221. Answers whether
it takes place. A bank in which two accesses meet is noted, and barred when the tempo is taken again (`TC.units`). -/
def TC.access (x : TC) (ord eng : Nat) (write : Bool) (pieces : List Nat) : TC × Bool :=
  let ps := pieces.eraseDups
  let bs := (ps.map (· / 1024)).eraseDups
  match bs.find? fun b => slotOwner (nth 0 x.core0.banks b) x.tau != some eng with
  | some b => (x.memErr ord eng b Code.bankSlot, false)
  | none =>
    let met := fun b => x.accs.any fun a => decide (a.eng < 4) && a.write == write && a.pieces.any (fun p => p / 1024 == b)
    match bs.find? fun b => met b || x.banned.contains (write, b) || !distinctSub (ps.filter fun p => p / 1024 == b) with
    | some b =>
      let x := if met b then { x with clash := (write, b) :: x.clash } else x
      (x.memErr ord eng b Code.bankConflict, false)
    | none => ({ x with accs := ⟨eng, write, ps⟩ :: x.accs }, true)

/-- One read access of array `a`'s accumulator port (R228). -/
def TC.accPort (x : TC) (ord a : Nat) : TC × Bool :=
  if x.accs.any fun y => y.eng == 4 && y.pieces == [a] then (x.memErr ord 4 a Code.bankConflict, false)
  else ({ x with accs := ⟨4, false, [a]⟩ :: x.accs }, true)

/-- Takes `n` entries of a queue as they stand at the start of the tempo; `under` is the code where they are too few (R254). -/
def TC.deq (x : TC) (ord q n under : Nat) : TC × Option (List Entry) :=
  if x.deqs.contains q then (x.raise ord Code.queueConflict, none)
  else
    let es := (x.core0.queue q).ents.take n
    if es.length < n then (x.raise ord under, none)
    else
      let cq := x.core.queue q
      ({ x with deqs := q :: x.deqs, core := x.core.setQueue q { cq with ents := cq.ents.drop n } }, some es)

/-- A write to a route: placed in the output store by class (R194, R251), or ROUTE_NULL (R255). -/
def TC.send (x : TC) (ord cls r : Nat) (c : Cargo) : TC :=
  if (RWord.read (x.core0.route r).word).tgt = 0 then x.raise ord Code.routeNull
  else { x with outs := x.outs ++ [(cls, r, c)] }

/-- Writes bytes of core memory at the end of the tempo. -/
def TC.wr (x : TC) (a : Nat) (bs : List Byte) : TC := { x with mem := x.mem.write (windowBase x.id + a) bs }

/-- Writes one 4-bit half of a byte of core memory; the other half keeps its value (R184, R191). -/
def TC.wrHalf (x : TC) (a h v : Nat) : TC :=
  let b := leNat (x.mem.read (windowBase x.id + a) 1)
  x.wr a [BitVec.ofNat 8 (if h = 0 then b / 16 * 16 + v % 16 else b % 16 + v % 16 * 16)]

/-- An accumulator row at the start of the tempo: 16 words. -/
def TC.accRow0 (x : TC) (a r : Nat) : List W32 :=
  (List.range 16).map fun j => BitVec.ofNat 32 (leNat (x.mem0.read (accAddr x.id a r + 4 * j) 4))

/-- Notes a read of an accumulator row. -/
def TC.noteRead (x : TC) (a r : Nat) : TC := { x with areads := accAddr x.id a r :: x.areads }

/-- Notes a write of an accumulator row. -/
def TC.noteWrite (x : TC) (a r : Nat) : TC := { x with awrites := accAddr x.id a r :: x.awrites }

/-- The next free value. -/
def TC.fresh (x : TC) : TC × Nat := ({ x with free := x.free + 1 }, Config.freeNat x.free)

/-- The first tile descriptor's use in the section, for a tempo. -/
def TC.tile (x : TC) (d : Nat) : Option (TileD × TUse) :=
  match x.core.sect.tiles[d]? with
  | some t => some (t, x.core.sect.tuse d)
  | none => none

/-- Arrays that an operation covers: 0, 1, or both for the pair (2). -/
def arrsOf (a : Nat) : List Nat := if a = 2 then [0, 1] else [a]

/-- True when two operations share an array. -/
def arrMeet (a b : Nat) : Bool := a == 2 || b == 2 || a == b

end Sys2Proof
end

