-- ==== Sys2Proof/Machine/Arrays.lean ====
section
/-!
DEFINITION. The matrix arrays of one core in one tempo: WLOAD, STREAM, ACLR, gang, check column (R99-R136), with tile
descriptors (R158-R172) and the feed (R222-R224).
-/

namespace Sys2Proof

/-- Two's complement 8-bit code of a 4-bit one (R117). -/
def widen4 (x : Nat) : Nat := wrapW 8 (sint 4 x)

/-- The order of R63 of an array's failures: the pair goes by A1. -/
def arrOrd (a : Nat) : Nat := if a = 0 then 0 else 1

/-- The matrix feed reads runs given by space (R222): one transfer. -/
def TC.feed (x : TC) (ord : Nat) (runs : List Run) : TC × Bool :=
  x.access ord 0 false (runs.flatMap fun r => runPieces (x.resolve r.space r.ofs) r.len)

/-- The element code at a place of a row plan, `e` bytes wide. -/
def TC.elem0 (x : TC) (e space ofs nib : Nat) : Nat :=
  let a := x.resolve space ofs
  match nib with
  | 0 => leNat (x.bytes0 a (max 1 e))
  | 1 => (x.byte0 a).toNat % 16
  | _ => (x.byte0 a).toNat / 16

/-- The codes of a row of `n` elements, zero where the plan reads nothing (R167). -/
def TC.planned (x : TC) (e n : Nat) (p : RowPlan) : List Nat :=
  (List.range n).map fun j => match p.elems.find? fun y => y.1 == j with
    | some (_, sp, o, nib) => x.elem0 e sp o nib
    | none => 0

/-- Little-endian words of `e` bytes. -/
def splitWords (e n : Nat) (bs : List Byte) : List Nat := (List.range n).map fun j => fld bs (e * j) e

/-- A row of `n` codes in bytes as a cursor, a rotation tile or a channel holds it: G4 inputs two codes a byte. -/
def rowCodes (f n : Nat) (bs : List Byte) : List Nat :=
  if f = 5 then (List.range n).map fun j => (nth 0 bs (j / 2)).toNat / 16 ^ (j % 2) % 16
  else splitWords (max 1 (fmtBytes f)) n bs

/-- The operand as the array takes it in: an FP32 operand splits into h and l (R126). -/
def enterCode (f x : Nat) : Nat := if f = 8 then (tpSplit (BitVec.ofNat 32 x)).toNat else x

/-- The bytes that a cursor row reads, from its place in core memory; none past the end (R224). -/
def TC.cursorRow (x : TC) (c : Cursor) (len : Nat) : Option Nat :=
  let lim := if c.cast then (match x.core0.buf c.buf with | some b => b.d.nbank * 0x4000 | none => 0) else coreMemBytes
  if lim < c.ofs + len then none else some (x.resolve (if c.cast then c.buf + 1 else 0) c.ofs)

/-- A row read advances its cursor by STRIDE (R224), unless a CURSOR of the same tempo sets it (log entry 118). -/
def TC.advance (x : TC) (a : Nat) (weight : Bool) : TC :=
  if x.curs.contains (a, weight) then x
  else { x with core := x.core.modArr a fun s =>
    if weight then { s with wcur := { s.wcur with ofs := s.wcur.ofs + s.wcur.stride } }
    else { s with icur := { s.icur with ofs := s.icur.ofs + s.icur.stride } } }

/-- The value of a weight cell code in a format: the h part of TPF32 (R126). -/
def wVal (f x : Nat) : FV := if f = 8 then fmtBF16.decode (x / 65536) else elemFV f x

/-- The value of a G4 weight cell: K row parity `b`, column scale word, sub-block of the half (R118, R119). -/
def g4W (scale khalf i b x : Nat) : FV := g4FV scale (2 * khalf + (2 * i + b) / 16) (x / 16 ^ b % 16)

/-- Forms the check column values of a complete tile of an array (R133): per cell row, at G4 per K row. -/
def Tile.withChecks (t : Tile) : Tile :=
  if t.fmt = 5 then
    { t with chkF := ((List.range 32).map fun k => exactSum ((List.range 16).map fun j =>
        g4W (nth 0 t.scales j) t.khalf (k / 2) (k % 2) (nth 0 (nth [] t.rows (k / 2)) j))) }
  else if t.fmt = 3 ∨ t.fmt = 4 then { t with chkI := (t.rows.map fun r => (r.map (sint 8)).sum) }
  else
    { t with
      chkF := (t.rows.map fun r => exactSum (r.map (wVal t.fmt)))
      chkL := (if t.fmt = 8 then t.rows.map fun r => exactSum (r.map fun x => fmtBF16.decode (x % 65536)) else []) }

/-- Scale words of a G4 tile that the manual gives no place for, a cursor's or a channel's: free values (log entry 25). -/
def TC.freeScales (x : TC) (n : Nat) : TC × List Nat :=
  ({ x with free := x.free + n }, (List.range n).map fun j => Config.freeNat (x.free + j) % 65536)

/-- A list filled with zeros to `n` (R167). -/
def padNat (n : Nat) (l : List Nat) : List Nat := l ++ List.replicate (n - l.length) 0

/-- The tile of the weight operand buffers that a rotation WLOAD loads: the oldest that has not been loaded, taken in its
first tempo (R241). -/
def Core.rotTile (c : Core) (w : WRun) : Option WTile :=
  if w.t = 0 then c.wbuf.find? fun t => !t.loaded else c.wbuf.find? fun t => w.hold == [t.id]

/-- A weight row of a WLOAD that names a descriptor (R154, R155, R160, R222). -/
def TC.weightRowD (x : TC) (w : WRun) (st : TStep) (cols e : Nat) : TC × Option (List Nat × List Nat) :=
  let i := w.t
  let ord := arrOrd w.arr
  match x.tile (w.i.tile - 1) with
  | none => (x, none)
  | some (d, u) =>
    let p0 := d.planB u st i 0 (if d.b.tr then 16 else cols)
    let p1 := if d.b.tr ∧ w.arr = 2 then d.planB u st i 16 16 else ⟨[], []⟩
    let scl := if u.g4 ∧ i = 0 then d.sclB u st else none
    let (x, ok0) := if p0.runs.isEmpty && scl.isNone then (x, true) else x.feed ord (p0.runs ++ scl.toList)
    let (x, ok1) := if p1.runs.isEmpty then (x, true) else x.feed ord p1.runs
    if ok0 && ok1 then
      let row := x.planned e cols ⟨[], p0.elems ++ p1.elems⟩
      let k := st.kt * u.kw + (if u.g4 then 2 * i else i)
      let row := if (u.g4 || u.wfmt == 4) && decide (d.kv ≤ k + 1) then row.map (· % 16) else row
      let sc := match scl with
        | some r => splitWords 2 (r.len / 2) (x.bytes0 (x.resolve r.space r.ofs) r.len)
        | none => []
      (x, some (row, padNat cols sc))
    else (x, none)

/-- A weight row from the weight cursor (R224). -/
def TC.weightRowC (x : TC) (w : WRun) (cols e : Nat) : TC × Option (List Nat × List Nat) :=
  let ord := arrOrd w.arr
  let a := if w.arr = 1 then 1 else 0
  match x.cursorRow (x.core0.arr a).wcur (cols * e) with
  | none => (x.raise ord Code.tileBounds, none)
  | some p =>
    let (x, ok) := x.access ord 0 false (runPieces p (cols * e))
    if ok then
      let x := x.advance a true
      let (x, sc) := if w.i.wfmt = 5 ∧ w.t = 0 then x.freeScales cols else (x, [])
      (x, some (splitWords e cols (x.bytes0 p (cols * e)), sc))
    else (x, none)

/-- A weight row from the rotation input (R241): the tile layouts of R238. An INT4 tile holds one element a byte (log entry 26). -/
def TC.weightRowR (x : TC) (w : WRun) (cols e : Nat) : TC × Option (List Nat × List Nat) :=
  let ord := arrOrd w.arr
  match x.core.rotTile w with
  | none => (x.raise ord Code.rotationTiming, none)
  | some t =>
    let bs := t.units.flatten
    let o := (if w.i.wfmt = 5 then 2 * cols else 0) + w.t * cols * e
    if bs.length < o + cols * e then (x.raise ord Code.rotationTiming, none)
    else (x, some (splitWords e cols (bs.drop o), if w.i.wfmt = 5 ∧ w.t = 0 then splitWords 2 cols bs else []))

/-- A weight row from an input channel (R254). -/
def TC.weightRowQ (x : TC) (w : WRun) (cols e : Nat) : TC × Option (List Nat × List Nat) :=
  match x.deq (arrOrd w.arr) w.i.chan (cdiv (cols * e) 64) Code.queueUnderrun with
  | (x, none) => (x, none)
  | (x, some es) =>
    let (x, sc) := if w.i.wfmt = 5 ∧ w.t = 0 then x.freeScales cols else (x, [])
    (x, some (splitWords e cols es.flatten, sc))

/-- What a WLOAD's tempo delivers: the codes of the row's 16 or 32 columns as stored, and the scale words of a G4 tile at
tempo 0. The second nibble of an INT4 byte row is held for the next tempo (R224, R254). -/
def TC.weightRow (x : TC) (w : WRun) : TC × Option (List Nat × List Nat) :=
  let cols := if w.arr = 2 then 32 else 16
  let e := if w.i.wfmt = 4 ∨ w.i.wfmt = 5 then 1 else fmtBytes w.i.wfmt
  if w.i.wfmt == 4 && w.t % 2 == 1 && w.i.wsrc != 1 then (x, some (w.hold.map (· / 16), []))
  else match w.i.wsrc with
  | 0 => match w.step with
    | some (_, st) => x.weightRowD w st cols e
    | none => x.weightRowC w cols e
  | 1 => x.weightRowR w cols e
  | _ => x.weightRowQ w cols e

/-- One tempo of a WLOAD (R101, R113, R117, R126): row `t` into the shadow registers; at tempo 15 the tile is complete. -/
def TC.wloadTempo (x : TC) (w : WRun) : TC :=
  match x.weightRow w with
  | (x, none) => x
  | (x, some (row, sc)) =>
    let codes := row.map fun c => if w.i.wfmt = 4 then widen4 c else enterCode w.i.wfmt c
    let put := fun (a : Nat) (s : ArrayS) =>
      let o := if w.arr = 2 then 16 * a else 0
      let t0 := if w.t = 0 then { Tile.empty with scales := (sc.drop o).take 16 } else s.shadow
      let t1 := { t0 with rows := t0.rows ++ [(codes.drop o).take 16] }
      let t2 := if w.t = 15 then
          Tile.withChecks { t1 with fmt := w.i.wfmt, khalf := (match w.step with | some (_, st) => if w.i.wfmt = 5 then st.kt % 2 else 0 | none => w.i.khalf),
                                    desc := w.step.map fun y => (w.i.tile - 1, y.1) }
        else t1
      { s with shadow := t2 }
    let core := (arrsOf w.arr).foldl (fun c a => c.modArr a (put a)) x.core
    let tile := if w.i.wsrc = 1 then ((x.core.rotTile w).map (·.id)).toList else []
    let core := if w.t = 15 then { core with wbuf := core.wbuf.map fun t => if tile.contains t.id then { t with loaded := true } else t } else core
    let core := if w.t = 15 then core
      else { core with wloads := core.wloads ++ [{ w with t := w.t + 1, hold := if w.i.wsrc = 1 then tile else row }] }
    { x with core := core }

/-- The input row of a STREAM in its operand-read tempo (R109, R112, R153, R167, R172, R222, R224). -/
def TC.inputRow (x : TC) (r : SRun) (n : Nat) : TC × Option RowIn :=
  let ord := arrOrd r.arr
  let f := r.i.ifmt
  let kw := if f = 5 then 32 else 16
  match r.step with
  | some (st, ofsv) =>
    match x.tile (r.i.tile - 1) with
    | none => (x, none)
    | some (d, u) =>
      let m := st.mt * d.mb + n
      let prodRow := (x.core0.dpos (r.i.tile - 1)).sbat * (d.batches * d.mv) + d.batchOf st * d.mv + m
      let fr := match x.tile (d.flink - 1) with | some (p, _) => p.frows | none => 1
      if d.fcons && decide (m < d.mv) && decide ((x.core0.dpos (d.flink - 1)).prod ≤ prodRow) then (x.raise ord Code.fuseUnderrun, none)
      else
        let p := d.planA u fr st ofsv n
        let scl := if u.g4 then d.sclA st ofsv n else none
        let (x, ok) := if p.runs.isEmpty && scl.isNone then (x, true) else x.feed ord (p.runs ++ scl.toList)
        if ok then
          let sc := match scl with
            | some s => leNat (x.bytes0 (x.resolve s.space s.ofs) 2)
            | none => 0
          (x, some ⟨(x.planned (fmtBytes f) kw p).map (enterCode f), sc⟩)
        else (x, none)
  | none =>
    let a := if r.arr = 1 then 1 else 0
    let len := rowBytes f kw
    match x.cursorRow (x.core0.arr a).icur len with
    | none => (x.raise ord Code.tileBounds, none)
    | some p =>
      let (x, ok) := x.access ord 0 false (runPieces p len)
      if ok then
        let x := x.advance a false
        let (x, sc) := if f = 5 then x.freeScales 1 else (x, [0])
        (x, some ⟨(rowCodes f kw (x.bytes0 p len)).map (enterCode f), nth 0 sc 0⟩)
      else (x, none)

/-- The terms of one column of one row pass (R120, R121, R127): products, or sub-block terms at G4. `pass` is 0 for the one
pass of a format, 1 to 3 for TPF32. -/
def passTerms (t : Tile) (f pass : Nat) (x : RowIn) (j : Nat) : List FV :=
  if f = 5 then
    [0, 1].map fun b =>
      let ws := nth 0 t.scales j
      if x.scale % 256 = 255 ∨ ws % 256 = 255 then FV.nan
      else
        let s : Int := ((List.range 16).map fun q =>
          let k := 16 * b + q
          let xc := nth 0 x.xs k
          let wc := nth 0 (nth [] t.rows (k / 2)) j / 16 ^ (k % 2) % 16
          let v : Int := (xc % 8) * (wc % 8)
          if bit xc 3 != bit wc 3 then -v else v).sum
        let q := 2 * t.khalf + b
        let mu := fun sc => bits sc (9 + 2 * q) (8 + 2 * q)
        .fin (decide (s < 0)) s.natAbs ((x.scale % 256 : Nat) + (ws % 256 : Nat) - 258 - (mu x.scale : Nat) - (mu ws : Nat))
  else
    (List.range 16).map fun i =>
      let xc := nth 0 x.xs i
      let wc := nth 0 (nth [] t.rows i) j
      if f = 8 then
        let h := fun c => fmtBF16.decode (c / 65536)
        let l := fun c => fmtBF16.decode (c % 65536)
        let finite := fun v => match v with | FV.fin .. => true | _ => false
        if pass = 1 then (if finite (h wc) then mulFV (l xc) (h wc) else .fin false 0 0)
        else if pass = 2 then (if finite (h xc) then mulFV (h xc) (l wc) else .fin false 0 0)
        else mulFV (h xc) (h wc)
      else mulFV (elemFV f xc) (elemFV t.fmt wc)

/-- True for a value that is not an infinity or a NaN. -/
def FV.finite : FV → Bool
  | .fin .. => true
  | _ => false

/-- The exact sum of finite values, as a numerator over 2^e, with `e` at most every exponent. -/
def exactOver (e : Int) (ts : List FV) : Int :=
  ts.foldl (fun (acc : Int) t => match t with | .fin n m e0 => acc + fixAt n m e0 e | _ => acc) 0

/-- The comparison of a row pass with the check column (R134): true for a mismatch. `sums` are the columns' products and
upsets, `xs` the row's values against the check values. -/
def checkMiss (cols : List (List FV)) (chk : List FV) (mags : List FV) : Bool :=
  let ts := cols.flatten
  if (ts ++ chk ++ mags).any fun v => !v.finite then false
  else
    let e := (ts ++ chk).foldl (fun (acc : Int) v => match v with | .fin _ _ e => min acc e | _ => acc) 0
    let diff := (exactOver e chk - exactOver e ts).natAbs
    match maxLead mags with
    | none => diff != 0
    | some em => if em - 12 < e then decide (0 < diff) && decide (1 < diff * 2 ^ (e - (em - 12)).toNat) else decide (2 ^ (em - 12 - e).toNat < diff)

/-- The products of a row pass as the check sees them: per K element, x times W of column j, and x times c. -/
def checkProducts (t : Tile) (f pass : Nat) (x : RowIn) : List FV × List FV :=
  if f = 5 then
    let kx := fun k => g4FV x.scale (2 * t.khalf + k / 16) (nth 0 x.xs k)
    ((List.range 32).flatMap fun k => (List.range 16).map fun j =>
        mulFV (kx k) (g4W (nth 0 t.scales j) t.khalf (k / 2) (k % 2) (nth 0 (nth [] t.rows (k / 2)) j)),
      (List.range 32).map fun k => mulFV (kx k) (fv (nth 0#32 t.chkF k)))
  else
    let part := fun (c : Nat) (lo : Bool) => if f = 8 then fmtBF16.decode (if lo then c % 65536 else c / 65536) else elemFV f c
    let xv := fun i => part (nth 0 x.xs i) (pass == 1)
    ((List.range 16).flatMap fun i => (List.range 16).map fun j => mulFV (xv i) (if f = 8 then part (nth 0 (nth [] t.rows i) j) (pass == 2) else elemFV t.fmt (nth 0 (nth [] t.rows i) j)),
      (List.range 16).map fun i => mulFV (xv i) (fv (nth 0#32 (if pass = 2 then t.chkL else t.chkF) i)))

/-- What one row pass of one array yields: 16 words, the sticky bits, and the pass whose check failed. -/
structure RowOut where
  ys : List W32
  nan : List Bool
  inf : List Bool
  iovf : List Bool
  miss : Option Nat
deriving DecidableEq, Repr

/-- The passes of a row (R127): one, or three at TPF32. -/
def passes (f : Nat) : List Nat := if f = 8 then [1, 2, 3] else [0]

/-- One floating row of an array (R121, R122, R127): `acc` is a further term of the first pass, and `hin` of the last, which
meets the sender's result 3 cycles after its tree output (R131, R132; log entry 116). An infinity that any pass makes of finite
terms counts for INF (R139). -/
def rowFloat (t : Tile) (f : Nat) (x : RowIn) (acc hin : Option (List W32)) (ups : List (Nat × W32)) (chk : Bool) : RowOut :=
  let up := fun j => (ups.filter fun u => u.1 == j).map fun u => fv u.2
  let col := fun j =>
    (passes f).foldl (fun (st : W32 × Bool) p =>
      let final := p = 0 ∨ p = 3
      let ts := passTerms t f p x j ++ (if final then up j else [])
        ++ (if p ≤ 1 then acc.toList.map (fun r => fv (nth 0#32 r j)) else [fv st.1])
        ++ (if final then hin.toList.map (fun r => fv (nth 0#32 r j)) else [])
      let y := treeSum ts
      (y, st.2 || isInf y && ts.all FV.finite)) (0#32, false)
  let outs := (List.range 16).map col
  let miss := if chk then (passes f).find? fun p =>
      checkMiss ((List.range 16).map fun j => passTerms t f p x j ++ (if p = 0 ∨ p = 3 then up j else [])) (checkProducts t f p x).2 (checkProducts t f p x).1
    else none
  { ys := outs.map (·.1), nan := outs.map fun o => isNan o.1, inf := outs.map (·.2),
    iovf := outs.map fun _ => false, miss := miss }

/-- One INT8 row of an array (R123). -/
def rowInt (t : Tile) (x : RowIn) (acc hin : Option (List W32)) (ups : List (Nat × W32)) (chk : Bool) : RowOut :=
  let up := fun j => ((ups.filter fun u => u.1 == j).map fun u => u.2.toInt).sum
  let prod := fun j => ((List.range 16).map fun i => sint 8 (nth 0 x.xs i) * sint 8 (nth 0 (nth [] t.rows i) j)).sum + up j
  let ext := fun j => ((acc.toList ++ hin.toList).map fun r => (nth 0#32 r j).toInt).sum
  let sums := (List.range 16).map fun j => prod j + ext j
  let tc := ((List.range 16).map fun i => sint 8 (nth 0 x.xs i) * nth 0 t.chkI i).sum
  { ys := sums.map fun s => BitVec.ofInt 32 s, nan := sums.map fun _ => false, inf := sums.map fun _ => false,
    iovf := sums.map fun s => decide (s < -2147483648) || decide (2147483647 < s),
    miss := if chk && tc != ((List.range 16).map prod).sum then some 0 else none }

/-- One row of an array in the format of its tile. -/
def rowPass (t : Tile) (f : Nat) (x : RowIn) (acc hin : Option (List W32)) (ups : List (Nat × W32)) (chk : Bool) : RowOut :=
  if f = 3 then rowInt t x acc hin ups chk else rowFloat t f x acc hin ups chk

/-- The masked columns of array `a` at a step (R168): column j is valid. -/
def TileD.colValid (d : TileD) (u : TUse) (s : TStep) (a j : Nat) : Bool := decide (s.nt * u.nw + (if u.pair then 16 * a else 0) + j < d.nv)

/-- Row `n` of a STREAM is formed, and written or forwarded (R109, R112, R121, R132, R164-R168). -/
def TC.streamWrite (x : TC) (r : SRun) (n : Nat) (row : RowIn) (hin : Option (List (List W32))) : TC × SRun :=
  let ord := arrOrd r.arr
  let dd := match r.step with | some _ => x.tile (r.i.tile - 1) | none => none
  let win := n % r.i.alen
  let arow := r.i.arow + (match r.step with | some (st, _) => st.slot * r.i.alen | none => 0) + win
  let firstK := match dd, r.step with | some (d, _), some (st, _) => d.kfirst && st.kt == 0 | _, _ => false
  let isFirst := match r.step with | some (st, _) => st.kt == 0 | none => false
  let isLast := match dd, r.step with | some (d, u), some (st, _) => st.kt + 1 == d.ktt u | _, _ => false
  let rowOk := match dd, r.step with | some (d, _), some (st, _) => decide (st.mt * d.mb + n < d.mv) | _, _ => true
  let cen := match dd with | some (d, _) => d.cen | none => false
  let key := 2 * ((match r.step with | some (st, _) => st.slot * r.i.alen | none => 0) + win) + (if r.arr = 1 then 1 else 0)
  let tile := match dd, r.step with
    | some (d, u), some (st, _) => (match findAt (fun s => decide (s = st)) (d.drainTiles u) with | some (i, _) => i | none => 0)
    | _, _ => 0
  let pos := x.core.dpos (r.i.tile - 1)
  let writes := r.i.dest != 2 && rowOk
  if writes && cen && isFirst && pos.fin.get 0 key != 0 then (x.raise ord Code.accumUndrained, { r with written := n + 1 })
  else
    let one := fun (st : TC × List (Nat × Option ChkFail)) (a : Nat) =>
      let (x, ck) := st
      let t := nth Tile.empty r.tiles (if r.arr = 2 then a else 0)
      let cur : List W32 := (List.range 16).map fun j => BitVec.ofNat 32 (leNat (x.mem0.read (accAddr x.id a arow + 4 * j) 4))
      let acc := if r.i.dest = 0 ∧ !firstK then some cur else none
      let h := hin.map fun l => nth [] l (if r.arr = 2 then a else 0)
      let ups := (x.upsets.filter fun u => u.core == x.id && u.arr == a).map fun u => (u.col, u.delta)
      let chk := r.i.chk && x.core.hasCheck a
      let o := rowPass t r.i.ifmt row acc h ups chk
      let valid := fun j => match dd, r.step with | some (d, u), some (s, _) => d.colValid u s a j | _, _ => true
      let cols := (List.range 16).filter fun j => r.i.dest == 2 || (rowOk && valid j)
      let x := if r.i.dest = 2 then x
        else cols.foldl (fun x j => if rowOk then { x with mem := x.mem.write (accAddr x.id a arow + 4 * j) (natLe 4 (nth 0#32 o.ys j).toNat) } else x) x
      let any := fun (l : List Bool) => cols.any fun j => nth false l j
      let core := x.core.modArr a fun s =>
        { s with nan := s.nan || any o.nan, inf := s.inf || any o.inf, iovf := s.iovf || any o.iovf, rows := (s.rows + 1) % 4294967296 }
      let x := { x with core := core, north := if r.i.dest = 2 then x.north ++ [(r.t + 1, o.ys)] else x.north }
      let x := if acc.isSome then x.noteRead a arow else x
      let x := if writes then x.noteWrite a arow else x
      (x, if chk then ck ++ [(r.t + 2, o.miss.map fun p => ⟨a, arow, p, r.i.stag, r.pc⟩)] else ck)
    let (x, ck) := (arrsOf r.arr).foldl one (x, [])
    let x := if writes && isLast && r.step.isSome then
        { x with core := x.core.modPos (r.i.tile - 1) fun p => { p with fin := SMap.set 0 p.fin key (tile * 1024 + n + 1) } } else x
    (x, { r with written := n + 1, chks := r.chks ++ ck })

/-- A STREAM that fails before it starts performs no tile step: SPOS is again the one it had taken (R158, R160, R162). -/
def TC.streamFail (x : TC) (r : SRun) (code : Nat) : TC × Option SRun :=
  let x := x.raise (arrOrd r.arr) code
  (if r.step.isSome then { x with core := x.core.modPos (r.i.tile - 1) fun p => { p with spos := r.written } } else x, none)

/-- The start of a STREAM at its first tempo, delayed by 3 x GPOS in a gang: R104, the swap, R108, R162, R136. `rest` are the
STREAMs issued later whose tempo is not yet done: one of them that started before keeps the array (R104). -/
def TC.streamStart (x : TC) (r : SRun) (rest : List SRun) : TC × Option SRun :=
  let busy := (x.core.streams.any fun y => arrMeet y.arr r.arr && y.occupies (y.t - 1))
      || (rest.any fun y => arrMeet y.arr r.arr && !y.tiles.isEmpty && y.occupies y.t)
      || (x.core0.aclrs.any fun y => arrMeet y.arr r.arr) || (r.i.swap && x.core.wloads.any fun y => arrMeet y.arr r.arr)
  if busy then x.streamFail r Code.arrayOverlap
  else
    let core := if r.i.swap then (arrsOf r.arr).foldl (fun c a => c.modArr a fun s => { s with loaded := s.shadow, shadow := s.loaded }) x.core else x.core
    let tiles := (arrsOf r.arr).map fun a => (core.arr a).loaded
    let kh := match r.step with | some (st, _) => if r.i.wfmt = 5 then st.kt % 2 else 0 | none => r.i.khalf
    let x := { x with core := core }
    if tiles.any fun t => t.fmt != r.i.wfmt || (r.i.wfmt == 5 && t.khalf != kh) then x.streamFail r Code.arrayFormat
    else
      let want := match r.step, x.tile (r.i.tile - 1) with
        | some (_, _), some (d, u) => some (r.i.tile - 1, d.wstepOf u r.written)
        | _, _ => none
      if want.isSome && tiles.any fun t => t.desc != want then x.streamFail r Code.tileSequence
      else
        let core := if r.i.chk then (arrsOf r.arr).foldl (fun c a => if c.hasCheck a then c else c.modArr a fun s => { s with chkna := true }) x.core else x.core
        ({ x with core := core }, some { r with tiles := tiles, written := 0 })

/-- A mismatch as CORE_CHKLOG holds it (R141). -/
def ChkFail.log (f : ChkFail) : ChkLog := ⟨true, f.arr, f.row, f.pass, f.stag, f.pc⟩

/-- CORE_CHKLOG (R141). -/
def ChkLog.reg (x : ChkLog) : Nat :=
  b2n x.valid + 2 * x.arr + 2 ^ 2 * x.row + 2 ^ 11 * x.pass + 2 ^ 16 * x.stag + 2 ^ 32 * x.pc

/-- A comparison of this tempo (R135): the event gives array, row, pass and STAG in ARG0 as CORE_CHKLOG does (log entry 117). -/
def TC.checkDone (x : TC) (ord : Nat) (f : ChkFail) : TC :=
  let c := x.core.modArr f.arr fun s => { s with chkmm := true }
  let c := if c.chklog.valid then c else { c with chklog := f.log }
  ({ x with core := c, events := x.events ++ [(Code.checkColumnMismatch, f.log.reg, 0)] }).raise ord Code.checkColumnMismatch

/-- Rows that a consumer releases at the end of a step (R172), and the end of a pass over the descriptor. -/
def TC.releaseStep (x : TC) (r : SRun) : TC :=
  match r.step, x.tile (r.i.tile - 1) with
  | some (st, _), some (d, u) =>
    let last := d.batchOf st + 1 == d.batches && st.mt + 1 == d.mtt && st.nt + 1 == d.ntt u && st.kt + 1 == d.ktt u
    let total := d.batches * d.mv
    let q := r.i.tile - 1
    let x := if last then { x with core := x.core.modPos q fun p => { p with sbat := p.sbat + 1 } } else x
    if d.fcons then
      let steps := d.tileSteps u
      let i := (findAt (fun s => decide (s = st)) steps).map (·.1)
      let rel := match i with
        | some i => match steps[i + 1]? with
          | some s => d.batchOf s * d.mv + min (s.mt * d.mb) d.mv
          | none => 0
        | none => 0
      { x with core := x.core.modPos (d.flink - 1) fun p => { p with cons := max p.cons ((x.core.dpos q).sbat * total + rel) } }
    else x
  | _, _ => x

/-- One tempo of a STREAM: delayed start, operand read, row pass and write, comparisons (R112, R130-R132). The run ends with
the tempo of its last row and its last comparison (R114), also where rows that a failed job never sent did not come; it is
dropped when it fails. -/
def TC.streamTempo (x : TC) (r : SRun) (rest : List SRun) : TC :=
  let ord := arrOrd r.arr
  let c := cycPerRow r.i.ifmt
  let dly := 3 * r.i.gpos
  let sw := b2n r.i.swap
  let (x, r?) := if r.t = dly then x.streamStart r rest else (x, some r)
  match r? with
  | none => x
  | some r =>
    let readN := if sw ≤ r.t ∧ (r.t - sw) % c = 0 ∧ (r.t - sw) / c < r.i.nrows ∧ r.i.src ≠ 1 then some ((r.t - sw) / c) else none
    let (x, r?) := match readN with
      | none => (x, some r)
      | some n => match x.inputRow r n with
        | (x, none) => (x, none)
        | (x, some row) => ({ x with line := if r.i.src = 2 then x.line ++ [(r.t + 1, row)] else x.line }, some { r with rows := r.rows ++ [row] })
    match r? with
    | none => x
    | some r =>
      let w0 := dly + sw + c + 5
      let (x, r) := if w0 ≤ r.t ∧ (r.t - w0) % c = 0 ∧ (r.t - w0) / c < r.i.nrows then
          (match r.rows with
            | [] => (x, r)
            | row :: rest =>
              let h := if r.i.hin then some (r.hin.take (arrsOf r.arr).length) else none
              x.streamWrite { r with rows := rest, hin := if r.i.hin then r.hin.drop (arrsOf r.arr).length else r.hin } ((r.t - w0) / c) row h)
        else (x, r)
      let due := r.chks.filter fun k => k.1 == r.t
      let x := due.foldl (fun x k => match k.2 with | some f => x.checkDone ord f | none => x) x
      let r := { r with chks := r.chks.filter fun k => k.1 != r.t, t := r.t + 1 }
      -- release of ring rows at the end of the last tempo of the step, in which its last row has been read (R172)
      let x := if r.t = sw + r.i.nrows * c then x.releaseStep r else x
      if w0 + (r.i.nrows - 1) * c < r.t ∧ r.chks.isEmpty then x
      else { x with core := { x.core with streams := x.core.streams ++ [r] } }

/-- Starts the matrix instruction of an array field (R63, R104, R158, R160): `arr` is 0, 1, or 2 for the pair. -/
def TC.startMat (x : TC) (field idx : Nat) : TC :=
  match x.core.sect.mats[idx - 1]? with
  | none => x
  | some i =>
    let arr := if i.pair then 2 else field
    let ord := arrOrd arr
    let d := i.tile - 1
    match i.op with
    | 1 =>
      if x.core0.wloads.any fun w => arrMeet w.arr arr then x.raise ord Code.arrayOverlap
      else
        match (if i.tile = 0 then none else x.tile d) with
        | none => { x with core := { x.core with wloads := x.core.wloads ++ [⟨arr, i, 0, none, []⟩] } }
        | some (td, u) =>
          let ws := td.weightSteps u
          let p := x.core.dpos d
          let x := { x with core := x.core.modPos d fun p => { p with wpos := if p.wpos + 1 < ws.length then p.wpos + 1 else 0 } }
          { x with core := { x.core with wloads := x.core.wloads ++ [⟨arr, i, 0, ws[p.wpos]?.map fun s => (p.wpos, s), []⟩] } }
    | 2 =>
      match (if i.tile = 0 then none else x.tile d) with
      | none => { x with core := { x.core with streams := x.core.streams ++ [⟨arr, i, x.pc, 0, none, [], [], [], 0, []⟩] } }
      | some (td, u) =>
        let steps := td.tileSteps u
        let p := x.core.dpos d
        let ofsv := if td.ofEn then (if p.spos = 0 then nth 0 x.lc td.ofSel else p.ofsv) else 0
        if td.ofEn && !td.offsetFits u ofsv then ({ x with core := x.core.modPos d fun p => { p with ofsv := ofsv } }).raise ord Code.tileBounds
        else
          let x := { x with core := x.core.modPos d fun p =>
            { p with spos := if p.spos + 1 < steps.length then p.spos + 1 else 0, ofsv := ofsv } }
          -- the tile step taken is kept in `written` until the first tempo
          let r : SRun := ⟨arr, i, x.pc, 0, steps[p.spos]?.map fun s => (s, ofsv), [], [], [], p.spos, []⟩
          { x with core := { x.core with streams := x.core.streams ++ [r] } }
    | _ =>
      let busy := (x.core0.streams.any fun y => arrMeet y.arr arr && y.occupies y.t) || x.core0.aclrs.any fun y => arrMeet y.arr arr
      if busy then x.raise ord Code.arrayOverlap
      else { x with core := { x.core with aclrs := x.core.aclrs ++ [⟨arr, i.arow, i.alen⟩] } }

/-- One tempo of an ACLR: 16 rows (R110). -/
def TC.aclrTempo (x : TC) (r : ARun) : TC :=
  let n := min 16 r.left
  let mem := (arrsOf r.arr).foldl (fun m a => m.clear (accAddr x.id a r.row) (64 * n)) x.mem
  let x := (arrsOf r.arr).foldl (fun (x : TC) a => (List.range n).foldl (fun (x : TC) i => x.noteWrite a (r.row + i)) x) { x with mem := mem }
  if r.left = n then x else { x with core := { x.core with aclrs := x.core.aclrs ++ [{ r with row := r.row + n, left := r.left - n }] } }

/-- One tempo of the STREAMs in the order of their issue. -/
def TC.streamsTempo (x : TC) : List SRun → TC
  | [] => x
  | r :: rest => (x.streamTempo r rest).streamsTempo rest

/-- One tempo of the arrays: streams that reach their first tempo swap before a WLOAD of the tempo fills (R104). A STREAM's write to a row
that an ACLR clears in the tempo stands (log entry 138). -/
def TC.arraysTempo (x : TC) : TC :=
  let ss := x.core.streams
  let ws := x.core.wloads
  let as := x.core.aclrs
  -- runs that go on keep what the checks of this tempo look at
  let x := { x with core := { x.core with streams := [], aclrs := [], wloads := ws.filter fun w => decide (0 < w.t) } }
  let x := as.foldl TC.aclrTempo x
  let x := x.streamsTempo ss
  let x := { x with core := { x.core with wloads := [] } }
  ws.foldl TC.wloadTempo x

end Sys2Proof
end

