-- ==== Sys2Proof/Machine/Vector.lean ====
section
/-!
DEFINITION. The vector engine of one core in one tempo: sources, stages, reductions, compress and expand, the drain,
conversion and writes (R178-R210).
-/

namespace Sys2Proof

/-- An element in the chain (R178). -/
structure El where
  i : Nat
  v : W32
  p : Bool
  act : Bool
deriving DecidableEq, Repr

/-- Width in bytes per tempo of a kind (R183). -/
def kindWidth (k : Nat) : Nat := if k = 6 ∨ k = 7 then 64 else 256

/-- ⌈64 e / W⌉ of an operand; 1 for none (R192). -/
def opInterval (k f : Nat) : Nat := if k = 0 then 1 else max 1 (cdiv (32 * half2 f) (kindWidth k))

/-- The group interval of a run (R192): `c` is the CFMT of a drain that writes C. -/
def VecP.interval (p : VecP) (drain : Bool) (c : Option Nat) : Nat :=
  max (if drain then 1 else opInterval p.xk p.xf) (max (opInterval p.yk p.yf)
    (match c with | some f => opInterval 1 f | none => opInterval p.dk p.df))

/-- Latency of a stage (R185). -/
def Stage.latency (s : Stage) : Nat :=
  match s.type with
  | 1 => 4
  | 3 => 8
  | 5 => 3
  | 6 => 3
  | 7 => 7
  | 9 => 0
  | _ => 1

/-- Source latency of a kind (R183). -/
def srcLatency (k : Nat) : Nat := if k = 1 then 3 else if k = 6 then 1 else if k = 0 then 0 else 2

/-- The latency L of a run (R192). -/
def VecP.latency (p : VecP) (drain writesC : Bool) : Nat :=
  max (if drain then 2 else srcLatency p.xk) (srcLatency p.yk) + (p.stages.map Stage.latency).sum
    + (if writesC then 2 else if p.dk = 1 then 2 else if p.dk = 7 then 1 else 0)

/-- The Y index of an element (R188). -/
def VecP.yIndex (p : VecP) (i : Nat) : Nat :=
  let j := i / max p.ydiv 1
  if p.ylen = 0 then j else j % p.ylen

/-- Element `j` of a core memory operand at byte `a`, as FP32 (R180, R184); `n` is the operand's element count (G4 scales). -/
def TC.coreElem (x : TC) (f a n j : Nat) : W32 :=
  if f = 5 then
    let c := (x.byte0 (a + j / 2)).toNat / 16 ^ (j % 2) % 16
    toFP32 (g4FV (leNat (x.bytes0 (a + cdiv n 2 + 2 * (j / 64)) 2)) (j % 64 / 16) c)
  else if f = 4 then elemToFP32 4 ((x.byte0 (a + j / 2)).toNat / 16 ^ (j % 2) % 16)
  else elemToFP32 f (leNat (x.bytes0 (a + j * fmtBytes f) (fmtBytes f)))

/-- The pieces of elements of a core memory operand. -/
def elemPieces (f a n : Nat) (js : List Nat) : List Nat :=
  js.flatMap fun j =>
    if f = 5 then [(a + j / 2) / 16, (a + cdiv n 2 + 2 * (j / 64)) / 16]
    else if f = 4 then [(a + j / 2) / 16]
    else runPieces (a + j * fmtBytes f) (fmtBytes f)

/-- Element `j` of bytes taken from a channel. -/
def chanElem (f : Nat) (bs : List Byte) (j : Nat) : W32 :=
  if f = 4 then elemToFP32 4 ((nth 0 bs (j / 2)).toNat / 16 ^ (j % 2) % 16)
  else elemToFP32 f (fld bs (j * fmtBytes f) (fmtBytes f))

/-- Channel bytes for elements `lo` to `hi - 1`: entries are taken until the bytes held suffice (R195). Answers the
elements and the bytes left. -/
def TC.chanRead (x : TC) (q f lo hi : Nat) (held : List Byte) : TC × Option (List W32 × List Byte) :=
  let need := cdiv (hi * elemBits f) 8 - lo * elemBits f / 8
  let n := cdiv (need - held.length) 64
  let done := fun (bs : List Byte) => ((List.range (hi - lo)).map (chanElem f bs), bs.drop (hi * elemBits f / 8 - lo * elemBits f / 8))
  if n = 0 then (x, some (done held))
  else match x.deq 2 q n Code.vecUnderrun with
    | (x, none) => (x, none)
    | (x, some es) => (x, some (done (held ++ es.flatten)))

/-- Sticky bits of an operation from its inputs and its result (R210). -/
def opFlags (ins : List W32) (r : W32) : VFlags :=
  ⟨isNan r && ins.all (fun a => !isNan a), isInf r && ins.all isFinite, false, false⟩

/-- One stage on one active element (R185-R187, R189, R203): the new element and its sticky bits. ABS, NEG and SEL keep the
payload of a NaN, and every other stage, CMP too, passes the canonical NaN for one (R180; log entry 98). -/
def stageEl (p : VecP) (seed c : Nat) (s : Stage) (y : Nat → W32) (e : El) : El × VFlags :=
  match s.type with
  | 1 =>
    let a := match bits s.opt 1 0 with | 0 => s.imm | 1 => y e.i | _ => one32
    let b := match bits s.opt 3 2 with | 0 => 0#32 | 1 => y e.i | 2 => bf16To32 s.param | _ => s.imm
    let r := fma e.v a b
    ({ e with v := r }, opFlags [e.v, a, b] r)
  | 2 =>
    let o := if bits s.opt 4 3 = 1 then y e.i else s.imm
    match bits s.opt 2 0 with
    | 0 => ({ e with v := fmin e.v o }, opFlags [e.v, o] (fmin e.v o))
    | 1 => ({ e with v := fmax e.v o }, opFlags [e.v, o] (fmax e.v o))
    | 2 => ({ e with v := fabs e.v }, VFlags.zero)
    | 3 => ({ e with v := fneg e.v }, VFlags.zero)
    | 4 => ({ e with v := if e.p then e.v else o }, VFlags.zero)
    | _ =>
      let r := fmin (fmax e.v (bf16To32 s.param)) o
      ({ e with v := r }, opFlags [e.v, bf16To32 s.param, o] r)
  | 3 =>
    let r := vfunc (s.opt % 16) e.v
    ({ e with v := r }, opFlags [e.v] r)
  | 4 =>
    let o := if bit s.opt 3 then y e.i else s.imm
    let rel := match bits s.opt 2 0 with
      | 0 => feq e.v o
      | 1 => !feq e.v o
      | 2 => flt e.v o
      | 3 => flt e.v o || feq e.v o
      | 4 => flt o e.v
      | 5 => flt o e.v || feq e.v o
      | 6 => isNan e.v
      | _ => isNonzero e.v
    ({ e with v := canon32 e.v, p := if bit s.opt 4 then e.p && rel else rel }, VFlags.zero)
  | 8 =>
    let r := roundStage s.opt p.rmode p.sat (srBits seed c e.i) (canon32 e.v)
    ({ e with v := r.1 }, (opFlags [e.v] r.1).or ⟨false, false, r.2.ovf, r.2.inv⟩)
  | _ => (e, VFlags.zero)

/-- A stage over a list of elements; an inactive element passes unchanged (R191). -/
def stageAll (p : VecP) (seed c : Nat) (s : Stage) (y : Nat → W32) (es : List El) : List El × VFlags :=
  es.foldl (fun (acc : List El × VFlags) e =>
    if e.act then let r := stageEl p seed c s y e; (acc.1 ++ [r.1], acc.2.or r.2) else (acc.1 ++ [e], acc.2)) ([], VFlags.zero)

/-- combine of R197 with its sticky bits. -/
def combineFl (op : Nat) (a b : W32 × VFlags) : W32 × VFlags :=
  let r := if op = 2 then fmax a.1 b.1 else if op = 3 then fmin a.1 b.1 else fadd a.1 b.1
  (r, (a.2.or b.2).or (opFlags [a.1, b.1] r))

/-- A segment's piece added to the running value (R198). -/
def addPiece (op : Nat) (seg : Option W32) (es : List El) : Option W32 × VFlags :=
  let xs := (es.filter (·.act)).map fun e => if op = 1 then (fmul e.v e.v, opFlags [e.v, e.v] (fmul e.v e.v)) else (e.v, VFlags.zero)
  match xs with
  | [] => (seg, VFlags.zero)
  | _ =>
    let r := piece (combineFl op) (0#32, VFlags.zero) xs
    match seg with
    | none => (some r.1, r.2)
    | some s => let q := combineFl op (s, VFlags.zero) r; (some q.1, q.2)

/-- The result of a segment with no active element (R197). -/
def emptySeg (op : Nat) : W32 := if op = 2 then inf32 true else if op = 3 then inf32 false else 0#32

/-- The end of a segment (R197): its result is the next output element. -/
def closeSeg (op : Nat) (acc : VRun × List El × VFlags × List El) : VRun × List El × VFlags × List El :=
  let (r, outs, fl, cur) := acc
  let (v, f) := addPiece op r.seg cur
  ({ r with seg := none, segOpen := false, outN := r.outN + 1 }, outs ++ [⟨r.outN, canon32 (v.getD (emptySeg op)), true, true⟩], fl.or f, [])

/-- A run's REDUCE over the elements of one group: results of the segments that end, and the running state (R197, R198). A
segment of SEGMODE 0 ends with its last element, one of SEGMODE 1 where the next starts. -/
def reduceGroup (s : Stage) (r : VRun) (last : Bool) (es : List El) : VRun × List El × VFlags :=
  let op := bits s.opt 1 0
  let segm := bit s.opt 2
  let step := fun (acc : VRun × List El × VFlags × List El) (e : El) =>
    let (r, outs, fl, cur) := if segm && acc.1.segOpen && e.act && e.p && e.i != 0 then closeSeg op acc else acc
    let acc : VRun × List El × VFlags × List El := ({ r with segOpen := true }, outs, fl, cur ++ [e])
    if !segm && (e.i + 1) % s.segLen == 0 then closeSeg op acc else acc
  let acc := es.foldl step (r, [], VFlags.zero, [])
  if !acc.1.segOpen then (acc.1, acc.2.1, acc.2.2.1)
  else if last then
    let (r, outs, fl, _) := closeSeg op acc
    (r, outs, fl)
  else
    let (r, outs, fl, cur) := acc
    let (v, f) := addPiece op r.seg cur
    ({ r with seg := v }, outs, fl.or f)

/-- Bytes of codes, `f` their format, the bits that no element fills taken from free values (log entry 27). -/
def packBytes (f free : Nat) (cs : List (Option Nat)) : List Byte :=
  let get := fun i => match nth none cs i with | some c => c | none => Config.freeNat (free + i) % 2 ^ elemBits f
  if f = 4 then (List.range (cs.length / 2)).map fun i => BitVec.ofNat 8 (get (2 * i) % 16 + 16 * (get (2 * i + 1) % 16))
  else (List.range cs.length).flatMap fun i => natLe (fmtBytes f) (get i)

/-- Elements that fill a unit of `b` bytes. -/
def unitElems (f b : Nat) : Nat := b * 8 / elemBits f

/-- What a run writes with a group, due `due` (R193, R199, R202-R207): the elements in order, of which inactive ones are
not written. -/
def TC.destWrites (x : TC) (r : VRun) (last : Bool) (due : Nat) (es : List El) : TC × VRun :=
  let p := r.p
  let c := x.id + 4096
  let compress := (p.stage? 5).isSome
  let codes : List (Nat × Option Nat × Conv) := if p.df = 5 then [] else es.map fun e =>
    let cv := convert p.df p.rmode p.sat (srBits r.seed c e.i) e.v
    (e.i, if e.act then some cv.v else none, if e.act then cv else ⟨0, false, false⟩)
  let fl : VFlags := ⟨false, false, codes.any fun k => k.2.2.ovf, codes.any fun k => k.2.2.inv⟩
  let r := { r with fl := r.fl.or fl }
  if p.dk = 0 then (x, r)
  else if p.df = 5 then
    -- blocks of 64 output elements (R207); the values wait in `pack` as FP32 bits, inactive ones as zero
    let all := r.pack ++ es.map fun e => some (if e.act then e.v.toNat else 0)
    let blocks := (chunks 64 all).filter fun b => b.length == 64 || last
    let first := (r.outN - all.length) / 64
    let m := p.outMax r.n
    let enc := fun (g : Nat) (b : List (Option Nat)) =>
      g4Encode p.rmode ((List.range 64).map fun i => BitVec.ofNat 32 ((nth none b i).getD 0)) ((List.range 64).map fun i => srBits r.seed c (64 * g + i))
    let ix := blocks.zip ((List.range blocks.length).map (· + first))
    let ws := ix.flatMap fun y =>
      let k := enc y.2 y.1
      [(due, VWrite.mem (p.dadr * 16 + 32 * y.2) ((List.range 32).map fun i => BitVec.ofNat 8 (nth 0 k.codes (2 * i) + 16 * nth 0 k.codes (2 * i + 1)))),
        (due, VWrite.mem (p.dadr * 16 + cdiv m 2 + 2 * y.2) (natLe 2 k.scale))]
    (x, { r with pack := all.drop (64 * blocks.length), fl := r.fl.or ⟨false, false, ix.any fun y => (enc y.2 y.1).ovf, false⟩,
                 writes := r.writes ++ ws })
  else if p.dk = 1 ∧ !compress then
    let a := p.dadr * 16
    let ws := if p.df = 4 then codes.filterMap fun k => k.2.1.map fun v => (due, VWrite.half (a + k.1 / 2) (k.1 % 2) v)
      else codes.filterMap fun k => k.2.1.map fun v => (due, VWrite.mem (a + k.1 * fmtBytes p.df) (natLe (fmtBytes p.df) v))
    (x, { r with writes := r.writes ++ ws })
  else
    -- packed: 16-byte units in core memory, 64-byte entries on a route
    let ub := if p.dk = 1 then 16 else 64
    let ue := unitElems p.df ub
    let all := r.pack ++ codes.map fun k => k.2.1
    let nfull := all.length / ue
    let tail := all.drop (nfull * ue)
    let fillTail := last && !tail.isEmpty
    let units := (chunks ue (all.take (nfull * ue)))
      ++ (if fillTail then [tail ++ List.replicate (ue - tail.length) (if compress then some 0 else none)] else [])
    let x0 := x.free
    let x := { x with free := x.free + ue * units.length }
    let first := r.outN - r.pack.length - codes.length
    let mk := fun (u : List (Option Nat)) (k : Nat) =>
      let bs := packBytes p.df (x0 + ue * k) u
      if p.dk = 1 then (due, VWrite.mem (p.dadr * 16 + first * elemBits p.df / 8 + 16 * k) bs) else (due, VWrite.route p.dadr bs)
    (x, { r with pack := if fillTail then [] else tail,
                 writes := r.writes ++ (units.zip (List.range units.length)).map fun u => mk u.1 u.2 })

/-- The rows of a drain group (R166, R202): tile step, row of the tile, the array that holds it, and the batch iterations that
the drain had finished before the row. -/
def TC.drainRows (x : TC) (d : Nat) (n : Nat) : TC × Option (List (TStep × Nat × Nat × Nat)) :=
  match x.tile d with
  | none => (x, none)
  | some (td, u) =>
    let tiles := td.drainTiles u
    (List.range n).foldl (fun (acc : TC × Option (List (TStep × Nat × Nat × Nat))) _ =>
      match acc with
      | (x, none) => (x, none)
      | (x, some l) =>
        let p := x.core.dpos d
        match tiles[p.dpos]? with
        | none => (x, none)
        | some st =>
          let row := p.drow
          let k0 := 2 * (st.slot * u.alen + row % max 1 u.alen)
          let tag := p.dpos * 1024 + row + 1
          let a := if p.fin.get 0 (k0 + 1) == tag && p.fin.get 0 k0 != tag then 1 else 0
          let valid := decide (st.mt * td.mb + row < td.mv)
          if td.cen && valid && p.fin.get 0 (k0 + a) != tag then (x.raise 2 Code.tileSequence, none)
          else
            let lastRow := row + 1 == td.mb
            let lastTile := lastRow && p.dpos + 1 == tiles.length
            let p' := { p with fin := if p.fin.get 0 (k0 + a) = tag then SMap.set 0 p.fin (k0 + a) 0 else p.fin, drow := if lastRow then 0 else row + 1,
                               dpos := if lastTile then 0 else if lastRow then p.dpos + 1 else p.dpos,
                               dbat := if lastTile then p.dbat + 1 else p.dbat }
            ({ x with core := x.core.modPos d fun _ => p' }, some (l ++ [(st, row, a, p.dbat)]))) (x, some [])

/-- A drain group: the elements in order, masked ones inactive, with their place in C: offset in its space, run row, column
(R166, R168, R170, R202). -/
def TC.drainGroup (x : TC) (r : VRun) (d cnt : Nat) : TC × Option (List (El × Nat × Nat × Nat)) :=
  match x.tile d with
  | none => (x, none)
  | some (td, u) =>
    let ofsv := (x.core.dpos d).ofsv
    match x.drainRows d (cnt / u.nw) with
    | (x, none) => (x, none)
    | (x, some rows) =>
      let (x, ok0) := if u.pair || rows.any (fun y => y.2.2.1 == 0) then x.accPort 2 0 else (x, true)
      let (x, ok1) := if u.pair || rows.any (fun y => y.2.2.1 == 1) then x.accPort 2 1 else (x, true)
      if ok0 && ok1 then
        let els := rows.flatMap fun y =>
          let (st, row, a, dbat) := y
          let m := st.mt * td.mb + row
          let ar := u.arow + st.slot * u.alen + row % max 1 u.alen
          (List.range u.nw).map fun j =>
            let nn := st.nt * u.nw + j
            let w := nth 0#32 (x.accRow0 (if u.pair then j / 16 else a) ar) (j % 16)
            let v := if u.ifmt = 3 then elemToFP32 9 w.toNat else w
            let act := decide (m < td.mv) && decide (nn < td.nv)
            ((⟨0, if act then v else 0#32, act, act⟩ : El), td.addrC u st ofsv m nn, dbat * (td.batches * td.mv) + td.batchOf st * td.mv + m, nn)
        let x := rows.foldl (fun (x : TC) (y : TStep × Nat × Nat × Nat) =>
          let ar := u.arow + y.1.slot * u.alen + y.2.1 % max 1 u.alen
          if u.pair then (x.noteRead 0 ar).noteRead 1 ar else x.noteRead y.2.2.1 ar) x
        (x, some ((els.zip (List.range els.length)).map fun e => ({ e.1.1 with i := r.fetched + e.2 }, e.1.2)))
      else (x, none)

/-- The element list of a group before the stages: index, value, predicate, activity (R187, R191). -/
def TC.xGroup (x : TC) (r : VRun) (lo hi : Nat) : TC × Option (List El × VRun) :=
  let p := r.p
  let mk := fun (vs : List W32) => (vs.zip (List.range vs.length)).map fun v => (⟨lo + v.2, v.1, true, true⟩ : El)
  let js := (List.range (hi - lo)).map (· + lo)
  match p.xk with
  | 0 => (x, some (mk (js.map fun (i : Nat) => toFP32 (intFV (i : Int))), r))
  | 1 =>
    let a := p.xadr * 16
    let (x, ok) := x.access 2 1 false (elemPieces p.xf a r.n js)
    if ok then (x, some (mk (js.map (x.coreElem p.xf a r.n)), r)) else (x, none)
  | 6 =>
    match x.chanRead p.xadr p.xf lo hi r.xch with
    | (x, none) => (x, none)
    | (x, some (vs, rest)) => (x, some (mk vs, { r with xch := rest }))
  | k =>
    let (x, ok0) := if k = 3 then (x, true) else x.accPort 2 0
    let (x, ok1) := if k = 2 then (x, true) else x.accPort 2 1
    if ok0 && ok1 then
      let w := fun i => if k = 4 then nth 0#32 (x.accRow0 (i / 16 % 2) (p.xadr + i / 32)) (i % 16)
        else nth 0#32 (x.accRow0 (k - 2) (p.xadr + i / 16)) (i % 16)
      let x := js.foldl (fun (x : TC) i => if k = 4 then x.noteRead (i / 16 % 2) (p.xadr + i / 32) else x.noteRead (k - 2) (p.xadr + i / 16)) x
      (x, some (mk (js.map fun i => elemToFP32 p.xf (w i).toNat), r))
    else (x, none)

/-- The Y elements that a group reads: those of its element indices, and of the output indices `os` where a stage after REDUCE
pairs them (R188). -/
def TC.yGroup (x : TC) (r : VRun) (lo hi : Nat) (os : List Nat) : TC × Option ((Nat → W32) × VRun) :=
  let p := r.p
  match p.yk with
  | 0 => (x, some (fun _ => 0#32, r))
  | 1 =>
    let own := !((p.after 7).any fun s => s.usesY) || (p.before 7).any fun s => s.usesY
    let js := ((if own then (List.range (hi - lo)).map (· + lo) else []) ++ os).map p.yIndex
    let n := p.yMax r.n
    let (x, ok) := x.access 2 1 false (elemPieces p.yf (p.yadr * 16) n js)
    let x' := x
    if ok then (x, some (fun i => x'.coreElem p.yf (p.yadr * 16) n (p.yIndex i), r)) else (x, none)
  | _ =>
    match x.chanRead p.yadr p.yf lo hi r.ych with
    | (x, none) => (x, none)
    | (x, some (vs, rest)) => (x, some (fun i => nth 0#32 vs (i - lo), { r with ych := rest }))

/-- Fetches X groups until EXPAND has `need` elements, the stages before it applied (R200). -/
def TC.expandFetch (x : TC) (r : VRun) (pre : List Stage) : Nat → TC × Option VRun
  | 0 => (x, some r)
  | fuel + 1 =>
    let hi := min r.n (r.fetched + 64)
    if hi ≤ r.fetched then (x, some r)
    else match x.xGroup r r.fetched hi with
      | (x, none) => (x, none)
      | (x, some (es, r)) =>
        let (es, fl) := pre.foldl (fun (acc : List El × VFlags) s =>
          let q := stageAll r.p r.seed x.id s (fun _ => 0#32) acc.1
          (q.1, acc.2.or q.2)) (es, VFlags.zero)
        x.expandFetch { r with xbuf := r.xbuf ++ es.map (·.v), fetched := hi, fl := r.fl.or fl } pre fuel

/-- EXPAND over the positions of a group (R200): elements, what is left of the buffer, and the count taken. -/
def expandEls (fill : W32) (y : Nat → W32) (buf : List W32) (is : List Nat) : List El × List W32 × Nat :=
  is.foldl (fun (acc : List El × List W32 × Nat) i =>
    if isNonzero (y i) then (acc.1 ++ [⟨i, canon32 (nth 0#32 acc.2.1 0), true, true⟩], acc.2.1.drop 1, acc.2.2 + 1)
    else (acc.1 ++ [⟨i, canon32 fill, false, true⟩], acc.2)) ([], buf, 0)

/-- The stages of a list in order over a group's elements; REDUCE and COMPRESS change the stream. -/
def runStages (r : VRun) (c : Nat) (last : Bool) (y : Nat → W32) (ss : List Stage) (es : List El) : VRun × List El :=
  ss.foldl (fun (acc : VRun × List El) s =>
    let (r, es) := acc
    if s.type = 7 then
      let (r', outs, fl) := reduceGroup s r last es
      ({ r' with fl := r'.fl.or fl }, outs)
    else if s.type = 5 then
      let kept := es.filter fun e => e.act && e.p
      ({ r with outN := r.outN + kept.length },
        (kept.zip (List.range kept.length)).map fun e => { e.1 with i := r.outN + e.2, v := canon32 e.1.v })
    else
      let q := stageAll r.p r.seed c s y es
      ({ r with fl := r.fl.or q.2 }, q.1)) (r, es)

/-- The segment results that a group can form at most: the Y indices that a stage after REDUCE reads (R188). -/
def VRun.outIdx (r : VRun) (g : Nat) : List Nat :=
  match r.p.stage? 7 with
  | none => []
  | some s =>
    if (r.p.after 7).all fun t => !t.usesY then []
    else if bit s.opt 2 then []
    else
      let lo := 64 * g
      let hi := min r.n (lo + 64)
      (List.range (cdiv r.n s.segLen)).filter fun q => decide (lo < min r.n ((q + 1) * s.segLen)) && decide (min r.n ((q + 1) * s.segLen) ≤ hi)

/-- Reads group `g` of a run and carries it through the chain (R193): the run with its writes due, or none where it stops. -/
def TC.vecGroup (x : TC) (r : VRun) (g lat : Nat) : TC × Option VRun :=
  let p := r.p
  let lo := 64 * g
  let hi := min r.n (lo + 64)
  let last := decide (r.n ≤ lo + 64)
  let due := r.t + lat
  let (x, yy) := if p.yk = 0 then (x, some ((fun (_ : Nat) => 0#32), r)) else x.yGroup r lo hi (r.outIdx g)
  match yy with
  | none => (x, none)
  | some (y, r) =>
    match r.drain with
    | some d =>
      (match x.drainGroup r d (hi - lo) with
        | (x, none) => (x, none)
        | (x, some l) =>
          let r := { r with fetched := r.fetched + l.length }
          let (r, es) := runStages r x.id last y (p.stages.drop 1) (l.map (·.1))
          (match x.tile d with
            | some (td, _) =>
              if td.cen then
                let cv := es.map fun e => convert td.cfmt p.rmode p.sat (srBits r.seed (x.id + 4096) e.i) e.v
                let outs := ((es.zip cv).zip l).filterMap fun k => if k.1.1.act then some (k.2.2.1, k.2.2.2.1, k.2.2.2.2, k.1.2.v) else none
                let act := (es.zip cv).filter fun k => k.1.act
                let fl : VFlags := ⟨false, false, act.any fun k => k.2.ovf, act.any fun k => k.2.inv⟩
                (x, some { r with fl := r.fl.or fl, writes := r.writes ++ [(due, .c d outs)] })
              else
                let r := if (p.stage? 7).isSome || (p.stage? 5).isSome then r else { r with outN := r.outN + es.length }
                let (x, r) := x.destWrites r last due es
                (x, some r)
            | none => (x, none)))
    | none =>
      match p.stage? 6 with
      | some st =>
        let is := (List.range (hi - lo)).map (· + lo)
        let need := (is.filter fun i => isNonzero (y i)).length
        let fuel := cdiv (need - r.xbuf.length) 64
        (match x.expandFetch r (p.before 6) fuel with
          | (x, none) => (x, none)
          | (x, some r) =>
            let (es, buf, k) := expandEls st.imm y r.xbuf is
            let r := { r with xbuf := buf, consumed := r.consumed + k }
            let (r, es) := runStages r x.id last y (p.after 6) es
            let (x, r) := x.destWrites { r with outN := r.outN + es.length } last due es
            (x, some r))
      | none =>
        match x.xGroup r lo hi with
        | (x, none) => (x, none)
        | (x, some (es, r)) =>
          let (r, es) := runStages r x.id last y p.stages es
          let r := if (p.stage? 7).isSome || (p.stage? 5).isSome then r else { r with outN := r.outN + es.length }
          let (x, r) := x.destWrites r last due es
          (x, some r)

/-- Columns of a ring row that the drain has written, and the rows complete from the first on (R172). -/
def TC.noteRow (x : TC) (d row cols nv : Nat) : TC :=
  { x with core := x.core.modPos d fun p =>
    let w := SMap.set 0 p.wrote row (p.wrote.get 0 row + cols)
    let adv := fun (acc : SMap Nat × Nat) => if acc.1.get 0 acc.2 = nv then (acc.1.del acc.2, acc.2 + 1) else acc
    let q := (List.range (w.length + 1)).foldl (fun acc _ => adv acc) (w, p.prod)
    { p with wrote := q.1, prod := q.2 } }

/-- The writes of a run that fall due in this tempo (R193, R156, R172, R195). -/
def TC.vecWrites (x : TC) (r : VRun) : TC :=
  let due := (r.writes.filter fun w => w.1 == r.t).map (·.2)
  let mems := due.filterMap fun w => match w with | .mem a bs => some (a, bs) | .half a _ _ => some (a, [0#8]) | _ => none
  let x := if mems.isEmpty then x
    else
      let (x, ok) := x.access 2 1 true (mems.flatMap fun m => runPieces m.1 m.2.length)
      if ok then due.foldl (fun x w => match w with
        | .mem a bs => x.wr a bs
        | .half a h v => x.wrHalf a h v
        | _ => x) x
      else x
  due.foldl (fun x w => match w with
    | .mem _ _ => x
    | .half _ _ _ => x
    | .route rt e => x.send 2 0 rt (.entry e)
    | .c d es =>
      match x.tile d with
      | none => x
      | some (td, _) =>
        -- rows at or past CONS + FROWS are not written, the others are (R172)
        let past := fun (e : Nat × Nat × Nat × Nat) => td.fprod && decide ((x.core0.dpos d).cons + td.frows ≤ e.2.1)
        let x := if es.any past then x.raise 2 Code.fuseOverrun else x
        let es := es.filter fun e => !past e
        let at_ := fun (e : Nat × Nat × Nat × Nat) => x.resolve td.c.space e.1
        let b := fmtBytes td.cfmt
        let (x, ok) := if es.isEmpty then (x, true) else x.access 2 1 true (es.flatMap fun e => runPieces (at_ e) b)
        if ok then
          let x := es.foldl (fun x e => x.wr (at_ e) (natLe b e.2.2.2)) x
          let rows := (es.map fun e => e.2.1).eraseDups
          if td.fprod then rows.foldl (fun x row => x.noteRow d row (es.filter fun e => e.2.1 == row).length td.nv) x else x
        else x) x

/-- True when the descriptor of a drain writes C. -/
def TC.writesC (x : TC) (r : VRun) : Option Nat :=
  match r.drain with
  | none => none
  | some d => match x.tile d with
    | some (td, _) => if td.cen then some td.cfmt else none
    | none => none

/-- One tempo of a run: group read, writes due, completion (R193, R209, R210). -/
def TC.vecTempo (x : TC) (r : VRun) : TC :=
  let wc := x.writesC r
  let i := r.p.interval r.drain.isSome wc
  let lat := r.p.latency r.drain.isSome wc.isSome
  let g := cdiv r.n 64
  let (x, r?) := if r.t % i = 0 ∧ r.t / i < g then x.vecGroup r (r.t / i) lat else (x, some r)
  match r? with
  | none => x
  | some r =>
    let x := x.vecWrites r
    if r.t = (g - 1) * i + lat + 1 then
      let c := x.core
      let c := { c with vflags := c.vflags.or r.fl, vruns := (c.vruns + 1) % 4294967296 }
      let c := if r.p.variable then
          { c with velems := r.outN, ventries := cdiv (r.outN * elemBits r.p.df) 512,
                   vconsumed := if (r.p.stage? 6).isSome then r.consumed else r.n }
        else c
      { x with core := c }
    else { x with core := { x.core with vrun := x.core.vrun ++ [{ r with t := r.t + 1, writes := r.writes.filter fun w => w.1 != r.t }] } }

/-- Starts a vector chain program (R190, R193). -/
def TC.startVec (x : TC) (idx : Nat) : TC :=
  match x.core.sect.vecs[idx - 1]? with
  | none => x
  | some p =>
    let drain := (p.stage? 9).map fun s => s.param - 1
    let busy := x.core0.vrun.any fun r => decide (r.t < cdiv r.n 64 * r.p.interval r.drain.isSome (x.writesC r))
    if busy then x.raise 2 Code.vecOverlap
    else
      let h := if drain.isSome then 8 else half2 p.xf
      let cv := nth 0 x.lc p.nsel
      let n := if p.nselEn then (if p.unit then cv * (128 / max 1 h) else cv) else p.count
      if p.nselEn && (n == 0 || decide (4096 < n) || !p.countOk x.core.sect n) then x.raise 2 Code.vecCount
      else
        let seed := (p.seed + (if p.scEn then nth 0 x.lc p.scSel else 0)) % 4294967296
        let r : VRun := { p := p, n := n, seed := seed, pc := x.pc, t := 0, drain := drain, seg := none, segN := 0, segOpen := false,
                          outN := 0, pack := [], xbuf := [], consumed := 0, fetched := 0, xch := [], ych := [], writes := [], fl := VFlags.zero }
        { x with core := { x.core with vrun := x.core.vrun ++ [r] } }

/-- One tempo of the vector engine. -/
def TC.vectorTempo (x : TC) : TC :=
  let rs := x.core.vrun
  rs.foldl TC.vecTempo { x with core := { x.core with vrun := [] } }

end Sys2Proof
end

