-- ==== Sys2Proof/Machine/CoreMem.lean ====
section
/-!
DEFINITION. The engines of core memory, the steering unit, route sets and flag actions of one core in one tempo: CURSOR,
CASTLE, DMAIN, DMAOUT, SMREQ (R223-R235), ROTATE (R237-R242), TOKGEN, PAIR, DELIVER (R88-R93), RTE (R247), FLG (R261).
-/

namespace Sys2Proof

/-- A flag as this tempo reads it. -/
def TC.flag0 (x : TC) (i : Nat) : Bool := (x.core0.flag i).read x.now

/-- CURSOR (R224): in force from the next tempo on, also against a row read of its own tempo, which uses the old cursor
(R111; log entry 118). -/
def TC.startCursor (x : TC) (arr : Nat) (weight : Bool) (b : BaseW) (stride : Nat) : TC :=
  let c : Cursor := ⟨b.ofs, b.cast, b.buf, stride⟩
  { x with core := x.core.modArr arr fun s => if weight then { s with wcur := c } else { s with icur := c },
           curs := (arr, weight) :: x.curs }

/-- The halves of a buffer exchanged with their masks (R234). -/
def Core.castle (c : Core) (b : Nat) : Core :=
  match c.buf b with
  | none => c
  | some x =>
    let banks := (List.range x.d.nbank).foldl (fun m i =>
      putAt (putAt m (x.d.bank0 + i) (nth 0 m (x.d.bank1 + i))) (x.d.bank1 + i) (nth 0 m (x.d.bank0 + i))) c.banks
    { c with banks := banks, bufs := SMap.set none c.bufs b (some { x with cur := 1 - x.cur, castles := (x.castles + 1) % 4294967296 }) }

/-- CASTLE (R234): every named buffer, or none with CASTLE_UNFILLED. -/
def TC.startCastle (x : TC) (bufs : Nat) : TC :=
  let bs := (List.range 16).filter fun b => bit bufs b
  let filled := fun b => match x.core0.buf b with | some y => x.flag0 y.d.flag | none => false
  if bs.all filled then
    bs.foldl (fun x b =>
      match x.core0.buf b with
      | none => x
      | some y => { x with core := x.core.castle b, ops := x.ops ++ [(some x.id, y.d.flag, ⟨false, 5, some x.id, 0, x.pc⟩)] }) x
  else x.raise 3 Code.castleUnfilled

/-- First byte of a DMA's space: core memory, or the fill half of its buffer at the start of the tempo (R225, R234). -/
def TC.dmaBase (x : TC) (a : DmaA) : Nat :=
  if a.base.cast then (match x.core0.halfBase a.base.buf true with | some b => b | none => 0) else 0

/-- A DMAIN starts (R226, R227). -/
def TC.startDmain (x : TC) (a : DmaA) : TC :=
  if x.core0.din.isSome then x.raise 3 Code.dmaOverlap else { x with core := { x.core with din := some ⟨a, x.pc, 0, 0⟩ } }

/-- A DMAOUT starts (R226, R227). -/
def TC.startDmaout (x : TC) (a : DmaA) : TC :=
  if x.core0.dout.isSome then x.raise 3 Code.dmaOverlap else { x with core := { x.core with dout := some ⟨a, x.pc, 0, 0⟩ } }

/-- The bytes of a shared-memory stream request (R229): the fields at the offsets of the action (log entry 28). -/
def smEntry (route : Nat) (write : Bool) (dchan addr entries stride : Nat) : Entry :=
  padTo 64 (natLe 1 8 ++ natLe 1 (route + 16 * b2n write) ++ natLe 1 dchan ++ natLe 1 0 ++ natLe 6 addr ++ natLe 2 entries ++ natLe 4 stride)

/-- SMREQ: one entry on its route, in the DMAOUT port's tempo (R229). -/
def TC.startSmreq (x : TC) (route : Nat) (write : Bool) (dchan addr entries stride : Nat) : TC :=
  if x.core0.dout.isSome then x.raise 3 Code.dmaOverlap
  else x.send 3 1 route (.entry (smEntry route write dchan addr entries stride))

/-- A ROTATE starts (R239, R240). -/
def TC.startRotate (x : TC) (rslot rnt mode : Nat) : TC :=
  match x.core.rot with
  | none => x
  | some _ =>
    if x.core0.rots.isEmpty then { x with core := { x.core with rots := x.core.rots ++ [⟨rslot, rnt, mode, 0, x.pc⟩] } }
    else x.raise 3 Code.rotationTiming

/-- Starts the memory action of an entry (R223). -/
def TC.startMem (x : TC) (idx : Nat) : TC :=
  match x.core.sect.mems[idx - 1]? with
  | some (.cursor a w b s) => x.startCursor a w b s
  | some (.castle bs) => x.startCastle bs
  | some (.dmain a) => x.startDmain a
  | some (.dmaout a) => x.startDmaout a
  | some (.smreq r w d a e s) => x.startSmreq r w d a e s
  | some (.rotate s n m) => x.startRotate s n m
  | _ => x

/-- One tempo of the DMAIN: an entry every PACE tempos (R226, R235). -/
def TC.dmainTempo (x : TC) : TC :=
  match x.core.din with
  | none => x
  | some r =>
    let n := r.a.entries
    if r.t % r.a.pace ≠ 0 then { x with core := { x.core with din := some { r with t := r.t + 1 } } }
    else
      match x.deq 3 r.a.port 1 Code.dmaUnderrun with
      | (x, none) => { x with core := { x.core with din := none } }
      | (x, some es) =>
        let base := x.dmaBase r.a
        let ps := (r.a.pieces r.e).map (· + base / 16)
        let (x, ok) := x.access 3 2 true ps
        let data := es.flatten
        let x := if ok then
            (ps.zip (List.range ps.length)).foldl (fun x p => x.wr (16 * p.1) (slice data (16 * p.2) 16)) x
          else x
        let last := r.e + 1 = n
        let x := { x with core := { x.core with din := if last then none else some { r with t := r.t + 1, e := r.e + 1 },
                                                dmaMoved := (x.core.dmaMoved + 1) % 4294967296 } }
        if last ∧ r.a.fdone then
          match x.core0.buf r.a.base.buf with
          | some b => { x with ops := x.ops ++ [(some x.id, b.d.flag, ⟨true, 4, some x.id, 0, x.pc⟩)] }
          | none => x
        else x

/-- One tempo of the DMAOUT (R226, R228). -/
def TC.dmaoutTempo (x : TC) : TC :=
  match x.core.dout with
  | none => x
  | some r =>
    let n := r.a.entries
    if r.t % r.a.pace ≠ 0 then { x with core := { x.core with dout := some { r with t := r.t + 1 } } }
    else
      let (x, data) :=
        if r.a.acc then
          let pos := 64 * r.e
          let row := r.a.base.ofs + (pos / r.a.rowb * r.a.stride + pos % r.a.rowb) / 64
          let (x, ok) := x.accPort 3 r.a.arr
          (if ok then x.noteRead r.a.arr row else x, if ok then some (x.mem0.read (accAddr x.id r.a.arr row) 64) else none)
        else
          let base := x.dmaBase r.a
          let ps := (r.a.pieces r.e).map (· + base / 16)
          let (x, ok) := x.access 3 2 false ps
          (x, if ok then some (padTo 64 (ps.flatMap fun p => x.bytes0 (16 * p) 16)) else none)
      match data with
      | none => { x with core := { x.core with dout := none } }
      | some d =>
        let x := x.send 3 1 r.a.port (.entry d)
        let last := r.e + 1 = n
        let x := { x with core := { x.core with dout := if last then none else some { r with t := r.t + 1, e := r.e + 1 },
                                                dmaMoved := (x.core.dmaMoved + 1) % 4294967296 } }
        if last ∧ r.a.fdone then
          match x.core0.buf r.a.base.buf with
          | some b => { x with ops := x.ops ++ [(some x.id, b.d.flag, ⟨true, 4, some x.id, 0, x.pc⟩)] }
          | none => x
        else x

/-- First byte of a unit of a slot of the rotation area (R238). -/
def RotD.unitAddr (d : RotD) (slot unit : Nat) : Nat := d.rbank * 0x4000 + (slot * d.tsz + unit) * 64

/-- A unit arrives: written into its slot (PASS) and into the rotation input (R240, R241). -/
def TC.rotArrive (x : TC) (u : RIn) : TC :=
  match x.core.rot with
  | none => x
  | some d =>
    let a := d.unitAddr u.slot u.unit
    let x := if u.store then
        let (x, ok) := x.access 3 3 true (runPieces a 64)
        if ok then x.wr a u.data else x
      else x
    if u.unit = 0 then
      match x.core.wbuf with
      | [] => { x with core := { x.core with wbuf := [⟨0, [u.data], false⟩] } }
      | t :: rest =>
        let id := ((x.core.wbuf.map (·.id)).foldl max 0) + 1
        if rest.isEmpty then { x with core := { x.core with wbuf := [t, ⟨id, [u.data], false⟩] } }
        else if t.loaded then { x with core := { x.core with wbuf := rest ++ [⟨id, [u.data], false⟩] } }
        else x.raise 3 Code.rotationTiming
    else { x with core := { x.core with wbuf := modAt x.core.wbuf (x.core.wbuf.length - 1) fun t => { t with units := t.units ++ [u.data] } } }

/-- Units on their way come one tempo nearer; those that arrive are taken in (R240). -/
def TC.rotInTempo (x : TC) : TC :=
  let us := x.core.rotIn.map fun u => { u with left := u.left - 1 }
  let x := { x with core := { x.core with rotIn := us.filter fun u => u.left != 0 } }
  (us.filter fun u => u.left == 0).foldl TC.rotArrive x

/-- One tempo of a ROTATE: reads a unit and sends it on, to the successor (PASS) or to itself (LOCAL) (R240, R242). -/
def TC.rotateTempo (x : TC) (r : RRun) : TC :=
  match x.core.rot with
  | none => x
  | some d =>
    let n := r.rnt * d.tsz
    let slot := (r.rslot + r.t / d.tsz) % d.nslot
    let unit := r.t % d.tsz
    let a := d.unitAddr slot unit
    let (x, ok) := x.access 3 3 false (runPieces a 64)
    if ok then
      let u : RIn := ⟨3, slot, unit, r.mode == 0, x.bytes0 a 64⟩
      let x := if r.mode = 0 then { x with ring := x.ring ++ [u] } else { x with core := { x.core with rotIn := x.core.rotIn ++ [u] } }
      let next := (r.rslot + (r.t + 1) / d.tsz) % d.nslot
      if r.t + 1 = n then { x with core := { x.core with rotsDone := (x.core.rotsDone + 1) % 4294967296, rotNext := next } }
      else { x with core := { x.core with rotNext := next, rots := x.core.rots ++ [{ r with t := r.t + 1 }] } }
    else x

/-- One tempo of the rotation. -/
def TC.rotationTempo (x : TC) : TC :=
  let rs := x.core.rots
  rs.foldl TC.rotateTempo { x with core := { x.core with rots := [] } }

/-- Fields of a token (R89): SEQ, destination, DROP, COUNT, as they stand (log entry 137). -/
def tokenOf (e : Entry) : Nat × Nat × Bool × Nat := (fld e 0 1, bits (fld e 1 1) 1 0, bit (fld e 1 1) 2, bits (fld e 2 2) 12 0)

/-- TOKGEN (R90, R209): a token with the last variable run's ENTRIES as the tempo starts. -/
def TC.startTokgen (x : TC) (a : SteerA) : TC :=
  let ch := nth SteerCh.zero x.steer a.slot
  let e := padTo 64 (natLe 1 ch.gen ++ natLe 1 0 ++ natLe 2 x.core0.ventries)
  { x with steer := putAt x.steer a.slot { ch with gen := (ch.gen + 1) % 256 },
           core := { x.core with toks := x.core.toks ++ [(a.tchan, e)] } }

/-- Tokens that wait are placed where their queue had room at the start of the tempo (R90, R111). -/
def TC.toksTempo (x : TC) : TC :=
  x.core.toks.foldl (fun x t =>
    let q := x.core.queue t.1
    if (x.core0.queue t.1).occ + (x.placed.filter (· == t.1)).length < q.w.depth then
      { x with core := x.core.setQueue t.1 { q with ents := q.ents ++ [t.2], hwm := max q.hwm (q.occ + 1),
                                                    sawFull := q.sawFull || decide (q.w.depth ≤ q.occ + 1) },
               placed := x.placed ++ [t.1] }
    else { x with core := { x.core with toks := x.core.toks ++ [t] } }) { x with core := { x.core with toks := [] } }

/-- Starts a steering action (R88). PAIR and DELIVER stay in force until the next setup load (log entry 29). -/
def TC.startSteer (x : TC) (idx : Nat) : TC :=
  match x.core.sect.strs[idx - 1]? with
  | none => x
  | some a =>
    match a.op with
    | 1 => if x.core.pairs.any (·.a == a) then x else { x with core := { x.core with pairs := x.core.pairs ++ [⟨a, [], [], 0, none⟩] } }
    | 2 => if x.core.delivs.any (·.a == a) then x else { x with core := { x.core with delivs := x.core.delivs ++ [⟨a, 0⟩] } }
    | _ => x.startTokgen a

/-- One side of a PAIR takes an entry from its queue, when it has room for it (R91). -/
def TC.pairTake (x : TC) (q : Nat) (side : List Entry) : TC × List Entry :=
  if side.length < 16 ∧ (x.core0.queue q).ents ≠ [] then
    match x.deq 6 q 1 Code.queueUnderrun with
    | (x, some es) => (x, side ++ es)
    | (x, none) => (x, side)
  else (x, side)

/-- One tempo of a PAIR: at most one route write (R91, R92, R251). The event of a wrong SEQ has the slot in ARG0 and expected + 256 x
received in ARG1 (log entry 136). -/
def TC.pairTempo (x : TC) (p : PairS) : TC × PairS :=
  let ch := nth SteerCh.zero x.steer p.a.slot
  let (x, tok) := x.pairTake p.a.tchan p.tok
  let (x, dat) := x.pairTake p.a.dchan p.dat
  let p' := { p with tok := tok, dat := dat }
  if ch.stopped then (x, p')
  else if 0 < p.left then
    match p.dat with
    | [] => (x, p')
    | e :: _ =>
      let x := match p.route with | some r => x.send 6 2 r (.entry e) | none => x
      (x, { p' with dat := dat.drop 1, left := p.left - 1 })
  else
    match p.tok with
    | [] => (x, p')
    | e :: _ =>
      let (sq, dst, dropped, cnt) := tokenOf e
      if sq ≠ ch.expect then
        ({ x with steer := putAt x.steer p.a.slot { ch with stopped := true },
                  events := x.events ++ [(Code.steerSeqMismatch, p.a.slot, ch.expect + 256 * sq)] }, p')
      else
        let r := p.a.dest / 16 ^ dst % 16
        let x := { x with steer := putAt x.steer p.a.slot { ch with expect := (ch.expect + 1) % 256 } }
        let x := if dropped then x else x.send 6 2 r (.entry e)
        (x, { p' with tok := tok.drop 1, left := cnt, route := if dropped then none else some r })

/-- One tempo of a DELIVER: a token's count to the count queue of 16, then its data into the steered input queue (R93). -/
def TC.delivTempo (x : TC) (d : DelivS) : TC × DelivS :=
  let q := x.core.queue d.a.dchan
  let ch := nth SteerCh.zero x.steer d.a.slot
  match (x.core0.queue d.a.dchan).raw with
  | [] => (x, d)
  | e :: _ =>
    if d.left = 0 then
      if ch.counts.length < 16 then
        let cnt := (tokenOf e).2.2.2
        ({ x with steer := putAt x.steer d.a.slot { ch with counts := ch.counts ++ [cnt] },
                  core := x.core.setQueue d.a.dchan { q with raw := q.raw.drop 1 }, deqs := x.deqs }, { d with left := cnt })
      else (x, d)
    else
      ({ x with core := x.core.setQueue d.a.dchan { q with raw := q.raw.drop 1, ents := q.ents ++ [e] }, placed := x.placed ++ [d.a.dchan] },
        { d with left := d.left - 1 })

/-- One tempo of the steering unit. -/
def TC.steerTempo (x : TC) : TC :=
  let (x, ps) := x.core.pairs.foldl (fun (acc : TC × List PairS) p => let r := acc.1.pairTempo p; (r.1, acc.2 ++ [r.2])) (x, [])
  let (x, ds) := x.core.delivs.foldl (fun (acc : TC × List DelivS) d => let r := acc.1.delivTempo d; (r.1, acc.2 ++ [r.2])) (x, [])
  { x with core := { x.core with pairs := ps, delivs := ds } }

/-- Starts a flag action (R255, R260, R261). -/
def TC.startFlag (x : TC) (idx : Nat) : TC :=
  match x.core.sect.flgs[idx - 1]? with
  | none => x
  | some a =>
    let op : FlagOp := ⟨a.op == 1, 0, some x.id, 0, x.pc⟩
    match a.tgt with
    | 0 => { x with ops := x.ops ++ [(some x.id, a.flag, { op with src := 2 })] }
    | 1 => x.send 5 3 a.route (.flag a.flag { op with src := if (RWord.read (x.core0.route a.route).word).core = x.id then 2 else 3 })
    | 2 => { x with ops := x.ops ++ [(some (coreId a.dfile a.drank), a.flag, { op with src := if coreId a.dfile a.drank = x.id then 2 else 3 })] }
    | _ => { x with ops := x.ops ++ [(none, a.flag, { op with src := 3 })] }

/-- Starts an RTE action (R247). -/
def TC.startRte (x : TC) (idx : Nat) : TC := if idx = 0 then x else { x with rte := some (idx - 1) }

/-- Starts the actions of a step's entry in the order of the fields (R63); a step beyond NACT starts nothing. -/
def TC.startActions (x : TC) (step : Nat) : TC :=
  match x.core.sect.acts[step]? with
  | none => x
  | some a =>
    let i := nth 0 a
    let x := if i 0 = 0 then x else x.startMat 0 (i 0)
    let x := if i 1 = 0 then x else x.startMat 1 (i 1)
    let x := if i 2 = 0 then x else x.startVec (i 2)
    let x := if i 3 = 0 then x else x.startMem (i 3)
    let x := x.startRte (i 4)
    let x := if i 5 = 0 then x else x.startFlag (i 5)
    if i 6 = 0 then x else x.startSteer (i 6)

/-- Every running unit of the core takes one step (R78). Drain reads count before the array writes of the tempo (R166), and
a rotation unit that arrives can be loaded in the same tempo (R241). -/
def TC.unitsOnce (x : TC) : TC :=
  let x := x.vectorTempo
  let x := x.rotInTempo
  let x := x.arraysTempo
  let x := x.dmainTempo
  let x := x.dmaoutTempo
  let x := x.rotationTempo
  let x := x.steerTempo
  x.toksTempo

/-- One step of every unit (R78). Where two accesses meet in a bank, neither takes place (R221): the step is then taken with
the bank barred to both. -/
def TC.units (x : TC) : TC :=
  let y := x.unitsOnce
  if y.clash.isEmpty then y else ({ x with banned := y.clash } : TC).unitsOnce

/-- True when no unit operation of the core is in progress (R82, R114, R196, R227). -/
def Core.unitsIdle (c : Core) : Bool :=
  c.wloads.isEmpty && c.streams.isEmpty && c.aclrs.isEmpty && c.vrun.isEmpty && c.din.isNone && c.dout.isNone && c.rots.isEmpty && c.rotIn.isEmpty

end Sys2Proof
end

