-- ==== Sys2Proof/Machine/State.lean ====
section
/-!
DEFINITION. The state of the module, why a step can stop, and the state after reset.
-/

namespace Sys2Proof.Machine

/-- Why a step stops with a fault: there is no reason. The spec gives every command of the module an outcome, and a command whose
operand names an object that the module does not have changes nothing (log entry 32). -/
inductive Fault where
deriving DecidableEq, Repr

/-- Why a command is refused. -/
inductive Refusal where
  /-- A command without a meaning yet: raised by `exec`. Safe. -/
  | notModelled (mnemonic : String)
deriving DecidableEq, Repr

/-- The module. -/
structure State where
  /-- free values used (log entry 7): the model's own field -/
  free : Nat
  /-- fabric cycles since module start (R399) -/
  now : Nat
  grade : Grade
  mem : Memory
  /-- protected words that hold wrong bits (SRAM) or wrong bytes (stacks), by first address: how many (R468, R300) -/
  dmg : SMap Nat
  /-- DIE_ECC per die: corrected, uncorrectable (R479) -/
  dieEcc : List (Nat × Nat)
  /-- the event log of R473: core, 0 check mismatch or 1 uncorrectable, time -/
  elog : List (Nat × Nat × Nat)
  /-- times of the corrected reads of a core within the last hour (R473) -/
  corrLog : SMap (List Nat)
  /-- cycles of earlier starts (R473) -/
  past : Nat
  /-- fabric clock in MHz (R495) -/
  clock : Nat
  parts : SMap Part
  cores : SMap Core
  mesh : Mesh
  attach : SMap Attach
  agents : SMap EdgeAgent
  stks : SMap Stack
  /-- codes with which a stack's part of a MATCH_MULTI failed, by its number (R398) -/
  multiFail : List (Nat × Nat)
  /-- numbers given to MATCH_MULTI commands -/
  multiNum : Nat
  /-- staged setups in the books (R56) -/
  book : List Staged
  /-- chip sequencer: partition last served (R72); book ports: sequencer last served per die (R83) -/
  lastPart : Nat
  /-- first cycle in which the chip sequencer may dispatch a lane (R71) -/
  dispAt : Nat
  /-- first cycle in which the chip sequencer's fetch is free (R71) -/
  fetchAt : Nat
  lastSeq : List Nat
  /-- per die, the first cycle in which its book port is free (R83) -/
  bookAt : List Nat
  /-- cores pending retirement, each with the code of its trigger (R474) -/
  pendingRetire : List Nat
  causes : SMap Nat
  /-- Ethernet ports A0-A3, B0-B3 -/
  ports : List Port
  /-- ring membership contexts by physical number -/
  membs : SMap Memb
  sess : List Sess
  /-- partition and session whose command was taken last (R391) -/
  takePart : Nat
  takeSid : SMap Nat
  defs : List Defr
  fuse : Fuses
  flash : Flash
  /-- the settings slot in force (R461) -/
  inForce : SetSlot
  /-- the slot that stage 5 applied, which MSET measures (R463) -/
  applied : SetSlot
  /-- the running firmware's bank: FWVER and manifest (R463, R465) -/
  running : Bank
  /-- the code that each of the 20 controllers runs, in the load order of R446 -/
  ctls : List (Option (List Byte))
  pwr : Power
  /-- what the sideband answered last: the bytes of a read, nothing for an acknowledged write, none for a NACK (R496) -/
  smbOut : Option (List Byte)
  /-- MGMT_RETIRE FILE and RANK, MGMT_REPSEL (R478) -/
  retireSel : Nat
  repSel : Nat
  /-- location that the patrol scrub of shared memory and the books reads next, by die (R468, R469) -/
  smScrub : List Nat
  /-- commands that wait, the first in front -/
  pending : List Instr
deriving DecidableEq, Repr

/-- A module of a grade with the rails up and RESET_N just released, before its start begins: what R491 keeps, and every other
field at its reset value. -/
def State.initial (g : Grade) : State :=
  { free := 0, now := 0, grade := g, mem := [], dmg := [], dieEcc := [(0, 0), (0, 0), (0, 0), (0, 0)], elog := [], corrLog := [], past := 0,
    clock := 1400, parts := [(0, { Part.reset with grant := GrantR.all g })], cores := [], mesh := Mesh.reset, attach := [], agents := [],
    stks := [], multiFail := [], multiNum := 0, book := [], lastPart := 0, dispAt := 0, fetchAt := 0, lastSeq := [0, 0, 0, 0], bookAt := [0, 0, 0, 0],
    pendingRetire := [], causes := [], ports := List.replicate 8 Port.reset, membs := [], sess := [], takePart := 0, takeSid := [],
    defs := [], fuse := factoryFuses, flash := factoryFlash, inForce := factorySlot, applied := factorySlot, running := factoryBank, ctls := List.replicate 20 none,
    pwr := Power.reset, smbOut := none, retireSel := 0, repSel := 0, smScrub := [0, 0, 0, 0], pending := [] }

/-- The machine right after reset: a GX9-3072 as it leaves manufacture (log entries 3, 4, 5). -/
def State.reset : State := State.initial .gx9_3072

end Sys2Proof.Machine
end

