-- ==== Sys2Proof/Machine/Ports.lean ====
section
/-!
DEFINITION. The transmitters of the eight Ethernet ports: which waiting message a port sends next (R357, R371, R424).
-/

namespace Sys2Proof

/-- The first waiting message that satisfies `p`, and the queue without it. -/
def Port.takeFirst (x : Port) (p : TxMsg → Bool) : Option (TxMsg × Port) :=
  (findAt p x.wait).map fun y => (y.2, { x with wait := dropAt x.wait y.1 })

/-- The smallest of some numbers above `n`, else the smallest: the next in turn. -/
def nextInTurn (n : Nat) (l : List Nat) : Option Nat :=
  match (l.filter fun x => decide (n < x)).min? with
  | some x => some x
  | none => l.min?

/-- Bytes of a message on the wire, headers included. -/
def TxMsg.size (m : TxMsg) : Nat := m.data.length + 70

/-- Network B (R326, R357): priority 7 first, then the memberships in turn, one frame each. -/
def Port.pickB (x : Port) : Port :=
  match x.takeFirst fun m => m.high with
  | some (m, y) => { y with cur := some m }
  | none =>
    match nextInTurn x.last (x.wait.map (·.who)) with
    | none => x
    | some w =>
      match x.takeFirst fun m => m.who == w with
      | some (m, y) => { y with cur := some m, last := w }
      | none => x

/-- The message of partition `p` that is next in its sessions' turn (R371). -/
def Port.nextOf (x : Port) (p : Nat) : Option (TxMsg × Port) :=
  match nextInTurn (nth 0 x.turn p) ((x.wait.filter fun m => m.who == p).map (·.sid)) with
  | none => none
  | some sid => x.takeFirst fun m => m.who == p && m.sid == sid

/-- Where partition `p`'s turn ends once it has sent its next message, which takes the longer the smaller its share is (R424). -/
def Port.ends (x : Port) (share : Nat → Nat) (p : Nat) : Nat :=
  nth 0 x.used p + (match x.nextOf p with | some (m, _) => m.size * 4096 / share p | none => 0)

/-- Network A (R371, R424, log entry 63): address replies first, and messages of partitions that have no turn; then, of the partitions
whose turn has come, the one whose turn ends first, and in it the sessions in turn. -/
def Port.pickA (x : Port) (share : Nat → Nat) : Port :=
  match x.takeFirst fun m => m.high with
  | some (m, y) => { y with cur := some m, surplus := false }
  | none =>
    let ready := (List.range 8).filter fun p => decide (0 < share p) && x.wait.any fun m => m.who == p
    match (ready.map fun p => nth 0 x.used p).min? with
    | none => x
    | some low =>
      let v := max x.vtime low
      match (sortBy (fun a b => decide (x.ends share a < x.ends share b)) (ready.filter fun p => decide (nth 0 x.used p ≤ v))).head? with
      | none => x
      | some p =>
        match x.nextOf p with
        | some (m, y) => { y with cur := some m, turn := putAt y.turn p m.sid, vtime := v + m.size * 64, used := putAt y.used p (x.ends share p),
                                  resumed := y.resumed.filter (· != p), surplus := decide (x.vtime < low) }
        | none => x

/-- A partition that has no message waiting has one again (R424): its turn does not reach back before the port's. -/
def Port.resume (x : Port) (p : Nat) : Port :=
  if x.wait.any (fun m => m.who == p && !m.high) then x
  else if nth 0 x.used p < x.vtime then { x with used := putAt x.used p x.vtime, resumed := if x.resumed.contains p then x.resumed else x.resumed ++ [p] }
  else x

end Sys2Proof

namespace Sys2Proof.Machine

/-- A partition. -/
def State.part (s : State) (p : Nat) : Part := s.parts.get Part.reset p
/-- The state with a partition changed. -/
def State.modPart (s : State) (p : Nat) (f : Part → Part) : State := { s with parts := SMap.set Part.reset s.parts p (f (s.part p)) }
/-- A port. -/
def State.port (s : State) (i : Nat) : Port := nth Port.reset s.ports i
/-- The state with a port changed. -/
def State.modPort (s : State) (i : Nat) (f : Port → Port) : State := { s with ports := putAt s.ports i (f (s.port i)) }

/-- An idle transmitter with its link up takes the next message. -/
def State.pick (s : State) (i : Nat) : State :=
  s.modPort i fun x =>
    if x.cur.isSome || !x.enabled || !x.link then x
    else if i < 4 then x.pickA fun p => nth 0 (s.part p).grant.shares i else x.pickB

/-- A message joins a port's transmitter. -/
def State.transmit (s : State) (i : Nat) (m : TxMsg) : State :=
  (s.modPort i fun x =>
    let y := if i < 4 ∧ ¬ m.high then x.resume m.who else x
    { y with wait := y.wait ++ [m] }).pick i

/-- TRANSMITTER_FRAME_END: the frame has left, and the next is picked at this boundary (R357, R424). -/
def State.frameEnd (s : State) (i : Nat) : State := (s.modPort i fun x => { x with cur := none }).pick i

end Sys2Proof.Machine
end

