-- ==== Sys2Proof/Machine/Sessions.lean ====
section
/-!
DEFINITION. What a session sends: protected messages (R372-R374, R380-R382), the notify ring (R385-R387), and records to the
sessions of a partition (R399-R402).
-/

namespace Sys2Proof

/-- Exclusive-or of bytes with a key stream. -/
def xorBytes (a k : List Byte) : List Byte := (a.zip (padTo a.length k)).map fun x => x.1 ^^^ x.2

/-- A Ranow header (R372). -/
def ranowHeader (type len sid seq : Nat) : List Byte :=
  natLe 2 0x4E52 ++ natLe 1 1 ++ natLe 1 type ++ natLe 2 len ++ natLe 2 0 ++ natLe 8 sid ++ natLe 8 seq

/-- A protected message of the module (R374). -/
def Sess.seal (x : Sess) (type seq : Nat) (payload : List Byte) : List Byte :=
  let h := ranowHeader type payload.length x.sid seq
  let nonce := x.sout ++ natLe 8 seq
  let c := xorBytes payload (Config.gcmStream x.kout nonce payload.length)
  h ++ c ++ natLe 16 (Config.gcmTag x.kout nonce h c).toNat

/-- A message of a session, ready for its port. -/
def Sess.msg (x : Sess) (data : List Byte) : TxMsg := ⟨false, none, x.part, x.sid, x.mac, x.ip, x.udp, data⟩

/-- Bytes used of the notify ring (R386). -/
def Sess.nused (x : Sess) : Nat := (x.ntail + 2 ^ 32 - x.nhead) % 2 ^ 32

/-- The bytes of a record (R399): LEN covers the whole of it. -/
def Rec.bytes (r : Rec) (lost : Nat) : List Byte :=
  let body := padTo (8 * cdiv r.body.length 8) r.body
  natLe 2 (16 + body.length) ++ natLe 1 r.kind ++ natLe 1 0 ++ natLe 2 r.code ++ natLe 2 (satAt 0xFFFF lost) ++ natLe 8 r.time ++ body

/-- A PAD record of `n` bytes in the notify ring (R387, R399). -/
def padRecord (n : Nat) : List Byte := padTo n (natLe 2 n ++ natLe 1 0)

/-- The module writes bytes at TAIL of the notify ring; they do not cross the ring end. -/
def Sess.nwrite (x : Sess) (bs : List Byte) : Sess :=
  { x with nring := x.nring.write (x.ntail % x.nsize) bs, ntail := (x.ntail + bs.length) % 2 ^ 32 }

/-- The NOTIFY payloads that carry bytes which were written from count `at_` on (R385). -/
def Sess.notifies (x : Sess) (at_ : Nat) (bs : List Byte) : List (List Byte) :=
  let n := max 64 (x.msgmax - 56)
  let cs := chunks n bs
  (cs.zip (List.range cs.length)).map fun c =>
    natLe 4 ((at_ + n * c.2) % x.nsize) ++ natLe 4 c.1.length ++ natLe 4 ((at_ + n * c.2 + c.1.length) % 2 ^ 32) ++ natLe 4 0 ++ c.1

/-- Places for one record: the payloads that mirror it, or none where the ring lacks space (R387, R402). -/
def Sess.place (x : Sess) (bs : List Byte) : Option (Sess × List (List Byte)) :=
  let room := x.nsize - x.ntail % x.nsize
  let free := x.nsize - x.nused
  if bs.length ≤ room then
    (if bs.length ≤ free then some (x.nwrite bs, x.notifies x.ntail bs) else none)
  else if room + bs.length ≤ free then
    let y := x.nwrite (padRecord room)
    some (y.nwrite bs, x.notifies x.ntail (padRecord room) ++ y.notifies y.ntail bs)
  else none

/-- True for a record that a mask allows (R400); a command completion always passes. -/
def maskAllows (mask : Nat) (r : Rec) : Bool :=
  if r.kind = 4 then decide (r.code / 256 ≤ 8) && bit mask (r.code / 256)
  else if r.kind = 2 then bit mask 16
  else if r.kind = 3 then bit mask 17
  else true

/-- A list without the first element that satisfies `p`. -/
def dropFirst {α : Type} (p : α → Bool) (l : List α) : List α :=
  match findAt p l with | some (i, _) => dropAt l i | none => l

end Sys2Proof

namespace Sys2Proof.Machine

/-- A session. -/
def State.session (s : State) (sid : Nat) : Option Sess := s.sess.find? fun x => x.sid == sid

/-- The state with a session changed. -/
def State.modSess (s : State) (sid : Nat) (f : Sess → Sess) : State :=
  { s with sess := s.sess.map fun x => if x.sid = sid then f x else x }

/-- A reliable message leaves, or waits while 256 are not acknowledged (R382). -/
def State.sendRel (s : State) (sid type : Nat) (payload : List Byte) : State :=
  match s.session sid with
  | none => s
  | some x =>
    if 256 ≤ x.unack.length then s.modSess sid fun y => { y with txWait := y.txWait ++ [(type, payload)] }
    else
      let data := x.seal type x.txNext payload
      (s.modSess sid fun y => { y with txNext := y.txNext + 1, unack := y.unack ++ [⟨x.txNext, data, 0⟩] }).transmit x.port (x.msg data)

/-- A control message (R373, R374). -/
def State.sendCtl (s : State) (sid type : Nat) (payload : List Byte) : State :=
  match s.session sid with
  | none => s
  | some x => (s.modSess sid fun y => { y with ctl := y.ctl + 1 }).transmit x.port (x.msg (x.seal type (2 ^ 63 + x.ctl) payload))

/-- The ACK of a session (R380, R381). -/
def State.sendAck (s : State) (sid : Nat) : State :=
  match s.session sid with
  | none => s
  | some x =>
    let sack := (x.rxBuf.map fun y => 2 ^ (y.1 - x.rxNext - 1)).sum
    (s.modSess sid fun y => { y with ackDue := false, rxSince := 0 }).sendCtl sid 0x10
      (natLe 8 x.rxNext ++ natLe 32 sack ++ natLe 4 x.chead ++ natLe 4 0)

/-- The first waiting record of a session goes into its notify ring when there is room (R402). -/
def State.flushOne (s : State) (sid : Nat) : State :=
  match s.session sid with
  | none => s
  | some x =>
    match x.waitq with
    | [] => s
    | r :: rest =>
      match x.place (r.bytes (x.lost + (s.part x.part).lost)) with
      | none => s
      | some (y, ps) =>
        let s := (s.modPart x.part fun p => { p with lost := 0 }).modSess sid fun _ => { y with
          waitq := rest, lost := 0, sentq := y.sentq ++ [(r, x.txNext + x.txWait.length, x.txNext + x.txWait.length + ps.length - 1)] }
        ps.foldl (fun s p => s.sendRel sid 0x21 p) s

/-- The waiting records of a session, in order, as far as there is room. -/
def State.flush (s : State) (sid : Nat) : State :=
  match s.session sid with
  | none => s
  | some x => x.waitq.foldl (fun s _ => s.flushOne sid) s

/-- A record for a session: beyond 64 waiting events the oldest event is dropped and counted (R402). -/
def State.deliver (s : State) (sid : Nat) (r : Rec) : State :=
  (s.modSess sid fun x =>
    let q := x.waitq ++ [r]
    if 64 < (q.filter fun r => r.kind == 4).length then { x with waitq := dropFirst (fun r => r.kind == 4) q, lost := x.lost + 1 }
    else { x with waitq := q }).flush sid

/-- A record for a partition (R400, R401). -/
def State.notify (s : State) (p : Nat) (r : Rec) : State :=
  match (s.sess.filter fun x => x.part == p && maskAllows x.mask r).map (·.sid) with
  | [] => s.modPart p fun x =>
    let q := x.held ++ [r]
    if q.length ≤ 256 then { x with held := q }
    else if q.any fun r => r.kind == 4 then { x with held := dropFirst (fun r => r.kind == 4) q, lost := x.lost + 1 }
    else { x with held := q.drop 1, lost := x.lost + 1 }
  | ids => ids.foldl (fun s sid => s.deliver sid r) s

/-- The held records of a session's partition that its mask allows (R401). -/
def State.release (s : State) (sid : Nat) : State :=
  match s.session sid with
  | none => s
  | some x =>
    let held := (s.part x.part).held
    let s := s.modPart x.part fun p => { p with held := held.filter fun r => !maskAllows x.mask r }
    (held.filter fun r => maskAllows x.mask r).foldl (fun s r => s.deliver sid r) s

/-- An event to a partition (R399, R400). -/
def State.event (s : State) (p code : Nat) (e : Ev) : State := s.notify p (e.record code s.now)

/-- The partitions that are defined (R411). -/
def State.defined (s : State) : List Nat := (List.range 8).filter fun p => p == 0 || (s.part p).grant.defd

/-- An event to every defined partition. -/
def State.eventAll (s : State) (code : Nat) (e : Ev) : State := s.defined.foldl (fun s p => s.event p code e) s

/-- The completion of a command, to the session that issued it; nothing where the session has ended (R384, R399, R400). -/
def State.complete (s : State) (o : Org) (op code : Nat) (data : List Byte) : State :=
  s.deliver o.sid ⟨1, code, s.now, natLe 4 o.ctag ++ natLe 2 op ++ natLe 2 0 ++ data⟩

end Sys2Proof.Machine
end

