-- ==== Sys2Proof/Machine/Ops.lean ====
section
/-!
DEFINITION. The named operations over the state that the meanings share: reading and replacing a part of it, free values,
records to hosts, shared-memory views, flags, credits.
-/

namespace Sys2Proof.Machine

/-- The withdrawn blocks (R475). -/
def State.withdrawn (s : State) : List Nat := (List.range 96).filter fun g => bit (nth 0 s.fuse.wdraw (g / 24)) (g % 24)
/-- A core. -/
def State.core (s : State) (c : Nat) : Core := s.cores.get Core.reset c
/-- The state with a core replaced. -/
def State.setCore (s : State) (c : Nat) (x : Core) : State := { s with cores := SMap.set Core.reset s.cores c x }
/-- The state with a core changed. -/
def State.modCore (s : State) (c : Nat) (f : Core → Core) : State := s.setCore c (f (s.core c))
/-- A region of a partition. -/
def State.region (s : State) (p r : Nat) : Region := (s.part p).region r
/-- The state with a region changed. -/
def State.modRegion (s : State) (p r : Nat) (f : Region → Region) : State := s.modPart p fun x => x.setRegion r (f (x.region r))
/-- A router. -/
def State.router (s : State) (c : Nat) : Router := s.mesh.routers.get Router.reset c
/-- The state with a router changed. -/
def State.modRouter (s : State) (c : Nat) (f : Router → Router) : State :=
  { s with mesh := { s.mesh with routers := SMap.set Router.reset s.mesh.routers c (f (s.router c)) } }

/-- The next free value (log entry 7). -/
def State.fresh (s : State) : State × Nat := ({ s with free := s.free + 1 }, Config.freeNat s.free)

/-- What a load looks at of a partition's grants. -/
def State.pview (s : State) (p : Nat) : PView := ⟨s.grade, (s.part p).grant.blocks, (s.part p).allot s.grade⟩

/-- An edge agent. -/
def State.agent (s : State) (c : Nat) : EdgeAgent := s.agents.get EdgeAgent.reset c
/-- The state with an edge agent changed. -/
def State.modAgent (s : State) (c : Nat) (f : EdgeAgent → EdgeAgent) : State :=
  { s with agents := SMap.set EdgeAgent.reset s.agents c (f (s.agent c)) }
/-- A stack. -/
def State.stack (s : State) (i : Nat) : Stack := s.stks.get Stack.reset i
/-- The state with a stack changed. -/
def State.modStack (s : State) (i : Nat) (f : Stack → Stack) : State :=
  { s with stks := SMap.set Stack.reset s.stks i (f (s.stack i)) }
/-- A shared-memory attachment. -/
def State.att (s : State) (c : Nat) : Attach := s.attach.get Attach.reset c
/-- The state with an attachment changed. -/
def State.modAtt (s : State) (c : Nat) (f : Attach → Attach) : State :=
  { s with attach := SMap.set Attach.reset s.attach c (f (s.att c)) }

/-- An agent's binding with queue `q` of core `c` that the queue lost (R257). -/
def lostOut (l : List AgentOut) (c q : Nat) : List AgentOut :=
  l.map fun o => if o.core = c ∧ o.queue = q then { o with bound := false, credit := 0 } else o

/-- The agent whose queue was cleared learns it (R257). -/
def State.dropAgentOut (s : State) (kind core c q : Nat) : State :=
  if kind = 4 then s.modAtt core fun a => { a with outs := lostOut a.outs c q }
  else s.modAgent core fun a => { a with outs := lostOut a.outs c q }

/-- The agents' part of the stop of a job (R297): its requests stop, data still to come for them is discarded, and its match
commands go. -/
def State.stopRequests (s : State) (p job : Nat) : State :=
  let mine := fun (q : EReq) => q.part == p && q.job == job
  let agents := s.agents.map fun e =>
    (e.1, { e.2 with
      reqs := e.2.reqs.filter fun q => !mine q,
      drains := e.2.drains ++ (e.2.reqs.filter mine).filterMap fun q =>
        if q.left = 0 then none else some ⟨q.src, if q.d.op = 2 then 2 else 3, q.left⟩ })
  let gone := fun (m : MCmd) => m.src.isSome && m.part == p && m.job == job
  let cut := s.stks.flatMap fun e => e.2.mq.filter gone
  let s := { s with agents := agents, stks := s.stks.map fun e =>
    (e.1, { e.2 with mq := e.2.mq.filter (fun m => !gone m),
                     run := if (match e.2.run with | some m => gone m | none => false) then none else e.2.run,
                     delivering := if (match e.2.run with | some m => gone m | none => false) then false else e.2.delivering }) }
  cut.foldl (fun s m => match m.src with
    | some (c, x) => if m.left = 0 then s else s.modAgent c fun a => { a with drains := a.drains ++ [⟨x, 1, m.left⟩] }
    | none => s) s

/-- True when a flit that a core sent to a stack's edge agent is still on its way. -/
def toStack (c : Nat) (f : Flit) : Bool :=
  f.src.kind == 1 && f.src.core == c && f.dst.tgt == 2 && (match f.cargo with | .entry _ => true | _ => false)

/-- True when a core has stack work that has not completed: entries on their way, requests, match commands (R296). -/
def State.stackWork (s : State) (c : Nat) : Bool :=
  ((s.core c).out.any fun o => o.dst.tgt == 2 && (match o.cargo with | .entry _ => true | _ => false))
  || (s.mesh.routers.any fun r => r.2.inq.any (fun l => l.any (toStack c)) || r.2.arrE.any (toStack c))
  || (s.agents.any fun a => a.2.reqs.any fun q => q.src.kind == 1 && q.src.core == c)
  || (s.stks.any fun t => (t.2.mq ++ t.2.run.toList).any fun m => match m.src with | some (_, x) => x.core == c | none => false)

/-- True when a lane of a region has stack work that has not completed (R296). -/
def State.requestsOf (s : State) (p r : Nat) : Bool := (s.region p r).rect.cores.any fun c => s.stackWork c

end Sys2Proof.Machine
end

