-- ==== Sys2Proof/Machine/Channels.lean ====
section
/-!
DEFINITION. Channels, credits and flags over the state: binding, arrivals, credits and what a sequencer sees of them, route
registers, output stores, core flags and chip flags (R80, R84, R245-R264).
-/

namespace Sys2Proof

/-- Cycles until a sequencer sees a change at a core (R80, R262): 3 on its own die, 17 otherwise. -/
def Region.sees (g : Region) (c : Nat) : Nat := if dieOfCore c = g.seq / 64 then 3 else 17

/-- The core of a gated slot. -/
def Region.slotCore (g : Region) (d : GateD) : Nat := coreId (g.rect.f0 + d.file) (g.rect.k0 + d.rank)

/-- Adds to what becomes visible of the slots that `pr` picks. -/
def Region.pushSlots (g : Region) (pr : GateD → Bool) (at_ n : Nat) : Region :=
  { g with slots := (g.slots.zip g.tab.gates).map fun x => if pr x.2 then { x.1 with soon := x.1.soon ++ [(at_, n)] } else x.1 }

/-- True when a queue word names a source (R246, R249). -/
def QWord.names (w : QWord) (x : Src) : Bool :=
  w.skind == x.kind && coreId w.sfile w.srank == x.core && (x.kind != 1 || w.sroute == x.route)

/-- The queue with a BIND that it does not answer at once (R249 steps 2 and 5): a later one of a source replaces its earlier one, and
of those from sources that the word does not name a fifth displaces the oldest. -/
def Queue.remember (k : Queue) (x : Src) : Queue :=
  let rem := (k.rem.filter fun (y : Src) => !(y.kind == x.kind && y.core == x.core && y.route == x.route)) ++ [x]
  let strangers := rem.filter fun y => !k.w.names y
  { k with rem := match strangers with
      | y :: _ => if 4 < strangers.length then rem.filter (· != y) else rem
      | [] => rem }

/-- True for a queue that a DELIVER of the core's section places entries into (R93). -/
def Sect.steered (t : Sect) (q : Nat) : Bool := t.strs.any fun a => a.op == 2 && a.dchan == q

/-- The core as its units see it in cycle `now`: its queues without the entries that arrived in that cycle (R111). -/
def Core.view0 (c : Core) (now : Nat) : Core :=
  { c with queues := c.queues.map fun e => (e.1, e.2.start (c.sect.steered e.1) now) }

/-- Entries of a route, and flag operations along it, in the output store (R251). -/
def Core.outCount (c : Core) : Nat :=
  (c.out.filter fun o => match o.cargo with | .entry _ => true | .flag _ _ => true | _ => false).length

/-- True when the sequencer sees a store at 32 entries or more (R251). -/
def Region.pressed (g : Region) (now : Nat) : Bool :=
  ((g.press.map fun x => x.2.1).eraseDups).any fun c =>
    match (g.press.filter fun x => x.2.1 == c && decide (x.1 ≤ now)).getLast? with
    | some x => decide (32 ≤ x.2.2)
    | none => false

/-- Loads a route word (R247, R249): an equal word is no replacement; otherwise UNBIND behind the waiting entries, and BIND. A
DISCARDED route whose own word is loaded binds anew, and what was written to it since belongs to the new binding (R257; log
entry 122). -/
def Core.loadRoute (c : Core) (r word : Nat) : Core :=
  let x := c.route r
  if x.word = word ∧ x.st ≠ 3 then c
  else if x.word = word ∧ (RWord.read word).tgt ≠ 0 then
    let out := c.out.map fun (o : OutE) => if o.route = r ∧ o.ep = x.ep then { o with ep := x.ep + 1 } else o
    ({ c with out := ⟨r, x.ep + 1, (RWord.read word).dst, .bind⟩ :: out } : Core).setRoute r { x with credit := 0, st := 1, ep := x.ep + 1 }
  else
    let w0 := RWord.read x.word
    let w1 := RWord.read word
    let leave := w0.tgt ≠ 0 ∧ (x.st = 1 ∨ x.st = 2)
    let out := c.out ++ (if leave then [⟨r, x.ep, w0.dst, .unbind 0⟩] else []) ++ (if w1.tgt ≠ 0 then [⟨r, x.ep + 1, w1.dst, .bind⟩] else [])
    let c := { c with out := out }
    c.setRoute r { word := word, credit := 0, st := if w1.tgt ≠ 0 then 1 else 0, ep := x.ep + 1,
                   olds := if leave then x.olds ++ [(x.ep, x.credit)] else x.olds }

/-- The credits of a route's binding. -/
def Route.credits (x : Route) (ep : Nat) : Nat :=
  if ep = x.ep then x.credit else match x.olds.find? fun o => o.1 == ep with | some o => o.2 | none => 0

/-- A route's binding with its credits changed. -/
def Route.modCredits (x : Route) (ep : Nat) (f : Nat → Nat) : Route :=
  if ep = x.ep then { x with credit := f x.credit } else { x with olds := x.olds.map fun o => if o.1 = ep then (o.1, f o.2) else o }

/-- A flag after an operation of cycle `now` (R260): a set wins over a clear of the same cycle, and among operations of the
winning kind the record rule chooses. -/
def FlagR.apply (r : FlagR) (now : Nat) (o : FlagOp) : FlagR :=
  let new : FlagR := { val := o.set, lastop := o.set, src := o.src, core := o.core, region := o.region, pc := o.pc, stamp := now + 1,
                       old := if r.stamp = now + 1 then r.old else r.val }
  if r.stamp ≠ now + 1 then new
  else if r.lastop && !o.set then r
  else if !r.lastop && o.set then new
  else
    let key : Nat → Option Nat → Nat → Nat × Nat := fun s c g => (s, c.getD g)
    let a := key r.src r.core r.region
    let b := key o.src o.core o.region
    if b.1 < a.1 ∨ (b.1 = a.1 ∧ b.2 < a.2) then new else r

/-- The credits of a slot as the sequencer sees them in a cycle (R80, R263): arrivals add up, a flag gate shows the last value. -/
def Slot.seen (x : Slot) (gate : Bool) (now : Nat) : Nat :=
  if gate then (match (x.soon.filter fun y => decide (y.1 ≤ now)).getLast? with | some y => y.2 | none => x.cred)
  else x.cred + ((x.soon.filter fun y => decide (y.1 ≤ now)).map (·.2)).sum

/-- A slot after a debit in a cycle. -/
def Slot.debit (x : Slot) (gate : Bool) (now : Nat) : Slot :=
  { cred := if gate then 0 else x.seen false now - 1, soon := x.soon.filter fun y => decide (now < y.1) }

/-- A route write placed in the output store (R251). -/
def Core.pushOut (c : Core) (r : Nat) (k : Cargo) : Core :=
  let x := c.route r
  { c with out := c.out ++ [⟨r, x.ep, (RWord.read x.word).dst, k⟩] }

/-- The end of every binding that a core's routes hold, with UNBIND on their behalf (R257). -/
def Core.dropRoutes (c : Core) : List (Src × Dst × Nat) × Core :=
  ((List.range 16).flatMap fun r =>
    let x := c.route r
    let w := RWord.read x.word
    (if w.tgt ≠ 0 ∧ (x.st = 1 ∨ x.st = 2) then [((⟨1, 0, r, x.ep⟩ : Src), w.dst, x.credit)] else []), { c with routes := [], out := [] })

/-- The source that a core's route is to its destination. -/
def routeSrc (c r ep : Nat) : Src := ⟨1, c, r, ep⟩

end Sys2Proof

namespace Sys2Proof.Machine

/-- A change at a core, seen by the sequencer of the region that holds the core (R80). -/
def State.slotSeen (s : State) (c : Nat) (pr : GateD → Bool) (n : Nat) : State :=
  match (s.core c).owner with
  | none => s
  | some (p, r) => s.modRegion p r fun g => g.pushSlots (fun d => g.slotCore d == c && pr d) (s.now + g.sees c) n

/-- True while the borders of a core's region are frozen: LOADING or QUARANTINED (R53, R84). -/
def State.frozen (s : State) (c : Nat) : Bool :=
  match (s.core c).owner with
  | none => false
  | some (p, r) => (s.region p r).state == .loading || (s.region p r).state == .quarantined

/-- True while the flags of a core's region are frozen: as `frozen`, and in the freeze of a stop (R82 phase 3, R84, R95). -/
def State.flagsFrozen (s : State) (c : Nat) : Bool :=
  s.frozen c || (match (s.core c).owner with
    | none => false
    | some (p, r) => (s.region p r).stopping && (s.region p r).froze)

/-- True when the region of a core is LOADING. -/
def State.isLoading (s : State) (c : Nat) : Bool :=
  match (s.core c).owner with
  | none => false
  | some (p, r) => (s.region p r).state == .loading

/-- Credits on their way. -/
def State.sendCredit (s : State) (x : Src) (n : Nat) : State :=
  { s with mesh := { s.mesh with credits := s.mesh.credits ++ [⟨x, n⟩] } }

/-- Credits on their way to a binding are taken back: how many. -/
def State.recall (s : State) (x : Src) : State × Nat :=
  ({ s with mesh := { s.mesh with credits := s.mesh.credits.filter fun m => m.dst != x } },
    ((s.mesh.credits.filter fun m => m.dst == x).map (·.n)).sum)

/-- The queue answers a BIND (R249 steps 2 and 6): DEPTH - OCC credits for a new binding. -/
def State.answerBind (s : State) (c q : Nat) (x : Src) : State :=
  let k := (s.core c).queue q
  let (s, _) := match k.bound with | some y => s.recall y | none => (s, 0)
  let n := k.w.depth - k.occ
  (s.modCore c fun d => d.setQueue q { k with bound := some x, cred := n, shut := false, rem := k.rem.filter (· != x) }).sendCredit x n

/-- A BIND reaches a queue (R249): one of the source that the word names is answered, in phase 8 at a LOADING core; of the others
the queue remembers four. -/
def State.bindQueue (s : State) (c q : Nat) (x : Src) : State :=
  let k := (s.core c).queue q
  if k.w.names x ∧ ¬ s.frozen c then s.answerBind c q x
  else s.modCore c fun d => d.setQueue q (k.remember x)

/-- An UNBIND reaches a queue (R249 step 4). -/
def State.unbindQueue (s : State) (c q : Nat) (x : Src) (n : Nat) : State :=
  let k := (s.core c).queue q
  if k.bound = some x then
    s.modCore c fun d => d.setQueue q { k with bound := none, cred := k.cred - n }
  else s.modCore c fun d => d.setQueue q { k with rem := k.rem.filter (· != x) }

/-- An entry reaches its queue (R245, R257): it uses a granted credit, or is discarded where its binding is gone. -/
def State.enterQueue (s : State) (c q : Nat) (x : Src) (e : Entry) : State :=
  let k := (s.core c).queue q
  if k.bound = some x ∧ ¬ k.shut then
    let occ := k.occ + 1
    let k := { k with lateAt := s.now + 1, lateN := k.late s.now + 1 }
    let k' := if (s.core c).sect.steered q then { k with raw := k.raw ++ [e] } else { k with ents := k.ents ++ [e] }
    let s := s.modCore c fun d => d.setQueue q { k' with cred := k.cred - 1, hwm := max k.hwm occ, sawFull := k.sawFull || decide (k.w.depth ≤ occ) }
    if (s.core c).sect.steered q then s else s.slotSeen c (fun d => decide (d.kind < 5) && !d.out && d.chan == q) 1
  else s

/-- A queue gives back `n` places (R249 step 3): credits, unless the borders are frozen (R82). -/
def State.returnCredits (s : State) (c q n : Nat) : State :=
  let k := (s.core c).queue q
  match k.bound with
  | some x =>
    if s.frozen c || n == 0 then s
    else (s.modCore c fun d => d.setQueue q { k with cred := k.cred + n }).sendCredit x n
  | none => s

/-- The sequencer learns when a core's output store reaches or leaves 32 entries (R251). -/
def State.pressure (s : State) (c : Nat) : State :=
  match (s.core c).owner with
  | none => s
  | some (p, r) => s.modRegion p r fun g =>
    let n := (s.core c).outCount
    let was : Nat := match (g.press.filter fun x => x.2.1 == c).getLast? with | some x => x.2.2 | none => 0
    if Nat.ble 32 was == Nat.ble 32 n then g else { g with press := g.press ++ [(s.now + g.sees c, c, n)] }

/-- The slots of a route that was replaced hold no credit until its new binding grants some (R80, R250; log entry 30). -/
def State.routeReplaced (s : State) (c r : Nat) : State :=
  match (s.core c).owner with
  | none => s
  | some (p, n) => s.modRegion p n fun g =>
    { g with slots := (g.slots.zip g.tab.gates).map fun x =>
        if decide (x.2.kind < 5) && x.2.out && g.slotCore x.2 == c && x.2.chan == r then { cred := 0, soon := [] } else x.1 }

/-- Loads the words of a route set into the route registers of a core (R247). -/
def State.loadRoutes (s : State) (c : Nat) (words : Nat → Nat) : State :=
  (List.range 16).foldl (fun s r =>
    let w := words r
    let x := (s.core c).route r
    if x.word = w ∧ x.st ≠ 3 then s else (s.modCore c fun d => d.loadRoute r w).routeReplaced c r) s

/-- An operation reaches a core flag; the flag gates on it see its change later (R260, R262, R263). The operation of a gate's
own grant (LASTSRC 6) shows them the value that it leaves, changed or not: a set in its cycle wins over its clear. -/
def State.setCoreFlag (s : State) (c i : Nat) (o : FlagOp) : State :=
  let was := ((s.core c).flag i).val
  let r := ((s.core c).flag i).apply s.now o
  let s := s.modCore c fun d => d.setFlag i r
  if was = r.val ∧ o.src ≠ 6 then s
  else (s.slotSeen c (fun d => d.kind == 5 && d.chan == i && !d.out) (b2n r.val)).slotSeen c (fun d => d.kind == 5 && d.chan == i && d.out) (b2n (!r.val))

/-- The flag operations that waited at a core take effect in arrival order; the last arrival cycle on a flag decides (R84). -/
def State.applyHeld (s : State) (c : Nat) : State :=
  let ops := (s.core c).heldOps
  let s := s.modCore c fun d => { d with heldOps := [] }
  let flags := (ops.map (·.1)).eraseDups
  flags.foldl (fun s i =>
    let mine := ops.filter fun o => o.1 == i
    let last := mine.foldl (fun m o => max m o.2.2) 0
    (mine.filter fun o => o.2.2 == last).foldl (fun s o => s.setCoreFlag c i o.2.1) s) s

/-- An operation reaches a chip flag of a partition; the gates on it see its change at the end of the cycle (R260, R263, R264),
and the operation of a gate's own grant (LASTSRC 4) shows them the value that it leaves. -/
def State.setChipFlag (s : State) (p i : Nat) (o : FlagOp) : State :=
  let was := ((s.part p).cflag i).val
  let r := ((s.part p).cflag i).apply s.now o
  let s := s.modPart p fun x => { x.setCflag i r with barrier := x.barrier.sees i was r.val }
  if was = r.val ∧ o.src ≠ 4 then s
  else s.modPart p fun x =>
    { x with regions := x.regions.map fun e =>
        (e.1, (e.2.pushSlots (fun d => d.kind == 6 && d.chan == i && !d.out) (s.now + 1) (b2n r.val)).pushSlots
          (fun d => d.kind == 6 && d.chan == i && d.out) (s.now + 1) (b2n (!r.val))) }

end Sys2Proof.Machine
end

