-- ==== Sys2Proof/Machine/Views.lean ====
section
/-!
DEFINITION. The partition's view of shared memory and its translation (R21, R216, R281, R421), and the
protected words that writes make whole (R300, R468, R469).
-/

namespace Sys2Proof

/-- First address of the protected word that holds an address (R300, R468): accumulator elements of 4 bytes, stack
codewords of 64, 16-byte pieces elsewhere. -/
def wordOf (a : Nat) : Nat :=
  if a < 8 * stackBytes then a / 64 * 64
  else if 0x020000000000 ≤ a ∧ a < 0x020060000000 ∧ 0x60000 ≤ (a - 0x020000000000) % 0x80000 then a / 4 * 4
  else a / 16 * 16

/-- Bytes of the protected word at an address. -/
def wordBytes (a : Nat) : Nat :=
  if a < 8 * stackBytes then 64
  else if 0x020000000000 ≤ a ∧ a < 0x020060000000 ∧ 0x60000 ≤ (a - 0x020000000000) % 0x80000 then 4
  else 16

/-- The largest damage of a word that its code corrects (R300, R468). -/
def correctable (a : Nat) : Nat := if a < 8 * stackBytes then 2 else 1

end Sys2Proof

namespace Sys2Proof.Machine

/-- Words rewritten hold no damage (R469). -/
def State.mend (s : State) (a n : Nat) : State :=
  if s.dmg.isEmpty then s
  else { s with dmg := s.dmg.filter fun e => !(decide (a < e.1 + wordBytes e.1) && decide (e.1 < a + n)) }

/-- The parts of die `d`'s shared memory that a partition sees, in its view's order (R216). -/
def State.sharedParts (s : State) (p d : Nat) : List Nat :=
  ((List.range 24).filter fun j => (s.part p).grant.blocks.contains (24 * d + j))
    ++ (if p = 0 ∧ s.grade = .gx9_2880 ∧ d % 2 = 1 then [7, 15, 23] else [])

/-- Bytes of die `d`'s shared memory in a partition's view (R216). -/
def State.sharedSeen (s : State) (p d : Nat) : Nat := (s.sharedParts p d).length * partBytes

/-- The device address of a view address in shared memory (R216, R421). -/
def State.sharedAddr (s : State) (p a : Nat) : Option Nat :=
  match place s.grade a with
  | .shared d o =>
    match (s.sharedParts p d)[o / partBytes]? with
    | some j => some (sharedBase d + j * partBytes + o % partBytes)
    | none => none
  | _ => none

/-- True when `n` bytes from view address `a` lie in the partition's view of one die's shared memory (R281). -/
def State.sharedIn (s : State) (p a n : Nat) : Bool :=
  match place s.grade a with
  | .shared d o => decide (0 < n) && decide (o + n ≤ s.sharedSeen p d)
  | _ => false

/-- Reads shared memory through a view, in pieces of 16 bytes from a 16-byte boundary; what lies outside reads as zero. -/
def State.viewRead (s : State) (p a n : Nat) : List Byte :=
  ((List.range (cdiv n 16)).flatMap fun i =>
    match s.sharedAddr p (a + 16 * i) with
    | some b => s.mem.read b 16
    | none => zeros 16).take n

/-- Writes bytes of one 16-byte piece of shared memory through a view; a piece beyond correction of which only a part is written stays so
(R468, R471). -/
def State.pieceWrite (s : State) (p a : Nat) (bs : List Byte) : State :=
  match s.sharedAddr p a with
  | some b =>
    let t := { s with mem := s.mem.write b bs }
    if bs.length = 16 ∨ s.dmg.get 0 (wordOf b) ≤ correctable b then t.mend (wordOf b) 16 else t
  | none => s

/-- Writes shared memory through a view. -/
def State.viewWrite (s : State) (p a : Nat) (bs : List Byte) : State :=
  let k := (16 - a % 16) % 16
  let s := if k = 0 then s else s.pieceWrite p a (bs.take k)
  let ps := chunks 16 (bs.drop k)
  (ps.zip (List.range ps.length)).foldl (fun s x => s.pieceWrite p (a + k + 16 * x.2) x.1) s

end Sys2Proof.Machine
end

