-- ==== Sys2Proof/Machine/Region.lean ====
section
/-!
DEFINITION. Regions: definition, release and what they clear (R47-R54, R105, R215, R257), the rotation ring of a region
(R237), and what a region shows in PART_RGNSTAT (R55).
-/

namespace Sys2Proof

/-- The path of the rotation ring with RDIR = 0, in offsets from the corner (R237). -/
def ringOffsets (f r : Nat) : List (Nat × Nat) :=
  (List.range f).map (fun i => (i, 0))
    ++ ((List.range (r - 1)).flatMap fun j =>
      let row := (List.range (f - 1)).map fun i => (i + 1, j + 1)
      if j % 2 = 0 then row.reverse else row)
    ++ ((List.range (r - 1)).map fun j => (0, r - 1 - j))

/-- The cores of a region in ring order (R237). -/
def Rect.ring (x : Rect) (rdir : Nat) : List Nat :=
  if x.files = 1 ∧ x.ranks = 1 then [coreId x.f0 x.k0]
  else if rdir = 0 then (ringOffsets x.files x.ranks).map fun o => coreId (x.f0 + o.1) (x.k0 + o.2)
  else (ringOffsets x.ranks x.files).map fun o => coreId (x.f0 + o.2) (x.k0 + o.1)

/-- The successor of a core in a ring. -/
def ringNext (l : List Nat) (c : Nat) : Nat :=
  match findAt (fun x => x == c) l with
  | some (i, _) => nth c l ((i + 1) % l.length)
  | none => c

/-- A core after definition or release of its region (R105, R215, R257). What the rules do not name stays: fuses, selectors,
counters and records. Route registers keep the number of their last binding, so that no later binding repeats it. -/
def Core.cleared (c : Core) (owner : Option (Nat × Nat)) : Core :=
  { c with
    owner := owner, sect := Sect.empty, a0 := ArrayS.reset, a1 := ArrayS.reset, wloads := [], streams := [], aclrs := [],
    pos := [], vrun := [], banks := defaultMap, bufs := [], rot := none, din := none, dout := none, rots := [], rotIn := [],
    wbuf := [], pairs := [], toks := [], delivs := [], queues := [], out := [], flags := [], heldOps := [],
    routes := (List.range 16).foldl (fun m r =>
      let x := c.route r
      SMap.set Route.null m r { Route.null with ep := if x.word = 0 ∧ x.st = 0 then x.ep else x.ep + 1 }) [] }

/-- The bindings that a core's routes hold and whose BIND has left the core: route, number, destination, credits held. -/
def Core.bindings (c : Core) : List (Nat × Nat × Dst × Nat) :=
  let sent := fun (r ep : Nat) => !(c.out.any fun o => o.route == r && o.ep == ep && o.cargo == Cargo.bind)
  (List.range 16).flatMap fun r =>
    let x := c.route r
    let w := RWord.read x.word
    (if w.tgt ≠ 0 ∧ (x.st = 1 ∨ x.st = 2) ∧ sent r x.ep then [(r, x.ep, w.dst, x.credit)] else [])
      ++ x.olds.filterMap fun o =>
        match c.out.find? fun i => i.route == r && i.ep == o.1 && (match i.cargo with | .unbind _ => true | _ => false) with
        | some i => if sent r o.1 then some (r, o.1, i.dst, o.2) else none
        | none => none

/-- TLEFT of PART_RGNSTAT (R55): all ones while a run-to-END lane runs. -/
def Region.tleft (g : Region) : Nat :=
  match g.run with
  | none => 0
  | some l => match l.left with
    | none => 0xFFFFFFFF
    | some n => n + g.granted.length

/-- PART_RGNSTAT of a region (R55). -/
def Region.stat (g : Region) : Nat := g.state.code + 2 ^ 8 * g.setup + 2 ^ 20 * g.xpos.pc + 2 ^ 32 * g.tleft

end Sys2Proof

namespace Sys2Proof.Machine

/-- A route that lost its queue (R257): DISCARDED, its waiting entries and credits gone. Flag operations along it stay. -/
def State.discardRoute (s : State) (x : Src) : State :=
  let c := s.core x.core
  let r := c.route x.route
  let c := { c with out := c.out.filter fun o => !(o.route == x.route && o.ep == x.ep && !(match o.cargo with | .flag _ _ => true | _ => false)) }
  if r.ep = x.ep then
    ((s.setCore x.core (c.setRoute x.route { r with st := 3, credit := 0 })).routeReplaced x.core x.route).pressure x.core
  else (s.setCore x.core (c.setRoute x.route { r with olds := r.olds.filter fun o => o.1 != x.ep })).pressure x.core

/-- The source of a cleared queue learns it (R257). -/
def State.releaseSource (s : State) (rect : Rect) (c q : Nat) : State :=
  match ((s.core c).queue q).bound with
  | none => s
  | some x =>
    let s := (s.recall x).1
    if x.kind = 1 then (if rect.hasCore x.core then s else s.discardRoute x) else s.dropAgentOut x.kind x.core c q

/-- The UNBINDs sent on behalf of a core's routes to destinations outside the rectangle (R257), behind what is on the mesh. -/
def State.unbindAll (s : State) (p : Nat) (rect : Rect) (c : Nat) : State :=
  (s.core c).bindings.foldl (fun s b =>
    let (r, ep, dst, credit) := b
    if dst.tgt = 1 ∧ rect.hasCore dst.core then s
    else
      let (s, back) := s.recall (routeSrc c r ep)
      s.modRouter c fun x => { x with inq := modAt x.inq 4 fun l =>
        l ++ [⟨routeSrc c r ep, dst, .unbind (credit + back), s.now, p, 0⟩] }) s

/-- The clearing of every core of a rectangle (R105, R215, R257), which rewrites its memories (R469). -/
def State.clearRect (s : State) (p : Nat) (rect : Rect) (owner : Option (Nat × Nat)) : State :=
  let s := rect.cores.foldl (fun s c => (List.range 16).foldl (fun s q => s.releaseSource rect c q) s) s
  let s := rect.cores.foldl (fun s c => s.unbindAll p rect c) s
  rect.cores.foldl (fun s c =>
    let s := s.modCore c fun d => d.cleared owner
    { s with mem := s.mem.clear (windowBase c) 0x70000,
             mesh := { s.mesh with credits := s.mesh.credits.filter fun m => !(m.dst.kind == 1 && m.dst.core == c) } }.mend (windowBase c) 0x70000) s

/-- Regions of a partition, by number, that are defined. -/
def State.regionsOf (s : State) (p : Nat) : List (Nat × Region) := (s.part p).regions.filter fun x => x.2.state != .undefined

/-- Physical sequencers in use (R50, R51). -/
def State.seqsUsed (s : State) : List Nat := (List.range 8).flatMap fun p => (s.regionsOf p).map fun x => x.2.seq

/-- The code of a region definition (R48, R50, R54, log entry 20). -/
def State.defineCode (s : State) (p r : Nat) (rect : Rect) : Nat :=
  let g := s.region p r
  if rect.f1 < rect.f0 ∨ rect.k1 < rect.k0 then Code.badArgument
  else if g.state = .loading ∨ g.state = .running ∨ g.state = .held then Code.regionBusy
  else
    let v := s.pview p
    let others := (s.regionsOf p).filter fun x => x.1 != r
    let d := dieOf rect.f0 rect.k0
    let onDie := (others.filter fun x => dieOf x.2.rect.f0 x.2.rect.k0 == d).length
    let blocks := (v.blocks.filter fun b => b / 24 == d).length
    let used := (s.seqsUsed.length) - (if g.state = .undefined then 0 else 1)
    if 63 < rect.f1 ∨ 47 < rect.k1 then Code.regionInvalid
    else if rect.cores.all (fun c => v.grants (fileOf c) (rankOf c))
      ∧ others.all (fun x => !x.2.rect.meets rect)
      ∧ onDie + 1 ≤ 8 * blocks / 3 ∧ used + 1 ≤ 256
      ∧ rect.cores.all (fun c => !s.pendingRetire.contains c)
      ∧ rect.cores.all (fun c => !s.withdrawn.contains (blockOf (fileOf c) (rankOf c)))
    then Code.ok else Code.regionInvalid

/-- Releases a region: its cores are cleared, its number is free, and its staged setups go (log entry 18). It is no longer a
region of the job that used it, so the job's stop (R95) does not touch the number again. -/
def State.releaseRegion (s : State) (p r : Nat) : State :=
  let g := s.region p r
  let s := s.clearRect p g.rect none
  let s := s.modRegion p r fun _ => Region.reset
  let s := s.modPart p fun x => { x with job := x.job.map fun j => { j with regions := j.regions.filter (· != r) } }
  { s with book := s.book.filter fun x => !(x.part == p && x.region == r) }

/-- Defines a region over a rectangle: the lowest free sequencer of the corner's die (R50, R51; log entry 17). -/
def State.defineRegion (s : State) (p r : Nat) (rect : Rect) : State :=
  let g := s.region p r
  let keep := if g.state = .undefined ∨ g.rect = rect then s.book else s.book.filter fun x => !(x.part == p && x.region == r)
  let s := if g.state = .undefined then s else s.releaseRegion p r
  let d := dieOf rect.f0 rect.k0
  let used := s.seqsUsed
  let q := match (List.range 64).find? fun i => !used.contains (64 * d + i) with | some i => 64 * d + i | none => 64 * d
  let s := { s with book := keep }.clearRect p rect (some (p, r))
  s.modRegion p r fun _ => { Region.reset with state := .idle, rect := rect, seq := q }

end Sys2Proof.Machine
end

