-- ==== Sys2Proof/Machine/Jobs.lean ====
section
/-!
DEFINITION. Jobs of a partition: failure, abort, retirement and completion (R74, R75, R94-R97, R396).
-/

namespace Sys2Proof

/-- The fetched move is skipped: HEAD moves past it (R97). -/
def Stream.dropMove (m : Stream) : Stream :=
  match m.fetched with
  | none => m
  | some v => { m with fetched := none, head := if m.size = 0 then m.head else (m.head + v.bytes) % (m.size * 4096) }

/-- Bytes of the ring (R64). -/
def Stream.ring (m : Stream) : Nat := m.size * 4096

/-- Bytes from HEAD to TAIL. A TAIL at or above the ring size stands for its remainder (log entry 106). -/
def Stream.avail (m : Stream) : Nat := if m.ring = 0 then 0 else (m.tail + m.ring - m.head % m.ring) % m.ring

/-- True when the skipping of R97 has nothing more to skip in this stop: it has ended, TAIL is reached, or EN = 0 keeps the chip
sequencer from fetching (R64; log entry 107). -/
def Stream.skipDone (m : Stream) : Bool := !m.skipping || m.avail == 0 || !m.en

end Sys2Proof

namespace Sys2Proof.Machine

/-- The state with a partition's job changed. -/
def State.modJob (s : State) (p : Nat) (f : Job → Job) : State := s.modPart p fun x => { x with job := x.job.map f }

/-- The state with a partition's move stream changed. -/
def State.modMs (s : State) (p : Nat) (f : Stream → Stream) : State := s.modPart p fun x => { x with ms := f x.ms }

/-- The stop of R95: no further tempo is granted, pending lanes go, loads of other regions end, the remaining moves are
skipped, and the job's stack requests stop (R297). -/
def State.stopJob (s : State) (p : Nat) : State :=
  match (s.part p).job with
  | none => s
  | some j =>
    let s := j.regions.foldl (fun s r => s.modRegion p r fun g => { g with pend := none, stopping := true, froze := false, stopAt := s.now, load := none }) s
    let s := s.modMs p fun m => { Stream.dropMove m with ended := some j.id, skipping := !j.lastSeen }
    (s.modJob p fun j => { j with stopping := true }).stopRequests p j.id

/-- The job fails with a code, charged to a region or to none, at a core or at none (R96); the first failure decides. -/
def State.failJob (s : State) (p code : Nat) (charge : Option Nat) (core : Option Nat) : State :=
  match (s.part p).job with
  | none => s
  | some j =>
    match j.fail with
    | some _ => s
    | none => (s.modJob p fun j => { j with fail := some (code, charge, core) }).stopJob p

/-- The code of a job's end as an abort returns it (R26, R94, R96). -/
def abortOutcome (code : Nat) : Nat := if code = Code.ok then Code.abortNoEffect else code

/-- The job's completion record (R94, R96, R399), the outcome of the aborts that wait for it (R396), and STOPPED. A steered channel
that R92 stopped pairs again once the job has ended. -/
def State.finishJob (s : State) (p code : Nat) (region : Option Nat) (core : Option Nat) : State :=
  match (s.part p).job with
  | none => s
  | some j =>
    let (f, k) := match core with | some c => (fileOf c, rankOf c) | none => (0xFF, 0xFF)
    let s := s.notify p (jobRecord j.id code s.now (region.getD 0xFF) f k)
    let s := j.regions.foldl (fun s r => s.modRegion p r fun g => { g with steer := g.steer.map fun c => { c with stopped := false } }) s
    let waits := (s.part p).aborts
    let s := s.modPart p fun x => { x with job := none, lastJob := some (j.id, code), jobField := j.id, aborts := [],
                                           ms := if code = Code.ok then x.ms else { x.ms with stopped := true } }
    waits.foldl (fun s o => s.complete o 0x0022 (abortOutcome code) []) s

/-- True when every core of a region has ended its unit operations (R82, R114, R196, R227). -/
def State.unitsIdle (s : State) (g : Region) : Bool := g.rect.cores.all fun c => (s.core c).unitsIdle

/-- True when the running lane of a region may retire in this cycle (R74, R114, R196, R227, R296). -/
def State.retireReady (s : State) (p r : Nat) : Bool :=
  let g := s.region p r
  match g.run with
  | none => false
  | some l => l.done && !l.fwait && g.load.isNone && g.granted.isEmpty && !g.stopping && s.unitsIdle g && !s.requestsOf p r
    && (match (s.part p).job with | some j => j.fail.isNone | none => true)

/-- A lane retires (R74): FSET applies, the region is READY, and the move and the job may retire (R94). -/
def State.retireLane (s : State) (p r : Nat) : State :=
  match (s.region p r).run with
  | none => s
  | some l =>
    let s := s.modRegion p r fun g => { g with run := none, state := .ready, hold := 0 }
    let s := if bit l.lane.fset 15 then
        s.setChipFlag p (bits l.lane.fset 7 0) ⟨!bit l.lane.fset 14, 2, none, r, 0⟩ else s
    let s := s.modJob p fun j => { j with moves := (j.moves.map fun m => if m.1 = l.lane.move then (m.1, m.2 - 1) else m).filter fun m => m.2 != 0 }
    match (s.part p).job with
    | some j => if j.lastSeen ∧ j.moves.isEmpty ∧ j.fail.isNone then s.finishJob p Code.ok none none else s
    | none => s

/-- An abort reaches the retire point (R94): lanes whose retire is registered in this cycle retire first; a job that then
has not ended fails with ABORTED. -/
def State.abortJob (s : State) (p : Nat) : State :=
  match (s.part p).job with
  | none => s
  | some j =>
    if j.fail.isSome then s
    else
      let ready := j.regions.filter fun r => s.retireReady p r
      let left := j.moves.foldl (fun acc m => acc + m.2) 0
      if j.lastSeen ∧ left = ready.length ∧ (s.part p).ms.fetched.isNone then ready.foldl (fun s r => s.retireLane p r) s
      else s.failJob p Code.aborted none none

/-- PART_MSCTL.ABORT (R64, R94, R96): the current job is aborted. The code: OK for an abort that is accepted; for a job that
completes in this cycle, has ended or has failed, its outcome; OK where no job has run (log entry 109). -/
def State.abortWrite (s : State) (p : Nat) : State × Nat :=
  let t := s.abortJob p
  match (s.part p).job with
  | some j =>
    match j.fail with
    | some f => (t, f.1)
    | none => (t, if (t.part p).job.isNone then Code.abortNoEffect else Code.ok)
  | none => (t, match (s.part p).lastJob with | some (_, code) => abortOutcome code | none => Code.ok)

/-- JOB_ABORT of the current job, of the last ended job, or of another (R94, R396). -/
def State.abortCommand (s : State) (p : Nat) (o : Org) (job : Nat) : State :=
  let cur := match (s.part p).job with | some j => decide (j.id = job) | none => false
  if cur then (s.modPart p fun x => { x with aborts := x.aborts ++ [o] }).abortJob p
  else
    match (s.part p).lastJob with
    | some (id, code) =>
      if id = job then s.complete o 0x0022 (abortOutcome code) []
      else s.complete o 0x0022 Code.badArgument []
    | none => s.complete o 0x0022 Code.badArgument []

/-- The freeze of a stop begins once the granted tempos are executed and the units have drained, at the earliest after the cycle
that follows the stop (R82 phases 2 and 3, R95). -/
def State.stopFreeze (s : State) (p r : Nat) : State :=
  let g := s.region p r
  if g.stopping ∧ ¬ g.froze ∧ g.stopAt < s.now ∧ g.granted.isEmpty ∧ s.unitsIdle g then
    s.modRegion p r fun g => { g with froze := true, stopAt := s.now }
  else s

/-- True when the job's stop has ended (R95): tempos granted are executed, units have drained, the freeze of 8 cycles has
passed, and the moves are skipped. -/
def State.stopDone (s : State) (p : Nat) : Bool :=
  match (s.part p).job with
  | none => false
  | some j => j.stopping && !j.snap && (s.part p).ms.skipDone && j.regions.all fun r =>
      let g := s.region p r
      g.state == .quarantined || (g.froze && decide (g.stopAt + 8 ≤ s.now))

/-- The end of a stop (R95, R96): regions go to IDLE, the charged one to QUARANTINED, and the record is posted. At the cores of
a region that goes to IDLE, whose borders are frozen no longer, the flag operations that waited take effect (log entry 108). -/
def State.stopEnd (s : State) (p : Nat) : State :=
  match (s.part p).job with
  | none => s
  | some j =>
    match j.fail with
    | none => s
    | some (code, charge, core) =>
      let named := if code = Code.regionNotReady then none else charge
      let s := j.regions.foldl (fun s r => s.modRegion p r fun g =>
        let st := if g.state = .quarantined ∨ named = some r then RState.quarantined else .idle
        { g with state := st, run := none, pend := none, stopping := false, froze := false, load := none, granted := [], hold := 0,
                 tab := Tables.empty, slots := [], steer := [] }) s
      let s := j.regions.foldl (fun s r =>
        let g := s.region p r
        if g.state = .idle then g.rect.cores.foldl (fun s c => s.applyHeld c) s else s) s
      let s := s.modMs p fun m => { m with skipping := false }
      s.finishJob p code charge core

end Sys2Proof.Machine
end

