-- ==== Sys2Proof/Machine/Errors.lean ====
section
/-!
DEFINITION. Damage to protected words and what a read of one does (R468-R471, R479), and how a core becomes a retirement
candidate (R473, R474).
-/

namespace Sys2Proof

/-- The sums that upsets change. -/
def sumUpsets (us : List Upset) : List Adder :=
  us.filterMap fun u => match u with | .sum c a j d => some ⟨c, a, j, d⟩ | _ => none

end Sys2Proof

namespace Sys2Proof.Machine

/-- Damage to a word; a word that its code cannot correct reads as zeros (R471). -/
def State.damage (s : State) (a n : Nat) : State :=
  let w := wordOf a
  let k := s.dmg.get 0 w + n
  let s := { s with dmg := SMap.set 0 s.dmg w k }
  if correctable w < k then { s with mem := s.mem.clear w (wordBytes w) } else s

/-- The memory damage among upsets. -/
def State.damages (s : State) (us : List Upset) : State :=
  us.foldl (fun s u => match u with | .mem a n => s.damage a n | _ => s) s

/-- The damage met by a read of `n` bytes: words corrected, words beyond correction. -/
def State.readErrors (s : State) (a n : Nat) : Nat × Nat :=
  let hit := s.dmg.filter fun e => decide (a < e.1 + wordBytes e.1) && decide (e.1 < a + n)
  ((hit.filter fun e => decide (e.2 ≤ correctable e.1)).length, (hit.filter fun e => decide (correctable e.1 < e.2)).length)

/-- The partition that holds the block of a core, if one does. -/
def State.holderOf (s : State) (c : Nat) : Option Nat :=
  (List.range 8).find? fun p => (s.part p).grant.blocks.contains (blockOf (fileOf c) (rankOf c))

/-- An event to partition 0 and to the holder of a core's block. -/
def State.eventHolder (s : State) (c code : Nat) (e : Ev) : State :=
  let s := s.event 0 code e
  match s.holderOf c with
  | some p => if p = 0 then s else s.event p code e
  | none => s

/-- A candidate becomes pending for the trigger `cause`, with CORE_RETIRE_PENDING (R474). -/
def State.retireCandidate (s : State) (c cause : Nat) : State :=
  if s.pendingRetire.contains c then s
  else { s with pendingRetire := s.pendingRetire ++ [c], causes := SMap.set 0 s.causes c cause }.eventHolder c Code.coreRetirePending
    { Ev.none with file := fileOf c, rank := rankOf c }

/-- Time on the event log's scale, in cycles (R473). -/
def State.logTime (s : State) : Nat := s.past + s.now

/-- Cycles in `h` hours at the fabric clock. -/
def State.hours (s : State) (h : Nat) : Nat := h * 3600 * s.clock * 1000000

/-- A failure of a core enters the event log; two of one kind within 720 h make the core a candidate (R473). -/
def State.coreFailure (s : State) (c kind : Nat) : State :=
  let t := s.logTime
  let recent := s.elog.any fun e => e.1 == c && e.2.1 == kind && decide (t ≤ e.2.2 + s.hours 720)
  let s := { s with elog := s.elog ++ [(c, kind, t)] }
  if recent then s.retireCandidate c (if kind = 0 then Code.checkColumnMismatch else Code.uncorrectableData) else s

/-- `n` corrected reads of a core's structures (R469, R473, R479). -/
def State.coreCorrected (s : State) (c n : Nat) : State :=
  if n = 0 then s
  else
    let t := s.logTime
    let times := ((s.corrLog.get [] c).filter fun x => decide (t < x + s.hours 1)) ++ List.replicate n t
    let s := s.modCore c fun d => { d with eccCorr := satAt 4294967295 (d.eccCorr + n) }
    let over_ := decide (4096 < times.length)
    let s := { s with corrLog := SMap.set [] s.corrLog c (if over_ then [] else times) }
    if over_ then (s.retireCandidate c Code.sramCorrectedRate).eventHolder c Code.sramCorrectedRate { Ev.none with file := fileOf c, rank := rankOf c } else s

/-- `n` uncorrectable reads of a core's structures (R471, R473, R479). -/
def State.coreUncorrectable (s : State) (c n : Nat) : State :=
  if n = 0 then s
  else (s.modCore c fun d => { d with eccUnc := satAt 65535 (d.eccUnc + n) }).coreFailure c 1

/-- Counts of a die's shared memory and book (R479). -/
def State.dieErrors (s : State) (d corr unc : Nat) : State :=
  { s with dieEcc := modAt s.dieEcc d fun x => (satAt 4294967295 (x.1 + corr), satAt 65535 (x.2 + unc)) }

/-- Reads bytes of shared memory of a view, in pieces of 16 bytes (R468-R471, R479): the state, the bytes, whether all could be
corrected. -/
def State.sharedRead (s : State) (p a n : Nat) : State × List Byte × Bool :=
  let a0 := a - a % 16
  let bs := (s.viewRead p a0 (a % 16 + n)).drop (a % 16)
  if s.dmg.isEmpty then (s, bs, true)
  else
    let r := (List.range (cdiv (a % 16 + n) 16)).foldl (fun (acc : State × Bool) i =>
      match acc.1.sharedAddr p (a0 + 16 * i) with
      | some b =>
        let e := acc.1.readErrors b 16
        (acc.1.dieErrors ((b - sharedBase 0) / 0x08000000) e.1 e.2, acc.2 && e.2 == 0)
      | none => acc) (s, true)
    (r.1, bs, r.2)

end Sys2Proof.Machine
end

