-- ==== Sys2Proof/Machine/MoveStream.lean ====
section
/-!
DEFINITION. The move stream: its registers (R64, R65, R70), fetching and skipping (R66-R71, R97), and the dispatch of lanes
(R71-R73).
-/

namespace Sys2Proof

/-- A move header (R66). -/
structure MoveHdr where
  lanes : Nat
  seq : Nat
  jobstart : Bool
  last : Bool
  sync : Bool
  wrap : Bool
  job : Nat
deriving DecidableEq, Repr

/-- Reads a move header (R66). -/
def MoveHdr.read (bs : List Byte) : MoveHdr :=
  let f := fld bs 4 1
  ⟨fld bs 0 2, fld bs 2 2, bit f 0, bit f 1, bit f 2, bit f 3, fld bs 6 2⟩

/-- Bytes of a move (R66). -/
def MoveHdr.bytes (h : MoveHdr) : Nat := 16 + 32 * h.lanes

/-- A header in order (R70). -/
def MoveHdr.inOrder (h : MoveHdr) (m : Stream) : Bool := match m.expect with | some e => h.seq == e | none => true

/-- A header with a lane count and a place in the ring that R66, R67 and R69 allow; one with WRAP has no lanes (log entry 110). -/
def MoveHdr.fits (h : MoveHdr) (m : Stream) : Bool :=
  if h.wrap then h.lanes == 0 else decide (1 ≤ h.lanes) && decide (h.lanes ≤ 256) && decide (m.head + h.bytes ≤ m.ring)

/-- A header that R66, R67 and R69 accept where it stands: order, lane count, place in the ring. -/
def MoveHdr.good (h : MoveHdr) (m : Stream) : Bool := h.inOrder m && h.fits m

/-- Cycles that the chip sequencer takes to fetch so many bytes of the ring (R71). -/
def fetchCycles (n : Nat) : Nat := cdiv n 64

/-- The stream after a header: the next expected SEQ, and HEAD moved by `n` bytes (R70). -/
def Stream.pass (m : Stream) (h : MoveHdr) (n : Nat) : Stream :=
  { m with expect := some ((h.seq + 1) % 65536), head := if h.wrap then 0 else (m.head + n) % m.ring }

/-- A lane that R69 accepts at the fetch. The chip flag of an FWAIT or FSET that is not enabled is not looked at (log entry 111). -/
def Lane.good (l : Lane) (part : Part) (allot : Nat) : Bool :=
  (part.region l.region).state != .undefined && !(l.reconf && l.keeppc)
    && (!bit l.fwait 15 || decide (bits l.fwait 7 0 < allot)) && (!bit l.fset 15 || decide (bits l.fset 7 0 < allot))

/-- STATE of PART_SEQSTAT (R64): of several that fit, the first in the order STOPPED, ABORTING (a failing job too), DISABLED,
EMPTY, RUNNING (log entry 112). -/
def Part.seqState (p : Part) : Nat :=
  if p.ms.stopped then 4
  else if (match p.job with | some j => j.fail.isSome | none => false) then 3
  else if !p.ms.en then 0
  else if p.ms.avail = 0 ∧ p.job.isNone then 1 else 2

/-- True when the chip sequencer may fetch a partition's next move: one move at a time, one job at a time (R64, R65, R94). -/
def Part.mayFetch (x : Part) : Bool :=
  x.ms.en && !x.ms.stopped && x.ms.size != 0 && x.ms.fetched.isNone && decide (16 ≤ x.ms.avail)
    && (match x.job with
      | none => true
      | some j => if j.fail.isSome then j.stopping && x.ms.skipping else !j.lastSeen)

end Sys2Proof

namespace Sys2Proof.Machine

/-- A write to PART_MSBASE (R64, R65, R70). -/
def State.writeMsBase (s : State) (p v : Nat) : State × Nat :=
  if (s.part p).ms.en then (s, Code.busy)
  else (s.modMs p fun m => { m with base := bits v 47 12 * 4096, head := 0, tail := 0, expect := none, fetched := none }, Code.ok)

/-- A write to PART_MSCTL (R64, R65, R94, R281): SIZE, of 13 bits, counts as written when its value changes. -/
def State.writeMsCtl (s : State) (p v : Nat) : State × Nat :=
  let m := (s.part p).ms
  let size := bits v 12 0
  let old := m.size % 2 ^ 13
  let en := bit v 16
  if size ≠ old ∧ m.en then (s, Code.busy)
  else if en ∧ ¬ m.en ∧ ¬ (1 ≤ size ∧ size ≤ 4096 ∧ s.sharedIn p m.base (size * 4096)) then (s, Code.badArgument)
  else
    let s := if size = old then s
      else s.modMs p fun m => { m with size := size, head := 0, tail := 0, expect := none, fetched := none }
    let s := s.modMs p fun m => { m with en := en, stopped := if en ∧ ¬ m.en then false else m.stopped }
    if bit v 17 then s.abortWrite p else (s, Code.ok)

/-- A move fails the job with a code; where no job is open, one with the move's JOB ends in it. -/
def State.moveFail (s : State) (p : Nat) (h : MoveHdr) (code : Nat) : State :=
  let s := match (s.part p).job with
    | some _ => s
    | none => s.modPart p fun x => { x with job := some ⟨h.job, [], [], false, none, false, false⟩, jobField := h.job }
  s.failJob p code none none

/-- A malformed move fails the job with MOVE_FORMAT (R69). -/
def State.moveFormat (s : State) (p : Nat) (h : MoveHdr) : State := s.moveFail p h Code.moveFormat

/-- Skips one move (R97): up to and including the job's LAST move; a JOBSTART or a bad header ends the skipping. -/
def State.skipMove (s : State) (p : Nat) (h : MoveHdr) : State :=
  s.modMs p fun m =>
    if !h.good m then { m with skipping := false }
    else if h.wrap then m.pass h 0
    else if h.jobstart then { m with skipping := false }
    else if m.avail < h.bytes then { m with skipping := false }
    else { m.pass h h.bytes with skipping := m.skipping && !h.last }

/-- Takes a whole move (R66-R70): it is held until its lanes are dispatched, or it fails the job and is passed over. One that reads data
beyond correction fails the job with UNCORRECTABLE_DATA (R470, R471). -/
def State.takeMove (s : State) (p : Nat) (h : MoveHdr) : State :=
  let x := s.part p
  let m := x.ms
  let id := m.nextMove
  let r := s.sharedRead p (m.base + m.head) h.bytes
  let s := r.1
  let lanes := (List.range h.lanes).map fun i => Lane.read h.job id (slice r.2.1 (16 + 32 * i) 32)
  let jobOk : Bool := match x.job with | none => h.jobstart | some j => decide (j.id = h.job)
  if !r.2.2 then
    let s := (s.modMs p fun m => m.pass h h.bytes).moveFail p h Code.uncorrectableData
    s.modMs p fun m => { m with skipping := !h.last }
  else if jobOk ∧ noDup (lanes.map (·.region)) ∧ lanes.all (fun l => l.good x (x.allot s.grade)) then
    let s := s.modPart p fun x => { x with
      ms := { m with expect := some ((h.seq + 1) % 65536), fetched := some ⟨id, h.job, h.last, h.sync, h.bytes, lanes⟩, nextMove := id + 1,
                     ended := if h.jobstart then none else m.ended },
      jobField := h.job,
      job := match x.job with
        | none => some ⟨h.job, [], [(id, h.lanes)], h.last, none, false, false⟩
        | some j => some { j with moves := j.moves ++ [(id, h.lanes)], lastSeen := h.last } }
    s
  else
    let s := (s.modMs p fun m => m.pass h h.bytes).moveFormat p h
    s.modMs p fun m => { m with skipping := !h.last }

/-- MOVE_FETCH of a partition (R64-R71, R97), from the cycle on in which the chip sequencer's fetch is free: a move takes its
bytes at 64 a cycle, a header without lanes, a bad one or a skipped one a cycle (log entry 113). A bad header in order still sets
or advances the expected SEQ (R70); one beyond correction fails the job (R471). -/
def State.moveFetch (s : State) (p : Nat) : State :=
  let x := s.part p
  let m := x.ms
  if x.mayFetch ∧ s.fetchAt ≤ s.now then
    let r := s.sharedRead p (m.base + m.head) 16
    let h := MoveHdr.read r.2.1
    let one := { r.1 with fetchAt := s.now + 1 }
    if m.skipping then one.skipMove p h
    else if !r.2.2 then one.moveFail p h Code.uncorrectableData
    else if !h.inOrder m then one.moveFormat p h
    else if !h.fits m then (one.modMs p fun m => { m with expect := some ((h.seq + 1) % 65536) }).moveFormat p h
    else if h.wrap then one.modMs p fun m => m.pass h 0
    else if m.avail < h.bytes then s
    else if m.ended = some h.job ∧ ¬ h.jobstart ∧ x.job.isNone then one.skipMove p h
    else { s with fetchAt := s.now + fetchCycles h.bytes }.takeMove p h
  else s

/-- True when a partition has a lane ready for dispatch (R71, R73). -/
def State.laneReady (s : State) (p : Nat) : Bool :=
  match (s.part p).ms.fetched, (s.part p).job with
  | some v, some j => j.fail.isNone && (match v.lanes with
      | l :: _ => (s.region p l.region).pend.isNone && (!v.sync || j.moves.all fun m => m.1 == v.id)
      | [] => false)
  | _, _ => false

/-- LANE_DISPATCH: the next partition in turn hands one lane to its region (R71, R72). -/
def State.laneDispatch (s : State) : State :=
  match ((List.range 8).map fun i => (s.lastPart + 1 + i) % 8).find? fun p => s.laneReady p with
  | none => s
  | some p =>
    if s.now < s.dispAt then s
    else
      match (s.part p).ms.fetched with
      | none => s
      | some v =>
        match v.lanes with
        | [] => s
        | l :: rest =>
          let s := { s with lastPart := p, dispAt := s.now + 1 }
          if (s.region p l.region).state = .undefined then s.failJob p Code.moveFormat none none
          else
            let s := s.modRegion p l.region fun g => { g with pend := some l }
            let s := s.modJob p fun j => { j with regions := if j.regions.contains l.region then j.regions else j.regions ++ [l.region] }
            s.modMs p fun m =>
              let m := { m with fetched := some { v with lanes := rest } }
              if rest.isEmpty then m.dropMove else m

end Sys2Proof.Machine
end

