-- ==== Sys2Proof/Machine/Sequencer.lean ====
section
/-!
DEFINITION. The region sequencer: lane start (R74, R75), gates and grants (R76-R81, R93, R263), and the reload of a region
(R82-R86, R256, R500).
-/

namespace Sys2Proof

/-- The entry of the step program at an index (R76). -/
def Tables.entry (t : Tables) (pc : Nat) : ProgE := nth (ProgE.read 0) t.prog pc

/-- Index `i` counted round the program (R76). -/
def Tables.next (t : Tables) (i : Nat) : Nat := if t.prog.length ≤ i then 0 else i

/-- The position after one tempo of the entry (R76, R93). -/
def Pos.advance (x : Pos) (t : Tables) : Pos :=
  let e := t.entry x.pc
  if x.rep < e.rep then { x with rep := x.rep + 1 }
  else
    let cont := t.next (x.pc + 1)
    if e.cldEn then
      match x.cld with
      | some 0 => { x with pc := e.ltgt, rep := 0, cld := none }
      | some n => { pc := cont, rep := 0, lc := putAt x.lc e.cld n, cld := none }
      | none => { x with pc := cont, rep := 0 }
    else if e.lcEn then
      let n := nth 0 x.lc e.lcSel
      if 2 ≤ n then { pc := e.ltgt, rep := 0, lc := putAt x.lc e.lcSel (n - 1), cld := none }
      else { pc := cont, rep := 0, lc := putAt x.lc e.lcSel 0, cld := none }
    else { x with pc := cont, rep := 0, cld := none }

/-- The gated slots that an entry names (R60, R81). -/
def Tables.named (t : Tables) (e : ProgE) : List Nat :=
  if e.guse = 0 then [] else (List.range t.gates.length).filter fun i => bit (nth 0 t.guse (e.guse - 1)) i

/-- No gate. -/
def GateD.zero : GateD := ⟨0, 0, 0, false, 0⟩

/-- The slots of an entry that have no credit in a cycle (R80, R81). -/
def Region.starved (g : Region) (now : Nat) (e : ProgE) : List Nat :=
  (g.tab.named e).filter fun i =>
    let d := nth GateD.zero g.tab.gates i
    (nth ⟨0, []⟩ g.slots i).seen (decide (5 ≤ d.kind)) now == 0

/-- True when the count queue that the present entry needs is empty (R81, R93). -/
def Region.noCount (g : Region) : Bool :=
  let e := g.tab.entry g.gpos.pc
  e.cldEn && g.gpos.rep == 0 && (nth SteerCh.zero g.steer e.cslot).counts.isEmpty

/-- The conditions of a grant that lie in the region (R81, R251). -/
def Region.mayGrant (g : Region) (now : Nat) : Bool :=
  match g.run with
  | none => false
  | some l => !l.fwait && !l.done && g.load.isNone && !g.stopping && g.state != .loading && g.state != .quarantined
      && decide (g.gcyc ≤ now) && !g.pressed now && (g.starved now (g.tab.entry g.gpos.pc)).isEmpty && !g.noCount

/-- Grant-to-execute latency (R77). -/
def Region.latency (g : Region) : Nat := if g.rect.spans then 18 else 4

/-- The region after a grant: slots debited, the count taken, the position and TEMPO advanced, HOLD zero (R76, R81, R93, R270). -/
def Region.granted_ (g : Region) (now : Nat) : Region :=
  match g.run with
  | none => g
  | some l =>
    let e := g.tab.entry g.gpos.pc
    let named := g.tab.named e
    let slots := (g.slots.zip (List.range g.slots.length)).map fun x =>
      if named.contains x.2 then x.1.debit (decide (5 ≤ (nth GateD.zero g.tab.gates x.2).kind)) now else x.1
    let ch := nth SteerCh.zero g.steer e.cslot
    let takes := e.cldEn && g.gpos.rep == 0
    let cnt := if takes then ch.counts.head? else none
    let steer := if takes then putAt g.steer e.cslot { ch with counts := ch.counts.drop 1 } else g.steer
    let pos := if takes then { g.gpos with cld := cnt } else g.gpos
    let ends := e.last && g.gpos.rep == e.rep
    let left := l.left.map (· - 1)
    { g with slots := slots, steer := steer, gpos := pos.advance g.tab, gcyc := now + 1, hold := 0,
             granted := g.granted ++ [⟨now, g.gpos.pc, g.gpos.rep == 0, cnt⟩],
             run := some { l with left := left, done := ends || left == some 0 } }

/-- T of phase 4 (R82, R500). -/
def Load.tbytes (l : Load) : Nat :=
  match l.staged with
  | none => 0
  | some g => max 64 (min (SetupHdr.read g.tables).total g.tables.length)

/-- True for a load that has passed its check of header and tables (R82 phase 5). -/
def Load.checked (l : Load) : Bool := l.phase == .sections || l.phase == .registers || l.phase == .release

/-- Steered channels that a region holds (R87). -/
def Region.steered (g : Region) : Nat :=
  match g.load with
  | some l => if l.checked then l.tab.steer.length else g.tab.steer.length
  | none => g.tab.steer.length

/-- Cycles of the phase that a load is in, beyond which it may end (R82). -/
def Load.cycles (l : Load) (spans : Bool) : Nat :=
  match l.phase with
  | .drain => 1
  | .freeze => 8
  | .tables => cdiv l.tbytes 512 + 24
  | .check => 32
  | .sections => 0
  | .registers => 16
  | .release => if spans then 18 else 4

/-- The core with the registers of phase 7 (R82, R139, R160, R209, R210, R219, R224, R233, R236, R242, R243, R246, R247). -/
def Core.loaded (c : Core) (t : Sect) : Core :=
  let bufs := t.bufdefs.foldl (fun m b => SMap.set none m b.buf (some ⟨b, b.cur, 0⟩)) []
  let clr := fun (a : ArrayS) => { a with nan := false, inf := false, iovf := false, chkmm := false, chkna := false, rows := 0,
                                          icur := Cursor.zero, wcur := Cursor.zero }
  let c := { c with
    sect := t, a0 := clr c.a0, a1 := clr c.a1, pos := [], vflags := VFlags.zero, vruns := 0, velems := 0, ventries := 0, vconsumed := 0,
    banks := t.bankMap, bufs := bufs, rot := t.rotdef?, dmaMoved := 0, memerr := MemErr.reset, wbuf := [], rotIn := [], rotsDone := 0,
    rotNext := 0, pairs := [], toks := [], delivs := [] }
  let c := (List.range 16).foldl (fun c q =>
    let k := c.queue q
    c.setQueue q { k with w := t.queueWord q, hwm := k.occ, sawEmpty := k.occ == 0, sawFull := decide ((t.queueWord q).depth ≤ k.occ),
                          shut := k.shut && k.bound.isNone }) c
  (List.range 16).foldl (fun c r => c.loadRoute r (t.route0 r)) c

/-- A flag that the load initialises: FINIT of the section, then of a BUFDEF (R62, R233, R267). -/
def Sect.flagInit (t : Sect) (i : Nat) : Option Bool :=
  match t.bufdefs.find? fun b => b.flag == i with
  | some b => some b.finit
  | none => if bit t.finit i then some (bit t.fval i) else none

/-- The counter updates 0 and then 1 of a lane (R74). -/
def Lane.updates (l : Lane) (lc : List Nat) : List Nat :=
  let up := fun (lc : List Nat) (en : Bool) (sel val : Nat) (add : Bool) =>
    if en then putAt lc sel (if add then (nth 0 lc sel + val) % 4294967296 else val) else lc
  let lc := up lc (bit l.lcen 0) (bits l.lcsel 2 0) l.val0 (bit l.lcsel 3)
  up lc (bit l.lcen 1) (bits l.lcsel 6 4) l.val1 (bit l.lcsel 7)

end Sys2Proof

namespace Sys2Proof.Machine

/-- Steps 2 to 4 of a lane start (R69, R74). -/
def State.laneSteps (s : State) (p r : Nat) (l : Lane) : State :=
  let g := s.region p r
  let lc := l.updates g.gpos.lc
  if ¬ l.keeppc ∧ g.tab.prog.length ≤ l.start then
    (s.modRegion p r fun g => { g with state := .held }).failJob p Code.moveFormat (some r) none
  else
    s.modRegion p r fun g =>
      let pos : Pos := if l.keeppc then { g.gpos with lc := lc } else { pc := l.start, rep := 0, lc := lc, cld := none }
      { g with state := .held, gpos := pos, xpos := pos, load := none, hold := 0,
               run := some { lane := l, fwait := bit l.fwait 15, left := if l.tempo = 0xFFFFFFFF then none else some l.tempo, done := l.tempo == 0 } }

/-- LANE_START (R74, R75, R82 phase 1). -/
def State.laneStart (s : State) (p r : Nat) : State :=
  let g := s.region p r
  match g.run, g.pend with
  | none, some l =>
    if g.stopping then s
    else if g.state = .quarantined ∨ (g.state = .idle ∧ ¬ l.reconf) then
      (s.modRegion p r fun g => { g with pend := none }).failJob p Code.regionNotReady (some r) none
    else if l.reconf then
      s.modRegion p r fun g => { g with
        pend := none, state := .loading, hold := 0,
        run := some { lane := l, fwait := false, left := if l.tempo = 0xFFFFFFFF then none else some l.tempo, done := false },
        load := some { phase := .drain, since := s.now, staged := none, tab := Tables.empty, left := [] } }
    else (s.modRegion p r fun g => { g with pend := none }).laneSteps p r l
  | _, _ => s

/-- LANE_FWAIT_PASS (R74 step 4, R269). -/
def State.fwaitPass (s : State) (p r : Nat) : State :=
  let g := s.region p r
  match g.run with
  | some l =>
    let f := bits l.lane.fwait 7 0
    if l.fwait ∧ ((s.part p).cflag f).read s.now ∧ g.load.isNone ∧ ¬ g.stopping then
      let s := s.modRegion p r fun g => { g with run := some { l with fwait := false } }
      if bit l.lane.fwait 14 then s.setChipFlag p f ⟨false, 1, none, r, 0⟩ else s
    else s
  | none => s

/-- A grant changes the flags of the gates that it passes: an awaited set is cleared, an awaited clear is set (R263). -/
def State.passGates (s : State) (p r : Nat) (named : List Nat) (pc : Nat) : State :=
  named.foldl (fun s i =>
    let g := s.region p r
    let d := nth GateD.zero g.tab.gates i
    if d.kind = 5 then s.setCoreFlag (g.slotCore d) d.chan ⟨d.out, 6, none, r, pc⟩
    else if d.kind = 6 then s.setChipFlag p d.chan ⟨d.out, 4, none, r, pc⟩
    else s) s

/-- True while a flag operation of a region's core finds 8 waiting at a core with frozen borders: its sender holds (R84). -/
def State.senderHeld (s : State) (p r : Nat) : Bool :=
  let full := fun (d : Nat) => s.flagsFrozen d && decide (8 ≤ (s.core d).heldOps.length)
  let mine := fun (c : Nat) => (s.core c).owner == some (p, r)
  (s.mesh.ops.any fun m => match m.core, m.op.core with | some d, some c => full d && mine c | _, _ => false)
    || s.mesh.routers.any fun y => full y.1 && (match y.2.arrL with
      | f :: _ => (match f.cargo with | .flag _ _ => mine f.src.core | _ => false)
      | [] => false)

/-- TEMPO_GRANT (R81, R84). -/
def State.tempoGrant (s : State) (p r : Nat) : State :=
  let g := s.region p r
  let ok : Bool := match (s.part p).job with | some j => j.fail.isNone | none => false
  if g.mayGrant s.now ∧ ok ∧ ¬ s.senderHeld p r then
    let e := g.tab.entry g.gpos.pc
    (s.modRegion p r fun g => g.granted_ s.now).passGates p r (g.tab.named e) g.gpos.pc
  else s

/-- True when a load's phase may end in this cycle. -/
def State.phaseOver (s : State) (g : Region) (ph : Phase) : Bool :=
  match g.load with
  | none => false
  | some l => l.phase == ph && decide (l.since + l.cycles g.rect.spans ≤ s.now)

/-- The next phase of a load begins. -/
def State.nextPhase (s : State) (p r : Nat) (f : Load → Load) : State :=
  s.modRegion p r fun g => { g with load := g.load.map fun l => { f l with since := s.now } }

/-- A load fails (R86, R500): the region is QUARANTINED, the job fails with the code. -/
def State.loadFail (s : State) (p r code : Nat) : State :=
  (s.modRegion p r fun g => { g with state := .quarantined, load := none, run := none, tab := Tables.empty, slots := [], steer := [] }).failJob p code (some r) none

/-- RECONF_DRAIN_END (R82 phase 2). -/
def State.drainEnd (s : State) (p r : Nat) : State :=
  let g := s.region p r
  if s.phaseOver g .drain ∧ g.granted.isEmpty ∧ s.unitsIdle g then s.nextPhase p r fun l => { l with phase := .freeze } else s

/-- RECONF_FREEZE_END (R82 phase 3): the read of the tables begins with the setup that the book holds. -/
def State.freezeEnd (s : State) (p r : Nat) : State :=
  let g := s.region p r
  match g.run with
  | some l =>
    if s.phaseOver g .freeze then
      s.nextPhase p r fun x => { x with phase := .tables, staged := s.book.find? fun b => b.part == p && b.region == r && b.setup == l.lane.setup }
    else s
  | none => s

/-- RECONF_TABLES_END (R82 phase 4, R500). -/
def State.tablesEnd (s : State) (p r : Nat) : State :=
  let g := s.region p r
  match g.load with
  | some l =>
    if s.phaseOver g .tables then
      match l.staged with
      | none => s.loadFail p r Code.setupMissing
      | some b => s.nextPhase p r fun x => { x with phase := .check, tab := Tables.read (SetupHdr.read b.tables) b.tables }
    else s
  | none => s

/-- Steered channels that the other regions of a partition hold (R52, R87): those of the setup that is loading once its check
has passed, else those of the resident one (log entry 114). -/
def State.steeredOthers (s : State) (p r : Nat) : Nat :=
  ((s.regionsOf p).filter fun x => x.1 != r).foldl (fun n x => n + x.2.steered) 0

/-- RECONF_CHECK_END (R82 phase 5, R500). -/
def State.checkEnd (s : State) (p r : Nat) : State :=
  let g := s.region p r
  match g.load with
  | some l =>
    if s.phaseOver g .check then
      match l.staged with
      | none => s
      | some b =>
        let code := checkTables (s.pview p) g.rect b.tables (s.steeredOthers p r) Code.ok Code.setupFormat Code.steerLimit
        if code = Code.ok then
          let left := (List.range 4).map fun d =>
            cdiv ((b.sects.filter fun y => dieOfCore y.1 == d).foldl (fun n y => n + y.2.length) 0) 512
          s.nextPhase p r fun x => { x with phase := .sections, left := left }
        else s.loadFail p r code
    else s
  | none => s

/-- BOOK_SECTION_UNIT: the book port of a die serves 512 bytes to the next region in turn (R83), from the cycle after the end of
the region's phase 5 on (R82). -/
def State.bookUnit (s : State) (d : Nat) : State :=
  let want := ((List.range 8).flatMap fun p => (s.regionsOf p).filterMap fun x =>
    match x.2.load with
    | some l => if l.phase = .sections ∧ l.since < s.now ∧ 0 < nth 0 l.left d then some (x.2.seq, p, x.1) else none
    | none => none)
  let last := nth 0 s.lastSeq d
  let key := fun (q : Nat) => if last < q then q else q + 256
  match (sortBy (fun (a b : Nat × Nat × Nat) => decide (key a.1 < key b.1)) want).head? with
  | none => s
  | some (q, p, r) =>
    if s.now < nth 0 s.bookAt d then s
    else
      let s := { s with lastSeq := putAt s.lastSeq d q, bookAt := putAt s.bookAt d (s.now + 1) }
      s.modRegion p r fun g => { g with load := g.load.map fun l => { l with left := modAt l.left d (· - 1) } }

/-- CHECK_UNAVAILABLE for each array without a check column that a STREAM with CHK = 1 names (R136). -/
def State.checkEvents (s : State) (p r : Nat) (sects : List (Nat × List Byte)) : State :=
  sects.foldl (fun s x =>
    let t := Sect.read x.2
    let named := fun (a : Nat) => t.acts.any fun e =>
      let at_ := fun (i : Nat) => match t.mats[nth 0 e i - 1]? with
        | some m => nth 0 e i != 0 && m.op == 2 && m.chk && (m.pair || i == a)
        | none => false
      at_ 0 || at_ 1
    [0, 1].foldl (fun s a => if named a && !(s.core x.1).hasCheck a then
        s.event p Code.checkUnavailable { Ev.none with region := r, file := fileOf x.1, rank := rankOf x.1, arg0 := a } else s) s) s

/-- RECONF_SECTIONS_END (R82 phase 6, R85, R256, R500). Of several causes, SETUP_FORMAT stands before ACCUM_CAPACITY, and that
before QUEUE_RESIDUE (log entry 105). -/
def State.sectionsEnd (s : State) (p r : Nat) : State :=
  let g := s.region p r
  match g.load with
  | some l =>
    if l.phase = .sections ∧ l.left.all (· == 0) then
      match l.staged with
      | none => s
      | some b =>
        if !sectionsOk (s.pview p) g.rect l.tab b.sects then s.loadFail p r Code.setupFormat
        else if !sectionsFit b.sects then s.loadFail p r Code.accumCapacity
        else if !(b.sects.all fun x => residueOk (s.core x.1) (Sect.read x.2)) then s.loadFail p r Code.queueResidue
        else (s.nextPhase p r fun x => { x with phase := .registers }).checkEvents p r b.sects
    else s
  | none => s

/-- The flag initialisation of a core at a load (R62, R233, R267). -/
def State.initFlags (s : State) (c : Nat) (t : Sect) : State :=
  (List.range 64).foldl (fun s i => match t.flagInit i with
    | some v => s.setCoreFlag c i ⟨v, 1, none, 0, 0⟩
    | none => s) s

/-- RECONF_REGISTERS_END (R82 phase 7). -/
def State.registersEnd (s : State) (p r : Nat) : State :=
  let g := s.region p r
  match g.load, g.run with
  | some l, some lr =>
    if s.phaseOver g .registers then
      match l.staged with
      | none => s
      | some b =>
        let s := b.sects.foldl (fun s x => let t := Sect.read x.2; (s.modCore x.1 fun c => c.loaded t).initFlags x.1 t) s
        let s := s.modRegion p r fun g => { g with tab := l.tab, setup := lr.lane.setup, steer := l.tab.steer.map fun _ => SteerCh.zero,
                                                   slots := [], gpos := Pos.zero, xpos := Pos.zero, press := [] }
        s.nextPhase p r fun x => { x with phase := .release }
    else s
  | _, _ => s

/-- The slot of a gate as the release restores it (R80, R82 phase 8, R263). -/
def State.slotOf (s : State) (p : Nat) (g : Region) (d : GateD) : Slot :=
  let c := s.core (g.slotCore d)
  let n :=
    if d.kind = 5 then b2n ((c.flag d.chan).val != d.out)
    else if d.kind = 6 then b2n (((s.part p).cflag d.chan).val != d.out)
    else if d.out then (c.route d.chan).credit
    else (c.queue d.chan).ents.length
  ⟨n, []⟩

/-- The queues of a core at the release (R82 phase 8, R249): remembered BINDs that the words name are answered, and every
bound queue grants what it owes. -/
def State.releaseQueues (s : State) (c : Nat) : State :=
  (List.range 16).foldl (fun s q =>
    let k := (s.core c).queue q
    match k.rem.filter fun x => k.w.names x with
    | x :: rest => s.answerBind c q ((x :: rest).getLastD x)
    | [] =>
      match k.bound with
      | some x => if k.w.names x then s.returnCredits c q (k.w.depth - k.occ - k.cred)
                  else s.modCore c fun d => d.setQueue q { k with bound := none }
      | none => s) s

/-- RECONF_RELEASE (R82 phase 8), then steps 2 to 4 of the lane start (R74). The first tempo may be granted in the next cycle. -/
def State.reconfRelease (s : State) (p r : Nat) : State :=
  let g := s.region p r
  match g.run with
  | some lr =>
    if s.phaseOver g .release then
      let s := s.modRegion p r fun g => { g with state := .ready, load := none, run := none, tau := 0, hold := 0, hmax := 0, gcyc := s.now + 1 }
      let s := g.rect.cores.foldl (fun s c => s.applyHeld c) s
      let s := g.rect.cores.foldl (fun s c => s.releaseQueues c) s
      let s := s.modRegion p r fun g => { g with slots := g.tab.gates.map fun d => s.slotOf p g d }
      let s := g.rect.cores.foldl (fun s c => s.pressure c) s
      s.laneSteps p r lr.lane
    else s
  | none => s

end Sys2Proof.Machine
end

