-- ==== Sys2Proof/Machine/TempoRun.lean ====
section
/-!
DEFINITION. An executed tempo over the state: the cores of a region start their actions and advance their units at once
(R63, R76-R78), what leaves each core is placed (R130, R132, R194, R240, R247, R249, R251), and a failure fails the job (R96).
Also the single actions that one core starts, and the drain of a region that executes no more tempos (R82, R114).
-/

namespace Sys2Proof

/-- Rows or hand-off values that a STREAM has taken in so far; before its first tempo nothing is written (R131, R132). -/
def SRun.got (r : SRun) (waiting lanes : Nat) : Nat := waiting + (if r.tiles.isEmpty then 0 else lanes * r.written)

/-- The first STREAM of a list that `want` picks, changed. -/
def modFirst (want : SRun → Bool) (f : SRun → SRun) : List SRun → List SRun
  | [] => []
  | r :: l => if want r then f r :: l else r :: modFirst want f l

/-- A row driven on the rank line reaches the STREAM of the core that belongs to the driver's gang: the one that the same
step started, `t` tempos ago (R129, R130). -/
def Core.takeRow (c : Core) (t : Nat) (row : RowIn) : Core :=
  let want := fun (r : SRun) => r.i.src == 1 && r.t == t && decide (r.got r.rows.length 1 < r.i.nrows)
  { c with streams := modFirst want (fun r => { r with rows := r.rows ++ [row] }) c.streams }

/-- Hand-off values from the south reach the STREAM of the gang in the core (R132). -/
def Core.takeHin (c : Core) (t : Nat) (vs : List W32) : Core :=
  let want := fun (r : SRun) =>
    let lanes := (arrsOf r.arr).length
    r.i.hin && r.t == t && decide (r.got r.hin.length lanes < r.i.nrows * lanes)
  { c with streams := modFirst want (fun r => { r with hin := r.hin ++ [vs] }) c.streams }

/-- The route writes of a tempo in the order of R194, in one list. -/
def TC.sends (x : TC) : List (Nat × Cargo) :=
  (sortBy (fun (a b : Nat × Nat × Cargo) => decide (a.1 < b.1)) x.outs).map fun o => o.2

/-- Entries that the tempo took from a queue (R249): DELIVER and PAIR take from it too, TOKGEN places into it. -/
def TC.taken (x : TC) (q : Nat) : Nat :=
  let k := x.core0.queue q
  let put := if k.w.skind = 5 then (x.placed.filter (· == q)).length else 0
  k.occ + (x.core.queue q).late x.now + put - (x.core.queue q).occ

/-- The side of a router that faces a neighbouring core. -/
def portTo (g : Grade) (c d : Nat) : Nat :=
  match [RPort.north, .east, .south, .west].find? fun p => neighbour g c p == some d with
  | some p => p.num
  | none => 4

/-- True while a region executes no more tempos and its units finish what they began (R82 phase 2, R95, R114). -/
def Region.draining (g : Region) : Bool :=
  g.granted.isEmpty && (g.stopping || (match g.load with | some l => l.phase == .drain | none => false)
    || (match g.run with | some l => l.done && g.load.isNone | none => false))

/-- HOLD and the state of a region at the end of a cycle (R53, R270). -/
def Region.cycleEnd (g : Region) (now : Nat) : Region :=
  match g.run with
  | none => g
  | some _ =>
    if g.load.isSome then g
    else
      let hold := if g.gcyc = now + 1 then 0 else satAt 0xFFFFFFFF (g.hold + 1)
      { g with hold := hold, hmax := max g.hmax hold, state := if g.state = .running ∧ g.xcyc ≠ now + 1 then .held else g.state }

end Sys2Proof

namespace Sys2Proof.Machine

/-- The context of a core's tempo. -/
def State.tc (s : State) (c : Nat) (g : Region) (pc : Nat) (lc : List Nat) (mem0 mem : Memory) (steer : List SteerCh) (free : Nat)
    (ups : List Adder) : TC :=
  { grade := s.grade, id := c, pc := pc, lc := lc, tau := g.tau, core0 := (s.core c).view0 s.now, mem0 := mem0, core := s.core c, mem := mem,
    accs := [], deqs := [], fail := none, outs := [], north := [], line := [], ring := [], events := [], ops := [], steer := steer,
    placed := [], rte := none, now := s.now, upsets := ups, areads := [], awrites := [], free := free, curs := [],
    clash := [], banned := [] }

/-- The cores of a region in a tempo: each acts on the state at its start; memories, free values and steered channels are
threaded. -/
def State.runAll (s : State) (g : Region) (cores : List Nat) (pc : Nat) (lc : List Nat) (ups : List Adder) (act : TC → TC) : List TC :=
  (cores.foldl (fun (acc : List TC × Memory × List SteerCh × Nat) c =>
    let x := act (s.tc c g pc lc s.mem acc.2.1 acc.2.2.1 acc.2.2.2 ups)
    (acc.1 ++ [x], x.mem, x.steer, x.free)) ([], s.mem, g.steer, s.free)).1

/-- What a core's tempo leaves in the core, and its queues' credits (R247, R249, R251). -/
def State.commitCore (s : State) (x : TC) : State :=
  let c := x.sends.foldl (fun (c : Core) o => c.pushOut o.1 o.2) x.core
  let s := s.setCore x.id c
  let s := match x.rte with | some i => s.loadRoutes x.id (nth 0 (nth [] c.sect.rtes i)) | none => s
  let s := (List.range 16).foldl (fun s q =>
    let n := x.taken q
    let s := if n = 0 then s else s.returnCredits x.id q n
    let k := (s.core x.id).queue q
    if n ≠ 0 ∧ k.occ = 0 then s.modCore x.id fun d => d.setQueue q { k with sawEmpty := true } else s) s
  let s := (x.placed.eraseDups).foldl (fun s q =>
    s.slotSeen x.id (fun d => decide (d.kind < 5) && !d.out && d.chan == q) ((x.placed.filter (· == q)).length)) s
  s.pressure x.id

/-- What a core's tempo sends beyond its routes: rows, hand-offs, rotation units, flag operations, events. -/
def State.commitOut (s : State) (p r : Nat) (g : Region) (cores : List Nat) (x : TC) : State :=
  let s := x.line.foldl (fun s l =>
    (cores.filter fun d => rankOf d == rankOf x.id && dieOfCore d == dieOfCore x.id).foldl (fun s d => s.modCore d fun k => k.takeRow l.1 l.2) s) s
  let s := x.north.foldl (fun s l => if cores.contains (x.id + 64) then s.modCore (x.id + 64) fun k => k.takeHin l.1 l.2 else s) s
  let s := match x.core.rot with
    | none => s
    | some d =>
      let nx := ringNext (g.rect.ring d.rdir) x.id
      x.ring.foldl (fun s u =>
        let s := s.modCore nx fun k => { k with rotIn := k.rotIn ++ [u] }
        s.modRouter x.id fun k => { k with freeAt := modAt k.freeAt (portTo s.grade x.id nx) fun t => max t (s.now + 2) }) s
  let s := x.ops.foldl (fun s o =>
    let op := { o.2.2 with region := r }
    match o.1 with
    | some c => if op.src = 4 ∨ op.src = 5 then s.setCoreFlag c o.2.1 op
                else { s with mesh := { s.mesh with ops := s.mesh.ops ++ [⟨p, some c, o.2.1, op⟩] } }
    | none => { s with mesh := { s.mesh with ops := s.mesh.ops ++ [⟨p, none, o.2.1, op⟩] } }) s
  x.events.foldl (fun s e => s.event p e.1
    { Ev.none with region := r, file := fileOf x.id, rank := rankOf x.id, arg0 := e.2.1, arg1 := e.2.2 }) s

/-- Damage that a core's accesses met (R468-R471): its counts; true when a read was beyond correction. -/
def State.coreReads (s : State) (x : TC) : State × Bool :=
  if s.dmg.isEmpty then (s, false)
  else
    let base := windowBase x.id
    let pieces := fun (w : Bool) => (x.accs.filter fun a => decide (a.eng < 4) && a.write == w).flatMap fun a => a.pieces.map fun p => (base + 16 * p, 16)
    let reads := (pieces false ++ x.areads.map fun a => (a, 64)).eraseDups
    let es := reads.map fun a => s.readErrors a.1 a.2
    let corr := (es.map (·.1)).sum
    let unc := (es.map (·.2)).sum
    let s := (pieces true ++ x.awrites.map fun a => (a, 64)).foldl (fun (s : State) (a : Nat × Nat) => s.mend a.1 a.2) s
    ((s.coreCorrected x.id corr).coreUncorrectable x.id unc, unc != 0)

/-- The failure of a tempo (R63, R96): of several, the first in the order of the fields; between cores that fail alike a
free choice (log entry 9). Order, code, core. -/
def State.tempoFail (s : State) (fs : List (Nat × Nat × Nat)) : State × Option (Nat × Nat) :=
  match fs with
  | [] => (s, none)
  | f :: _ =>
    let o := (fs.map (·.1)).foldl min f.1
    let l := fs.filter fun y => y.1 == o
    match l with
    | [y] => (s, some y.2)
    | _ =>
      let (s, n) := s.fresh
      (s, (l[n % l.length]?).map fun y => y.2)

/-- Commits the tempo of a set of cores of region `r` of partition `p`. -/
def State.commit (s : State) (p r : Nat) (cores : List Nat) (xs : List TC) (bad : List Nat) : State :=
  match xs.getLast? with
  | none => s
  | some z =>
    let g := s.region p r
    let s := ({ s with mem := z.mem, free := z.free }).modRegion p r fun g => { g with steer := z.steer }
    let s := xs.foldl State.commitCore s
    let s := xs.foldl (fun s x => s.commitOut p r g cores x) s
    let (s, unc) := xs.foldl (fun (acc : State × List Nat) x =>
      let y := acc.1.coreReads x
      (y.1, if y.2 then acc.2 ++ [x.id] else acc.2)) (s, bad)
    let fs := (xs.filterMap fun x => x.fail.map fun f => (f.1, f.2, x.id)) ++ unc.map fun c => (7, Code.uncorrectableData, c)
    let (s, f) := s.tempoFail fs
    let s := (xs.filter fun x => x.events.any fun e => e.1 == Code.checkColumnMismatch).foldl (fun s x => s.coreFailure x.id 0) s
    match f with
    | none => s
    | some (code, c) => s.failJob p code (some r) (some c)

/-- TEMPO_EXECUTE (R76-R78): the oldest granted tempo of a region, with the upsets that reach it. -/
def State.tempoExecute (s : State) (p r : Nat) (us : List Upset) : State :=
  let g := s.region p r
  match g.granted with
  | [] => s
  | t :: rest =>
    if t.at_ + g.latency ≤ s.now ∧ g.xcyc ≤ s.now then
      let s := s.damages us
      let cores := g.rect.cores
      let step := (g.tab.entry t.pc).step
      let xs := s.runAll g cores t.pc g.xpos.lc (sumUpsets us) fun x => (if t.first then x.startActions step else x).units
      let bad := us.filterMap fun u => match u with
        | .parity c => if cores.contains c then some c else none
        | .queue c n => if cores.contains c ∧ 1 < n then some c else none
        | _ => none
      let mended := us.filterMap fun u => match u with | .queue c 1 => if cores.contains c then some c else none | _ => none
      let s := s.modRegion p r fun g =>
        let pos := { g.xpos with cld := if t.first then t.cld else g.xpos.cld }
        { g with granted := rest, xpos := pos.advance g.tab, xcyc := s.now + 1, tau := g.tau + 1,
                 state := if g.state = .held then .running else g.state }
      let s := mended.foldl (fun s c => s.coreCorrected c 1) s
      let s := bad.foldl (fun s c => s.coreUncorrectable c 1) s
      s.commit p r cores xs bad
    else s

/-- One core starts an action in the tempo that its region executes (R63). -/
def State.startOne (s : State) (c : Nat) (act : TC → TC) : State :=
  match (s.core c).owner with
  | none => s
  | some (p, r) =>
    let g := s.region p r
    s.commit p r g.rect.cores (s.runAll g [c] g.xpos.pc g.xpos.lc [] act) []

/-- The units of a draining region take one step (log entry 10). -/
def State.drainTick (s : State) (p r : Nat) : State :=
  let g := s.region p r
  if g.draining ∧ ¬ s.unitsIdle g then
    let xs := s.runAll g g.rect.cores g.xpos.pc g.xpos.lc [] TC.units
    (s.modRegion p r fun g => { g with xcyc := s.now + 1, tau := g.tau + 1 }).commit p r g.rect.cores xs []
  else s

end Sys2Proof.Machine
end

