-- ==== Sys2Proof/Machine/Mesh.lean ====
section
/-!
DEFINITION. The mesh: output stores, routers and links (R249-R253, R472), arrivals at cores (R245, R257), credits (R250),
flag operations (R84, R253, R260-R262).
-/

namespace Sys2Proof

/-- The output port that a flit takes at a router (R252): file first unless ORDER = 1; at its core the local port, the side
that faces the edge unit, or the vertical port. -/
def outPort (c : Nat) (d : Dst) : Nat :=
  let fx := if fileOf c < fileOf d.core then some 1 else if fileOf d.core < fileOf c then some 3 else none
  let kx := if rankOf c < rankOf d.core then some 0 else if rankOf d.core < rankOf c then some 2 else none
  let first := if d.rankFirst then kx else fx
  let second := if d.rankFirst then fx else kx
  match first, second with
  | some p, _ => p
  | none, some p => p
  | none, none =>
    if d.tgt = 2 then (if rankOf c = 0 then 2 else 0)
    else if d.tgt = 3 then (if fileOf c = 0 then 3 else 1)
    else if d.tgt = 4 then 5
    else 4

/-- The inputs in the order in which an output port looks at them (R252): after the one served last. -/
def inputOrder (last : Nat) : List Nat := (List.range 6).map fun i => (last + 1 + i) % 6

/-- The first flit at an input that waits for an output port. -/
def waiting (c port now : Nat) (l : List Flit) : Option (Nat × Flit) :=
  findAt (fun f => outPort c f.dst == port && decide (f.ready ≤ now)) l

/-- True for a port that faces an edge unit or the memory die: it is 1,024 bits wide and carries two flits in a cycle, where a
mesh link carries one (R30, R32, R36). -/
def widePort (g : Grade) (c port : Nat) : Bool := port != 4 && (neighbour g c (RPort.ofNum port)).isNone

/-- True while a port of free time `t` takes a flit in cycle `now`. -/
def portFree (wide : Bool) (t now : Nat) : Bool := if wide then decide (t < 2 * (now + 1)) else decide (t ≤ now)

/-- The free time of a port that took a flit in cycle `now`. -/
def portNext (wide : Bool) (t now : Nat) : Nat := if wide then max t (2 * now) + 1 else now + 1

/-- True where a flit that enters from outside the mesh finds room at its input in cycle `now` (R30, R32). -/
def Router.room (x : Router) (port now : Nat) : Bool := portFree true (nth 0 x.inAt port) now

/-- The flits of an input with one more: no flit overtakes another that came before it over the same link (R252). -/
def pushFlit (l : List Flit) (f : Flit) : List Flit :=
  l ++ [match l.getLast? with | some e => { f with ready := max f.ready e.ready } | none => f]

/-- The cargo of a store item as it leaves: an UNBIND carries the unused credits of its binding (R249). -/
def OutE.leaving (o : OutE) (x : Route) : Cargo :=
  match o.cargo with
  | .unbind _ => .unbind (x.credits o.ep)
  | k => k

/-- An UNBIND that carries back `n` further credits: those that had not reached the route when it left (R249). -/
def Cargo.plus (k : Cargo) (n : Nat) : Cargo :=
  match k with
  | .unbind m => .unbind (m + n)
  | k => k

/-- True when a store item may leave: an entry needs a credit (R250), control flits and flag operations need none. -/
def OutE.free_ (o : OutE) (x : Route) : Bool :=
  match o.cargo with
  | .entry _ => decide (0 < x.credits o.ep)
  | _ => true

/-- True for two store items that lead to one queue or input. -/
def OutE.sameEnd (o u : OutE) : Bool := o.dst.core == u.dst.core && o.dst.tgt == u.dst.tgt && o.dst.chan == u.dst.chan

/-- The item of a route that leaves next (R249, R250, R251; log entry 97): the oldest that may leave and has no earlier item of
the route with the same destination before it. What waits for credit on a binding that a new route word has replaced holds back
neither the BIND nor the entries of the new one. -/
def Core.nextOut (c : Core) (r : Nat) : Option (Nat × OutE) :=
  let l := c.out.zip (List.range c.out.length)
  (l.find? fun x => x.1.route == r && x.1.free_ (c.route r)
    && !(l.any fun y => decide (y.2 < x.2) && y.1.route == r && y.1.sameEnd x.1)).map fun x => (x.2, x.1)

/-- The route after an item has left. -/
def OutE.after (o : OutE) (x : Route) : Route :=
  match o.cargo with
  | .entry _ => x.modCredits o.ep (· - 1)
  | .unbind _ => { x with olds := x.olds.filter fun e => e.1 != o.ep }
  | _ => x

end Sys2Proof

namespace Sys2Proof.Machine

/-- True while a core emits no flit: from the end of the drain of its region's load or stop to the release of a load, so in IDLE
and QUARANTINED too (R82 phase 3, R84, R86, R95; log entry 115). -/
def State.shutOut (s : State) (c : Nat) : Bool :=
  match (s.core c).owner with
  | none => false
  | some (p, r) =>
    let g := s.region p r
    g.state == .quarantined || g.state == .idle || (g.stopping && g.froze) || (g.state == .loading && (match g.load with | some l => l.phase != .drain | none => true))

/-- Number of the current job of a partition; 0 without one. -/
def State.jobId (s : State) (p : Nat) : Nat := match (s.part p).job with | some j => j.id | none => 0

/-- A flit enters a router: from its core, from a link, or from outside the mesh, where it takes up the port's width. -/
def State.inject (s : State) (c port : Nat) (f : Flit) : State :=
  s.modRouter c fun x => { x with
    inq := modAt x.inq port fun l => pushFlit l f,
    inAt := if widePort s.grade c port then modAt x.inAt port fun t => portNext true t s.now else x.inAt }

/-- True while the dual-clock queue of a die bridge into the input of a router is full: it holds its producer (R40, R41). Its depth
is left open (log entry 120). -/
def State.crossFull (s : State) (c d side : Nat) : Bool :=
  dieOfCore c != dieOfCore d && decide (Config.bridgeDepth + 1 ≤ (nth [] (s.router d).inq side).length)

/-- OUTPUT_STORE_SEND: an item of a route leaves the store (R250, R251). -/
def State.storeSend (s : State) (c r : Nat) : State :=
  let k := s.core c
  match k.nextOut r with
  | none => s
  | some (i, o) =>
    if s.shutOut c then s
    else
      let x := k.route r
      let p := match k.owner with | some (p, _) => p | none => 0
      let (s, back) := match o.cargo with | .unbind _ => s.recall (routeSrc c r o.ep) | _ => (s, 0)
      let s := s.setCore c ({ k with out := dropAt k.out i }.setRoute r (o.after x))
      (s.inject c 4 ⟨routeSrc c r o.ep, o.dst, (o.leaving x).plus back, s.now, p, s.jobId p⟩).pressure c

/-- MESH_LINK_FAULT and the failure of a partition's job that has a flit on a failed link (R472). -/
def State.linkFault (s : State) (c : Nat) (f : Flit) : State :=
  let e : Ev := { Ev.none with file := fileOf c, rank := rankOf c }
  let s := s.event 0 Code.meshLinkFault e
  let s := if f.part = 0 then s else s.event f.part Code.meshLinkFault e
  if s.jobId f.part = f.job then s.failJob f.part Code.uncorrectableData none (some c) else s

/-- FLIT_FORWARD: an output port of a router forwards one flit (R252, R34), unless the crossing it leads to holds it (R41). -/
def State.flitForward (s : State) (c port : Nat) : State :=
  let x := s.router c
  let wide := widePort s.grade c port
  if !portFree wide (nth 0 x.freeAt port) s.now then s
  else
    match (inputOrder (nth 5 x.last port)).findSome? fun i => (waiting c port s.now (nth [] x.inq i)).map fun w => (i, w.1, w.2) with
    | none => s
    | some (i, n, f) =>
      let take := fun (x : Router) => { x with inq := modAt x.inq i fun l => dropAt l n, last := putAt x.last port i,
                                               freeAt := putAt x.freeAt port (portNext wide (nth 0 x.freeAt port) s.now) }
      match neighbour s.grade c (RPort.ofNum port) with
      | some d =>
        let side := (RPort.ofNum port).facing.num
        if nth false (s.router d).dead side then s.linkFault d f
        else if s.crossFull c d side then s
        else
          let (s, extra) := if dieOfCore c = dieOfCore d then (s, 0) else (let y := s.fresh; (y.1, 10 + y.2 % 5))
          let s := s.modRouter c take
          s.inject d side { f with ready := s.now + 2 + extra }
      | none =>
        let s := s.modRouter c take
        let f := { f with ready := if i = 4 then s.now + 2 else s.now }
        if port = 4 then s.modRouter c fun x => { x with arrL := x.arrL ++ [f] }
        else if port = 5 then s.modRouter c fun x => { x with arrV := x.arrV ++ [f] }
        else s.modRouter c fun x => { x with arrE := x.arrE ++ [f] }

/-- The oldest flit that a core's local port holds and may take in. -/
def State.localFront (s : State) (c : Nat) : Option Flit :=
  match (s.router c).arrL with
  | f :: _ => if f.ready ≤ s.now then some f else none
  | [] => none

/-- The flit taken in goes. -/
def State.localTaken (s : State) (c : Nat) : State := s.modRouter c fun x => { x with arrL := x.arrL.drop 1 }

/-- ENTRY_ARRIVAL (R245, R257). -/
def State.entryArrival (s : State) (c : Nat) : State :=
  match s.localFront c with
  | some f => match f.cargo with
    | .entry e => (s.localTaken c).enterQueue c f.dst.chan f.src e
    | _ => s
  | none => s

/-- A flag operation reaches a core flag: it waits at a core whose borders are frozen, at most 8 of them (R84), or takes
effect. False when there is no room for it. -/
def State.flagReaches (s : State) (c i : Nat) (o : FlagOp) : State × Bool :=
  if s.flagsFrozen c then
    if 8 ≤ (s.core c).heldOps.length then (s, false)
    else (s.modCore c fun d => { d with heldOps := d.heldOps ++ [(i, o, s.now)] }, true)
  else (s.setCoreFlag c i o, true)

/-- FLAG_OP_ARRIVE of an operation sent along a route (R253), or of operation `n` on its way otherwise (R261, R262). A parity error on the
chip flag network loses the operation and fails the job of the partition that holds the flag (R468). -/
def State.flagArrive (s : State) (viaMesh : Bool) (c n : Nat) (us : List Upset) : State :=
  if viaMesh then
    match s.localFront c with
    | some f => match f.cargo with
      | .flag i o =>
        let o := { o with region := match (s.core f.src.core).owner with | some (_, r) => r | none => 0 }
        let y := s.flagReaches c i o
        if y.2 then y.1.localTaken c else s
      | _ => s
    | none => s
  else
    match s.mesh.ops[n]? with
    | none => s
    | some m =>
      let gone := fun (s : State) => { s with mesh := { s.mesh with ops := dropAt s.mesh.ops n } }
      match m.core with
      | none => if us.contains .flagNet then (gone s).failJob m.part Code.uncorrectableData none none else (gone s).setChipFlag m.part m.flag m.op
      | some d =>
        let y := s.flagReaches d m.flag m.op
        if y.2 then gone y.1 else s

/-- LINK_REPLAY: the receiver of a core's input port had the last flit there replayed; `ok` tells whether the replay was
good. After 8 failures in succession the link is failed (R472, R473). -/
def State.linkReplay (s : State) (c port : Nat) (ok : Bool) : State :=
  let x := s.router c
  match (nth [] x.inq port).getLast? with
  | none => s
  | some f =>
    let n := (nth [] x.inq port).length - 1
    let late := fun (x : Router) => { x with inq := modAt x.inq port fun l => modAt l n fun f => { f with ready := f.ready + 8 } }
    if ok then s.modRouter c fun x => { late x with replays := putAt x.replays port 0 }
    else
      let k := nth 0 x.replays port + 1
      let s := s.modRouter c fun x => { late x with replays := putAt x.replays port k, dead := if 8 ≤ k then putAt x.dead port true else x.dead }
      if k = 8 then (s.linkFault c f).retireCandidate c Code.meshLinkFault else s

end Sys2Proof.Machine
end

