-- ==== Sys2Proof/Machine/Attachments.lean ====
section
/-!
DEFINITION. Shared-memory attachments: stream requests, and the entries that they read and write (R32, R229-R231).
-/

namespace Sys2Proof

/-- A stream request entry (R229). -/
def SmReq.read (src : Src) (part job : Nat) (e : Entry) : SmReq :=
  ⟨src, part, job, bit (fld e 1 1) 4, bits (fld e 2 1) 3 0, fld e 4 6, fld e 10 2, bits (fld e 12 4) 23 0, false⟩

/-- The request after one entry. -/
def SmReq.step (q : SmReq) : SmReq := { q with addr := q.addr + q.stride, left := q.left - 1 }

/-- Requests that wait take free contexts in arrival order (R231). -/
def Attach.fill (a : Attach) : Attach :=
  let n := 8 - a.ctxs.length
  { a with ctxs := a.ctxs ++ a.wait.take n, wait := a.wait.drop n }

/-- The attachment after an entry of context `i`: an ended stream frees its context. -/
def Attach.advance (a : Attach) (i : Nat) (q : SmReq) : Attach :=
  if q.left = 0 then ({ a with ctxs := dropAt a.ctxs i }).fill else { a with ctxs := putAt a.ctxs i q }

/-- True for a stream that takes an entry of route `x`, sent in job `job`, as data: a failed one takes what its own job sent
(R230; log entry 121). -/
def SmReq.takes (q : SmReq) (x : Src) (job : Nat) : Bool := q.write && q.src == x && (!q.dead || q.job == job)

/-- True when a write stream of a route is in progress or waits: the route's next entry is data (R230). -/
def Attach.wants (a : Attach) (x : Src) (job : Nat) : Bool := (a.ctxs ++ a.wait).any fun q => q.takes x job

/-- The attachment without the failed streams of a route, whose job sends no more. -/
def Attach.buried (a : Attach) (x : Src) : Attach :=
  ({ a with ctxs := a.ctxs.filter fun q => !(q.dead && q.src == x), wait := a.wait.filter fun q => !(q.dead && q.src == x) }).fill

/-- The attachment after context `i` failed at an entry: a write stream takes in the entries that are left (R230). -/
def Attach.failed (a : Attach) (i : Nat) (q : SmReq) : Attach :=
  if q.write ∧ q.left ≠ 0 then { a with ctxs := putAt a.ctxs i { q with dead := true } } else ({ a with ctxs := dropAt a.ctxs i }).fill

end Sys2Proof

namespace Sys2Proof.Machine

/-- The oldest flit at the vertical port. -/
def State.vertFront (s : State) (c : Nat) : Option Flit :=
  match (s.router c).arrV with
  | f :: _ => if f.ready ≤ s.now then some f else none
  | [] => none

/-- An entry taken in at the vertical port: its route gets a credit back. -/
def State.vertTaken (s : State) (c : Nat) (x : Src) : State :=
  (s.modRouter c fun r => { r with arrV := r.arrV.drop 1 }).sendCredit x 1

/-- The device address of a stream's next entry: in the partition's view, and in the memory of the attachment's own die, to which
the memory die carries it (R32, R230; log entry 119). -/
def State.streamAddr (s : State) (c : Nat) (q : SmReq) : Option Nat :=
  match place s.grade q.addr with
  | .shared d _ => if d = dieOfCore c ∧ s.sharedIn q.part q.addr 64 then s.sharedAddr q.part q.addr else none
  | _ => none

/-- The failure of a stream whose address lies outside the view (R230): charged to the requesting core's region. -/
def State.streamFail (s : State) (q : SmReq) (code : Nat) : State :=
  match (s.core q.src.core).owner with
  | some (p, r) => if p = q.part ∧ s.jobId p = q.job then s.failJob p code (some r) (some q.src.core) else s
  | none => s

/-- An agent binds to a queue that it will deliver to: a BIND leaves on its side of the router (R249). -/
def agentBind (outs : List AgentOut) (kind agent c q : Nat) (part job : Nat) (now : Nat) : List AgentOut × Option Flit :=
  match outOf outs c q with
  | some (i, o) =>
    if o.bound then (outs, none)
    else (putAt outs i { o with bound := true, credit := 0, ep := o.ep + 1 }, some ⟨agentSrc kind agent c q (o.ep + 1), ⟨c, 1, q, false⟩, .bind, now, part, job⟩)
  | none => (outs ++ [⟨c, q, 0, true, 0⟩], some ⟨agentSrc kind agent c q 0, ⟨c, 1, q, false⟩, .bind, now, part, job⟩)

/-- STREAM_REQUEST (R230, R231): a request is taken into a context, or waits for one; one with no entry ends at once. -/
def State.streamRequest (s : State) (c : Nat) : State :=
  match s.vertFront c with
  | some f => match f.cargo with
    | .entry e =>
      if (s.att c).wants f.src f.job then s
      else
        let q := SmReq.read f.src f.part f.job e
        let s := (s.vertTaken c f.src).modAtt c fun a => a.buried f.src
        if q.left = 0 then s
        else if (s.streamAddr c q).isNone then
          (if q.write then s.modAtt c fun a => ({ a with wait := a.wait ++ [{ q with dead := true }] }).fill else s).streamFail q Code.streamAddress
        else
          let s := s.modAtt c fun a => ({ a with wait := a.wait ++ [q] }).fill
          if q.write then s
          else
            let (outs, fl) := agentBind (s.att c).outs 4 c f.src.core q.dchan f.part f.job s.now
            let s := s.modAtt c fun a => { a with outs := outs }
            match fl with
            | some b => s.inject c 5 b
            | none => s
    | _ => s
  | none => s

/-- SM_READ_ENTRY: the read stream in context `i` returns its next entry when its return route has credit (R230, R231, R471). -/
def State.smRead (s : State) (c i : Nat) : State :=
  match (s.att c).ctxs[i]? with
  | none => s
  | some q =>
    if q.write then s
    else
      match outOf (s.att c).outs q.src.core q.dchan with
      | none => s
      | some (n, o) =>
        if o.credit = 0 ∨ ¬ o.bound ∨ ¬ (s.router c).room 5 s.now then s
        else
          match s.streamAddr c q with
          | none => (s.modAtt c fun a => a.failed i q).streamFail q Code.streamAddress
          | some a =>
            let (corr, unc) := s.readErrors a 64
            let data := s.mem.read a 64
            let s := s.dieErrors (dieOfCore c) corr unc
            let s := s.modAtt c fun x => ({ x with outs := putAt x.outs n { o with credit := o.credit - 1 } }).advance i q.step
            let s := s.inject c 5 ⟨agentSrc 4 c q.src.core q.dchan o.ep, ⟨q.src.core, 1, q.dchan, false⟩, .entry data, s.now, q.part, q.job⟩
            if unc = 0 then s else s.streamFail q Code.uncorrectableData

/-- STREAM_WRITE_ENTRY: the oldest entry at the port is the next one of its route's write stream (R230). No entry at or after a
failing one is written. -/
def State.smWrite (s : State) (c : Nat) : State :=
  match s.vertFront c with
  | some f => match f.cargo with
    | .entry e =>
      match findAt (fun (q : SmReq) => q.takes f.src f.job) (s.att c).ctxs with
      | none => s
      | some (i, q) =>
        let s := s.vertTaken c f.src
        if q.dead then s.modAtt c fun x => x.advance i { q with left := q.left - 1 }
        else match s.streamAddr c q with
        | none => (s.modAtt c fun a => a.failed i { q with left := q.left - 1 }).streamFail q Code.streamAddress
        | some a =>
          let s := { s with mem := s.mem.write a (padTo 64 e) }.mend a 64
          s.modAtt c fun x => x.advance i q.step
    | _ => s
  | none => s

end Sys2Proof.Machine
end

