-- ==== Sys2Proof/Machine/Stalemate.lean ====
section
/-!
DEFINITION. The watchdog, stalemate and its snapshot (R270-R277), the scoresheet (R278-R281), chip flag writes (R264, R269),
and the head latch of a queue (R268).
-/

namespace Sys2Proof

/-- A held unit as a snapshot records it (R276), with the region that must act to release it (R277). -/
structure Held where
  file : Nat
  rank : Nat
  region : Nat
  kind : Nat
  index : Nat
  wait : Nat
  pc : Nat
  pfile : Nat
  prank : Nat
  pindex : Nat
  pkind : Nat
  next : Option Nat
deriving DecidableEq, Repr

/-- The record of a held unit (R276). -/
def Held.bytes (h : Held) (hold : Nat) : List Byte :=
  natLe 1 h.file ++ natLe 1 h.rank ++ natLe 1 h.region ++ natLe 1 h.kind ++ natLe 1 h.index ++ natLe 1 h.wait ++ natLe 2 h.pc
    ++ natLe 1 h.pfile ++ natLe 1 h.prank ++ natLe 1 h.pindex ++ natLe 1 h.pkind ++ natLe 4 hold

/-- A queue record (R275). -/
def Queue.record (q : Queue) (c region n : Nat) : List Byte :=
  natLe 1 (fileOf c) ++ natLe 1 (rankOf c) ++ natLe 1 n ++ natLe 1 region ++ natLe 2 q.occ ++ natLe 2 q.w.depth ++ natLe 2 q.cred
    ++ natLe 1 (q.w.skind + 8 * b2n q.bound.isSome) ++ natLe 1 q.w.sfile ++ natLe 1 q.w.srank ++ natLe 1 q.w.sroute ++ natLe 2 0
    ++ padTo 64 (q.ents ++ q.raw).flatten

/-- The wait cycle (R277): from the first held unit of a region on, until a region repeats; true when one does. -/
def waitChain (first : Nat → Option Held) : Nat → List Held → Nat → List Held × Bool
  | 0, acc, _ => (acc, false)
  | fuel + 1, acc, r =>
    if acc.any fun h => h.region == r then (acc.dropWhile fun h => h.region != r, true)
    else match first r with
      | none => (acc, false)
      | some h => match h.next with
        | none => (acc ++ [h], false)
        | some n => waitChain first fuel (acc ++ [h]) n

/-- The scoresheet's ring in bytes (R278). -/
def Sheet.ring (t : Sheet) : Nat := t.size * 4096

/-- The enabled selections of a scoresheet: number and register value (R278). -/
def Sheet.chosen (t : Sheet) : List (Nat × Nat) :=
  ((List.range 48).map fun n => (n, t.sel.get 0 n)).filter fun x => bit x.2 16

/-- The core and the queue of a selection (R278). -/
def selCore (v : Nat) : Nat := coreId (bits v 5 0) (bits v 11 6)
def selQueue (v : Nat) : Nat := bits v 15 12

/-- Bytes between TAIL and HEAD; the whole ring where it is full. -/
def Sheet.used (t : Sheet) : Nat :=
  if t.ring = 0 then 0 else if t.full then t.ring else (t.head + t.ring - t.tail % t.ring) % t.ring

/-- The scoresheet after a write to TAIL: a full ring stays full where TAIL does not move (R278, R279). -/
def Sheet.setTail (t : Sheet) (v : Nat) : Sheet := { t with tail := v, full := t.full && v == t.tail }

end Sys2Proof

namespace Sys2Proof.Machine

/-- The region of a core in a partition. -/
def State.regionOfCore (s : State) (p c : Nat) : Option Nat :=
  match (s.core c).owner with
  | some (q, r) => if q = p then some r else none
  | none => none

/-- The peer that a queue word names: file, rank, route, PKIND, the region that must act (R276, R277). -/
def State.queuePeer (s : State) (p c : Nat) (w : QWord) : Nat × Nat × Nat × Nat × Option Nat :=
  if w.skind = 5 then (fileOf c, rankOf c, 0, 0, s.regionOfCore p c)
  else (w.sfile, w.srank, w.sroute, w.skind - 1, if w.skind = 1 then s.regionOfCore p (coreId w.sfile w.srank) else none)

/-- The wait code of what waits for credit on binding `ep` of a route to `d` (R249, R276). -/
def State.routeWait (s : State) (x : Route) (ep : Nat) (d : Dst) : Nat :=
  if d.tgt = 1 ∧ s.isLoading d.core then 7 else if ep = x.ep ∧ x.st = 1 then 6 else 1

/-- The region that a chip flag waits for (R277). -/
def State.flagRegion (s : State) (p i : Nat) : Option Nat :=
  let f := (s.part p).cflag i
  if 1 ≤ f.src ∧ f.src ≤ 4 then some f.region else none

/-- The held gated slots of a region (R276). -/
def State.heldSlots (s : State) (p r : Nat) : List Held :=
  let g := s.region p r
  if g.run.isNone ∨ g.load.isSome then []
  else (g.starved s.now (g.tab.entry g.gpos.pc)).map fun i =>
    let d := nth GateD.zero g.tab.gates i
    let c := g.slotCore d
    let mk := fun (f k w pf pk pi kd : Nat) (n : Option Nat) => (⟨f, k, r, 0, i, w, g.gpos.pc, pf, pk, pi, kd, n⟩ : Held)
    if d.kind = 6 then mk g.rect.f0 g.rect.k0 3 0 0 d.chan 4 (s.flagRegion p d.chan)
    else if d.kind = 5 then
      let f := (s.core c).flag d.chan
      let sig := if f.src = 2 ∨ f.src = 3 then f.core else none
      let o := sig.getD c
      mk (fileOf c) (rankOf c) 2 (fileOf o) (rankOf o) d.chan 0 (sig.bind fun x => s.regionOfCore p x)
    else if d.out then
      let x := (s.core c).route d.chan
      let w := RWord.read x.word
      mk (fileOf c) (rankOf c) (s.routeWait x x.ep w.dst) w.dfile w.drank w.dchan (if d.kind = 2 then 5 else w.tgt - 1)
        (if w.tgt = 1 then s.regionOfCore p w.core else none)
    else
      let (pf, pk, pi, kd, n) := s.queuePeer p c ((s.core c).queue d.chan).w
      mk (fileOf c) (rankOf c) 0 pf pk pi (if d.kind = 2 then 5 else kd) n

/-- The held routes, steering sides and waiting flag operations of a core (R276). -/
def State.heldCore (s : State) (p r pc c : Nat) : List Held :=
  let k := s.core c
  let g := s.region p r
  let mk := fun (u i w pf pk pi kd : Nat) (n : Option Nat) => (⟨fileOf c, rankOf c, r, u, i, w, pc, pf, pk, pi, kd, n⟩ : Held)
  ((List.range 16).filterMap fun i =>
    match if (k.nextOut i).isSome then none else k.out.find? fun o => o.route == i && !o.free_ (k.route i) with
    | some o => some (mk 1 i (s.routeWait (k.route i) o.ep o.dst) (fileOf o.dst.core) (rankOf o.dst.core) o.dst.chan (o.dst.tgt - 1)
        (if o.dst.tgt = 1 then s.regionOfCore p o.dst.core else none))
    | none => none)
  ++ k.pairs.filterMap (fun q =>
    let side := fun (chan w : Nat) =>
      let (pf, pk, pi, kd, n) := s.queuePeer p c (k.queue chan).w
      some (mk 2 q.a.slot w pf pk pi kd n)
    if (nth SteerCh.zero g.steer q.a.slot).stopped then side q.a.tchan 5
    else if 0 < q.left ∧ q.dat.isEmpty then side q.a.dchan 0
    else if q.left = 0 ∧ q.tok.isEmpty ∧ ¬ q.dat.isEmpty then side q.a.tchan 0
    else none)
  ++ k.heldOps.map fun o =>
    let x := o.2.1.core.getD c
    mk 5 o.1 7 (fileOf x) (rankOf x) o.1 0 (s.regionOfCore p c)

/-- The stack deliveries that requests of a region wait for without credit (R289): UNIT 1, INDEX 16, the edge core, and the
destination queue as the peer. -/
def State.heldDeliveries (s : State) (p r pc : Nat) : List Held :=
  s.agents.flatMap fun a => (a.2.reqs.zip (List.range a.2.reqs.length)).filterMap fun x =>
    let q := x.1
    let before := a.2.reqs.take x.2
    let turn := q.undelivered && (q.data.isSome || (q.d.op != 2 && q.nextAddr.isSome)) && !q.blocked before
      && !(before.any fun b => b.d.core == q.d.core && b.d.dq == q.d.dq && b.undelivered && (b.data.isSome || b.d.op != 2))
    match outOf a.2.outs q.d.core q.d.dq with
    | some (_, o) =>
      if turn && o.credit == 0 && s.regionOfCore p q.src.core == some r then
        let w := if s.isLoading q.d.core then 7
          else if ((s.core q.d.core).queue q.d.dq).bound = some (agentSrc 2 a.1 q.d.core q.d.dq o.ep) then 1 else 6
        some ⟨fileOf a.1, rankOf a.1, r, 1, 16, w, pc, fileOf q.d.core, rankOf q.d.core, q.d.dq, 0, s.regionOfCore p q.d.core⟩
      else none
    | none => none

/-- The held units of a region in the order of the model's choice (log entry 31): slots, cores, deliveries, count queue, lane. -/
def State.heldUnits (s : State) (p r : Nat) : List Held :=
  let g := s.region p r
  let e := g.tab.entry g.gpos.pc
  let d := nth (⟨0, 0, 0⟩ : SteerD) g.tab.steer e.cslot
  let mk := fun (u i w pf pk pi kd : Nat) (n : Option Nat) => (⟨g.rect.f0, g.rect.k0, r, u, i, w, g.gpos.pc, pf, pk, pi, kd, n⟩ : Held)
  s.heldSlots p r ++ (g.rect.cores.flatMap fun c => s.heldCore p r g.gpos.pc c) ++ s.heldDeliveries p r g.gpos.pc
    ++ (if g.run.isSome ∧ g.load.isNone ∧ g.noCount then [mk 3 e.cslot 4 (g.rect.f0 + d.file) (g.rect.k0 + d.rank) e.cslot 0 (some r)] else [])
    ++ (match g.run with
        | some l => if l.fwait then [mk 4 0 3 0 0 (bits l.lane.fwait 7 0) 4 (s.flagRegion p (bits l.lane.fwait 7 0))] else []
        | none => [])

/-- The snapshot (R274-R277): its bytes and whether it is truncated to `cap` bytes. -/
def State.snapshot (s : State) (p : Nat) (x : Stale) (job seq cap : Nat) : List Byte × Bool :=
  let rs := match (s.part p).job with | some j => sortBy (fun (a b : Nat) => decide (a < b)) j.regions | none => []
  let hold := fun (r : Nat) => match x.holds.find? fun h => h.1 == r with | some h => h.2 | none => 0
  let qs := rs.flatMap fun r => (s.region p r).rect.cores.flatMap fun c => (List.range 16).filterMap fun q =>
    let k := (s.core c).queue q
    if k.w.depth = 0 then none else some (k.record c r q)
  let hs := rs.flatMap fun r => s.heldUnits p r
  let (cyc, found) := waitChain (fun r => if rs.contains r then (s.heldUnits p r).head? else none) 257 [] x.region
  let cyc := cyc.take 64
  -- records are left out from the end, but queue records go before a wait-cycle record does
  let most := if cyc.isEmpty then (cap - 64 - 80 * min qs.length ((cap - 64) / 80)) / 16 else (cap - 64) / 16
  let nhc := min (hs.length + cyc.length) most
  let nh := min hs.length nhc
  let nc := nhc - nh
  let nq := min qs.length ((cap - 64 - 16 * nhc) / 80)
  let trunc := decide (nq < qs.length) || decide (nhc < hs.length + cyc.length)
  let body := (qs.take nq).flatten ++ ((hs.take nh) ++ (cyc.take nc)).flatMap fun h => h.bytes (hold h.region)
  let hdr := natLe 2 Code.stalemate ++ natLe 2 job ++ natLe 1 x.region ++ natLe 1 (b2n found + 2 * b2n trunc) ++ natLe 2 nq ++ natLe 2 nh
    ++ natLe 1 nc ++ natLe 1 x.log2 ++ natLe 2 seq ++ natLe 2 0 ++ natLe 8 x.tdet ++ natLe 8 s.now ++ natLe 4 (64 + body.length) ++ zeros 28
  (hdr ++ body, trunc)

/-- True when a region's HOLD has reached the watchdog limit (R271, R272). -/
def State.expired (s : State) (p r : Nat) : Bool :=
  let g := s.region p r
  g.run.isSome && g.load.isNone && decide (2 ^ (s.part p).watch.limit s.now ≤ g.hold)

/-- STALEMATE (R272): charged to the lowest region that reached the limit; nothing of the job is granted any more. -/
def State.staleMate (s : State) (p r : Nat) : State :=
  match (s.part p).job with
  | none => s
  | some j =>
    if j.fail.isNone ∧ j.regions.contains r ∧ s.expired p r ∧ ¬ j.regions.any fun q => decide (q < r) && s.expired p q then
      s.modPart p fun x => { x with
        job := some { j with fail := some (Code.stalemate, some r, none), snap := true },
        stale := some ⟨r, s.now, x.watch.limit s.now, j.regions.map fun q => (q, (s.region p q).hold)⟩ }
    else s

/-- STALEMATE_SNAPSHOT_DONE (R272, R273): the snapshot is written, or counted under MISSED, and the job stops. -/
def State.snapshotDone (s : State) (p : Nat) : State :=
  match (s.part p).stale, (s.part p).job with
  | some x, some j =>
    let w := (s.part p).watch
    let s := if w.size ≠ 0 ∧ ¬ w.valid then
        let seq := (w.seq + 1) % 65536
        let y := s.snapshot p x j.id seq (w.size * 4096)
        (s.viewWrite p w.base y.1).modPart p fun z => { z with watch := { z.watch with valid := true, trunc := y.2, seq := seq } }
      else s.modPart p fun z => { z with watch := { z.watch with missed := satAt 255 (z.watch.missed + 1) } }
    let s := (s.modPart p fun z => { z with stale := none }).event p Code.stalemate { Ev.none with region := x.region, job := j.id }
    (s.modJob p fun j => { j with snap := false }).stopJob p
  | _, _ => s

/-- A write to PART_WDOG (R271): the new limit applies from the next cycle. -/
def State.writeWdog (s : State) (p v : Nat) : State × Nat :=
  let n := bits v 4 0
  if 12 ≤ n ∧ n ≤ 30 then (s.modPart p fun x => { x with watch := { x.watch with log2 := n, old := x.watch.limit s.now, newAt := s.now + 1 } }, Code.ok) else (s, Code.badArgument)

/-- A write to PART_SNAPSTAT (R273): 1 to VALID acknowledges the snapshot. -/
def State.writeSnapStat (s : State) (p v : Nat) : State × Nat :=
  (if bit v 0 then s.modPart p fun x => { x with watch := { x.watch with valid := false, trunc := false, missed := 0 } } else s, Code.ok)

/-- A write to PART_CFOP (R264, R269). -/
def State.writeCfop (s : State) (p v : Nat) : State × Nat :=
  let f := bits v 7 0
  if f < (s.part p).allot s.grade then (s.setChipFlag p f ⟨!bit v 8, 5, none, 0, 0⟩, Code.ok) else (s, Code.badArgument)

/-- A write to PART_SSCTL (R278, R281). -/
def State.writeSsCtl (s : State) (p v : Nat) : State × Nat :=
  let t := (s.part p).sheet
  let en := bit v 0
  let per := bits v 5 1
  if en then
    if t.chosen.isEmpty ∨ per < 6 ∨ 24 < per ∨ ¬ s.sharedIn p t.base t.ring then (s, Code.badArgument)
    else (s.modPart p fun x => { x with
      sheet := { t with en := true, period := per, head := 0, tail := 0, lost := 0, hist := [], seq := 0, dropping := false, since := s.now, full := false } }, Code.ok)
  else (s.modPart p fun x => { x with sheet := { t with en := false, period := per } }, Code.ok)

/-- SCORESHEET_SAMPLE (R279, R280). -/
def State.sheetSample (s : State) (p : Nat) : State :=
  let t := (s.part p).sheet
  if t.en ∧ t.since + 2 ^ t.period ≤ s.now then
    let sel := t.chosen
    let q := fun (x : Nat × Nat) => (s.core (selCore x.2)).queue (selQueue x.2)
    let size := if sel.length ≤ 24 then 64 else 128
    let occs := sel.flatMap fun x => natLe 2 ((q x).occ + 2 ^ 14 * b2n (q x).sawEmpty + 2 ^ 15 * b2n (q x).sawFull)
    let data := padTo size (natLe 8 s.now ++ natLe 4 t.seq ++ natLe 1 sel.length ++ natLe 1 (b2n t.dropping) ++ natLe 2 0 ++ occs)
    let hist := sel.foldl (fun h x =>
      let k := 16 * x.1 + min 15 ((q x).occ / 16)
      SMap.set 0 h k (satAt 0xFFFFFFFF (h.get 0 k + 1))) t.hist
    let s' := sel.foldl (fun s x => s.modCore (selCore x.2) fun c =>
      let k := c.queue (selQueue x.2)
      c.setQueue (selQueue x.2) { k with sawEmpty := k.occ == 0, sawFull := decide (k.w.depth ≤ k.occ) }) s
    let t' := { t with hist := hist, seq := (t.seq + 1) % 4294967296, since := s.now }
    if t.used + size ≤ t.ring then
      (s'.viewWrite p (t.base + t.head) data).modPart p fun x =>
        { x with sheet := { t' with head := (t.head + size) % t.ring, dropping := false, full := t.used + size == t.ring } }
    else
      let s' := s'.modPart p fun x => { x with sheet := { t' with lost := satAt 0xFFFFFFFF (t.lost + 1), dropping := true } }
      if t.dropping then s' else s'.event p Code.scoresheetLost Ev.none
  else s

/-- QHEAD_LATCH: a read of CORE_QHEAD0 (R268). -/
def State.qheadLatch (s : State) (c : Nat) : State :=
  s.modCore c fun d =>
    match ((d.queue d.qsel).ents ++ (d.queue d.qsel).raw).head? with
    | some e => { d with qempty := false, qhead := e }
    | none => { d with qempty := true, qhead := [] }

end Sys2Proof.Machine
end

