-- ==== Sys2Proof/Machine/Stacks.lean ====
section
/-!
DEFINITION. Haldob stacks: accesses with their errors (R298-R306, R477), edge agents and DMA descriptors (R285-R297), refresh,
scrub and sparing.
-/

namespace Sys2Proof

/-- The field rules of R290-R292. -/
def DmaDesc.wellFormed (d : DmaDesc) : Bool :=
  d.clean && d.addr % 64 == 0 && d.rowb % 64 == 0 && d.stride % 64 == 0 && decide (64 ≤ d.rowb) && decide (1 ≤ d.nrow) &&
  (if d.op = 3 then decide (d.rowb ≤ 4096) && decide (d.nrow ≤ 65536)
   else (d.op == 1 || d.op == 2) && decide (d.rowb ≤ 2 ^ 30) && decide (d.nrow ≤ 2 ^ 24) && decide (d.entries ≤ 2 ^ 24)
     && (d.op == 1 || d.nrow == 1 || decide (d.rowb ≤ d.stride)))

/-- Data or index entries that follow a descriptor on its route (R291, R292). -/
def DmaDesc.follows (d : DmaDesc) : Nat := if d.op = 2 then d.entries else if d.op = 3 then cdiv d.nrow 16 else 0

/-- True when a route's next entry on the descriptor input is data or an index of a request already taken (R291, R292). -/
def EdgeAgent.owed (a : EdgeAgent) (x : Src) : Bool :=
  a.drains.any (fun d => d.src == x && d.kind != 1) || a.reqs.any fun q => q.src == x && q.data.isNone && decide (0 < q.left)

/-- The first flit at an agent's input that satisfies `p` and that no earlier flit of its route precedes. -/
def firstOf (input : Nat) (p : Flit → Bool) (now : Nat) (l : List Flit) : Option (Nat × Flit) :=
  let l' := l.zip (List.range l.length)
  (l'.find? fun f => f.1.dst.chan == input && (match f.1.cargo with | .entry _ => true | _ => false) && decide (f.1.ready ≤ now)
      && !(l'.any fun g => decide (g.2 < f.2) && g.1.src == f.1.src) && p f.1).map fun f => (f.2, f.1)

/-- The bytes of a flit's entry. -/
def Flit.entry (f : Flit) : Entry := match f.cargo with | .entry e => e | _ => []

/-- One entry less to discard. -/
def EdgeAgent.drained (a : EdgeAgent) (i : Nat) (d : Drain) : EdgeAgent :=
  { a with drains := if d.left ≤ 1 then dropAt a.drains i else putAt a.drains i { d with left := d.left - 1 } }

/-- The stack of an edge core. -/
def stackAt (c : Nat) : Nat := (if rankOf c = 0 then 0 else 4) + fileOf c / 16

/-- Spare rows used of a bank. -/
def Stack.used (t : Stack) (bank : Nat) : Nat := t.spares.get 0 bank

/-- A row that meets the sparing rule waits for its copy, when its bank has a spare left (R304, R477). -/
def Stack.spare (t : Stack) (row : Nat) : Stack :=
  if t.used (row / 65536) < 16 ∧ ¬ t.copying.contains row then { t with copying := t.copying ++ [row] } else t

/-- STATE of HSTK_INFO (R315). -/
def Stack.state (t : Stack) : Nat := if t.clearing.isSome then 1 else if t.copying ≠ [] then 2 else 0

/-- The interval of the refresh in nanoseconds (R302). -/
def Stack.refreshNs (k : Stack) : Nat := if k.hot then 1950 else 3900

/-- Bytes that external accesses may move in one window of 1 µs (R44, R298, R315). -/
def Stack.winFull (k : Stack) : Nat := k.cap * 100000

/-- Bytes of the present window that are taken; `clock` cycles are 1 µs. What one command takes beyond a window is taken from the
windows that follow. -/
def Stack.winUsed (k : Stack) (clock now : Nat) : Nat := k.winBytes - (now - k.winAt) / max 1 clock * k.winFull

/-- True when the window has room, and no request that came earlier still asks (R45, R298, log entry 123). -/
def Stack.serves (k : Stack) (w : Client) (clock now : Nat) : Bool :=
  decide (k.winUsed clock now + 64 ≤ k.winFull) && (k.line.takeWhile fun x => x.1 != w).all fun x => decide (x.2 + 1 < now)

/-- A request takes its place in line, or asks again. -/
def Stack.await (k : Stack) (w : Client) (now : Nat) : Stack :=
  if k.line.any fun x => x.1 == w then { k with line := k.line.map fun x => if x.1 = w then (w, now) else x }
  else { k with line := (k.line.filter fun x => decide (now ≤ x.2 + 1)) ++ [(w, now)] }

/-- A request is served. -/
def Stack.served (k : Stack) (w : Client) : Stack := { k with line := k.line.filter fun x => x.1 != w }

/-- A match command and query entries aside, what a request names: the queue it delivers to. A WRITE names none (R288, R290). -/
def EReq.names (r : EReq) (o : AgentOut) : Bool := (r.data.isSome || r.d.op != 2) && r.d.core == o.core && r.d.dq == o.queue

/-- The bound queue that has gone longest without a request in progress (R288). -/
def EdgeAgent.idlest (a : EdgeAgent) : Option (Nat × AgentOut) := findAt (fun o => o.bound && !(a.reqs.any fun r => r.names o)) a.outs

/-- True when the agent can bind queue `q` of core `c`: fewer than 64 are bound, or one can be unbound (R288). -/
def EdgeAgent.mayBind (a : EdgeAgent) (c q : Nat) : Bool :=
  (match outOf a.outs c q with | some (_, o) => o.bound | none => false) || decide ((a.outs.filter (·.bound)).length < 64) || a.idlest.isSome

end Sys2Proof

namespace Sys2Proof.Machine

/-- The partition that holds a stack, if one does. -/
def State.stackHolder (s : State) (t : Nat) : Option Nat := (List.range 8).find? fun p => (s.part p).grant.stks.contains t

/-- An event to the partition that holds a stack. -/
def State.stackEvent (s : State) (t code a0 : Nat) : State :=
  match s.stackHolder t with
  | some p => s.event p code { Ev.none with stack := t, arg0 := a0 }
  | none => s

/-- True when `n` bytes from an address lie in a partition's view of stack `t` (R293, R421). -/
def State.stackIn (s : State) (p t a n : Nat) : Bool :=
  (s.part p).grant.stks.contains t && (s.stack t).clearing.isNone && decide (stackBase t ≤ a) && decide (a + n ≤ stackBase t + stackBytes)

/-- True when the logic die takes an access of `w` to a codeword now: the window of 1 µs has room, no earlier request waits (R44,
R45, R298), and the row is not being copied (R304). -/
def State.stackRoom (s : State) (w : Client) (a : Nat) : Bool :=
  let t := s.stack (a / stackBytes)
  t.serves w s.clock s.now && t.copying.head? != some (rowNum (a % stackBytes))

/-- An external access to a codeword counts (R298, R320). -/
def State.stackCount (s : State) (a : Nat) : State :=
  s.modStack (a / stackBytes) fun k =>
    { k with traffic := (k.traffic + 1) % 2 ^ 64, winAt := s.now - (s.now - k.winAt) % max 1 s.clock, winBytes := k.winUsed s.clock s.now + 64,
             clash := k.clash + b2n (k.copying.head? == some (rowNum (a % stackBytes))) }

/-- The stacks that what leads from `s` to `t` accesses. -/
def State.usedStacks (s t : State) : List Nat := (List.range 8).filter fun i => (t.stack i).traffic != (s.stack i).traffic

/-- True when every stack that client `w` accesses on the way from `s` to `t` has room, no earlier request waits there, and no row met
is being copied (R45, R298, R304). -/
def State.roomFor (s : State) (w : Client) (t : State) : Bool :=
  (s.usedStacks t).all fun i => (s.stack i).serves w s.clock s.now && (t.stack i).clash == (s.stack i).clash

/-- `t`, the client being out of every line that it stood in. -/
def State.through (s : State) (w : Client) (t : State) : State := (s.usedStacks t).foldl (fun u i => u.modStack i fun k => k.served w) t

/-- `s`, the client having its place in line at every stack that it wants to access. -/
def State.inLine (s : State) (w : Client) (t : State) : State := (s.usedStacks t).foldl (fun u i => u.modStack i fun k => k.await w s.now) s

/-- What client `w` does with the stacks: `t` is `s` after it. Where a stack that it uses has no room for it, or an earlier request
waits there, or it meets a row that is being copied, nothing of it happens yet and it takes its place in line (R45, R298, R304). -/
def State.paced (s : State) (w : Client) (t : State) : State := if s.roomFor w t then s.through w t else s.inLine w t

/-- A corrected read of a codeword (R301, R305, R477). -/
def State.stackCorrected (s : State) (a : Nat) : State :=
  let t := a / stackBytes
  let w := wordOf a
  let k := s.stack t
  let row := rowNum (a % stackBytes)
  let times := (k.times.filter fun x => decide (s.now < x + s.hours 1)) ++ [s.now]
  let seen := if k.seen.contains w then k.seen else k.seen ++ [w]
  let many := decide (8 ≤ (seen.filter fun x => rowNum (x % stackBytes) == row).length)
  let k := { k with corr := satAt 0xFFFFFFFF (k.corr + 1), times := times, seen := seen,
                    wback := if k.wback.contains w ∨ 64 ≤ k.wback.length then k.wback else k.wback ++ [w] }
  let k := if many || k.written.contains w then k.spare row else k
  let tell := decide (4096 < times.length) && (match k.rateAt with | some x => decide (x + s.hours 1 ≤ s.now) | none => true)
  let s := s.modStack t fun _ => if tell then { k with rateAt := some s.now } else k
  if tell then s.stackEvent t Code.correctedRate 0 else s

/-- An uncorrectable read of a codeword by source `src` of HSTK_ERRLOG (R301, R318, R477). -/
def State.stackUncorrectable (s : State) (a src : Nat) : State :=
  s.modStack (a / stackBytes) fun k =>
    let row := rowNum (a % stackBytes)
    { k with unc := satAt 0xFFFF (k.unc + 1), errlog := if k.errlog.valid then k.errlog else ⟨true, src, a % stackBytes / 64⟩,
             uncRows := if k.uncRows.contains row then k.uncRows else k.uncRows ++ [row] }

/-- Reads a codeword (R300, R301): the state, the data, true when it was beyond correction. -/
def State.stackRead (s : State) (a src : Nat) : State × Entry × Bool :=
  let e := s.readErrors a 64
  let data := s.mem.read a 64
  if e.2 ≠ 0 then (s.stackUncorrectable a src, zeros 64, true)
  else if e.1 ≠ 0 then (s.stackCorrected a, data, false)
  else (s, data, false)

/-- Writes a codeword (R285, R301, R303, R477). -/
def State.stackWrite (s : State) (a : Nat) (e : Entry) : State :=
  let t := a / stackBytes
  let row := rowNum (a % stackBytes)
  let s := { s with mem := s.mem.write a (padTo 64 e) }.mend a 64
  s.modStack t fun k =>
    let k := { k with wback := k.wback.filter (· != a) }
    if k.uncRows.contains row then { k with uncRows := k.uncRows.filter (· != row) }.spare row else k

/-- A failure charged to the region of an issuing core (R96, R293, R301). -/
def State.coreJobFail (s : State) (c part job code : Nat) : State :=
  match (s.core c).owner with
  | some (p, r) => if p = part ∧ s.jobId p = job then s.failJob p code (some r) (some c) else s
  | none => s

/-- A flit leaves the agent's inputs, and its route gets a credit back (R287). -/
def State.edgeTaken (s : State) (c n : Nat) (x : Src) : State :=
  (s.modRouter c fun r => { r with arrE := dropAt r.arrE n }).sendCredit x 1

/-- The agent binds to a queue that a request names; a 65th binding displaces the one longest without a request in progress, and
waits while every bound queue has one (R288; log entry 139). -/
def State.edgeBind (s : State) (kind c d q part job : Nat) : State :=
  let a := s.agent c
  let bound := match outOf a.outs d q with | some (_, o) => o.bound | none => false
  if bound || !a.mayBind d q then s
  else
    let s :=
      if 64 ≤ (a.outs.filter (·.bound)).length then
        match a.idlest with
        | some (i, o) =>
          (s.modAgent c fun a => { a with outs := putAt a.outs i { o with bound := false, credit := 0 } }).inject c (outPort c ⟨c, kind, 0, false⟩)
            ⟨agentSrc kind c o.core o.queue o.ep, ⟨o.core, 1, o.queue, false⟩, .unbind o.credit, s.now, part, job⟩
        | none => s
      else s
    let (outs, fl) := agentBind (s.agent c).outs kind c d q part job s.now
    let s := s.modAgent c fun a => { a with outs := outs }
    match fl with
    | some f => s.inject c (outPort c ⟨c, kind, 0, false⟩) f
    | none => s

/-- What follows a request on its route is taken in and discarded (R293, R297). -/
def State.swallow (s : State) (c : Nat) (f : Flit) (kind left : Nat) : State :=
  if left = 0 then s else s.modAgent c fun a => { a with drains := a.drains ++ [⟨f.src, kind, left⟩] }

/-- True while the job that sent a flit goes on: from its failure or abort no request of it starts (R297). -/
def State.jobGoes (s : State) (f : Flit) : Bool :=
  match (s.part f.part).job with
  | some j => j.id == f.job && !j.stopping
  | none => false

/-- A request is refused: it fails the job of the issuing core, and what follows it on its route is discarded (R293, R297). -/
def State.refuse (s : State) (c : Nat) (f : Flit) (kind left code : Nat) : State :=
  (s.swallow c f kind left).coreJobFail f.src.core f.part f.job code

/-- The check of a descriptor (R293): the code that refuses it, or OK. -/
def State.descCode (s : State) (p t : Nat) (d : DmaDesc) : Nat :=
  if !d.wellFormed then Code.stackDescFormat
  else if (d.op != 3 && !s.stackIn p t d.addr ((d.nrow - 1) * d.stride + d.rowb))
    || ((d.op != 2 || d.flag) && !(s.pview p).grants d.dfile d.drank) then Code.stackAddress
  else Code.ok

/-- The next descriptor at an agent: the oldest entry on the descriptor input whose route owes no data (R294). -/
def State.nextDesc (s : State) (c : Nat) : Option (Nat × Flit) :=
  firstOf 0 (fun f => f.dst.tgt == 2 && !(s.agent c).owed f.src) s.now (s.router c).arrE

/-- An agent takes a descriptor whose OP satisfies `p` (R290-R294). One of a job that has failed or is aborted starts nothing: what
follows it is discarded (R297). -/
def State.takeDesc (s : State) (c : Nat) (p : Nat → Bool) : State :=
  match s.nextDesc c with
  | none => s
  | some (n, f) =>
    let d := DmaDesc.read f.entry
    if !p d.op then s
    else
      let goes := s.jobGoes f
      let s := s.edgeTaken c n f.src
      let code := s.descCode f.part (stackAt c) d
      if ¬ goes then s.swallow c f d.op d.follows
      else if code ≠ Code.ok then s.refuse c f d.op d.follows code
      else
        let s := s.modAgent c fun a => { a with reqs := a.reqs ++ [⟨f.src, f.part, f.job, d, [], d.follows, 0, none, false⟩] }
        if d.op = 2 then s else s.edgeBind 2 c d.core d.dq f.part f.job

/-- STACK_WRITE_DATA: the next data entry of a WRITE, or one to discard (R291, R297, R303). -/
def State.writeData (s : State) (c : Nat) : State :=
  let a := s.agent c
  let mine := fun (q : EReq) (x : Src) => q.src == x && q.data.isNone && q.d.op == 2 && decide (0 < q.left)
  match firstOf 0 (fun f => f.dst.tgt == 2 && (a.drains.any (fun d => d.src == f.src && d.kind == 2) || a.reqs.any fun q => mine q f.src)) s.now (s.router c).arrE with
  | none => s
  | some (n, f) =>
    match findAt (fun (d : Drain) => d.src == f.src && d.kind == 2) a.drains with
    | some (i, d) => (s.edgeTaken c n f.src).modAgent c fun a => a.drained i d
    | none =>
      match findAt (fun (q : EReq) => mine q f.src) a.reqs with
      | none => s
      | some (i, q) =>
        let at_ := q.d.entryAddr (q.d.entries - q.left)
        if s.stackRoom (.edge c) at_ then
          let s := ((s.edgeTaken c n f.src).stackCount at_).stackWrite at_ f.entry
          (s.modAgent c fun a => { a with reqs := putAt a.reqs i { q with left := q.left - 1 } }).modStack (stackAt c) fun k => k.served (.edge c)
        else s.modStack (stackAt c) fun k => k.await (.edge c) s.now

/-- GATHER_INDEX: an index entry is taken in and its indices are checked in order (R292, R293). -/
def State.gatherIndex (s : State) (c : Nat) : State :=
  let a := s.agent c
  let mine := fun (q : EReq) (x : Src) => q.src == x && q.data.isNone && q.d.op == 3 && decide (0 < q.left)
  match firstOf 0 (fun f => f.dst.tgt == 2 && (a.drains.any (fun d => d.src == f.src && d.kind == 3) || a.reqs.any fun q => mine q f.src)) s.now (s.router c).arrE with
  | none => s
  | some (n, f) =>
    match findAt (fun (d : Drain) => d.src == f.src && d.kind == 3) a.drains with
    | some (i, d) => (s.edgeTaken c n f.src).modAgent c fun a => a.drained i d
    | none =>
      match findAt (fun (q : EReq) => mine q f.src) a.reqs with
      | none => s
      | some (i, q) =>
        let s := s.edgeTaken c n f.src
        if q.bad then s.modAgent c fun a => { a with reqs := putAt a.reqs i { q with left := q.left - 1 } }
        else
          let given := 16 * (cdiv q.d.nrow 16 - q.left)
          let is := (List.range (min 16 (q.d.nrow - given))).map fun j => fld f.entry (4 * j) 4
          let good := is.takeWhile fun x => s.stackIn q.part (stackAt c) (q.d.addr + x * q.d.stride) q.d.rowb
          let q' := { q with left := q.left - 1, idx := q.idx ++ good, bad := decide (good.length < is.length) }
          let s := s.modAgent c fun a => { a with reqs := putAt a.reqs i q' }
          if q'.bad ∧ q'.idx.isEmpty then s.coreJobFail q.src.core q.part q.job Code.stackAddress else s

/-- True when request `i` of an agent may deliver now, but for the stack's room (R289, R294): the outward port of the edge router has
room for an entry (R30), and the queue a credit, or it can be bound. -/
def State.wouldDeliver (s : State) (c : Nat) (i : Nat) (q : EReq) : Bool :=
  let a := s.agent c
  let before := a.reqs.take i
  let now := a.sent.filter fun x => x.1 == s.now
  q.undelivered && (q.data.isSome || q.d.op != 2)
    && !(before.any fun b => b.d.core == q.d.core && b.d.dq == q.d.dq && b.undelivered && (b.data.isSome || b.d.op != 2))
    && !q.blocked before && decide (now.length < 2) && !(now.any fun x => x.2.1 == q.d.core && x.2.2 == q.d.dq)
    && (q.data.isSome || q.nextAddr.isSome) && (s.router c).room (outPort c ⟨c, 2, 0, false⟩) s.now
    && (match outOf a.outs q.d.core q.d.dq with
      | some (_, o) => if o.bound then decide (0 < o.credit) else a.mayBind q.d.core q.d.dq
      | none => a.mayBind q.d.core q.d.dq)

/-- True when request `i` of an agent may deliver now (R289, R294, R298, R304). -/
def State.mayDeliver (s : State) (c : Nat) (i : Nat) (q : EReq) : Bool :=
  s.wouldDeliver c i q && (q.data.isSome || (match q.nextAddr with | some x => s.stackRoom (.edge c) x | none => false))

/-- EDGE_DELIVERY: an agent delivers the next entry of its oldest request that can, or binds its queue first (R288, R289). Where
only the stack's room is missing, the agent takes its place in line there (R45, R298). -/
def State.edgeDelivery (s : State) (c : Nat) (us : List Upset) : State :=
  let s := s.damages us
  let rs := (s.agent c).reqs
  match (rs.zip (List.range rs.length)).find? fun x => s.mayDeliver c x.2 x.1 with
  | none =>
    if (rs.zip (List.range rs.length)).any fun x => s.wouldDeliver c x.2 x.1 then s.modStack (stackAt c) fun k => k.await (.edge c) s.now else s
  | some (q, i) =>
    match outOf (s.agent c).outs q.d.core q.d.dq with
    | none => s.edgeBind 2 c q.d.core q.d.dq q.part q.job
    | some (n, o) =>
      if !o.bound then s.edgeBind 2 c q.d.core q.d.dq q.part q.job
      else
        let put := fun (s : State) (e : Entry) (q' : EReq) =>
          (s.modAgent c fun a => { a with
            outs := putAt a.outs n { o with credit := o.credit - 1 }, reqs := putAt a.reqs i q',
            sent := (a.sent.filter fun x => x.1 == s.now) ++ [(s.now, q.d.core, q.d.dq)] }).inject c (outPort c ⟨c, 2, 0, false⟩)
              ⟨agentSrc 2 c q.d.core q.d.dq o.ep, ⟨q.d.core, 1, q.d.dq, false⟩, .entry e, s.now, q.part, q.job⟩
        match q.data with
        | some l => put s (nth [] l q.done) { q with done := q.done + 1 }
        | none =>
          match q.nextAddr with
          | none => s
          | some x =>
            let (s, e, unc) := ((s.modStack (stackAt c) fun k => k.served (.edge c)).stackCount x).stackRead x 0
            let fin := q.d.op == 3 && (q.done + 1) % max 1 q.d.words == 0
            let q' := { q with done := q.done + 1, idx := if fin then q.idx.drop 1 else q.idx }
            let s := put s e q'
            if unc then s.coreJobFail q.src.core q.part q.job Code.uncorrectableData
            else if q'.bad ∧ q'.idx.isEmpty then s.coreJobFail q.src.core q.part q.job Code.stackAddress else s

/-- Entries of a source that are still on the mesh. -/
def State.inFlight (s : State) (x : Src) : Nat :=
  (s.mesh.routers.map fun r => ((r.2.inq.flatten ++ r.2.arrL).filter fun f => f.src == x && (match f.cargo with | .entry _ => true | _ => false)).length).sum

/-- True when request `i` of an agent is complete (R295). -/
def State.reqDone (s : State) (c i : Nat) (q : EReq) : Bool :=
  if q.data.isNone ∧ q.d.op = 2 then q.left == 0
  else !q.undelivered && (match outOf (s.agent c).outs q.d.core q.d.dq with
    | some (_, o) =>
      let later := (((s.agent c).reqs.drop (i + 1)).filter fun r => r.d.core == q.d.core && r.d.dq == q.d.dq).map (·.done)
      decide (s.inFlight (agentSrc 2 c q.d.core q.d.dq o.ep) ≤ later.sum)
    | none => true)

/-- A flag set that an edge agent sends at completion (R295). -/
def State.edgeFlag (s : State) (c part core flg : Nat) : State :=
  { s with mesh := { s.mesh with ops := s.mesh.ops ++ [⟨part, some core, flg, ⟨true, 3, some c, 0, 0⟩⟩] } }

/-- STACK_REQUEST_COMPLETE: the oldest complete request of an agent ends (R288, R295, R312). -/
def State.requestDone (s : State) (c : Nat) : State :=
  let rs := (s.agent c).reqs
  match (rs.zip (List.range rs.length)).find? fun x => s.reqDone c x.2 x.1 with
  | none => s
  | some (q, i) =>
    let s := s.modAgent c fun a => { a with
      reqs := dropAt a.reqs i,
      outs := match findAt q.names a.outs with | some (n, o) => dropAt a.outs n ++ [o] | none => a.outs }
    let s := if q.data.isSome then s.modStack (stackAt c) fun k => { k with run := none, delivering := false } else s
    if q.d.flag then s.edgeFlag c q.part q.d.core q.d.flg else s

/-- REFRESH: when it is due, the next row of every bank is refreshed (R302); the interval is an average, so a refresh that comes late
does not move the next. -/
def State.refresh (s : State) (t : Nat) : State :=
  s.modStack t fun k =>
    if k.refDue ≤ 1000 * s.now then { k with refRow := (k.refRow + 1) % 65536, refDue := k.refDue + k.refreshNs * s.clock } else k

/-- A codeword is rewritten by the scrub (R301, R303, R477). -/
def State.writeBack (s : State) (a : Nat) : State :=
  (s.mend a 64).modStack (a / stackBytes) fun k =>
    { k with wback := k.wback.filter (· != a), written := if k.written.contains a then k.written else k.written ++ [a] }

/-- A read of the scrub or of a row copy (R301): source 1 or 3 of HSTK_ERRLOG. -/
def State.patrolRead (s : State) (a src : Nat) : State × Bool :=
  let e := s.readErrors a 64
  if e.2 ≠ 0 then ((s.stackUncorrectable a src).stackEvent (a / stackBytes) Code.scrubUncorrectable (a % stackBytes), false)
  else if e.1 ≠ 0 then (s.stackCorrected a, true)
  else (s, false)

/-- SCRUB_READ: the patrol scrub reads its next codeword, and rewrites it if it was corrected, and the oldest queued one (R301,
R303). A queued codeword that can no longer be corrected is an uncorrectable read of the scrub, and nothing is written back. -/
def State.scrubRead (s : State) (t : Nat) (us : List Upset) : State :=
  let s := s.damages us
  let s := match (s.stack t).wback with
    | a :: _ =>
      if (s.readErrors a 64).2 = 0 then s.writeBack a
      else (s.patrolRead a 1).1.modStack t fun k => { k with wback := k.wback.filter (· != a) }
    | [] => s
  let a := stackBase t + 64 * (s.stack t).scrubAt
  let (s, fixed) := s.patrolRead a 1
  let s := if fixed then s.writeBack a else s
  s.modStack t fun k =>
    if k.scrubAt + 1 = stackWords then { k with scrubAt := 0, passes := satAt 0x1FFFF (k.passes + 1), seen := [] }
    else { k with scrubAt := k.scrubAt + 1 }

/-- ROW_SPARED: the copy of the row in progress ends (R304, R477). -/
def State.rowSpared (s : State) (t : Nat) (us : List Upset) : State :=
  match (s.stack t).copying with
  | [] => s
  | row :: rest =>
    let s := s.damages us
    let hurt := s.dmg.filter fun e => e.1 / stackBytes == t && decide (e.1 < 8 * stackBytes) && rowNum (e.1 % stackBytes) == row
    let s := hurt.foldl (fun s e =>
      let y := s.patrolRead e.1 3
      if y.2 then y.1.writeBack e.1 else y.1) s
    let old := fun (a : Nat) => rowNum (a % stackBytes) != row
    let s := s.modStack t fun k => { k with
      copying := rest, moved := if k.moved.contains row then k.moved else k.moved ++ [row], seen := k.seen.filter old, written := k.written.filter old,
      spares := SMap.set 0 k.spares (row / 65536) (k.used (row / 65536) + 1) }
    s.stackEvent t Code.rowSpared row

end Sys2Proof.Machine
end

