-- ==== Sys2Proof/Machine/Match.lean ====
section
/-!
DEFINITION. Archive match: the checks of a command (R307, R308), its queue (R309), scores (R310), ranking (R311) and results
(R312), and the merge of several lists (R314).
-/

namespace Sys2Proof

/-- Bytes of an embedding, and of the codewords that hold it (R307, R309). -/
def MatchC.embBytes (c : MatchC) : Nat := c.dim * elemBits c.fmt / 8
def MatchC.embWords (c : MatchC) : Nat := cdiv c.embBytes 64

/-- Bytes of a result area (R312). -/
def MatchC.resultBytes (c : MatchC) : Nat := c.nq * 64 * (1 + cdiv c.k 4)

/-- True when `n` bytes from `r` meet a codeword of a scanned embedding or of the norm array (R308). -/
def MatchC.meets (c : MatchC) (r n : Nat) : Bool :=
  let w := 64 * c.embWords
  let i := if r < c.addr + w then 0 else (r - c.addr - w) / max 1 c.recb + 1
  (decide (i < c.nitem) && decide (c.addr + i * c.recb < r + n))
    || (c.metric == 1 && decide (r < c.naddr + 4 * c.nitem) && decide (c.naddr < r + n))

/-- The field rules of R307 and R308 but for the queries. -/
def MatchC.wellFormed (c : MatchC) : Bool :=
  c.op == 1 && decide (c.metric < 3) && c.clean && [1, 2, 3, 6, 7].contains c.fmt && decide (1 ≤ c.nq) && decide (c.nq ≤ 16)
    && decide (16 ≤ c.dim) && decide (c.dim ≤ 4096) && c.dim % 16 == 0 && decide (1 ≤ c.k) && decide (c.k ≤ 1024) && c.addr % 64 == 0
    && decide (1 ≤ c.nitem) && c.recb % 64 == 0 && decide (c.embBytes ≤ c.recb)
    && (if c.metric = 1 then c.naddr % 64 == 0 else c.naddr == 0) && (if c.rdst then c.raddr % 64 == 0 else c.raddr == 0)
    && !(c.rdst && c.meets c.raddr c.resultBytes)

/-- Element `j` of query `q`. -/
def queryEl (es : List Entry) (dim q j : Nat) : W32 :=
  let n := q * dim + j
  BitVec.ofNat 32 (fld (nth [] es (n / 16)) (4 * (n % 16)) 4)

/-- The elements of a query. -/
def query (es : List Entry) (dim q : Nat) : List W32 := (List.range dim).map (queryEl es dim q)

/-- The sum of R310: chunks of 16 terms, each summed exactly and rounded once, added in chunk order. -/
def chunkSum (ts : List FV) : W32 :=
  match (chunks 16 ts).map exactSum with
  | [] => 0#32
  | c :: cs => cs.foldl fadd c

/-- The norm of a query (R310). -/
def queryNorm (q : List W32) : W32 := fsqrt (chunkSum (q.map fun x => mulFV (fv x) (fv x)))

/-- The score of a record's elements against a query (R310); `n` is the stored norm. A norm of zero, NaN or infinity gives a NaN. -/
def score (metric : Nat) (q x : List W32) (n : W32) : W32 :=
  let dot := (q.zip x).map fun e => mulFV (fv e.1) (fv e.2)
  match metric with
  | 0 => chunkSum dot
  | 1 => if !isFinite n || !isNonzero n then nan32 else fdiv (chunkSum dot) (fmul (queryNorm q) n)
  | _ => chunkSum ((q.zip x).map fun e => let d := fsub e.1 e.2; mulFV (fv d) (fv d))

/-- True when score `a` is better than `b` (R310). -/
def better (metric : Nat) (a b : W32) : Bool := if metric = 2 then flt a b else flt b a

/-- A scored record: identifier, score, query, stack. -/
structure Hit where
  id : Nat
  score : W32
  q : Nat
  stack : Nat
deriving DecidableEq, Repr

/-- The ranking of R311. -/
def Hit.before (metric : Nat) (a b : Hit) : Bool :=
  better metric a.score b.score || (!better metric b.score a.score && decide (a.id < b.id))

/-- The first `k` of all hits in ranking order (R311, R314). -/
def topHits (metric k : Nat) (hs : List Hit) : List Hit := (sortBy (Hit.before metric) hs).take k

/-- A result record (R312). -/
def Hit.bytes (h : Hit) : List Byte := natLe 8 h.id ++ natLe 4 h.score.toNat ++ natLe 1 h.q ++ natLe 1 h.stack ++ natLe 2 0

/-- The entries of one query's results: header, then ⌈K ÷ 4⌉ entries (R312). -/
def resultEntries (tag q metric k scanned nans excl : Nat) (hs : List Hit) (stack : Nat) : List Entry :=
  let head := padTo 64 (natLe 2 tag ++ natLe 1 q ++ natLe 1 metric ++ natLe 2 hs.length ++ natLe 2 0 ++ natLe 4 scanned ++ natLe 4 nans ++ natLe 4 excl)
  let blank : Hit := ⟨0xFFFFFFFFFFFFFFFF, nan32, q, stack⟩
  let recs := (List.range (4 * cdiv k 4)).map fun i => (nth blank hs i).bytes
  head :: (chunks 4 recs).map List.flatten

/-- The check of a command's queries (R308). -/
def MCmd.queriesOk (m : MCmd) : Bool :=
  (List.range m.c.nq).all fun q =>
    let v := query m.queries m.c.dim q
    v.all isFinite && (m.c.metric != 1 || isNonzero (queryNorm v))

end Sys2Proof

namespace Sys2Proof.Machine

/-- The elements of record `i` as FP32. -/
def State.record (s : State) (c : MatchC) (i : Nat) : List W32 :=
  let e := elemBits c.fmt / 8
  (List.range c.dim).map fun j => elemToFP32 c.fmt (leNat (s.mem.read (c.addr + i * c.recb + e * j) e))

/-- The results of one query over a stack (R310-R312). -/
def State.matchQuery (s : State) (t : Nat) (c : MatchC) (es : List Entry) (q : Nat) : List Entry :=
  let qv := query es c.dim q
  let all : List Hit := (List.range c.nitem).map fun i =>
    let n := if c.metric = 1 then BitVec.ofNat 32 (leNat (s.mem.read (c.naddr + 4 * i) 4)) else 0#32
    ⟨(c.idbase + i) % 2 ^ 64, score c.metric qv (s.record c i) n, q, t⟩
  let nums := all.filter fun h => !isNan h.score
  let kept := nums.filter fun h => !(c.thEn && better c.metric c.thresh h.score)
  resultEntries c.tag q c.metric c.k c.nitem (all.length - nums.length) (nums.length - kept.length) (topHits c.metric c.k kept) t

/-- The check of a match command, its queries apart (R308): the code, or OK. -/
def State.matchCode (s : State) (p t : Nat) (c : MatchC) : Nat :=
  if !c.wellFormed then Code.matchFormat
  else if !s.stackIn p t c.addr ((c.nitem - 1) * c.recb + 64 * c.embWords)
    || (c.metric == 1 && !s.stackIn p t c.naddr (cdiv (4 * c.nitem) 64 * 64))
    || (c.rdst && !s.stackIn p t c.raddr c.resultBytes)
    || ((!c.rdst || c.flag) && !(s.pview p).grants c.dfile c.drank) then Code.stackAddress
  else Code.ok

/-- True when a route still owes query entries at an agent. -/
def State.owesQueries (s : State) (c : Nat) (x : Src) : Bool :=
  (s.agent c).drains.any (fun d => d.src == x && d.kind == 1)
    || (s.stack (stackAt c)).mq.any fun m => m.src == some (c, x) && decide (0 < m.left)

/-- MATCH: a command is taken at a match input when a place is free, and checked (R307-R309). One of a job that has failed or is
aborted is discarded with its queries (R297). -/
def State.takeMatch (s : State) (c : Nat) : State :=
  let t := stackAt c
  match firstOf 1 (fun f => f.dst.tgt == 2 && !s.owesQueries c f.src) s.now (s.router c).arrE with
  | none => s
  | some (n, f) =>
    if 8 ≤ (s.stack t).mq.length then s
    else
      let m := MatchC.read f.entry
      let goes := s.jobGoes f
      let s := s.edgeTaken c n f.src
      let code := s.matchCode f.part t m
      if ¬ goes then s.swallow c f 1 m.qEntries
      else if code ≠ Code.ok then s.refuse c f 1 m.qEntries code
      else s.modStack t fun k => { k with mq := k.mq ++ [⟨m, some (c, f.src), f.part, f.job, 0, [], m.qEntries⟩] }

/-- MATCH_QUERY_ENTRY: a query entry is taken in; with the last one the queries are checked (R307, R308). -/
def State.queryEntry (s : State) (c : Nat) : State :=
  let t := stackAt c
  match firstOf 1 (fun f => f.dst.tgt == 2 && s.owesQueries c f.src) s.now (s.router c).arrE with
  | none => s
  | some (n, f) =>
    let s := s.edgeTaken c n f.src
    match findAt (fun (d : Drain) => d.src == f.src && d.kind == 1) (s.agent c).drains with
    | some (i, d) => s.modAgent c fun a => a.drained i d
    | none =>
      match findAt (fun (m : MCmd) => m.src == some (c, f.src) && decide (0 < m.left)) (s.stack t).mq with
      | none => s
      | some (i, m) =>
        let m := { m with queries := m.queries ++ [f.entry], left := m.left - 1 }
        if m.left = 0 ∧ ¬ m.queriesOk then
          (s.modStack t fun k => { k with mq := dropAt k.mq i }).coreJobFail f.src.core m.part m.job Code.matchFormat
        else s.modStack t fun k => { k with mq := putAt k.mq i m }

/-- MATCH_SCAN_START: the engine starts the oldest command once its queries are there (R309). -/
def State.scanStart (s : State) (t : Nat) : State :=
  let k := s.stack t
  match k.run, k.mq with
  | none, m :: rest => if m.left = 0 then s.modStack t fun k => { k with run := some m, mq := rest, runAt := s.now, items := 0 } else s
  | _, _ => s

/-- Damage in the codewords that a command's pass reads (R309). -/
def State.passDamage (s : State) (t : Nat) (c : MatchC) : List (Nat × Nat) :=
  s.dmg.filter fun e => decide (e.1 / stackBytes = t) && decide (e.1 < 8 * stackBytes) &&
    ((decide (c.addr ≤ e.1) && decide ((e.1 - c.addr) / max 1 c.recb < c.nitem) && decide ((e.1 - c.addr) % max 1 c.recb < 64 * c.embWords))
      || (c.metric == 1 && decide (c.naddr ≤ e.1) && decide (e.1 < c.naddr + 4 * c.nitem)))

/-- The running command ends with a failure (R301, R398). -/
def State.matchFail (s : State) (t : Nat) (m : MCmd) (code : Nat) : State :=
  let s := s.modStack t fun k => { k with run := none, delivering := false }
  match m.src with
  | some (_, x) => s.coreJobFail x.core m.part m.job code
  | none => { s with multiFail := s.multiFail ++ [(m.multi, code)] }

/-- MATCH_PASS_END: the pass ends, and the results go to a queue or to the result area (R301, R309-R312). -/
def State.passEnd (s : State) (t : Nat) (us : List Upset) : State :=
  match (s.stack t).run with
  | none => s
  | some m =>
    if (s.stack t).delivering then s
    else
      let s := s.damages us
      let hurt := s.passDamage t m.c
      let bad := hurt.find? fun e => decide (correctable e.1 < e.2)
      let s := hurt.foldl (fun s e => if e.2 ≤ correctable e.1 then s.stackCorrected e.1 else s) s
      match bad with
      | some e => (s.stackUncorrectable e.1 2).matchFail t m Code.uncorrectableData
      | none =>
        let res := (List.range m.c.nq).flatMap fun q => s.matchQuery t m.c m.queries q
        let s := s.modStack t fun k => { k with items := m.c.nitem }
        if m.c.rdst then
          let s := (res.zip (List.range res.length)).foldl (fun s e => s.stackWrite (m.c.raddr + 64 * e.2) e.1) s
          let s := s.modStack t fun k => { k with run := none }
          match m.src with
          | some (c, _) => if m.c.flag then s.edgeFlag c m.part (coreId m.c.dfile m.c.drank) m.c.flg else s
          | none => s
        else
          match m.src with
          | none => s
          | some (c, x) =>
            let d : DmaDesc := { DmaDesc.read [] with flag := m.c.flag, dfile := m.c.dfile, drank := m.c.drank, dq := m.c.dq, flg := m.c.flg }
            let s := s.modAgent c fun a => { a with reqs := a.reqs ++ [⟨x, m.part, m.job, d, [], 0, 0, some res, false⟩] }
            (s.modStack t fun k => { k with delivering := true }).edgeBind 2 c d.core d.dq m.part m.job

end Sys2Proof.Machine
end

