-- ==== Sys2Proof/Machine/Binding.lean ====
section
/-!
DEFINITION. BIND, UNBIND and CREDIT_GRANT (R249, R250, R287, R288, R325).
-/

namespace Sys2Proof

/-- True for a BIND. -/
def Flit.isBind (f : Flit) : Bool := f.cargo == .bind
/-- The credits that an UNBIND brings back, if it is one. -/
def Flit.unbinds (f : Flit) : Option Nat := match f.cargo with | .unbind n => some n | _ => none

/-- The first flit at an outward port that satisfies `p` and that no earlier flit of its source precedes. -/
def firstOut (p : Flit → Bool) (now : Nat) (l : List Flit) : Option (Nat × Flit) :=
  let l' := l.zip (List.range l.length)
  (l'.find? fun f => p f.1 && decide (f.1.ready ≤ now) && !(l'.any fun g => decide (g.2 < f.2) && g.1.src == f.1.src)).map fun f => (f.2, f.1)

/-- An attachment without a binding: a write stream of the route can take no further entry (R230, R257). -/
def Attach.unbound (a : Attach) (x : Src) : Attach :=
  { a with binds := a.binds.filter fun b => b.1 != x,
           ctxs := a.ctxs.filter fun q => !(q.write && q.src == x),
           wait := a.wait.filter fun q => !(q.write && q.src == x) }.fill

/-- Routes that an agent has bound on an input. -/
def EdgeAgent.routes (a : EdgeAgent) (input : Nat) : Nat := (a.binds.filter fun b => b.1 == input).length

end Sys2Proof

namespace Sys2Proof.Machine

/-- An agent answers a BIND (R287, R325): 8 credits, at most 32 routes an input; a step input gives 2. -/
def State.edgeBound (s : State) (c : Nat) (d : Dst) (x : Src) : State :=
  if d.tgt = 3 then (s.modAgent c fun a => { a with binds := a.binds ++ [(2, x)] }).sendCredit x 2
  else if (s.agent c).routes d.chan < 32 then (s.modAgent c fun a => { a with binds := a.binds ++ [(d.chan, x)] }).sendCredit x 8
  else s.modAgent c fun a => { a with unanswered := a.unanswered ++ [(d.chan, x)] }

/-- An UNBIND reaches an agent: the place goes to the BIND that has waited longest for it (R287). -/
def State.edgeUnbound (s : State) (c : Nat) (x : Src) : State :=
  let input := match (s.agent c).binds.find? fun b => b.2 == x with | some b => b.1 | none => 2
  let s := s.modAgent c fun a => { a with binds := a.binds.filter fun b => b.2 != x, unanswered := a.unanswered.filter fun b => b.2 != x }
  match findAt (fun b => b.1 == input) (s.agent c).unanswered with
  | some (i, b) =>
    if input < 2 ∧ (s.agent c).routes input < 32 then
      (s.modAgent c fun a => { a with binds := a.binds ++ [b], unanswered := dropAt a.unanswered i }).sendCredit b.2 8
    else s
  | none => s

/-- BIND (R249, R287, R325): a BIND is taken in at the local (0), outward (1) or vertical (2) port of core `c`. -/
def State.bind (s : State) (c port : Nat) : State :=
  match port with
  | 0 => match s.localFront c with
    | some f => if f.isBind then (s.localTaken c).bindQueue c f.dst.chan f.src else s
    | none => s
  | 1 => match firstOut Flit.isBind s.now (s.router c).arrE with
    | some (n, f) => (s.modRouter c fun r => { r with arrE := dropAt r.arrE n }).edgeBound c f.dst f.src
    | none => s
  | _ => match s.vertFront c with
    | some f =>
      if f.isBind then
        ((s.modRouter c fun r => { r with arrV := r.arrV.drop 1 }).modAtt c fun a => { a with binds := a.binds ++ [(f.src, f.part)] }).sendCredit f.src
          Config.attachCredits
      else s
    | none => s

/-- UNBIND (R249, R287): likewise. -/
def State.unbind (s : State) (c port : Nat) : State :=
  match port with
  | 0 => match s.localFront c with
    | some f => match f.unbinds with
      | some n => (s.localTaken c).unbindQueue c f.dst.chan f.src n
      | none => s
    | none => s
  | 1 => match firstOut (fun f => f.unbinds.isSome) s.now (s.router c).arrE with
    | some (n, f) => (s.modRouter c fun r => { r with arrE := dropAt r.arrE n }).edgeUnbound c f.src
    | none => s
  | _ => match s.vertFront c with
    | some f =>
      if f.unbinds.isSome then
        (s.modRouter c fun r => { r with arrV := r.arrV.drop 1 }).modAtt c fun a => a.unbound f.src
      else s
    | none => s

/-- Credits reach a binding of a list of an agent (R249, R288). -/
def creditOuts (l : List AgentOut) (x : Src) (n : Nat) : List AgentOut :=
  l.map fun o => if 16 * o.core + o.queue = x.route ∧ o.ep = x.ep ∧ o.bound then { o with credit := o.credit + n } else o

/-- Credits reach a route (R250): the sequencer sees those of a gated output slot 3 or 17 cycles later (R80). -/
def State.creditRoute (s : State) (x : Src) (n : Nat) : State :=
  let c := s.core x.core
  let r := c.route x.route
  if r.ep = x.ep ∧ (r.st = 1 ∨ r.st = 2) then
    (s.setCore x.core (c.setRoute x.route { r with credit := r.credit + n, st := 2 })).slotSeen x.core
      (fun d => decide (d.kind < 5) && d.out && d.chan == x.route) n
  else if r.olds.any fun o => o.1 == x.ep then s.setCore x.core (c.setRoute x.route (r.modCredits x.ep (· + n)))
  else s

/-- CREDIT_GRANT: the credits number `n` on their way arrive (R249, R250). -/
def State.creditGrant (s : State) (n : Nat) : State :=
  match s.mesh.credits[n]? with
  | none => s
  | some m =>
    let s := { s with mesh := { s.mesh with credits := dropAt s.mesh.credits n } }
    if m.dst.kind = 1 then s.creditRoute m.dst m.n
    else if m.dst.kind = 4 then s.modAtt m.dst.core fun a => { a with outs := creditOuts a.outs m.dst m.n }
    else s.modAgent m.dst.core fun a => { a with outs := creditOuts a.outs m.dst m.n }

end Sys2Proof.Machine
end

