-- ==== Sys2Proof/Machine/RingCore.lean ====
section
/-!
DEFINITION. Network B: memberships and their holders, the stack requester (R323), ring tables and keys (R327-R331), sending and
receiving ring frames (R324, R341-R345, R357), failures of a step (R363).
-/

namespace Sys2Proof

/-- Part `j` of a run of blocks divided into `n` parts (R336). -/
def divide (x : Nat × Nat) (n j : Nat) : Nat × Nat := (x.1 + j * x.2 / n, (j + 1) * x.2 / n - j * x.2 / n)

/-- The entries of a run of blocks: first and count (R336). -/
def Step.ents (t : Step) (x : Nat × Nat) : Nat × Nat := (256 * x.1, min t.len (256 * (x.1 + x.2)) - 256 * x.1)

/-- The module's piece of a level; level 0 is the port part (R336). -/
def PStep.piece (q : PStep) (l : Nat) : Nat × Nat := if l = 0 then q.part else nth (0, 0) q.own (l - 1)

/-- Sub-piece `j` of a level (R339). -/
def PStep.sub (q : PStep) (h : RingHdr) (l j : Nat) : Nat × Nat := divide (q.piece (l - 1)) (h.n l) j

/-- The step of a port. -/
def Step.port (t : Step) (b : Nat) : Option PStep := (t.ports.find? fun x => x.1 == b).map (·.2)

/-- The step with that of a port replaced. -/
def Step.setPort (t : Step) (b : Nat) (q : PStep) : Step := { t with ports := t.ports.map fun x => if x.1 = b then (b, q) else x }

/-- Element `i` of a list of three counters with `n` added. -/
def addAt (l : List Nat) (i n : Nat) : List Nat := modAt l i (· + n)

/-- The stream a port sends, or a new one (R345). -/
def PStep.stream (q : PStep) (phase lvl peer : Nat) : RTx :=
  match q.tx.find? fun x => x.phase == phase && x.lvl == lvl && x.peer == peer with
  | some x => x
  | none => ⟨phase, lvl, peer, 0, [], 0, false⟩

/-- The port with a sent stream replaced. -/
def PStep.setStream (q : PStep) (x : RTx) : PStep :=
  { q with tx := (q.tx.filter fun y => !(y.phase == x.phase && y.lvl == x.lvl && y.peer == x.peer)) ++ [x] }

/-- The stream a port receives, or a new one. -/
def PStep.recv (q : PStep) (phase lvl : Nat) : RRx :=
  match q.rx.find? fun x => x.phase == phase && x.lvl == lvl with
  | some x => x
  | none => ⟨phase, lvl, 0, 0⟩

/-- The port with a received stream replaced. -/
def PStep.setRecv (q : PStep) (x : RRx) : PStep :=
  { q with rx := (q.rx.filter fun y => !(y.phase == x.phase && y.lvl == x.lvl)) ++ [x] }

/-- Bytes that a step keeps in the retain buffer of a port. -/
def PStep.kept (q : PStep) : Nat := (q.tx.map fun x => (x.kept.map fun k => k.data.length).sum).sum

/-- One FP32 group word per 64 entries (R342, R344). -/
def groupWords (v : List W32) : List W32 := (chunks 64 v).map pairSum

/-- The body of a RED or BCF frame (R342). -/
def valueBody (v : List W32) : List Byte := (v ++ groupWords v).flatMap fun x => natLe 4 x.toNat

/-- The largest COUNT of a RED or BCF frame (R341). -/
def maxCount (h : RingHdr) : Nat := if h.ipv6 then 2176 else 2240

/-- FP32 values of `n` little-endian words. -/
def words32 (b : List Byte) (n : Nat) : List W32 := (List.range n).map fun i => BitVec.ofNat 32 (fld b (4 * i) 4)

/-- The checks of a ring table (R329), but for its place. -/
def ringTableOk (b : Nat) (hb : List Byte) (h : RingHdr) (es : List (List Byte)) : Bool :=
  let ent := es.map RingEnt.read
  let lv := [(h.n1, h.pos1, 1), (h.n2, h.pos2, 2), (h.n3, h.pos3, 3)]
  let selfOk := fun (base n : Nat) (p : Option Nat) => (List.range n).all fun i => (nth ⟨0, false, 0, 0⟩ ent (base + i)).self == (p == some i)
  h.format == 1 && decide (1 ≤ h.gen) && decide (1 ≤ h.levels) && decide (h.levels ≤ 3)
    && lv.all (fun x => decide (1 ≤ x.1) && decide (x.1 ≤ 64) && (decide (x.2.2 ≤ h.levels) || x.1 == 1))
    && (if h.standby then decide (h.pos1 ≤ 3) && decide (h.pos2 < h.n2) && decide (h.pos3 < h.n3)
        else lv.all fun x => decide (x.2.1 < x.1))
    && decide (h.nspare ≤ 4) && decide (h.prio ≤ 6) && decide (1 ≤ h.tout) && bit h.pmask b
    && bits (fld hb 16 1) 7 3 == 0 && bits (fld hb 17 1) 7 4 == 0 && bits (fld hb 18 1) 7 3 == 0 && fld hb 19 1 == 0
    && bits (fld hb 20 2) 15 12 == 0 && allZero (slice hb 48 16) && (h.ipv6 || allZero (slice hb 36 12))
    && es.all (fun e => bits (fld e 6 1) 7 1 == 0 && fld e 7 1 == 0 && fld e 28 4 == 0 && (h.ipv6 || allZero (slice e 12 12)))
    && selfOk 0 h.n1 (if h.standby then none else some h.pos1)
    && selfOk h.n1 h.n2 (if h.standby then none else some h.pos2)
    && selfOk (h.n1 + h.n2) h.n3 (if h.standby then none else some h.pos3)
    && (List.range h.nspare).all fun i => !(nth ⟨0, false, 0, 0⟩ ent (h.n1 + h.n2 + h.n3 + i)).self || (h.standby && h.pos1 == i)

/-- The fields in which the tables of a membership must agree (R331): all but LMAC and LIP. -/
def RingHdr.common (h : RingHdr) : RingHdr := { h with lmac := 0, lip := 0 }
/-- The fields of a member entry in which they must agree. -/
def RingEnt.common (e : RingEnt) : RingEnt := { e with mac := 0, ip := 0 }

/-- A ring frame at a transmitter: priority 7 for ACK, NORM and BAR frames, PRIO for the others, the VLAN of the table (R328, R341). -/
def ringMsg (c : Nat) (h : RingHdr) (high : Bool) (e : RingEnt) (data : List Byte) : TxMsg :=
  ⟨high, some (if high then 7 else h.prio, h.vlan), c, 0, e.mac, e.ip, h.udp, data⟩

/-- True while a step or a barrier of a membership is in progress. -/
def Memb.busy (m : Memb) : Bool := m.step.isSome || m.bar.isSome

/-- True for a message of a membership that carries work of its step, of the step's barrier `bar`, or acknowledges such work
(R363). -/
def TxMsg.ofStep (x : TxMsg) (c step : Nat) (bar : Option Nat) : Bool :=
  let f := RingF.read x.data
  x.who == c && ([1, 2, 3, 5].contains f.type || (f.type == 6 && bar == some f.step)
    || (f.type == 4 && (if bits f.arg1 7 0 = 6 then bar == some f.step else f.step == step)))

/-- LNKB_RINGTAB (R327). -/
def Memb.ringTabReg (m : Memb) (b : Nat) : Nat :=
  b2n (nth false m.tvalid b) + 2 ^ 6 * nth 0 m.taddr b + 2 ^ 48 * (match m.tab b with | some t => t.h.gen | none => 0)

end Sys2Proof

namespace Sys2Proof.Machine

/-- A membership context. -/
def State.memb (s : State) (c : Nat) : Memb := s.membs.get Memb.reset c

/-- The state with a membership changed. -/
def State.modMemb (s : State) (c : Nat) (f : Memb → Memb) : State := { s with membs := SMap.set Memb.reset s.membs c (f (s.memb c)) }

/-- The state with the step of a membership changed. -/
def State.modStep (s : State) (c : Nat) (f : Step → Step) : State := s.modMemb c fun m => { m with step := m.step.map f }

/-- The state with the step of a port of a membership changed. -/
def State.modPStep (s : State) (c b : Nat) (f : PStep → PStep) : State :=
  s.modStep c fun t => match t.port b with | some q => t.setPort b (f q) | none => t

/-- The context of a membership of a partition's view (R326, R413). -/
def State.ctxOf (s : State) (p m : Nat) : Option Nat := ((List.range 8).filter fun c => (s.part p).grant.membs.contains c)[m]?

/-- The partition that holds a context, and its number there. -/
def State.ctxHolder (s : State) (c : Nat) : Option (Nat × Nat) :=
  ((List.range 8).find? fun p => (s.part p).grant.membs.contains c).map fun p =>
    (p, ((List.range c).filter fun d => (s.part p).grant.membs.contains d).length)

/-- A port's event of a membership to its holder. -/
def State.membEvent (s : State) (c code b a0 a1 : Nat) : State :=
  match s.ctxHolder c with
  | some (p, m) => s.event p code { Ev.none with memb := m, port := if b < 4 then 4 + b else 0xFF, arg0 := a0, arg1 := a1 }
  | none => s

/-- An event of a membership about a step or barrier: ARG0 holds `a0` and in bits [47:32] the TAG of the step in progress (R332),
ARG1 the MODID of the module concerned (R328); log entry 126. -/
def State.stepEvent (s : State) (c code b a0 modid : Nat) : State :=
  s.membEvent c code b (a0 + 2 ^ 32 * (match (s.memb c).step with | some t => t.d.tag | none => 0)) modid

/-- MODID of the module itself in the table of a port (R328). -/
def State.ownModid (s : State) (c b : Nat) : Nat := match (s.memb c).tab b with | some t => t.self | none => 0

/-- The requester reads bytes of a stack by whole codewords (R323): the state, the bytes, whether all could be corrected. -/
def State.reqRead (s : State) (a n : Nat) : State × List Byte × Bool :=
  let w0 := a / 64
  let r := (List.range (cdiv (a % 64 + n) 64)).foldl (fun (acc : State × List Byte × Bool) i =>
    let x := (acc.1.stackCount ((w0 + i) * 64)).stackRead ((w0 + i) * 64) 0
    (x.1, acc.2.1 ++ x.2.1, acc.2.2 && !x.2.2)) (s, [], true)
  (r.1, slice r.2.1 (a % 64) n, r.2.2)

/-- The requester writes bytes of a stack by whole codewords (R323): the state, and whether it could. It reads a codeword of which it
writes a part, and where that read is beyond correction it writes nothing (R285, R300, R301). -/
def State.reqWrite (s : State) (a : Nat) (bs : List Byte) : State × Bool :=
  let w0 := a / 64
  let n := cdiv (a % 64 + bs.length) 64
  let head := if a % 64 = 0 then (s, [], true) else s.reqRead (w0 * 64) (a % 64)
  let past := (a + bs.length) % 64
  let tail := if past = 0 then (head.1, [], true) else head.1.reqRead (a + bs.length) (64 - past)
  if bs.isEmpty then (s, true)
  else if !(head.2.2 && tail.2.2) then (tail.1, false)
  else
    let cs := chunks 64 (head.2.1 ++ bs ++ tail.2.1)
    ((cs.zip (List.range n)).foldl (fun s x => (s.stackCount ((w0 + x.2) * 64)).stackWrite ((w0 + x.2) * 64) x.1) tail.1, true)

/-- True when bytes lie in stacks of a partition's view (R333). -/
def State.inStacks (s : State) (p a n : Nat) : Bool :=
  decide (a < 8 * stackBytes) && decide (a + n ≤ 8 * stackBytes)
    && (List.range 8).all fun t => decide (a + n ≤ stackBase t) || decide (stackBase t + stackBytes ≤ a)
        || ((s.part p).grant.stks.contains t && (s.stack t).clearing.isNone)

/-- True when bytes lie in a stack or in shared memory of a partition's view. -/
def State.inView (s : State) (p a n : Nat) : Bool := s.inStacks p a n || s.sharedIn p a n

/-- True when bytes lie in one stack or in one die's shared memory of a partition's view. -/
def State.inOne (s : State) (p a n : Nat) : Bool :=
  s.inView p a n && (decide (8 * stackBytes ≤ a) || a / stackBytes == (a + n - 1) / stackBytes)

/-- Reads bytes of a stack or of shared memory of a view. -/
def State.anyRead (s : State) (p a n : Nat) : State × List Byte × Bool :=
  if a < 8 * stackBytes then s.reqRead a n else s.sharedRead p a n

/-- Room in the retain buffer of a port (R322, R345): 2 MiB over all memberships. -/
def State.retainRoom (s : State) (b n : Nat) : Bool :=
  decide (((List.range 8).map fun c => match (s.memb c).step with
    | some t => (match t.port b with | some q => q.kept | none => 0)
    | none => 0).sum + n ≤ 0x200000)

/-- A ring frame of port `b` leaves toward a member entry (R341-R343): the state and the UDP payload. -/
def State.ringSend (s : State) (c b type : Nat) (last : Bool) (lvl round step lseq arg0 count arg1 : Nat) (body : List Byte)
    (e : RingEnt) : State × List Byte :=
  match (s.memb c).tab b with
  | none => (s, [])
  | some t =>
    let m := s.memb c
    let f := nth 0 m.fcnt b
    let key := m.key.getD []
    let h := ringHeader t.h b type last lvl round f step lseq arg0 count arg1
    let nonce := ringNonce (srcId t.h b) t.h.gen f
    let data := if t.h.enc then
        let y := xorBytes body (Config.gcmStream key nonce body.length)
        h ++ y ++ natLe 16 (Config.gcmTag key nonce h y).toNat
      else h ++ body ++ natLe 16 (Config.gcmTag key nonce (h ++ body) []).toNat
    let s := s.modMemb c fun m => { m with fcnt := addAt m.fcnt b 1 }
    (s.transmit (4 + b) (ringMsg c t.h (decide (4 ≤ type)) e data), data)

/-- The next frame of a stream (R345): it is kept until it is acknowledged. -/
def State.streamSend (s : State) (c b phase lvl peer type : Nat) (last : Bool) (arg0 count : Nat) (body : List Byte) : State :=
  match (s.memb c).step, (s.memb c).tab b with
  | some t, some tab =>
    match t.port b with
    | none => s
    | some q =>
      let x := q.stream phase lvl peer
      let n := tab.h.n lvl
      let e := if peer = 0 then tab.ent lvl ((tab.h.pos lvl + 1) % n) else tab.ent 4 (peer - 1)
      let (s, data) := s.ringSend c b type last lvl 0 t.d.step x.next arg0 count 0 body e
      s.modPStep c b fun q => q.setStream { x with next := x.next + 1, kept := x.kept ++ [⟨x.next, data⟩] }
  | _, _ => s

/-- An ACK frame (R341, R345). -/
def State.ringAck (s : State) (c b type lvl round step next : Nat) (ready gap : Bool) (e : RingEnt) : State :=
  (s.ringSend c b 4 false lvl round step 0 next 0 (type + 2 ^ 8 * b2n ready + 2 ^ 9 * b2n gap) [] e).1

/-- The step completion record (R399). -/
def State.stepRecord (s : State) (c code : Nat) (tag step port lvl pos entry : Nat) : State :=
  match s.ctxHolder c with
  | some (p, m) => s.notify p ⟨3, code, s.now, natLe 1 m ++ natLe 1 port ++ natLe 1 lvl ++ natLe 1 pos ++ natLe 2 tag ++ natLe 2 0
      ++ natLe 4 step ++ natLe 8 entry ++ natLe 4 0⟩
  | none => s

/-- The step of a membership fails (R363): it stops sending, adding and acknowledging, and its record names the port, level, position
and entry. -/
def State.stepFail (s : State) (c code port lvl pos entry : Nat) : State :=
  match (s.memb c).step with
  | none => s
  | some t =>
    let bar := ((s.memb c).bar.filter fun x => !x.chip).map (·.num)
    let s := (List.range 4).foldl (fun s b => s.modPort (4 + b) fun x => { x with wait := x.wait.filter fun m => !m.ofStep c t.d.step bar }) s
    let s := s.modMemb c fun m => { m with
      step := none, failed := true, code := code, bar := m.bar.filter (·.chip), dead := m.dead ++ [t.d.step], barDead := m.barDead ++ bar.toList }
    s.stepRecord c code t.d.tag t.d.step port lvl pos entry

/-- A frame of a membership is discarded for its tag, index or shape (R343, R366): the event comes once per step. -/
def State.ringReject (s : State) (c b : Nat) (f : RingF) : State :=
  let s := s.modMemb c fun m => { m with reject := satAt 0xFFFFFFFF (m.reject + 1) }
  let from_ := match (s.memb c).tab b with
    | some t => t.sender f.lvl (if f.lvl = 2 then f.pos2 else if f.lvl = 3 then f.pos3 else f.pos1) f.standby
    | none => 0
  match (s.memb c).step with
  | some t => if t.rejected then s else (s.modStep c fun t => { t with rejected := true }).stepEvent c Code.ringFrameReject b 0 from_
  | none => s

/-- The membership whose table on port `b` a datagram matches (R324). -/
def State.ringMatch (s : State) (b : Nat) (d : Dgram) : Option Nat :=
  (List.range 8).find? fun c => match (s.memb c).tab b with
    | some t => t.h.lip == d.dst && t.h.udp == d.udp && decide (48 ≤ d.data.length) && (RingF.read d.data).sysid == t.h.sysid
        && (RingF.read d.data).gen == t.h.gen
    | none => false

/-- A frame that matches no table is counted and not answered (R324, R367). -/
def State.foreignB (s : State) (b : Nat) : State := s.modPort (4 + b) fun x => { x with foreign := satAt 0xFFFF (x.foreign + 1) }

/-- The body of a frame whose tag is valid, deciphered (R343). -/
def State.ringOpen (s : State) (c : Nat) (h : RingHdr) (data : List Byte) : Option (List Byte) :=
  let f := RingF.read data
  let key := (s.memb c).key.getD []
  let hd := data.take 48
  let body := slice data 48 (data.length - 64)
  let tag := BitVec.ofNat 128 (fld data (data.length - 16) 16)
  let nonce := ringNonce (fld data 10 3) f.gen f.fcnt
  if data.length < 64 ∨ (s.memb c).key.isNone then none
  else if h.enc then
    (if tag = Config.gcmTag key nonce hd body then some (xorBytes body (Config.gcmStream key nonce body.length)) else none)
  else if tag = Config.gcmTag key nonce (hd ++ body) [] then some body else none

/-- A ring frame reaches port `b` (R324, R343): one of another row's type changes nothing, one of no type that R341 defines is counted
as rejected; `k` handles one whose tag is valid and whose header has the shape of R341. -/
def State.ringFrame (s : State) (b : Nat) (d : Dgram) (types : List Nat) (k : State → Nat → RingTab → RingF → List Byte → State) : State :=
  match s.ringMatch b d with
  | none => s.foreignB b
  | some c =>
    let f := RingF.read d.data
    if !types.contains f.type then (if 1 ≤ f.type ∧ f.type ≤ 6 then s else s.ringReject c b f)
    else
      match (s.memb c).tab b with
      | none => s
      | some t =>
        match s.ringOpen c t.h d.data with
        | none => s.ringReject c b f
        | some body =>
          if f.ver == 1 && f.enc == t.h.enc && f.port == b && decide (1 ≤ f.lvl) && decide (f.lvl ≤ 3) then k s c t f body
          else s.ringReject c b f

/-- RING_TABLE_LOAD: a write of LNKB_RINGTAB of membership `m` on port `b` (R327, R329). A load that fails raises an event; one that reads
data beyond correction ends the command with UNCORRECTABLE_DATA (R470). -/
def State.writeRingTab (s : State) (p b m v : Nat) : State × Nat :=
  match s.ctxOf p m with
  | none => (s, Code.badArgument)
  | some c =>
    let addr := 64 * bits v 47 6
    if (s.memb c).busy then (s, Code.busy)
    else
      let s := s.modMemb c fun x => { x with taddr := putAt x.taddr b (bits v 47 6) }
      if !bit v 1 then (s, Code.ok)
      else
        let s := s.modMemb c fun x => { x with tvalid := putAt x.tvalid b false }
        let head := s.sharedRead p addr 64
        let h := RingHdr.read head.2.1
        let all := head.1.sharedRead p addr (64 + 32 * h.count)
        let hb := slice all.2.1 0 64
        let es := (List.range h.count).map fun i => slice all.2.1 (64 + 32 * i) 32
        if !(s.sharedIn p addr 64 && s.sharedIn p addr (64 + 32 * h.count)) then (s.membEvent c Code.ringTableFormat b 0 0, Code.ok)
        else
        let s := all.1
        if !all.2.2 then (s, Code.uncorrectableData)
        else if !ringTableOk b hb h es then (s.membEvent c Code.ringTableFormat b 0 0, Code.ok)
        else
          let x := s.memb c
          if x.key.isNone ∨ (nth false x.fresh b = false ∧ nth 0 x.lastGen b = h.gen) then (s.membEvent c Code.ringKeyStale b 0 0, Code.ok)
          else
            (s.modMemb c fun x => { x with
              tabs := putAt x.tabs b (some ⟨h, es.map RingEnt.read⟩), tvalid := putAt x.tvalid b true, fresh := putAt x.fresh b false,
              lastGen := putAt x.lastGen b h.gen, resent := 0, reject := 0, barNum := 0, barDead := [] }, Code.ok)

/-- RING_KEY (R330, R397): the code of the command. -/
def State.ringKey (s : State) (p m : Nat) (key : List Byte) : State × Nat :=
  match s.ctxOf p m with
  | none => (s, Code.badArgument)
  | some c =>
    if (s.memb c).busy then (s, Code.busy)
    else (s.modMemb c fun x => { x with key := some key, fresh := [true, true, true, true], fcnt := [0, 0, 0, 0] }, Code.ok)

/-- RING_STEP (R333, R397): the descriptor becomes pending. -/
def State.ringStep (s : State) (p : Nat) (desc : List Byte) : State × Nat :=
  match s.ctxOf p (StepD.read desc).ring with
  | none => (s, Code.badArgument)
  | some c =>
    if (s.memb c).step.isSome ∨ (s.memb c).pend.isSome then (s, Code.busy)
    else (s.modMemb c fun x => { x with pend := some desc }, Code.ok)

end Sys2Proof.Machine
end

