-- ==== Sys2Proof/Machine/RingLane.lean ====
section
/-!
DEFINITION. level_sum, the norm lane and barriers (R346, R347, R358, R359, R265).
-/

namespace Sys2Proof

/-- The butterfly of level_sum (R346): the sends in order (position, value, number of the exchange) and the value at the end,
none while a value is missing. -/
def butterfly (add : W32 → W32 → W32) (r m : Nat) (recv : Nat → Option W32) : Nat → Nat → W32 → List (Nat × W32 × Nat)
    → List (Nat × W32 × Nat) × Option W32
  | 0, _, x, l => (l, some x)
  | n + 1, d, x, l =>
    if d < m then
      let l := l ++ [(Nat.xor r d, x, Nat.log2 d + 1)]
      match recv (Nat.xor r d) with
      | some z => butterfly add r m recv n (2 * d) (add x z) l
      | none => (l, none)
    else (l, some x)

/-- level_sum (R346) of position `r` of `n`: what it sends given what it has received, and its result. -/
def levelSum (add : W32 → W32 → W32) (n r : Nat) (x : W32) (recv : Nat → Option W32) : List (Nat × W32 × Nat) × Option W32 :=
  let m := 2 ^ Nat.log2 n
  if m ≤ r then ([(r - m, x, 0)], recv (r - m))
  else
    let first := if r + m < n then (recv (r + m)).map (add x) else some x
    match first with
    | none => ([], none)
    | some x =>
      match butterfly add r m recv 7 1 x [] with
      | (l, none) => (l, none)
      | (l, some y) => (if r + m < n then l ++ [(r + m, y, 7)] else l, some y)

/-- An exchange at its start. -/
def LaneS.start (top : Nat) (x : W32) : LaneS := ⟨1, top, x, [], 0, [], none⟩

/-- What an exchange has received from a position at a level. -/
def LaneS.from_ (l : LaneS) (lvl pos : Nat) : Option W32 := (l.recv.find? fun y => y.1 == lvl && y.2.1 == pos).map fun y => y.2.2

/-- A value arrives; a second copy changes nothing. -/
def LaneS.take (l : LaneS) (lvl pos : Nat) (v : W32) : LaneS :=
  if (l.from_ lvl pos).isSome then l else { l with recv := l.recv ++ [(lvl, pos, v)] }

/-- The port through which norm and barrier frames go (R346). -/
def RingHdr.lanePort (h : RingHdr) : Nat := (h.ports.head?).getD 0

/-- The position at its level from which a frame came. -/
def RingF.posAt (f : RingF) (lvl : Nat) : Nat := if lvl = 1 then f.pos1 else if lvl = 2 then f.pos2 else f.pos3

/-- True when a step has reconstructed every entry, or is skipped (R347, R361). -/
def Step.spread (t : Step) : Bool :=
  t.skipped || t.ports.all fun x => x.2.recon == (t.ents x.2.part).2 && x.2.writes == 0

/-- An acknowledged NORM or BAR frame is no longer resent. -/
def LaneS.acked (l : LaneS) (lvl pos : Nat) : LaneS := { l with unacked := l.unacked.filter fun x => !(x.1 == lvl && x.2.1 == pos) }

end Sys2Proof

namespace Sys2Proof.Machine

/-- The table of a membership on the port of its lane. -/
def State.laneTab (s : State) (c : Nat) : Option (Nat × RingTab) :=
  ((List.range 4).filterMap fun b => ((s.memb c).tab b).map fun t => (b, t)).find? fun x => x.2.h.lanePort == x.1

/-- The port of a membership's lane. -/
def State.lanePort (s : State) (c : Nat) : Nat := match s.laneTab c with | some (b, _) => b | none => 0

/-- One exchange after what it has received: the frames that are due leave, and it goes up a level when it has a result. -/
def State.laneLevel (s : State) (c type step : Nat) (l : LaneS) : State × LaneS :=
  match s.laneTab c with
  | none => (s, l)
  | some (b, t) =>
    if l.result.isSome then (s, l)
    else
      let add := if type = 5 then fadd else fun x _ => x
      let r := levelSum add (t.h.n l.lvl) (t.h.pos l.lvl) l.x (l.from_ l.lvl)
      let out := (r.1.drop l.sent).foldl (fun (acc : State × List (Nat × Nat × List Byte)) x =>
        let y := acc.1.ringSend c b type false l.lvl (Config.laneRound x.2.2 % 63) step 0 (if type = 5 then x.2.1.toNat else 0) 0 0 []
          (t.ent l.lvl x.1)
        (y.1, acc.2 ++ [(l.lvl, x.1, y.2)])) (s, l.unacked)
      let l := { l with sent := r.1.length, unacked := out.2 }
      match r.2 with
      | none => (out.1, l)
      | some v => if l.lvl = l.top then (out.1, { l with result := some v }) else (out.1, { l with lvl := l.lvl + 1, x := v, sent := 0 })

/-- An exchange runs through its levels as far as it can. -/
def State.laneRun (s : State) (c type step : Nat) (l : LaneS) : State × LaneS :=
  (List.range 4).foldl (fun (acc : State × LaneS) _ => acc.1.laneLevel c type step acc.2) (s, l)

/-- Sends the result of the norm lane to the standbys of the level-1 ring (R359). -/
def State.normStandby (s : State) (c : Nat) (q : W32) : State :=
  match s.laneTab c, (s.memb c).step with
  | some (b, t), some st =>
    if t.h.pos1 = 0 ∧ !t.h.standby then
      (List.range t.h.nspare).foldl (fun s i =>
        let y := s.ringSend c b 5 false 1 63 st.d.step 0 q.toNat 0 0 [] (t.ent 4 i)
        y.1.modStep c fun st => { st with lane := { st.lane with unacked := st.lane.unacked ++ [(4, i, y.2)] } }) s
    else s
  | _, _ => s

/-- The norm lane has its result (R347): a NaN or infinity skips the step. -/
def State.normDone (s : State) (c : Nat) (q : W32) : State :=
  s.modStep c fun t => { t with q := some q, skipped := isNan q || q == inf32 false }

/-- The norm lane of a step goes on. -/
def State.normRun (s : State) (c : Nat) : State :=
  match (s.memb c).step with
  | none => s
  | some t =>
    if !t.norm || t.q.isSome then s
    else
      let r := s.laneRun c 5 t.d.step t.lane
      let s := r.1.modStep c fun t => { t with lane := r.2 }
      match r.2.result with
      | some q => (s.normDone c q).normStandby c q
      | none => s

/-- A barrier of a membership starts, or waits for the one in progress (R265, R358). -/
def State.barStart (s : State) (c levels : Nat) (chip : Bool) : State :=
  if (s.memb c).bar.isSome then (if chip then s.modMemb c fun m => { m with barWait := true } else s)
  else s.modMemb c fun m => { m with bar := some ⟨m.barNum, LaneS.start levels 0#32, chip, false⟩, barNum := m.barNum + 1 }

/-- A barrier of PART_BARRIER is done: DONE is set and BUSY ends (R265). -/
def State.chipBarEnd (s : State) (c : Nat) (ok : Bool) : State :=
  match s.ctxHolder c with
  | none => s
  | some (p, _) =>
    let d := (s.part p).barrier.done
    let s := s.modPart p fun x => { x with barrier := { x.barrier with busy := false } }
    if ok then s.setChipFlag p d ⟨true, 6, none, 0, 0⟩ else s

/-- The barrier in progress goes on (R358): it is done when every member has arrived (R265), and it stays until its own frames are
acknowledged. -/
def State.barRun (s : State) (c : Nat) : State :=
  match (s.memb c).bar with
  | none => s
  | some b =>
    let r := s.laneRun c 6 b.num b.lane
    let s := r.1.modMemb c fun m => { m with bar := some { b with lane := r.2 } }
    if r.2.result.isNone then s
    else
      let s := s.modMemb c fun m => { m with
        bar := if r.2.unacked.isEmpty then none else some { b with lane := r.2, told := true },
        step := if b.chip then m.step else m.step.map fun t => { t with bar := 2 } }
      if b.chip ∧ ¬ b.told then s.chipBarEnd c true else s

/-- The barrier of a step starts once its entries are reconstructed, its norm result is known and no other barrier of the
membership is in progress (R338, R358). -/
def State.stepBar (s : State) (c : Nat) : State :=
  match (s.memb c).step, s.laneTab c with
  | some t, some (_, tab) =>
    if t.d.bar && !tab.h.standby && t.bar == 0 && t.spread && t.q.isSome && (s.memb c).bar.isNone then
      ((s.modStep c fun t => { t with bar := 1 }).barStart c tab.h.levels false).barRun c
    else s
  | _, _ => s

/-- True when position and port of a frame are those of the member at a position of a level (R341). -/
def memberFrame (h : RingHdr) (f : RingF) (lvl pos : Nat) : Bool :=
  !f.standby && f.pos1 == (if lvl = 1 then pos else h.pos1) && f.pos2 == (if lvl = 2 then pos else h.pos2)
    && f.pos3 == (if lvl = 3 then pos else h.pos3)

/-- NORM_FRAME (R345, R346, R359). -/
def State.normFrame (s : State) (b : Nat) (d : Dgram) : State :=
  s.ringFrame b d [5] fun s c t f body =>
    let m := s.memb c
    let pos := f.posAt f.lvl
    let e := t.ent f.lvl pos
    if !(body.isEmpty && f.count == 0 && memberFrame t.h f f.lvl pos && decide (pos < t.h.n f.lvl)) then s.ringReject c b f
    else if m.dead.contains f.step then s
    else if f.step < m.cur then s.ringAck c b 5 f.lvl f.round f.step 1 true false e
    else if m.cur < f.step then s.ringAck c b 5 f.lvl f.round f.step 0 false false e
    else
      match m.step with
      | none => s.ringAck c b 5 f.lvl f.round f.step 1 true false e
      | some st =>
        let v : W32 := BitVec.ofNat 32 f.arg0
        let s := s.ringAck c b 5 f.lvl f.round f.step 1 true false e
        if t.h.standby then (if f.round = 63 ∧ st.q.isNone then s.normDone c v else s)
        else ((s.modStep c fun st => { st with lane := st.lane.take f.lvl pos v }).normRun c).stepBar c

/-- The barriers of a membership go on, and one that waits starts. -/
def State.barNext (s : State) (c : Nat) : State :=
  let s := s.barRun c
  let s := if (s.memb c).barWait ∧ (s.memb c).bar.isNone then
    match s.ctxHolder c with
    | some (p, _) =>
      let s := s.modMemb c fun m => { m with barWait := false }
      let s := s.modPart p fun x => { x with barrier := { x.barrier with busy := true } }
      (s.barStart c (s.part p).barrier.levels true).barRun c
    | none => s
  else s
  s.stepBar c

/-- BAR_FRAME (R358): an earlier number is acknowledged, a later one is answered with READY = 0. -/
def State.barFrame (s : State) (b : Nat) (d : Dgram) : State :=
  s.ringFrame b d [6] fun s c t f body =>
    let m := s.memb c
    let pos := f.posAt f.lvl
    let e := t.ent f.lvl pos
    if !(body.isEmpty && f.count == 0 && f.arg0 == 0 && memberFrame t.h f f.lvl pos && decide (pos < t.h.n f.lvl) && !t.h.standby) then
      s.ringReject c b f
    else
      match m.bar with
      | some x =>
        if m.barDead.contains f.step then s
        else if f.step < x.num then s.ringAck c b 6 f.lvl f.round f.step 1 true false e
        else if x.num < f.step then s.ringAck c b 6 f.lvl f.round f.step 0 false false e
        else
          let s := s.ringAck c b 6 f.lvl f.round f.step 1 true false e
          (s.modMemb c fun m => { m with bar := m.bar.map fun x => { x with lane := x.lane.take f.lvl pos 0#32 } }).barNext c
      | none =>
        if m.barDead.contains f.step then s
        else if f.step < m.barNum then s.ringAck c b 6 f.lvl f.round f.step 1 true false e
        else s.ringAck c b 6 f.lvl f.round f.step 0 false false e

/-- BARRIER_ARRIVE (R265): ARRIVE has changed from clear to set, so the link interface clears it and the barrier starts. A barrier in
progress leaves ARRIVE set. -/
def State.barrierArrive (s : State) (p : Nat) : State :=
  let x := (s.part p).barrier
  match s.ctxOf p x.ring with
  | none => s
  | some c =>
    if x.en ∧ x.due ∧ !x.busy ∧ ((s.part p).cflag x.arrive).read s.now ∧ (s.laneTab c).any (fun y => !y.2.h.standby) then
      let s := s.setChipFlag p x.arrive ⟨false, 6, none, 0, 0⟩
      let s := s.modPart p fun y => { y with barrier := { y.barrier with busy := true } }
      (s.barStart c x.levels true).barNext c
    else s

/-- BARRIER_TIMEOUT: a barrier that has not completed after TOUT ms fails (R358): an event on the membership, and the failure of the
step it belongs to. -/
def State.barTimeout (s : State) (c : Nat) : State :=
  match (s.memb c).bar with
  | none => s
  | some b =>
    if b.told then s
    else
      let port := match s.laneTab c with | some (p, _) => p | none => 0xFF
      let s := s.stepEvent c Code.ringTimeout port b.num (s.ownModid c port)
      if b.chip then ((s.modMemb c fun m => { m with bar := none }).chipBarEnd c false).barNext c
      else s.stepFail c Code.ringTimeout port b.lane.lvl (match s.laneTab c with | some (_, t) => t.h.pos b.lane.lvl | none => 0xFF) 0

/-- PRIORITY_RESEND_TIMEOUT: the oldest NORM or BAR frame that 5 µs have not seen acknowledged is resent, identical (R343,
R358). -/
def State.laneResend (s : State) (c : Nat) (bar : Bool) : State :=
  let l := if bar then (s.memb c).bar.map (·.lane) else (s.memb c).step.map (·.lane)
  match l, s.laneTab c with
  | some l, some (b, t) =>
    match l.unacked with
    | [] => s
    | (lvl, pos, data) :: rest =>
      let e := t.ent lvl pos
      let l' := { l with unacked := rest ++ [(lvl, pos, data)] }
      let s := s.modMemb c fun m =>
        let m := { m with resent := satAt 0xFFFFFFFF (m.resent + 1) }
        if bar then { m with bar := m.bar.map fun x => { x with lane := l' } }
        else { m with step := m.step.map fun x => { x with lane := l' } }
      s.transmit (4 + b) (ringMsg c t.h true e data)
  | _, _ => s

end Sys2Proof.Machine
end

