-- ==== Sys2Proof/Machine/RingStep.lean ====
section
/-!
DEFINITION. A training step on network B: its start (R332-R337), reduction (R339-R345), update (R349-R353), broadcast and
reconstruction (R354-R356, R359), completion and abort (R361-R363).
-/

namespace Sys2Proof

/-- True when two byte ranges share a byte. -/
def rangesMeet (a b : Nat × Nat) : Bool := decide (0 < a.2) && decide (0 < b.2) && decide (a.1 < b.1 + b.2) && decide (b.1 < a.1 + a.2)

/-- True when no two of the ranges share a byte. -/
def rangesApart : List (Nat × Nat) → Bool
  | [] => true
  | a :: l => l.all (fun b => !rangesMeet a b) && rangesApart l

/-- Bytes of an element in a format of an optimizer record. -/
def optBytes (f : Nat) : Nat := if f = 8 then 4 else if f = 0 then 0 else 2

/-- The field rules of the optimizer record (R334). -/
def OptR.wellFormed (o : OptR) (pmask : Nat) : Bool :=
  decide (1 ≤ o.opt) && decide (o.opt ≤ 4) && (o.gfmt == 6 || o.gfmt == 8) && (o.cfmt == 0 || o.cfmt == 6 || o.cfmt == 7)
    && decide (1 ≤ o.nseg) && decide (o.nseg ≤ 4096)
    && (List.range 4).all fun b => [nth 0 o.ostate b, nth 0 o.work b, nth 0 o.cbuf b].all fun a =>
      a % 64 == 0 && (if bit pmask b then a != 0 else a == 0)

/-- The field rules of a segment (R335). -/
def Seg.wellFormed (g : Seg) (cfmt : Nat) : Bool :=
  g.count % 32 == 0 && decide (32 ≤ g.count) && (cfmt != 0 || g.c == 0)

/-- The byte ranges of a segment. -/
def Seg.ranges (g : Seg) (o : OptR) : List (Nat × Nat) :=
  [(g.g, g.count * optBytes o.gfmt), (g.p, g.count * 4)] ++ (if o.cfmt = 0 then [] else [(g.c, g.count * optBytes o.cfmt)])

/-- The own pieces of levels 1 to LEVELS of a port part (R336); a standby has none (R359). -/
def ownPieces (h : RingHdr) (part : Nat × Nat) : List (Nat × Nat) :=
  if h.standby then []
  else
    let p1 := divide part h.n1 h.pos1
    let p2 := divide p1 h.n2 h.pos2
    [p1, p2, divide p2 h.n3 h.pos3].take h.levels

/-- A port at the start of a step. -/
def PStep.start (h : RingHdr) (part : Nat × Nat) : PStep :=
  { part := part, own := ownPieces h part, sent := [0, 0, 0], sums := [0, 0, 0], got := [], bgot := [], bsent := [0, 0, 0], upd := 0,
    full := none, avail := [], recon := 0, writes := 0, q := none, tx := [], rx := [] }

/-- The pieces of segments that a run of entries covers: segment, offset in it, entries. -/
def Step.runs (t : Step) (first n : Nat) : List (Seg × Nat × Nat) :=
  t.segs.filterMap fun g =>
    let a := max first g.first
    let e := min (first + n) (g.first + g.count)
    if a < e then some (g, a - g.first, e - a) else none

/-- The run of available entries that holds an entry, with what is left of it. -/
def PStep.held (q : PStep) (e : Nat) : Option (Nat × Bool) :=
  (q.avail.find? fun r => decide (r.1 ≤ e) && decide (e < r.1 + r.2.1)).map fun r => (r.1 + r.2.1 - e, r.2.2)

/-- Adds a run of available entries; one that continues the last run of its kind extends it. -/
def PStep.hold (q : PStep) (first n : Nat) (full : Bool) : PStep :=
  match findAt (fun r => r.1 + r.2.1 == first && r.2.2 == full) q.avail with
  | some (i, r) => { q with avail := putAt q.avail i (r.1, r.2.1 + n, full) }
  | none => { q with avail := q.avail ++ [(first, n, full)] }

/-- The chain that a position starts (R340): its sub-piece; with one member, the sum itself. -/
def PStep.chain (q : PStep) (h : RingHdr) (l : Nat) : Nat × Nat := q.sub h l ((h.pos l + h.n l - 1) % h.n l)

/-- True when the Reduce phase of a port is over (R338, R346). -/
def Step.reduced (t : Step) (h : RingHdr) (q : PStep) : Bool :=
  (List.range h.levels).all fun i =>
    let l := i + 1
    nth 0 q.sums i == (t.ents (q.piece l)).2 && (h.n l == 1 || (nth 0 q.sent i == (t.ents (q.chain h l)).2
      && (List.range (h.n l)).all fun j => j == (h.pos l + h.n l - 1) % h.n l || j == h.pos l
          || q.got.get 0 (64 * l + j) == (t.ents (q.sub h l j)).2))

/-- True when a port has sent and received what the broadcast carries at a level (R356). -/
def Step.broadcast (t : Step) (h : RingHdr) (q : PStep) (l : Nat) : Bool :=
  h.n l == 1 || (nth 0 q.bsent (l - 1) == (t.ents (q.piece l)).2
    && (List.range (h.n l)).all fun j => j == h.pos l || q.bgot.get 0 (64 * l + j) == (t.ents (q.sub h l j)).2)

/-- SHAPE of an owner-state header (R350). -/
def RingHdr.shape (h : RingHdr) : Nat :=
  h.levels + 2 ^ 2 * (h.n1 - 1) + 2 ^ 8 * (h.n2 - 1) + 2 ^ 14 * (h.n3 - 1) + 2 ^ 20 * h.pos1 + 2 ^ 26 * h.pos2

/-- An owner record (R350). -/
structure OwnerR where
  w : W32
  m : W32
  v : W32
  e : W32
deriving DecidableEq, Repr

/-- Reads an owner record. -/
def OwnerR.read (b : List Byte) : OwnerR :=
  ⟨BitVec.ofNat 32 (fld b 0 4), BitVec.ofNat 32 (fld b 4 4), BitVec.ofNat 32 (fld b 8 4), BitVec.ofNat 32 (fld b 12 4)⟩

/-- The bytes of an owner record. -/
def OwnerR.bytes (r : OwnerR) : List Byte := natLe 4 r.w.toNat ++ natLe 4 r.m.toNat ++ natLe 4 r.v.toNat ++ natLe 4 r.e.toNat

/-- sign(x) as R349 uses it. -/
def fsign (x : W32) : W32 := if isNan x then nan32 else if isNonzero x then (if bit x.toNat 31 then fneg one32 else one32) else 0#32

/-- The optimizer (R349): the new record, and the value `u` of MSGD. -/
def optimize (o : OptR) (k : StepConst) (lr : W32) (r : OwnerR) (gt : W32) : OwnerR × W32 :=
  match o.opt with
  | 1 =>
    let d := fadd gt (fmul o.wd r.w)
    ({ r with w := fsub r.w (fmul lr d) }, 0#32)
  | 2 =>
    let d := fadd gt (fmul o.wd r.w)
    let m := fadd (fmul o.b1 r.m) d
    let u := if o.nest then fadd d (fmul o.b1 m) else m
    ({ r with m := m, w := fsub r.w (fmul lr u) }, u)
  | 3 =>
    let m := fadd (fmul o.b1 r.m) (fmul k.o1 gt)
    let v := fadd (fmul o.b2 r.v) (fmul k.o2 (fmul gt gt))
    ({ r with m := m, v := v, w := fsub (fmul k.k r.w) (fmul k.a (fdiv m (fadd (fsqrt v) k.eps))) }, 0#32)
  | _ =>
    let s := fadd (fmul o.b1 r.m) (fmul k.o1 gt)
    ({ r with w := fsub (fmul k.k r.w) (fmul lr (fsign s)), m := fadd (fmul o.b2 r.m) (fmul k.o2 gt) }, 0#32)

/-- A small number as FP32. -/
def f32OfNat (n : Nat) : W32 := fp32Of false n 0

/-- The corrections of a block (R353) from the values u: alpha, the signs, and the new error memory. -/
def corrections (us : List W32) : W32 × List Bool × List W32 :=
  let a := fdiv (pairSum (us.map fabs)) (f32OfNat us.length)
  let pos := us.map fun u => !isNan u && (!bit u.toNat 31 || !isNonzero u)
  (a, pos, (us.zip pos).map fun x => fsub x.1 (if x.2 then a else fneg a))

/-- The 36 bytes of a block's corrections (R342). -/
def corrBytes (a : W32) (pos : List Bool) : List Byte :=
  natLe 4 a.toNat ++ natLe 32 ((pos.zip (List.range pos.length)).map fun x => b2n x.1 * 2 ^ x.2).sum

/-- The corrections of a block as values, `n` of them (R353). -/
def corrValues (b : List Byte) (n : Nat) : List W32 :=
  let a : W32 := BitVec.ofNat 32 (fld b 0 4)
  (List.range n).map fun i => if bit (fld b 4 32) i then a else fneg a

/-- The check of R344 on one group: what was received with its word, the own values, the results. -/
def groupOk (recvd own out : List W32) (gr : W32) : Bool :=
  let h := fadd (pairSum (recvd.map fabs)) (pairSum (own.map fabs))
  let d := fabs (fsub (pairSum out) (fadd gr (pairSum own)))
  !(flt (fmul h 0x39800000#32) d)

/-- The first entry of the first group that fails a check of R344. -/
def firstBad (ok : List Bool) (first : Nat) : Option Nat := (findAt (fun x => !x) ok).map fun x => first + 64 * x.1

/-- PART_RSTAT (R364): LEVEL is the highest level of the broadcast that is still running (R338, R356); a skipped step stays in the
norm phase until it ends or its barrier runs (log entry 128). -/
def Memb.rstat (m : Memb) : Nat :=
  let tab := m.tabs.findSome? id
  let st := match m.step, tab with
    | some t, some x =>
      if t.bar = 1 then 6
      else if !x.h.standby && !(t.ports.all fun y => t.reduced x.h y.2) then 2
      else if t.skipped || (t.q.isNone && !x.h.standby) then 3
      else if !x.h.standby && !(t.ports.all fun y => decide ((y.2.piece x.h.levels).2 ≤ y.2.upd)) then 4
      else 5
    | _, some _ => if m.bar.isSome then 6 else 1
    | _, none => 0
  let lvl := match m.step, tab with
    | some t, some x =>
      if st = 2 then ((List.range x.h.levels).find? fun i => !(t.ports.all fun y => nth 0 y.2.sums i == (t.ents (y.2.piece (i + 1))).2)).elim x.h.levels (· + 1)
      else if st = 5 then (if x.h.standby then 1
        else max 1 (((List.range x.h.levels).filter fun i => !(t.ports.all fun y => t.broadcast x.h y.2 (i + 1))).foldl (fun a i => max a (i + 1)) 0))
      else 0
    | _, _ => 0
  st + 2 ^ 3 * b2n (match tab with | some x => x.h.standby | none => false) + 2 ^ 4 * b2n m.key.isSome + 2 ^ 5 * lvl + 2 ^ 16 * m.code
    + 2 ^ 32 * m.lastOk

/-- A step's areas (R334, R336, R337), each an address and a length: by port of PMASK the owner state, the work area and the
reduction buffer. A standby keeps no pieces (R359). -/
def Step.areas (t : Step) (h : RingHdr) : List (Nat × Nat) :=
  t.ports.flatMap fun x =>
    let n1 := if h.standby then 0 else (x.2.piece 1).2
    [(nth 0 t.o.ostate x.1, 64 + 16 * (if h.standby then 0 else (t.ents (x.2.piece h.levels)).2)), (nth 0 t.o.work x.1, 1024 * n1),
     (nth 0 t.o.cbuf x.1, 36 * n1)]

/-- The bytes that a step's segments name (R335). -/
def Step.segRanges (t : Step) : List (Nat × Nat) := t.segs.flatMap fun g => g.ranges t.o

/-- True when the context's step has an area or a segment in stack `k` (R415). -/
def Memb.onStack (m : Memb) (k : Nat) : Bool :=
  match m.step, m.tabs.findSome? id with
  | some t, some x => (t.areas x.h ++ t.segRanges).any fun a => rangesMeet a (stackBase k, stackBytes)
  | _, _ => false

end Sys2Proof

namespace Sys2Proof.Machine

/-- The checks at the start of a step (R331, R333, R337): its code, and the step. An area that begins in the view and runs beyond its
stack is short (log entry 127). -/
def State.stepCheck (s : State) (p c : Nat) (desc : List Byte) : State × Nat × Option Step :=
  let d := StepD.read desc
  let m := s.memb c
  let bad := fun (s : State) => (s, Code.ringStepFormat, (none : Option Step))
  let far := fun (s : State) => (s, Code.stackAddress, (none : Option Step))
  match s.laneTab c with
  | none => bad s
  | some (_, t0) =>
    let same := t0.h.ports.all fun b => match m.tab b with
      | some t => t.h.common == t0.h.common && t.ents.map RingEnt.common == t0.ents.map RingEnt.common
      | none => false
    if !(same && d.op == 1 && decide (1 ≤ d.step) && decide (m.lastOk < d.step)
        && (!d.dfen || decide (d.done < (s.part p).allot s.grade))) then bad s
    else if !s.inView p d.orec 192 then far s
    else
      let (s, ob, ok1) := s.anyRead p d.orec 192
      let o := OptR.read ob
      if !ok1 then (s, Code.uncorrectableData, none)
      else if !o.wellFormed t0.h.pmask then bad s
      else if !s.inView p o.vmap (32 * o.nseg) then far s
      else
        let (s, vb, ok2) := s.anyRead p o.vmap (32 * o.nseg)
        let segs := readSegs 0 ((List.range o.nseg).map fun i => slice vb (32 * i) 32)
        if !ok2 then (s, Code.uncorrectableData, none)
        else if !segs.all (·.wellFormed o.cfmt) then bad s
        else
          let len := (segs.map (·.count)).sum
          let nb := cdiv len 256
          let ports := t0.h.ports
          let parts := (ports.zip (List.range ports.length)).map fun x => (x.1, PStep.start t0.h (divide (0, nb) ports.length x.2))
          let st : Step := { d := d, o := o, segs := segs, len := len, k := stepConst o.b1 o.b2 o.eps o.wd d.lr o.biasc d.step, ports := parts,
                             lane := LaneS.start t0.h.levels 0#32, norm := false, q := none, skipped := false, rejected := false, bar := 0 }
          let areas := st.areas t0.h
          let sr := st.segRanges
          let short := fun (a : Nat × Nat) => s.inStacks p a.1 1 && a.1 / stackBytes != (a.1 + max 1 a.2 - 1) / stackBytes
          if !(rangesApart areas && areas.all fun a => sr.all fun b => !rangesMeet a b) || areas.any short then bad s
          else if !(areas ++ sr).all (fun a => s.inStacks p a.1 (max 1 a.2)) then far s
          else (s, Code.ok, some st)

/-- A pending descriptor starts its step on every port of PMASK, or is refused with the step's completion record (R332, R333). -/
def State.stepStart (s : State) (p c : Nat) (desc : List Byte) : State :=
  let d := StepD.read desc
  let s := s.modMemb c fun m => { m with pend := none }
  match s.stepCheck p c desc with
  | (s, _, some t) => s.modMemb c fun m => { m with step := some t, cur := d.step, failed := false, dead := m.dead.filter (· != d.step) }
  | (s, code, none) => (s.modMemb c fun m => { m with code := code }).stepRecord c code d.tag d.step 0xFF 0xFF 0xFF 0

/-- The values that a position adds or starts a chain with (R339): at level 1 its gradients, above its sums in WORK. -/
def State.ownValues (s : State) (b : Nat) (t : Step) (q : PStep) (l first n : Nat) : State × List W32 × Bool :=
  if l = 1 then
    (t.runs first n).foldl (fun (acc : State × List W32 × Bool) r =>
      let sz := optBytes t.o.gfmt
      let x := acc.1.reqRead (r.1.g + r.2.1 * sz) (r.2.2 * sz)
      let v := if t.o.gfmt = 8 then words32 x.2.1 r.2.2 else (List.range r.2.2).map fun i => bf16To32 (fld x.2.1 (2 * i) 2)
      (x.1, acc.2.1 ++ v, acc.2.2 && x.2.2)) (s, [], true)
  else
    let x := s.reqRead (nth 0 t.o.work b + 4 * (first - 256 * (q.piece 1).1)) (4 * n)
    (x.1, words32 x.2.1 n, x.2.2)

/-- Values into WORK (R337). -/
def State.workWrite (s : State) (b : Nat) (t : Step) (q : PStep) (first : Nat) (v : List W32) : State × Bool :=
  s.reqWrite (nth 0 t.o.work b + 4 * (first - 256 * (q.piece 1).1)) (v.flatMap fun x => natLe 4 x.toNat)

/-- Reconstruction of a run of entries (R354): `f` gives the new replica value from the old one and the place in the run. It stops at
data that cannot be corrected (R363). -/
def State.reconstruct (s : State) (t : Step) (first n : Nat) (f : W32 → Nat → W32) : State × Bool :=
  (t.runs first n).foldl (fun (acc : State × Bool) r =>
    if !acc.2 then acc
    else
      let a := r.1.p + 4 * r.2.1
      let x := acc.1.reqRead a (4 * r.2.2)
      if !x.2.2 then (x.1, false)
      else
        let base := r.1.first + r.2.1 - first
        let new := (List.range r.2.2).map fun i => f (BitVec.ofNat 32 (fld x.2.1 (4 * i) 4)) (base + i)
        let y := x.1.reqWrite a (new.flatMap fun y => natLe 4 y.toNat)
        let z := if t.o.cfmt = 0 then (y.1, true)
          else y.1.reqWrite (r.1.c + 2 * r.2.1) (new.flatMap fun y => natLe 2 (convert t.o.cfmt 0 false 0 y).v)
        (z.1, y.2 && z.2)) (s, true)

/-- The sum of squares of a shard (R346). -/
def State.shardNorm (s : State) (b : Nat) (t : Step) (q : PStep) (levels : Nat) : State × W32 × Bool :=
  let sh := q.piece levels
  let r := (List.range sh.2).foldl (fun (acc : State × List W32 × Bool) i =>
    let e := t.ents (sh.1 + i, 1)
    let x := acc.1.ownValues b t q 2 e.1 e.2
    let g := x.2.1.map fun y => fmul y t.d.gscale
    (x.1, acc.2.1 ++ [pairSum (g.map fun y => fmul y y)], acc.2.2 && x.2.2)) (s, [], true)
  (r.1, (match r.2.1 with | [] => 0#32 | x :: l => l.foldl fadd x), r.2.2)

/-- After the Reduce phase of every port, the module value goes to the norm lane (R346). -/
def State.normStart (s : State) (c : Nat) : State :=
  match (s.memb c).step, s.laneTab c with
  | some t, some (_, tab) =>
    if t.norm || tab.h.standby || !(t.ports.all fun x => t.reduced tab.h x.2) then s
    else
      let r := t.ports.foldl (fun (acc : State × List W32 × Option Nat) x =>
        let y := acc.1.shardNorm x.1 t x.2 tab.h.levels
        (y.1, acc.2.1 ++ [y.2.1], if acc.2.2.isNone ∧ ¬ y.2.2 then some x.1 else acc.2.2)) (s, [], none)
      match r.2.2 with
      | some b => r.1.stepFail c Code.uncorrectableData b tab.h.levels (tab.h.pos tab.h.levels) 0
      | none =>
        let q := match r.2.1 with | [] => 0#32 | x :: l => l.foldl fadd x
        (r.1.modStep c fun t => { t with norm := true, lane := { t.lane with x := q } }).normRun c
  | _, _ => s

/-- What follows from the progress of a step: the norm lane starts, a barrier of the step starts (R338, R358). -/
def State.stepNext (s : State) (c : Nat) : State := (s.normStart c).stepBar c

/-- STEP_DESCRIPTOR: port `b`'s step input takes the oldest descriptor whose place is free and gives the route a credit; then
every pending descriptor whose membership runs no step starts (R325, R332, R333). -/
def State.stepDescriptor (s : State) (b : Nat) : State :=
  let core := portBCore s.grade b
  let place := fun (f : Flit) => match s.ctxOf f.part (StepD.read f.entry).ring with
    | some c => (s.memb c).pend.isNone
    | none => true
  let s := match firstOf 0 (fun f => f.dst.tgt == 3 && place f) s.now (s.router core).arrE with
    | none => s
    | some (n, f) =>
      let s := s.edgeTaken core n f.src
      let d := StepD.read f.entry
      match s.ctxOf f.part d.ring with
      | some c => s.modMemb c fun m => { m with pend := some f.entry }
      | none => s.notify f.part ⟨3, Code.ringStepFormat, s.now, natLe 1 d.ring ++ [0xFF, 0xFF, 0xFF] ++ natLe 2 d.tag ++ natLe 2 0 ++ natLe 4 d.step
          ++ natLe 8 0 ++ natLe 4 0⟩
  (List.range 8).foldl (fun s c => match (s.memb c).pend, (s.memb c).step, s.ctxHolder c with
    | some e, none, some (p, _) => s.stepStart p c e
    | _, _, _ => s) s

/-- Values are complete in the own sub-piece of a level: into WORK (R339). -/
def State.sumDone (s : State) (c b l first : Nat) (v : List W32) : State :=
  match (s.memb c).step with
  | none => s
  | some t =>
    match t.port b with
    | none => s
    | some q =>
      let x := s.workWrite b t q first v
      if !x.2 then x.1.stepFail c Code.uncorrectableData b l (match (s.memb c).tab b with | some tab => tab.h.pos l | none => 0xFF) first
      else (x.1.modPStep c b fun q => { q with sums := addAt q.sums (l - 1) v.length }).stepNext c

/-- The next entries of the chain that the position starts at a level, as far as they are complete (R338, R340). -/
def State.chainSend (s : State) (c b l : Nat) : State × Bool :=
  match (s.memb c).step, (s.memb c).tab b with
  | some t, some tab =>
    match t.port b with
    | none => (s, false)
    | some q =>
      let h := tab.h
      let one := h.n l == 1
      let ch := t.ents (q.chain h l)
      let done := if one then nth 0 q.sums (l - 1) else nth 0 q.sent (l - 1)
      let known := if l = 1 then ch.2 else min ch.2 (nth 0 q.sums (l - 2) - (ch.1 - 256 * (q.piece (l - 1)).1))
      let n0 := min (maxCount h) (known - done)
      let n := if done + n0 = ch.2 then n0 else if l = 1 then n0 else n0 / 256 * 256
      if n = 0 ∨ (!one ∧ !s.retainRoom b (4 * n + 4 * cdiv n 64 + 64)) then (s, false)
      else
        let first := ch.1 + done
        let (s, v, ok) := s.ownValues b t q l first n
        if !ok then (s.stepFail c Code.uncorrectableData b l (h.pos l) first, true)
        else if one then (s.sumDone c b l first v, true)
        else
          let s := s.streamSend c b 1 l 0 1 (decide (done + n = ch.2)) first n (valueBody v)
          ((s.modPStep c b fun q => { q with sent := addAt q.sent (l - 1) n }).stepNext c, true)
  | _, _ => (s, false)

/-- A broadcast frame goes to the successor, when `ring` is set, and from position 0 of a level-1 ring to the standbys (R356, R359). -/
def State.spreadSend (s : State) (c b l type : Nat) (ring last : Bool) (arg0 count : Nat) (body : List Byte) : State :=
  match (s.memb c).tab b with
  | none => s
  | some tab =>
    let s := if ring then s.streamSend c b 2 l 0 type last arg0 count body else s
    if l = 1 ∧ tab.h.pos1 = 0 ∧ !tab.h.standby then
      (List.range tab.h.nspare).foldl (fun s i => s.streamSend c b 2 1 (i + 1) type last arg0 count body) s
    else s

/-- The next blocks of the module's own sub-piece at a level of the broadcast, as far as they are held (R355, R356). -/
def State.pieceSend (s : State) (c b l : Nat) : State × Bool :=
  match (s.memb c).step, (s.memb c).tab b with
  | some t, some tab =>
    match t.port b with
    | none => (s, false)
    | some q =>
      let h := tab.h
      let pc := t.ents (q.piece l)
      let done := nth 0 q.bsent (l - 1)
      let first := pc.1 + done
      if h.standby ∨ pc.2 ≤ done ∨ (h.n l = 1 ∧ ¬ (l = 1 ∧ h.pos1 = 0 ∧ 0 < h.nspare)) then (s, false)
      else
        match q.held first with
        | none => (s, false)
        | some (left, full) =>
          let most := min left (pc.2 - done)
          let n := if full then min (maxCount h) most else min (252 * 256) most
          let blocks := cdiv n 256
          let bytes := if full then 4 * n + 4 * cdiv n 64 + 64 else 36 * blocks + 64
          let copies := b2n (h.n l != 1) + (if l = 1 ∧ h.pos1 = 0 then h.nspare else 0)
          if n = 0 ∨ (!full ∧ first % 256 ≠ 0) ∨ !s.retainRoom b (bytes * copies) then (s, false)
          else
            let o := first - 256 * (q.piece 1).1
            let (s, data, ok) := if full then s.reqRead (nth 0 t.o.work b + 4 * o) (4 * n) else s.reqRead (nth 0 t.o.cbuf b + 36 * (o / 256)) (36 * blocks)
            if !ok then (s.stepFail c Code.uncorrectableData b l (h.pos l) first, true)
            else
              let last := decide (done + n = pc.2)
              let s := if full then s.spreadSend c b l 3 (h.n l != 1) last first n (valueBody (words32 data n))
                else s.spreadSend c b l 2 (h.n l != 1) last (first / 256) blocks data
              (s.modPStep c b fun q => { q with bsent := addAt q.bsent (l - 1) n }, true)
  | _, _ => (s, false)

/-- STACK_REQUESTER_COMPLETION: a write of a reconstruction completes, or a read lets the port start a chain or send a piece of
the broadcast, the first that can (R323, R340, R354, R356). -/
def State.requester (s : State) (c b : Nat) (write : Bool) : State :=
  if write then (s.modPStep c b fun q => { q with writes := q.writes - 1 }).stepNext c
  else
    let try_ := fun (acc : State × Bool) (f : State → State × Bool) => if acc.2 then acc else f acc.1
    let fs : List (State → State × Bool) := [fun s => s.chainSend c b 1, fun s => s.chainSend c b 2, fun s => s.chainSend c b 3,
      fun s => s.pieceSend c b 3, fun s => s.pieceSend c b 2, fun s => s.pieceSend c b 1]
    let levels := match (s.memb c).tab b with | some t => t.h.levels | none => 0
    let fs := (fs.take 3).take levels ++ ((fs.drop 3).drop (3 - levels))
    (fs.foldl try_ (s, false)).1

/-- A frame of a stream was accepted (R345): an ACK after 16, or on LAST. -/
def State.accepted (s : State) (c b phase type lvl step : Nat) (last : Bool) (e : RingEnt) : State :=
  match (s.memb c).step with
  | none => s
  | some t =>
    match t.port b with
    | none => s
    | some q =>
      let r := q.recv phase lvl
      let r := { r with next := r.next + 1, since := r.since + 1 }
      if last ∨ 16 ≤ r.since then
        (s.modPStep c b fun q => q.setRecv { r with since := 0 }).ringAck c b type lvl 0 step r.next true false e
      else s.modPStep c b fun q => q.setRecv r

/-- A RED, BCC or BCF frame against the module's step and its stream (R345): `k` handles the next frame of the running step. -/
def State.inStep (s : State) (c b phase : Nat) (f : RingF) (e : RingEnt) (k : State → Step → PStep → State) : State :=
  let m := s.memb c
  if m.dead.contains f.step then s
  else if f.step < m.cur then s.ringAck c b f.type f.lvl 0 f.step (f.lseq + 1) true false e
  else if m.cur < f.step then s.ringAck c b f.type f.lvl 0 f.step 0 false false e
  else
    match m.step with
    | none => s.ringAck c b f.type f.lvl 0 f.step (f.lseq + 1) true false e
    | some t =>
      match t.port b with
      | none => s.ringReject c b f
      | some q =>
        let r := q.recv phase f.lvl
        if f.lseq = r.next then k s t q
        else s.ringAck c b f.type f.lvl 0 f.step r.next true (decide (r.next < f.lseq)) e

/-- The sub-piece of a level that holds an entry, with its entries. -/
def subOf (t : Step) (q : PStep) (h : RingHdr) (l entry : Nat) : Option (Nat × Nat × Nat) :=
  ((List.range (h.n l)).map fun j => (j, t.ents (q.sub h l j))).find? fun x => decide (x.2.1 ≤ entry) && decide (entry < x.2.1 + x.2.2)

/-- RED_FRAME (R339, R340, R344, R345): the partial sums are added to the own values; the own sub-piece keeps them, every other
is sent on. -/
def State.redFrame (s : State) (b : Nat) (d : Dgram) : State :=
  s.ringFrame b d [1] fun s c tab f body =>
    let h := tab.h
    let l := f.lvl
    let n := h.n l
    let e := tab.ent l ((h.pos l + n - 1) % n)
    if !(decide (1 ≤ f.count) && decide (f.count ≤ maxCount h) && body.length == 4 * f.count + 4 * cdiv f.count 64 && decide (l ≤ h.levels)
        && !h.standby && decide (1 < n) && f.arg1 == 0 && memberFrame h f l ((h.pos l + n - 1) % n)) then s.ringReject c b f
    else s.inStep c b 1 f e fun s t q =>
      match subOf t q h l f.arg0 with
      | none => s.ringReject c b f
      | some (j, first, total) =>
        let own := j == h.pos l
        let got := if own then nth 0 q.sums (l - 1) else q.got.get 0 (64 * l + j)
        if j = (h.pos l + n - 1) % n ∨ f.arg0 ≠ first + got ∨ total < got + f.count ∨ f.last ≠ decide (got + f.count = total) then s.ringReject c b f
        else if (l ≠ 1 ∧ nth 0 q.sums (l - 2) < f.arg0 - 256 * (q.piece (l - 1)).1 + f.count) ∨ (!own ∧ !s.retainRoom b (body.length + 64)) then s
        else
          let rv := words32 body f.count
          let gw := words32 (body.drop (4 * f.count)) (cdiv f.count 64)
          let (s, x, ok) := s.ownValues b t q l f.arg0 f.count
          if !ok then s.stepFail c Code.uncorrectableData b l (h.pos l) f.arg0
          else
            let out := (rv.zip x).map fun y => fadd y.1 y.2
            let checks := ((chunks 64 rv).zip ((chunks 64 x).zip ((chunks 64 out).zip gw))).map fun y => groupOk y.1 y.2.1 y.2.2.1 y.2.2.2
            match firstBad checks f.arg0 with
            | some bad => s.stepFail c Code.linkAddMismatch b l (h.pos l) bad
            | none =>
              let s := s.accepted c b 1 1 l f.step f.last e
              if own then s.sumDone c b l f.arg0 out
              else
                let s := s.streamSend c b 1 l 0 1 f.last f.arg0 f.count (valueBody out)
                (s.modPStep c b fun q => { q with got := SMap.set 0 q.got (64 * l + j) (got + f.count) }).stepNext c

/-- A broadcast frame of `cnt` entries from `first` (R354-R356, R359): reconstructed, kept above level 1, and sent on. -/
def State.spreadFrame (s : State) (c b : Nat) (tab : RingTab) (f : RingF) (full : Bool) (body : List Byte) (values : Nat → List W32) : State :=
  let h := tab.h
  let l := f.lvl
  let n := h.n l
  let pred := (h.pos l + n - 1) % n
  let e := if h.standby then tab.ent 1 0 else tab.ent l pred
  if !(if h.standby then l == 1 && memberFrame h f 1 0 else decide (l ≤ h.levels) && decide (1 < n) && memberFrame h f l pred) then s.ringReject c b f
  else s.inStep c b 2 f e fun s t q =>
    let first := if full then f.arg0 else 256 * f.arg0
    match subOf t q h l first with
    | none => s.ringReject c b f
    | some (j, a, total) =>
      let cnt := if full then f.count else min (256 * f.count) (total - (first - a))
      let got := q.bgot.get 0 (64 * l + j)
      let onward := !h.standby && j != (h.pos l + 1) % n
      let copies := b2n onward + (if l = 1 ∧ h.pos1 = 0 ∧ !h.standby then h.nspare else 0)
      if (!h.standby ∧ j = h.pos l) ∨ first ≠ a + got ∨ total < got + cnt ∨ cnt = 0 ∨ f.last ≠ decide (got + cnt = total)
          ∨ (!full ∧ cnt ≠ 256 * f.count ∧ got + cnt ≠ total) ∨ cdiv cnt 256 < (if full then 0 else f.count) then s.ringReject c b f
      else if !s.retainRoom b ((body.length + 64) * copies) then s
      else
        let vs := values cnt
        match if full then firstBad (((groupWords vs).zip (words32 (body.drop (4 * cnt)) (cdiv cnt 64))).map fun y => y.1 == y.2) first else none with
        | some bad => s.stepFail c Code.linkAddMismatch b l (if h.standby then h.pos1 else h.pos l) bad
        | none =>
          let (s, ok) := s.reconstruct t first cnt fun r i => if full then nth 0#32 vs i else fadd r (nth 0#32 vs i)
          if !ok then s.stepFail c Code.uncorrectableData b l (h.pos l) first
          else
            let (s, ok) := if l = 1 then (s, true)
              else if full then s.workWrite b t q first vs
              else s.reqWrite (nth 0 t.o.cbuf b + 36 * (first / 256 - (q.piece 1).1)) body
            if !ok then s.stepFail c Code.uncorrectableData b l (h.pos l) first
            else
            let s := s.accepted c b 2 f.type l f.step f.last e
            let s := s.modPStep c b fun q =>
              let q := { q with bgot := SMap.set 0 q.bgot (64 * l + j) (got + cnt), recon := q.recon + cnt, writes := q.writes + 1 }
              if l = 1 then q else q.hold first cnt full
            (s.spreadSend c b l f.type onward f.last f.arg0 f.count (if full then valueBody vs else body)).stepNext c

/-- BCC_FRAME (R342, R354). -/
def State.bccFrame (s : State) (b : Nat) (d : Dgram) : State :=
  s.ringFrame b d [2] fun s c tab f body =>
    if !(decide (1 ≤ f.count) && decide (f.count ≤ 252) && body.length == 36 * f.count && f.arg1 == 0) then s.ringReject c b f
    else s.spreadFrame c b tab f false body fun n =>
      (List.range f.count).flatMap fun i => corrValues (slice body (36 * i) 36) (min 256 (n - 256 * i))

/-- BCF_FRAME (R342, R344, R355). -/
def State.bcfFrame (s : State) (b : Nat) (d : Dgram) : State :=
  s.ringFrame b d [3] fun s c tab f body =>
    if !(decide (1 ≤ f.count) && decide (f.count ≤ maxCount tab.h) && body.length == 4 * f.count + 4 * cdiv f.count 64 && f.arg1 == 0) then
      s.ringReject c b f
    else s.spreadFrame c b tab f true body fun n => words32 body n

/-- The header of an owner-state area, as compared (R350, R351). -/
def ownerHeader (t : Step) (h : RingHdr) (b : Nat) (sh : Nat × Nat) : List Byte :=
  natLe 1 t.o.opt ++ natLe 4 h.sysid ++ natLe 4 h.shape ++ natLe 1 h.pos3 ++ natLe 1 b ++ natLe 2 0 ++ natLe 8 t.len ++ natLe 8 sh.1 ++ natLe 4 sh.2

/-- The records of a shard restart from the replica (R351): in case 1 with m, v and e zero, in case 2 with e zero. False with the
first data that cannot be corrected. -/
def State.ownerRestart (s : State) (t : Step) (at_ : Nat) (sh : Nat × Nat) (fresh : Bool) : State × Bool :=
  (t.runs sh.1 sh.2).foldl (fun (acc : State × Bool) r =>
    if !acc.2 then acc
    else
      let a := at_ + 64 + 16 * (r.1.first + r.2.1 - sh.1)
      let x := acc.1.reqRead (r.1.p + 4 * r.2.1) (4 * r.2.2)
      let y := if fresh then (x.1, [], true) else x.1.reqRead a (16 * r.2.2)
      if !(x.2.2 && y.2.2) then (y.1, false)
      else
        y.1.reqWrite a ((List.range r.2.2).flatMap fun i =>
          let w : W32 := BitVec.ofNat 32 (fld x.2.1 (4 * i) 4)
          OwnerR.bytes (if fresh then ⟨w, 0#32, 0#32, 0#32⟩ else { OwnerR.read (slice y.2.1 (16 * i) 16) with w := w, e := 0#32 }))) (s, true)

/-- Before the first block of a shard, its header decides the case (R351), and STATE becomes 2. -/
def State.ownerCase (s : State) (c b : Nat) (t : Step) (h : RingHdr) (q : PStep) : State × Option Bool :=
  let sh := t.ents (q.piece h.levels)
  let at_ := nth 0 t.o.ostate b
  let (s, hb, ok) := s.reqRead at_ 64
  if !ok then (s.stepFail c Code.uncorrectableData b h.levels (h.pos h.levels) sh.1, none)
  else
    let differs := fld hb 0 2 != 1 || slice hb 3 11 != (ownerHeader t h b sh).take 11 || slice hb 16 20 != (ownerHeader t h b sh).drop 13 || fld hb 2 1 == 0
    let reason := if differs then 1 else if fld hb 2 1 = 2 then 2 else if t.d.erst then 3 else 0
    let s := if reason = 0 then s else s.stepEvent c Code.ownerStateInit b reason (s.ownModid c b)
    let (s, ok) := if differs then s.reqWrite at_ (natLe 2 1 ++ natLe 1 2 ++ ownerHeader t h b sh) else s.reqWrite (at_ + 2) [2]
    let (s, ok) := if !ok then (s, false) else if reason = 0 then (s, true) else s.ownerRestart t at_ sh (reason == 1)
    if !ok then (s.stepFail c Code.uncorrectableData b h.levels (h.pos h.levels) sh.1, none)
    else (s.modPStep c b fun q => { q with full := some (reason != 0) }, some (reason != 0))

/-- UPDATE_BLOCK (R347-R355): the next block of a port's shard is updated, its corrections are formed, and the module's own
replica takes them. -/
def State.updateBlock (s : State) (c b : Nat) : State :=
  match (s.memb c).step, (s.memb c).tab b with
  | some t, some tab =>
    match t.port b, t.q with
    | some q, some qv =>
      let h := tab.h
      let sh := q.piece h.levels
      if t.skipped ∨ h.standby ∨ sh.2 ≤ q.upd then s
      else
        let (s, full) := match q.full with | some x => (s, some x) | none => s.ownerCase c b t h q
        match full with
        | none => s
        | some full =>
          let pos := h.pos h.levels
          let e := t.ents (sh.1 + q.upd, 1)
          let first := (t.ents sh).1
          let at_ := nth 0 t.o.ostate b + 64 + 16 * (e.1 - first)
          let (s, rb, ok1) := s.reqRead at_ (16 * e.2)
          let (s, g, ok2) := s.ownValues b t q 2 e.1 e.2
          if !(ok1 && ok2) then s.stepFail c Code.uncorrectableData b h.levels pos e.1
          else
            let nrm := fsqrt qv
            let clip := if flt 0#32 t.o.clip && flt t.o.clip nrm then fdiv t.o.clip nrm else one32
            let rs := (List.range e.2).map fun i =>
              let r := OwnerR.read (slice rb (16 * i) 16)
              let gh := fmul (nth 0#32 g i) t.d.gscale
              (r, optimize t.o t.k t.d.lr r (if clip = one32 then gh else fmul gh clip))
            let fine := fun (x : OwnerR × OwnerR × W32) => isFinite x.2.1.w && isFinite x.2.1.m && isFinite x.2.1.v && isFinite x.2.2
            match findAt (fun x => !fine x) rs with
            | some (i, _) => s.stepFail c Code.updateNonfinite b h.levels pos (e.1 + i)
            | none =>
              let us := rs.map fun x => fadd (fsub x.2.1.w x.1.w) x.1.e
              let cr := corrections us
              match if full then none else findAt (fun x => !isFinite x) us, full || isFinite cr.1 with
              | some (i, _), _ => s.stepFail c Code.updateNonfinite b h.levels pos (e.1 + i)
              | none, false => s.stepFail c Code.updateNonfinite b h.levels pos e.1
              | none, true =>
                let es := if full then us.map fun _ => 0#32 else cr.2.2
                let (s, ok1) := s.reqWrite at_ ((rs.zip es).flatMap fun x => OwnerR.bytes { x.1.2.1 with e := x.2 })
                let ws := rs.map fun x => x.2.1.w
                let (s, ok2) := if full then s.workWrite b t q e.1 ws
                  else s.reqWrite (nth 0 t.o.cbuf b + 36 * (e.1 / 256 - (q.piece 1).1)) (corrBytes cr.1 cr.2.1)
                let cv := corrValues (corrBytes cr.1 cr.2.1) e.2
                let (s, ok) := if ok1 && ok2 then s.reconstruct t e.1 e.2 fun r i => if full then nth 0#32 ws i else fadd r (nth 0#32 cv i)
                  else (s, false)
                if !ok then s.stepFail c Code.uncorrectableData b h.levels pos e.1
                else
                  (s.modPStep c b fun q =>
                    { q with upd := q.upd + 1, recon := q.recon + e.2, writes := q.writes + 1 }.hold e.1 e.2 full).stepNext c
    | _, _ => s
  | _, _ => s

/-- ACK_FRAME (R345): the acknowledged number advances; GAP resends from the oldest frame; READY = 0 holds the sender. -/
def State.ackFrame (s : State) (b : Nat) (d : Dgram) : State :=
  s.ringFrame b d [4] fun s c tab f body =>
    let h := tab.h
    let ty := bits f.arg1 7 0
    let ready := bit f.arg1 8
    let gap := bit f.arg1 9
    let pos := f.posAt f.lvl
    if !(body.isEmpty && f.count == 0 && bits f.arg1 31 10 == 0) then s.ringReject c b f
    else if ty = 5 ∨ ty = 6 then
      let lvl := if f.standby then 4 else f.lvl
      let pos := if f.standby then f.pos1 else pos
      if !ready then s
      else if ty = 5 then
        match (s.memb c).step with
        | some t => if t.d.step = f.step then s.modStep c fun t => { t with lane := t.lane.acked lvl pos } else s
        | none => s
      else
        (s.modMemb c fun m => { m with bar := m.bar.map fun x => if x.num = f.step then { x with lane := x.lane.acked lvl pos } else x }).barNext c
    else if ¬ (1 ≤ ty ∧ ty ≤ 3) then s.ringReject c b f
    else
      match (s.memb c).step with
      | none => s
      | some t =>
        let phase := if ty = 1 then 1 else 2
        let peer := if f.standby then f.pos1 + 1 else 0
        match t.port b with
        | none => s
        | some q =>
          if t.d.step ≠ f.step ∨ !(f.standby || memberFrame h f f.lvl ((h.pos f.lvl + 1) % h.n f.lvl)) then s
          else
            let x := q.stream phase f.lvl peer
            if !ready then s.modPStep c b fun q => q.setStream { x with held := true }
            else
              let kept := x.kept.filter fun k => decide (f.arg0 ≤ k.lseq)
              let y := { x with kept := kept, held := false, resends := if kept.length < x.kept.length then 0 else x.resends }
              let s := s.modPStep c b fun q => q.setStream y
              if gap then
                let e := if peer = 0 then tab.ent f.lvl ((h.pos f.lvl + 1) % h.n f.lvl) else tab.ent 4 (peer - 1)
                let s := s.modMemb c fun m => { m with resent := satAt 0xFFFFFFFF (m.resent + kept.length) }
                kept.foldl (fun s k => s.transmit (4 + b) (ringMsg c h false e k.data)) s
              else s

/-- RING_RESEND_TIMEOUT: 50 µs without an advance of the acknowledged number (R345). -/
def State.ringResend (s : State) (c b phase lvl peer : Nat) : State :=
  match (s.memb c).step, (s.memb c).tab b with
  | some t, some tab =>
    match t.port b with
    | none => s
    | some q =>
      match q.tx.find? fun x => x.phase == phase && x.lvl == lvl && x.peer == peer with
      | none => s
      | some x =>
        if x.kept.isEmpty then s
        else if !x.held ∧ 8 ≤ x.resends then s.stepFail c Code.ringTimeout b lvl (tab.h.pos lvl) 0
        else
          let e := if peer = 0 then tab.ent lvl ((tab.h.pos lvl + 1) % tab.h.n lvl) else tab.ent 4 (peer - 1)
          let s := s.modPStep c b fun q => q.setStream { x with resends := if x.held then x.resends else x.resends + 1 }
          let s := s.modMemb c fun m => { m with resent := satAt 0xFFFFFFFF (m.resent + x.kept.length) }
          x.kept.foldl (fun s k => s.transmit (4 + b) (ringMsg c tab.h false e k.data)) s
  | _, _ => s

/-- The port whose part of a step is behind the most: the first that has not reduced its part, else the first that has not
reconstructed it (R338). -/
def State.lagging (s : State) (c : Nat) : Nat × Nat :=
  match (s.memb c).step, s.laneTab c with
  | some t, some (b, tab) =>
    match t.ports.find? fun x => !tab.h.standby && !t.reduced tab.h x.2 with
    | some x => (x.1, tab.h.pos 1)
    | none => match t.ports.find? fun x => t.q.isSome && x.2.recon != (t.ents x.2.part).2 with
      | some x => (x.1, tab.h.pos 1)
      | none => (b, tab.h.pos t.lane.lvl)
  | _, _ => (0xFF, 0xFF)

/-- RING_PROGRESS_TIMEOUT: the module expects frames and has received neither a frame nor READY = 0 for TOUT ms (R345); the norm lane
expects its acknowledgements also once the step is skipped (R347, R358). -/
def State.ringTimeout (s : State) (c : Nat) : State :=
  match (s.memb c).step with
  | none => s
  | some t => if t.spread && t.lane.unacked.isEmpty then s else s.stepFail c Code.ringTimeout (s.lagging c).1 0xFF (s.lagging c).2 0

/-- True when the step of a membership has met every condition of R361. -/
def State.stepComplete (s : State) (c : Nat) : Bool :=
  match (s.memb c).step, s.laneTab c with
  | some t, some (_, tab) =>
    t.spread && (t.q.isSome || tab.h.standby) && t.lane.unacked.isEmpty
      && (t.ports.all fun x => x.2.tx.all fun y => y.kept.isEmpty) && (!t.d.bar || tab.h.standby || (t.bar == 2 && (match (s.memb c).bar with | some b => b.chip | none => true)))
  | _, _ => false

/-- The end of a step that is complete (R361, R347, R351): DONE, then the completion record. -/
def State.stepEnd (s : State) (c : Nat) : State :=
  match (s.memb c).step, s.ctxHolder c with
  | some t, some (p, _) =>
    let code := if t.skipped then Code.gradNonfinite else Code.ok
    let r := if t.skipped then (s, none)
      else t.ports.foldl (fun (acc : State × Option Nat) x =>
        if x.2.full.isNone ∨ acc.2.isSome then acc
        else
          let y := acc.1.reqWrite (nth 0 t.o.ostate x.1 + 2) [1]
          let z := if y.2 then y.1.reqWrite (nth 0 t.o.ostate x.1 + 36) (natLe 4 t.d.step) else y
          (z.1, if z.2 then none else some x.1)) (s, none)
    if r.2.isSome then r.1.stepFail c Code.uncorrectableData (r.2.getD 0xFF) 0xFF 0xFF 0
    else
    let s := r.1
    let s := s.modMemb c fun m => { m with step := none, code := code, lastOk := if t.skipped then m.lastOk else t.d.step }
    let s := if t.d.dfen then s.setChipFlag p t.d.done ⟨true, 6, none, 0, 0⟩ else s
    s.stepRecord c code t.d.tag t.d.step 0xFF 0xFF 0xFF 0
  | _, _ => s

/-- STEP_COMPLETE (R361). -/
def State.stepDone (s : State) (c : Nat) : State := if s.stepComplete c then s.stepEnd c else s

/-- The abort of a membership's step (R362): a step whose completion stands ends OK, any other RING_ABORTED. True when a step was
aborted. -/
def State.stepAbort (s : State) (c : Nat) : State × Bool :=
  if (s.memb c).step.isNone then (s, false)
  else if s.stepComplete c then (s.stepEnd c, false)
  else (s.stepFail c Code.ringAborted 0xFF 0xFF 0xFF 0, true)

/-- RING_STEP_ABORT: a write of PART_RCTL of membership `m` (R26, R362, R365): ABORT_NO_EFFECT tells of a step that has completed; with
none started, or the last one failed, the write has no effect. -/
def State.writeRctl (s : State) (p m v : Nat) : State × Nat :=
  match s.ctxOf p m with
  | none => (s, Code.badArgument)
  | some c =>
    if !bit v 0 then (s, Code.ok)
    else
      let x := s.stepAbort c
      let k := x.1.memb c
      (x.1, if !x.2 && k.cur != 0 && !k.failed && (k.code == Code.ok || k.code == Code.gradNonfinite) then Code.abortNoEffect else Code.ok)

end Sys2Proof.Machine
end

