-- ==== Sys2Proof/Machine/Registers.lean ====
section
/-!
DEFINITION. The registers: what each reads as, and what a write to each does (R4, R20-R23, R55, R64-R70, R139-R141, R173-R176, R209,
R210, R236, R242, R243, R265-R281, R315-R320, R327, R364-R367, R394, R408, R409, R420, R465, R466, R478, R479, R482).
-/

namespace Sys2Proof

/-- A 64-bit word of single bits: bit i is `f i`. -/
def word64 (f : Nat → Bool) : Nat := ((List.range 64).map fun i => b2n (f i) * 2 ^ i).sum

/-- The index of element `o` of a run of `n` registers from `base` with a stride. -/
def elemOf (o base stride n : Nat) : Option Nat :=
  if base ≤ o ∧ (o - base) % stride = 0 ∧ (o - base) / stride < n then some ((o - base) / stride) else none

/-- MGMT_IDENT (R4). -/
def Grade.ident (g : Grade) : Nat := g.code + 2 ^ 8 * g.files + 2 ^ 16 * 48 + 2 ^ 24

/-- CORE_ARRSTAT (R139). -/
def ArrayS.stat (a : ArrayS) : Nat :=
  b2n a.nan + 2 * b2n a.inf + 4 * b2n a.iovf + 8 * b2n a.chkmm + 16 * b2n a.chkna + 2 ^ 32 * a.rows

/-- CORE_ARRCAP (R140). -/
def Core.arrcap (c : Core) : Nat :=
  b2n (!c.rcol0) + 2 * b2n (!c.rcol1) + 4 * b2n c.rrow0 + 8 * b2n c.rcol0 + 16 * b2n c.rrow1 + 32 * b2n c.rcol1

/-- CORE_MEMERR (R243). -/
def MemErr.reg (x : MemErr) : Nat :=
  b2n x.valid + 2 * x.engine + 2 ^ 4 * x.bank + 2 ^ 9 * (x.tau % 4) + 2 ^ 16 * x.code + 2 ^ 32 * x.pc

/-- CORE_VSTAT (R210). -/
def Core.vstat (c : Core) : Nat :=
  b2n c.vflags.nan + 2 * b2n c.vflags.inf + 4 * b2n c.vflags.ovf + 8 * b2n c.vflags.inv + 2 ^ 32 * c.vruns

/-- Entries that a DMA has still to move. -/
def dmaLeft : Option DRun → Nat
  | some r => r.a.entries - r.e
  | none => 0

/-- The tile position views (R173-R176). -/
def Core.tdView (c : Core) (o : Nat) : Nat :=
  match c.sect.tiles[c.tdsel]? with
  | none => 0
  | some t =>
    let d := c.dpos c.tdsel
    if o = 0x488 then d.spos + 2 ^ 24 * d.wpos
    else if o = 0x490 then d.dpos + 2 ^ 32 * d.ofsv
    else if t.fprod then d.prod % 2 ^ 32 + 2 ^ 32 * (d.cons % 2 ^ 32) else 0

/-- CORE_BUFSTAT (R236). -/
def Core.bufstat (c : Core) (b now : Nat) : Nat :=
  match c.buf b with
  | none => 0
  | some x => 1 + 2 * x.cur + 4 * b2n ((c.flag x.d.flag).read now) + 2 ^ 8 * x.d.bank0 + 2 ^ 16 * x.d.bank1 + 2 ^ 24 * x.d.nbank + 2 ^ 32 * x.castles

/-- CORE_QDEPTH (R268). -/
def Queue.reg (q : Queue) : Nat :=
  q.w.depth + 2 ^ 9 * q.occ + 2 ^ 18 * q.cred + 2 ^ 27 * b2n q.bound.isSome + 2 ^ 28 * q.hwm + 2 ^ 37 * q.w.skind + 2 ^ 40 * q.w.sfile
    + 2 ^ 46 * q.w.srank + 2 ^ 52 * q.w.sroute

/-- CORE_ROUTE (R268). -/
def Core.routeReg (c : Core) (r : Nat) : Nat :=
  let x := c.route r
  x.word + 2 ^ 32 * x.credit
    + 2 ^ 41 * (c.out.filter fun o => o.route == r && (match o.cargo with | .entry _ => true | .flag _ _ => true | _ => false)).length + 2 ^ 49 * x.st

/-- CORE_ROTSTAT (R242). -/
def Core.rotstat (c : Core) : Nat :=
  b2n c.rot.isSome + 2 * b2n (!c.rots.isEmpty) + 4 * (c.wbuf.filter fun t => !t.loaded).length + 2 ^ 8 * c.rotNext + 2 ^ 16 * c.rotsDone

/-- HSTK_INFO (R315). -/
def Stack.info (k : Stack) (cap : Nat) : Nat :=
  0x60 + 2 ^ 8 * cap + 2 ^ 13 * k.state + 2 ^ 16 * (16 - (k.spares.map (·.2)).foldl max 0)

/-- HSTK_SCRUB (R316). -/
def Stack.scrubReg (k : Stack) : Nat := k.period + 2 ^ 8 * (100 * k.scrubAt / stackWords) + 2 ^ 15 * k.passes

/-- HSTK_MATCH (R319). -/
def Stack.matchReg (k : Stack) (now : Nat) : Nat :=
  b2n k.run.isSome + 2 * k.mq.length
    + (match k.run with | some m => 2 ^ 16 * max k.items (min m.c.nitem ((now - k.runAt) * Config.scanRate / 1024)) + 2 ^ 48 * m.c.tag | none => 0)

/-- A grant as its 64-byte record (R413). -/
def GrantR.bytes (g : GrantR) (p : Nat) : List Byte :=
  natLe 1 p ++ natLe 1 (b2n g.defd) ++ natLe 6 0 ++ natLe 12 (g.blocks.map fun b => 2 ^ b).sum ++ natLe 1 (g.stks.map fun b => 2 ^ b).sum
    ++ natLe 1 (g.membs.map fun b => 2 ^ b).sum ++ (List.range 4).flatMap (fun i => natLe 1 (nth 0 g.shares i)) ++ natLe 2 0
    ++ (List.range 4).flatMap (fun i => natLe 2 (nth 0 g.book i)) ++ natLe 28 0

end Sys2Proof

namespace Sys2Proof.Machine

/-- Bytes of die `d`'s book that a partition uses (R420, R433, R434): staged setups, replaced ones that a load still reads, and
staging. -/
def State.bookBytes (s : State) (p d : Nat) : Nat :=
  let size := fun (r : Nat) (x : Staged) =>
    (if (s.region p r).seq / 64 = d then x.tables.length else 0) + ((x.sects.filter fun y => dieOfCore y.1 == d).map fun y => y.2.length).sum
  let staged := ((s.book.filter fun x => x.part == p).map fun x => size x.region x).sum
  let read := ((s.regionsOf p).map fun r => match r.2.load with
    | some l => (match l.staged with | some x => if s.book.contains x ∨ l.bookRead then 0 else size r.1 x | none => 0)
    | none => 0).sum
  let staging := ((s.defs.filter fun x => x.part == p).map fun x => match x.k with
    | .image _ _ _ _ st => nth 0 st d
    | _ => 0).sum
  staged + read + staging

/-- True when partition `p` reaches a core (R421, R475). -/
def State.reaches (s : State) (p c : Nat) : Bool :=
  (s.pview p).grants (fileOf c) (rankOf c) && !s.withdrawn.contains (blockOf (fileOf c) (rankOf c))

/-- True when a core's region forbids access to its memories (R214). -/
def State.coreBusy (s : State) (c : Nat) : Bool :=
  match (s.core c).owner with
  | none => false
  | some (p, r) => let st := (s.region p r).state; st == .loading || st == .running || st == .held

/-- True for an address in the registers of a stack that is being cleared, HSTK_INFO apart (R306; log entry 93). -/
def State.stackBusy (s : State) (a : Nat) : Bool :=
  match place s.grade a with
  | .hstk t o => (s.stack t).clearing.isSome && o != 0
  | _ => false

/-- WAITERS of CORE_FLAGDBG (R267). -/
def State.flagWaiters (s : State) (c f : Nat) : Nat :=
  match (s.core c).owner with
  | none => 0
  | some (p, r) =>
    let g := s.region p r
    ((g.starved s.now (g.tab.entry g.gpos.pc)).map fun i =>
      let d := nth GateD.zero g.tab.gates i
      if d.kind = 5 ∧ d.chan = f ∧ g.slotCore d = c then 2 ^ i else 0).sum

/-- A core register: width in bytes and value. -/
def State.coreReg (s : State) (c o : Nat) : Option (Nat × Nat) :=
  let x := s.core c
  match o with
  | 0x400 => some (8, x.a0.stat)
  | 0x408 => some (8, x.a1.stat)
  | 0x410 => some (4, x.arrcap)
  | 0x418 => some (8, x.chklog.reg)
  | 0x480 => some (4, x.tdsel)
  | 0x488 => some (8, x.tdView 0x488)
  | 0x490 => some (8, x.tdView 0x490)
  | 0x498 => some (8, x.tdView 0x498)
  | 0x500 => some (8, x.vstat)
  | 0x508 => some (8, x.velems + 2 ^ 16 * x.ventries + 2 ^ 32 * x.vconsumed)
  | 0x580 => some (8, ((x.banks.take 16).zip (List.range 16)).foldl (fun n y => n + y.1 * 16 ^ y.2) 0)
  | 0x588 => some (8, ((x.banks.drop 16).zip (List.range 8)).foldl (fun n y => n + y.1 * 16 ^ y.2) 0)
  | 0x590 => some (8, x.rotstat)
  | 0x598 => some (8, dmaLeft x.din + 2 ^ 16 * dmaLeft x.dout + 2 ^ 32 * x.dmaMoved)
  | 0x5A0 => some (8, x.memerr.reg)
  | 0x880 => some (4, x.qsel + 2 ^ 16 * b2n x.qempty)
  | 0x980 => some (8, word64 fun i => (x.flag i).read s.now)
  | 0x988 => some (4, x.flagsel)
  | 0x990 =>
    let f := x.flag x.flagsel
    let who := if f.src = 2 ∨ f.src = 3 then f.core.getD 0 else 0
    some (8, b2n (f.read s.now) + 2 * b2n f.lastop + 4 * f.src + 2 ^ 5 * fileOf who + 2 ^ 11 * rankOf who + 2 ^ 17 * f.pc
      + 2 ^ 32 * s.flagWaiters c x.flagsel)
  | 0xA00 => some (8, satAt 0xFFFFFFFF x.eccCorr + 2 ^ 32 * satAt 0xFFFF x.eccUnc + 2 ^ 48 * b2n (s.pendingRetire.contains c))
  | _ =>
    match elemOf o 0x600 8 16, elemOf o 0x800 8 16, elemOf o 0x8C0 8 8, elemOf o 0x900 8 16 with
    | some b, _, _, _ => some (8, x.bufstat b s.now)
    | _, some q, _, _ => some (8, (x.queue q).reg)
    | _, _, some i, _ => some (8, if x.qempty then 0 else fld x.qhead (8 * i) 8)
    | _, _, _, some r => some (8, x.routeReg r)
    | _, _, _, _ => none

/-- True when a region's running lane waits on chip flag `f` (R269): before its start through FWAIT, and while it has tempos to be
granted through a gate. -/
def State.waitsOn (s : State) (p r f : Nat) : Bool :=
  let g := s.region p r
  match g.run with
  | none => false
  | some l =>
    if l.fwait then bits l.lane.fwait 7 0 == f
    else g.load.isNone && !l.done && (g.starved s.now (g.tab.entry g.gpos.pc)).any fun i =>
      let d := nth GateD.zero g.tab.gates i
      d.kind == 6 && d.chan == f

/-- A register of the partition's own PART block. -/
def State.partReg (s : State) (p o : Nat) : Option (Nat × Nat) :=
  let x := s.part p
  let g := x.grant
  let sh := fun i => nth 0 g.shares i
  let bk := fun d => satAt 0xFFFF (cdiv (s.bookBytes p d) 1024)
  match o with
  | 0x000 => some (8, word64 fun i => g.blocks.contains i)
  | 0x008 => some (8, word64 fun i => decide (i < 32) && g.blocks.contains (64 + i))
  | 0x010 => some (8, (g.stks.map fun b => 2 ^ b).sum + 2 ^ 8 * (g.membs.map fun b => 2 ^ b).sum + 2 ^ 16 * sh 0 + 2 ^ 24 * sh 1 + 2 ^ 32 * sh 2
      + 2 ^ 40 * sh 3 + 2 ^ 47 * x.allot s.grade)
  | 0x018 => some (8, nth 0 g.book 0 + 2 ^ 16 * nth 0 g.book 1 + 2 ^ 32 * nth 0 g.book 2 + 2 ^ 48 * nth 0 g.book 3)
  | 0x020 => some (8, bk 0 + 2 ^ 16 * bk 1 + 2 ^ 32 * bk 2 + 2 ^ 48 * bk 3)
  | 0x100 => some (8, x.ms.base)
  | 0x108 => some (4, x.ms.size + 2 ^ 16 * b2n x.ms.en)
  | 0x10C => some (4, x.ms.head)
  | 0x110 => some (4, x.ms.tail)
  | 0x114 => some (4, x.seqState + 2 ^ 16 * x.jobField)
  | 0x118 => some (4, match x.ms.expect with | some v => v + 2 ^ 16 | none => 0)
  | 0x200 => some (4, x.watch.log2)
  | 0x208 => some (8, x.watch.base)
  | 0x210 => some (4, x.watch.size)
  | 0x214 => some (4, b2n x.watch.valid + 2 * b2n x.watch.trunc + 2 ^ 8 * x.watch.missed + 2 ^ 16 * x.watch.seq)
  | 0x300 => some (4, b2n x.sheet.en + 2 * x.sheet.period)
  | 0x308 => some (8, x.sheet.base)
  | 0x310 => some (4, x.sheet.size)
  | 0x314 => some (4, x.sheet.head)
  | 0x318 => some (4, x.sheet.tail)
  | 0x31C => some (4, x.sheet.lost)
  | 0x2020 => some (4, 0)
  | 0x2024 => some (4, x.cfsel)
  | 0x2028 =>
    let f := x.cflag x.cfsel
    let who := if f.src = 3 then f.core.getD 0 else 0
    some (8, b2n (f.read s.now) + 2 * b2n f.lastop + 4 * f.src + 2 ^ 5 * f.region + 2 ^ 13 * fileOf who + 2 ^ 19 * rankOf who)
  | 0x2050 =>
    let b := x.barrier
    some (4, b.arrive + 2 ^ 8 * b.done + 2 ^ 16 * b.levels + 2 ^ 18 * b.ring + 2 ^ 24 * b2n b.en + 2 ^ 25 * b2n b.busy)
  | _ =>
    match elemOf o 0x400 4 48, elemOf o 0x1000 8 256, elemOf o 0x1800 8 256, elemOf o 0x2000 8 4, elemOf o 0x2030 8 4 with
    | some n, _, _, _, _ => some (4, x.sheet.sel.get 0 n)
    | _, some r, _, _, _ => some (8, (x.region r).stat)
    | _, _, some r, _, _ => some (8, (x.region r).hold + 2 ^ 32 * (x.region r).hmax)
    | _, _, _, some w, _ => some (8, word64 fun i => (x.cflag (64 * w + i)).read s.now)
    | _, _, _, _, some w => some (8, word64 fun i => s.waitsOn p (64 * w + i) x.cfsel)
    | _, _, _, _, _ =>
      match elemOf o 0x2100 8 8, elemOf o 0x2140 4 8, elemOf o 0x2180 8 8, elemOf o 0x3000 4 768 with
      | some m, _, _, _ => (s.ctxOf p m).map fun c => (8, (s.memb c).rstat)
      | _, some m, _, _ => (s.ctxOf p m).map fun _ => (4, 0)
      | _, _, some m, _ => (s.ctxOf p m).map fun c => (8, (s.memb c).resent + 2 ^ 32 * (s.memb c).reject)
      | _, _, _, some i => some (4, x.sheet.hist.get 0 i)
      | _, _, _, _ => none

/-- A management register (R4, R465, R466, R478, R482). -/
def State.mgmtReg (s : State) (o : Nat) : Option (Nat × Nat) :=
  let r := s.flash.cur
  let rep := (nth [] s.fuse.repairs (s.repSel / 16))[s.repSel % 16]?
  match o with
  | 0x00 => some (4, s.grade.ident)
  | 0x40 => some (8, r.st0 + 2 ^ 2 * r.st1 + 2 ^ 4 * b2n (s.defs.any fun d => match d.k with | .promote _ _ _ => true | _ => false)
      + 2 ^ 5 * b2n r.fellback + 2 ^ 8 * s.fuse.svn + 2 ^ 16 * s.inForce.sver + 2 ^ 32 * s.running.fwver)
  | 0x48 => some (4, s.pwr.boot.word)
  | 0x80 => some (4, s.retireSel % 2 ^ 12 + 2 ^ 13 * b2n (s.pendingRetire.contains (coreId (s.retireSel % 64) (s.retireSel / 64 % 64))))
  | 0x88 => some (4, s.repSel)
  | 0x90 => some (8, match rep with
    | some x => 1 + 2 * x.kind + 2 ^ 2 * x.drank + 2 ^ 7 * x.pcore + 2 ^ 13 * x.lfile + 2 ^ 19 * x.lrank + 2 ^ 32 * x.cause
    | none => 0)
  | 0xA0 => some (8, s.pwr.dieMax + 2 ^ 8 * s.pwr.stkMax + 2 ^ 16 * s.pwr.tstate + 2 ^ 18 * s.clock)
  | _ => (elemOf o 0xB0 4 4).map fun d => (4, nth 0 s.fuse.wdraw d)

/-- A register of a stack (R315-R320). -/
def State.hstkReg (s : State) (t o : Nat) : Option (Nat × Nat) :=
  let k := s.stack t
  match o with
  | 0x00 => some (4, k.info (profileCap s.pwr.profile))
  | 0x08 => some (4, k.scrubReg)
  | 0x10 => some (8, k.corr + 2 ^ 32 * k.unc)
  | 0x18 => some (8, b2n k.errlog.valid + 2 * k.errlog.src + 2 ^ 8 * k.errlog.line)
  | 0x20 => some (8, k.matchReg s.now)
  | 0x28 => some (8, k.traffic)
  | _ => none

/-- LNKA_STAT and LNKA_RCNT (R408, R409). -/
def State.lnkaReg (s : State) (n o : Nat) : Option (Nat × Nat) :=
  let x := s.port n
  match o with
  | 0 => some (4, b2n x.link + 2 * b2n x.link + 4 * (s.sess.filter fun y => y.port == n).length + 2 ^ 16 * x.foreign)
  | 8 => some (8, x.reject + 2 ^ 32 * x.resent)
  | _ => none

/-- LNKB_STAT and LNKB_RINGTAB as a partition sees them (R327, R367). -/
def State.lnkbReg (s : State) (p n o : Nat) : Option (Nat × Nat) :=
  if o = 0 then
    let x := s.port (4 + n)
    if (s.part p).grant.membs.any fun c => (s.memb c).tabs.any fun x => x.any fun y => y.h.ports.contains n then some (4, b2n x.link + 2 * b2n x.link + 2 ^ 16 * x.foreign) else none
  else match elemOf o 0x200 8 8 with
    | some m => (s.ctxOf p m).map fun c => (8, (s.memb c).ringTabReg n)
    | none => none

/-- The register at a device address as partition `p` reaches it (R20, R419, R421): width in bytes and value. -/
def State.regAt (s : State) (p a : Nat) : Option (Nat × Nat) :=
  match place s.grade a with
  | .mgmt o => if o = 0 ∨ p = 0 then s.mgmtReg o else none
  | .part q o => if q = p then s.partReg p o else none
  | .die d o => if p = 0 ∧ o = 0xA00 then
      some (8, satAt 0xFFFFFFFF (nth (0, 0) s.dieEcc d).1 + 2 ^ 32 * satAt 0xFFFF (nth (0, 0) s.dieEcc d).2) else none
  | .hstk t o => if (s.part p).grant.stks.contains t then s.hstkReg t o else none
  | .lnka n o => if 0 < nth 0 (s.part p).grant.shares n then s.lnkaReg n o else none
  | .lnkb n o => s.lnkbReg p n o
  | .window c o => if s.reaches p c ∧ 0x70000 ≤ o then s.coreReg c (o - 0x70000) else none
  | _ => none

/-- The core whose core memory or accumulator memory an address lies in, as partition `p` reaches it (R214). -/
def State.coreMemAt (s : State) (p a : Nat) : Option Nat :=
  match place s.grade a with
  | .window c o => if s.reaches p c ∧ o < 0x70000 then some c else none
  | _ => none

/-- A register or memory word that a register command may name (R20, R23, R214, R394): its core when it is memory. -/
def State.regOk (s : State) (p a w : Nat) : Bool :=
  (w == 4 || w == 8) && a % 4 == 0 &&
  (match s.regAt p a with
   | some (n, _) => n == w
   | none => (s.coreMemAt p a).isSome && s.coreMemAt p a == s.coreMemAt p (a + w - 1))

/-- Reads one register or word (R394): a read of CORE_QHEAD0 latches first (R268), and an uncorrectable word reads as zero with
false. -/
def State.regRead (s : State) (p a w : Nat) : State × Nat × Bool :=
  let s := match place s.grade a with
    | .window c 0x708C0 => s.qheadLatch c
    | _ => s
  match s.regAt p a with
  | some (_, v) => (s, v, true)
  | none =>
    match s.coreMemAt p a with
    | some c =>
      let e := s.readErrors a w
      ((s.coreCorrected c e.1).coreUncorrectable c e.2, if e.2 = 0 then leNat (s.mem.read a w) else 0, e.2 == 0)
    | none => (s, 0, true)

/-- A write to a core register. -/
def State.writeCore (s : State) (c o v : Nat) : State × Nat :=
  let s' := s.modCore c fun x =>
    let clr := fun (a : ArrayS) => { a with nan := a.nan && !bit v 0, inf := a.inf && !bit v 1, iovf := a.iovf && !bit v 2,
                                            chkmm := a.chkmm && !bit v 3, chkna := a.chkna && !bit v 4 }
    match o with
    | 0x400 => { x with a0 := clr x.a0 }
    | 0x408 => { x with a1 := clr x.a1 }
    | 0x418 => if bit v 0 then { x with chklog := ChkLog.reset } else x
    | 0x480 => { x with tdsel := bits v 7 0 }
    | 0x500 => { x with vflags := ⟨x.vflags.nan && !bit v 0, x.vflags.inf && !bit v 1, x.vflags.ovf && !bit v 2, x.vflags.inv && !bit v 3⟩ }
    | 0x5A0 => if bit v 0 then { x with memerr := MemErr.reset } else x
    | 0x880 => { x with qsel := bits v 3 0 }
    | 0x988 => { x with flagsel := bits v 5 0 }
    | 0xA00 => if bit v 63 then { x with eccCorr := 0, eccUnc := 0 } else x
    | _ => x
  (s', Code.ok)

/-- A write to PART_MSTAIL (R64): a multiple of 16 within the ring. -/
def State.writeMsTail (s : State) (p v : Nat) : State × Nat :=
  let t := bits v 23 0
  if t % 16 = 0 then (s.modMs p fun m => { m with tail := t }, Code.ok) else (s, Code.badArgument)

/-- A write to PART_SNAPBASE or PART_SNAPSIZE (R273, R281). -/
def State.writeSnapBuf (s : State) (p : Nat) (size : Bool) (v : Nat) : State × Nat :=
  let w := (s.part p).watch
  let base := if size then w.base else bits v 47 12 * 4096
  let n := if size then bits v 15 0 else w.size
  if n ≠ 0 ∧ ¬ s.sharedIn p base (n * 4096) then (s, Code.badArgument)
  else (s.modPart p fun x => { x with watch := { x.watch with base := base, size := n } }, Code.ok)

/-- A write to PART_BARRIER (R265). -/
def State.writeBarrier (s : State) (p v : Nat) : State × Nat :=
  let x := s.part p
  let allot := x.allot s.grade
  let lv := bits v 17 16
  let ok := decide (1 ≤ lv) && decide (bits v 7 0 < allot) && decide (bits v 15 8 < allot) && (s.ctxOf p (bits v 20 18)).isSome
  if x.barrier.busy then (s, Code.busy)
  else if !ok then (s, Code.badArgument)
  else (s.modPart p fun x => { x with barrier := ⟨bits v 7 0, bits v 15 8, lv, bits v 20 18, bit v 24, false, false⟩ }, Code.ok)

/-- A write to PART_SSSEL (R278). -/
def State.writeSsSel (s : State) (p n v : Nat) : State × Nat :=
  if (s.part p).sheet.en then (s, Code.busy)
  else if s.reaches p (coreId (bits v 5 0) (bits v 11 6)) then
    (s.modPart p fun x => { x with sheet := { x.sheet with sel := SMap.set 0 x.sheet.sel n (bits v 16 0) } }, Code.ok)
  else (s, Code.badArgument)

/-- A write to PART_SSBASE or PART_SSSIZE, refused while sampling runs (R278). -/
def State.writeSheet (s : State) (p : Nat) (f : Sheet → Sheet) : State × Nat :=
  if (s.part p).sheet.en then (s, Code.busy) else (s.modPart p fun x => { x with sheet := f x.sheet }, Code.ok)

/-- A write to the partition's own PART block; RO registers ignore it (R394). -/
def State.writePart (s : State) (p o v : Nat) : State × Nat :=
  match o with
  | 0x100 => s.writeMsBase p v
  | 0x108 => s.writeMsCtl p v
  | 0x110 => s.writeMsTail p v
  | 0x200 => s.writeWdog p v
  | 0x208 => s.writeSnapBuf p false v
  | 0x210 => s.writeSnapBuf p true v
  | 0x214 => s.writeSnapStat p v
  | 0x300 => s.writeSsCtl p v
  | 0x308 => s.writeSheet p fun t => { t with base := bits v 47 12 * 4096 }
  | 0x310 => if (s.part p).sheet.en = false ∧ bits v 15 0 = 0 then (s, Code.badArgument) else s.writeSheet p fun t => { t with size := bits v 15 0 }
  | 0x318 => (s.modPart p fun x => { x with sheet := x.sheet.setTail (bits v 27 0) }, Code.ok)
  | 0x2020 => s.writeCfop p v
  | 0x2024 => (s.modPart p fun x => { x with cfsel := bits v 7 0 }, Code.ok)
  | 0x2050 => s.writeBarrier p v
  | _ =>
    match elemOf o 0x400 4 48, elemOf o 0x2140 4 8 with
    | some n, _ => s.writeSsSel p n v
    | _, some m => s.writeRctl p m v
    | _, _ => (s, Code.ok)

/-- RETIRE_REQUEST: a write of MGMT_RETIRE (R474, R478). The cause that a retirement at request records is open (log entry 7). -/
def State.writeRetire (s : State) (v : Nat) : State × Nat :=
  let c := coreId (bits v 5 0) (bits v 11 6)
  let t := { s with retireSel := bits v 11 0 }
  if !bit v 12 then (t, Code.ok)
  else if coreActive s.grade (fileOf c) (rankOf c) then
    let y := t.fresh
    (y.1.retireCandidate c (y.2 % 2 ^ 16), Code.ok)
  else (s, Code.badArgument)

/-- A write to a stack's registers (R316-R318). -/
def State.writeHstk (s : State) (t o v : Nat) : State × Nat :=
  match o with
  | 0x08 => if 1 ≤ bits v 5 0 ∧ bits v 5 0 ≤ 48 then (s.modStack t fun k => { k with period := bits v 5 0 }, Code.ok) else (s, Code.badArgument)
  | 0x10 => (if bit v 63 then s.modStack t fun k => { k with corr := 0, unc := 0 } else s, Code.ok)
  | 0x18 => (if bit v 0 then s.modStack t fun k => { k with errlog := ⟨false, 0, 0⟩ } else s, Code.ok)
  | _ => (s, Code.ok)

/-- A write to DIE_ECC (R479). -/
def State.writeDieEcc (s : State) (d v : Nat) : State × Nat :=
  (if bit v 63 then { s with dieEcc := putAt s.dieEcc d (0, 0) } else s, Code.ok)

/-- Writes one register or word (R394, R214): `regOk` has been checked. -/
def State.regWrite (s : State) (p a w v : Nat) : State × Nat :=
  let v := if w = 4 then v % 2 ^ 32 else v % 2 ^ 64
  match s.coreMemAt p a with
  | some c =>
    if s.coreBusy c then (s, Code.busy)
    else ({ s with mem := s.mem.write a (natLe w v) }.mend a w, Code.ok)
  | none =>
    match place s.grade a with
    | .mgmt 0x80 => s.writeRetire v
    | .mgmt 0x88 => ({ s with repSel := bits v 5 0 }, Code.ok)
    | .part _ o => s.writePart p o v
    | .die d 0xA00 => s.writeDieEcc d v
    | .hstk t o => if (s.stack t).clearing.isSome then (s, Code.busy) else s.writeHstk t o v
    | .lnkb n o => (match elemOf o 0x200 8 8 with | some m => s.writeRingTab p n m v | none => (s, Code.ok))
    | .window c o => s.writeCore c (o - 0x70000) v
    | _ => (s, Code.ok)

/-- The words that a REG_READ names, or its code (R394, R214). -/
def State.regReads (s : State) (p a w n : Nat) : State × Nat × List Byte :=
  let as := (List.range n).map fun i => a + i * w
  if !as.all (fun x => s.regOk p x w) then (s, Code.badArgument, [])
  else if as.any fun x => match s.coreMemAt p x with | some c => s.coreBusy c | none => false then (s, Code.busy, [])
  else if as.any s.stackBusy then (s, Code.busy, [])
  else
    let r := as.foldl (fun (acc : State × List Byte × Bool) x =>
      let y := acc.1.regRead p x w
      (y.1, acc.2.1 ++ natLe w y.2.1, acc.2.2 && y.2.2)) (s, [], true)
    if r.2.2 then (r.1, Code.ok, r.2.1) else (r.1, Code.uncorrectableData, [])

end Sys2Proof.Machine
end

