-- ==== Sys2Proof/Machine/Ranow.lean ====
section
/-!
DEFINITION. The Ranow protocol on network A: what a port answers (R370), session setup (R375-R379), delivery and
retransmission (R380-R383), the command ring's messages (R385, R386) and the end of a session (R384).
-/

namespace Sys2Proof

/-- A Ranow header as it was received (R372). -/
structure RHdr where
  magic : Nat
  ver : Nat
  type : Nat
  len : Nat
  sid : Nat
  seq : Nat
deriving DecidableEq, Repr

/-- Reads a header (R372). -/
def RHdr.read (b : List Byte) : RHdr := ⟨fld b 0 2, fld b 2 1, fld b 3 1, fld b 4 2, fld b 8 8, fld b 16 8⟩

/-- True when the datagram is addressed to a port's own address and Ranow port (R370). -/
def PortCfg.owns (c : PortCfg) (dst : Nat) : Bool := dst != 0 && (dst == c.ip4 || dst == c.ip6)

/-- The CLOSE, DSTAT and REJECT payloads (R373, R405). -/
def closePayload (code : Nat) : List Byte := natLe 2 code ++ zeros 6
def dstatPayload (bid state code done : Nat) : List Byte := natLe 1 bid ++ natLe 1 state ++ natLe 2 code ++ zeros 4 ++ natLe 8 done
def rejectPayload (reason : Nat) : List Byte := natLe 2 Code.sessionRejected ++ natLe 1 reason ++ zeros 5

/-- T_M of R375: INIT, and REPLY up to offset 160 of its payload. -/
def HalfOpen.tm (h : HalfOpen) : List Byte := h.init ++ h.reply.take (24 + 160)

/-- SIGM as it stands in the REPLY message (R375). -/
def HalfOpen.sigm (h : HalfOpen) : List Byte := slice h.reply (24 + 160) 114

/-- T_H of R375: T_M, SIGM, and CONFIRM up to offset 64 of its payload. -/
def HalfOpen.th (h : HalfOpen) (confirm : List Byte) : List Byte := h.tm ++ h.sigm ++ confirm.take (24 + 64)

/-- The 72 bytes of R376, from Z, T_H and SIGH. -/
def HalfOpen.secrets (h : HalfOpen) (confirm : List Byte) : List Byte :=
  let z := Config.x448 h.priv (slice h.init (24 + 8) 56)
  Config.shake256 (ascii "RANOW-1 KEYS" ++ z ++ h.th confirm ++ slice confirm (24 + 64) 114) 72

/-- The session that a CONFIRM opens (R376, R382, R386, R400). -/
def HalfOpen.open_ (h : HalfOpen) (port : Nat) (d : Dgram) : Sess :=
  let k := h.secrets d.data
  { sid := h.sid, port := port, part := h.part, mac := d.mac, ip := d.src, udp := d.sport, msgmax := h.msgmax,
    kin := slice k 0 32, kout := slice k 32 32, sin := slice k 64 4, sout := slice k 68 4, confirm := d.data,
    rxNext := 0, rxBuf := [], ackDue := false, rxSince := 0, txNext := 0, ctl := 0, unack := [], txWait := [],
    csize := 2 ^ (12 + bits h.rings 3 0), cring := [], chead := 0, ctail := 0,
    nsize := 2 ^ (12 + bits h.rings 7 4), nring := [], nhead := 0, ntail := 0, mask := 0x000301FF, waitq := [], sentq := [], lost := 0, bursts := [] }

/-- True while a NOTIFY message numbered from `e.2.1` to `e.2.2` waits or is not acknowledged. -/
def Sess.underway (x : Sess) (e : Rec × Nat × Nat) : Bool :=
  decide (x.txNext ≤ e.2.2) || x.unack.any fun m => decide (e.2.1 ≤ m.seq) && decide (m.seq ≤ e.2.2)

/-- The records that outlive their session (R384): job and step completions whose NOTIFY the host has not acknowledged, or that wait
for room. -/
def Sess.kept (x : Sess) : List Rec :=
  ((x.sentq.filter x.underway).map (·.1) ++ x.waitq).filter fun r => r.kind == 2 || r.kind == 3

/-- True when an ACK's fields can hold (R380, R386): NEXT not beyond what was sent, RHEAD within the ring or older. -/
def Sess.ackOk (x : Sess) (next rhead : Nat) : Bool :=
  decide (next ≤ x.txNext) && (decide ((rhead + 2 ^ 32 - x.nhead) % 2 ^ 32 ≤ x.nused) || decide ((x.nhead + 2 ^ 32 - rhead) % 2 ^ 32 ≤ x.nsize))

/-- What an ACK changes (R380, R382, R386): messages below NEXT or under SACK are acknowledged; the time starts anew when
NEXT advances; the notify ring's HEAD moves. -/
def Sess.acked (x : Sess) (next sack rhead : Nat) : Sess :=
  let on := x.unack.any fun m => decide (m.seq < next)
  let left := x.unack.filter fun m => !(decide (m.seq < next) || (decide (next < m.seq) && bit sack (m.seq - next - 1)))
  let y : Sess := { x with unack := if on then left.map fun m => { m with resends := 0 } else left }
  { y with sentq := y.sentq.filter y.underway,
           nhead := if (rhead + 2 ^ 32 - x.nhead) % 2 ^ 32 ≤ x.nused then rhead else x.nhead }

/-- The command ring after an MBOX (R385, R386, R389); none where a rule breaks. HEAD may stand beyond TAIL after R388 has moved
it to the next multiple of the ring size. -/
def Sess.mbox (x : Sess) (b : List Byte) : Option Sess :=
  let ofs := fld b 0 4
  let len := fld b 4 4
  let tail := fld b 8 4
  let reset := bit (fld b 12 1) 0
  let adv := (tail + 2 ^ 32 - x.ctail) % 2 ^ 32
  let lead := (tail + 2 ^ 32 - x.chead) % 2 ^ 32
  let behind := (x.chead + 2 ^ 32 - tail) % 2 ^ 32
  if b.length < 16 ∨ b.length ≠ 16 + len ∨ x.csize < ofs + len then none
  else if reset then
    if 2 ^ 31 ≤ adv then none else some { x with cring := x.cring.write ofs (b.drop 16), chead := tail, ctail := tail }
  else if 2 * x.csize < adv ∨ (x.csize < lead ∧ x.csize < behind) then none
  else some { x with cring := x.cring.write ofs (b.drop 16), ctail := tail }

end Sys2Proof

namespace Sys2Proof.Machine

/-- A discarded frame of R370, or a dropped INIT of R379. -/
def State.foreignA (s : State) (i : Nat) : State := s.modPort i fun x => { x with foreign := satAt 0xFFFF (x.foreign + 1) }

/-- GUARANTEE_YIELDED: the winning rung, the yielding one and the cause; the duration is unknown (R440). -/
def State.yields (s : State) (p win lose cause : Nat) : State :=
  s.event p Code.guaranteeYielded { Ev.none with arg0 := win + 2 ^ 4 * lose + 2 ^ 8 * cause }

/-- TRANSMITTER_FRAME_END (R357, R424, R440): at the boundary the next message is picked. A partition that sent in another's unused
share and still has messages yields when that other one resumes. -/
def State.transmitEnd (s : State) (i : Nat) : State :=
  let x := s.port i
  let t := s.frameEnd i
  match x.cur, (t.port i).cur with
  | some m, some n =>
    if i < 4 ∧ ¬ m.high ∧ ¬ n.high ∧ m.who ≠ n.who ∧ x.surplus ∧ x.resumed.contains n.who ∧ x.wait.any (fun w => w.who == m.who && !w.high) then
      t.yields m.who 4 5 5
    else t
  | _, _ => t

/-- A protected message discarded under R374. -/
def State.rejectA (s : State) (i : Nat) : State := s.modPort i fun x => { x with reject := satAt 0xFFFFFFFF (x.reject + 1) }

/-- True when port `i` receives. -/
def State.portUp (s : State) (i : Nat) : Bool := (s.port i).enabled && (s.port i).link

/-- FOREIGN_FRAME (R370). -/
def State.foreignFrame (s : State) (i : Nat) : State := if s.portUp i then s.foreignA i else s

/-- ARP_REQUEST: an ARP request or neighbour solicitation for `target` from `mac` (R370). -/
def State.arpRequest (s : State) (i mac target : Nat) : State :=
  if !s.portUp i then s
  else if (s.port i).cfg.owns target then
    s.transmit i ⟨true, none, 0, 0, mac, target, 0, natLe 6 (s.port i).cfg.mac ++ natLe 16 target⟩
  else s.foreignA i

/-- ECHO_REQUEST (R370): the reply carries the request's data to its source. -/
def State.echoRequest (s : State) (i : Nat) (d : Dgram) : State :=
  if !s.portUp i then s
  else if (s.port i).cfg.owns d.dst then s.transmit i ⟨true, none, 0, 0, d.mac, d.src, 0, d.data⟩
  else s.foreignA i

/-- LINK_UP (R444): an enabled port comes up when its partner appears. -/
def State.linkUp (s : State) (i : Nat) : State :=
  if (s.port i).enabled then (s.modPort i fun x => { x with link := true }).pick i else s

/-- LINK_DOWN (R408): LINK and ALIGN go to 0. -/
def State.linkDown (s : State) (i : Nat) : State := s.modPort i fun x => { x with link := false }

/-- A setup message of the module (R373, R375) on behalf of partition `p`: it takes the partition's turn (R371). Where the partition
has no share of the port there is no turn for it, and it leaves before the others (log entry 63). -/
def State.setupMsg (s : State) (i p sid : Nat) (d : Dgram) (data : List Byte) : State :=
  s.transmit i ⟨decide (7 < p) || nth 0 (s.part p).grant.shares i == 0, none, p, sid, d.mac, d.src, d.sport, data⟩

/-- REJECT (R378). -/
def State.rejectMsg (s : State) (i p : Nat) (d : Dgram) (reason : Nat) : State :=
  s.setupMsg i p 0 d (ranowHeader 0x04 8 (fld d.data 8 8) 0 ++ rejectPayload reason)

/-- Identifiers in use: of sessions, of half-open ones, and of commands that still run (R384). -/
def State.sids (s : State) : List Nat :=
  s.sess.map (·.sid) ++ s.ports.flatMap (fun x => x.half.map (·.sid)) ++ s.defs.map (·.o.sid)
    ++ s.parts.flatMap fun e => e.2.aborts.map (·.sid)

/-- A nonzero identifier that is not in use, from a free value (R375). -/
def State.newSid (s : State) (n : Nat) : Nat :=
  let used := s.sids
  match ((List.range (used.length + 1)).map fun i => 1 + (n + i) % (2 ^ 64 - 1)).find? fun x => !used.contains x with
  | some x => x
  | none => 0

/-- Why a session of partition `p` cannot open on port `i` (R378); 0 where it can. -/
def State.refusal (s : State) (i p : Nat) : Nat :=
  if 7 < p ∨ ¬ s.defined.contains p ∨ nth 0 (s.part p).grant.shares i = 0 then 2
  else if 16 ≤ (s.sess.filter fun x => x.part == p).length ∨ 64 ≤ s.sess.length then 3
  else if s.pwr.stopped ∨ ¬ s.pwr.ready then 5
  else 0

/-- The REPLY to an INIT that is accepted, and its half-open session (R375, R379). -/
def State.answerInit (s : State) (i : Nat) (d : Dgram) : State :=
  let b := d.data.drop 24
  let (s, n) := s.fresh
  let (s, x) := s.fresh
  let (s, y) := s.fresh
  let sid := s.newSid n
  let priv := natLe 56 x
  let head := ranowHeader 0x02 274 sid 0 ++ natLe 8 1 ++ padTo 56 (Config.x448Pub priv) ++ natLe 32 y ++ padTo 57 Config.identityKey ++ zeros 7
  let sig := padTo 114 (Config.ed448Sig Config.identityKey (ascii "RANOW-M") (d.data ++ head))
  let h : HalfOpen := { sid := sid, part := fld b 2 1, rings := fld b 3 1, msgmax := fld b 4 2, mac := d.mac, ip := d.src, udp := d.sport,
                        init := d.data, reply := head ++ sig, priv := priv }
  (s.modPort i fun p => { p with half := p.half ++ [h] }).setupMsg i h.part h.sid d h.reply

/-- True when an arriving datagram is a Ranow message of type `t` for a port that receives (R370, R373). -/
def State.arrives (s : State) (i : Nat) (d : Dgram) (t : Nat) : Bool :=
  s.portUp i && (s.port i).cfg.owns d.dst && d.udp == (s.port i).cfg.udp && fld d.data 3 1 == t

/-- INIT (R375, R378, R379). -/
def State.initMsg (s : State) (i : Nat) (d : Dgram) : State :=
  if !s.arrives i d 0x01 then s
  else
    let h := RHdr.read d.data
    let b := d.data.drop 24
    let recent := (s.port i).inits.filter fun t => decide (s.now < t + s.clock * 1000000)
    if h.magic ≠ 0x4E52 ∨ h.ver ≠ 1 ∨ h.sid ≠ 0 ∨ h.len ≠ 96 ∨ b.length ≠ 96 then s.rejectA i
    else if 64 ≤ recent.length then s.foreignA i
    else
      let s := s.modPort i fun x => { x with inits := recent ++ [s.now] }
      match (s.port i).half.find? fun x => x.init == d.data with
      | some x => s.setupMsg i x.part x.sid d x.reply
      | none =>
        if 1 < fld b 0 1 ∨ fld b 1 1 < 1 ∨ 4 < bits (fld b 3 1) 3 0 ∨ 4 < bits (fld b 3 1) 7 4 ∨ fld b 4 2 < 1232 ∨ 9146 < fld b 4 2 then
          s.rejectMsg i (fld b 2 1) d 1
        else if s.refusal i (fld b 2 1) ≠ 0 then s.rejectMsg i (fld b 2 1) d (s.refusal i (fld b 2 1))
        else if 16 ≤ (s.port i).half.length then s.foreignA i
        else s.answerInit i d

/-- The half-open session is dropped (R378, R379). -/
def State.dropHalf (s : State) (i sid : Nat) : State := s.modPort i fun x => { x with half := x.half.filter fun h => h.sid != sid }

/-- True when a CONFIRM's signature verifies under a key of the partition (R377). -/
def State.confirmOk (s : State) (h : HalfOpen) (c : List Byte) : Bool :=
  let hpub := slice c 24 57
  slice c (24 + 64) 114 == padTo 114 (Config.ed448Sig hpub (ascii "RANOW-H") (h.th c)) && (s.part h.part).keys.any fun k => decide (k.1 < 4) && k.2 == hpub

/-- CONFIRM (R376-R379). -/
def State.confirmMsg (s : State) (i : Nat) (d : Dgram) : State :=
  if !s.arrives i d 0x03 then s
  else
    let h := RHdr.read d.data
    if h.magic ≠ 0x4E52 ∨ h.ver ≠ 1 ∨ h.len ≠ 178 ∨ d.data.length ≠ 24 + 178 then s.rejectA i
    else
      match (s.port i).half.find? fun x => x.sid == h.sid with
      | some x =>
        let s := s.dropHalf i x.sid
        let why := s.refusal i x.part
        if why = 2 ∨ why = 3 then s.rejectMsg i x.part d why
        else if !s.confirmOk x d.data then s.rejectMsg i x.part d 4
        else if why ≠ 0 then s.rejectMsg i x.part d why
        else ({ s with sess := s.sess ++ [x.open_ i d] }.release x.sid).sendAck x.sid
      | none =>
        if s.sess.any fun x => x.sid == h.sid && x.port == i && x.confirm == d.data then s.sendAck h.sid else s.rejectA i

/-- HALF_OPEN_EXPIRY (R379, log entry 16). -/
def State.halfOpenExpiry (s : State) (i sid : Nat) : State := s.dropHalf i sid

/-- A session ends (R384); `byHost` when the host sent CLOSE. -/
def State.endSession (s : State) (sid : Nat) (byHost : Bool) : State :=
  match s.session sid with
  | none => s
  | some x =>
    let s := { s with sess := s.sess.filter fun y => y.sid != sid }
    let s := x.kept.foldl (fun s r => s.notify x.part r) s
    if byHost then s else s.event x.part Code.sessionLost { Ev.none with port := x.port }

/-- The module closes a session with a code (R373, R374, R384). -/
def State.closeSession (s : State) (sid code : Nat) : State :=
  match s.session sid with
  | none => s
  | some x => (s.transmit x.port (x.msg (x.seal 0x12 x.txNext (closePayload code)))).endSession sid false

/-- True for a TYPE that no message of a host has: NOTIFY, DREAD, DSTAT, and those that R373 does not define. -/
def notOfHost (t : Nat) : Bool := !([0x01, 0x02, 0x03, 0x04, 0x10, 0x11, 0x12, 0x20, 0x30, 0x31].contains t)

/-- A protected message is received (R374): it is discarded and counted, or `k` is given its session, SEQ and payload. One of a TYPE
that no row of the table takes breaks the rules of R373, and closes its session; a REPLY or a REJECT, which carries no tag, is
discarded and counted (log entry 132). -/
def State.authentic (s : State) (i : Nat) (d : Dgram) (t : Nat) (k : State → Nat → Nat → List Byte → State) : State :=
  let y := fld d.data 3 1
  if !(s.arrives i d t || (s.arrives i d y && (notOfHost y || y == 0x02 || y == 0x04))) then s
  else if y = 0x02 ∨ y = 0x04 then s.rejectA i
  else
    let h := RHdr.read d.data
    let c := slice d.data 24 h.len
    match s.session h.sid with
    | none => s.rejectA i
    | some x =>
      let nonce := x.sin ++ natLe 8 h.seq
      if h.magic ≠ 0x4E52 ∨ h.ver ≠ 1 ∨ x.port ≠ i ∨ d.data.length ≠ 24 + h.len + 16
        ∨ fld d.data (24 + h.len) 16 ≠ (Config.gcmTag x.kin nonce (d.data.take 24) c).toNat then s.rejectA i
      else
        let s := s.modSess h.sid fun y => { y with mac := d.mac, ip := d.src, udp := d.sport }
        if h.type ≠ t then s.closeSession h.sid Code.sessionProtocol else k s h.sid h.seq (xorBytes c (Config.gcmStream x.kin nonce h.len))

/-- What follows the room that an ACK makes: messages and records that waited leave (R382, R402). -/
def State.refill (s : State) (sid : Nat) : State :=
  match s.session sid with
  | none => s
  | some x =>
    let s := s.modSess sid fun y => { y with txWait := [] }
    (x.txWait.foldl (fun s m => s.sendRel sid m.1 m.2) s).flush sid

/-- ACK (R380, R382, R386). -/
def State.ackMsg (s : State) (i : Nat) (d : Dgram) : State :=
  s.authentic i d 0x10 fun s sid seq b =>
    match s.session sid with
    | none => s
    | some x =>
      if !bit seq 63 ∨ b.length ≠ 48 ∨ ¬ x.ackOk (fld b 0 8) (fld b 40 4) then s.closeSession sid Code.sessionProtocol
      else (s.modSess sid fun y => y.acked (fld b 0 8) (fld b 8 32) (fld b 40 4)).refill sid

/-- KEEPALIVE (R373, R383): an authenticated message, and nothing else. -/
def State.keepaliveMsg (s : State) (i : Nat) (d : Dgram) : State :=
  s.authentic i d 0x11 fun s sid seq b => if !bit seq 63 ∨ b ≠ [] then s.closeSession sid Code.sessionProtocol else s

/-- An MBOX in its turn (R374, R385). -/
def State.mboxAct (s : State) (sid : Nat) (b : List Byte) : State :=
  match s.session sid with
  | none => s
  | some x =>
    match x.mbox b with
    | some y => s.modSess sid fun _ => y
    | none => s.closeSession sid Code.sessionProtocol

/-- A CLOSE in its turn (R383, R384): it is acknowledged, and the session ends. -/
def State.closeAct (s : State) (sid : Nat) (b : List Byte) : State :=
  if b.length ≠ 8 then s.closeSession sid Code.sessionProtocol else (s.sendAck sid).endSession sid true

/-- RANOW_ACK_TIMER (R381). -/
def State.ackTimer (s : State) (sid : Nat) : State :=
  match s.session sid with
  | some x => if x.ackDue then s.sendAck sid else s
  | none => s

/-- RANOW_RETRANSMIT (R382): a message not acknowledged is sent again; after 12 times the session is lost. -/
def State.retransmit (s : State) (sid seq : Nat) : State :=
  match s.session sid with
  | none => s
  | some x =>
    match x.unack.find? fun m => m.seq == seq with
    | none => s
    | some m =>
      if 12 ≤ m.resends then s.endSession sid false
      else
        let s := s.modSess sid fun y => { y with unack := y.unack.map fun n => if n.seq = seq then { n with resends := n.resends + 1 } else n }
        (s.modPort x.port fun p => { p with resent := satAt 0xFFFFFFFF (p.resent + 1) }).transmit x.port (x.msg m.data)

/-- SESSION_TIMEOUT (R383, log entry 16): 30 s have passed without an authenticated message. -/
def State.sessionTimeout (s : State) (sid : Nat) : State := s.endSession sid false

end Sys2Proof.Machine
end

