-- ==== Sys2Proof/Machine/DataPort.lean ====
section
/-!
DEFINITION. The data port: bursts (R403-R407), and the order in which a session's reliable messages act (R381).
-/

namespace Sys2Proof

/-- Address and bytes of the next chunk of a burst (R404). -/
def Burst.nextChunk (x : Burst) : Nat × Nat := (x.addr + x.next * x.chunk, min x.chunk (x.len - x.next * x.chunk))

/-- Bytes that the chunks done cover (R405, R406). -/
def Burst.doneBytes (x : Burst) : Nat := min x.len (x.next * x.chunk)

/-- The field rules of a DOPEN (R403, R406). -/
def Sess.burstFields (x : Sess) (b : Burst) (dir : Nat) : Bool :=
  decide (b.bid < 16) && !(x.bursts.any fun y => y.bid == b.bid) && decide (dir < 2) && b.chunk % 64 == 0 && decide (64 ≤ b.chunk)
    && decide (b.chunk ≤ 8192) && decide (b.chunk + 48 ≤ x.msgmax) && b.addr % 64 == 0 && b.len % 64 == 0 && decide (64 ≤ b.len)
    && decide (b.len ≤ 2 ^ 40)

end Sys2Proof

namespace Sys2Proof.Machine

/-- The check of a range of a burst (R406): OK, or the code. -/
def State.rangeCode (s : State) (p a n : Nat) : Nat :=
  if a < 8 * stackBytes then
    let t := a / stackBytes
    if ¬ (s.part p).grant.stks.contains t ∨ (t + 1) * stackBytes < a + n then Code.badArgument
    else if (s.stack t).clearing.isSome then Code.busy
    else Code.ok
  else if s.sharedIn p a n then Code.ok
  else
    match s.coreMemAt p a with
    | some c =>
      let o := a - windowBase c
      if (o < 0x60000 ∧ 0x60000 < o + n) ∨ 0x70000 < o + n then Code.badArgument
      else if s.coreBusy c then Code.busy
      else Code.ok
    | none => Code.badArgument

/-- DSTAT (R405). -/
def State.dstat (s : State) (sid bid state code done : Nat) : State := s.sendRel sid 0x33 (dstatPayload bid state code done)

/-- The state with the bursts of a session changed. -/
def State.modBursts (s : State) (sid : Nat) (f : List Burst → List Burst) : State := s.modSess sid fun x => { x with bursts := f x.bursts }

/-- A burst ends, with its DSTAT (R405, R406). -/
def State.burstEnd (s : State) (sid : Nat) (x : Burst) (state code : Nat) : State :=
  (s.modBursts sid fun l => l.filter fun y => y.bid != x.bid).dstat sid x.bid state code x.doneBytes

/-- A chunk of a burst is done: the next one, or the end (R404, R405). -/
def State.burstNext (s : State) (sid : Nat) (x : Burst) : State :=
  let x := { x with next := x.next + 1 }
  if x.len ≤ x.next * x.chunk then s.burstEnd sid x 2 Code.ok
  else s.modBursts sid fun l => l.map fun y => if y.bid = x.bid then x else y

/-- A DOPEN in its turn (R403, R405, R406). -/
def State.dopenAct (s : State) (sid : Nat) (b : List Byte) : State :=
  match s.session sid with
  | none => s
  | some x =>
    if b.length ≠ 24 then s.closeSession sid Code.sessionProtocol
    else
      let y : Burst := ⟨fld b 0 1, fld b 1 1 == 1, fld b 2 2, fld b 8 8, fld b 16 8, 0⟩
      let code := if !x.burstFields y (fld b 1 1) then Code.burstFormat else s.rangeCode x.part y.addr y.len
      if code ≠ Code.ok then s.dstat sid y.bid 3 code 0
      else (s.modBursts sid fun l => l ++ [y]).dstat sid y.bid 1 Code.ok 0

/-- Writes a chunk at its address (R404, R405). -/
def State.chunkWrite (s : State) (p a : Nat) (bs : List Byte) : State :=
  if a < 8 * stackBytes then (s.reqWrite a bs).1
  else if s.sharedIn p a bs.length then s.viewWrite p a bs
  else { s with mem := s.mem.write a bs }.mend a bs.length

/-- Reads a chunk at its address (R404, R406, R471): the state, the data, whether all could be corrected. -/
def State.chunkRead (s : State) (p a n : Nat) : State × List Byte × Bool :=
  if a < 8 * stackBytes ∨ s.sharedIn p a n then s.anyRead p a n
  else
    match s.coreMemAt p a with
    | some c =>
      let e := s.readErrors a n
      ((s.coreCorrected c e.1).coreUncorrectable c e.2, s.mem.read a n, e.2 == 0)
    | none => (s, zeros n, true)

/-- A DWRITE in its turn (R404-R406). A chunk for no open burst, as may follow a burst that has ended, is not written. -/
def State.dwriteAct (s : State) (sid : Nat) (b : List Byte) : State :=
  match s.session sid with
  | none => s
  | some x =>
    if b.length < 8 then s.closeSession sid Code.sessionProtocol
    else
      match x.bursts.find? fun y => y.bid == fld b 0 1 with
      | none => s
      | some y =>
        let (a, n) := y.nextChunk
        if y.rd ∨ fld b 4 4 ≠ y.next ∨ b.length ≠ 8 + n then s.burstEnd sid y 3 Code.burstFormat
        else if s.rangeCode x.part a n ≠ Code.ok then s.burstEnd sid y 3 (s.rangeCode x.part a n)
        else (s.chunkWrite x.part a (b.drop 8)).burstNext sid y

/-- DREAD: the next chunk of a read burst leaves (R404-R406, R471), in its turn at the stack (R45, R407). -/
def State.dread (s : State) (sid bid : Nat) : State :=
  match s.session sid with
  | none => s
  | some x =>
    s.paced (.burst x.port) <| match x.bursts.find? fun y => y.bid == bid with
    | none => s
    | some y =>
      if ¬ y.rd then s
      else
        let (a, n) := y.nextChunk
        if s.rangeCode x.part a n ≠ Code.ok then s.burstEnd sid y 3 (s.rangeCode x.part a n)
        else
          let (s, data, good) := s.chunkRead x.part a n
          if good then (s.sendRel sid 0x32 (natLe 1 bid ++ zeros 3 ++ natLe 4 y.next ++ data)).burstNext sid y
          else s.burstEnd sid y 3 Code.uncorrectableData

/-- A reliable message of the host acts (R373). -/
def State.act (s : State) (sid type : Nat) (b : List Byte) : State :=
  match type with
  | 0x12 => s.closeAct sid b
  | 0x20 => s.mboxAct sid b
  | 0x30 => s.dopenAct sid b
  | 0x31 => s.dwriteAct sid b
  | _ => s

/-- The messages that stand next in SEQ order act, one after the other (R381). -/
def State.drainRx : Nat → State → Nat → State
  | 0, s, _ => s
  | n + 1, s, sid =>
    match s.session sid with
    | none => s
    | some x =>
      match findAt (fun (y : Nat × Nat × List Byte) => y.1 == x.rxNext) x.rxBuf with
      | none => s
      | some (i, y) =>
        State.drainRx n ((s.modSess sid fun z => { z with rxBuf := dropAt z.rxBuf i, rxNext := z.rxNext + 1 }).act sid y.2.1 y.2.2) sid

/-- A reliable message is received (R381): it is kept and acts in its turn; an ACK is due, at once for every 16. Where it lets a chunk
act that waits for a stack, it waits with it (R45, R407, log entry 123). -/
def State.reliable (s : State) (i : Nat) (d : Dgram) (t : Nat) : State :=
  s.paced (.burst i) <| s.authentic i d t fun s sid seq b =>
    match s.session sid with
    | none => s
    | some x =>
      if bit seq 63 then s.closeSession sid Code.sessionProtocol
      else
        let takes := decide (x.rxNext ≤ seq) && decide (seq ≤ x.rxNext + 256) && !(x.rxBuf.any fun y => y.1 == seq)
        let s := s.modSess sid fun y => { y with ackDue := true, rxSince := y.rxSince + 1, rxBuf := if takes then y.rxBuf ++ [(seq, t, b)] else y.rxBuf }
        let s := State.drainRx 257 s sid
        match s.session sid with
        | some y => if 16 ≤ y.rxSince then s.sendAck sid else s
        | none => s

end Sys2Proof.Machine
end

