-- ==== Sys2Proof/Machine/Commands.lean ====
section
/-!
DEFINITION. Commands of the mailbox (R390-R398): who may issue them, what holds an object, and the meanings of the
commands of the host chapter. Each takes the command's origin and its partition.
-/

namespace Sys2Proof

/-- The stacks that a grant change moves to or from a partition. -/
def stksMoved (a b : GrantR) : List Nat := (List.range 8).filter fun t => a.stks.contains t != b.stks.contains t
/-- The membership contexts that a grant change moves. -/
def membsMoved (a b : GrantR) : List Nat := (List.range 8).filter fun c => a.membs.contains c != b.membs.contains c
/-- The blocks that a grant change moves. -/
def blocksMoved (a b : GrantR) : List Nat := (List.range 96).filter fun g => a.blocks.contains g != b.blocks.contains g

/-- The stack of an entry of a MATCH_MULTI, and its fields (R398). -/
def MStk.read (b : List Byte) : MStk := ⟨fld b 0 1, fld b 4 4, fld b 8 8, fld b 16 8, fld b 24 8, fld b 32 8⟩

/-- The match command of a MATCH_MULTI for one stack (R398). -/
def MStk.cmd (x : MStk) (c : MatchC) : MatchC :=
  { c with rdst := true, flag := false, addr := x.addr, nitem := x.nitem, naddr := x.naddr, idbase := x.idbase, raddr := x.waddr }

/-- True when a template gives only the fields that R398 uses. -/
def MatchC.template (c : MatchC) : Bool :=
  c.op == 1 && c.clean && !c.rdst && !c.flag && c.addr == 0 && c.nitem == 0 && c.naddr == 0 && c.idbase == 0 && c.dfile == 0
    && c.drank == 0 && c.dq == 0 && c.flg == 0 && c.raddr == 0

/-- The header and the valid records of a result list (R312): SCANNED, NANCNT, EXCL, records. -/
def resultList (b : List Byte) : Nat × Nat × Nat × List Hit :=
  (fld b 8 4, fld b 12 4, fld b 16 4, (List.range (fld b 4 2)).map fun i =>
    let r := slice b (64 + 16 * i) 16
    ⟨fld r 0 8, BitVec.ofNat 32 (fld r 8 4), fld r 12 1, fld r 13 1⟩)

end Sys2Proof

namespace Sys2Proof.Machine

/-- Deferred commands that a session holds (R391). -/
def State.deferredOf (s : State) (sid : Nat) : Nat :=
  (s.defs.filter fun d => d.o.sid == sid).length
    + (s.parts.map fun e => (e.2.aborts.filter fun o => o.sid == sid).length).sum

/-- The session whose command the firmware may take now (R384, R391, R402, R444). -/
def State.serves (s : State) (sid : Nat) : Option Sess :=
  match s.session sid with
  | none => none
  | some x =>
    if s.pwr.ready && !s.pwr.stopped && !(x.waitq.any fun r => r.kind == 1) && decide (s.deferredOf sid < 16) then some x else none

/-- A command of a session, given its partition. -/
def State.asCommand (s : State) (o : Org) (k : State → Nat → State) : State :=
  match s.serves o.sid with
  | some x => k s x.part
  | none => s

/-- True when a running deferred command holds a region (R391, R426). -/
def State.holdsRegion (s : State) (p r : Nat) : Bool :=
  s.defs.any fun d => d.part == p && (match d.k with | .image x _ _ _ _ => x == r | _ => false)

/-- True when a running deferred command holds a stack (R306, R391). -/
def State.holdsStack (s : State) (t : Nat) : Bool :=
  (s.stack t).clearing.isSome || s.defs.any fun d => match d.k with
    | .matchMulti _ _ _ l _ _ => l.any fun x => x.stack == t
    | .grant q g _ _ _ => (stksMoved (s.part q).grant g).contains t
    | _ => false

/-- True when a running deferred command holds a membership context (R391). -/
def State.holdsMemb (s : State) (c : Nat) : Bool :=
  s.defs.any fun d => match d.k with
    | .grant q g _ _ _ => (membsMoved (s.part q).grant g).contains c
    | _ => false

/-- NOP (R392). -/
def State.doNop (s : State) (o : Org) : State := s.complete o 0x0001 Code.ok []

/-- SUBSCRIBE: the mask, and the held records that it lets through (R400, R401). -/
def State.doSubscribe (s : State) (o : Org) (mask : Nat) : State :=
  ((s.modSess o.sid fun x => { x with mask := mask }).release o.sid).complete o 0x0002 Code.ok []

/-- SESSION_INFO (R392, R399). -/
def State.doSessionInfo (s : State) (o : Org) : State :=
  match s.session o.sid with
  | none => s
  | some x => s.complete o 0x0003 Code.ok (natLe 8 x.sid ++ natLe 1 x.part ++ natLe 1 x.port
      ++ natLe 1 (s.sess.filter fun y => y.part == x.part).length ++ natLe 1 0 ++ natLe 4 x.mask)

/-- REG_READ (R394). A parity error on the register bus completes it with UNCORRECTABLE_DATA (R468). -/
def State.doRegRead (s : State) (o : Org) (p a w n : Nat) (us : List Upset) : State :=
  if n = 0 ∨ 64 < n ∨ (w ≠ 4 ∧ w ≠ 8) then s.complete o 0x0010 Code.badArgument []
  else if us.contains .bus then s.complete o 0x0010 (if (List.range n).all fun i => s.regOk p (a + i * w) w then Code.uncorrectableData else Code.badArgument) []
  else let r := s.regReads p a w n; r.1.complete o 0x0010 r.2.1 r.2.2

/-- REG_WRITE (R394). A parity error on the register bus completes it with UNCORRECTABLE_DATA, and nothing is written (R468). -/
def State.doRegWrite (s : State) (o : Org) (p a w v : Nat) (us : List Upset) : State :=
  if s.regOk p a w then
    if us.contains .bus then s.complete o 0x0011 Code.uncorrectableData [] else
    let r := s.regWrite p a w v; r.1.complete o 0x0011 r.2 []
  else s.complete o 0x0011 Code.badArgument []

/-- REGION_DEFINE (R47, R48, R54, R395, R437). -/
def State.doRegionDefine (s : State) (o : Org) (p r : Nat) (rect : Rect) : State :=
  if s.holdsRegion p r then s.complete o 0x0020 Code.busy []
  else
    let code := s.defineCode p r rect
    if code ≠ Code.ok then s.complete o 0x0020 code []
    else ((s.defineRegion p r rect).modPart p fun x => { x with digs := SMap.set noDigest x.digs r noDigest }).complete o 0x0020 Code.ok []

/-- REGION_RELEASE (R51, R54, R395, R437). -/
def State.doRegionRelease (s : State) (o : Org) (p r : Nat) : State :=
  let st := (s.region p r).state
  if s.holdsRegion p r then s.complete o 0x0021 Code.busy []
  else if st = .undefined then s.complete o 0x0021 Code.badArgument []
  else if st = .loading ∨ st = .running ∨ st = .held then s.complete o 0x0021 Code.regionBusy []
  else ((s.releaseRegion p r).modPart p fun x => { x with digs := SMap.set noDigest x.digs r noDigest }).complete o 0x0021 Code.ok []

/-- JOB_ABORT (R94, R396). -/
def State.doJobAbort (s : State) (o : Org) (p job : Nat) : State := s.abortCommand p o job

/-- RING_KEY (R330, R397). -/
def State.doRingKey (s : State) (o : Org) (p m : Nat) (key : List Byte) : State :=
  let held := match s.ctxOf p m with | some c => s.holdsMemb c | none => false
  if held then s.complete o 0x0030 Code.busy [] else let r := s.ringKey p m (padTo 32 key); r.1.complete o 0x0030 r.2 []

/-- RING_STEP (R333, R397). -/
def State.doRingStep (s : State) (o : Org) (p : Nat) (desc : List Byte) : State :=
  let held := match s.ctxOf p (StepD.read desc).ring with | some c => s.holdsMemb c | none => false
  if held then s.complete o 0x0031 Code.busy [] else let r := s.ringStep p desc; r.1.complete o 0x0031 r.2 []

/-- The commands of MATCH_MULTIs that wait for a place at stack `t` go into its queue while there is one (R309, R398). -/
def State.issueMulti (s : State) (t : Nat) : State :=
  (List.range s.defs.length).foldl (fun s i =>
    match s.defs[i]? with
    | some d => (match d.k with
      | .matchMulti num ra c l qs todo =>
        if todo.contains t ∧ (s.stack t).mq.length < 8 then
          match l.find? fun x => x.stack == t with
          | some x =>
            let s := s.modStack t fun k => { k with mq := k.mq ++ [⟨x.cmd c, none, d.part, 0, num, qs, 0⟩] }
            { s with defs := putAt s.defs i { d with k := .matchMulti num ra c l qs (todo.filter (· != t)) } }
          | none => s
        else s
      | _ => s)
    | none => s) s

/-- The first code that refuses a stack's part of a MATCH_MULTI (R308, R398). -/
def State.multiCode (s : State) (p : Nat) (c : MatchC) (l : List MStk) : Nat :=
  match (l.map fun x => s.matchCode p x.stack (x.cmd c)).find? fun code => code != Code.ok with
  | some code => code
  | none => Code.ok

/-- MATCH_MULTI (R391, R398). -/
def State.doMatchMulti (s : State) (o : Org) (p qaddr raddr : Nat) (tmpl : List Byte) (l : List MStk) : State :=
  let c := MatchC.read tmpl
  let done := fun (s : State) code => s.complete o 0x0040 code []
  if l.length = 0 ∨ 8 < l.length ∨ !noDup (l.map (·.stack)) ∨ qaddr % 64 ≠ 0 ∨ raddr % 64 ≠ 0 then done s Code.badArgument
  else if !(l.all fun x => (s.part p).grant.stks.contains x.stack) then done s Code.stackAddress
  else if l.any fun x => s.holdsStack x.stack then done s Code.busy
  else if !c.template then done s Code.matchFormat
  else if s.multiCode p c l ≠ Code.ok then done s (s.multiCode p c l)
  else if !s.sharedIn p qaddr (4 * c.nq * c.dim) ∨ !s.sharedIn p raddr c.resultBytes then done s Code.badArgument
  else
    let (s, bs, good) := s.sharedRead p qaddr (4 * c.nq * c.dim)
    let qs := chunks 64 bs
    if !good then done s Code.uncorrectableData
    else if !(⟨c, none, p, 0, 0, qs, 0⟩ : MCmd).queriesOk then done s Code.matchFormat
    else
      let s := { s with multiNum := s.multiNum + 1,
                        defs := s.defs ++ [⟨o, p, 0x0040, .matchMulti s.multiNum raddr c l qs (l.map (·.stack))⟩] }
      l.foldl (fun s x => s.issueMulti x.stack) s

/-- True when a stack still has a command of MATCH_MULTI `num`. -/
def State.multiRuns (s : State) (num : Nat) : Bool :=
  s.stks.any fun e => (e.2.mq ++ e.2.run.toList).any fun m => m.src.isNone && m.multi == num

/-- One query's lists of every stack, read from the work areas (R312, R398). -/
def State.multiLists (s : State) (c : MatchC) (l : List MStk) (q : Nat) : State × List (Nat × Nat × Nat × List Hit) × Bool :=
  let n := 64 * (1 + cdiv c.k 4)
  l.foldl (fun (acc : State × List (Nat × Nat × Nat × List Hit) × Bool) x =>
    let r := acc.1.reqRead (x.waddr + q * n) n
    (r.1, acc.2.1 ++ [resultList r.2.1], acc.2.2 && r.2.2)) (s, [], true)

/-- The merged entries of one query (R312, R314). -/
def mergeLists (c : MatchC) (q : Nat) (ls : List (Nat × Nat × Nat × List Hit)) : List Entry :=
  let sum := fun (f : Nat × Nat × Nat × List Hit → Nat) => (ls.map f).sum % 2 ^ 32
  resultEntries c.tag q c.metric c.k (sum (·.1)) (sum (·.2.1)) (sum (·.2.2.1)) (topHits c.metric c.k (ls.flatMap (·.2.2.2))) 0

/-- The work areas after the command: undefined, so free values (R398, log entry 7). -/
def State.freeWork (s : State) (c : MatchC) (l : List MStk) : State :=
  l.foldl (fun (s : State) x =>
    let (s, v) := s.fresh
    { s with mem := s.mem.write x.waddr (natLe c.resultBytes v) }) s

/-- MATCH_MULTI_MERGE of deferred command `i` (R314, R398). -/
def State.multiMerge (s : State) (i : Nat) : State :=
  match s.defs[i]? with
  | some ⟨o, p, _, .matchMulti num raddr c l _ todo⟩ =>
    if todo ≠ [] ∨ s.multiRuns num then s
    else
      let fail := (s.multiFail.find? fun x => x.1 == num).map (·.2)
      let s := { s with defs := dropAt s.defs i, multiFail := s.multiFail.filter fun x => x.1 != num }
      match fail with
      | some code => (s.freeWork c l).complete o 0x0040 code []
      | none =>
        let r := (List.range c.nq).foldl (fun (acc : State × List Entry × Bool) q =>
          let y := acc.1.multiLists c l q
          (y.1, acc.2.1 ++ mergeLists c q y.2.1, acc.2.2 && y.2.2)) (s, [], true)
        let s := r.1.freeWork c l
        if !r.2.2 then s.complete o 0x0040 Code.uncorrectableData []
        else if !s.sharedIn p raddr c.resultBytes then s.complete o 0x0040 Code.badArgument []
        else (s.viewWrite p raddr r.2.1.flatten).complete o 0x0040 Code.ok []
  | _ => s

end Sys2Proof.Machine
end

