-- ==== Sys2Proof/Machine/Partitions.lean ====
section
/-!
DEFINITION. Grants, host keys and the settings that keep them (R411-R426, R459, R460), and the clearing of a stack that changes
holder (R306).
-/

namespace Sys2Proof

/-- Reads a grant record (R413). -/
def GrantR.read (b : List Byte) : GrantR :=
  { defd := bit (fld b 1 1) 0, blocks := (List.range 96).filter fun g => bit (fld b 8 12) g,
    stks := (List.range 8).filter fun t => bit (fld b 20 1) t, membs := (List.range 8).filter fun c => bit (fld b 21 1) c,
    shares := (List.range 4).map fun i => fld b (22 + i) 1, book := (List.range 4).map fun d => fld b (28 + 2 * d) 2 }

/-- The field rules of a grant record in a GRANT_SET (R413, R414). -/
def grantFields (grade : Grade) (b : List Byte) : Bool :=
  let g := GrantR.read b
  decide (1 ≤ fld b 0 1) && decide (fld b 0 1 ≤ 7) && g.defd && bits (fld b 1 1) 7 2 == 0 && allZero (slice b 2 6) && g.blocks.all (blockActive grade)
    && g.shares.all (fun n => decide (n ≤ 64)) && allZero (slice b 26 2) && g.book.all (fun n => decide (n ≤ 480)) && allZero (slice b 36 28)

/-- What partition 0 holds beside the grants of the others (R412). -/
def ownerGrant (grade : Grade) (gs : List GrantR) : GrantR :=
  let all := GrantR.all grade
  { defd := true, blocks := all.blocks.filter fun b => !gs.any fun g => g.blocks.contains b,
    stks := all.stks.filter fun t => !gs.any fun g => g.stks.contains t,
    membs := all.membs.filter fun c => !gs.any fun g => g.membs.contains c,
    shares := (List.range 4).map fun i => 64 - (gs.map fun g => nth 0 g.shares i).sum,
    book := (List.range 4).map fun d => 480 - (gs.map fun g => nth 0 g.book d).sum }

/-- Elements of the first list that the second lacks. -/
def without (a b : List Nat) : List Nat := a.filter fun x => !b.contains x

/-- ARG0 of GRANT_CHANGED (R416): what a holding lost and gained. -/
def grantArg (old new : GrantR) : Nat :=
  let less := fun (a b : GrantR) => b2n ((without a.blocks b.blocks) != []) + 2 * b2n ((without a.stks b.stks) != [])
    + 4 * b2n ((without a.membs b.membs) != []) + 8 * b2n ((List.range 4).any fun i => decide (nth 0 b.shares i < nth 0 a.shares i))
  less old new + 16 * less new old

/-- What distinguishes the items of a settings slot (R459). -/
def itemKey (x : Nat × List Byte) : Nat × Nat :=
  match x.1 with
  | 1 => (1, fld x.2 0 1)
  | 3 => (3, fld x.2 0 1)
  | 4 => (4, fld x.2 0 2)
  | t => (t, 0)

/-- Items without the one of a key. -/
def dropItem (l : List (Nat × List Byte)) (k : Nat × Nat) : List (Nat × List Byte) := l.filter fun x => itemKey x != k

/-- Items with one replaced or added. -/
def setItem (l : List (Nat × List Byte)) (x : Nat × List Byte) : List (Nat × List Byte) := dropItem l (itemKey x) ++ [x]

/-- The bytes of an item (R459). -/
def itemBytes (x : Nat × List Byte) : List Byte := padTo (8 * cdiv (4 + x.2.length) 8) (natLe 2 x.1 ++ natLe 2 x.2.length ++ x.2)

/-- The bytes of a slot: header and items (R459). -/
def SetSlot.bytes (x : SetSlot) : List Byte :=
  let items := x.items.flatMap itemBytes
  let head := natLe 2 0x5453 ++ natLe 2 x.sver ++ natLe 4 x.seq ++ natLe 4 items.length ++ natLe 2 x.items.length ++ zeros 18
  head ++ padTo 32 (Config.shake256 (head ++ items) 32) ++ items

/-- The slot that a write of settings replaces (R460): the one with the lowest SEQ, but for the retained slot. An invalid or
empty slot counts below every SEQ. -/
def Flash.target (f : Flash) (sver : Nat) : Nat :=
  let seq := fun (i : Nat) => match nth none f.slots i with | some x => x.seq + 1 | none => 0
  let older := (List.range 4).filter fun i => match nth none f.slots i with | some x => decide (x.sver < sver) | none => false
  let retained := older.foldl (fun (r : Option Nat) i => match r with | some j => if seq j < seq i then some i else some j | none => some i) none
  let free := (List.range 4).filter fun i => some i != retained
  free.foldl (fun (b : Nat) i => if seq i < seq b then i else b) (nth 0 free 0)

/-- SEQ of the next write (R459, R460): the highest of the valid slots, and 1. -/
def Flash.nextSeq (f : Flash) : Nat := ((f.slots.map fun x => match x with | some y => y.seq | none => 0).foldl max 0 + 1) % 2 ^ 32

/-- The code of a command that writes settings: a flash write or its read-back can fail (R467, log entry 133). -/
def writeCode (done : Bool) : Nat := if done then Code.ok else Code.flashWriteFail

/-- The messages of a partition whose share of a port falls to 0 (R416, R424): its CLOSE messages leave before the others' turns, and
what else waits is not sent (log entry 130). -/
def Port.lastCloses (x : Port) (p : Nat) : Port :=
  { x with wait := (x.wait.filter fun m => m.high || m.who != p || fld m.data 3 1 == 0x12).map fun m =>
      if m.who = p then { m with high := true } else m }

end Sys2Proof

namespace Sys2Proof.Machine

/-- A new settings slot with these items, in force at once, and whether it was written (R459, R460). Whether the flash takes it is a free
value; a slot written in part is invalid, and the one before it stays in force (log entry 133). -/
def State.writeSettings (s : State) (items : List (Nat × List Byte)) : State × Bool :=
  let (s, n) := s.fresh
  let x : SetSlot := ⟨s.inForce.sver, s.flash.nextSeq, items⟩
  let i := s.flash.target s.inForce.sver
  if n % 2 = 0 then ({ s with inForce := x, flash := { s.flash with slots := putAt s.flash.slots i (some x) } }, true)
  else ({ s with flash := { s.flash with slots := putAt s.flash.slots i none } }, false)

/-- HOSTKEY_SET (R425, R426). -/
def State.doHostkeySet (s : State) (o : Org) (p q slot op : Nat) (key : List Byte) : State :=
  if p ≠ 0 ∧ q ≠ p then s.complete o 0x0103 Code.notPermitted []
  else if ¬ s.defined.contains q ∨ 3 < slot ∨ 1 < op then s.complete o 0x0103 Code.badArgument []
  else
    let v := if op = 1 then padTo 57 key else []
    let item := (4, natLe 1 q ++ natLe 1 slot ++ v)
    let w := s.writeSettings (if op = 1 then setItem s.inForce.items item else dropItem s.inForce.items (itemKey item))
    let s := if w.2 then w.1.modPart q fun x => { x with keys := SMap.set [] x.keys slot v } else w.1
    s.complete o 0x0103 (writeCode w.2) []

/-- GRANT_READ (R419, R426). -/
def State.doGrantRead (s : State) (o : Org) (p q : Nat) : State :=
  if p ≠ 0 ∧ q ≠ p then s.complete o 0x0102 Code.notPermitted []
  else if ¬ s.defined.contains q then s.complete o 0x0102 Code.badArgument []
  else s.complete o 0x0102 Code.ok ((s.part q).grant.bytes q)

/-- The grants of partitions 1-7 once partition `q` holds `g`. -/
def State.grantsWith (s : State) (q : Nat) (g : GrantR) : List GrantR :=
  ((List.range 8).filter (0 < ·)).map fun p => if p = q then g else (s.part p).grant

/-- The new record of partition 0 once partition `q` holds `g` (R412). -/
def State.ownerWith (s : State) (q : Nat) (g : GrantR) : GrantR := ownerGrant s.grade (s.grantsWith q g)

/-- GRANT_CONFLICT of R414. -/
def State.grantConflict (s : State) (q : Nat) (g : GrantR) : Bool :=
  let others := ((List.range 8).filter fun p => 0 < p && p != q).map fun p => (s.part p).grant
  let own := s.ownerWith q g
  let tight := fun (p : Nat) (new : GrantR) => (List.range 4).any fun d =>
    decide (nth 0 new.book d < nth 0 (s.part p).grant.book d) && decide (nth 0 new.book d * 65536 < s.bookBytes p d)
  (g.blocks.any fun b => others.any fun x => x.blocks.contains b) || (g.stks.any fun t => others.any fun x => x.stks.contains t)
    || (g.membs.any fun c => others.any fun x => x.membs.contains c)
    || ((List.range 4).any fun i => decide (64 < ((g :: others).map fun x => nth 0 x.shares i).sum))
    || ((List.range 4).any fun d => decide (480 < ((g :: others).map fun x => nth 0 x.book d).sum))
    || own.shares.all (· == 0) || tight q g || tight 0 own

/-- True when a stack has a request, a match command or a step area of partition `p` in progress (R415). -/
def State.stackUse (s : State) (p t : Nat) : Bool :=
  (s.agents.any fun a => stackAt a.1 == t && (rankOf a.1 == 0 || rankOf a.1 == 47) && a.2.reqs.any fun q => q.part == p)
    || (((s.stack t).mq ++ (s.stack t).run.toList).any fun m => m.part == p)
    || s.membs.any fun m => (s.part p).grant.membs.contains m.1 && m.2.onStack t

/-- True when a change from one record to another takes a resource in use from partition `p` (R415). -/
def State.takesUsed (s : State) (p : Nat) (old new : GrantR) : Bool :=
  (without old.blocks new.blocks).any (fun b => (s.part p).job.isSome
      || (s.regionsOf p).any fun r => r.2.rect.cores.any fun c => blockOf (fileOf c) (rankOf c) == b)
    || (without old.stks new.stks).any (fun t => s.stackUse p t)
    || (without old.membs new.membs).any (fun c => (s.memb c).busy)
    || (List.range 4).any fun i => decide (0 < nth 0 old.shares i) && nth 0 new.shares i == 0 && s.sess.any fun x => x.part == p && x.port == i

/-- The partitions whose holding a change alters, with their new records. -/
def State.grantSides (s : State) (q : Nat) (g : GrantR) : List (Nat × GrantR) :=
  [(q, g), (0, s.ownerWith q g)].filter fun x => (s.part x.1).grant != x.2

/-- The partitions that lose a block by a change. -/
def State.blockLosers (s : State) (q : Nat) (g : GrantR) : List Nat :=
  ((s.grantSides q g).filter fun x => without (s.part x.1).grant.blocks x.2.blocks != []).map (·.1)

/-- A stack is taken from partition `p`: what still uses it ends, so that nothing of the next holder is reached (R415, R416). -/
def State.stopStack (s : State) (p t : Nat) : State :=
  let job := (s.agents.any fun a => stackAt a.1 == t && (rankOf a.1 == 0 || rankOf a.1 == 47) && a.2.reqs.any fun q => q.part == p)
    || (((s.stack t).mq ++ (s.stack t).run.toList).any fun m => m.part == p && m.src.isSome)
  let s := if job then s.failJob p Code.stackAddress none none else s
  let mine := fun (m : MCmd) => m.src.isNone && m.part == p
  let cut := ((s.stack t).mq ++ (s.stack t).run.toList).filter mine
  let s := s.modStack t fun k => { k with mq := k.mq.filter fun m => !mine m,
                                          run := if (match k.run with | some m => mine m | none => false) then none else k.run }
  let s := { s with multiFail := s.multiFail ++ cut.map fun (m : MCmd) => (m.multi, Code.stackAddress) }
  s.membs.foldl (fun (s : State) (m : Nat × Memb) => if (s.part p).grant.membs.contains m.1 ∧ m.2.onStack t then (s.stepAbort m.1).1 else s) s

/-- The jobs of the partitions that lose a block are aborted (R416). -/
def State.abortLosers (s : State) (q : Nat) (g : GrantR) : State := (s.blockLosers q g).foldl (fun s p => s.abortJob p) s

/-- True when the jobs of the partitions that lose a block have ended. -/
def State.losersIdle (s : State) (q : Nat) (g : GrantR) : Bool := (s.blockLosers q g).all fun p => (s.part p).job.isNone

/-- A grant change starts (R391, R416): the jobs of losers are aborted and the stacks that move begin to be cleared,
for which the partitions that gain them wait (R440). -/
def State.grantStart (s : State) (o : Org) (op q : Nat) (g : GrantR) (delete : Bool) : State :=
  let moved := stksMoved (s.part q).grant g
  let s := s.abortLosers q g
  let s := moved.foldl (fun s t =>
    let from_ := if g.stks.contains t then 0 else q
    ((s.stopStack from_ t).modStack t fun k => { k with clearing := some (if g.stks.contains t then q else 0) })) s
  let gain := (if g.stks.any (moved.contains ·) then [q] else []) ++ (if moved.any fun t => !g.stks.contains t then [0] else [])
  let s := gain.foldl (fun s p => s.yields p 2 5 4) s
  { s with defs := s.defs ++ [⟨o, 0, op, .grant q g delete [] false⟩] }

/-- True while a grant change runs. -/
def State.grantRuns (s : State) : Bool := s.defs.any fun d => match d.k with | .grant _ _ _ _ _ => true | _ => false

/-- True when a change names a stack or a membership that a running deferred command holds, or another change runs (R391). -/
def State.grantHeld (s : State) (q : Nat) (g : GrantR) : Bool :=
  s.grantRuns || ((stksMoved (s.part q).grant g).any fun t => s.holdsStack t)

/-- GRANT_SET (R413-R416). -/
def State.doGrantSet (s : State) (o : Org) (p : Nat) (b : List Byte) : State :=
  let g := GrantR.read b
  let q := fld b 0 1
  let done := fun (code : Nat) => s.complete o 0x0100 code []
  if p ≠ 0 then done Code.notPermitted
  else if !grantFields s.grade b then done Code.badArgument
  else if s.grantRuns then done Code.busy
  else if s.grantConflict q g then done Code.grantConflict
  else if !bit (fld b 1 1) 1 ∧ (s.takesUsed q (s.part q).grant g ∨ s.takesUsed 0 (s.part 0).grant (s.ownerWith q g)) then done Code.busy
  else if s.grantHeld q g then done Code.busy
  else s.grantStart o 0x0100 q g false

/-- PART_DELETE (R417, R426). -/
def State.doPartDelete (s : State) (o : Org) (p q : Nat) : State :=
  let done := fun (code : Nat) => s.complete o 0x0101 code []
  if p ≠ 0 then done Code.notPermitted
  else if q = 0 ∨ 7 < q ∨ ¬ s.defined.contains q then done Code.badArgument
  else if s.grantHeld q GrantR.empty then done Code.busy
  else if s.grantConflict q GrantR.empty then done Code.grantConflict
  else s.grantStart o 0x0101 q GrantR.empty true

/-- A partition loses a block (R416): its regions are released, and the shared-memory parts of the lost blocks are zero. -/
def State.loseBlocks (s : State) (p : Nat) (lost : List Nat) : State :=
  if lost = [] then s
  else
    let s := ((s.regionsOf p).map (·.1)).foldl (fun s r => s.releaseRegion p r) s
    let s := s.modPart p fun x => { x with digs := [] }
    lost.foldl (fun s b =>
      let a := sharedBase (b / 24) + b % 24 * partBytes
      { s with mem := s.mem.clear a partBytes }.mend a partBytes) s

/-- A membership changes holder (R416): its step and barrier end, its key and tables go. -/
def State.loseMemb (s : State) (c : Nat) : State :=
  let s := (s.stepAbort c).1
  let s := match (s.memb c).bar with
    | some b =>
      let s := (s.modMemb c fun m => { m with bar := none }).membEvent c Code.ringAborted 0xFF b.num 0
      if b.chip then s.chipBarEnd c false else s
    | none => if (s.memb c).barWait then (s.membEvent c Code.ringAborted 0xFF (s.memb c).barNum 0).chipBarEnd c false else s
  s.modMemb c fun m => { m with key := none, fresh := Memb.reset.fresh, tabs := Memb.reset.tabs, tvalid := Memb.reset.tvalid,
                                taddr := Memb.reset.taddr, pend := none, barWait := false }

/-- Sessions of a partition on ports whose share falls to 0 are closed with a code (R416, R417). -/
def State.closeShares (s : State) (p : Nat) (new : GrantR) (code : Nat) : State :=
  let t := ((s.sess.filter fun x => x.part == p && nth 0 new.shares x.port == 0).map (·.sid)).foldl (fun s sid => s.closeSession sid code) s
  (List.range 4).foldl (fun s i => if nth 0 new.shares i = 0 then s.modPort i fun x => x.lastCloses p else s) t

/-- True when a change of partition `p`'s record to `new` removes shared memory under `n` bytes from view address `a`: a block that
holds some of them goes, or they leave the view (R281). -/
def State.undercut (s : State) (p : Nat) (new : GrantR) (a n : Nat) : Bool :=
  let t := s.modPart p fun x => { x with grant := new }
  match place s.grade a with
  | .shared d o => !t.sharedIn p a n || (List.range (cdiv (o % partBytes + n) partBytes)).any fun i =>
      match (s.sharedParts p d)[o / partBytes + i]? with
      | some j => !(t.sharedParts p d).contains j
      | none => false
  | _ => true

/-- The new record of a partition applies (R416): chip flags beyond the old or the new allotment are clear, the expected SEQ is unset
(R70), and rings and a snapshot buffer that lose shared memory are off (R281). -/
def State.applyGrant (s : State) (p : Nat) (new : GrantR) : State :=
  s.modPart p fun x =>
    let y := { x with grant := new }
    let keep := min (x.allot s.grade) (y.allot s.grade)
    let gone := s.undercut p new
    { y with cflags := SMap.dropKeys (fun i => decide (keep ≤ i)) y.cflags
             ms := { y.ms with expect := none, en := y.ms.en && !gone y.ms.base y.ms.ring }
             sheet := { y.sheet with en := y.sheet.en && !gone y.sheet.base y.sheet.ring }
             watch := { y.watch with size := if gone y.watch.base (y.watch.size * 4096) then 0 else y.watch.size } }

/-- The first step of a grant change (R416), once the jobs of the partitions that lose a block have ended: their regions are released and
the shared-memory parts of the lost blocks written to zero. -/
def State.freeBlocks (s : State) (q : Nat) (g : GrantR) : State :=
  (s.grantSides q g).foldl (fun s x => s.loseBlocks x.1 (without (s.part x.1).grant.blocks x.2.blocks)) s

/-- The last steps of a grant change (R416, R417): what a loser of blocks has set up since the first step goes, the stacks are handed on, memberships and shares change, the record applies
and is kept in the settings, and the events and the completion are posted. -/
def State.grantApply (s : State) (i : Nat) (o : Org) (op q : Nat) (g : GrantR) (delete : Bool) : State :=
  let sides := s.grantSides q g
  let old := fun (p : Nat) => (s.part p).grant
  let moved := stksMoved (old q) g
  let membs := membsMoved (old q) g
  let s1 := { s with defs := dropAt s.defs i }
  let s1 := s1.freeBlocks q g
  let s1 := moved.foldl (fun s t => s.modStack t fun k => { k with clearing := none }) s1
  let s1 := membs.foldl (fun s c => s.loseMemb c) s1
  let s1 := sides.foldl (fun s x => s.closeShares x.1 x.2 (if delete ∧ x.1 = q then Code.partitionDeleted else Code.grantChanged)) s1
  let s1 := sides.foldl (fun s x => s.applyGrant x.1 x.2) s1
  let items := if delete then
      (dropItem s1.inForce.items (3, q)).filter fun x => !(x.1 == 4 && fld x.2 0 1 == q)
    else setItem s1.inForce.items (3, g.bytes q)
  let w := s1.writeSettings items
  let s1 := sides.foldl (fun (s : State) (x : Nat × GrantR) =>
    s.event x.1 Code.grantChanged { Ev.none with arg0 := grantArg (old x.1) x.2 }) w.1
  let s1 := if delete then s1.modPart q fun x => { x with keys := [], held := [], lost := 0 } else s1
  s1.complete o op (writeCode w.2) []

/-- A grant change ends when the jobs it aborts have ended and every stack that moves is clear (R306, R416). -/
def State.grantEnd (s : State) (i : Nat) : State :=
  match s.defs[i]? with
  | some ⟨o, p, op, .grant q g delete cleared freed⟩ =>
    if !s.losersIdle q g then s.abortLosers q g
    else if (stksMoved (s.part q).grant g).all fun t => cleared.contains t then s.grantApply i o op q g delete
    else if freed then s
    else { s with defs := putAt s.defs i ⟨o, p, op, .grant q g delete cleared true⟩ }.freeBlocks q g
  | _ => s

/-- STACK_CLEAR_DONE: the stack holds zero codewords, and the grant that waits for it may take effect (R306). The blocks that the
grant takes are free before its first stack is clear (R416). -/
def State.stackClearDone (s : State) (t : Nat) : State :=
  match findAt (fun (d : Defr) => match d.k with
      | .grant q g _ cleared _ => (stksMoved (s.part q).grant g).contains t && !cleared.contains t
      | _ => false) s.defs with
  | some (i, ⟨o, p, op, .grant q g delete cleared freed⟩) =>
    if !s.losersIdle q g then s.abortLosers q g
    else
      let s := if freed then s else s.freeBlocks q g
      let s := { s with mem := s.mem.clear (stackBase t) stackBytes, defs := putAt s.defs i ⟨o, p, op, .grant q g delete (cleared ++ [t]) true⟩ }
      (s.mend (stackBase t) stackBytes).grantEnd i
  | _ => s

end Sys2Proof.Machine
end

