-- ==== Sys2Proof/Machine/Images.lean ====
section
/-!
DEFINITION. Region images (R427-R434), digest records, the identity certificate and attestation (R435-R438).
-/

namespace Sys2Proof

/-- An image header (R427). -/
structure ImgHdr where
  magic : Nat
  ver : Nat
  full : Bool
  region : Nat
  files : Nat
  ranks : Nat
  nframe : Nat
  clen : Nat
  bytes : List Nat
  imgid : List Byte
  clean : Bool
deriving DecidableEq, Repr

/-- Reads an image header (R427). -/
def ImgHdr.read (b : List Byte) : ImgHdr :=
  { magic := fld b 0 2, ver := fld b 2 1, full := bit (fld b 3 1) 0, region := fld b 4 1, files := fld b 5 1, ranks := fld b 6 1,
    nframe := fld b 8 4, clen := fld b 16 8, bytes := (List.range 4).map fun d => fld b (24 + 4 * d) 4, imgid := slice b 40 16,
    clean := bits (fld b 3 1) 7 1 == 0 && fld b 7 1 == 0 && fld b 12 4 == 0 && allZero (slice b 72 24) }

/-- The header's field rules (R427, R431). -/
def ImgHdr.good (h : ImgHdr) (len : Nat) : Bool :=
  h.magic == 0x4749 && h.ver == 1 && h.clean && decide (1 ≤ h.nframe) && decide (h.nframe ≤ 1048576) && h.clen % 16 == 0
    && decide (16 ≤ h.clen) && decide (h.clen ≤ 2 ^ 28) && len == 128 + h.clen

/-- A frame of an image (R428). -/
structure Frame where
  len : Nat
  type : Nat
  file : Nat
  rank : Nat
  region : Nat
  setup : Nat
  clean : Bool
  body : List Byte
deriving DecidableEq, Repr

/-- Reads one frame (R428). -/
def Frame.read (b : List Byte) : Frame :=
  { len := fld b 0 4, type := fld b 4 1, file := fld b 5 1, rank := fld b 6 1, region := fld b 7 1, setup := fld b 8 2,
    clean := allZero (slice b 10 6), body := slice b 16 (fld b 0 4) }

/-- The frames of a plain text, and whether they fill it exactly (R428, R432). -/
def readFrames : Nat → List Byte → List Frame × Bool
  | 0, b => ([], b.isEmpty)
  | n + 1, b =>
    if b.isEmpty then ([], true)
    else
      let f := Frame.read b
      if b.length < 16 then ([], false)
      else if b.length < 16 + f.len then ([f], false)
      else
        let r := readFrames n (b.drop (16 + f.len))
        (f :: r.1, r.2)

/-- The keys of an image (R429). -/
def imageKeys (secret header : List Byte) : List Byte × List Byte :=
  let x := Config.shake256 (ascii "GX9-IMG-KEYS" ++ secret ++ header) 64
  (slice x 0 32, slice x 32 32)

/-- The key of segment `i` (R429). -/
def segmentKey (k0 : List Byte) : Nat → List Byte
  | 0 => k0
  | i + 1 => Config.shake256 (ascii "GX9-IMG-NEXT" ++ segmentKey k0 i) 32

/-- The plain bytes of a segment (R429). -/
def segmentPlain (k0 : List Byte) (i : Nat) (c : List Byte) : List Byte :=
  let k := segmentKey k0 i
  xorBytes c ((List.range (cdiv c.length 16)).flatMap fun b => padTo 16 (Config.aes256 k (natLe 8 i ++ natLe 8 b)))

/-- The plain text of a ciphertext (R429). -/
def imagePlain (k0 c : List Byte) : List Byte :=
  let cs := chunks 65536 c
  (cs.zip (List.range cs.length)).flatMap fun x => segmentPlain k0 x.2 x.1

/-- The tag of an image (R430). -/
def imageTag (km header c : List Byte) : List Byte := padTo 32 (Config.kmac256 km (header ++ c) (ascii "GX9-IMAGE") 32)

/-- The finding on one frame, those before it known (R432). -/
def frameCode (h : ImgHdr) (before : List Frame) (f : Frame) : Nat :=
  if f.region ≠ h.region ∨ 4096 ≤ f.setup ∨ (f.type = 2 ∧ (h.files ≤ f.file ∨ h.ranks ≤ f.rank)) then Code.imageOutOfRegion
  else if ¬ (f.type = 1 ∨ f.type = 2 ∨ f.type = 3) ∨ f.len % 16 ≠ 0 ∨ 65536 < f.len ∨ (f.type = 3 ∧ f.len ≠ 0) ∨ !f.clean
    ∨ (f.type ≠ 2 ∧ (f.file ≠ 0 ∨ f.rank ≠ 0))
    ∨ (f.type ≠ 2 ∧ before.any fun g => g.type != 2 && g.setup == f.setup)
    ∨ (f.type = 2 ∧ (f.len < (SectHdr.read f.body).size ∨ 16384 < (SectHdr.read f.body).size)) then Code.imageFormat
  else Code.ok

/-- The finding of the first failing frame (R431, R432). -/
def framesCode (h : ImgHdr) : List Frame → List Frame → Nat
  | _, [] => Code.ok
  | before, f :: fs => if frameCode h before f ≠ Code.ok then frameCode h before f else framesCode h (before ++ [f]) fs

/-- Body bytes by die: the sequencer's die for a setup, the core's die for a section (R428). -/
def dieBytes (rect : Rect) (seqDie : Nat) (fs : List Frame) (d : Nat) : Nat :=
  (fs.map fun f =>
    if (f.type = 1 ∧ seqDie = d) ∨ (f.type = 2 ∧ dieOf (rect.f0 + f.file) (rect.k0 + f.rank) = d) then f.len else 0).sum

/-- The rules of R432 on the frames as a set. -/
def frameSet (h : ImgHdr) (rect : Rect) (seqDie : Nat) (fs : List Frame) (exact : Bool) : Bool :=
  exact && fs.length == h.nframe && ((List.range 4).all fun d => dieBytes rect seqDie fs d == nth 0 h.bytes d)
    && (fs.all fun f => f.type != 2 || fs.any fun g => g.type == 1 && g.setup == f.setup)
    && (fs.all fun f => f.type != 1 || (List.range (h.files * h.ranks)).all fun i =>
        (fs.filter fun g => g.type == 2 && g.setup == f.setup && g.file == i % h.files && g.rank == i / h.files).length == 1)

/-- The setup that a SETUP frame and its sections stage (R428). -/
def stagedOf (p r : Nat) (rect : Rect) (fs : List Frame) (f : Frame) : Staged :=
  ⟨p, r, f.setup, f.body, (fs.filter fun g => g.type == 2 && g.setup == f.setup).map fun g => (coreId (rect.f0 + g.file) (rect.k0 + g.rank), g.body)⟩

end Sys2Proof

namespace Sys2Proof.Machine

/-- The source of an image (R431): a multiple of 64 in one stack or one die's shared memory; in the view but not so placed, the image is
malformed, and beyond the view the argument is bad. -/
def State.imageSource (s : State) (p src n : Nat) : Nat :=
  let window := match place s.grade src with
    | .window c o => decide (o + n ≤ 0x80000) && s.reaches p c
    | _ => false
  if !(s.inView p src n || window) then Code.badArgument
  else if src % 64 ≠ 0 ∨ !s.inOne p src n then Code.imageFormat
  else Code.ok

/-- The check of stage 1 of R431: the code, or OK, with the header. -/
def State.imageCode (s : State) (p r len : Nat) (hb : List Byte) : Nat :=
  let h := ImgHdr.read hb
  let g := s.region p r
  if len < 128 ∨ !h.good len then Code.imageFormat
  else if g.state = .undefined then Code.badArgument
  else if h.region ≠ r ∨ h.files ≠ g.rect.files ∨ h.ranks ≠ g.rect.ranks then Code.imageOutOfRegion
  else if (List.range 4).any fun d => decide (nth 0 (s.part p).grant.book d * 65536 < nth 0 h.bytes d + s.bookBytes p d) then Code.imageTooLargeForBook
  else Code.ok

/-- IMAGE_LOAD (R426, R431, R433): stage 1; the rest ends with the deferred command. -/
def State.doImageLoad (s : State) (o : Org) (p r src len : Nat) (secret : List Byte) : State :=
  let runs := s.defs.any fun d => d.part == p && (match d.k with | .image _ _ _ _ _ => true | _ => false)
  if runs then s.complete o 0x0110 Code.busy []
  else if s.imageSource p src (max 1 len) ≠ Code.ok then s.complete o 0x0110 (s.imageSource p src (max 1 len)) []
  else
    let (s, hb, good) := s.anyRead p src (min len 96)
    if !good then s.complete o 0x0110 Code.uncorrectableData []
    else
      let code := s.imageCode p r len hb
      if code ≠ Code.ok then s.complete o 0x0110 code []
      else { s with defs := s.defs ++ [⟨o, p, 0x0110, .image r src len (padTo 32 secret) (ImgHdr.read hb).bytes⟩] }

/-- The commit of an image (R434, R437). -/
def State.imageCommit (s : State) (p r : Nat) (h : ImgHdr) (stream : List Byte) (fs : List Frame) : State :=
  let rect := (s.region p r).rect
  let named := (fs.filter fun f => f.type != 2).map (·.setup)
  let keep := s.book.filter fun x => !(x.part == p && x.region == r && (h.full || named.contains x.setup))
  let new := (fs.filter fun f => f.type == 1).map (stagedOf p r rect fs)
  let d := (s.part p).digs.get noDigest r
  let d := (d.1 + 1, h.imgid, padTo 32 (Config.shake256 (d.2.2 ++ Config.shake256 stream 32) 32))
  { s with book := keep ++ new }.modPart p fun x => { x with digs := SMap.set noDigest x.digs r d }

/-- The end of an IMAGE_LOAD (R431, R432, R434, R471): tag before frames, nothing changed by a failure. `damaged`: pass two meets data
in the staging of the region's book that cannot be corrected. -/
def State.imageEnd (s : State) (o : Org) (p r src len : Nat) (secret : List Byte) (damaged : Bool) : State :=
  let (s, stream, good) := s.anyRead p src len
  let hb := stream.take 96
  let h := ImgHdr.read hb
  let c := slice stream 96 h.clen
  let (k0, km) := imageKeys secret hb
  let g := s.region p r
  if !good then s.complete o 0x0110 Code.uncorrectableData []
  else if g.state = .undefined ∨ !s.inView p src len then s.complete o 0x0110 Code.badArgument []
  else if s.imageCode p r len hb ≠ Code.ok then s.complete o 0x0110 (s.imageCode p r len hb) []
  else if stream.drop (96 + h.clen) ≠ imageTag km hb c then s.complete o 0x0110 Code.imageTagFail []
  else
    let plain := imagePlain k0 c
    let y := readFrames plain.length plain
    let code := framesCode h [] y.1
    if code ≠ Code.ok then s.complete o 0x0110 code []
    else if !frameSet h g.rect (g.seq / 64) y.1 y.2 then s.complete o 0x0110 Code.imageFormat []
    else if damaged then ((s.dieErrors (g.seq / 64) 0 1).event 0 Code.uncorrectableData Ev.none).complete o 0x0110 Code.uncorrectableData []
    else (s.imageCommit p r h stream y.1).complete o 0x0110 Code.ok []

/-- Bytes 0-95 of the identity certificate (R436). -/
def State.certBody (s : State) : List Byte :=
  natLe 2 1 ++ zeros 6 ++ natLe 8 Config.certSerial.toNat ++ natLe 4 s.grade.ident ++ zeros 4 ++ padTo 57 Config.identityKey ++ zeros 7
    ++ natLe 8 Config.certIssuer.toNat

/-- The identity certificate (R436): its body and the issuer's signature over it. -/
def State.certificate (s : State) : List Byte :=
  s.certBody ++ padTo 114 (Config.ed448Sig Config.issuerKey (ascii "ELOARID-ID") s.certBody) ++ zeros 14

/-- CERT_READ (R426, R436). -/
def State.doCertRead (s : State) (o : Org) (p dest : Nat) : State :=
  if dest % 64 ≠ 0 ∨ !s.sharedIn p dest 224 then s.complete o 0x0121 Code.badArgument []
  else (s.viewWrite p dest s.certificate).complete o 0x0121 Code.ok []

/-- Bytes of an attestation report of a partition (R438). -/
def State.reportBytes (s : State) (p : Nat) : Nat := 370 + 56 * (s.regionsOf p).length

/-- The measurements of R463: MBOOT, MFW, MCTL, MSET. -/
def State.measures (s : State) : List Byte :=
  let sh := fun (b : List Byte) => padTo 32 (Config.shake256 b 32)
  let ctl := s.ctls.flatMap fun x => match x with | some b => sh b | none => zeros 32
  sh s.flash.boot ++ sh s.running.manifest ++ sh ctl ++ sh s.applied.bytes

/-- The attestation report of a partition (R438). -/
def State.report (s : State) (p : Nat) (nonce : List Byte) : List Byte :=
  let sh := fun (b : List Byte) => padTo 32 (Config.shake256 b 32)
  let rs := s.regionsOf p
  let keys := (List.range 4).flatMap fun i => padTo 57 ((s.part p).keys.get [] i)
  let head := natLe 2 1 ++ natLe 2 (s.reportBytes p) ++ natLe 1 p ++ zeros 1 ++ natLe 2 rs.length ++ natLe 8 Config.certSerial.toNat
    ++ natLe 4 s.grade.ident ++ natLe 4 s.running.fwver ++ natLe 8 s.now ++ padTo 32 nonce ++ s.measures ++ sh ((s.part p).grant.bytes p) ++ sh keys
  let body := head ++ rs.flatMap fun x =>
    let d := (s.part p).digs.get noDigest x.1
    natLe 1 x.1 ++ natLe 1 x.2.state.code ++ zeros 2 ++ natLe 4 d.1 ++ padTo 16 d.2.1 ++ padTo 32 d.2.2
  body ++ padTo 114 (Config.ed448Sig Config.identityKey (ascii "GX9-ATTEST") body)

/-- ATTEST (R426, R438): the report is written when the command ends. -/
def State.doAttest (s : State) (o : Org) (p : Nat) (nonce : List Byte) (dest : Nat) : State :=
  if dest % 64 ≠ 0 ∨ !s.sharedIn p dest (s.reportBytes p) then s.complete o 0x0120 Code.badArgument []
  else { s with defs := s.defs ++ [⟨o, p, 0x0120, .attest (padTo 32 nonce) dest⟩] }

/-- The end of an ATTEST. -/
def State.attestEnd (s : State) (o : Org) (p : Nat) (nonce : List Byte) (dest : Nat) : State :=
  if !s.sharedIn p dest (s.reportBytes p) then s.complete o 0x0120 Code.badArgument []
  else (s.viewWrite p dest (s.report p nonce)).complete o 0x0120 Code.ok []

end Sys2Proof.Machine
end

