-- ==== Sys2Proof/Machine/Firmware.lean ====
section
/-!
DEFINITION. Start-up, start failure and fallback (R444-R449, R457, R461-R463), retirement at a start (R474-R476), manifests and
firmware banks (R450-R456), and the settings and firmware commands (R464).
-/

namespace Sys2Proof

/-- A bank of the flash. -/
def Flash.bank (f : Flash) (b : Nat) : Bank := nth Bank.empty f.banks b

/-- The manifest header's fields (R450). -/
structure Manifest where
  magic : Nat
  format : Nat
  product : Nat
  advance : Bool
  ncomp : Nat
  fwver : Nat
  svn : Nat
  sver : Nat
  pkglen : Nat
  clean : Bool
deriving DecidableEq, Repr

/-- Reads a manifest header (R450). -/
def Manifest.read (b : List Byte) : Manifest :=
  { magic := fld b 0 2, format := fld b 2 2, product := fld b 4 1, advance := bit (fld b 5 1) 0, ncomp := fld b 6 2, fwver := fld b 8 4,
    svn := fld b 12 2, sver := fld b 14 2, pkglen := fld b 16 8, clean := bits (fld b 5 1) 7 1 == 0 && allZero (slice b 24 40) }

/-- Bytes of a manifest (R450). -/
def Manifest.bytes (m : Manifest) : Nat := 64 + 64 * m.ncomp + 128

/-- The component entries of a manifest. -/
def manifestEntries (b : List Byte) (n : Nat) : List (List Byte) := (List.range n).map fun i => slice b (64 + 64 * i) 64

/-- The check of a package (R451, R452): the code of the first failure, or OK. -/
def packageCode (pkg : List Byte) (fuseSvn : Nat) : Nat :=
  let m := Manifest.read pkg
  let es := manifestEntries pkg m.ncomp
  let body := pkg.take (64 + 64 * m.ncomp)
  let sig := slice pkg (64 + 64 * m.ncomp) 128
  if m.magic ≠ 0x464D ∨ m.format ≠ 2 ∨ !m.clean ∨ m.ncomp < 1 ∨ 64 < m.ncomp ∨ 63 < m.svn ∨ m.sver < 1 ∨ bankBytes < m.pkglen
    ∨ (es.any fun e => fld e 2 2 != 0 || !allZero (slice e 56 8) || fld e 8 8 % 64 != 0) ∨ !allZero (slice sig 8 6) then Code.manifestFormat
  else if sig.take 8 ≠ padTo 8 Config.fwKeyId ∨ sig.drop 14 ≠ padTo 114 (Config.ed448Sig Config.fwKey (ascii "GLOBATEN-FW") body) then
    Code.manifestSignature
  else if m.product ≠ 9 then Code.manifestProduct
  else if m.svn < fuseSvn then Code.manifestSvn
  else if !([1, 2, 3, 4, 5].all fun t => (es.filter fun e => fld e 0 2 == t).length == 1) || es.length != 5
    || !(es.all fun e => decide (fld e 8 8 + fld e 16 8 ≤ m.pkglen) && slice e 24 32 == padTo 32 (Config.shake256 (slice pkg (fld e 8 8) (fld e 16 8)) 32))
    then Code.manifestIncomplete
  else Code.ok

/-- What a bank holds once a package is written into it (R450, R454). -/
def Bank.of (pkg : List Byte) : Bank :=
  let m := Manifest.read pkg
  { image := pkg, manifest := pkg.take m.bytes, fwver := m.fwver, svn := m.svn, sver := m.sver, advance := m.advance,
    hashes := (manifestEntries pkg m.ncomp).map fun e => (fld e 0 2, slice e 24 32), good := true }

/-- Reads `n` items (R459): none where they do not fill the bytes. -/
def readItems : Nat → List Byte → Option (List (Nat × List Byte))
  | 0, b => if b.isEmpty then some [] else none
  | n + 1, b =>
    let len := fld b 2 2
    let size := 8 * cdiv (4 + len) 8
    if b.length < 4 ∨ b.length < size then none
    else (readItems n (b.drop size)).map fun l => (fld b 0 2, slice b 4 len) :: l

/-- A settings slot as its bytes hold it (R459): none where MAGIC, LEN or CHECK does not hold. -/
def SetSlot.read (b : List Byte) : Option SetSlot :=
  let n := fld b 8 4
  let items := slice b 64 n
  if fld b 0 2 = 0x5453 ∧ 64 + n ≤ b.length ∧ slice b 32 32 = padTo 32 (Config.shake256 (slice b 0 32 ++ items) 32) then
    (readItems (fld b 12 2) items).map fun l => ⟨fld b 2 2, fld b 4 4, l⟩
  else none

/-- What the copies or slots of the flash hold, given what each reads where it reads otherwise than it was written. -/
def reread {α : Type} (f : List Byte → Option α) (l : List (Option α)) (e : List (Option (List Byte))) : List (Option α) :=
  (l.zip (List.range l.length)).map fun x => match nth none e x.2 with | some b => f b | none => x.1

/-- The settings slot that stage 5 takes (R461): the valid one with the highest SEQ among those of a version not above the
firmware's. -/
def Flash.settings (f : Flash) (sver : Nat) : Option SetSlot :=
  (f.slots.filterMap fun x => match x with | some y => if y.sver ≤ sver then some y else none | none => none).foldl
    (fun (b : Option SetSlot) y => match b with | some x => if x.seq < y.seq then some y else b | none => some y) none

/-- Items migrated over `n` version steps from version `v` (R461). -/
def migrateItems : Nat → Nat → List (Nat × List Byte) → Option (List (Nat × List Byte))
  | 0, _, l => some l
  | n + 1, v, l => match Config.migrate v l with | some l => migrateItems n (v + 1) l | none => none

/-- Stage 5 (R461): the slot to apply and whether it is a migrated one, or the failure's code. -/
def Flash.stage5 (f : Flash) (sver : Nat) : Except Nat (SetSlot × Bool) :=
  match f.settings sver with
  | none => .error Code.settingsInvalid
  | some x =>
    if x.sver = sver then .ok (x, false)
    else match migrateItems (sver - x.sver) x.sver x.items with
      | some l => .ok (⟨sver, f.nextSeq, l⟩, true)
      | none => .error Code.migrationFailed

/-- The TYPE of the image of each controller, in the load order (R446, R451): dies, stacks, ports A, ports B. -/
def ctlTypes : List Nat := List.replicate 4 5 ++ List.replicate 8 4 ++ List.replicate 4 2 ++ List.replicate 4 3

/-- The record to fall back with after stage `stage` failed (R447): the other bank, when it may be started. A boot image that was not
accepted, or not yet read, writes no record (R445; log entry 134). The manual does not say what STATE of the failing bank becomes: `free`
gives it (log entry 22). -/
def fallback (f : Flash) (fuse : Fuses) (stage free : Nat) : Option (BankRec → BankRec) :=
  match f.recordAt with
  | none => none
  | some (_, r) =>
    let o := 1 - r.active
    if 2 < stage ∧ (r.trial ∨ stage = 3 ∨ stage = 4 ∨ stage = 6) ∧ (r.st o = 1 ∨ r.st o = 3) ∧ fuse.svn ≤ (f.bank o).svn then
      some fun x => { ((x.setSt r.active (free % 4)).setSt o 2) with active := o, trial := false, fellback := true }
    else none

/-- Where 10 s pass before service ready (R449). -/
def StartEnv.halts (e : StartEnv) : Option (Nat × Nat) × Option (Nat × Nat) :=
  (e.late.map fun n => (n, Code.startTimeout), e.late2.map fun n => (n, Code.startTimeout))

/-- Where a start stands still without REFCLK (R491): a stage not reached within 10 s, or a self-test of stage 7 or 8. The manual leaves
open which (log entry 7). -/
def noClock (n : Nat) : Nat × Nat := if n % 2 = 0 then (1 + n / 2 % 9, Code.startTimeout) else (7 + n / 2 % 2, Code.hardwareSelftest)

/-- The grant of partitions 1-7 that the settings keep (R418, R459). -/
def grantOf (items : List (Nat × List Byte)) (p : Nat) : GrantR :=
  match items.find? fun x => x.1 == 3 && fld x.2 0 1 == p with | some x => GrantR.read x.2 | none => GrantR.empty

/-- The host keys of a partition that the settings keep. -/
def keysOf (items : List (Nat × List Byte)) (p : Nat) : SMap (List Byte) :=
  (items.filter fun x => x.1 == 4 && fld x.2 0 1 == p).foldl (fun m x => SMap.set [] m (fld x.2 1 1) (padTo 57 (x.2.drop 2))) []

/-- The partitions after a start (R418, R458). -/
def startParts (g : Grade) (items : List (Nat × List Byte)) : SMap Part :=
  let gs := ((List.range 8).filter (0 < ·)).map (grantOf items)
  (List.range 8).foldl (fun (m : SMap Part) p =>
    SMap.set Part.reset m p { Part.reset with grant := if p = 0 then ownerGrant g gs else grantOf items p, keys := keysOf items p }) []

/-- The settings of network A port `n` (R369, R459, log entry 21). -/
def portCfgOf (items : List (Nat × List Byte)) (n : Nat) : PortCfg :=
  match items.find? fun x => x.1 == 1 && fld x.2 0 1 == n with
  | some x => ⟨fld x.2 1 6, fld x.2 7 2, fld x.2 9 4, fld x.2 13 16, fld x.2 29 2⟩
  | none => Port.reset.cfg

/-- The power profile of the settings (R43, R459). -/
def profileOf (items : List (Nat × List Byte)) : Nat :=
  match items.find? fun x => x.1 == 2 with | some x => fld x.2 0 1 % 2 | none => 0

/-- A core at a start or a pause: a pause keeps its error counters (R479). -/
def Core.start (c : Core) (cold : Bool) : Core :=
  { Core.reset with eccCorr := if cold then 0 else c.eccCorr, eccUnc := if cold then 0 else c.eccUnc }

/-- A core with the spares that its fuses switch in (R38, R140). -/
def Core.fused (c : Core) (n : Nat) : Core := { c with rrow0 := bit n 0, rcol0 := bit n 1, rrow1 := bit n 2, rcol1 := bit n 3 }

/-- The fuses are loaded into the cores (R140, R444). -/
def Fuses.load (f : Fuses) (m : SMap Core) : SMap Core :=
  f.spares.foldl (fun m x => SMap.set Core.reset m x.1 ((m.get Core.reset x.1).fused x.2)) m

/-- A stack over a pause (R457): its contents, scrub and rows stay, its commands go. -/
def Stack.pause (k : Stack) : Stack := { k with clearing := none, mq := [], run := none, delivering := false, items := 0 }

/-- A table with every entry changed. -/
def SMap.mapVals {α : Type} [DecidableEq α] (d : α) (f : α → α) (m : SMap α) : SMap α :=
  (m.map fun e => (e.1, f e.2)).filter fun e => e.2 ≠ d

/-- Logical files of a die (R1, R29). -/
def dieFiles (g : Grade) (d : Nat) : Nat := if d % 2 = 0 then 32 else g.files - 32

/-- Physical cores of a die rank that repairs have retired (R37, R474). -/
def Fuses.retired (f : Fuses) (d dr : Nat) : List Nat :=
  ((nth [] f.repairs d).filter fun x => x.kind == 0 && x.drank == dr).map (·.pcore)

/-- The physical core of a logical file of a die rank: the files fill the cores that are not retired, in order (log entry 3). -/
def Fuses.physical (f : Fuses) (d dr lf : Nat) : Nat :=
  nth 0 ((List.range 33).filter fun x => !(f.retired d dr).contains x) lf

/-- SMB_ALERT_N follows SB_STAT and SB_ALERTEN (R496). -/
def Power.alerted (x : Power) : Power := { x with alert := (bits x.sbstat 11 8 &&& x.alerten) != 0 }

/-- A bit of SB_STAT [11:8] is set (R496). -/
def Power.sbSet (x : Power) (i : Nat) : Power := { x with sbstat := x.sbstat ||| 2 ^ i }

/-- The fuses with a repair entry of a die, while one is free (R474, R475). -/
def Fuses.burn (f : Fuses) (d : Nat) (x : Repair) : Fuses :=
  { f with repairs := modAt f.repairs d fun l => if l.length < 16 then l ++ [x] else l }

end Sys2Proof

namespace Sys2Proof.Machine

/-- The state with the power and sideband part changed. -/
def State.modPwr (s : State) (f : Power → Power) : State := { s with pwr := Power.alerted (f s.pwr) }

/-- The boot status word changes, and BOOTCHG with it (R449, R496). -/
def State.setBoot (s : State) (b : BootW) : State :=
  s.modPwr fun x => if x.boot = b then x else Power.sbSet { x with boot := b } 11

/-- The fabric clock and the stack caps in force (R495). -/
def State.reclock (s : State) : State :=
  let x := s.pwr
  let s := { s with clock := min (profileClock x.profile) (min x.thermClk x.powClk) }
  (List.range 8).foldl (fun s t => s.modStack t fun k => { k with cap := min (profileCap x.profile) (min (nth 16 x.thermCap t) x.powCap) }) s

/-- An event to partition 0 and to the holder of a block, with a core. -/
def State.coreEvent (s : State) (c code : Nat) : State := s.eventHolder c code { Ev.none with file := fileOf c, rank := rankOf c }

/-- A core is retired, or its block withdrawn, in stage 8 (R474-R476). -/
def State.retireCore (s : State) (c cause : Nat) : State :=
  let d := dieOfCore c
  let dr := rankOf c % 24
  let j := blockOf (fileOf c) (rankOf c) % 24
  let s := { s with pendingRetire := s.pendingRetire.filter (· != c), causes := SMap.set 0 s.causes c 0 }
  let entry := fun kind => (⟨kind, dr, s.fuse.physical d dr (fileOf c % 32), fileOf c, rankOf c, cause⟩ : Repair)
  if (s.fuse.retired d dr).length < 33 - dieFiles s.grade d ∧ (nth [] s.fuse.repairs d).length < 16 then
    { s with fuse := s.fuse.burn d (entry 0) }.coreEvent c Code.coreRetired
  else if bit (nth 0 s.fuse.wdraw d) j then s
  else
    let f := s.fuse.burn d (entry 1)
    { s with fuse := { f with wdraw := modAt f.wdraw d fun n => n + 2 ^ j } }.coreEvent c Code.blockWithdrawn

/-- Stage 8's retirements: the cores pending, then those that fail the self-test (R474, R476). -/
def State.retireAll (s : State) (failing : List Nat) : State :=
  let pend := s.pendingRetire.map fun c => (c, s.causes.get 0 c)
  let more := (failing.filter fun c => coreActive s.grade (fileOf c) (rankOf c) && !s.pendingRetire.contains c && decide (c < 3072)).map fun c => (c, Code.hardwareSelftest)
  (pend ++ more).foldl (fun s x => s.retireCore x.1 x.2) s

/-- The ports after stage 9 (R444): enabled with the settings; a pause keeps what waits to be sent and the counts. -/
def startPorts (items : List (Nat × List Byte)) (old : List Port) (cold : Bool) (links : List Bool) : List Port :=
  (List.range 8).map fun i =>
    let x := if cold then Port.reset else { nth Port.reset old i with half := [], inits := [] }
    { x with enabled := true, link := nth true links i, cfg := if i < 4 then portCfgOf items i else x.cfg }

/-- Stages 8 to 10 succeed (R418, R444, R457, R458, R493): service is ready. `cold`: stage 7 has run. -/
def State.bringUp (s : State) (e : StartEnv) (cold fell : Bool) : State :=
  let r := s.flash.cur
  let b := s.flash.bank r.active
  let f := if r.trial ∨ r.fellback ≠ fell then s.flash.writeRec fun x => { x with trial := false, fellback := fell } else s.flash
  let prof := profileOf s.applied.items
  let keep := fun (a : Nat) => !cold && decide (a < 8 * stackBytes)
  let s := { s with
    flash := f, running := b,
    fuse := if r.trial ∧ b.advance then { s.fuse with svn := max s.fuse.svn b.svn } else s.fuse,
    mem := s.mem.filter (fun c => keep c.1), dmg := s.dmg.filter fun x => keep x.1,
    parts := startParts s.grade s.applied.items, cores := s.fuse.load (SMap.mapVals Core.reset (fun c => c.start cold) s.cores), mesh := Mesh.reset, attach := [],
    agents := [], stks := if cold then [] else SMap.mapVals Stack.reset Stack.pause s.stks, multiFail := [], book := [], lastPart := 0,
    lastSeq := [0, 0, 0, 0], bookAt := [0, 0, 0, 0], membs := [], sess := [], takePart := 0, takeSid := [], defs := [],
    ports := startPorts s.applied.items s.ports cold e.links, dieEcc := if cold then [(0, 0), (0, 0), (0, 0), (0, 0)] else s.dieEcc,
    past := if cold then s.past + s.now else s.past, now := if cold then 0 else s.now, dispAt := if cold then 0 else s.dispAt, fetchAt := if cold then 0 else s.fetchAt }
  let s := s.modPwr fun x => { x with
    profile := prof, ready := true, stopped := false, powClk := profileClock prof, powCap := profileCap prof,
    capping := false, floor := false, calm := 0, k := 1000,
    thermClk := if x.tstate = 0 then profileClock prof else min x.thermClk (profileClock prof),
    fault := false }
  let s := (s.setBoot ⟨10, false, r.active, fell, 0⟩).reclock.retireAll e.failing
  (List.range 8).foldl (fun s i => s.pick i) s

/-- A start failure is in force (R447, R448): FAULT_N, the ports disabled, the boot status word. -/
def State.startFailure (s : State) (stage code : Nat) : State :=
  let r := s.flash.cur
  let s := { s with ports := s.ports.map fun _ => Port.reset, sess := [], defs := [] }
  (s.modPwr fun x => { x with fault := true, ready := false }).setBoot ⟨stage, true, r.active, r.fellback, code⟩

/-- The package of the bank that the record in force names. -/
def State.activeBank (s : State) : Bank := s.flash.bank s.flash.cur.active

/-- Stage 2 (R445): the boot ROM checks the boot image. -/
def State.bootStage (s : State) (e : StartEnv) : State × Option Nat :=
  (s, if s.fuse.accepts (e.boot.getD s.flash.boot) then none else some Code.bootImageFail)

/-- Stage 3 (R443, R452, R453): the bank select record is read, and the manifest of the active bank is checked. -/
def State.bankStage (s : State) (e : StartEnv) : State × Option Nat :=
  let s := { s with flash := { s.flash with recs := reread BankRec.read s.flash.recs e.recs } }
  let ok := match nth none e.bank s.flash.cur.active with
    | some pkg => packageCode pkg s.fuse.svn == Code.ok
    | none => s.activeBank.good && decide (s.fuse.svn ≤ s.activeBank.svn)
  (s, if s.flash.recordAt.isSome && ok then none else some Code.fwBankFail)

/-- Stage 4 (R444): the management firmware is hashed against its manifest entry. -/
def State.fwStage (s : State) (e : StartEnv) : State × Option Nat :=
  (s, match nth none e.fw s.flash.cur.active with
    | some b => if padTo 32 (Config.shake256 b 32) = s.activeBank.hash 1 then none else some Code.fwBankFail
    | none => none)

/-- Stage 5 (R461): the settings slot is chosen, and migrated if it is older than the firmware. -/
def State.setStage (s : State) (e : StartEnv) : State × Option Nat :=
  let s := { s with flash := { s.flash with slots := reread SetSlot.read s.flash.slots e.slots } }
  let v := s.activeBank.sver
  match s.flash.stage5 v with
  | .error c => (s, some c)
  | .ok (x, moved) =>
    let f := if moved then { s.flash with slots := putAt s.flash.slots (s.flash.target v) (some x) } else s.flash
    ({ s with flash := f, inForce := x, applied := x }, none)

/-- A controller takes its image (R446): the one of its TYPE, checked against the manifest's hash. -/
def State.loadCtl (s : State) (i t : Nat) (l : List (Nat × Option (List Byte))) : State × Bool :=
  match l.find? fun x => x.1 == i with
  | none => ({ s with ctls := putAt s.ctls i (some (s.activeBank.component t)) }, true)
  | some (_, some b) =>
    if padTo 32 (Config.shake256 b 32) = s.activeBank.hash t then ({ s with ctls := putAt s.ctls i (some b) }, true) else (s, false)
  | some (_, none) => (s, false)

/-- Stage 6 (R446): the controllers, which keep no firmware across a start, are loaded in order, up to the first that fails. -/
def State.ctlStage (s : State) (e : StartEnv) : State × Option Nat :=
  let l := nth [] e.ctl s.flash.cur.active
  let r := (ctlTypes.zip (List.range 20)).foldl (fun (a : State × Bool) x => if a.2 then a.1.loadCtl x.2 x.1 l else a)
    ({ s with ctls := List.replicate 20 none }, true)
  (r.1, if r.2 then none else some Code.controllerLoadFail)

/-- Stage 7 (R444, R306): the stacks are trained, and every memory is zero. -/
def State.memStage (s : State) (e : StartEnv) : State × Option Nat :=
  if e.train then ({ s with mem := [], dmg := [], stks := [], book := [] }, none) else (s, some Code.hardwareSelftest)

/-- Stage 8 (R444, R476). -/
def State.fabStage (s : State) (e : StartEnv) : State × Option Nat := (s, if e.fabric then none else some Code.hardwareSelftest)

/-- Stage `n`, where those before it have passed: it stands still where `halt` names it, and fails with the code that stands there. -/
def atStage (halt : Option (Nat × Nat)) (n : Nat) (f : State → State × Option Nat) (x : State × Option (Nat × Nat)) : State × Option (Nat × Nat) :=
  match x.2, halt with
  | some _, _ => x
  | none, some (m, c) => if m = n then (x.1, some (n, c)) else ((f x.1).1, (f x.1).2.map fun c => (n, c))
  | none, none => ((f x.1).1, (f x.1).2.map fun c => (n, c))

/-- The stages from `first` on, or those of a pause: 5, 6 and 8 to 10 (R444, R457): the state, and the stage that failed with its code. -/
def State.runStages (s : State) (e : StartEnv) (pause : Bool) (first : Nat) (halt : Option (Nat × Nat)) : State × Option (Nat × Nat) :=
  let go := atStage halt
  let pass := fun (s : State) => (s, (none : Option Nat))
  let x := (s, none)
  let x := if pause then x
    else go 4 (·.fwStage e) (go 3 (·.bankStage e) (go 2 (·.bootStage e) (if first = 1 then go 1 pass x else x)))
  let x := go 6 (·.ctlStage e) (go 5 (·.setStage e) x)
  let x := if pause then x else go 7 (·.memStage e) x
  go 10 pass (go 9 pass (go 8 (·.fabStage e) x))

/-- A start or a pause, with the one fallback that R447 allows (R444, R447, R457, R462). `halts`: where it stands still, at first and after
a fallback. -/
def State.stages (s : State) (e : StartEnv) (pause : Bool) (halts : Option (Nat × Nat) × Option (Nat × Nat)) : State :=
  let x := s.runStages e pause 1 halts.1
  match x.2 with
  | none => x.1.bringUp e (!pause) false
  | some (st, code) =>
    let (s, n) := x.1.fresh
    match fallback s.flash s.fuse st n with
    | none => s.startFailure st code
    | some g =>
      let y := { s with flash := s.flash.writeRec g }.runStages e.again false 2 halts.2
      match y.2 with
      | some (st2, code2) => y.1.startFailure st2 code2
      | none =>
        let s := (y.1.bringUp e true true).eventAll Code.fwRolledBack { Ev.none with arg0 := code }
        if code = Code.migrationFailed then s.eventAll Code.migrationFailed Ev.none else s

/-- True when a start may begin (R444, R491): powered, and none has run since the last reset. -/
def State.mayStart (s : State) : Bool := s.pwr.standby && s.pwr.pwrEn && s.pwr.pgood && s.pwr.boot.stage == 0 && !s.pwr.stopped

/-- START (R444, R491): 1 ms after RESET_N and PGOOD are high. -/
def State.start (s : State) (e : StartEnv) : State :=
  if !s.mayStart then s
  else
    let s := s.modPwr fun x => { x with resetN := true }
    if e.refclk then s.stages e false (none, none)
    else
      let (s, n) := s.fresh
      let (s, m) := s.fresh
      s.stages e false (some (noClock n), some (noClock m))

/-- START_TIMEOUT (R447, R449): a start that does not reach service ready within 10 s, at first or after a fallback. -/
def State.startLate (s : State) (e : StartEnv) : State :=
  if !s.mayStart ∨ (e.late.isNone ∧ e.late2.isNone) then s
  else (s.modPwr fun x => { x with resetN := true }).stages e false e.halts

/-- True while FW_STAGE runs. -/
def State.stagingRuns (s : State) : Bool := s.defs.any fun d => match d.k with | .stage _ _ => true | _ => false

/-- The pending promotion or restart, with its place (R455, R465). -/
def State.promotion (s : State) : Option (Nat × Defr) := findAt (fun d => match d.k with | .promote _ _ _ => true | _ => false) s.defs

/-- FW_STAGE (R454, R464): accepted from partition 0; the rest ends with the deferred command. -/
def State.doFwStage (s : State) (o : Org) (p src len : Nat) : State :=
  if p ≠ 0 then s.complete o 0x0200 Code.notPermitted []
  else if s.stagingRuns ∨ s.promotion.isSome then s.complete o 0x0200 Code.busy []
  else if src % 64 ≠ 0 ∨ !s.inOne 0 src (max 1 len) then s.complete o 0x0200 Code.badArgument []
  else { s with defs := s.defs ++ [⟨o, 0, 0x0200, .stage src len⟩] }

/-- The state with a bank and its STATE changed. -/
def State.setBank (s : State) (b st : Nat) (x : Bank) : State :=
  { s with flash := { s.flash.writeRec (fun r => r.setSt b st) with banks := putAt s.flash.banks b x } }

/-- The end of FW_STAGE (R454): the bank is marked EMPTY, written, and marked STAGED; a failure at any step leaves it EMPTY. `fail`: the
flash cannot be written. -/
def State.stageEnd (s : State) (o : Org) (src len : Nat) (fail : Bool) : State :=
  let b := 1 - s.flash.cur.active
  let (s, pkg, good) := s.anyRead 0 src len
  let empty := s.setBank b 0 Bank.empty
  if !good then empty.complete o 0x0200 Code.uncorrectableData []
  else if (Manifest.read pkg).pkglen ≠ len then empty.complete o 0x0200 Code.badArgument []
  else if packageCode pkg s.fuse.svn ≠ Code.ok then empty.complete o 0x0200 (packageCode pkg s.fuse.svn) []
  else if fail then empty.complete o 0x0200 Code.flashWriteFail []
  else (empty.setBank b 1 (Bank.of pkg)).complete o 0x0200 Code.ok []

/-- A promotion or restart is accepted (R455): it is announced and becomes pending. -/
def State.announce (s : State) (o : Org) (op : Nat) (bank : Option Nat) (force deadline : Nat) : State :=
  let s := s.eventAll Code.activationPending { Ev.none with arg0 := force, arg1 := 1000 * deadline }
  { s with defs := s.defs ++ [⟨o, 0, op, .promote bank (force == 1) false⟩] }

/-- FW_PROMOTE (R453, R455, R464). -/
def State.doFwPromote (s : State) (o : Org) (p target force deadline : Nat) : State :=
  let b := 1 - s.flash.cur.active
  if p ≠ 0 then s.complete o 0x0201 Code.notPermitted []
  else if 1 < target ∨ 1 < force ∨ 3600000 < deadline then s.complete o 0x0201 Code.badArgument []
  else if s.stagingRuns ∨ s.promotion.isSome then s.complete o 0x0201 Code.busy []
  else if s.flash.cur.st b ≠ (if target = 0 then 1 else 3) then s.complete o 0x0201 Code.badArgument []
  else if (s.flash.bank b).svn < s.fuse.svn then s.complete o 0x0201 Code.manifestSvn []
  else s.announce o 0x0201 (some b) force deadline

/-- RESTART (R455, R464): a pause without a bank change. -/
def State.doRestart (s : State) (o : Org) (p force deadline : Nat) : State :=
  if p ≠ 0 then s.complete o 0x0220 Code.notPermitted []
  else if 1 < force ∨ 3600000 < deadline then s.complete o 0x0220 Code.badArgument []
  else if s.stagingRuns ∨ s.promotion.isSome then s.complete o 0x0220 Code.busy []
  else s.announce o 0x0220 none force deadline

/-- FW_CANCEL (R464). -/
def State.doFwCancel (s : State) (o : Org) (p : Nat) : State :=
  if p ≠ 0 then s.complete o 0x0202 Code.notPermitted []
  else
    match s.promotion with
    | none => s.complete o 0x0202 Code.badArgument []
    | some (i, d) => ({ s with defs := dropAt s.defs i }.complete d.o d.op Code.activationDeferred []).complete o 0x0202 Code.ok []

/-- SET_READ: the slot in force goes to shared memory (R464). -/
def State.doSetRead (s : State) (o : Org) (p dest : Nat) : State :=
  if p ≠ 0 then s.complete o 0x0210 Code.notPermitted []
  else if !s.sharedIn 0 dest s.inForce.bytes.length then s.complete o 0x0210 Code.badArgument []
  else (s.viewWrite 0 dest s.inForce.bytes).complete o 0x0210 Code.ok []

/-- An item that SET_WRITE may replace (R459, R460): of type 1 or 2, with its value in range. -/
def itemOk (x : Nat × List Byte) : Bool :=
  (x.1 == 1 && x.2.length == 31 && decide (fld x.2 0 1 < 4)) || (x.1 == 2 && decide (1 ≤ x.2.length) && decide (fld x.2 0 1 < 2))

/-- SET_WRITE (R460, R464). -/
def State.doSetWrite (s : State) (o : Org) (p n : Nat) (b : List Byte) : State :=
  if p ≠ 0 then s.complete o 0x0211 Code.notPermitted []
  else
    match readItems n b with
    | none => s.complete o 0x0211 Code.badArgument []
    | some l =>
      if l.all itemOk then
        let w := s.writeSettings (l.foldl setItem s.inForce.items)
        w.1.complete o 0x0211 (writeCode w.2) []
      else s.complete o 0x0211 Code.badArgument []

/-- True when nothing runs but a pending promotion: no job, step, barrier or other deferred command (R456). -/
def State.quiescent (s : State) : Bool :=
  (s.parts.all fun x => x.2.job.isNone && x.2.ms.fetched.isNone && x.2.aborts.isEmpty) && (s.membs.all fun x => !x.2.busy && x.2.pend.isNone)
    && decide (s.defs.length ≤ 1)

/-- True when a forced decision ends work of a partition (R440, R456): its job is aborted, a step is aborted, or another deferred command of
its ends with ABORTED. What is complete in this cycle keeps its OK. -/
def State.cutShort (s : State) (p : Nat) : Bool :=
  (match (s.part p).job, ((s.abortJob p).part p).job with | some j, some k => j.fail.isNone && k.fail.isSome | _, _ => false)
    || ((s.part p).grant.membs.any fun c => (s.memb c).step.isSome && !s.stepComplete c)
    || s.defs.any fun d => d.part == p && (match d.k with | .promote _ _ _ => false | _ => true)

/-- The running work ends as a forced decision lays down (R94-R96, R362, R456): what is complete keeps its OK. -/
def State.endWork (s : State) : State :=
  let s := (List.range 8).foldl (fun s p => (s.abortJob p).stopEnd p) s
  let s := (List.range 8).foldl (fun s c => (s.stepAbort c).1) s
  let other := s.defs.filter fun d => match d.k with | .promote _ _ _ => false | _ => true
  let s := { s with defs := s.defs.filter fun d => match d.k with | .promote _ _ _ => true | _ => false }
  other.foldl (fun s d => s.complete d.o d.op Code.aborted []) s

/-- The pause of R457, decided for deferred command `d`. The sessions that it closes yield to the results in the stacks (R440, log entry 131). -/
def State.pause (s : State) (e : StartEnv) (i : Nat) (d : Defr) (bank : Option Nat) (force : Bool) : State :=
  let s := { s with defs := dropAt s.defs i }.complete d.o d.op Code.ok []
  let s := ((List.range 8).filter fun p => s.sess.any fun x => x.part == p).foldl (fun s p => s.yields p 3 5 (if force then 3 else 0)) s
  let s := (s.sess.map (·.sid)).foldl (fun s sid => s.closeSession sid (if force then Code.activationPending else 0)) s
  let s := match bank with
    | some b => { s with flash := s.flash.writeRec fun r => { ((r.setSt r.active 3).setSt b 2) with active := b, trial := true } }
    | none => s
  (s.modPwr fun x => { x with ready := false }).stages e true e.halts

/-- ACTIVATION_DECISION (R456, R457): in a quiescent cycle, or forced at the deadline. -/
def State.decide_ (s : State) (e : StartEnv) : State :=
  match s.promotion with
  | some (_, ⟨_, _, _, .promote _ force loaded⟩) =>
    if !loaded ∨ (!force ∧ !s.quiescent) then s
    else
      let s := if force then
          (((List.range 8).filter fun p => s.cutShort p).foldl (fun s p => s.yields p 1 4 3) s).endWork
        else s
      match s.promotion with
      | some (i, ⟨o, p, op, .promote bank force loaded⟩) => s.pause e i ⟨o, p, op, .promote bank force loaded⟩ bank force
      | _ => s
  | _ => s

/-- ACTIVATION_DEFERRED (R456): the deadline of an unforced promotion passes. -/
def State.activationLate (s : State) : State :=
  match s.promotion with
  | some (i, ⟨o, _, op, .promote _ false _⟩) => { s with defs := dropAt s.defs i }.complete o op Code.activationDeferred []
  | _ => s

/-- The preload of a promotion ends (R446, R455). -/
def State.preloadEnd (s : State) (i : Nat) (fail : Bool) : State :=
  match s.defs[i]? with
  | some ⟨o, p, op, .promote bank force _⟩ =>
    if fail ∨ ¬ (s.flash.bank (bank.getD s.flash.cur.active)).good then { s with defs := dropAt s.defs i }.complete o op Code.fwBankFail []
    else { s with defs := putAt s.defs i ⟨o, p, op, .promote bank force true⟩ }
  | _ => s

end Sys2Proof.Machine
end

