-- ==== Sys2Proof/Machine/Mailbox.lean ====
section
/-!
DEFINITION. The command ring (R387-R393): which session's record is taken next, and what its bytes say; and the end of deferred
commands (R391).
-/

namespace Sys2Proof

/-- The LEN that a command's record has (R392, R426, R464); none for an OP defined nowhere. The LEN of MATCH_MULTI and SET_WRITE
depends on the record `b`. -/
def commandLen (op : Nat) (b : List Byte) : Option Nat :=
  match op with
  | 0x0001 => some 8
  | 0x0002 => some 16
  | 0x0003 => some 8
  | 0x0010 => some 24
  | 0x0011 => some 32
  | 0x0020 => some 16
  | 0x0021 => some 16
  | 0x0022 => some 16
  | 0x0030 => some 48
  | 0x0031 => some 72
  | 0x0040 => some (96 + 40 * fld b 88 1)
  | 0x0100 => some 72
  | 0x0101 => some 16
  | 0x0102 => some 16
  | 0x0103 => some 80
  | 0x0110 => some 64
  | 0x0120 => some 48
  | 0x0121 => some 16
  | 0x0200 => some 32
  | 0x0201 => some 24
  | 0x0202 => some 8
  | 0x0210 => some 16
  | 0x0211 => some (max 16 b.length)
  | 0x0220 => some 16
  | _ => none

/-- Bytes that the host has written and the module has not taken; none where HEAD stands beyond TAIL (R388). -/
def Sess.cavail (x : Sess) : Nat :=
  let n := (x.ctail + 2 ^ 32 - x.chead) % 2 ^ 32
  if x.csize < n then 0 else n

/-- The bytes of the command ring from count `c`, `n` of them, across the ring end. -/
def Sess.cread (x : Sess) (c n : Nat) : List Byte := (List.range n).map fun i => x.cring.byte ((c + i) % x.csize)

/-- What stands next in a command ring (R388): a bad LEN, a record that crosses the ring end, or a record; with the new HEAD. -/
inductive Next where
  | badLen (head : Nat)
  | wrap (head : Nat)
  | pad (head : Nat)
  | record (head : Nat) (b : List Byte)
deriving DecidableEq, Repr

/-- The next thing to take from a command ring; none while TAIL does not cover it (R388). -/
def Sess.nextRecord (x : Sess) : Option Next :=
  let n := x.cavail
  let h := x.chead % x.csize
  let len := fld (x.cread x.chead 2) 0 2
  if n < 2 then none
  else if len < 8 ∨ 4096 < len ∨ len % 8 ≠ 0 then some (.badLen ((x.chead - h + x.csize) % 2 ^ 32))
  else if n < len then none
  else
    let b := x.cread x.chead len
    if x.csize < h + len ∧ fld b 2 2 ≠ 0 then some (.wrap ((x.chead - h + x.csize) % 2 ^ 32))
    else if fld b 2 2 = 0 then some (.pad ((x.chead + len) % 2 ^ 32))
    else some (.record ((x.chead + len) % 2 ^ 32) b)

end Sys2Proof

namespace Sys2Proof.Machine

/-- A command record runs (R390-R393, R426, R464), with the upsets that it meets. -/
def State.runRecord (s : State) (o : Org) (p : Nat) (b : List Byte) (us : List Upset) : State :=
  let op := fld b 2 2
  match commandLen op b with
  | none => s.complete o op Code.commandUnknown []
  | some len =>
    if b.length ≠ len then s.complete o op Code.badArgument []
    else
      let a := b.drop 8
      match op with
      | 0x0001 => s.doNop o
      | 0x0002 => s.doSubscribe o (fld a 0 4)
      | 0x0003 => s.doSessionInfo o
      | 0x0010 => s.doRegRead o p (fld a 0 8) (fld a 8 1) (fld a 9 1) us
      | 0x0011 => s.doRegWrite o p (fld a 0 8) (fld a 8 1) (fld a 16 8) us
      | 0x0020 => s.doRegionDefine o p (fld a 0 1) ⟨fld a 1 1, fld a 2 1, fld a 3 1, fld a 4 1⟩
      | 0x0021 => s.doRegionRelease o p (fld a 0 1)
      | 0x0022 => s.doJobAbort o p (fld a 0 2)
      | 0x0030 => s.doRingKey o p (fld a 0 1) (slice a 8 32)
      | 0x0031 => s.doRingStep o p (slice a 0 64)
      | 0x0040 => s.doMatchMulti o p (fld b 8 8) (fld b 16 8) (slice b 24 64)
          ((List.range (fld b 88 1)).map fun i => MStk.read (slice b (96 + 40 * i) 40))
      | 0x0100 => s.doGrantSet o p (slice a 0 64)
      | 0x0101 => s.doPartDelete o p (fld a 0 1)
      | 0x0102 => s.doGrantRead o p (fld a 0 1)
      | 0x0103 => s.doHostkeySet o p (fld a 0 1) (fld a 1 1) (fld a 2 1) (slice a 8 57)
      | 0x0110 => s.doImageLoad o p (fld a 0 1) (fld a 8 8) (fld a 16 8) (slice a 24 32)
      | 0x0120 => s.doAttest o p (slice a 0 32) (fld a 32 8)
      | 0x0121 => s.doCertRead o p (fld a 0 8)
      | 0x0200 => s.doFwStage o p (fld a 0 8) (fld a 8 8)
      | 0x0201 => s.doFwPromote o p (fld a 0 1) (fld a 1 1) (fld a 4 4)
      | 0x0202 => s.doFwCancel o p
      | 0x0210 => s.doSetRead o p (fld a 0 8)
      | 0x0211 => s.doSetWrite o p (fld a 0 2) (a.drop 8)
      | 0x0220 => s.doRestart o p (fld a 0 1) (fld a 4 4)
      | _ => s.complete o op Code.commandUnknown []

/-- A ring event, to the session whose ring it is (R388): the old HEAD in ARG0, the new one in ARG1. -/
def State.ringEvent (s : State) (x : Sess) (code new : Nat) : State :=
  (s.modSess x.sid fun y => { y with chead := new }).deliver x.sid ({ Ev.none with port := x.port, arg0 := x.chead, arg1 := new }.record code s.now)

/-- What the firmware does with what stands next in a session's ring (R388). -/
def State.takeNext (s : State) (x : Sess) (n : Option Next) (us : List Upset) : State :=
  match n with
  | none => s
  | some (.badLen h) => s.ringEvent x Code.ringRecordFormat h
  | some (.wrap h) => s.ringEvent x Code.ringWrapViolation h
  | some (.pad h) => s.modSess x.sid fun y => { y with chead := h }
  | some (.record h b) => (s.modSess x.sid fun y => { y with chead := h }).runRecord ⟨x.sid, fld b 4 4⟩ x.part b us

/-- One step of the ring of a session that the firmware serves (R388). -/
def State.takeRecord (s : State) (x : Sess) (us : List Upset) : State := s.takeNext x x.nextRecord us

/-- The sessions whose ring the firmware can step now (R388, R391). -/
def State.readySess (s : State) : List Sess := s.sess.filter fun x => (s.serves x.sid).isSome && x.nextRecord.isSome

/-- Memory of the management processor beyond correction: a RESTART with FORCE = 1 and DEADLINE 0 (R468), in place of a promotion or
restart that is pending (log entry 135). -/
def State.mgmtRestart (s : State) : State :=
  (match s.promotion with
    | some (i, d) => { s with defs := dropAt s.defs i }.complete d.o d.op Code.activationDeferred []
    | none => s).announce ⟨0, 0⟩ 0x0220 none 1 0

/-- COMMAND_RECORD_TAKE (R388, R391): partitions in turn, and in a partition sessions in turn; with the upsets that it meets (R468). -/
def State.recordTake (s : State) (us : List Upset) : State :=
  let bad := us.any fun u => match u with | .mgmt n => decide (1 < n) | _ => false
  let s := if s.pwr.ready ∧ ¬ s.pwr.stopped ∧ bad then s.mgmtRestart else s
  let ready := s.readySess
  match nextInTurn s.takePart (ready.map (·.part)) with
  | none => s
  | some p =>
    match nextInTurn (s.takeSid.get 0 p) ((ready.filter fun x => x.part == p).map (·.sid)) with
    | none => s
    | some sid =>
      match s.session sid with
      | some x => { s with takePart := p, takeSid := SMap.set 0 s.takeSid p sid }.takeRecord x us
      | none => s

/-- DEFERRED_COMMAND_END of deferred command `i` (R391): its work ends and its completion is posted. `fail`: the flash cannot be
written, the preloaded images do not check, or staging is damaged (R431, R454, R455). A JOB_ABORT ends with its job (R396), a MATCH_MULTI with its merge. -/
def State.deferredEnd (s : State) (i : Nat) (fail : Bool) : State :=
  match s.defs[i]? with
  | none => s
  | some d =>
    let t := { s with defs := dropAt s.defs i }
    match d.k with
    | .matchMulti _ _ _ _ _ _ => s
    | .grant _ _ _ _ _ => s.grantEnd i
    | .image r src len secret _ => t.imageEnd d.o d.part r src len secret fail
    | .attest nonce dest => t.attestEnd d.o d.part nonce dest
    | .stage src len => t.stageEnd d.o src len fail
    | .promote _ _ _ => s.preloadEnd i fail

end Sys2Proof.Machine
end

