-- ==== Sys2Proof/Machine/Power.lean ====
section
/-!
DEFINITION. Thermal states (R480-R482), the input, the rails, reset and the reference clock (R488-R492, R497), the power
controller (R493-R495) and the sideband (R496).
-/

namespace Sys2Proof

/-- The hottest of some sensors. -/
def hottest (l : List Nat) : Nat := l.foldl max 0

/-- The band of an input voltage in 10 mV (R489), as `Power.input` numbers it. -/
def inputBand (v : Nat) : Nat :=
  if v < 3600 then 3 else if v < 4000 then 1 else if v ≤ 6000 then 0 else if v ≤ 6300 then 2 else 4

/-- Sensors of a state: the entry thresholds of die and stack (R480). -/
def thermalEntry (st : Nat) : Nat × Nat := if st = 1 then (95, 90) else (100, 95)

/-- The prediction of R493 without the factor k, in µW. -/
def predictBase (prof clk : Nat) (ports : List Bool) (a : Activity) : Nat :=
  let fab := fun (full stat acc f0 : Nat) => full * a.arrays * clk * 1000 / f0 + (stat * 1000000 + acc * a.access * 1000) * clk / f0
  let stk := fun (per top : Nat) => ((List.range 8).map fun t => 3000000 + per * 1000000 * nth 0 a.rates t / top).sum
  let net := ((ports.zip (List.range 8)).map fun p => if p.1 then 2500000 + 3500 * nth 0 a.loads p.2 else 0).sum
  if prof = 0 then (fab 200 18 132 1400 + stk 23 1600 + net + 20000000) * 1096 / 1000
  else (fab 92 8 61 1000 + stk 19 1200 + net + 20000000) * 1086 / 1000

/-- The prediction in 0.1 W. -/
def predictPower (prof clk k : Nat) (ports : List Bool) (a : Activity) : Nat := predictBase prof clk ports a * k / 1000 / 100000

/-- The cap in force in W (R494). -/
def Power.capWatts (x : Power) : Nat := if x.pwrlim = 0 then profileWatts x.profile else min (profileWatts x.profile) x.pwrlim

/-- True when the controller holds the clock or a stack below the profile (R496). -/
def Power.capped (x : Power) : Bool := decide (x.powClk < profileClock x.profile) || decide (x.powCap < profileCap x.profile)

/-- The step down of R494: the clock to 500 MHz, then the stack cap to 0.8 TB/s; `none` with both floors reached. -/
def Power.stepDown (x : Power) : Option Power :=
  if 500 < x.powClk then some { x with powClk := max 500 (x.powClk - 50) }
  else if 8 < x.powCap then some { x with powCap := x.powCap - 1 }
  else none

/-- The release of R494 at a tick that finds the power 30 W below the target: after 1 s the stack caps, then 50 MHz each 10 ms. -/
def Power.stepUp (x : Power) : Power :=
  let n := x.calm + 1
  if n < 1000 ∨ n % 10 ≠ 0 then { x with calm := n }
  else if x.powCap < profileCap x.profile then { x with calm := n, powCap := profileCap x.profile, capping := false }
  else { x with calm := n, powClk := min (profileClock x.profile) (x.powClk + 50), capping := false }

/-- The address byte of the sideband (R496). -/
def Power.smbAddr (x : Power) : Nat := 0x50 + x.slot

end Sys2Proof

namespace Sys2Proof.Machine

/-- The sensors are read (R480, R482, R302). -/
def State.readSensors (s : State) (die : Nat) (stks : List Nat) : State :=
  let s := s.modPwr fun x => { x with dieMax := die, stkMax := hottest stks, sbDie := die, sbStk := hottest stks }
  (List.range 8).foldl (fun s t => s.modStack t fun k => { k with hot := decide (85 < nth 0 stks t) }) s

/-- True while the module runs and its protection watches. -/
def State.watching (s : State) : Bool := s.pwr.pgood && !s.pwr.stopped && !s.pwr.boot.failed

/-- True when the sensors reach the entry threshold of thermal state `st` (R480). -/
def reachesEntry (st die : Nat) (stks : List Nat) : Bool :=
  decide ((thermalEntry st).1 ≤ die) || decide ((thermalEntry st).2 ≤ hottest stks)

/-- True when every sensor is 5 °C below the entry threshold of thermal state `st` (R480). -/
def belowEntry (st die : Nat) (stks : List Nat) : Bool :=
  decide (die + 5 ≤ (thermalEntry st).1) && decide (hottest stks + 5 ≤ (thermalEntry st).2)

/-- A thermal state is entered: THERM_N and SB_STAT.THRM (R480, R496). -/
def State.enterThermal (s : State) (st : Nat) : State := s.modPwr fun x => Power.sbSet { x with tstate := st, therm := true, atFloor := 0 } 10

/-- THERMAL_WARNING (R480). -/
def State.thermalWarning (s : State) (die : Nat) (stks : List Nat) : State :=
  if s.watching ∧ s.pwr.tstate = 0 ∧ reachesEntry 1 die stks then
    ((s.readSensors die stks).enterThermal 1).eventAll Code.thermalWarning Ev.none
  else s

/-- The stacks at 95 °C or above are capped at 0.8 TB/s (R480). -/
def State.capHot (s : State) (stks : List Nat) : State :=
  (s.modPwr fun x => { x with thermCap := (List.range 8).map fun t => if 95 ≤ nth 0 stks t then 8 else nth 16 x.thermCap t }).reclock

/-- THERMAL_THROTTLE (R440, R480): the events come before the first step; hot stacks are capped, also those that heat up in THROTTLE. -/
def State.thermalThrottle (s : State) (die : Nat) (stks : List Nat) : State :=
  if s.watching ∧ s.pwr.tstate < 2 ∧ reachesEntry 2 die stks then
    let s := ((s.readSensors die stks).enterThermal 2).eventAll Code.thermalThrottle Ev.none
    let s := s.defined.foldl (fun s p => s.yields p 1 5 1) s
    s.capHot stks
  else if s.watching ∧ s.pwr.tstate = 2 ∧ reachesEntry 2 die stks then (s.readSensors die stks).capHot stks
  else s

/-- THROTTLE_STEP (R480): 1 ms in THROTTLE. At 500 MHz the milliseconds count toward the trip. -/
def State.throttleStep (s : State) : State :=
  if s.watching ∧ s.pwr.tstate = 2 then
    (s.modPwr fun x => if x.thermClk ≤ 500 then { x with atFloor := x.atFloor + 1 } else { x with thermClk := max 500 (x.thermClk - 100) }).reclock
  else s

/-- The module stops (R481, R490, R497): fabric, ports and data side of SMBus; FAULT_N and the boot status word tell, and the event log
records the trip. -/
def State.stopModule (s : State) (code : Nat) : State :=
  let s := { s with flash := { s.flash with trips := s.flash.trips + 1 }, ports := s.ports.map fun (x : Port) => { x with enabled := false, link := false, cur := none, wait := [] } }
  let b : BootW := s.pwr.boot
  (s.modPwr fun x => { x with stopped := true, ready := false, fault := true }).setBoot ⟨10, true, b.bank, b.fellback, code⟩

/-- THERMAL_TRIP (R480, R481): at 110 °C or 105 °C, or after 100 ms at 500 MHz still in THROTTLE. -/
def State.thermalTrip (s : State) (die : Nat) (stks : List Nat) : State :=
  if s.watching ∧ (110 ≤ die ∨ 105 ≤ hottest stks ∨ (s.pwr.tstate = 2 ∧ 100 ≤ s.pwr.atFloor)) then
    (s.readSensors die stks).stopModule Code.thermalTrip
  else s

/-- THERMAL_CLEAR (R480): the state is left; THROTTLE to WARNING, unless the sensors lie below that one too. -/
def State.thermalClear (s : State) (die : Nat) (stks : List Nat) : State :=
  let st := s.pwr.tstate
  if s.watching ∧ 0 < st ∧ belowEntry st die stks then
    let goal := if st = 2 ∧ !belowEntry 1 die stks then 1 else 0
    let s := s.readSensors die stks
    let s := s.modPwr fun x => { x with tstate := goal, therm := decide (goal = 1), thermCap := List.replicate 8 16, atFloor := 0 }
    s.reclock.eventAll Code.thermalClear Ev.none
  else s

/-- THERMAL_CLOCK_RAMP (R480). -/
def State.clockRamp (s : State) : State :=
  if s.watching ∧ s.pwr.tstate < 2 then
    (s.modPwr fun x => { x with thermClk := min (profileClock x.profile) (x.thermClk + 100) }).reclock
  else s

/-- Everything but what survives a reset (R491, R492): flash with its event log, fuses, the sideband, and the cores pending
retirement (log entry 23). `f` says what becomes of power and pins. -/
def State.lost (s : State) (f : Power → Power) : State :=
  let x := s.pwr
  { State.initial s.grade with
    free := s.free, elog := s.elog, past := s.past + s.now, pendingRetire := s.pendingRetire, causes := s.causes, fuse := s.fuse, flash := s.flash,
    smbOut := s.smbOut, pending := s.pending, pwr := Power.alerted (f { Power.reset with
      standby := x.standby, slot := x.slot, pwrEn := x.pwrEn, resetN := x.resetN, pgood := x.pgood, input := x.input, railFault := x.railFault, fault := x.railFault,
      vin := x.vin, iin := x.iin, pin := x.pin, energy := x.energy, sbDie := x.sbDie, sbStk := x.sbStk, inlet := x.inlet, outlet := x.outlet, pwrlim := x.pwrlim,
      sbstat := if x.boot.word = 0 then x.sbstat else x.sbstat ||| 2 ^ 11, alerten := x.alerten }) }

/-- RESET: RESET_N low for 10 µs with PGOOD high (R491). -/
def State.resetPin (s : State) : State := if s.pwr.pgood then s.lost fun x => { x with resetN := false } else s

/-- The main rails go off (R489, R492). -/
def State.railsOff (s : State) (f : Power → Power) : State := s.lost fun x => f { x with pgood := false, resetN := false }

/-- INPUT_VOLTAGE: the input, in 10 mV, enters or leaves a band (R489). With PWR_EN high the rails come back at 40 V or above. -/
def State.inputVoltage (s : State) (v : Nat) : State :=
  let b := inputBand v
  let old := s.pwr.input
  if !s.pwr.standby ∨ 3 ≤ b then s
  else
    let s := s.modPwr fun x =>
      let y := { x with input := b, vin := v, pgood := x.pgood || (x.pwrEn && b != 1 && !x.railFault) }
      if old = 0 ∧ b ≠ 0 then y.sbSet 8 else y
    if s.watching ∧ s.pwr.ready ∧ ((old = 0) ≠ (b = 0)) then s.eventAll Code.inputVoltage Ev.none else s

/-- INPUT_OUT_OF_RANGE (R489): below 36 V or above 63 V the main rails go off. -/
def State.inputOut (s : State) (v : Nat) : State :=
  let b := inputBand v
  if !s.pwr.standby ∨ b < 3 then s
  else s.railsOff fun x => Power.sbSet { x with input := b, vin := v } 8

/-- OVERCURRENT_TRIP: input current above 24 A, in 10 mA (R490). -/
def State.overcurrent (s : State) (i : Nat) : State :=
  if s.watching ∧ 2400 < i then (s.modPwr fun x => { x with iin := i }).stopModule Code.powerCap else s

/-- STANDBY_UP (R488, R496): the slot is read and the sideband registers are reset. -/
def State.standbyUp (s : State) (slot : Nat) : State :=
  if s.pwr.standby then s
  else s.lost fun _ => { Power.reset with slot := slot % 16, input := 0, pwrEn := false, pgood := false, resetN := false }

/-- STANDBY_RAIL_DOWN (R489): the standby rail and the sideband registers are lost. -/
def State.standbyDown (s : State) : State :=
  if s.pwr.standby then
    { s.lost fun _ => { Power.reset with standby := false, input := 3, pwrEn := false, pgood := false, resetN := false } with smbOut := none }
  else s

/-- PWR_EN_RISE (R489, R491): the rails come up with the input at 40 V or above. -/
def State.pwrEnRise (s : State) : State :=
  if s.pwr.standby ∧ ¬ s.pwr.pwrEn then
    s.modPwr fun x => { x with pwrEn := true, pgood := x.input == 0 || x.input == 2, resetN := false }
  else s

/-- POWER_DOWN (R492): PWR_EN falls. -/
def State.powerDown (s : State) : State :=
  if s.pwr.pwrEn then s.railsOff fun x => { x with pwrEn := false, railFault := false, fault := false } else s

/-- RAIL_FAULT (R492): PGOOD falls with PWR_EN high and the input within 40-60 V. -/
def State.railFaults (s : State) : State :=
  if s.pwr.pwrEn ∧ s.pwr.pgood ∧ s.pwr.input = 0 then s.railsOff fun x => { x with railFault := true, fault := true } else s

/-- REFCLK_LOSS: after a start has begun (R497). -/
def State.refclkLoss (s : State) : State :=
  if s.watching ∧ 0 < s.pwr.boot.stage then s.stopModule Code.hardwareSelftest else s

/-- True when a partition has a running job or step (R495). -/
def State.busyPart (s : State) (p : Nat) : Bool :=
  (s.part p).job.isSome || (s.part p).grant.membs.any fun c => (s.memb c).step.isSome

/-- The cap begins to lower the clock or the stack rate (R440, R495, R496). -/
def State.capBegins (s : State) : State :=
  let s := (s.modPwr fun x => Power.sbSet { x with capping := true } 9).eventAll Code.powerCap { Ev.none with arg0 := s.pwr.capWatts, arg1 := s.clock }
  ((List.range 8).filter fun p => s.busyPart p).foldl (fun s p => s.yields p 1 5 2) s

/-- POWER_CAP_TICK (R494-R496): the larger of the measured 1 ms average and the prediction against the target, the cap less 10 W. -/
def State.capTick (s : State) (m : Measured) (a : Activity) : State :=
  if !s.watching ∨ ¬ s.pwr.ready then s
  else
    let s := (s.readSensors m.die m.stks).modPwr fun x => { x with pin := m.pin, vin := m.vin, iin := m.iin, inlet := m.inlet, outlet := m.outlet, energy := x.energy + m.pin }
    let x := s.pwr
    let power := max m.pin (predictPower x.profile s.clock x.k (s.ports.map (·.link)) a)
    let cap := 10 * x.capWatts
    let target := cap - 100
    if target < power then
      match x.stepDown with
      | some y =>
        let t := (s.modPwr fun _ => { y with calm := 0, floor := false }).reclock
        if x.capping then t else t.capBegins
      | none => s.modPwr fun y => { y with calm := 0, floor := decide (cap < power) }
    else if power + 300 ≤ target then (s.modPwr fun y => { (if y.capped then y.stepUp else { y with calm := y.calm + 1, capping := false }) with floor := false }).reclock
    else s.modPwr fun y => { y with calm := 0, floor := false }

/-- POWER_MODEL_UPDATE (R493): k moves toward the ratio of measured to predicted power, within 0.8-1.25; how far is a free value. -/
def State.modelUpdate (s : State) (pin : Nat) (a : Activity) : State :=
  if !s.watching ∨ ¬ s.pwr.ready then s
  else
    let pred := max 1 (predictPower s.pwr.profile s.clock s.pwr.k (s.ports.map (·.link)) a)
    let goal := min 1250 (max 800 (1000 * pin / pred))
    let (s, n) := s.fresh
    s.modPwr fun x =>
      { x with k := if x.k ≤ goal then x.k + (goal - x.k) * (n % 1001) / 1000 else x.k - (x.k - goal) * (n % 1001) / 1000 }

/-- A sideband register: width in bytes and value (R496). -/
def State.sbReg (s : State) (code : Nat) : Option (Nat × Nat) :=
  let x := s.pwr
  match code with
  | 0x00 => some (4, x.boot.word)
  | 0x01 => some (4, s.grade.ident)
  | 0x10 => some (2, satAt 0xFFFF x.vin)
  | 0x11 => some (2, satAt 0xFFFF x.iin)
  | 0x12 => some (2, satAt 0xFFFF x.pin)
  | 0x13 => some (4, x.energy / 10000 % 2 ^ 32)
  | 0x14 => some (4, satAt 255 x.sbDie + 2 ^ 8 * satAt 255 x.sbStk + 2 ^ 16 * satAt 255 x.inlet + 2 ^ 24 * satAt 255 x.outlet)
  | 0x20 => some (2, x.pwrlim)
  | 0x21 => some (2, b2n x.capped + 2 * b2n x.floor + 4 * x.profile + 2 ^ 5 * s.clock)
  | 0x30 => some (2, b2n x.pgood + 2 * b2n x.fault + 4 * x.tstate + x.sbstat)
  | 0x31 => some (2, x.alerten * 2 ^ 8)
  | _ => none

/-- True when the data side is answered (R448, R481, R496). -/
def State.dataSide (s : State) : Bool :=
  s.pwr.standby && s.pwr.pgood && decide (5 ≤ s.pwr.boot.stage) && !s.pwr.boot.failed && !s.pwr.stopped

/-- The answer to a Block Read: byte count, value, PEC (R496). -/
def State.blockRead (s : State) (code : Nat) : State :=
  let ok := if code = 0 then s.pwr.standby else s.dataSide
  match s.sbReg code with
  | some (n, v) =>
    if ok then
      let b := natLe 1 n ++ natLe n v
      let pec := Config.smbusPec (natLe 1 (2 * s.pwr.smbAddr) ++ natLe 1 code ++ natLe 1 (2 * s.pwr.smbAddr + 1) ++ b)
      { s with smbOut := some (b ++ [pec]) }
    else { s with smbOut := none }
  | none => { s with smbOut := none }

/-- The value written to a sideband register; none where it is refused (R494, R496). -/
def State.sbWrite (s : State) (code v : Nat) : Option (Power → Power) :=
  match code with
  | 0x20 =>
    let n := bits v 10 0
    if n = 0 ∨ (400 ≤ n ∧ n ≤ profileWatts s.pwr.profile) then some fun x => { x with pwrlim := n } else none
  | 0x30 => some fun x => { x with sbstat := (List.range 4).foldl (fun n i => if bit v (8 + i) && bit n (8 + i) then n - 2 ^ (8 + i) else n) x.sbstat }
  | 0x31 => some fun x => { x with alerten := bits v 11 8 }
  | _ => some id

/-- A Block Write with PEC (R496): refused at its last byte where the PEC, the width or the value is wrong. -/
def State.blockWrite (s : State) (code : Nat) (data : List Byte) (pec : Byte) : State :=
  let want := Config.smbusPec (natLe 1 (2 * s.pwr.smbAddr) ++ natLe 1 code ++ natLe 1 data.length ++ data)
  match s.sbReg code with
  | some (n, _) =>
    if s.dataSide ∧ pec = want ∧ data.length = n then
      match s.sbWrite code (leNat data) with
      | some f => { s with smbOut := some [] }.modPwr f
      | none => { s with smbOut := none }
    else { s with smbOut := none }
  | none => { s with smbOut := none }

/-- SMBUS_ALERT_RESPONSE (R496): while SMB_ALERT_N is asserted the module answers with its own address. -/
def State.alertResponse (s : State) : State :=
  { s with smbOut := if s.pwr.standby ∧ s.pwr.alert then some (natLe 1 (2 * s.pwr.smbAddr)) else none }

/-- SMBUS_CLOCK_LOW_TIMEOUT (R496): the transaction is abandoned, with no answer and no other effect. -/
def State.clockLow (s : State) : State := { s with smbOut := none }

/-- The wrong bits of the book among upsets, on die `d`: words corrected, words beyond correction (R468). -/
def bookUpsets (d : Nat) (us : List Upset) : Nat × Nat :=
  let n := us.filterMap fun u => match u with | .book e n => if e = d then some n else none | _ => none
  ((n.filter fun k => k == 1).length, (n.filter fun k => decide (1 < k)).length)

/-- Reads of a setup from the books that meet upsets (R469-R471): the counts, and whether one was beyond correction. Partition 0 hears of
that too, because the book ports are shared (R423, R470). -/
def State.bookReads (s : State) (us : List Upset) : State × Bool :=
  let r := (List.range 4).foldl (fun (acc : State × Bool) d =>
    let n := bookUpsets d us
    (acc.1.dieErrors d n.1 n.2, acc.2 || n.2 != 0)) (s, false)
  (if r.2 then r.1.event 0 Code.uncorrectableData Ev.none else r.1, r.2)

/-- RECONF_TABLES_END with what the reads met: an uncorrectable one fails the load (R82, R471). -/
def State.tablesRead (s : State) (p r : Nat) (us : List Upset) : State :=
  let g := s.region p r
  if g.load.isSome ∧ s.phaseOver g .tables then
    let y := s.bookReads us
    if y.2 then y.1.loadFail p r Code.uncorrectableData else y.1.tablesEnd p r
  else s

/-- RECONF_SECTIONS_END with what the reads met (R82, R471). -/
def State.sectionsRead (s : State) (p r : Nat) (us : List Upset) : State :=
  match (s.region p r).load with
  | some l =>
    if l.phase = .sections ∧ l.left.all (· == 0) then
      let y := s.bookReads us
      if y.2 then y.1.loadFail p r Code.uncorrectableData else y.1.sectionsEnd p r
    else s
  | none => s

/-- Pieces of 16 bytes of a die's shared memory and of its book, which the patrol scrub reads in turn (R468). -/
def scrubPlaces : Nat := sharedBytes / 16 + 0x02000000 / 16

/-- SHARED_MEMORY_SCRUB (R468-R470): the next location of a die is read, rewritten if it was corrected, and reported if it was not. -/
def State.sharedScrub (s : State) (d : Nat) (us : List Upset) : State :=
  let s := s.damages us
  let i := nth 0 s.smScrub d
  let s := { s with smScrub := putAt s.smScrub d ((i + 1) % scrubPlaces) }
  if i < sharedBytes / 16 then
    let a := sharedBase d + 16 * i
    let e := s.readErrors a 16
    let s := s.dieErrors d e.1 e.2
    if e.2 ≠ 0 then
      let who := (List.range 8).filter fun p => p == 0 || (s.part p).grant.blocks.contains (24 * d + 16 * i / partBytes)
      who.foldl (fun s p => s.event p Code.uncorrectableData Ev.none) s
    else if e.1 ≠ 0 then s.mend a 16
    else s
  else
    let n := bookUpsets d us
    let s := s.dieErrors d n.1 n.2
    if n.2 ≠ 0 then s.event 0 Code.uncorrectableData Ev.none else s

end Sys2Proof.Machine
end

