-- ==== Sys2Proof/Machine/Guards.lean ====
section
/-!
DEFINITION. What the meanings share: nothing happens at an object that the module does not have; nothing but power, pins,
sideband and start happens while the module does not run; a row that is a register write goes through the command that
writes; a row that is an action of a core is started by it.
-/

namespace Sys2Proof

/-- An entry of a list named by an index that counts from 1 (R63). -/
def entryAt {α : Type} (l : List α) (idx : Nat) : Option α := if idx = 0 then none else l[idx - 1]?

/-- What kind of action an index of a section names (R63, R88, R98, R223, R261). -/
def Sect.isMat (t : Sect) (op idx : Nat) : Bool := match entryAt t.mats idx with | some i => i.op == op | none => false
def Sect.isWload (t : Sect) (idx : Nat) : Bool := t.isMat 1 idx
def Sect.isStream (t : Sect) (idx : Nat) : Bool := t.isMat 2 idx
def Sect.isAclr (t : Sect) (idx : Nat) : Bool := t.isMat 3 idx
def Sect.isVec (t : Sect) (idx : Nat) : Bool := (entryAt t.vecs idx).isSome
def Sect.isRte (t : Sect) (idx : Nat) : Bool := (entryAt t.rtes idx).isSome
def Sect.isFlagOp (t : Sect) (op idx : Nat) : Bool := match entryAt t.flgs idx with | some a => a.op == op | none => false
def Sect.isFlagSet (t : Sect) (idx : Nat) : Bool := t.isFlagOp 1 idx
def Sect.isFlagClear (t : Sect) (idx : Nat) : Bool := t.isFlagOp 2 idx
def Sect.isSteer (t : Sect) (op idx : Nat) : Bool := match entryAt t.strs idx with | some a => a.op == op | none => false
def Sect.isPair (t : Sect) (idx : Nat) : Bool := t.isSteer 1 idx
def Sect.isDeliver (t : Sect) (idx : Nat) : Bool := t.isSteer 2 idx
def Sect.isTokgen (t : Sect) (idx : Nat) : Bool := t.isSteer 3 idx
def Sect.isCursor (t : Sect) (idx : Nat) : Bool := match entryAt t.mems idx with | some (.cursor _ _ _ _) => true | _ => false
def Sect.isCastle (t : Sect) (idx : Nat) : Bool := match entryAt t.mems idx with | some (.castle _) => true | _ => false
def Sect.isDmain (t : Sect) (idx : Nat) : Bool := match entryAt t.mems idx with | some (.dmain _) => true | _ => false
def Sect.isDmaout (t : Sect) (idx : Nat) : Bool := match entryAt t.mems idx with | some (.dmaout _) => true | _ => false
def Sect.isSmreq (t : Sect) (idx : Nat) : Bool := match entryAt t.mems idx with | some (.smreq _ _ _ _ _ _) => true | _ => false
def Sect.isRotate (t : Sect) (idx : Nat) : Bool := match entryAt t.mems idx with | some (.rotate _ _ _) => true | _ => false

end Sys2Proof

namespace Sys2Proof.Machine

/-- The outcome of a command whose operands name objects: nothing happens at an object that the module does not have (log entry 32). -/
def State.guarded (s : State) (ok : Bool) (t : State) : Host.Outcome State Fault Refusal := .next (if ok then t else s)

/-- True from service ready until a stop, a reset or the loss of power (R444, R481, R491). -/
def State.runs (s : State) : Bool := s.pwr.ready && !s.pwr.stopped

/-- What happens in the fabric and the firmware happens while the module runs. -/
def State.whileOn (s t : State) : State := if s.runs then t else s

/-- First address of partition `p`'s register block (R19). -/
def partRegBase (p : Nat) : Nat := 0x040000100000 + 0x10000 * p

/-- The REG_WRITE of value `v` to the register at `a` (R394), in the register's own width. -/
def State.regCommand (s : State) (o : Org) (a v : Nat) : State :=
  s.asCommand o fun s p => s.doRegWrite o p a (match s.regAt p a with | some (w, _) => w | none => 4) v []

/-- The REG_WRITE to the register at `ofs` of the sender's own partition block; the value may keep what the partition holds. -/
def State.partWrite (s : State) (o : Org) (ofs : Nat) (v : Part → Nat) : State :=
  s.asCommand o fun s p =>
    let a := partRegBase p + ofs
    s.doRegWrite o p a (match s.regAt p a with | some (w, _) => w | none => 4) (v (s.part p)) []

/-- An action of a core that its section lists, started in the tempo that its running region executes (R63). -/
def State.coreStarts (s : State) (c : Nat) (kind : Sect → Bool) (act : TC → TC) : State :=
  match (s.core c).owner with
  | some (p, r) =>
    if ((s.region p r).state = .running ∨ (s.region p r).state = .held) ∧ kind (s.core c).sect then s.startOne c act else s
  | none => s

end Sys2Proof.Machine
end

