-- ==== Sys2Proof/Machine/ExecCommand.lean ====
section
/-!
DEFINITION. The meanings of the commands of mailbox commands (10, 11) and their deferred ends.
-/

namespace Sys2Proof.Machine

/-- COMMAND_RECORD_TAKE (R388). The firmware takes the next command record from a session's ring, handling PAD records, bad
lengths and wrap violations. -/
def execCommandRecordTake (s : State) (us : List Upset := []) : Host.Outcome State Fault Refusal :=
  .next (s.recordTake us)

/-- NOP (R392). Command that completes OK. -/
def execNop (o : Org) (s : State) : Host.Outcome State Fault Refusal :=
  .next (s.asCommand o fun s _ => s.doNop o)

/-- SUBSCRIBE (R400). Command that sets the session's notify mask and releases held records. -/
def execSubscribe (o : Org) (mask : Nat) (s : State) : Host.Outcome State Fault Refusal :=
  .next (s.asCommand o fun s _ => s.doSubscribe o mask)

/-- SESSION_INFO (R392). Command that returns the session state. -/
def execSessionInfo (o : Org) (s : State) : Host.Outcome State Fault Refusal :=
  .next (s.asCommand o fun s _ => s.doSessionInfo o)

/-- REG_READ (R394). Command that reads 1–64 registers after checking the grants. -/
def execRegRead (o : Org) (a w n : Nat) (s : State) (us : List Upset := []) : Host.Outcome State Fault Refusal :=
  .next (s.asCommand o fun s p => s.doRegRead o p a w n us)

/-- REG_WRITE (R394). Command that writes one register under its field types, used for registers without their own row. -/
def execRegWrite (o : Org) (a w v : Nat) (s : State) (us : List Upset := []) : Host.Outcome State Fault Refusal :=
  .next (s.asCommand o fun s p => s.doRegWrite o p a w v us)

/-- JOB_ABORT (R396). Deferred command that aborts the current or last job and completes with the outcome of R94. -/
def execJobAbort (o : Org) (job : Nat) (s : State) : Host.Outcome State Fault Refusal :=
  .next (s.asCommand o fun s p => s.doJobAbort o p job)

/-- MATCH_MULTI (R398). Deferred command that issues one match command per named stack into work areas. -/
def execMatchMulti (o : Org) (qaddr raddr : Nat) (tmpl : List Byte) (stks : List MStk) (s : State) : Host.Outcome State Fault Refusal :=
  .next (s.asCommand o fun s p => s.doMatchMulti o p qaddr raddr tmpl stks)

/-- MATCH_MULTI_MERGE (R398). When every stack's match has ended, the firmware merges the lists and writes the results or the
failure code. -/
def execMatchMultiMerge (num : Nat) (s : State) : Host.Outcome State Fault Refusal :=
  .next (s.whileOn (s.multiMerge num))

/-- GRANT_SET (R416). Deferred command from partition 0 that sets a partition's grant record, aborting, releasing and clearing
as required. -/
def execGrantSet (o : Org) (rec : List Byte) (s : State) : Host.Outcome State Fault Refusal :=
  .next (s.asCommand o fun s p => s.doGrantSet o p rec)

/-- PART_DELETE (R417). Deferred command from partition 0 that drops every resource of a partition and closes its sessions. -/
def execPartDelete (o : Org) (q : Nat) (s : State) : Host.Outcome State Fault Refusal :=
  .next (s.asCommand o fun s p => s.doPartDelete o p q)

/-- GRANT_READ (R426). Command that returns a partition's grant record. -/
def execGrantRead (o : Org) (q : Nat) (s : State) : Host.Outcome State Fault Refusal :=
  .next (s.asCommand o fun s p => s.doGrantRead o p q)

/-- HOSTKEY_SET (R425). Command that sets or empties a host-key slot. -/
def execHostkeySet (o : Org) (q slot op : Nat) (key : List Byte) (s : State) : Host.Outcome State Fault Refusal :=
  .next (s.asCommand o fun s p => s.doHostkeySet o p q slot op key)

/-- IMAGE_LOAD (R431). Deferred command that reads, authenticates, checks and stages a region image. -/
def execImageLoad (o : Org) (r src len : Nat) (secret : List Byte) (s : State) : Host.Outcome State Fault Refusal :=
  .next (s.asCommand o fun s p => s.doImageLoad o p r src len secret)

/-- ATTEST (R438). Deferred command that writes a signed attestation report. -/
def execAttest (o : Org) (nonce : List Byte) (dest : Nat) (s : State) : Host.Outcome State Fault Refusal :=
  .next (s.asCommand o fun s p => s.doAttest o p nonce dest)

/-- CERT_READ (R436). Command that writes the identity certificate to shared memory. -/
def execCertRead (o : Org) (dest : Nat) (s : State) : Host.Outcome State Fault Refusal :=
  .next (s.asCommand o fun s p => s.doCertRead o p dest)

/-- REGISTER_WRITE (R394). A write to any register without its own row, applied under its field types and checks. -/
def execRegisterWrite (o : Org) (a w v : Nat) (s : State) (us : List Upset := []) : Host.Outcome State Fault Refusal :=
  .next (s.asCommand o fun s p => s.doRegWrite o p a w v us)

/-- DEFERRED_COMMAND_END (R391). A deferred command such as IMAGE_LOAD, ATTEST, FW_STAGE or the FW_PROMOTE preload ends its
long-running work, and its completion is posted. -/
def execDeferredCommandEnd (num : Nat) (fail : Bool) (s : State) : Host.Outcome State Fault Refusal :=
  .next (s.whileOn (s.deferredEnd num fail))

end Sys2Proof.Machine
end

