-- ==== Sys2Proof/Machine/ExecCore.lean ====
section
/-!
DEFINITION. The meanings of the commands of the actions that a core starts (03-08).
-/

namespace Sys2Proof.Machine

/-- WLOAD (R113). Matrix instruction that loads a weight tile into the shadow registers over 16 tempos. -/
def execWload (f k arr idx : Nat) (s : State) : Host.Outcome State Fault Refusal :=
  s.guarded (coreActive s.grade f k && decide (arr < 2)) (s.whileOn (s.coreStarts (coreId f k) (Sect.isWload · idx) fun x => x.startMat arr idx))

/-- STREAM (R109). Matrix instruction that streams NROWS input rows through the loaded tile, optionally swapping, checking,
handing off or ganged. -/
def execStream (f k arr idx : Nat) (s : State) : Host.Outcome State Fault Refusal :=
  s.guarded (coreActive s.grade f k && decide (arr < 2)) (s.whileOn (s.coreStarts (coreId f k) (Sect.isStream · idx) fun x => x.startMat arr idx))

/-- ACLR (R110). Matrix instruction that zeroes an accumulator window at 16 rows per tempo. -/
def execAclr (f k arr idx : Nat) (s : State) : Host.Outcome State Fault Refusal :=
  s.guarded (coreActive s.grade f k && decide (arr < 2)) (s.whileOn (s.coreStarts (coreId f k) (Sect.isAclr · idx) fun x => x.startMat arr idx))

/-- VECTOR_CHAIN_PROGRAM (R193). VEC action starting a vector chain program that reads groups, runs its stages and writes a
destination or drains tiles. -/
def execVectorChainProgram (f k idx : Nat) (s : State) : Host.Outcome State Fault Refusal :=
  s.guarded (coreActive s.grade f k) (s.whileOn (s.coreStarts (coreId f k) (Sect.isVec · idx) fun x => x.startVec idx))

/-- ROUTE_SET_LOAD (R247). RTE action that loads a route set into the route registers, sending UNBIND and BIND for replaced TGT
1 words. -/
def execRouteSetLoad (f k idx : Nat) (s : State) : Host.Outcome State Fault Refusal :=
  s.guarded (coreActive s.grade f k) (s.whileOn (s.coreStarts (coreId f k) (Sect.isRte · idx) fun x => x.startRte idx))

/-- FLAG_SET (R261). Flag action that sets a flag of this core, a route's core, a named core or a chip flag. -/
def execFlagSet (f k idx : Nat) (s : State) : Host.Outcome State Fault Refusal :=
  s.guarded (coreActive s.grade f k) (s.whileOn (s.coreStarts (coreId f k) (Sect.isFlagSet · idx) fun x => x.startFlag idx))

/-- FLAG_CLEAR (R261). Flag action that clears a flag of this core, a route's core, a named core or a chip flag. -/
def execFlagClear (f k idx : Nat) (s : State) : Host.Outcome State Fault Refusal :=
  s.guarded (coreActive s.grade f k) (s.whileOn (s.coreStarts (coreId f k) (Sect.isFlagClear · idx) fun x => x.startFlag idx))

/-- PAIR (R91). Steering action that pairs each token with its COUNT data entries and sends them to the destination route, or
drops them, checking the token SEQ. -/
def execPair (f k idx : Nat) (s : State) : Host.Outcome State Fault Refusal :=
  s.guarded (coreActive s.grade f k) (s.whileOn (s.coreStarts (coreId f k) (Sect.isPair · idx) fun x => x.startSteer idx))

/-- DELIVER (R93). Steering action that places a token's count in the sequencer's count queue and its data in the steered input
queue. -/
def execDeliver (f k idx : Nat) (s : State) : Host.Outcome State Fault Refusal :=
  s.guarded (coreActive s.grade f k) (s.whileOn (s.coreStarts (coreId f k) (Sect.isDeliver · idx) fun x => x.startSteer idx))

/-- TOKGEN (R90). Steering action that writes a token carrying the last variable run's entry count into the TCHAN queue. -/
def execTokgen (f k idx : Nat) (s : State) : Host.Outcome State Fault Refusal :=
  s.guarded (coreActive s.grade f k) (s.whileOn (s.coreStarts (coreId f k) (Sect.isTokgen · idx) fun x => x.startSteer idx))

/-- CURSOR (R224). Memory action that sets an input or weight cursor for instructions without a tile descriptor. -/
def execCursor (f k idx : Nat) (s : State) : Host.Outcome State Fault Refusal :=
  s.guarded (coreActive s.grade f k) (s.whileOn (s.coreStarts (coreId f k) (Sect.isCursor · idx) fun x => x.startMem idx))

/-- CASTLE (R234). Memory action that exchanges the halves of filled castled buffers, failing with CASTLE_UNFILLED if a fill
flag is clear. -/
def execCastle (f k idx : Nat) (s : State) : Host.Outcome State Fault Refusal :=
  s.guarded (coreActive s.grade f k) (s.whileOn (s.coreStarts (coreId f k) (Sect.isCastle · idx) fun x => x.startMem idx))

/-- DMAIN (R226). Memory action that moves entries from a channel queue into core memory, one every PACE tempos. -/
def execDmain (f k idx : Nat) (s : State) : Host.Outcome State Fault Refusal :=
  s.guarded (coreActive s.grade f k) (s.whileOn (s.coreStarts (coreId f k) (Sect.isDmain · idx) fun x => x.startMem idx))

/-- DMAOUT (R226). Memory action that sends core or accumulator memory rows as entries on a route, one every PACE tempos. -/
def execDmaout (f k idx : Nat) (s : State) : Host.Outcome State Fault Refusal :=
  s.guarded (coreActive s.grade f k) (s.whileOn (s.coreStarts (coreId f k) (Sect.isDmaout · idx) fun x => x.startMem idx))

/-- SMREQ (R229). Memory action that sends a shared-memory stream request on a route to an attachment. -/
def execSmreq (f k idx : Nat) (s : State) : Host.Outcome State Fault Refusal :=
  s.guarded (coreActive s.grade f k) (s.whileOn (s.coreStarts (coreId f k) (Sect.isSmreq · idx) fun x => x.startMem idx))

/-- ROTATE (R240). Memory action that moves weight tiles around the rotation ring (PASS) or into the core's own rotation input
(LOCAL). -/
def execRotate (f k idx : Nat) (s : State) : Host.Outcome State Fault Refusal :=
  s.guarded (coreActive s.grade f k) (s.whileOn (s.coreStarts (coreId f k) (Sect.isRotate · idx) fun x => x.startMem idx))

end Sys2Proof.Machine
end

