-- ==== Sys2Proof/Machine/ExecFirmware.lean ====
section
/-!
DEFINITION. The meanings of the commands of firmware, settings, start and restart (12, 13).
-/

namespace Sys2Proof.Machine

/-- FW_STAGE (R454). Deferred command that checks a firmware package and writes it into the inactive bank. -/
def execFwStage (o : Org) (src len : Nat) (s : State) : Host.Outcome State Fault Refusal :=
  .next (s.asCommand o fun s p => s.doFwStage o p src len)

/-- FW_PROMOTE (R455). Deferred command that accepts a bank promotion, announces it and preloads the images. -/
def execFwPromote (o : Org) (target force deadline : Nat) (s : State) : Host.Outcome State Fault Refusal :=
  .next (s.asCommand o fun s p => s.doFwPromote o p target force deadline)

/-- FW_CANCEL (R464). Command that ends a pending promotion before its decision. -/
def execFwCancel (o : Org) (s : State) : Host.Outcome State Fault Refusal :=
  .next (s.asCommand o fun s p => s.doFwCancel o p)

/-- SET_READ (R464). Command that writes the settings slot in force to shared memory. -/
def execSetRead (o : Org) (dest : Nat) (s : State) : Host.Outcome State Fault Refusal :=
  .next (s.asCommand o fun s p => s.doSetRead o p dest)

/-- SET_WRITE (R460). Command that replaces network and profile items by writing a new settings slot. -/
def execSetWrite (o : Org) (n : Nat) (items : List Byte) (s : State) : Host.Outcome State Fault Refusal :=
  .next (s.asCommand o fun s p => s.doSetWrite o p n items)

/-- RESTART (R464). Deferred command requesting an activation pause without a bank change. -/
def execRestart (o : Org) (force deadline : Nat) (s : State) : Host.Outcome State Fault Refusal :=
  .next (s.asCommand o fun s p => s.doRestart o p force deadline)

/-- ACTIVATION_DECISION (R456). In the first quiescent cycle (unforced) or at the deadline (forced), the pause is decided and
performed. -/
def execActivationDecision (e : StartEnv) (s : State) : Host.Outcome State Fault Refusal :=
  .next (s.whileOn (s.decide_ e))

/-- ACTIVATION_DEFERRED (R456). The deadline of an unforced promotion passes without a quiescent cycle and the promotion
completes deferred. -/
def execActivationDeferred (s : State) : Host.Outcome State Fault Refusal :=
  .next (s.whileOn (s.activationLate))

/-- START (R444). A start begins 1 ms after RESET_N and PGOOD are both high and runs the start stages to service ready. -/
def execStart (e : StartEnv) (s : State) : Host.Outcome State Fault Refusal :=
  .next (s.start e)

/-- START_TIMEOUT (R449). Service ready is not reached within 10 s of the start. -/
def execStartTimeout (e : StartEnv) (s : State) : Host.Outcome State Fault Refusal :=
  .next (s.startLate e)

/-- RETIRE_REQUEST (R474). Write of MGMT_RETIRE.REQ that makes the named core pending retirement. -/
def execRetireRequest (o : Org) (f k : Nat) (s : State) : Host.Outcome State Fault Refusal :=
  .next (s.regCommand o 0x040000000080 (f % 64 + 2 ^ 6 * (k % 64) + 2 ^ 12))

end Sys2Proof.Machine
end

