-- ==== Sys2Proof/Machine/ExecHost.lean ====
section
/-!
DEFINITION. The meanings of the commands of network A, Ranow and the data port (10).
-/

namespace Sys2Proof.Machine

/-- INIT (R375). Ranow INIT received: the module answers with a REPLY or a REJECT and keeps a half-open session. -/
def execInit (port : Nat) (d : Dgram) (s : State) : Host.Outcome State Fault Refusal :=
  s.guarded (decide (port < 4)) (s.initMsg port d)

/-- CONFIRM (R377). Ranow CONFIRM received: the host signature and key are checked, the keys are derived and the session opens
with an ACK. -/
def execConfirm (port : Nat) (d : Dgram) (s : State) : Host.Outcome State Fault Refusal :=
  s.guarded (decide (port < 4)) (s.confirmMsg port d)

/-- HALF_OPEN_EXPIRY (R379). A half-open session is dropped 1 s after its REPLY. -/
def execHalfOpenExpiry (port sid : Nat) (s : State) : Host.Outcome State Fault Refusal :=
  s.guarded (decide (port < 4)) (s.whileOn (s.halfOpenExpiry port sid))

/-- ACK (R380). Ranow ACK received: it updates delivery state and the reader's ring head. -/
def execAck (port : Nat) (d : Dgram) (s : State) : Host.Outcome State Fault Refusal :=
  s.guarded (decide (port < 4)) (s.whileOn (s.ackMsg port d))

/-- KEEPALIVE (R383). Ranow KEEPALIVE received, which keeps the session alive. -/
def execKeepalive (port : Nat) (d : Dgram) (s : State) : Host.Outcome State Fault Refusal :=
  s.guarded (decide (port < 4)) (s.whileOn (s.keepaliveMsg port d))

/-- CLOSE (R384). Ranow CLOSE received, which ends the session. -/
def execClose (port : Nat) (d : Dgram) (s : State) : Host.Outcome State Fault Refusal :=
  s.guarded (decide (port < 4)) (s.whileOn (s.reliable port d 0x12))

/-- MBOX (R385). Ranow MBOX received: it writes a range of the command ring and a new tail, optionally with RESET. -/
def execMbox (port : Nat) (d : Dgram) (s : State) : Host.Outcome State Fault Refusal :=
  s.guarded (decide (port < 4)) (s.whileOn (s.reliable port d 0x20))

/-- RANOW_ACK_TIMER (R381). An ACK is sent within 20 µs of a reliable message. -/
def execRanowAckTimer (sid : Nat) (s : State) : Host.Outcome State Fault Refusal :=
  .next (s.whileOn (s.ackTimer sid))

/-- RANOW_RETRANSMIT (R382). The retransmission time expires, so an unacknowledged message is resent; after 12 resends the
session is lost. -/
def execRanowRetransmit (sid seq : Nat) (s : State) : Host.Outcome State Fault Refusal :=
  .next (s.whileOn (s.retransmit sid seq))

/-- SESSION_TIMEOUT (R383). 30 s pass without an authenticated host message and the session is declared lost. -/
def execSessionTimeout (sid : Nat) (s : State) : Host.Outcome State Fault Refusal :=
  .next (s.whileOn (s.sessionTimeout sid))

/-- ARP_REQUEST (R370). An ARP request or IPv6 neighbour solicitation for the port's address is answered. -/
def execArpRequest (port mac target : Nat) (s : State) : Host.Outcome State Fault Refusal :=
  s.guarded (decide (port < 4)) (s.arpRequest port mac target)

/-- ECHO_REQUEST (R370). An ICMP or ICMPv6 echo request is answered. -/
def execEchoRequest (port : Nat) (d : Dgram) (s : State) : Host.Outcome State Fault Refusal :=
  s.guarded (decide (port < 4)) (s.echoRequest port d)

/-- FOREIGN_FRAME (R370). Any other frame on network A is discarded and counted. -/
def execForeignFrame (port : Nat) (s : State) : Host.Outcome State Fault Refusal :=
  s.guarded (decide (port < 4)) (s.foreignFrame port)

/-- DOPEN (R403). Ranow DOPEN received: a burst is checked and opened, and DSTAT is sent. -/
def execDopen (port : Nat) (d : Dgram) (s : State) : Host.Outcome State Fault Refusal :=
  s.guarded (decide (port < 4)) (s.whileOn (s.reliable port d 0x30))

/-- DWRITE (R404). Ranow DWRITE chunk received: it is checked and written at its address, and DSTAT is sent when the burst is
done. -/
def execDwrite (port : Nat) (d : Dgram) (s : State) : Host.Outcome State Fault Refusal :=
  s.guarded (decide (port < 4)) (s.whileOn (s.reliable port d 0x31))

/-- DREAD (R404). The module sends the next read chunk of a burst when its data have been read, then DSTAT. -/
def execDread (sid bid : Nat) (s : State) : Host.Outcome State Fault Refusal :=
  .next (s.whileOn (s.dread sid bid))

/-- LINK_UP (R444). An Ethernet port comes up when its link partner appears. -/
def execLinkUp (port : Nat) (s : State) : Host.Outcome State Fault Refusal :=
  s.guarded (decide (port < 8)) (s.linkUp port)

/-- LINK_DOWN (R408). An Ethernet port loses its link partner or its PCS alignment, and LINK and ALIGN go to 0. -/
def execLinkDown (port : Nat) (s : State) : Host.Outcome State Fault Refusal :=
  s.guarded (decide (port < 8)) (s.linkDown port)

end Sys2Proof.Machine
end

