-- ==== Sys2Proof/Machine/ExecMesh.lean ====
section
/-!
DEFINITION. The meanings of the commands of channels, flags, streams, the watchdog and the scoresheet (06, 07).
-/

namespace Sys2Proof.Machine

/-- FLAG_OP_ARRIVE (R84). A flag operation reaches its target core or the chip flag network and changes the flag (set wins), or
waits at a LOADING core. -/
def execFlagOpArrive (viaMesh : Bool) (f k n : Nat) (s : State) (us : List Upset := []) : Host.Outcome State Fault Refusal :=
  s.guarded (coreActive s.grade f k) (s.whileOn (s.flagArrive viaMesh (coreId f k) n us))

/-- STREAM_REQUEST (R230). A shared-memory attachment takes a stream request into one of its 8 contexts and checks every entry
address against the view. -/
def execStreamRequest (f k : Nat) (s : State) : Host.Outcome State Fault Refusal :=
  s.guarded (coreActive s.grade f k) (s.whileOn (s.streamRequest (coreId f k)))

/-- SM_READ_ENTRY (R231). A read stream issues its next 64-byte access when its return route has credit and returns the entry to
the requesting core. -/
def execSmReadEntry (f k ctx : Nat) (s : State) : Host.Outcome State Fault Refusal :=
  s.guarded (coreActive s.grade f k) (s.whileOn (s.smRead (coreId f k) ctx))

/-- STREAM_WRITE_ENTRY (R230). An attachment takes the next write entry of a write stream and writes it to shared memory. -/
def execStreamWriteEntry (f k : Nat) (s : State) : Host.Outcome State Fault Refusal :=
  s.guarded (coreActive s.grade f k) (s.whileOn (s.smWrite (coreId f k)))

/-- BIND (R249). A BIND control flit reaches a queue or agent, which grants credits, remembers the BIND, or rebinds. -/
def execBind (f k port : Nat) (s : State) : Host.Outcome State Fault Refusal :=
  s.guarded (coreActive s.grade f k) (s.whileOn (s.bind (coreId f k) port))

/-- UNBIND (R249). An UNBIND reaches a queue or agent, returning the unused credits and freeing the binding place. -/
def execUnbind (f k port : Nat) (s : State) : Host.Outcome State Fault Refusal :=
  s.guarded (coreActive s.grade f k) (s.whileOn (s.unbind (coreId f k) port))

/-- CREDIT_GRANT (R250). A credit reaches a route and becomes visible to the sequencer after 3 or 17 cycles. -/
def execCreditGrant (n : Nat) (s : State) : Host.Outcome State Fault Refusal :=
  .next (s.whileOn (s.creditGrant n))

/-- OUTPUT_STORE_SEND (R251). A waiting output-store entry leaves on its route when the route holds a credit. -/
def execOutputStoreSend (f k route : Nat) (s : State) : Host.Outcome State Fault Refusal :=
  s.guarded (coreActive s.grade f k) (s.whileOn (s.storeSend (coreId f k) route))

/-- FLIT_FORWARD (R252). A router output port forwards one flit per cycle in round-robin, with rotation flits first. -/
def execFlitForward (f k port : Nat) (s : State) : Host.Outcome State Fault Refusal :=
  s.guarded (coreActive s.grade f k) (s.whileOn (s.flitForward (coreId f k) port))

/-- ENTRY_ARRIVAL (R245). An entry reaches its destination queue in arrival order, or is discarded if the route was released. -/
def execEntryArrival (f k : Nat) (s : State) : Host.Outcome State Fault Refusal :=
  s.guarded (coreActive s.grade f k) (s.whileOn (s.entryArrival (coreId f k)))

/-- LINK_REPLAY (R472). A flit with a wrong CRC is replayed; after 8 failures the link is marked failed and MESH_LINK_FAULT is
raised. -/
def execLinkReplay (f k port : Nat) (good : Bool) (s : State) : Host.Outcome State Fault Refusal :=
  s.guarded (coreActive s.grade f k) (s.whileOn (s.linkReplay (coreId f k) port good))

/-- STALEMATE (R272). A region's HOLD reaches the watchdog limit: granting stops for the job, STALEMATE is charged and the
snapshot is written. -/
def execStalemate (p r : Nat) (s : State) : Host.Outcome State Fault Refusal :=
  s.guarded (decide (p < 8) && decide (r < 256)) (s.whileOn (s.staleMate p r))

/-- STALEMATE_SNAPSHOT_DONE (R272). Once the firmware has written the stalemate snapshot, the job stops and its completion
record is posted. -/
def execStalemateSnapshotDone (p : Nat) (s : State) : Host.Outcome State Fault Refusal :=
  s.guarded (decide (p < 8)) (s.whileOn (s.snapshotDone p))

/-- WATCHDOG_WRITE (R271). Write to PART_WDOG that sets a new limit, expiring at once any region whose HOLD already exceeds it. -/
def execWatchdogWrite (o : Org) (v : Nat) (s : State) : Host.Outcome State Fault Refusal :=
  .next (s.partWrite o 0x200 fun _ => v)

/-- SNAPSHOT_ACK (R273). Write of 1 to PART_SNAPSTAT.VALID that clears VALID, TRUNC and MISSED. -/
def execSnapshotAck (o : Org) (s : State) : Host.Outcome State Fault Refusal :=
  .next (s.partWrite o 0x214 fun _ => 1)

/-- CHIP_FLAG_SET (R269). PART_CFOP write with OP 0 that sets a chip flag of the partition. -/
def execChipFlagSet (o : Org) (flag : Nat) (s : State) : Host.Outcome State Fault Refusal :=
  .next (s.partWrite o 0x2020 fun _ => flag % 2 ^ 8)

/-- CHIP_FLAG_CLEAR (R269). PART_CFOP write with OP 1 that clears a chip flag of the partition. -/
def execChipFlagClear (o : Org) (flag : Nat) (s : State) : Host.Outcome State Fault Refusal :=
  .next (s.partWrite o 0x2020 fun _ => flag % 2 ^ 8 + 2 ^ 8)

/-- QHEAD_LATCH (R268). Read of CORE_QHEAD0 that latches the head entry of the selected queue without dequeuing it. -/
def execQheadLatch (f k : Nat) (s : State) : Host.Outcome State Fault Refusal :=
  s.guarded (coreActive s.grade f k) (s.whileOn (s.qheadLatch (coreId f k)))

/-- SCORESHEET_ENABLE (R278). Write of PART_SSCTL.EN = 1 that resets HEAD, TAIL, LOST and the histograms and fixes the selection
count. -/
def execScoresheetEnable (o : Org) (period : Nat) (s : State) : Host.Outcome State Fault Refusal :=
  .next (s.partWrite o 0x300 fun _ => 1 + 2 * (period % 2 ^ 5))

/-- SCORESHEET_DISABLE (R278). Write of PART_SSCTL.EN = 0 that stops sampling. -/
def execScoresheetDisable (o : Org) (s : State) : Host.Outcome State Fault Refusal :=
  .next (s.partWrite o 0x300 fun x => 2 * x.sheet.period)

/-- SCORESHEET_SAMPLE (R279). Every 2^PERIOD cycles the selected queue occupancies are sampled into a record and the histograms,
or the sample is dropped when the ring is full. -/
def execScoresheetSample (p : Nat) (s : State) : Host.Outcome State Fault Refusal :=
  s.guarded (decide (p < 8)) (s.whileOn (s.sheetSample p))

end Sys2Proof.Machine
end

