-- ==== Sys2Proof/Machine/ExecMove.lean ====
section
/-!
DEFINITION. The meanings of the commands of the regions, the move stream and the sequencers (02_move_stream.md).
-/

namespace Sys2Proof.Machine

/-- REGION_DEFINE (R48). Mailbox command that defines or redefines a region rectangle: it checks the grants, overlap and limits,
clears the cores and completes. -/
def execRegionDefine (o : Org) (r : Nat) (rect : Rect) (s : State) : Host.Outcome State Fault Refusal :=
  .next (s.asCommand o fun s p => s.doRegionDefine o p r rect)

/-- REGION_RELEASE (R395). Mailbox command that releases a region in IDLE, READY or QUARANTINED, clears its cores and unbinds
its routes. -/
def execRegionRelease (o : Org) (r : Nat) (s : State) : Host.Outcome State Fault Refusal :=
  .next (s.asCommand o fun s p => s.doRegionRelease o p r)

/-- MOVE_STREAM_CONFIG_WRITE (R65). Write to PART_MSBASE or PART_MSCTL.SIZE: refused with BUSY while EN = 1, otherwise HEAD and
TAIL are set to 0 and the expected SEQ is unset. -/
def execMoveStreamConfigWrite (o : Org) (size : Bool) (v : Nat) (s : State) : Host.Outcome State Fault Refusal :=
  .next (if size then s.partWrite o 0x108 fun x => v % 2 ^ 13 + 2 ^ 16 * b2n x.ms.en else s.partWrite o 0x100 fun _ => v)

/-- MOVE_STREAM_ENABLE (R65). Write of PART_MSCTL.EN = 1: refused if the ring leaves the shared-memory view, otherwise the chip
sequencer starts fetching, which also leaves STOPPED. -/
def execMoveStreamEnable (o : Org) (size : Nat) (s : State) : Host.Outcome State Fault Refusal :=
  .next (s.partWrite o 0x108 fun _ => size % 2 ^ 13 + 2 ^ 16)

/-- MOVE_STREAM_DISABLE (R65). Write of PART_MSCTL.EN = 0, which stops the chip sequencer fetching moves. -/
def execMoveStreamDisable (o : Org) (s : State) : Host.Outcome State Fault Refusal :=
  .next (s.partWrite o 0x108 fun x => x.ms.size % 2 ^ 13)

/-- MOVE_STREAM_ABORT (R94). Write of 1 to PART_MSCTL.ABORT: requests an abort of the current job, decided at the retire point. -/
def execMoveStreamAbort (o : Org) (s : State) : Host.Outcome State Fault Refusal :=
  .next (s.partWrite o 0x108 fun x => x.ms.size % 2 ^ 13 + 2 ^ 16 * b2n x.ms.en + 2 ^ 17)

/-- MOVE_FETCH (R71). The chip sequencer fetches a move header and its lanes from the ring, checks SEQ and format, follows WRAP
headers and skips moves of an ended job. -/
def execMoveFetch (p : Nat) (s : State) : Host.Outcome State Fault Refusal :=
  s.guarded (decide (p < 8)) (s.whileOn (s.moveFetch p))

/-- LANE_DISPATCH (R71). A lane is handed to its region sequencer's pending place once a place is free and any SYNC condition
holds, with partitions served in turn. -/
def execLaneDispatch (s : State) : Host.Outcome State Fault Refusal :=
  .next (s.whileOn (s.laneDispatch))

/-- LANE_START (R74). A lane becomes the region's running lane: it starts a reload if RECONF = 1, applies the loop-counter
updates and sets the program position. -/
def execLaneStart (p r : Nat) (s : State) : Host.Outcome State Fault Refusal :=
  s.guarded (decide (p < 8) && decide (r < 256)) (s.whileOn (s.laneStart p r))

/-- LANE_FWAIT_PASS (R74). A lane waiting on FWAIT passes once its chip flag is set, clearing the flag if requested. -/
def execLaneFwaitPass (p r : Nat) (s : State) : Host.Outcome State Fault Refusal :=
  s.guarded (decide (p < 8) && decide (r < 256)) (s.whileOn (s.fwaitPass p r))

/-- RECONF_DRAIN_END (R82). The drain ends once started unit operations have finished, and the freeze phase begins. -/
def execReconfDrainEnd (p r : Nat) (s : State) : Host.Outcome State Fault Refusal :=
  s.guarded (decide (p < 8) && decide (r < 256)) (s.whileOn (s.drainEnd p r))

/-- RECONF_FREEZE_END (R82). The 8-cycle freeze ends, with outbound traffic stopped and border flags frozen, and the table read
begins. -/
def execReconfFreezeEnd (p r : Nat) (s : State) : Host.Outcome State Fault Refusal :=
  s.guarded (decide (p < 8) && decide (r < 256)) (s.whileOn (s.freezeEnd p r))

/-- RECONF_TABLES_END (R82). The setup header and tables have been read into the sequencer (or SETUP_MISSING is found), and the
check phase begins. -/
def execReconfTablesEnd (p r : Nat) (us : List Upset) (s : State) : Host.Outcome State Fault Refusal :=
  s.guarded (decide (p < 8) && decide (r < 256)) (s.whileOn (s.tablesRead p r us))

/-- RECONF_CHECK_END (R500). The 32-cycle check of the header and tables ends: it either fails the load with SETUP_FORMAT or
STEER_LIMIT, or the section read begins. -/
def execReconfCheckEnd (p r : Nat) (s : State) : Host.Outcome State Fault Refusal :=
  s.guarded (decide (p < 8) && decide (r < 256)) (s.whileOn (s.checkEnd p r))

/-- BOOK_SECTION_UNIT (R83). The die's book port serves one 512-byte section unit to the next region in turn. -/
def execBookSectionUnit (d : Nat) (s : State) : Host.Outcome State Fault Refusal :=
  s.guarded (decide (d < 4)) (s.whileOn (s.bookUnit d))

/-- RECONF_SECTIONS_END (R82). All core sections have been read and checked: the load either fails (SETUP_FORMAT,
ACCUM_CAPACITY, QUEUE_RESIDUE) or proceeds to the register phase. -/
def execReconfSectionsEnd (p r : Nat) (us : List Upset) (s : State) : Host.Outcome State Fault Refusal :=
  s.guarded (decide (p < 8) && decide (r < 256)) (s.whileOn (s.sectionsRead p r us))

/-- RECONF_REGISTERS_END (R82). Route and queue registers, the bank map, buffers, the rotation area and flag initial values are
loaded. -/
def execReconfRegistersEnd (p r : Nat) (s : State) : Host.Outcome State Fault Refusal :=
  s.guarded (decide (p < 8) && decide (r < 256)) (s.whileOn (s.registersEnd p r))

/-- RECONF_RELEASE (R82). Phase 8 ends: credits are restored, queued flag operations are applied, BINDs are answered and the
region is ready to grant a tempo. -/
def execReconfRelease (p r : Nat) (s : State) : Host.Outcome State Fault Refusal :=
  s.guarded (decide (p < 8) && decide (r < 256)) (s.whileOn (s.reconfRelease p r))

/-- TEMPO_GRANT (R81). The region sequencer grants a tempo when the lane, FWAIT, gate credits, count queue and output-store
pressure all allow, debiting the named slots. -/
def execTempoGrant (p r : Nat) (s : State) : Host.Outcome State Fault Refusal :=
  s.guarded (decide (p < 8) && decide (r < 256)) (s.whileOn (s.tempoGrant p r))

/-- TEMPO_EXECUTE (R76). A granted tempo reaches the cores: each starts the actions of its step, advances every running unit one
step, and the sequencer applies the loop or CLD rule. -/
def execTempoExecute (p r : Nat) (us : List Upset) (s : State) : Host.Outcome State Fault Refusal :=
  s.guarded (decide (p < 8) && decide (r < 256)) (s.whileOn (s.tempoExecute p r us))

/-- LANE_RETIRE (R74). A lane retires once its tempos are used and all the matrix, vector, DMA and stack work it started has
ended; FSET applies and the move or job may retire. -/
def execLaneRetire (p r : Nat) (s : State) : Host.Outcome State Fault Refusal :=
  s.guarded (decide (p < 8) && decide (r < 256)) (s.whileOn (if s.retireReady p r then s.retireLane p r else s))

/-- JOB_STOP_DRAIN_END (R95). After an abort or failure, the job's regions finish draining, go to IDLE or QUARANTINED, and the
completion record is posted. -/
def execJobStopDrainEnd (p : Nat) (s : State) : Host.Outcome State Fault Refusal :=
  s.guarded (decide (p < 8)) (s.whileOn (if s.stopDone p then s.stopEnd p else s))

end Sys2Proof.Machine
end

