-- ==== Sys2Proof/Machine/ExecPower.lean ====
section
/-!
DEFINITION. The meanings of the commands of power, heat, pins and the sideband (13, 14).
-/

namespace Sys2Proof.Machine

/-- THERMAL_WARNING (R480). A sensor reaches the WARNING threshold, so THERM_N is asserted and partitions are notified. -/
def execThermalWarning (die : Nat) (stks : List Nat) (s : State) : Host.Outcome State Fault Refusal :=
  .next (s.thermalWarning die stks)

/-- THERMAL_THROTTLE (R480). A sensor reaches the THROTTLE threshold and clock and stack reduction begins. -/
def execThermalThrottle (die : Nat) (stks : List Nat) (s : State) : Host.Outcome State Fault Refusal :=
  .next (s.thermalThrottle die stks)

/-- THROTTLE_STEP (R480). Every 1 ms while hot, the fabric clock is lowered by 100 MHz down to 500 MHz. -/
def execThrottleStep (s : State) : Host.Outcome State Fault Refusal :=
  .next (s.throttleStep)

/-- THERMAL_TRIP (R481). A trip threshold or 100 ms at 500 MHz stops the fabric and ports and asserts FAULT_N. -/
def execThermalTrip (die : Nat) (stks : List Nat) (s : State) : Host.Outcome State Fault Refusal :=
  .next (s.thermalTrip die stks)

/-- THERMAL_CLEAR (R480). Sensors stay 5 °C below the entry threshold for 100 ms, the state is left and the clock ramps back. -/
def execThermalClear (die : Nat) (stks : List Nat) (s : State) : Host.Outcome State Fault Refusal :=
  .next (s.thermalClear die stks)

/-- THERMAL_CLOCK_RAMP (R480). Each millisecond after a clear, the fabric clock rises 100 MHz toward the profile clock. -/
def execThermalClockRamp (s : State) : Host.Outcome State Fault Refusal :=
  .next (s.clockRamp)

/-- INPUT_VOLTAGE (R489). The input enters or leaves the 36–40 V or 60–63 V band for 50 µs and partitions are notified. -/
def execInputVoltage (v : Nat) (s : State) : Host.Outcome State Fault Refusal :=
  .next (s.inputVoltage v)

/-- INPUT_OUT_OF_RANGE (R489). The input falls below 36 V or rises above 63 V and the main rails go off as for PWR_EN low. -/
def execInputOutOfRange (v : Nat) (s : State) : Host.Outcome State Fault Refusal :=
  .next (s.inputOut v)

/-- OVERCURRENT_TRIP (R490). Input current above 24 A for 100 µs stops the module with POWER_CAP in the boot status. -/
def execOvercurrentTrip (cur : Nat) (s : State) : Host.Outcome State Fault Refusal :=
  .next (s.overcurrent cur)

/-- STANDBY_UP (R488). The standby rail comes up, SLOT_ID is read, the sideband registers reset and the status read is answered. -/
def execStandbyUp (slot : Nat) (s : State) : Host.Outcome State Fault Refusal :=
  .next (s.standbyUp slot)

/-- PWR_EN_RISE (R491). The carrier raises PWR_EN, the main rails come up and PGOOD rises. -/
def execPwrEnRise (s : State) : Host.Outcome State Fault Refusal :=
  .next (s.pwrEnRise)

/-- POWER_DOWN (R492). PWR_EN falls, so the fabric and ports stop, PGOOD falls and the main rails go off. -/
def execPowerDown (s : State) : Host.Outcome State Fault Refusal :=
  .next (s.powerDown)

/-- RAIL_FAULT (R492). PGOOD falls while PWR_EN is high and the input is in range, and FAULT_N stays asserted. -/
def execRailFault (s : State) : Host.Outcome State Fault Refusal :=
  .next (s.railFaults)

/-- RESET (R491). RESET_N held low for 10 µs with PGOOD high stops every clock domain and ends a start failure. -/
def execResetPin (s : State) : Host.Outcome State Fault Refusal :=
  .next (s.resetPin)

/-- REFCLK_LOSS (R497). REFCLK missing for 10 µs after a start stops the module with HARDWARE_SELFTEST. -/
def execRefclkLoss (s : State) : Host.Outcome State Fault Refusal :=
  .next (s.refclkLoss)

/-- POWER_CAP_TICK (R494). Each 1 ms the power controller compares power with the target and steps the clock or stack caps down
or up. -/
def execPowerCapTick (m : Measured) (a : Activity) (s : State) : Host.Outcome State Fault Refusal :=
  .next (s.capTick m a)

/-- POWER_MODEL_UPDATE (R493). Every 10 ms the correction factor k moves toward the measured-to-predicted power ratio. -/
def execPowerModelUpdate (pin : Nat) (a : Activity) (s : State) : Host.Outcome State Fault Refusal :=
  .next (s.modelUpdate pin a)

/-- SB_PWRLIM_WRITE (R494). SMBus write of SB_PWRLIM that sets the rack cap. -/
def execSbPwrlimWrite (data : List Byte) (pec : Byte) (s : State) : Host.Outcome State Fault Refusal :=
  .next (s.blockWrite 0x20 data pec)

/-- SMBUS_STATUS_READ (R496). SMBus read of command code 0x00 that returns the boot status word. -/
def execSmbusStatusRead (s : State) : Host.Outcome State Fault Refusal :=
  .next (s.blockRead 0x00)

/-- SMBUS_BLOCK_READ (R496). SMBus Block Read of a data-side register. -/
def execSmbusBlockRead (code : Nat) (s : State) : Host.Outcome State Fault Refusal :=
  .next (s.blockRead code)

/-- SMBUS_BLOCK_WRITE (R496). SMBus Block Write with PEC to a sideband register, NACKed if invalid. -/
def execSmbusBlockWrite (code : Nat) (data : List Byte) (pec : Byte) (s : State) : Host.Outcome State Fault Refusal :=
  .next (s.blockWrite code data pec)

/-- SMBUS_ALERT_RESPONSE (R496). The module answers the SMBus Alert Response Address with its own address. -/
def execSmbusAlertResponse (s : State) : Host.Outcome State Fault Refusal :=
  .next (s.alertResponse)

/-- STANDBY_RAIL_DOWN (R489). The input falls below the 30 V that the standby rail holds to, so the standby rail and the
sideband registers are lost. -/
def execStandbyRailDown (s : State) : Host.Outcome State Fault Refusal :=
  .next (s.standbyDown)

/-- SHARED_MEMORY_SCRUB (R469). The 24-hour patrol scrub of shared memory and the book reads the next location and rewrites it
if it was corrected. -/
def execSharedMemoryScrub (d : Nat) (us : List Upset) (s : State) : Host.Outcome State Fault Refusal :=
  s.guarded (decide (d < 4)) (s.whileOn (s.sharedScrub d us))

/-- SMBUS_CLOCK_LOW_TIMEOUT (R496). SMB_CLK held low beyond the 25–35 ms clock-low timeout makes the sideband abandon the
transaction. -/
def execSmbusClockLowTimeout (s : State) : Host.Outcome State Fault Refusal :=
  .next (s.clockLow)

end Sys2Proof.Machine
end

