-- ==== Sys2Proof/Machine/ExecRing.lean ====
section
/-!
DEFINITION. The meanings of the commands of network B and the reduction (09).
-/

namespace Sys2Proof.Machine

/-- BARRIER_ARRIVE (R265). The ARRIVE chip flag is set, so the link interface clears it and sends the module's arrival on the
ring membership. -/
def execBarrierArrive (p : Nat) (s : State) : Host.Outcome State Fault Refusal :=
  s.guarded (decide (p < 8)) (s.whileOn (s.barrierArrive p))

/-- BARRIER_TIMEOUT (R358). A barrier that has not completed after TOUT ms fails with RING_TIMEOUT. -/
def execBarrierTimeout (c : Nat) (s : State) : Host.Outcome State Fault Refusal :=
  s.guarded (decide (c < 8)) (s.whileOn (s.barTimeout c))

/-- RING_TABLE_LOAD (R329). Write of LNKB_RINGTAB.LOAD that reads and checks a ring table from shared memory. -/
def execRingTableLoad (o : Org) (b m addr : Nat) (s : State) : Host.Outcome State Fault Refusal :=
  s.guarded (decide (b < 4)) (s.regCommand o (0x040003100000 + 0x10000 * b + 0x200 + 8 * m) (64 * (addr % 2 ^ 48 / 64) + 2))

/-- RING_KEY (R330). Mailbox command that loads a membership's ring key and resets its frame counters. -/
def execRingKey (o : Org) (m : Nat) (key : List Byte) (s : State) : Host.Outcome State Fault Refusal :=
  .next (s.asCommand o fun s p => s.doRingKey o p m key)

/-- RING_STEP (R397). Mailbox command that hands a step descriptor to the step input as pending. -/
def execRingStep (o : Org) (desc : List Byte) (s : State) : Host.Outcome State Fault Refusal :=
  .next (s.asCommand o fun s p => s.doRingStep o p desc)

/-- STEP_DESCRIPTOR (R332). A step descriptor reaches a step input from a core route or command and starts the step on every
PMASK port after the checks. -/
def execStepDescriptor (b : Nat) (s : State) : Host.Outcome State Fault Refusal :=
  s.guarded (decide (b < 4)) (s.whileOn (s.paced (.link b) (s.stepDescriptor b)))

/-- RED_FRAME (R339). A RED frame of partial sums is received, checked and added, then forwarded or stored. -/
def execRedFrame (b : Nat) (d : Dgram) (s : State) : Host.Outcome State Fault Refusal :=
  s.guarded (decide (b < 4)) (s.whileOn (if s.portUp (4 + b) then s.paced (.link b) (s.redFrame b d) else s))

/-- BCC_FRAME (R354). A BCC frame of compressed corrections is received, reconstructed into replicas and forwarded. -/
def execBccFrame (b : Nat) (d : Dgram) (s : State) : Host.Outcome State Fault Refusal :=
  s.guarded (decide (b < 4)) (s.whileOn (if s.portUp (4 + b) then s.paced (.link b) (s.bccFrame b d) else s))

/-- BCF_FRAME (R355). A BCF frame of full parameters is received, checked exactly and written into replicas. -/
def execBcfFrame (b : Nat) (d : Dgram) (s : State) : Host.Outcome State Fault Refusal :=
  s.guarded (decide (b < 4)) (s.whileOn (if s.portUp (4 + b) then s.paced (.link b) (s.bcfFrame b d) else s))

/-- ACK_FRAME (R345). A ring ACK frame advances the acknowledged LSEQ, triggers a resend on GAP or holds the sender on READY =
0. -/
def execAckFrame (b : Nat) (d : Dgram) (s : State) : Host.Outcome State Fault Refusal :=
  s.guarded (decide (b < 4)) (s.whileOn (if s.portUp (4 + b) then s.ackFrame b d else s))

/-- NORM_FRAME (R346). A NORM frame carries a norm-lane partial value for the level_sum exchange. -/
def execNormFrame (b : Nat) (d : Dgram) (s : State) : Host.Outcome State Fault Refusal :=
  s.guarded (decide (b < 4)) (s.whileOn (if s.portUp (4 + b) then s.normFrame b d else s))

/-- BAR_FRAME (R358). A BAR frame carries a barrier exchange of level_sum. -/
def execBarFrame (b : Nat) (d : Dgram) (s : State) : Host.Outcome State Fault Refusal :=
  s.guarded (decide (b < 4)) (s.whileOn (if s.portUp (4 + b) then s.barFrame b d else s))

/-- RING_RESEND_TIMEOUT (R345). 50 µs pass without ACK progress, so frames are resent from the oldest unacknowledged; after 8
resends the step fails with RING_TIMEOUT. -/
def execRingResendTimeout (c b phase lvl peer : Nat) (s : State) : Host.Outcome State Fault Refusal :=
  s.guarded (decide (c < 8) && decide (b < 4)) (s.whileOn (s.ringResend c b phase lvl peer))

/-- RING_PROGRESS_TIMEOUT (R345). No expected frame or READY = 0 answer arrives for TOUT ms and the step fails with
RING_TIMEOUT. -/
def execRingProgressTimeout (c : Nat) (s : State) : Host.Outcome State Fault Refusal :=
  s.guarded (decide (c < 8)) (s.whileOn (s.ringTimeout c))

/-- PRIORITY_RESEND_TIMEOUT (R358). A BAR or NORM frame not acknowledged within 5 µs is resent. -/
def execPriorityResendTimeout (c : Nat) (bar : Bool) (s : State) : Host.Outcome State Fault Refusal :=
  s.guarded (decide (c < 8)) (s.whileOn (s.laneResend c bar))

/-- UPDATE_BLOCK (R349). Once the norm result and a block's sum are available, the update engine updates the block's shard
entries and forms its corrections. -/
def execUpdateBlock (c b : Nat) (s : State) : Host.Outcome State Fault Refusal :=
  s.guarded (decide (c < 8) && decide (b < 4)) (s.whileOn (s.paced (.link b) (s.updateBlock c b)))

/-- STEP_COMPLETE (R361). All entries are reconstructed, all frames are acknowledged and the barrier is done, so DONE is set and
the step completion record is posted. -/
def execStepComplete (c : Nat) (s : State) : Host.Outcome State Fault Refusal :=
  s.guarded (decide (c < 8)) (s.whileOn (s.paced (.link (s.lanePort c)) (s.stepDone c)))

/-- RING_STEP_ABORT (R362). Write of 1 to PART_RCTL.ABORT that aborts the running step with RING_ABORTED, or has no effect if
the step has completed. -/
def execRingStepAbort (o : Org) (m : Nat) (s : State) : Host.Outcome State Fault Refusal :=
  .next (s.partWrite o (0x2140 + 4 * m) fun _ => 1)

/-- STACK_REQUESTER_COMPLETION (R323). A network B link interface's stack requester read or write completes, so the interface
can start a ring chain with its own gradient values, feed the update engine or count a reconstruction write as done. -/
def execStackRequesterCompletion (c b : Nat) (write : Bool) (s : State) : Host.Outcome State Fault Refusal :=
  s.guarded (decide (c < 8) && decide (b < 4)) (s.whileOn (s.paced (.link b) (s.requester c b write)))

/-- UNMATCHED_RING_FRAME (R324). A frame on network B that matches no loaded ring table is discarded without an answer and
counted in LNKB_STAT.FOREIGN. -/
def execUnmatchedRingFrame (b : Nat) (d : Dgram) (s : State) : Host.Outcome State Fault Refusal :=
  s.guarded (decide (b < 4)) (s.whileOn (if s.portUp (4 + b) && (s.ringMatch b d).isNone then s.foreignB b else s))

/-- TRANSMITTER_FRAME_END (R357). A port transmitter finishes a frame and, at that message boundary, picks the next one by
priority 7, membership turns or partition share weights. -/
def execTransmitterFrameEnd (port : Nat) (s : State) : Host.Outcome State Fault Refusal :=
  s.guarded (decide (port < 8)) (s.whileOn (s.transmitEnd port))

end Sys2Proof.Machine
end

