-- ==== Sys2Proof/Machine/ExecStack.lean ====
section
/-!
DEFINITION. The meanings of the commands of the stacks, their match engines and error counters (08, 13).
-/

namespace Sys2Proof.Machine

/-- STACK_READ (R291). DMA descriptor READ taken by an edge agent: it is checked as a whole, then codewords are read and
delivered in row order. -/
def execStackRead (f k : Nat) (s : State) : Host.Outcome State Fault Refusal :=
  s.guarded (coreActive s.grade f k) (s.whileOn (s.takeDesc (coreId f k) fun op => op != 2 && op != 3))

/-- STACK_WRITE (R291). DMA descriptor WRITE taken by an edge agent, which is checked and then takes the next E data entries
from the route. -/
def execStackWrite (f k : Nat) (s : State) : Host.Outcome State Fault Refusal :=
  s.guarded (coreActive s.grade f k) (s.whileOn (s.takeDesc (coreId f k) fun op => op == 2))

/-- STACK_WRITE_DATA (R291). A write data entry is taken in by the edge agent and written as a codeword, or discarded if the
request was refused. -/
def execStackWriteData (f k : Nat) (s : State) : Host.Outcome State Fault Refusal :=
  s.guarded (coreActive s.grade f k) (s.whileOn (s.writeData (coreId f k)))

/-- GATHER (R292). DMA descriptor GATHER taken by an edge agent, which delivers indexed elements in index order. -/
def execGather (f k : Nat) (s : State) : Host.Outcome State Fault Refusal :=
  s.guarded (coreActive s.grade f k) (s.whileOn (s.takeDesc (coreId f k) fun op => op == 3))

/-- GATHER_INDEX (R292). A gather index entry arrives and its indices are checked and read. -/
def execGatherIndex (f k : Nat) (s : State) : Host.Outcome State Fault Refusal :=
  s.guarded (coreActive s.grade f k) (s.whileOn (s.gatherIndex (coreId f k)))

/-- EDGE_DELIVERY (R289). An edge agent delivers a read or result entry to a destination queue when it holds credit, binding the
queue first if needed. -/
def execEdgeDelivery (f k : Nat) (us : List Upset) (s : State) : Host.Outcome State Fault Refusal :=
  s.guarded (coreActive s.grade f k) (s.whileOn (s.edgeDelivery (coreId f k) us))

/-- STACK_REQUEST_COMPLETE (R295). A stack request completes and, with FLAG, sets a core flag. -/
def execStackRequestComplete (f k : Nat) (s : State) : Host.Outcome State Fault Refusal :=
  s.guarded (coreActive s.grade f k) (s.whileOn (s.requestDone (coreId f k)))

/-- MATCH (R307). Match command taken at a match input and checked, then queued for the engine. -/
def execMatchCommand (f k : Nat) (s : State) : Host.Outcome State Fault Refusal :=
  s.guarded (coreActive s.grade f k) (s.whileOn (s.takeMatch (coreId f k)))

/-- MATCH_QUERY_ENTRY (R307). A query entry of a match command is taken in. -/
def execMatchQueryEntry (f k : Nat) (s : State) : Host.Outcome State Fault Refusal :=
  s.guarded (coreActive s.grade f k) (s.whileOn (s.queryEntry (coreId f k)))

/-- MATCH_SCAN_START (R309). The engine starts the next waiting match command once the previous one has ended. -/
def execMatchScanStart (t : Nat) (s : State) : Host.Outcome State Fault Refusal :=
  s.guarded (decide (t < 8)) (s.whileOn ((s.scanStart t).issueMulti t))

/-- MATCH_PASS_END (R312). A scan pass ends and the ranked results are delivered query by query to a queue or the result area. -/
def execMatchPassEnd (t : Nat) (us : List Upset) (s : State) : Host.Outcome State Fault Refusal :=
  s.guarded (decide (t < 8)) (s.whileOn (s.passEnd t us))

/-- REFRESH (R302). The refresh timer refreshes stack rows at 3.9 or 1.95 µs per bank. -/
def execRefresh (t : Nat) (s : State) : Host.Outcome State Fault Refusal :=
  s.guarded (decide (t < 8)) (s.whileOn (s.refresh t))

/-- SCRUB_READ (R303). The patrol scrub reads the next codeword and rewrites it if it was corrected or queued. -/
def execScrubRead (t : Nat) (us : List Upset) (s : State) : Host.Outcome State Fault Refusal :=
  s.guarded (decide (t < 8)) (s.whileOn (s.scrubRead t us))

/-- ROW_SPARED (R304). The row copy ends, the row address is remapped and waiting requests resume. -/
def execRowSpared (t : Nat) (us : List Upset) (s : State) : Host.Outcome State Fault Refusal :=
  s.guarded (decide (t < 8)) (s.whileOn (s.rowSpared t us))

/-- STACK_CLEAR_DONE (R306). Clearing of a re-granted stack ends and the pending grant takes effect. -/
def execStackClearDone (t : Nat) (s : State) : Host.Outcome State Fault Refusal :=
  s.guarded (decide (t < 8)) (s.whileOn (s.stackClearDone t))

/-- HSTK_ECC_CLEAR (R317). Write of 1 to HSTK_ECC.CLR that zeroes the stack's ECC counters. -/
def execHstkEccClear (o : Org) (t : Nat) (s : State) : Host.Outcome State Fault Refusal :=
  s.guarded (decide (t < 8)) (s.regCommand o (0x040002000000 + 0x100000 * t + 0x10) (2 ^ 63))

/-- CORE_ECC_CLEAR (R479). Write of 1 to CORE_ECC.CLR or DIE_ECC.CLR that zeroes the counters. -/
def execCoreEccClear (o : Org) (die : Bool) (n : Nat) (s : State) : Host.Outcome State Fault Refusal :=
  .next (s.regCommand o (if die then 0x040001000000 + 0x100000 * n + 0xA00 else coreRegBase n + 0xA00) (2 ^ 63))

end Sys2Proof.Machine
end

