-- ==== Sys2Proof/Machine/Dispatch.lean ====
section
/-!
DEFINITION. The meaning of a command: one arm per row of the command table.
-/

namespace Sys2Proof.Machine

def exec (i : Instr) (s : State) : Host.Outcome State Fault Refusal :=
  match i with
  | .regionDefine o r rect => Sys2Proof.Machine.execRegionDefine o r rect s
  | .regionRelease o r => Sys2Proof.Machine.execRegionRelease o r s
  | .moveStreamConfigWrite o size v => Sys2Proof.Machine.execMoveStreamConfigWrite o size v s
  | .moveStreamEnable o size => Sys2Proof.Machine.execMoveStreamEnable o size s
  | .moveStreamDisable o => Sys2Proof.Machine.execMoveStreamDisable o s
  | .moveStreamAbort o => Sys2Proof.Machine.execMoveStreamAbort o s
  | .moveFetch p => Sys2Proof.Machine.execMoveFetch p s
  | .laneDispatch => Sys2Proof.Machine.execLaneDispatch s
  | .laneStart p r => Sys2Proof.Machine.execLaneStart p r s
  | .laneFwaitPass p r => Sys2Proof.Machine.execLaneFwaitPass p r s
  | .reconfDrainEnd p r => Sys2Proof.Machine.execReconfDrainEnd p r s
  | .reconfFreezeEnd p r => Sys2Proof.Machine.execReconfFreezeEnd p r s
  | .reconfTablesEnd p r us => Sys2Proof.Machine.execReconfTablesEnd p r us s
  | .reconfCheckEnd p r => Sys2Proof.Machine.execReconfCheckEnd p r s
  | .bookSectionUnit d => Sys2Proof.Machine.execBookSectionUnit d s
  | .reconfSectionsEnd p r us => Sys2Proof.Machine.execReconfSectionsEnd p r us s
  | .reconfRegistersEnd p r => Sys2Proof.Machine.execReconfRegistersEnd p r s
  | .reconfRelease p r => Sys2Proof.Machine.execReconfRelease p r s
  | .tempoGrant p r => Sys2Proof.Machine.execTempoGrant p r s
  | .tempoExecute p r us => Sys2Proof.Machine.execTempoExecute p r us s
  | .laneRetire p r => Sys2Proof.Machine.execLaneRetire p r s
  | .jobStopDrainEnd p => Sys2Proof.Machine.execJobStopDrainEnd p s
  | .wload f k arr idx => Sys2Proof.Machine.execWload f k arr idx s
  | .stream f k arr idx => Sys2Proof.Machine.execStream f k arr idx s
  | .aclr f k arr idx => Sys2Proof.Machine.execAclr f k arr idx s
  | .vectorChainProgram f k idx => Sys2Proof.Machine.execVectorChainProgram f k idx s
  | .routeSetLoad f k idx => Sys2Proof.Machine.execRouteSetLoad f k idx s
  | .flagSet f k idx => Sys2Proof.Machine.execFlagSet f k idx s
  | .flagClear f k idx => Sys2Proof.Machine.execFlagClear f k idx s
  | .flagOpArrive viaMesh f k n us => Sys2Proof.Machine.execFlagOpArrive viaMesh f k n s us
  | .pair f k idx => Sys2Proof.Machine.execPair f k idx s
  | .deliver f k idx => Sys2Proof.Machine.execDeliver f k idx s
  | .tokgen f k idx => Sys2Proof.Machine.execTokgen f k idx s
  | .cursor f k idx => Sys2Proof.Machine.execCursor f k idx s
  | .castle f k idx => Sys2Proof.Machine.execCastle f k idx s
  | .dmain f k idx => Sys2Proof.Machine.execDmain f k idx s
  | .dmaout f k idx => Sys2Proof.Machine.execDmaout f k idx s
  | .smreq f k idx => Sys2Proof.Machine.execSmreq f k idx s
  | .rotate f k idx => Sys2Proof.Machine.execRotate f k idx s
  | .streamRequest f k => Sys2Proof.Machine.execStreamRequest f k s
  | .smReadEntry f k ctx => Sys2Proof.Machine.execSmReadEntry f k ctx s
  | .streamWriteEntry f k => Sys2Proof.Machine.execStreamWriteEntry f k s
  | .bind f k port => Sys2Proof.Machine.execBind f k port s
  | .unbind f k port => Sys2Proof.Machine.execUnbind f k port s
  | .creditGrant n => Sys2Proof.Machine.execCreditGrant n s
  | .outputStoreSend f k route => Sys2Proof.Machine.execOutputStoreSend f k route s
  | .flitForward f k port => Sys2Proof.Machine.execFlitForward f k port s
  | .entryArrival f k => Sys2Proof.Machine.execEntryArrival f k s
  | .linkReplay f k port good => Sys2Proof.Machine.execLinkReplay f k port good s
  | .stalemate p r => Sys2Proof.Machine.execStalemate p r s
  | .stalemateSnapshotDone p => Sys2Proof.Machine.execStalemateSnapshotDone p s
  | .watchdogWrite o v => Sys2Proof.Machine.execWatchdogWrite o v s
  | .snapshotAck o => Sys2Proof.Machine.execSnapshotAck o s
  | .chipFlagSet o flag => Sys2Proof.Machine.execChipFlagSet o flag s
  | .chipFlagClear o flag => Sys2Proof.Machine.execChipFlagClear o flag s
  | .qheadLatch f k => Sys2Proof.Machine.execQheadLatch f k s
  | .scoresheetEnable o period => Sys2Proof.Machine.execScoresheetEnable o period s
  | .scoresheetDisable o => Sys2Proof.Machine.execScoresheetDisable o s
  | .scoresheetSample p => Sys2Proof.Machine.execScoresheetSample p s
  | .barrierArrive p => Sys2Proof.Machine.execBarrierArrive p s
  | .barrierTimeout c => Sys2Proof.Machine.execBarrierTimeout c s
  | .stackRead f k => Sys2Proof.Machine.execStackRead f k s
  | .stackWrite f k => Sys2Proof.Machine.execStackWrite f k s
  | .stackWriteData f k => Sys2Proof.Machine.execStackWriteData f k s
  | .gather f k => Sys2Proof.Machine.execGather f k s
  | .gatherIndex f k => Sys2Proof.Machine.execGatherIndex f k s
  | .edgeDelivery f k us => Sys2Proof.Machine.execEdgeDelivery f k us s
  | .stackRequestComplete f k => Sys2Proof.Machine.execStackRequestComplete f k s
  | .matchCommand f k => Sys2Proof.Machine.execMatchCommand f k s
  | .matchQueryEntry f k => Sys2Proof.Machine.execMatchQueryEntry f k s
  | .matchScanStart t => Sys2Proof.Machine.execMatchScanStart t s
  | .matchPassEnd t us => Sys2Proof.Machine.execMatchPassEnd t us s
  | .refresh t => Sys2Proof.Machine.execRefresh t s
  | .scrubRead t us => Sys2Proof.Machine.execScrubRead t us s
  | .rowSpared t us => Sys2Proof.Machine.execRowSpared t us s
  | .stackClearDone t => Sys2Proof.Machine.execStackClearDone t s
  | .hstkEccClear o t => Sys2Proof.Machine.execHstkEccClear o t s
  | .coreEccClear o die n => Sys2Proof.Machine.execCoreEccClear o die n s
  | .ringTableLoad o b m addr => Sys2Proof.Machine.execRingTableLoad o b m addr s
  | .ringKey o m key => Sys2Proof.Machine.execRingKey o m key s
  | .ringStep o desc => Sys2Proof.Machine.execRingStep o desc s
  | .stepDescriptor b => Sys2Proof.Machine.execStepDescriptor b s
  | .redFrame b d => Sys2Proof.Machine.execRedFrame b d s
  | .bccFrame b d => Sys2Proof.Machine.execBccFrame b d s
  | .bcfFrame b d => Sys2Proof.Machine.execBcfFrame b d s
  | .ackFrame b d => Sys2Proof.Machine.execAckFrame b d s
  | .normFrame b d => Sys2Proof.Machine.execNormFrame b d s
  | .barFrame b d => Sys2Proof.Machine.execBarFrame b d s
  | .ringResendTimeout c b phase lvl peer => Sys2Proof.Machine.execRingResendTimeout c b phase lvl peer s
  | .ringProgressTimeout c => Sys2Proof.Machine.execRingProgressTimeout c s
  | .priorityResendTimeout c bar => Sys2Proof.Machine.execPriorityResendTimeout c bar s
  | .updateBlock c b => Sys2Proof.Machine.execUpdateBlock c b s
  | .stepComplete c => Sys2Proof.Machine.execStepComplete c s
  | .ringStepAbort o m => Sys2Proof.Machine.execRingStepAbort o m s
  | .init port d => Sys2Proof.Machine.execInit port d s
  | .confirm port d => Sys2Proof.Machine.execConfirm port d s
  | .halfOpenExpiry port sid => Sys2Proof.Machine.execHalfOpenExpiry port sid s
  | .ack port d => Sys2Proof.Machine.execAck port d s
  | .keepalive port d => Sys2Proof.Machine.execKeepalive port d s
  | .close port d => Sys2Proof.Machine.execClose port d s
  | .mbox port d => Sys2Proof.Machine.execMbox port d s
  | .ranowAckTimer sid => Sys2Proof.Machine.execRanowAckTimer sid s
  | .ranowRetransmit sid seq => Sys2Proof.Machine.execRanowRetransmit sid seq s
  | .sessionTimeout sid => Sys2Proof.Machine.execSessionTimeout sid s
  | .arpRequest port mac target => Sys2Proof.Machine.execArpRequest port mac target s
  | .echoRequest port d => Sys2Proof.Machine.execEchoRequest port d s
  | .foreignFrame port => Sys2Proof.Machine.execForeignFrame port s
  | .commandRecordTake us => Sys2Proof.Machine.execCommandRecordTake s us
  | .nop o => Sys2Proof.Machine.execNop o s
  | .subscribe o mask => Sys2Proof.Machine.execSubscribe o mask s
  | .sessionInfo o => Sys2Proof.Machine.execSessionInfo o s
  | .regRead o a w n us => Sys2Proof.Machine.execRegRead o a w n s us
  | .regWrite o a w v us => Sys2Proof.Machine.execRegWrite o a w v s us
  | .jobAbort o job => Sys2Proof.Machine.execJobAbort o job s
  | .matchMulti o qaddr raddr tmpl stks => Sys2Proof.Machine.execMatchMulti o qaddr raddr tmpl stks s
  | .matchMultiMerge num => Sys2Proof.Machine.execMatchMultiMerge num s
  | .dopen port d => Sys2Proof.Machine.execDopen port d s
  | .dwrite port d => Sys2Proof.Machine.execDwrite port d s
  | .dread sid bid => Sys2Proof.Machine.execDread sid bid s
  | .grantSet o rec => Sys2Proof.Machine.execGrantSet o rec s
  | .partDelete o q => Sys2Proof.Machine.execPartDelete o q s
  | .grantRead o q => Sys2Proof.Machine.execGrantRead o q s
  | .hostkeySet o q slot op key => Sys2Proof.Machine.execHostkeySet o q slot op key s
  | .imageLoad o r src len secret => Sys2Proof.Machine.execImageLoad o r src len secret s
  | .attest o nonce dest => Sys2Proof.Machine.execAttest o nonce dest s
  | .certRead o dest => Sys2Proof.Machine.execCertRead o dest s
  | .fwStage o src len => Sys2Proof.Machine.execFwStage o src len s
  | .fwPromote o target force deadline => Sys2Proof.Machine.execFwPromote o target force deadline s
  | .fwCancel o => Sys2Proof.Machine.execFwCancel o s
  | .setRead o dest => Sys2Proof.Machine.execSetRead o dest s
  | .setWrite o n items => Sys2Proof.Machine.execSetWrite o n items s
  | .restart o force deadline => Sys2Proof.Machine.execRestart o force deadline s
  | .activationDecision e => Sys2Proof.Machine.execActivationDecision e s
  | .activationDeferred => Sys2Proof.Machine.execActivationDeferred s
  | .start e => Sys2Proof.Machine.execStart e s
  | .startTimeout e => Sys2Proof.Machine.execStartTimeout e s
  | .linkUp port => Sys2Proof.Machine.execLinkUp port s
  | .retireRequest o f k => Sys2Proof.Machine.execRetireRequest o f k s
  | .thermalWarning die stks => Sys2Proof.Machine.execThermalWarning die stks s
  | .thermalThrottle die stks => Sys2Proof.Machine.execThermalThrottle die stks s
  | .throttleStep => Sys2Proof.Machine.execThrottleStep s
  | .thermalTrip die stks => Sys2Proof.Machine.execThermalTrip die stks s
  | .thermalClear die stks => Sys2Proof.Machine.execThermalClear die stks s
  | .thermalClockRamp => Sys2Proof.Machine.execThermalClockRamp s
  | .inputVoltage v => Sys2Proof.Machine.execInputVoltage v s
  | .inputOutOfRange v => Sys2Proof.Machine.execInputOutOfRange v s
  | .overcurrentTrip cur => Sys2Proof.Machine.execOvercurrentTrip cur s
  | .standbyUp slot => Sys2Proof.Machine.execStandbyUp slot s
  | .pwrEnRise => Sys2Proof.Machine.execPwrEnRise s
  | .powerDown => Sys2Proof.Machine.execPowerDown s
  | .railFault => Sys2Proof.Machine.execRailFault s
  | .resetPin => Sys2Proof.Machine.execResetPin s
  | .refclkLoss => Sys2Proof.Machine.execRefclkLoss s
  | .powerCapTick m a => Sys2Proof.Machine.execPowerCapTick m a s
  | .powerModelUpdate pin a => Sys2Proof.Machine.execPowerModelUpdate pin a s
  | .sbPwrlimWrite data pec => Sys2Proof.Machine.execSbPwrlimWrite data pec s
  | .smbusStatusRead => Sys2Proof.Machine.execSmbusStatusRead s
  | .smbusBlockRead code => Sys2Proof.Machine.execSmbusBlockRead code s
  | .smbusBlockWrite code data pec => Sys2Proof.Machine.execSmbusBlockWrite code data pec s
  | .smbusAlertResponse => Sys2Proof.Machine.execSmbusAlertResponse s
  | .registerWrite o a w v us => Sys2Proof.Machine.execRegisterWrite o a w v s us
  | .stackRequesterCompletion c b write => Sys2Proof.Machine.execStackRequesterCompletion c b write s
  | .linkDown port => Sys2Proof.Machine.execLinkDown port s
  | .standbyRailDown => Sys2Proof.Machine.execStandbyRailDown s
  | .deferredCommandEnd num fail => Sys2Proof.Machine.execDeferredCommandEnd num fail s
  | .sharedMemoryScrub d us => Sys2Proof.Machine.execSharedMemoryScrub d us s
  | .smbusClockLowTimeout => Sys2Proof.Machine.execSmbusClockLowTimeout s
  | .unmatchedRingFrame b d => Sys2Proof.Machine.execUnmatchedRingFrame b d s
  | .transmitterFrameEnd port => Sys2Proof.Machine.execTransmitterFrameEnd port s

end Sys2Proof.Machine
end

