-- ==== Sys2Proof/Machine/Step.lean ====
section
/-!
DEFINITION. One step: the command at the front of the queue, or, with none waiting, one fabric cycle (log entry 1).
-/

namespace Sys2Proof.Machine

/-- One fabric cycle of a running module (log entries 1, 10): the units of draining regions take a step, the freeze of a stop
begins (R95), HOLD counts (R270), the time goes on (R399). -/
def tick (s : State) : State :=
  if s.runs then
    let all := (List.range 8).flatMap fun p => (s.regionsOf p).map fun x => (p, x.1)
    let s := all.foldl (fun (s : State) (x : Nat × Nat) => s.drainTick x.1 x.2) s
    let s := all.foldl (fun (s : State) (x : Nat × Nat) => s.stopFreeze x.1 x.2) s
    let s := all.foldl (fun (s : State) (x : Nat × Nat) => s.modRegion x.1 x.2 fun g => g.cycleEnd s.now) s
    { s with now := s.now + 1 }
  else s

/-- One step: the command in front runs on the state with the rest of the queue. -/
def step (s : State) : Host.Outcome State Fault Refusal :=
  match s.pending with
  | [] => .next (tick s)
  | c :: rest => exec c { s with pending := rest }

/-- The state with the command that a word spells put in front of its queue. -/
def State.withFetchWord (s : State) (nbits w : Nat) : State :=
  match decodeTableWord nbits w with
  | some c => { s with pending := c :: s.pending }
  | none => s

end Sys2Proof.Machine
end

