-- ==== Sys2Proof/Safety.lean ====
section
/-!
DEFINITION. What a sound state of the module is, and what a safe run is.
-/

namespace Sys2Proof.Machine

/-- What every step keeps: memory in its canonical form, and eight Ethernet ports (R322, R369). -/
def State.sound (s : State) : Bool := s.mem.wf && s.ports.length == 8

/-- The states that a run of `n` steps from `s` meets are sound, and no step stops. -/
def SafeRun : Nat → State → Prop
  | 0, s => s.sound = true
  | n + 1, s => s.sound = true ∧ ∃ t, step s = .next t ∧ SafeRun n t

end Sys2Proof.Machine
end

