-- ==== Sys2Proof/WellFormed.lean ====
section
/-!
DEFINITION. Which commands are well formed: every operand in the range that its field or the module gives it (R1, R9, R24, R48,
R64, R372, R392, R426, R464, R496).
-/

namespace Sys2Proof

/-- A session number of 8 bytes and a tag of 4 (R372, R390). -/
def Org.fits (o : Org) : Bool := decide (o.sid < 2 ^ 64) && decide (o.ctag < 2 ^ 32)

/-- Corners of one byte each (R395). -/
def Rect.fits (x : Rect) : Bool := decide (x.f0 < 256) && decide (x.k0 < 256) && decide (x.f1 < 256) && decide (x.k1 < 256)

/-- MAC addresses of 6 bytes, IP addresses of 16, UDP ports of 2 (R370, R375). -/
def Dgram.fits (d : Dgram) : Bool :=
  decide (d.mac < 2 ^ 48) && decide (d.src < 2 ^ 128) && decide (d.dst < 2 ^ 128) && decide (d.udp < 2 ^ 16) && decide (d.sport < 2 ^ 16)

/-- What a start meets, with one entry per copy, bank, slot and port (R444). -/
def StartEnv.fits (e : StartEnv) : Bool :=
  e.recs.length == 2 && e.bank.length == 2 && e.fw.length == 2 && e.ctl.length == 2 && e.slots.length == 4 && e.links.length == 8
    && (e.ctl.all fun l => l.all fun x => decide (x.1 < 20)) && e.late.all (fun n => decide (1 ≤ n) && decide (n ≤ 9))
    && e.late2.all (fun n => decide (2 ≤ n) && decide (n ≤ 9))

/-- Activities by stack and by port (R493). -/
def Activity.fits (a : Activity) : Bool := a.rates.length == 8 && a.loads.length == 8

/-- A well-formed command. -/
def Instr.wellFormed : Instr → Bool
  | .regionDefine o r rect => o.fits && decide (r < 256) && rect.fits
  | .regionRelease o r => o.fits && decide (r < 256)
  | .moveStreamConfigWrite o size v => o.fits && decide (v < if size then 2 ^ 13 else 2 ^ 48)
  | .moveStreamEnable o size => o.fits && decide (size < 2 ^ 13)
  | .moveStreamDisable o => o.fits
  | .moveStreamAbort o => o.fits
  | .moveFetch p => decide (p < 8)
  | .laneDispatch => true
  | .laneStart p r => decide (p < 8) && decide (r < 256)
  | .laneFwaitPass p r => decide (p < 8) && decide (r < 256)
  | .reconfDrainEnd p r => decide (p < 8) && decide (r < 256)
  | .reconfFreezeEnd p r => decide (p < 8) && decide (r < 256)
  | .reconfTablesEnd p r _ => decide (p < 8) && decide (r < 256)
  | .reconfCheckEnd p r => decide (p < 8) && decide (r < 256)
  | .bookSectionUnit d => decide (d < 4)
  | .reconfSectionsEnd p r _ => decide (p < 8) && decide (r < 256)
  | .reconfRegistersEnd p r => decide (p < 8) && decide (r < 256)
  | .reconfRelease p r => decide (p < 8) && decide (r < 256)
  | .tempoGrant p r => decide (p < 8) && decide (r < 256)
  | .tempoExecute p r _ => decide (p < 8) && decide (r < 256)
  | .laneRetire p r => decide (p < 8) && decide (r < 256)
  | .jobStopDrainEnd p => decide (p < 8)
  | .wload f k arr idx => decide (f < 64) && decide (k < 48) && decide (arr < 2) && decide (1 ≤ idx) && decide (idx < 256)
  | .stream f k arr idx => decide (f < 64) && decide (k < 48) && decide (arr < 2) && decide (1 ≤ idx) && decide (idx < 256)
  | .aclr f k arr idx => decide (f < 64) && decide (k < 48) && decide (arr < 2) && decide (1 ≤ idx) && decide (idx < 256)
  | .vectorChainProgram f k idx => decide (f < 64) && decide (k < 48) && decide (1 ≤ idx) && decide (idx < 256)
  | .routeSetLoad f k idx => decide (f < 64) && decide (k < 48) && decide (1 ≤ idx) && decide (idx < 256)
  | .flagSet f k idx => decide (f < 64) && decide (k < 48) && decide (1 ≤ idx) && decide (idx < 256)
  | .flagClear f k idx => decide (f < 64) && decide (k < 48) && decide (1 ≤ idx) && decide (idx < 256)
  | .flagOpArrive _ f k _ _ => decide (f < 64) && decide (k < 48)
  | .pair f k idx => decide (f < 64) && decide (k < 48) && decide (1 ≤ idx) && decide (idx < 256)
  | .deliver f k idx => decide (f < 64) && decide (k < 48) && decide (1 ≤ idx) && decide (idx < 256)
  | .tokgen f k idx => decide (f < 64) && decide (k < 48) && decide (1 ≤ idx) && decide (idx < 256)
  | .cursor f k idx => decide (f < 64) && decide (k < 48) && decide (1 ≤ idx) && decide (idx < 256)
  | .castle f k idx => decide (f < 64) && decide (k < 48) && decide (1 ≤ idx) && decide (idx < 256)
  | .dmain f k idx => decide (f < 64) && decide (k < 48) && decide (1 ≤ idx) && decide (idx < 256)
  | .dmaout f k idx => decide (f < 64) && decide (k < 48) && decide (1 ≤ idx) && decide (idx < 256)
  | .smreq f k idx => decide (f < 64) && decide (k < 48) && decide (1 ≤ idx) && decide (idx < 256)
  | .rotate f k idx => decide (f < 64) && decide (k < 48) && decide (1 ≤ idx) && decide (idx < 256)
  | .streamRequest f k => decide (f < 64) && decide (k < 48)
  | .smReadEntry f k ctx => decide (f < 64) && decide (k < 48) && decide (ctx < 8)
  | .streamWriteEntry f k => decide (f < 64) && decide (k < 48)
  | .bind f k port => decide (f < 64) && decide (k < 48) && decide (port < 3)
  | .unbind f k port => decide (f < 64) && decide (k < 48) && decide (port < 3)
  | .creditGrant _ => true
  | .outputStoreSend f k route => decide (f < 64) && decide (k < 48) && decide (route < 16)
  | .flitForward f k port => decide (f < 64) && decide (k < 48) && decide (port < 6)
  | .entryArrival f k => decide (f < 64) && decide (k < 48)
  | .linkReplay f k port _ => decide (f < 64) && decide (k < 48) && decide (port < 6)
  | .stalemate p r => decide (p < 8) && decide (r < 256)
  | .stalemateSnapshotDone p => decide (p < 8)
  | .watchdogWrite o v => o.fits && decide (v < 2 ^ 32)
  | .snapshotAck o => o.fits
  | .chipFlagSet o flag => o.fits && decide (flag < 256)
  | .chipFlagClear o flag => o.fits && decide (flag < 256)
  | .qheadLatch f k => decide (f < 64) && decide (k < 48)
  | .scoresheetEnable o period => o.fits && decide (period < 32)
  | .scoresheetDisable o => o.fits
  | .scoresheetSample p => decide (p < 8)
  | .barrierArrive p => decide (p < 8)
  | .barrierTimeout c => decide (c < 8)
  | .stackRead f k => decide (f < 64) && decide (k < 48)
  | .stackWrite f k => decide (f < 64) && decide (k < 48)
  | .stackWriteData f k => decide (f < 64) && decide (k < 48)
  | .gather f k => decide (f < 64) && decide (k < 48)
  | .gatherIndex f k => decide (f < 64) && decide (k < 48)
  | .edgeDelivery f k _ => decide (f < 64) && decide (k < 48)
  | .stackRequestComplete f k => decide (f < 64) && decide (k < 48)
  | .matchCommand f k => decide (f < 64) && decide (k < 48)
  | .matchQueryEntry f k => decide (f < 64) && decide (k < 48)
  | .matchScanStart t => decide (t < 8)
  | .matchPassEnd t _ => decide (t < 8)
  | .refresh t => decide (t < 8)
  | .scrubRead t _ => decide (t < 8)
  | .rowSpared t _ => decide (t < 8)
  | .stackClearDone t => decide (t < 8)
  | .hstkEccClear o t => o.fits && decide (t < 8)
  | .coreEccClear o die n => o.fits && decide (n < if die then 4 else 3072)
  | .ringTableLoad o b m addr => o.fits && decide (b < 4) && decide (m < 8) && decide (addr < 2 ^ 48) && addr % 64 == 0
  | .ringKey o m key => o.fits && decide (m < 256) && key.length == 32
  | .ringStep o desc => o.fits && desc.length == 64
  | .stepDescriptor b => decide (b < 4)
  | .redFrame b d => decide (b < 4) && d.fits
  | .bccFrame b d => decide (b < 4) && d.fits
  | .bcfFrame b d => decide (b < 4) && d.fits
  | .ackFrame b d => decide (b < 4) && d.fits
  | .normFrame b d => decide (b < 4) && d.fits
  | .barFrame b d => decide (b < 4) && d.fits
  | .ringResendTimeout c b phase lvl peer => decide (c < 8) && decide (b < 4) && decide (1 ≤ phase) && decide (phase ≤ 2) && decide (1 ≤ lvl) && decide (lvl ≤ 3) && decide (peer < 5)
  | .ringProgressTimeout c => decide (c < 8)
  | .priorityResendTimeout c _ => decide (c < 8)
  | .updateBlock c b => decide (c < 8) && decide (b < 4)
  | .stepComplete c => decide (c < 8)
  | .ringStepAbort o m => o.fits && decide (m < 8)
  | .init port d => decide (port < 4) && d.fits
  | .confirm port d => decide (port < 4) && d.fits
  | .halfOpenExpiry port sid => decide (port < 4) && decide (sid < 2 ^ 64)
  | .ack port d => decide (port < 4) && d.fits
  | .keepalive port d => decide (port < 4) && d.fits
  | .close port d => decide (port < 4) && d.fits
  | .mbox port d => decide (port < 4) && d.fits
  | .ranowAckTimer sid => decide (sid < 2 ^ 64)
  | .ranowRetransmit sid seq => decide (sid < 2 ^ 64) && decide (seq < 2 ^ 64)
  | .sessionTimeout sid => decide (sid < 2 ^ 64)
  | .arpRequest port mac target => decide (port < 4) && decide (mac < 2 ^ 48) && decide (target < 2 ^ 128)
  | .echoRequest port d => decide (port < 4) && d.fits
  | .foreignFrame port => decide (port < 4)
  | .commandRecordTake _ => true
  | .nop o => o.fits
  | .subscribe o mask => o.fits && decide (mask < 2 ^ 32)
  | .sessionInfo o => o.fits
  | .regRead o a w n _ => o.fits && decide (a < 2 ^ 64) && decide (w < 256) && decide (n < 256)
  | .regWrite o a w v _ => o.fits && decide (a < 2 ^ 64) && decide (w < 256) && decide (v < 2 ^ 64)
  | .jobAbort o job => o.fits && decide (job < 2 ^ 16)
  | .matchMulti o qaddr raddr tmpl stks => o.fits && decide (qaddr < 2 ^ 64) && decide (raddr < 2 ^ 64) && tmpl.length == 64 && decide (stks.length < 256)
  | .matchMultiMerge _ => true
  | .dopen port d => decide (port < 4) && d.fits
  | .dwrite port d => decide (port < 4) && d.fits
  | .dread sid bid => decide (sid < 2 ^ 64) && decide (bid < 256)
  | .grantSet o rec => o.fits && rec.length == 64
  | .partDelete o q => o.fits && decide (q < 256)
  | .grantRead o q => o.fits && decide (q < 256)
  | .hostkeySet o q slot op key => o.fits && decide (q < 256) && decide (slot < 256) && decide (op < 256) && key.length == 57
  | .imageLoad o r src len secret => o.fits && decide (r < 256) && decide (src < 2 ^ 64) && decide (len < 2 ^ 64) && secret.length == 32
  | .attest o nonce dest => o.fits && nonce.length == 32 && decide (dest < 2 ^ 64)
  | .certRead o dest => o.fits && decide (dest < 2 ^ 64)
  | .fwStage o src len => o.fits && decide (src < 2 ^ 64) && decide (len < 2 ^ 64)
  | .fwPromote o target force deadline => o.fits && decide (target < 256) && decide (force < 256) && decide (deadline < 2 ^ 32)
  | .fwCancel o => o.fits
  | .setRead o dest => o.fits && decide (dest < 2 ^ 64)
  | .setWrite o n items => o.fits && decide (n < 2 ^ 16) && decide (items.length ≤ 4080)
  | .restart o force deadline => o.fits && decide (force < 256) && decide (deadline < 2 ^ 32)
  | .activationDecision e => e.fits
  | .activationDeferred => true
  | .start e => e.fits && e.late.isNone && e.late2.isNone
  | .startTimeout e => e.fits && (e.late.isSome || e.late2.isSome)
  | .linkUp port => decide (port < 8)
  | .retireRequest o f k => o.fits && decide (f < 64) && decide (k < 64)
  | .thermalWarning _ stks => stks.length == 8
  | .thermalThrottle _ stks => stks.length == 8
  | .throttleStep => true
  | .thermalTrip _ stks => stks.length == 8
  | .thermalClear _ stks => stks.length == 8
  | .thermalClockRamp => true
  | .inputVoltage _ => true
  | .inputOutOfRange _ => true
  | .overcurrentTrip _ => true
  | .standbyUp slot => decide (slot < 16)
  | .pwrEnRise => true
  | .powerDown => true
  | .railFault => true
  | .resetPin => true
  | .refclkLoss => true
  | .powerCapTick m a => m.stks.length == 8 && a.fits
  | .powerModelUpdate _ a => a.fits
  | .sbPwrlimWrite data _ => decide (data.length ≤ 32)
  | .smbusStatusRead => true
  | .smbusBlockRead code => decide (code < 256)
  | .smbusBlockWrite code data _ => decide (code < 256) && decide (data.length ≤ 32)
  | .smbusAlertResponse => true
  | .registerWrite o a w v _ => o.fits && decide (a < 2 ^ 64) && decide (w < 256) && decide (v < 2 ^ 64)
  | .stackRequesterCompletion c b _ => decide (c < 8) && decide (b < 4)
  | .linkDown port => decide (port < 8)
  | .standbyRailDown => true
  | .deferredCommandEnd _ _ => true
  | .sharedMemoryScrub d _ => decide (d < 4)
  | .smbusClockLowTimeout => true
  | .unmatchedRingFrame b d => decide (b < 4) && d.fits
  | .transmitterFrameEnd port => decide (port < 8)

end Sys2Proof
end

