-- ==== Sys2Proof/Certificates/Slice0/Obligations.lean ====
section
/-!
DEFINITION. The statements for the provers. Of the commands, each says that the command answers a next state, with its own effect,
under hypotheses on the state and the operands alone; the others say what the whole machine does.
-/

open Sys2Proof Sys2Proof.Machine

namespace Sys2Proof

/-- Commands some of whose paths write the byte memories: stacks, shared memory, core memory, accumulator memory. -/
def Instr.mayWriteMemory : Instr → Bool
  | .regionDefine _ _ _ | .regionRelease _ _ | .moveStreamConfigWrite _ _ _ | .moveStreamEnable _ _
  | .moveStreamDisable _ | .moveStreamAbort _ | .tempoExecute _ _ _ | .wload _ _ _ _ | .stream _ _ _ _
  | .aclr _ _ _ _ | .vectorChainProgram _ _ _ | .routeSetLoad _ _ _ | .flagSet _ _ _ | .flagClear _ _ _
  | .pair _ _ _ | .deliver _ _ _ | .tokgen _ _ _ | .cursor _ _ _ | .castle _ _ _ | .dmain _ _ _ | .dmaout _ _ _
  | .smreq _ _ _ | .rotate _ _ _ | .streamWriteEntry _ _ | .stalemateSnapshotDone _ | .watchdogWrite _ _
  | .snapshotAck _ | .chipFlagSet _ _ | .chipFlagClear _ _ | .scoresheetEnable _ _ | .scoresheetDisable _
  | .scoresheetSample _ | .stackWriteData _ _ | .edgeDelivery _ _ _ | .matchPassEnd _ _ | .scrubRead _ _
  | .rowSpared _ _ | .stackClearDone _ | .hstkEccClear _ _ | .coreEccClear _ _ _ | .ringTableLoad _ _ _ _
  | .redFrame _ _ | .bccFrame _ _ | .bcfFrame _ _ | .updateBlock _ _ | .stepComplete _ | .ringStepAbort _ _
  | .close _ _ | .mbox _ _ | .commandRecordTake _ | .regWrite _ _ _ _ _ | .matchMultiMerge _ | .dopen _ _
  | .grantSet _ _ | .partDelete _ _ | .startTimeout _
  | .dwrite _ _ | .certRead _ _ | .setRead _ _ | .activationDecision _ | .start _ | .retireRequest _ _ _
  | .inputOutOfRange _ | .standbyUp _ | .powerDown | .railFault | .resetPin | .registerWrite _ _ _ _ _
  | .stackRequesterCompletion _ _ _ | .standbyRailDown | .deferredCommandEnd _ _ | .sharedMemoryScrub _ _ => true
  | _ => false

/-- Commands some of whose paths write the flash or the fuses. -/
def Instr.mayWriteFlash : Instr → Bool
  | .stackClearDone _ | .commandRecordTake _ | .hostkeySet _ _ _ _ _ | .setWrite _ _ _ | .activationDecision _
  | .start _ | .startTimeout _ | .thermalTrip _ _ | .overcurrentTrip _ | .refclkLoss | .deferredCommandEnd _ _ => true
  | _ => false

/-- Commands some of whose paths change power, pins, clock, thermal state or the sideband. -/
def Instr.mayChangePower : Instr → Bool
  | .activationDecision _ | .start _ | .startTimeout _ | .thermalWarning _ _ | .thermalThrottle _ _
  | .throttleStep | .thermalTrip _ _ | .thermalClear _ _ | .thermalClockRamp | .inputVoltage _
  | .inputOutOfRange _ | .overcurrentTrip _ | .standbyUp _ | .pwrEnRise | .powerDown | .railFault | .resetPin
  | .refclkLoss | .powerCapTick _ _ | .powerModelUpdate _ _ | .sbPwrlimWrite _ _ | .smbusStatusRead
  | .smbusBlockRead _ | .smbusBlockWrite _ _ _ | .smbusAlertResponse | .standbyRailDown | .smbusClockLowTimeout => true
  | _ => false

end Sys2Proof

namespace Sys2Proof.Machine

/-- What an operand names exists: the core is active in the grade, and numbers of partitions, regions, arrays, stacks, contexts, ports
and dies are in range (R1, R2, R10). -/
def State.has (s : State) : Instr → Bool
  | .moveFetch p => decide (p < 8)
  | .laneStart p r => decide (p < 8) && decide (r < 256)
  | .laneFwaitPass p r => decide (p < 8) && decide (r < 256)
  | .reconfDrainEnd p r => decide (p < 8) && decide (r < 256)
  | .reconfFreezeEnd p r => decide (p < 8) && decide (r < 256)
  | .reconfTablesEnd p r _ => decide (p < 8) && decide (r < 256)
  | .reconfCheckEnd p r => decide (p < 8) && decide (r < 256)
  | .bookSectionUnit d => decide (d < 4)
  | .reconfSectionsEnd p r _ => decide (p < 8) && decide (r < 256)
  | .reconfRegistersEnd p r => decide (p < 8) && decide (r < 256)
  | .reconfRelease p r => decide (p < 8) && decide (r < 256)
  | .tempoGrant p r => decide (p < 8) && decide (r < 256)
  | .tempoExecute p r _ => decide (p < 8) && decide (r < 256)
  | .laneRetire p r => decide (p < 8) && decide (r < 256)
  | .jobStopDrainEnd p => decide (p < 8)
  | .wload f k arr _ => coreActive s.grade f k && decide (arr < 2)
  | .stream f k arr _ => coreActive s.grade f k && decide (arr < 2)
  | .aclr f k arr _ => coreActive s.grade f k && decide (arr < 2)
  | .vectorChainProgram f k _ => coreActive s.grade f k
  | .routeSetLoad f k _ => coreActive s.grade f k
  | .flagSet f k _ => coreActive s.grade f k
  | .flagClear f k _ => coreActive s.grade f k
  | .flagOpArrive _ f k _ _ => coreActive s.grade f k
  | .pair f k _ => coreActive s.grade f k
  | .deliver f k _ => coreActive s.grade f k
  | .tokgen f k _ => coreActive s.grade f k
  | .cursor f k _ => coreActive s.grade f k
  | .castle f k _ => coreActive s.grade f k
  | .dmain f k _ => coreActive s.grade f k
  | .dmaout f k _ => coreActive s.grade f k
  | .smreq f k _ => coreActive s.grade f k
  | .rotate f k _ => coreActive s.grade f k
  | .streamRequest f k => coreActive s.grade f k
  | .smReadEntry f k _ => coreActive s.grade f k
  | .streamWriteEntry f k => coreActive s.grade f k
  | .bind f k _ => coreActive s.grade f k
  | .unbind f k _ => coreActive s.grade f k
  | .outputStoreSend f k _ => coreActive s.grade f k
  | .flitForward f k _ => coreActive s.grade f k
  | .entryArrival f k => coreActive s.grade f k
  | .linkReplay f k _ _ => coreActive s.grade f k
  | .stalemate p r => decide (p < 8) && decide (r < 256)
  | .stalemateSnapshotDone p => decide (p < 8)
  | .qheadLatch f k => coreActive s.grade f k
  | .scoresheetSample p => decide (p < 8)
  | .barrierArrive p => decide (p < 8)
  | .barrierTimeout c => decide (c < 8)
  | .stackRead f k => coreActive s.grade f k
  | .stackWrite f k => coreActive s.grade f k
  | .stackWriteData f k => coreActive s.grade f k
  | .gather f k => coreActive s.grade f k
  | .gatherIndex f k => coreActive s.grade f k
  | .edgeDelivery f k _ => coreActive s.grade f k
  | .stackRequestComplete f k => coreActive s.grade f k
  | .matchCommand f k => coreActive s.grade f k
  | .matchQueryEntry f k => coreActive s.grade f k
  | .matchScanStart t => decide (t < 8)
  | .matchPassEnd t _ => decide (t < 8)
  | .refresh t => decide (t < 8)
  | .scrubRead t _ => decide (t < 8)
  | .rowSpared t _ => decide (t < 8)
  | .stackClearDone t => decide (t < 8)
  | .hstkEccClear _ t => decide (t < 8)
  | .ringTableLoad _ b _ _ => decide (b < 4)
  | .stepDescriptor b => decide (b < 4)
  | .redFrame b _ => decide (b < 4)
  | .bccFrame b _ => decide (b < 4)
  | .bcfFrame b _ => decide (b < 4)
  | .ackFrame b _ => decide (b < 4)
  | .normFrame b _ => decide (b < 4)
  | .barFrame b _ => decide (b < 4)
  | .ringResendTimeout c b _ _ _ => decide (c < 8) && decide (b < 4)
  | .ringProgressTimeout c => decide (c < 8)
  | .priorityResendTimeout c _ => decide (c < 8)
  | .updateBlock c b => decide (c < 8) && decide (b < 4)
  | .stepComplete c => decide (c < 8)
  | .init port _ => decide (port < 4)
  | .confirm port _ => decide (port < 4)
  | .halfOpenExpiry port _ => decide (port < 4)
  | .ack port _ => decide (port < 4)
  | .keepalive port _ => decide (port < 4)
  | .close port _ => decide (port < 4)
  | .mbox port _ => decide (port < 4)
  | .arpRequest port _ _ => decide (port < 4)
  | .echoRequest port _ => decide (port < 4)
  | .foreignFrame port => decide (port < 4)
  | .dopen port _ => decide (port < 4)
  | .dwrite port _ => decide (port < 4)
  | .linkUp port => decide (port < 8)
  | .stackRequesterCompletion c b _ => decide (c < 8) && decide (b < 4)
  | .linkDown port => decide (port < 8)
  | .sharedMemoryScrub d _ => decide (d < 4)
  | .unmatchedRingFrame b _ => decide (b < 4)
  | .transmitterFrameEnd port => decide (port < 8)
  | _ => true

end Sys2Proof.Machine

namespace Sys2Proof.Machine

/-- The module serves the sender of a command: its session is open and may have a command taken, and its partition is `p`. -/
def State.servedBy (s : State) (o : Org) (p : Nat) : Prop := ∃ x, s.serves o.sid = some x ∧ x.part = p

/-- The module runs, and `p` and `r` are numbers of a partition and a region. -/
def State.live (s : State) (p r : Nat) : Prop := s.runs = true ∧ p < 8 ∧ r < 256

end Sys2Proof.Machine

namespace Sys2Proof

/-- Commands that act whether or not the module runs: power, pins, heat, sideband and start, the Ethernet ports' own answers, and the
session setup, which a module that is not in service rejects (R378). -/
def Instr.actsWhenStopped : Instr → Bool
  | .init _ _ | .confirm _ _ | .arpRequest _ _ _ | .echoRequest _ _ | .foreignFrame _ | .start _ | .startTimeout _ | .linkUp _
  | .thermalWarning _ _ | .thermalThrottle _ _ | .throttleStep | .thermalTrip _ _ | .thermalClear _ _
  | .thermalClockRamp | .inputVoltage _ | .inputOutOfRange _ | .overcurrentTrip _ | .standbyUp _ | .pwrEnRise
  | .powerDown | .railFault | .resetPin | .refclkLoss | .powerCapTick _ _ | .powerModelUpdate _ _
  | .sbPwrlimWrite _ _ | .smbusStatusRead | .smbusBlockRead _ | .smbusBlockWrite _ _ _ | .smbusAlertResponse
  | .linkDown _ | .standbyRailDown | .smbusClockLowTimeout => true
  | _ => false

end Sys2Proof

namespace Sys2Proof.Machine

/-- Core f.k may start an action: the module runs, the core is active, and its region is RUNNING or HELD (R63, R76). -/
def State.actsIn (s : State) (f k : Nat) : Prop :=
  s.runs = true ∧ coreActive s.grade f k = true ∧ ∃ p r, (s.core (coreId f k)).owner = some (p, r) ∧
    ((s.region p r).state = .running ∨ (s.region p r).state = .held)

/-- Section of core f.k. -/
abbrev State.sect (s : State) (f k : Nat) : Sect := (s.core (coreId f k)).sect

end Sys2Proof.Machine

namespace Sys2Proof.Machine

/-- The module runs and core f.k is active. -/
def State.onCore (s : State) (f k : Nat) : Prop := s.runs = true ∧ coreActive s.grade f k = true

end Sys2Proof.Machine

namespace Sys2Proof.Machine

/-- The module runs, port `b` receives, and datagram `d` is a ring frame of type `ty` for membership `c` by port b's table
`tab`: its tag is valid, its header has the shape of R341, and `body` is its deciphered body. -/
def State.ringGot (s : State) (b : Nat) (d : Dgram) (ty c : Nat) (tab : RingTab) (body : List Byte) : Prop :=
  s.runs = true ∧ b < 4 ∧ s.portUp (4 + b) = true ∧ s.ringMatch b d = some c ∧ (s.memb c).tab b = some tab ∧
    s.ringOpen c tab.h d.data = some body ∧
    let f := RingF.read d.data
    f.type = ty ∧ f.ver = 1 ∧ f.enc = tab.h.enc ∧ f.port = b ∧ 1 ≤ f.lvl ∧ f.lvl ≤ 3

/-- A frame is the next of its stream in the step that membership `c` runs, of a number that has not failed: `t`, on port `b` `q`. -/
def State.ringNext (s : State) (b : Nat) (f : RingF) (c phase : Nat) (t : Step) (q : PStep) : Prop :=
  (s.memb c).step = some t ∧ (s.memb c).cur = f.step ∧ (s.memb c).dead.contains f.step = false ∧ t.port b = some q ∧
    f.lseq = (q.recv phase f.lvl).next

end Sys2Proof.Machine

namespace Sys2Proof

/-- It is the next reliable message of its session, nothing waits behind it, and no ACK is due at once. -/
def Sess.turnOf (x : Sess) (d : Dgram) : Prop :=
  (RHdr.read d.data).seq = x.rxNext ∧ (RHdr.read d.data).seq < 2 ^ 63 ∧ x.rxBuf = [] ∧ x.rxSince < 15

end Sys2Proof

namespace Sys2Proof.Machine

/-- The module runs and datagram `d` is a protected message of type `ty` at port `i` for its open session `x`, with a valid tag;
`b` is its payload (R372, R374). -/
def State.protectedFrom (s : State) (i : Nat) (d : Dgram) (ty : Nat) (x : Sess) (b : List Byte) : Prop :=
  s.runs = true ∧ i < 4 ∧ s.arrives i d ty = true ∧
    let h := RHdr.read d.data
    let c := slice d.data 24 h.len
    s.session h.sid = some x ∧ h.magic = 0x4E52 ∧ h.ver = 1 ∧ x.port = i ∧ d.data.length = 24 + h.len + 16 ∧
      fld d.data (24 + h.len) 16 = (Config.gcmTag x.kin (x.sin ++ natLe 8 h.seq) (d.data.take 24) c).toNat ∧
      b = xorBytes c (Config.gcmStream x.kin (x.sin ++ natLe 8 h.seq) h.len)

/-- The state once such a message has been authenticated: the session's peer is its sender. -/
def State.heard (s : State) (d : Dgram) : State :=
  s.modSess (RHdr.read d.data).sid fun y => { y with mac := d.mac, ip := d.src, udp := d.sport }

/-- The state in which such a message acts: it has been taken in, and an ACK is due. -/
def State.tookIn (s : State) (d : Dgram) (ty : Nat) (b : List Byte) : State :=
  let h := RHdr.read d.data
  (s.heard d).modSess h.sid fun y =>
    { y with ackDue := true, rxSince := y.rxSince + 1, rxBuf := dropAt (y.rxBuf ++ [(h.seq, ty, b)]) 0, rxNext := y.rxNext + 1 }

end Sys2Proof.Machine

/-- For every command c and state s with c at the front of its queue, the step is exec of c on s with the rest of the queue. (The
queue is the model's own form of the outside world: log entry 1.) -/
def Obligations.StepRunsFrontCommand : Prop :=
  ∀ (s : State) (c : Instr) (rest : List Instr), s.pending = c :: rest → step s = exec c { s with pending := rest }

/-- With an empty queue a module that does not run idles: the step answers the same state. A running module passes one fabric
cycle: the step answers a state with an empty queue, the same flash, fuses, power and grade. (What a step does on an empty queue
is the model's choice: log entry 1.) -/
def Obligations.EmptyQueueStep : Prop :=
  ∀ s : State, s.pending = [] →
    (s.runs = false → step s = .next s) ∧
    (s.runs = true → ∃ t, step s = .next t ∧ t.pending = [] ∧ t.grade = s.grade ∧ t.flash = s.flash ∧ t.fuse = s.fuse ∧ t.pwr = s.pwr)

/-- State.reset has its memory in the canonical form, eight Ethernet ports, and no command waiting. -/
def Obligations.ResetIsSound : Prop :=
  State.reset.sound = true ∧ State.reset.pending = []

/-- After reset the boot status shows no stage and no failure and the module is not at service ready; every move stream is
disabled with HEAD and TAIL 0 and no expected SEQ (R64, R70); every region is UNDEFINED (R53, R418); every watchdog limit is 2^20
cycles (R271); every scoresheet is off with PERIOD 0x0A and SIZE 1 (R278); every barrier register is 0 but for LEVELS 1 (R265); no
session is open; partition 0 holds every block, stack, membership context and share of a GX9-3072 (R412). (That the model's reset
is a GX9-3072 with factory settings is log entries 3 to 5.) -/
def Obligations.ResetLeaves : Prop :=
  (∀ p, (State.reset.part p).ms = Stream.reset) ∧
  (∀ p, (State.reset.part p).ms.en = false ∧ (State.reset.part p).ms.head = 0 ∧ (State.reset.part p).ms.tail = 0 ∧
    (State.reset.part p).ms.expect = none) ∧
  (∀ p r, (State.reset.region p r).state = .undefined) ∧
  (∀ p, (State.reset.part p).watch.log2 = 20 ∧ (State.reset.part p).watch.valid = false) ∧
  (∀ p, (State.reset.part p).sheet.en = false ∧ (State.reset.part p).sheet.period = 0x0A ∧ (State.reset.part p).sheet.size = 1) ∧
  (∀ p, (State.reset.part p).barrier.levels = 1 ∧ (State.reset.part p).barrier.en = false ∧ (State.reset.part p).barrier.busy = false) ∧
  (∀ p, (State.reset.part p).job = none) ∧
  (∀ c, (State.reset.core c).owner = none) ∧
  State.reset.sess = [] ∧ State.reset.pwr.ready = false ∧ State.reset.pwr.boot.word = 0 ∧
  State.reset.grade = .gx9_3072 ∧ (State.reset.part 0).grant = GrantR.all .gx9_3072 ∧
  (∀ p, p ≠ 0 → (State.reset.part p).grant = GrantR.empty)

/-- From every sound state (memory in its canonical form, eight ports), not only those that a run from reset meets, whatever
stands in the queue, a step that answers a next state answers a sound one. -/
def Obligations.StepKeepsSound : Prop :=
  ∀ s t : State, s.sound = true → step s = .next t → t.sound = true

/-- A command that answers a next state leaves the queue of waiting commands and the grade of the module as they were, whatever
the command and the state. -/
def Obligations.CommandsKeepQueueAndGrade : Prop :=
  ∀ (i : Instr) (s t : State), exec i s = .next t → t.pending = s.pending ∧ t.grade = s.grade

/-- Whatever the command and the state, a command that answers a next state leaves a security version in the fuses that is at
least the one before; the same of every step. (R453: the fuses only rise.) -/
def Obligations.SecurityVersionNeverFalls : Prop :=
  (∀ (i : Instr) (s t : State), exec i s = .next t → s.fuse.svn ≤ t.fuse.svn) ∧ ∀ s t : State, step s = .next t → s.fuse.svn ≤ t.fuse.svn

/-- A command that is not in the list of those that may write memory (Instr.mayWriteMemory), when it answers a next state, leaves
every byte of the stacks, of shared memory, of core memory and of accumulator memory as it read before, and the memory itself
equal. -/
def Obligations.MemoryFrame : Prop :=
  ∀ (i : Instr) (s t : State), exec i s = .next t → i.mayWriteMemory = false →
    t.mem = s.mem ∧ ∀ a, t.mem.byte a = s.mem.byte a

/-- A command that is not in the list of those that may write the flash (Instr.mayWriteFlash), when it answers a next state,
leaves the bank select records, the firmware banks, the settings slots, the event log of trips and the fuses as they were. -/
def Obligations.FlashFrame : Prop :=
  ∀ (i : Instr) (s t : State), exec i s = .next t → i.mayWriteFlash = false → t.flash = s.flash ∧ t.fuse = s.fuse

/-- A command that is not in the list of those that may change power (Instr.mayChangePower), in particular every mailbox command,
every frame and every event of the fabric, when it answers a next state, leaves the pins, the power and thermal controllers, the
boot status word, the sideband registers, the sideband's answer and the fabric clock as they were. -/
def Obligations.PowerFrame : Prop :=
  ∀ (i : Instr) (s t : State), exec i s = .next t → i.mayChangePower = false → t.pwr = s.pwr ∧ t.smbOut = s.smbOut ∧ t.clock = s.clock

/-- Every command answers a next state, whatever the state: none faults and none is refused. A command that names a core outside the
grid of its grade, a partition above 7, a region above 255, or a stack, context, port, die or array that does not exist
(State.has) leaves the whole state as it is: there is nothing it could act on (the model's choice: log entry 32). -/
def Obligations.EveryCommandAnswers : Prop :=
  ∀ (i : Instr) (s : State), (∃ t, exec i s = .next t) ∧ (s.has i = false → exec i s = .next s)

/-- Before service ready, and after a trip or the loss of power, every command of the fabric, of the stacks, of network B, of
Ranow sessions, of the mailbox and of the management firmware leaves the whole state as it is; only the commands in
Instr.actsWhenStopped (power, pins, heat, sideband, start, session setup, and the ports' own answers and links) may act. -/
def Obligations.NothingRunsInAModuleThatIsOff : Prop :=
  ∀ (i : Instr) (s t : State), s.runs = false → i.actsWhenStopped = false → exec i s = .next t → t = s

/-- A command completion, an event to a partition and a record to a partition change nothing but sessions, the Ethernet ports that
carry them, and, per partition, the records held for want of a session and their count; the sessions open stay the same. -/
def Obligations.RecordsTouchOnlySessions : Prop :=
  ∀ (s t : State) (o : Org) (op code p : Nat) (data : List Byte) (e : Ev) (r : Rec),
    (t = s.complete o op code data ∨ t = s.event p code e ∨ t = s.notify p r) →
      t = { s with sess := t.sess, ports := t.ports, parts := t.parts } ∧
      (∀ q, t.part q = { s.part q with held := (t.part q).held, lost := (t.part q).lost }) ∧
      t.sess.map (·.sid) = s.sess.map (·.sid)

/-- A REGION_DEFINE (with a rectangle in the order of R7) or REGION_RELEASE that the firmware takes and whose region is LOADING,
RUNNING or HELD completes with REGION_BUSY and changes nothing else; with a running deferred command on the region it completes
BUSY (R391). Redefining a region with a different rectangle leaves no setup staged for it in the book; redefining it with the same
rectangle leaves the book as it is. -/
def Obligations.RegionCommandsRefuseBusyRegions : Prop :=
  (∀ (s : State) (o : Org) (p r : Nat) (rect : Rect), s.servedBy o p → s.holdsRegion p r = false →
    ((s.region p r).state = .loading ∨ (s.region p r).state = .running ∨ (s.region p r).state = .held) →
      (rect.f0 ≤ rect.f1 → rect.k0 ≤ rect.k1 →
        exec (.regionDefine o r rect) s = .next (s.complete o 0x0020 0x0141 [])) ∧
      exec (.regionRelease o r) s = .next (s.complete o 0x0021 0x0141 [])) ∧
  (∀ (s : State) (o : Org) (p r : Nat) (rect : Rect), s.servedBy o p → s.holdsRegion p r = true →
      exec (.regionDefine o r rect) s = .next (s.complete o 0x0020 0x0003 []) ∧
      exec (.regionRelease o r) s = .next (s.complete o 0x0021 0x0003 [])) ∧
  (∀ (s : State) (p r : Nat) (rect : Rect), (s.region p r).state ≠ .undefined → (s.region p r).rect ≠ rect →
    ∀ b ∈ (s.defineRegion p r rect).book, ¬(b.part = p ∧ b.region = r)) ∧
  (∀ (s : State) (p r : Nat), (s.region p r).state ≠ .undefined →
    (s.defineRegion p r (s.region p r).rect).book = s.book)

/-- A REGION_DEFINE that the rules accept completes OK: the region is defined over the rectangle, in IDLE, and its digest record
starts anew. A REGION_RELEASE of a region in IDLE, READY or QUARANTINED completes OK: the region is UNDEFINED. After the definition
the rectangle's cores belong to the region, with no tile and no unit at work, and their core and accumulator memories read as zero
at every byte. Completes: REGION_DEFINE, REGION_RELEASE. -/
def Obligations.RegionCommandsComplete : Prop :=
  (∀ (s : State) (o : Org) (p r : Nat) (rect : Rect), s.servedBy o p → s.holdsRegion p r = false → s.defineCode p r rect = Code.ok →
    exec (.regionDefine o r rect) s =
      .next (((s.defineRegion p r rect).modPart p fun x => { x with digs := SMap.set noDigest x.digs r noDigest }).complete o 0x0020 Code.ok [])) ∧
  (∀ (s : State) (o : Org) (p r : Nat), s.servedBy o p → s.holdsRegion p r = false →
    ((s.region p r).state = .idle ∨ (s.region p r).state = .ready ∨ (s.region p r).state = .quarantined) →
    exec (.regionRelease o r) s =
      .next (((s.releaseRegion p r).modPart p fun x => { x with digs := SMap.set noDigest x.digs r noDigest }).complete o 0x0021 Code.ok [])) ∧
  (∀ (s : State) (p r : Nat) (rect : Rect),
    ((s.defineRegion p r rect).region p r).state = .idle ∧ ((s.defineRegion p r rect).region p r).rect = rect ∧
    ((s.releaseRegion p r).region p r).state = .undefined ∧
    ∀ c ∈ rect.cores,
      ((s.defineRegion p r rect).core c).owner = some (p, r) ∧ ((s.defineRegion p r rect).core c).a0 = ArrayS.reset ∧
      ((s.defineRegion p r rect).core c).a1 = ArrayS.reset ∧ ((s.defineRegion p r rect).core c).unitsIdle = true ∧
      ∀ a, windowBase c ≤ a → a < windowBase c + 0x70000 → (s.defineRegion p r rect).mem.byte a = 0)

/-- With the stream disabled, a write to PART_MSBASE or a new value of SIZE in PART_MSCTL completes OK, sets the register, sets HEAD
and TAIL to 0, unsets the expected SEQ and leaves EN = 0; with EN = 1 it completes BUSY and changes nothing. A write of EN = 1 whose
ring lies in the view completes OK, sets EN and leaves STOPPED; one whose ring leaves the view completes BAD_ARGUMENT and changes
nothing. A write of EN = 0 completes OK and clears EN; HEAD, TAIL and SIZE stay. Completes: MOVE_STREAM_CONFIG_WRITE,
MOVE_STREAM_ENABLE, MOVE_STREAM_DISABLE. -/
def Obligations.MoveStreamRegisterWrites : Prop :=
  (∀ (s : State) (o : Org) (p v : Nat), s.servedBy o p → p < 8 → v < 2 ^ 48 → (s.part p).ms.en = false →
    exec (.moveStreamConfigWrite o false v) s = .next ((s.modMs p fun m =>
      { m with base := v / 2 ^ 12 * 4096, head := 0, tail := 0, expect := none, fetched := none }).complete o 0x0011 Code.ok [])) ∧
  (∀ (s : State) (o : Org) (p v : Nat), s.servedBy o p → p < 8 → v < 2 ^ 13 → v ≠ (s.part p).ms.size % 2 ^ 13 → (s.part p).ms.en = false →
    exec (.moveStreamConfigWrite o true v) s = .next (((s.modMs p fun m =>
      { m with size := v, head := 0, tail := 0, expect := none, fetched := none }).modMs p fun m => { m with en := false }).complete o 0x0011 Code.ok [])) ∧
  (∀ (s : State) (o : Org) (p v : Nat), s.servedBy o p → p < 8 → v < 2 ^ 48 → (s.part p).ms.en = true →
    exec (.moveStreamConfigWrite o false v) s = .next (s.complete o 0x0011 Code.busy []) ∧
    (v < 2 ^ 13 → v ≠ (s.part p).ms.size % 2 ^ 13 →
      exec (.moveStreamConfigWrite o true v) s = .next (s.complete o 0x0011 Code.busy []))) ∧
  (∀ (s : State) (o : Org) (p n : Nat), s.servedBy o p → p < 8 → n < 2 ^ 13 → (s.part p).ms.en = false →
    (1 ≤ n → n ≤ 4096 → s.sharedIn p (s.part p).ms.base (n * 4096) = true →
      exec (.moveStreamEnable o n) s = .next (((if n = (s.part p).ms.size % 2 ^ 13 then s else s.modMs p fun m =>
          { m with size := n, head := 0, tail := 0, expect := none, fetched := none }).modMs p fun m =>
        { m with en := true, stopped := if m.en then m.stopped else false }).complete o 0x0011 Code.ok [])) ∧
    (n = 0 ∨ 4096 < n ∨ s.sharedIn p (s.part p).ms.base (n * 4096) = false →
      exec (.moveStreamEnable o n) s = .next (s.complete o 0x0011 Code.badArgument []))) ∧
  (∀ (s : State) (o : Org) (p : Nat), s.servedBy o p → p < 8 →
    exec (.moveStreamDisable o) s = .next ((s.modMs p fun m => { m with en := false }).complete o 0x0011 Code.ok []))

/-- When an abort of the current job is taken and the job has not failed and is not at its retire point (some lane is left that does
not retire in this cycle), the job fails with ABORTED charged to no region, it is stopping, none of its regions has a pending lane
or a load left, and the remaining moves are to be skipped unless the LAST one was fetched; no byte of memory changes. JOB_ABORT of
the last ended job completes with ABORT_NO_EFFECT if it ended OK and with its code otherwise, and of any other job with
BAD_ARGUMENT. Completes: MOVE_STREAM_ABORT, JOB_ABORT. -/
def Obligations.AbortStopsTheJob : Prop :=
  (∀ (s : State) (o : Org) (p : Nat) (j : Job), s.servedBy o p → p < 8 → (s.part p).job = some j → j.fail = none →
    (∃ m ∈ j.moves, 0 < m.2 ∧ ∀ r ∈ j.regions, s.retireReady p r = false) →
    (∃ t, exec (.moveStreamAbort o) s = .next t ∧
      (t.part p).job = some { j with fail := some (0x0001, none, none), stopping := true } ∧
      (t.part p).ms.ended = some j.id ∧ (t.part p).ms.skipping = !j.lastSeen ∧ (t.part p).ms.fetched = none ∧
      (∀ r ∈ j.regions, (t.region p r).pend = none ∧ (t.region p r).load = none ∧ (t.region p r).stopping = true) ∧ t.mem = s.mem) ∧
    ∃ t, exec (.jobAbort o j.id) s = .next t ∧
      (t.part p).job = some { j with fail := some (0x0001, none, none), stopping := true } ∧
      (t.part p).aborts = (s.part p).aborts ++ [o] ∧
      (∀ r ∈ j.regions, (t.region p r).pend = none ∧ (t.region p r).load = none ∧ (t.region p r).stopping = true) ∧ t.mem = s.mem) ∧
  (∀ (s : State) (o : Org) (p n code : Nat), s.servedBy o p → (s.part p).job = none → (s.part p).lastJob = some (n, code) →
    exec (.jobAbort o n) s = .next (s.complete o 0x0022 (if code = 0 then 0x0002 else code) []) ∧
    ∀ m, m ≠ n → exec (.jobAbort o m) s = .next (s.complete o 0x0022 0x0005 []))

/-- With the fetch free and a move at HEAD that may be fetched, in order and whole, that opens a job: its lanes are held for
dispatch, the job is open with them, the next expected SEQ is one more modulo 65,536, and the fetch is busy for a cycle per 64 bytes
of the move. A good WRAP header sends HEAD to 0 and advances the expected SEQ. A header that R66, R67 or R70 forbids fails the job
with MOVE_FORMAT; one whose SEQ is the expected one advances the expected SEQ all the same. A header beyond correction fails the job
with UNCORRECTABLE_DATA. While the fetch is busy nothing is fetched. (That a header without lanes takes one cycle is the model's
choice: log entry 113; so is that a WRAP header with lanes is malformed: log entry 110.) Completes: MOVE_FETCH. -/
def Obligations.MoveFetchTakesTheNextMove : Prop :=
  (∀ (s u : State) (p : Nat) (hb : List Byte) (ok : Bool), s.runs = true → p < 8 → (s.part p).mayFetch = true → s.fetchAt ≤ s.now →
      (s.part p).ms.skipping = false → s.sharedRead p ((s.part p).ms.base + (s.part p).ms.head) 16 = (u, hb, ok) →
    let m := (s.part p).ms
    let h := MoveHdr.read hb
    let one := { u with fetchAt := s.now + 1 }
    (∀ (v : State) (b : List Byte),
      { s with fetchAt := s.now + fetchCycles h.bytes }.sharedRead p (m.base + m.head) h.bytes = (v, b, true) →
      let lanes := (List.range h.lanes).map fun i => Lane.read h.job m.nextMove (slice b (16 + 32 * i) 32)
      ok = true → h.inOrder m = true → h.fits m = true → h.wrap = false → h.bytes ≤ m.avail → (s.part p).job = none → h.jobstart = true →
      noDup (lanes.map (·.region)) = true → lanes.all (fun l => l.good (s.part p) ((s.part p).allot s.grade)) = true →
      ∃ t, exec (.moveFetch p) s = .next t ∧ t.fetchAt = s.now + cdiv h.bytes 64 ∧
        (t.part p).ms.fetched = some ⟨m.nextMove, h.job, h.last, h.sync, h.bytes, lanes⟩ ∧
        (t.part p).ms.expect = some ((h.seq + 1) % 65536) ∧ (t.part p).ms.head = m.head ∧
        (t.part p).job = some ⟨h.job, [], [(m.nextMove, h.lanes)], h.last, none, false, false⟩ ∧
        (∀ q, q ≠ p → t.part q = s.part q) ∧ t.mem = s.mem) ∧
    (ok = true → h.inOrder m = true → h.fits m = true → h.wrap = true →
      ∃ t, exec (.moveFetch p) s = .next t ∧ (t.part p).ms.head = 0 ∧ (t.part p).ms.expect = some ((h.seq + 1) % 65536) ∧
        (t.part p).job = (s.part p).job ∧ (∀ q, q ≠ p → t.part q = s.part q) ∧ t.mem = s.mem) ∧
    (ok = true → h.inOrder m = false → exec (.moveFetch p) s = .next (one.moveFormat p h)) ∧
    (ok = true → h.inOrder m = true → h.fits m = false → exec (.moveFetch p) s =
      .next ((one.modMs p fun m => { m with expect := some ((h.seq + 1) % 65536) }).moveFormat p h)) ∧
    (ok = false → exec (.moveFetch p) s = .next (one.moveFail p h Code.uncorrectableData))) ∧
  (∀ (s : State) (p : Nat), s.now < s.fetchAt → exec (.moveFetch p) s = .next s)

/-- When partition p, the i-th after the partition last served, has a lane ready and none of those before it in that order has, a
dispatch in a free cycle hands exactly p's first lane to the pending place of its region, p becomes the partition last served, and
the next dispatch comes no earlier than the next cycle; the other partitions are unchanged. With no lane ready nothing changes.
Whether a partition has a lane ready depends on that partition alone. Completes: LANE_DISPATCH. -/
def Obligations.LaneDispatchServesPartitionsInTurn : Prop :=
  (∀ (s : State) (i : Nat) (v : Move) (l : Lane) (rest : List Lane), s.runs = true → i < 8 →
    let p := (s.lastPart + 1 + i) % 8
    s.laneReady p = true → (∀ k < i, s.laneReady ((s.lastPart + 1 + k) % 8) = false) → s.dispAt ≤ s.now →
    (s.part p).ms.fetched = some v → v.lanes = l :: rest → (s.region p l.region).state ≠ .undefined →
    ∃ t, exec .laneDispatch s = .next t ∧ t.lastPart = p ∧ t.dispAt = s.now + 1 ∧ (t.region p l.region).pend = some l ∧
      (t.part p).ms.fetched = (if rest = [] then none else some { v with lanes := rest }) ∧
      (∀ q, q ≠ p → t.part q = s.part q) ∧ (∀ r, r ≠ l.region → t.region p r = s.region p r) ∧ t.mem = s.mem ∧ t.cores = s.cores) ∧
  (∀ s : State, (∀ p < 8, s.laneReady p = false) → exec .laneDispatch s = .next s) ∧
  (∀ (s u : State) (p : Nat), s.part p = u.part p → s.laneReady p = u.laneReady p)

/-- A pending lane of a region with none running, not quarantined: with RECONF = 1 it becomes the running lane, the region is
LOADING and the drain begins; with RECONF = 0, in a region that is not IDLE and whose program holds START, it becomes the running
lane of a region in HELD, at START or at the retained position, with the counter updates applied, its wait armed as FWAIT says and
its tempos as TEMPO says. A lane to an IDLE region without RECONF, or to a QUARANTINED region, fails the job with REGION_NOT_READY.
A lane that waits on a chip flag that is set passes; with bit 14 the flag is cleared. Completes: LANE_START, LANE_FWAIT_PASS. -/
def Obligations.LaneStartsAndWaits : Prop :=
  (∀ (s : State) (p r : Nat) (l : Lane), s.live p r → (s.region p r).run = none → (s.region p r).pend = some l →
      (s.region p r).stopping = false → (s.region p r).state ≠ .quarantined →
    (l.reconf = true → ∃ t, exec (.laneStart p r) s = .next t ∧ (t.region p r).state = .loading ∧ (t.region p r).pend = none ∧
      (t.region p r).run = some ⟨l, false, if l.tempo = 0xFFFFFFFF then none else some l.tempo, false⟩ ∧
      (t.region p r).load = some ⟨.drain, s.now, none, Tables.empty, []⟩ ∧
      (∀ q i, ¬(q = p ∧ i = r) → t.region q i = s.region q i) ∧ t.mem = s.mem ∧ t.cores = s.cores) ∧
    (l.reconf = false → (s.region p r).state ≠ .idle → (l.keeppc = true ∨ l.start < (s.region p r).tab.prog.length) →
      ∃ t, exec (.laneStart p r) s = .next t ∧ (t.region p r).state = .held ∧ (t.region p r).pend = none ∧
      (t.region p r).gpos = (if l.keeppc then { (s.region p r).gpos with lc := l.updates (s.region p r).gpos.lc }
        else { pc := l.start, rep := 0, lc := l.updates (s.region p r).gpos.lc, cld := none }) ∧
      (t.region p r).run = some ⟨l, bit l.fwait 15, if l.tempo = 0xFFFFFFFF then none else some l.tempo, l.tempo == 0⟩ ∧
      (∀ q i, ¬(q = p ∧ i = r) → t.region q i = s.region q i) ∧ t.mem = s.mem ∧ t.cores = s.cores)) ∧
  (∀ (s : State) (p r : Nat) (l : Lane), s.live p r → (s.region p r).run = none → (s.region p r).pend = some l →
      (s.region p r).stopping = false →
      ((s.region p r).state = .quarantined ∨ (s.region p r).state = .idle ∧ l.reconf = false) →
    exec (.laneStart p r) s = .next ((s.modRegion p r fun g => { g with pend := none }).failJob p 0x0134 (some r) none)) ∧
  (∀ (s : State) (p r : Nat) (x : LaneRun), s.live p r → (s.region p r).run = some x → x.fwait = true →
      ((s.part p).cflag (bits x.lane.fwait 7 0)).read s.now = true → (s.region p r).load = none → (s.region p r).stopping = false →
    exec (.laneFwaitPass p r) s = .next
      (let u := s.modRegion p r fun g => { g with run := some { x with fwait := false } }
       if bit x.lane.fwait 14 then u.setChipFlag p (bits x.lane.fwait 7 0) ⟨false, 1, none, r, 0⟩ else u))

/-- In LOADING, the drain ends once the granted tempos have executed and every unit of the region has ended, and the freeze begins;
8 cycles later the freeze ends and the read of the staged setup of the lane's number begins, with the setup that the book then
holds; after ceil(T/512) + 24 cycles the read ends: without a staged setup the load fails with SETUP_MISSING and the region is
QUARANTINED, with one and no uncorrectable word the check begins; 32 cycles later the check ends: a header or table that the rules
forbid fails the load with its code, otherwise the read of the sections begins with what each die has to read. In the other regions
and in memory nothing changes where the phase succeeds. Completes: RECONF_DRAIN_END, RECONF_FREEZE_END, RECONF_TABLES_END,
RECONF_CHECK_END. -/
def Obligations.ReloadDrainFreezeTablesAndCheck : Prop :=
  (∀ (s : State) (p r : Nat) (l : Load), s.live p r → (s.region p r).load = some l → l.phase = .drain → l.since + 1 ≤ s.now →
      (s.region p r).granted = [] → s.unitsIdle (s.region p r) = true →
    exec (.reconfDrainEnd p r) s = .next (s.modRegion p r fun g => { g with load := some { l with phase := .freeze, since := s.now } })) ∧
  (∀ (s : State) (p r : Nat) (l : Load) (x : LaneRun), s.live p r → (s.region p r).load = some l → l.phase = .freeze → l.since + 8 ≤ s.now →
      (s.region p r).run = some x →
    exec (.reconfFreezeEnd p r) s = .next (s.modRegion p r fun g =>
      { g with load := some { l with phase := .tables, since := s.now,
                                     staged := s.book.find? fun b => b.part == p && b.region == r && b.setup == x.lane.setup } })) ∧
  (∀ (s : State) (p r : Nat) (l : Load) (us : List Upset), s.live p r → (s.region p r).load = some l → l.phase = .tables →
      l.since + (cdiv l.tbytes 512 + 24) ≤ s.now → (s.bookReads us).2 = false →
    (l.staged = none → exec (.reconfTablesEnd p r us) s = .next ((s.bookReads us).1.loadFail p r 0x0130)) ∧
    (∀ b, l.staged = some b → exec (.reconfTablesEnd p r us) s = .next ((s.bookReads us).1.modRegion p r fun g =>
      { g with load := some { l with phase := .check, since := s.now, tab := Tables.read (SetupHdr.read b.tables) b.tables } }))) ∧
  (∀ (s : State) (p r : Nat) (l : Load) (b : Staged), s.live p r → (s.region p r).load = some l → l.phase = .check → l.since + 32 ≤ s.now →
      l.staged = some b →
    let code := checkTables (s.pview p) (s.region p r).rect b.tables (s.steeredOthers p r) Code.ok Code.setupFormat Code.steerLimit
    (code ≠ Code.ok → exec (.reconfCheckEnd p r) s = .next (s.loadFail p r code)) ∧
    (code = Code.ok → exec (.reconfCheckEnd p r) s = .next (s.modRegion p r fun g => { g with load := some { l with
        phase := .sections, since := s.now,
        left := (List.range 4).map fun d =>
          cdiv ((b.sects.filter fun y => dieOfCore y.1 == d).foldl (fun n y => n + y.2.length) 0) 512 } }))) ∧
  (∀ (s : State) (p r code : Nat), ((s.loadFail p r code).region p r).state = .quarantined ∧
    ((s.loadFail p r code).region p r).load = none ∧ ((s.loadFail p r code).region p r).run = none)

/-- The book port of a die, free in this cycle, serves one 512-byte unit to the region whose sequencer is next in increasing number
after the one it served last, from the cycle after that region's check on, and only that region's count of units falls. Once every
die has delivered, sections that are malformed fail the load with SETUP_FORMAT, sections whose accumulator windows do not fit with
ACCUM_CAPACITY, queues with entries that the setup does not declare with QUEUE_RESIDUE; otherwise the register phase begins. 16
cycles later every core of the region has the registers, queues, routes and flags of its section and the region has the tables; 4 or
18 cycles later the load is over, its lane starts in HELD, and the first tempo may be granted in the next cycle. Completes:
BOOK_SECTION_UNIT, RECONF_SECTIONS_END, RECONF_REGISTERS_END, RECONF_RELEASE. -/
def Obligations.ReloadSectionsRegistersAndRelease : Prop :=
  (∀ (s : State) (d p r : Nat) (l : Load) (n : Nat), s.runs = true → d < 4 → p < 8 → (r, s.region p r) ∈ s.regionsOf p →
      (s.region p r).load = some l → l.phase = .sections → l.since < s.now → nth 0 l.left d = n + 1 → nth 0 s.bookAt d ≤ s.now →
      let turn := fun (q : Nat) => if nth 0 s.lastSeq d < q then q else q + 256
      (∀ q y x, q < 8 → y ∈ s.regionsOf q → y.2.load = some x → x.phase = .sections → x.since < s.now → 0 < nth 0 x.left d →
        (q = p ∧ y = (r, s.region p r)) ∨ turn (s.region p r).seq < turn y.2.seq) →
    ∃ t, exec (.bookSectionUnit d) s = .next t ∧ (t.region p r).load = some { l with left := modAt l.left d (· - 1) } ∧
      t.lastSeq = putAt s.lastSeq d (s.region p r).seq ∧ t.bookAt = putAt s.bookAt d (s.now + 1) ∧
      (∀ q i, ¬(q = p ∧ i = r) → t.region q i = s.region q i) ∧ t.mem = s.mem ∧ t.book = s.book) ∧
  (∀ (s : State) (p r : Nat) (l : Load) (b : Staged) (us : List Upset), s.live p r → (s.region p r).load = some l → l.phase = .sections →
      l.left.all (· == 0) = true → l.staged = some b → (s.bookReads us).2 = false →
    let u := (s.bookReads us).1
    (sectionsOk (u.pview p) (u.region p r).rect l.tab b.sects = false →
      exec (.reconfSectionsEnd p r us) s = .next (u.loadFail p r Code.setupFormat)) ∧
    (sectionsOk (u.pview p) (u.region p r).rect l.tab b.sects = true → sectionsFit b.sects = false →
      exec (.reconfSectionsEnd p r us) s = .next (u.loadFail p r Code.accumCapacity)) ∧
    (sectionsOk (u.pview p) (u.region p r).rect l.tab b.sects = true → sectionsFit b.sects = true →
      (b.sects.all fun x => residueOk (u.core x.1) (Sect.read x.2)) = false →
      exec (.reconfSectionsEnd p r us) s = .next (u.loadFail p r Code.queueResidue)) ∧
    (sectionsOk (u.pview p) (u.region p r).rect l.tab b.sects = true → sectionsFit b.sects = true →
      (b.sects.all fun x => residueOk (u.core x.1) (Sect.read x.2)) = true →
      ∃ t, exec (.reconfSectionsEnd p r us) s = .next t ∧ (t.region p r).load = some { l with phase := .registers, since := s.now } ∧
        t.mem = s.mem)) ∧
  (∀ (s : State) (p r : Nat) (l : Load) (b : Staged) (x : LaneRun), s.live p r → (s.region p r).load = some l → l.phase = .registers →
      l.since + 16 ≤ s.now → l.staged = some b → (s.region p r).run = some x →
    ∃ t, exec (.reconfRegistersEnd p r) s = .next t ∧ (t.region p r).load = some { l with phase := .release, since := s.now } ∧
      (t.region p r).tab = l.tab ∧ (t.region p r).setup = x.lane.setup ∧ (t.region p r).gpos = Pos.zero ∧
      (∀ y ∈ b.sects, (∀ z ∈ b.sects, z.1 = y.1 → z.2 = y.2) → (t.core y.1).sect = Sect.read y.2) ∧ t.mem = s.mem) ∧
  (∀ (s : State) (p r : Nat) (l : Load) (x : LaneRun), s.live p r → (s.region p r).load = some l → l.phase = .release →
      l.since + (if (s.region p r).rect.spans then 18 else 4) ≤ s.now → (s.region p r).run = some x →
    ∃ t, exec (.reconfRelease p r) s = .next t ∧ (t.region p r).load = none ∧ (t.region p r).tau = 0 ∧ (t.region p r).gcyc = s.now + 1 ∧
      (x.lane.keeppc = true ∨ x.lane.start < (s.region p r).tab.prog.length → (t.region p r).state = .held ∧
        (t.region p r).run = some ⟨x.lane, bit x.lane.fwait 15, if x.lane.tempo = 0xFFFFFFFF then none else some x.lane.tempo, x.lane.tempo == 0⟩) ∧
      t.mem = s.mem)

/-- A grant whose conditions hold (R81, R251), in a job that has not failed and with no flag operation of the region held at a
frozen core (R84; log entry 100), debits the named slots, takes the count of a CLD entry, moves the position, counts the tempo, sets
HOLD to 0 and passes the gates that the entry names. When a condition of R81 fails, or such a flag operation holds the region, no
grant happens. The oldest granted tempo executes no earlier than 4 cycles (18 in a region that spans dies) after its grant: the
region is RUNNING, it has executed one tempo more, the tempo has left the granted ones, and the cores have started the actions of
the step where it is the entry's first and advanced every unit. Before that cycle it does not. Completes: TEMPO_GRANT,
TEMPO_EXECUTE. -/
def Obligations.TempoGrantAndExecute : Prop :=
  (∀ (s : State) (p r : Nat) (j : Job), s.live p r → (s.part p).job = some j → j.fail = none → (s.region p r).mayGrant s.now = true → s.senderHeld p r = false →
    exec (.tempoGrant p r) s = .next ((s.modRegion p r fun g => g.granted_ s.now).passGates p r
      ((s.region p r).tab.named ((s.region p r).tab.entry (s.region p r).gpos.pc)) (s.region p r).gpos.pc)) ∧
  (∀ (g : Region) (x : LaneRun) (now : Nat), g.run = some x →
    (g.granted_ now).hold = 0 ∧ (g.granted_ now).gcyc = now + 1 ∧ (g.granted_ now).granted.length = g.granted.length + 1 ∧
    (g.granted_ now).run = some { x with left := x.left.map (· - 1), done := ((g.tab.entry g.gpos.pc).last && g.gpos.rep == (g.tab.entry g.gpos.pc).rep) || x.left.map (· - 1) == some 0 } ∧
    (g.granted_ now).xpos = g.xpos ∧ (g.granted_ now).tab = g.tab) ∧
  (∀ (s : State) (p r : Nat) (x : LaneRun), s.live p r → (s.region p r).run = some x →
    (x.done = true ∨ x.fwait = true ∨ (s.region p r).load ≠ none ∨ (s.region p r).state = .quarantined ∨ (s.region p r).noCount = true ∨
      (s.region p r).starved s.now ((s.region p r).tab.entry (s.region p r).gpos.pc) ≠ [] ∨ (s.region p r).pressed s.now = true ∨
      s.senderHeld p r = true) →
    exec (.tempoGrant p r) s = .next s) ∧
  (∀ (s : State) (p r : Nat) (us : List Upset) (x : Grant) (rest : List Grant), s.live p r → (s.region p r).granted = x :: rest →
    (x.at_ + (if (s.region p r).rect.spans then 18 else 4) ≤ s.now → (s.region p r).xcyc ≤ s.now →
      ∃ t, exec (.tempoExecute p r us) s = .next t ∧ (t.region p r).granted = rest ∧ (t.region p r).tau = (s.region p r).tau + 1 ∧
        (t.region p r).xcyc = s.now + 1 ∧ ((s.region p r).state = .held → (t.region p r).state = .running)) ∧
    (s.now < x.at_ + (if (s.region p r).rect.spans then 18 else 4) → exec (.tempoExecute p r us) s = .next s)) ∧
  (∀ (s : State) (p r : Nat), ∀ us : List Upset, s.live p r → (s.region p r).granted = [] → exec (.tempoExecute p r us) s = .next s)

/-- A lane that is done, with no granted tempo, no unit at work and no stack request open, retires: the region has no running lane,
is READY, keeps its tables and its position, and FSET acts on the chip flag, as the next cycle reads it where no other operation of
this cycle met it. A job whose stop has ended posts its record: its regions have no lane, are IDLE (the charged region QUARANTINED),
the partition has no job, its last ended job is this one with its code, and the stream is STOPPED. Completes: LANE_RETIRE,
JOB_STOP_DRAIN_END. -/
def Obligations.LaneRetireAndJobStopEnd : Prop :=
  (∀ (s : State) (p r : Nat) (x : LaneRun), s.live p r → s.retireReady p r = true → (s.region p r).run = some x →
    exec (.laneRetire p r) s = .next (s.retireLane p r) ∧
    ∃ t, exec (.laneRetire p r) s = .next t ∧ (t.region p r).run = none ∧ (t.region p r).state = .ready ∧
      (t.region p r).gpos = (s.region p r).gpos ∧ (t.region p r).tab = (s.region p r).tab ∧ (t.region p r).setup = (s.region p r).setup ∧
      (bit x.lane.fset 15 = true → ((s.part p).cflag (bits x.lane.fset 7 0)).stamp ≠ s.now + 1 →
        ((t.part p).cflag (bits x.lane.fset 7 0)).read (s.now + 1) = !bit x.lane.fset 14) ∧ t.mem = s.mem) ∧
  (∀ (s : State) (p code : Nat) (j : Job) (charge core : Option Nat), s.runs = true → p < 8 → s.stopDone p = true →
      (s.part p).job = some j → j.fail = some (code, charge, core) → code ≠ Code.ok →
    ∃ t, exec (.jobStopDrainEnd p) s = .next t ∧ (t.part p).job = none ∧ (t.part p).lastJob = some (j.id, code) ∧
      (t.part p).ms.stopped = true ∧ (t.part p).ms.skipping = false ∧
      (∀ r ∈ j.regions, (t.region p r).run = none ∧ (t.region p r).pend = none ∧ (t.region p r).stopping = false ∧
        (t.region p r).state = (if (s.region p r).state = .quarantined ∨ (code ≠ Code.regionNotReady ∧ charge = some r) then .quarantined else .idle)) ∧
      t.mem = s.mem)

/-- An action of a core of a running region that its section lists as a WLOAD starts a weight load on the array (both for the pair)
where no weight load is on it; without a tile descriptor it begins with no tile step, with one it takes the descriptor's next weight
step. A STREAM starts a stream on the array at its first step; with a descriptor it takes the next tile step. An ACLR starts where
the array is free and takes its window. Each is what the core's tempo then holds; a WLOAD on an array with a weight load raises
ARRAY_OVERLAP. Completes: WLOAD, STREAM, ACLR. -/
def Obligations.MatrixInstructionsStart : Prop :=
  (∀ (s : State) (f k arr idx : Nat) (i : MatI), s.actsIn f k → arr < 2 → idx ≠ 0 → (s.sect f k).mats[idx - 1]? = some i → i.op = 1 →
    let a := if i.pair then 2 else arr
    ((s.core (coreId f k)).wloads.any (fun w => arrMeet w.arr a) = false → i.tile = 0 →
      exec (.wload f k arr idx) s = .next (s.startOne (coreId f k) fun x =>
        { x with core := { x.core with wloads := x.core.wloads ++ [⟨a, i, 0, none, []⟩] } })) ∧
    (∀ td u, (s.core (coreId f k)).wloads.any (fun w => arrMeet w.arr a) = false → i.tile ≠ 0 →
        (s.sect f k).tiles[i.tile - 1]? = some td → (s.sect f k).tuse (i.tile - 1) = u →
      exec (.wload f k arr idx) s = .next (s.startOne (coreId f k) fun x =>
        let ws := td.weightSteps u
        let p := x.core.dpos (i.tile - 1)
        let c := x.core.modPos (i.tile - 1) fun p => { p with wpos := if p.wpos + 1 < ws.length then p.wpos + 1 else 0 }
        { x with core := { c with wloads := c.wloads ++ [⟨a, i, 0, ws[p.wpos]?.map fun s => (p.wpos, s), []⟩] } })) ∧
    ((s.core (coreId f k)).wloads.any (fun w => arrMeet w.arr a) = true →
      exec (.wload f k arr idx) s = .next (s.startOne (coreId f k) fun x => x.raise (arrOrd a) Code.arrayOverlap))) ∧
  (∀ (s : State) (f k arr idx : Nat) (i : MatI), s.actsIn f k → arr < 2 → idx ≠ 0 → (s.sect f k).mats[idx - 1]? = some i → i.op = 2 →
    let a := if i.pair then 2 else arr
    (i.tile = 0 → exec (.stream f k arr idx) s = .next (s.startOne (coreId f k) fun x =>
        { x with core := { x.core with streams := x.core.streams ++ [⟨a, i, x.pc, 0, none, [], [], [], 0, []⟩] } })) ∧
    (∀ td u, i.tile ≠ 0 → (s.sect f k).tiles[i.tile - 1]? = some td → (s.sect f k).tuse (i.tile - 1) = u → td.ofEn = false →
      exec (.stream f k arr idx) s = .next (s.startOne (coreId f k) fun x =>
        let steps := td.tileSteps u
        let p := x.core.dpos (i.tile - 1)
        let c := x.core.modPos (i.tile - 1) fun p => { p with spos := if p.spos + 1 < steps.length then p.spos + 1 else 0, ofsv := 0 }
        { x with core := { c with streams := c.streams ++ [⟨a, i, x.pc, 0, steps[p.spos]?.map fun s => (s, 0), [], [], [], p.spos, []⟩] } }))) ∧
  (∀ (s : State) (f k arr idx : Nat) (i : MatI), s.actsIn f k → arr < 2 → idx ≠ 0 → (s.sect f k).mats[idx - 1]? = some i → i.op = 3 →
    let a := if i.pair then 2 else arr
    (s.core (coreId f k)).streams = [] → (s.core (coreId f k)).aclrs.any (fun y => arrMeet y.arr a) = false →
    exec (.aclr f k arr idx) s = .next (s.startOne (coreId f k) fun x =>
      { x with core := { x.core with aclrs := x.core.aclrs ++ [⟨a, i.arow, i.alen⟩] } }))

/-- A VEC action of a running region whose engine is free starts the chain program with its count (the counter's where NSEL is
enabled and the count is in range) and its seed. An RTE action has the route set loaded at the end of the tempo. A flag action sets
or clears: a flag of the core itself, a flag of a core behind a route that is not null, a flag of a named core, or a chip flag, with
the source that R267 records. Completes: VECTOR_CHAIN_PROGRAM, ROUTE_SET_LOAD, FLAG_SET, FLAG_CLEAR. -/
def Obligations.VectorRouteAndFlagActionsStart : Prop :=
  (∀ (s : State) (f k idx : Nat) (v : VecP), s.actsIn f k → idx ≠ 0 → (s.sect f k).vecs[idx - 1]? = some v →
      (s.core (coreId f k)).vrun = [] → v.nselEn = false →
    exec (.vectorChainProgram f k idx) s = .next (s.startOne (coreId f k) fun x =>
      { x with core := { x.core with vrun := x.core.vrun ++
        [{ p := v, n := v.count, seed := (v.seed + (if v.scEn then nth 0 x.lc v.scSel else 0)) % 4294967296, pc := x.pc, t := 0,
           drain := (v.stage? 9).map fun y => y.param - 1, seg := none, segN := 0, segOpen := false, outN := 0, pack := [], xbuf := [],
           consumed := 0, fetched := 0, xch := [], ych := [], writes := [], fl := VFlags.zero }] } })) ∧
  (∀ (s : State) (f k idx : Nat) (l : List Nat), s.actsIn f k → idx ≠ 0 → (s.sect f k).rtes[idx - 1]? = some l →
    exec (.routeSetLoad f k idx) s = .next (s.startOne (coreId f k) fun x => { x with rte := some (idx - 1) })) ∧
  (∀ (s : State) (f k idx : Nat) (a : FlagA), s.actsIn f k → idx ≠ 0 → (s.sect f k).flgs[idx - 1]? = some a →
    let w := RWord.read ((s.core (coreId f k)).route a.route).word
    (a.tgt = 1 → w.tgt ≠ 0) →
    let op := fun (x : TC) (dst : Nat) => (⟨a.op == 1, if dst = x.id then 2 else 3, some x.id, 0, x.pc⟩ : FlagOp)
    let act := fun (x : TC) =>
      if a.tgt = 0 then { x with ops := x.ops ++ [(some x.id, a.flag, op x x.id)] }
      else if a.tgt = 1 then { x with outs := x.outs ++ [(3, a.route, Cargo.flag a.flag (op x w.core))] }
      else if a.tgt = 2 then { x with ops := x.ops ++ [(some (coreId a.dfile a.drank), a.flag, op x (coreId a.dfile a.drank))] }
      else { x with ops := x.ops ++ [(none, a.flag, ⟨a.op == 1, 3, some x.id, 0, x.pc⟩)] }
    (a.op = 1 → exec (.flagSet f k idx) s = .next (s.startOne (coreId f k) act)) ∧
    (a.op = 2 → exec (.flagClear f k idx) s = .next (s.startOne (coreId f k) act)))

/-- A PAIR or DELIVER that is not in force at the core is put in force, with nothing taken in yet; one in force stays as it is. A
TOKGEN queues a token for its queue with the slot's running SEQ and the entry count of the last variable run, and the SEQ advances
modulo 256. (That PAIR and DELIVER stay in force until the next load is log entry 29.) Completes: PAIR, DELIVER, TOKGEN. -/
def Obligations.SteeringActionsStart : Prop :=
  (∀ (s : State) (f k idx : Nat) (a : SteerA), s.actsIn f k → idx ≠ 0 → (s.sect f k).strs[idx - 1]? = some a →
    (a.op = 1 → (s.core (coreId f k)).pairs.any (fun y => y.a == a) = false →
      exec (.pair f k idx) s = .next (s.startOne (coreId f k) fun x =>
        { x with core := { x.core with pairs := x.core.pairs ++ [⟨a, [], [], 0, none⟩] } })) ∧
    (a.op = 1 → (s.core (coreId f k)).pairs.any (fun y => y.a == a) = true →
      exec (.pair f k idx) s = .next (s.startOne (coreId f k) fun x => x)) ∧
    (a.op = 2 → (s.core (coreId f k)).delivs.any (fun y => y.a == a) = false →
      exec (.deliver f k idx) s = .next (s.startOne (coreId f k) fun x =>
        { x with core := { x.core with delivs := x.core.delivs ++ [⟨a, 0⟩] } })) ∧
    (a.op = 3 → exec (.tokgen f k idx) s = .next (s.startOne (coreId f k) fun x =>
      let ch := nth SteerCh.zero x.steer a.slot
      { x with
        steer := putAt x.steer a.slot { ch with gen := (ch.gen + 1) % 256 }
        core := { x.core with toks := x.core.toks ++ [(a.tchan, padTo 64 (natLe 1 ch.gen ++ natLe 1 0 ++ natLe 2 (s.core (coreId f k)).ventries))] } })))

/-- A CURSOR sets the array's input or weight cursor. A CASTLE of buffers whose fill flags are all set exchanges the halves of each
and clears the flags; with one flag clear it raises CASTLE_UNFILLED and exchanges none. A DMAIN or DMAOUT starts where none of its
kind runs and otherwise raises DMA_OVERLAP. An SMREQ sends one entry on its route where no DMAOUT runs and the route is not null. A
ROTATE starts in a core with a rotation area where none runs. Completes: CURSOR, CASTLE, DMAIN, DMAOUT, SMREQ, ROTATE. -/
def Obligations.MemoryActionsStart : Prop :=
  (∀ (s : State) (f k idx arr : Nat) (w : Bool) (b : BaseW) (st : Nat), s.actsIn f k → idx ≠ 0 →
      (s.sect f k).mems[idx - 1]? = some (.cursor arr w b st) →
    exec (.cursor f k idx) s = .next (s.startOne (coreId f k) fun x =>
      { x with
        core := x.core.modArr arr fun y =>
          if w then { y with wcur := ⟨b.ofs, b.cast, b.buf, st⟩ } else { y with icur := ⟨b.ofs, b.cast, b.buf, st⟩ }
        curs := (arr, w) :: x.curs })) ∧
  (∀ (s : State) (f k idx bufs : Nat), s.actsIn f k → idx ≠ 0 → (s.sect f k).mems[idx - 1]? = some (.castle bufs) →
    let c := s.core (coreId f k)
    let bs := (List.range 16).filter fun b => bit bufs b
    let full := bs.all fun b => match c.buf b with | some y => (c.flag y.d.flag).read s.now | none => false
    (full = true → exec (.castle f k idx) s = .next (s.startOne (coreId f k) fun x =>
      bs.foldl (fun x b => match x.core0.buf b with
        | none => x
        | some y => { x with core := x.core.castle b, ops := x.ops ++ [(some x.id, y.d.flag, ⟨false, 5, some x.id, 0, x.pc⟩)] }) x)) ∧
    (full = false → exec (.castle f k idx) s = .next (s.startOne (coreId f k) fun x => x.raise 3 Code.castleUnfilled))) ∧
  (∀ (s : State) (f k idx : Nat) (a : DmaA), s.actsIn f k → idx ≠ 0 →
    ((s.sect f k).mems[idx - 1]? = some (.dmain a) →
      ((s.core (coreId f k)).din = none → exec (.dmain f k idx) s = .next (s.startOne (coreId f k) fun x =>
        { x with core := { x.core with din := some ⟨a, x.pc, 0, 0⟩ } })) ∧
      ((s.core (coreId f k)).din ≠ none → exec (.dmain f k idx) s = .next (s.startOne (coreId f k) fun x => x.raise 3 Code.dmaOverlap))) ∧
    ((s.sect f k).mems[idx - 1]? = some (.dmaout a) →
      ((s.core (coreId f k)).dout = none → exec (.dmaout f k idx) s = .next (s.startOne (coreId f k) fun x =>
        { x with core := { x.core with dout := some ⟨a, x.pc, 0, 0⟩ } })) ∧
      ((s.core (coreId f k)).dout ≠ none → exec (.dmaout f k idx) s = .next (s.startOne (coreId f k) fun x => x.raise 3 Code.dmaOverlap)))) ∧
  (∀ (s : State) (f k idx route : Nat) (w : Bool) (dchan addr n stride : Nat), s.actsIn f k → idx ≠ 0 →
      (s.sect f k).mems[idx - 1]? = some (.smreq route w dchan addr n stride) → (s.core (coreId f k)).dout = none →
      (RWord.read ((s.core (coreId f k)).route route).word).tgt ≠ 0 →
    exec (.smreq f k idx) s = .next (s.startOne (coreId f k) fun x =>
      { x with outs := x.outs ++ [(1, route, Cargo.entry (smEntry route w dchan addr n stride))] })) ∧
  (∀ (s : State) (f k idx slot nt mode : Nat) (d : RotD), s.actsIn f k → idx ≠ 0 → (s.sect f k).mems[idx - 1]? = some (.rotate slot nt mode) →
      (s.core (coreId f k)).rot = some d → (s.core (coreId f k)).rots = [] →
    exec (.rotate f k idx) s = .next (s.startOne (coreId f k) fun x =>
      { x with core := { x.core with rots := x.core.rots ++ [⟨slot, nt, mode, 0, x.pc⟩] } }))

/-- After a CURSOR action of an array of a core of a running region, the core is the one before with the cursor set and nothing
else changed; every other core, every byte of memory, the mesh, the stacks, and every job and chip flag are as before. -/
def Obligations.CursorActionActsOnItsCoreAlone : Prop :=
  ∀ (s : State) (f k idx arr : Nat) (w : Bool) (b : BaseW) (st : Nat), s.actsIn f k → idx ≠ 0 →
      (s.sect f k).mems[idx - 1]? = some (.cursor arr w b st) →
    ∃ t, exec (.cursor f k idx) s = .next t ∧
      t.core (coreId f k) = (s.core (coreId f k)).modArr arr (fun y =>
        if w then { y with wcur := ⟨b.ofs, b.cast, b.buf, st⟩ } else { y with icur := ⟨b.ofs, b.cast, b.buf, st⟩ }) ∧
      (∀ c, c ≠ coreId f k → t.core c = s.core c) ∧ t.mem = s.mem ∧ t.mesh = s.mesh ∧ t.stks = s.stks ∧
      (∀ q, (t.part q).job = (s.part q).job ∧ (t.part q).cflags = (s.part q).cflags)

/-- The next item of a route leaves the output store of a core that may send. It has a credit (an entry) or needs none, and no item
of the route to the same end of a queue stands before it; the oldest item of the route that has its credit or needs none is it. It
becomes a flit at the router's local input with the route's binding, and an entry takes one credit; an UNBIND carries back the
unused credits of its binding, those on their way included. A free output port of a router forwards the flit that waits at the first
input after the one served last: between cores of one die it stands at the neighbour's facing input 2 cycles later, over a die
bridge 10 to 14 cycles more, and while the bridge's queue is full it stays; with no neighbour it leaves by the local port, the
vertical port or the outward side. A mesh port carries one flit in a cycle, a port to an edge unit or to the memory die two. An
entry at the local port that is ready enters its queue. (The depth of the bridge's queue is open: log entry 120; the time over the
bridge is a free value within R34's range.) Completes: OUTPUT_STORE_SEND, FLIT_FORWARD, ENTRY_ARRIVAL. -/
def Obligations.EntriesLeaveAndArrive : Prop :=
  (∀ (s : State) (f k route i : Nat) (o : OutE), s.onCore f k → let c := coreId f k
    (s.core c).nextOut route = some (i, o) → s.shutOut c = false →
    (∀ m, o.cargo ≠ .unbind m) →
    exec (.outputStoreSend f k route) s = .next
      (((s.setCore c ({ s.core c with out := dropAt (s.core c).out i }.setRoute route (o.after ((s.core c).route route)))).modRouter c fun x =>
        { x with inq := modAt x.inq 4 fun l => pushFlit l ⟨routeSrc c route o.ep, o.dst, o.leaving ((s.core c).route route), s.now,
            (match (s.core c).owner with | some (p, _) => p | none => 0), s.jobId (match (s.core c).owner with | some (p, _) => p | none => 0)⟩ }).pressure c)) ∧
  (∀ (s : State) (f k route i m : Nat) (o : OutE), s.onCore f k → let c := coreId f k
    (s.core c).nextOut route = some (i, o) → s.shutOut c = false → o.cargo = .unbind m →
    let u := (s.recall (routeSrc c route o.ep)).1
    exec (.outputStoreSend f k route) s = .next
      (((u.setCore c ({ s.core c with out := dropAt (s.core c).out i }.setRoute route (o.after ((s.core c).route route)))).modRouter c fun x =>
        { x with inq := modAt x.inq 4 fun l => pushFlit l ⟨routeSrc c route o.ep, o.dst,
            .unbind (((s.core c).route route).credits o.ep + (s.recall (routeSrc c route o.ep)).2), s.now,
            (match (s.core c).owner with | some (p, _) => p | none => 0), s.jobId (match (s.core c).owner with | some (p, _) => p | none => 0)⟩ }).pressure c)) ∧
  (∀ (k : Core) (route i : Nat) (o : OutE),
    (k.nextOut route = some (i, o) → k.out[i]? = some o ∧ o.route = route ∧ o.free_ (k.route route) = true ∧
      ∀ (j : Nat) (u : OutE), j < i → k.out[j]? = some u → u.route = route → u.sameEnd o = false) ∧
    (k.out[i]? = some o → o.route = route → o.free_ (k.route route) = true →
      (∀ (j : Nat) (u : OutE), j < i → k.out[j]? = some u → u.route ≠ route) → k.nextOut route = some (i, o))) ∧
  (∀ (o : OutE) (x : Route) (e : Entry), o.cargo = .entry e → (o.free_ x = true ↔ 0 < x.credits o.ep) ∧
    (o.ep = x.ep → (o.after x).credit = x.credit - 1 ∧ (o.after x).word = x.word)) ∧
  (∀ (s : State) (f k port i n d : Nat) (fl : Flit), s.onCore f k → let c := coreId f k
    let wide := widePort s.grade c port
    portFree wide (nth 0 (s.router c).freeAt port) s.now = true →
    ((inputOrder (nth 5 (s.router c).last port)).findSome? fun i => (waiting c port s.now (nth [] (s.router c).inq i)).map fun w => (i, w.1, w.2)) = some (i, n, fl) →
    let take := fun (x : Router) => { x with inq := modAt x.inq i fun l => dropAt l n, last := putAt x.last port i,
                                             freeAt := putAt x.freeAt port (portNext wide (nth 0 (s.router c).freeAt port) s.now) }
    let out := { fl with ready := if i = 4 then s.now + 2 else s.now }
    (neighbour s.grade c (RPort.ofNum port) = some d → nth false (s.router d).dead (RPort.ofNum port).facing.num = false →
      (dieOfCore c = dieOfCore d → exec (.flitForward f k port) s =
        .next ((s.modRouter c take).inject d (RPort.ofNum port).facing.num { fl with ready := s.now + 2 + 0 })) ∧
      (dieOfCore c ≠ dieOfCore d → s.crossFull c d (RPort.ofNum port).facing.num = false → exec (.flitForward f k port) s =
        .next ((s.fresh.1.modRouter c take).inject d (RPort.ofNum port).facing.num
          { fl with ready := s.now + 2 + (10 + Config.freeNat s.free % 5) })) ∧
      (s.crossFull c d (RPort.ofNum port).facing.num = true → exec (.flitForward f k port) s = .next s)) ∧
    (neighbour s.grade c (RPort.ofNum port) = none →
      (port = 4 → exec (.flitForward f k port) s = .next ((s.modRouter c take).modRouter c fun x => { x with arrL := x.arrL ++ [out] })) ∧
      (port = 5 → exec (.flitForward f k port) s = .next ((s.modRouter c take).modRouter c fun x => { x with arrV := x.arrV ++ [out] })) ∧
      (port < 4 → exec (.flitForward f k port) s = .next ((s.modRouter c take).modRouter c fun x => { x with arrE := x.arrE ++ [out] })))) ∧
  (∀ (s : State) (f k port : Nat), portFree (widePort s.grade (coreId f k) port) (nth 0 (s.router (coreId f k)).freeAt port) s.now = false →
    exec (.flitForward f k port) s = .next s) ∧
  (∀ t now : Nat, (portFree false t now = true → portNext false t now = now + 1) ∧
    (t ≤ 2 * now → portFree true t now = true ∧ portFree true (portNext true t now) now = true ∧
      portFree true (portNext true (portNext true t now) now) now = false)) ∧
  (∀ (s : State) (f k : Nat) (fl : Flit) (e : Entry), s.onCore f k → let c := coreId f k
    s.localFront c = some fl → fl.cargo = .entry e →
    exec (.entryArrival f k) s = .next ((s.modRouter c fun x => { x with arrL := x.arrL.drop 1 }).enterQueue c fl.dst.chan fl.src e))

/-- A BIND at the local port of a core, from the source that the queue's word names and whose borders are not frozen, binds the
queue, which grants DEPTH minus its occupancy credits; one that the word does not name is remembered, at most 4 of them, and so is
one of the named source while the borders are frozen, which none of the others displaces. A BIND at an edge agent's input with room
grants 8 credits, at a step input 2, at an attachment the number that the spec leaves open (log entry 85). An UNBIND from the bound
source frees the queue's binding. Credits on their way reach the route of the binding they are for, and leave the mesh. Completes:
BIND, UNBIND, CREDIT_GRANT. -/
def Obligations.BindingsAndCredits : Prop :=
  (∀ (s : State) (f k : Nat) (fl : Flit), s.onCore f k → let c := coreId f k
    s.localFront c = some fl → fl.cargo = .bind →
    let u := s.modRouter c fun x => { x with arrL := x.arrL.drop 1 }
    let q := (s.core c).queue fl.dst.chan
    (q.w.names fl.src = true → s.frozen c = false → q.bound = none →
      exec (.bind f k 0) s = .next ((u.modCore c fun d => d.setQueue fl.dst.chan
        { q with bound := some fl.src, cred := q.w.depth - q.occ, shut := false, rem := q.rem.filter (· != fl.src) }).sendCredit fl.src (q.w.depth - q.occ))) ∧
    (q.w.names fl.src = false ∨ s.frozen c = true →
      exec (.bind f k 0) s = .next (u.modCore c fun d => d.setQueue fl.dst.chan (q.remember fl.src)))) ∧
  (∀ (q : Queue) (x : Src), (q.rem.filter fun y => !q.w.names y).length ≤ 4 →
    x ∈ (q.remember x).rem ∧ ((q.remember x).rem.filter fun y => !q.w.names y).length ≤ 4 ∧
    ∀ y ∈ q.rem, q.w.names y = true → ¬(y.kind = x.kind ∧ y.core = x.core ∧ y.route = x.route) → y ∈ (q.remember x).rem) ∧
  (∀ (s : State) (f k : Nat) (fl : Flit), s.onCore f k → s.vertFront (coreId f k) = some fl → fl.cargo = .bind →
    exec (.bind f k 2) s = .next (((s.modRouter (coreId f k) fun r => { r with arrV := r.arrV.drop 1 }).modAtt (coreId f k) fun a =>
      { a with binds := a.binds ++ [(fl.src, fl.part)] }).sendCredit fl.src Config.attachCredits)) ∧
  (∀ (s : State) (f k n : Nat) (fl : Flit), s.onCore f k → let c := coreId f k
    firstOut Flit.isBind s.now (s.router c).arrE = some (n, fl) →
    let u := s.modRouter c fun r => { r with arrE := dropAt r.arrE n }
    (fl.dst.tgt = 3 → exec (.bind f k 1) s = .next ((u.modAgent c fun a => { a with binds := a.binds ++ [(2, fl.src)] }).sendCredit fl.src 2)) ∧
    (fl.dst.tgt ≠ 3 → (s.agent c).routes fl.dst.chan < 32 →
      exec (.bind f k 1) s = .next ((u.modAgent c fun a => { a with binds := a.binds ++ [(fl.dst.chan, fl.src)] }).sendCredit fl.src 8))) ∧
  (∀ (s : State) (f k n : Nat) (fl : Flit), s.onCore f k → let c := coreId f k
    s.localFront c = some fl → fl.cargo = .unbind n → ((s.core c).queue fl.dst.chan).bound = some fl.src →
    exec (.unbind f k 0) s = .next ((s.modRouter c fun x => { x with arrL := x.arrL.drop 1 }).modCore c fun d =>
      d.setQueue fl.dst.chan { (s.core c).queue fl.dst.chan with bound := none, cred := ((s.core c).queue fl.dst.chan).cred - n })) ∧
  (∀ (s : State) (n : Nat) (m : CreditMsg), s.runs = true → s.mesh.credits[n]? = some m → m.dst.kind = 1 →
    let r := (s.core m.dst.core).route m.dst.route
    r.ep = m.dst.ep → (r.st = 1 ∨ r.st = 2) →
    ∃ t, exec (.creditGrant n) s = .next t ∧ ((t.core m.dst.core).route m.dst.route) = { r with credit := r.credit + m.n, st := 2 } ∧
      t.mesh.credits = dropAt s.mesh.credits n ∧ (∀ d, d ≠ m.dst.core → t.core d = s.core d) ∧ t.mem = s.mem)

/-- A stream request at the vertical port of an attachment is taken in and its route gets a credit; one in the view takes a context
where fewer than 8 are in use; one whose first entry leaves the view, or lies in another die's memory (log entry 119), fails
STREAM_ADDRESS, and a write stream then takes in its entries without writing one. A read stream with a bound return route that has
credit sends the 64 bytes at its address to the requesting core's queue, uses one credit and goes on by its stride. A write entry of
a stream is written at the address that the stream stands at, translated by the view (State.streamAddr), and at no other byte of
memory; one of a failed stream is discarded. Completes: STREAM_REQUEST, SM_READ_ENTRY, STREAM_WRITE_ENTRY. -/
def Obligations.SharedMemoryStreams : Prop :=
  (∀ (s : State) (f k : Nat) (fl : Flit) (e : Entry), s.onCore f k → let c := coreId f k
    s.vertFront c = some fl → fl.cargo = .entry e → (s.att c).wants fl.src fl.job = false →
    let q := SmReq.read fl.src fl.part fl.job e
    let b := (s.att c).buried fl.src
    let u := ((s.modRouter c fun r => { r with arrV := r.arrV.drop 1 }).sendCredit fl.src 1).modAtt c fun a => a.buried fl.src
    (q.left = 0 → exec (.streamRequest f k) s = .next u) ∧
    (q.left ≠ 0 → (∃ a, s.streamAddr c q = some a) → b.ctxs.length < 8 → b.wait = [] →
      (q.write = true ∨ ∃ i o, outOf (s.att c).outs fl.src.core q.dchan = some (i, o) ∧ o.bound = true) →
      ∃ t, exec (.streamRequest f k) s = .next t ∧ (t.att c).ctxs = b.ctxs ++ [q] ∧ (t.att c).wait = [] ∧
        t.mesh = u.mesh ∧ t.mem = s.mem ∧ t.cores = s.cores) ∧
    (q.left ≠ 0 → s.streamAddr c q = none →
      exec (.streamRequest f k) s = .next ((if q.write then u.modAtt c fun a =>
        ({ a with wait := a.wait ++ [{ q with dead := true }] }).fill else u).streamFail q Code.streamAddress))) ∧
  (∀ (s : State) (c : Nat) (q : SmReq), (s.sharedIn q.part q.addr 64 = false → s.streamAddr c q = none) ∧
    ∀ a, s.streamAddr c q = some a → s.sharedIn q.part q.addr 64 = true ∧ s.sharedAddr q.part q.addr = some a) ∧
  (∀ (s : State) (f k i n a : Nat) (q : SmReq) (o : AgentOut), s.onCore f k → let c := coreId f k
    (s.att c).ctxs[i]? = some q → q.write = false → outOf (s.att c).outs q.src.core q.dchan = some (n, o) → o.bound = true → 0 < o.credit →
    (s.router c).room 5 s.now = true → s.streamAddr c q = some a → (s.readErrors a 64).2 = 0 →
    ∃ t, exec (.smReadEntry f k i) s = .next t ∧
      t.att c = ({ s.att c with outs := putAt (s.att c).outs n { o with credit := o.credit - 1 } }).advance i q.step ∧
      (t.router c).inq = modAt (s.router c).inq 5 (fun l => pushFlit l ⟨agentSrc 4 c q.src.core q.dchan o.ep, ⟨q.src.core, 1, q.dchan, false⟩,
        .entry (s.mem.read a 64), s.now, q.part, q.job⟩) ∧ t.mem = s.mem ∧ t.cores = s.cores) ∧
  (∀ (s : State) (f k i : Nat) (fl : Flit) (e : Entry) (q : SmReq), s.onCore f k → let c := coreId f k
    s.vertFront c = some fl → fl.cargo = .entry e → findAt (fun (q : SmReq) => q.takes fl.src fl.job) (s.att c).ctxs = some (i, q) →
    (∀ a, q.dead = false → s.streamAddr c q = some a → e.length ≤ 64 →
      ∃ t, exec (.streamWriteEntry f k) s = .next t ∧ t.att c = (s.att c).advance i q.step ∧
        t.mem = s.mem.write a (padTo 64 e) ∧ (∀ b, b < a ∨ a + 64 ≤ b → t.mem.byte b = s.mem.byte b) ∧
        t.cores = s.cores ∧ t.parts = s.parts) ∧
    (q.dead = true → ∃ t, exec (.streamWriteEntry f k) s = .next t ∧ t.att c = (s.att c).advance i { q with left := q.left - 1 } ∧
      t.mem = s.mem ∧ t.cores = s.cores ∧ t.parts = s.parts))

/-- A flag operation that reaches a core whose flags are not frozen changes the flag by the rule of R260 and goes from where it
waited; at a core whose flags are frozen with fewer than 8 waiting it waits. A chip flag operation changes the partition's flag; a
parity error on the chip flag network loses it and fails the job of the flag's partition. A PART_CFOP write with a flag in the
allotment sets or clears it and completes OK; with a flag beyond the allotment it completes BAD_ARGUMENT and changes nothing. An
operation on a flag that no other operation of the cycle met leaves the value it asks for, seen from the next cycle; of a set and a
clear in one cycle the set wins. Completes: FLAG_OP_ARRIVE, CHIP_FLAG_SET, CHIP_FLAG_CLEAR. -/
def Obligations.FlagOperations : Prop :=
  (∀ (s : State) (f k n : Nat) (us : List Upset) (m : FlagMsg), s.onCore f k → s.mesh.ops[n]? = some m →
    let gone := fun (u : State) => { u with mesh := { u.mesh with ops := dropAt u.mesh.ops n } }
    (∀ d, m.core = some d → s.flagsFrozen d = false → exec (.flagOpArrive false f k n us) s = .next (gone (s.setCoreFlag d m.flag m.op))) ∧
    (∀ d, m.core = some d → s.flagsFrozen d = true → (s.core d).heldOps.length < 8 →
      exec (.flagOpArrive false f k n us) s = .next (gone (s.modCore d fun x => { x with heldOps := x.heldOps ++ [(m.flag, m.op, s.now)] }))) ∧
    (m.core = none → us.contains Upset.flagNet = false →
      exec (.flagOpArrive false f k n us) s = .next ((gone s).setChipFlag m.part m.flag m.op)) ∧
    (m.core = none → us.contains Upset.flagNet = true →
      exec (.flagOpArrive false f k n us) s = .next ((gone s).failJob m.part 0x0330 none none))) ∧
  (∀ (s : State) (f k i : Nat) (us : List Upset) (fl : Flit) (op : FlagOp), s.onCore f k → let c := coreId f k
    s.localFront c = some fl → fl.cargo = .flag i op → s.flagsFrozen c = false →
    exec (.flagOpArrive true f k 0 us) s = .next ((s.setCoreFlag c i
      { op with region := match (s.core fl.src.core).owner with | some (_, r) => r | none => 0 }).modRouter c fun x => { x with arrL := x.arrL.drop 1 })) ∧
  (∀ (s : State) (o : Org) (p n : Nat), s.servedBy o p → p < 8 → n < 256 →
    (n < (s.part p).allot s.grade →
      exec (.chipFlagSet o n) s = .next ((s.setChipFlag p n ⟨true, 5, none, 0, 0⟩).complete o 0x0011 Code.ok []) ∧
      exec (.chipFlagClear o n) s = .next ((s.setChipFlag p n ⟨false, 5, none, 0, 0⟩).complete o 0x0011 Code.ok [])) ∧
    ((s.part p).allot s.grade ≤ n →
      exec (.chipFlagSet o n) s = .next (s.complete o 0x0011 Code.badArgument []) ∧
      exec (.chipFlagClear o n) s = .next (s.complete o 0x0011 Code.badArgument []))) ∧
  (∀ (r : FlagR) (now : Nat) (op : FlagOp),
    (r.stamp ≠ now + 1 → (r.apply now op).read (now + 1) = op.set ∧ (r.apply now op).read now = r.val) ∧
    (∀ a : FlagOp, r.stamp ≠ now + 1 → a.set = true ∨ op.set = true → ((r.apply now a).apply now op).read (now + 1) = true) ∧
    (∀ a : FlagOp, r.stamp ≠ now + 1 → a.set = false → op.set = false → ((r.apply now a).apply now op).read (now + 1) = false))

/-- A good replay of the last flit at an input delays it and sets the count of failures in succession to 0; a bad one counts it; the
eighth in succession marks the link failed, and from then on that input takes no flit from its neighbour. Every flit keeps its
place. Completes: LINK_REPLAY. -/
def Obligations.LinkReplayAndFailure : Prop :=
  ∀ (s : State) (f k port : Nat) (fl : Flit), s.onCore f k → let c := coreId f k
    port < (s.router c).inq.length → port < (s.router c).replays.length → port < (s.router c).dead.length →
    (nth [] (s.router c).inq port).getLast? = some fl →
    (∃ t, exec (.linkReplay f k port true) s = .next t ∧ nth 0 (t.router c).replays port = 0 ∧ (t.router c).dead = (s.router c).dead ∧
      (nth [] (t.router c).inq port).length = (nth [] (s.router c).inq port).length ∧ t.mem = s.mem ∧ t.parts = s.parts) ∧
    (nth 0 (s.router c).replays port < 7 → ∃ t, exec (.linkReplay f k port false) s = .next t ∧
      nth 0 (t.router c).replays port = nth 0 (s.router c).replays port + 1 ∧ (t.router c).dead = (s.router c).dead ∧ t.parts = s.parts) ∧
    (nth 0 (s.router c).replays port = 7 → ∃ t, exec (.linkReplay f k port false) s = .next t ∧
      nth false (t.router c).dead port = true ∧ c ∈ t.pendingRetire)

/-- A write of LOG2 in 12-30 to PART_WDOG (offset 0x0200, 32 bits wide) completes OK and sets the limit to 2^LOG2 cycles; a write of
another LOG2 completes BAD_ARGUMENT and changes nothing. In the cycle of the write the limit before it still holds; from the next
cycle on, a region whose lane runs and whose HOLD reaches or exceeds the new limit has expired. Completes: WATCHDOG_WRITE. -/
def Obligations.WatchdogLimit : Prop :=
  (∀ (s : State) (o : Org) (p v : Nat), s.servedBy o p → p < 8 → v < 2 ^ 5 →
    (12 ≤ v → v ≤ 30 → exec (.watchdogWrite o v) s =
      .next ((s.modPart p fun x => { x with watch := { x.watch with log2 := v, old := x.watch.limit s.now, newAt := s.now + 1 } }).complete o 0x0011 0x0000 [])) ∧
    (v < 12 ∨ 30 < v → exec (.watchdogWrite o v) s = .next (s.complete o 0x0011 0x0005 []))) ∧
  (∀ (s : State) (p r v : Nat) (x : LaneRun), (s.region p r).run = some x → (s.region p r).load = none →
    let u := s.modPart p fun x => { x with watch := { x.watch with log2 := v, old := x.watch.limit s.now, newAt := s.now + 1 } }
    u.expired p r = s.expired p r ∧
    (2 ^ v ≤ (s.region p r).hold → { u with now := s.now + 1 }.expired p r = true) ∧
    ((s.region p r).hold < 2 ^ v → { u with now := s.now + 1 }.expired p r = false)) ∧
  (∀ (s : State) (p : Nat), p < 8 → s.regAt p (0x040000100000 + 0x10000 * p + 0x0200) = some (4, (s.part p).watch.log2))

/-- The lowest region of a running job whose HOLD has reached the watchdog limit is charged with STALEMATE: the job has failed with
that code charged to that region and waits for its snapshot, and what was detected is kept. Once the firmware has written the
snapshot, with a buffer set and none pending, VALID is 1, SEQ is one more, and the job stops; with no buffer or one pending, MISSED
counts one more up to 255 and nothing is written. A 1 written to PART_SNAPSTAT.VALID clears VALID, TRUNC and MISSED. Completes:
STALEMATE, STALEMATE_SNAPSHOT_DONE, SNAPSHOT_ACK. -/
def Obligations.StalemateAndSnapshot : Prop :=
  (∀ (s : State) (p r : Nat) (j : Job), s.live p r → (s.part p).job = some j → j.fail = none → r ∈ j.regions → s.expired p r = true →
      (∀ q ∈ j.regions, q < r → s.expired p q = false) →
    exec (.stalemate p r) s = .next (s.modPart p fun x => { x with
      job := some { j with fail := some (Code.stalemate, some r, none), snap := true },
      stale := some ⟨r, s.now, x.watch.limit s.now, j.regions.map fun q => (q, (s.region p q).hold)⟩ })) ∧
  (∀ (s : State) (p : Nat) (x : Stale) (j : Job), s.runs = true → p < 8 → (s.part p).stale = some x → (s.part p).job = some j →
    ((s.part p).watch.size ≠ 0 → (s.part p).watch.valid = false →
      ∃ t, exec (.stalemateSnapshotDone p) s = .next t ∧ (t.part p).watch.valid = true ∧
        (t.part p).watch.seq = ((s.part p).watch.seq + 1) % 65536 ∧ (t.part p).watch.missed = (s.part p).watch.missed ∧ (t.part p).stale = none ∧
        (t.part p).job = some { j with snap := false, stopping := true } ∧
        t.mem = (s.viewWrite p (s.part p).watch.base
          (s.snapshot p x j.id (((s.part p).watch.seq + 1) % 65536) ((s.part p).watch.size * 4096)).1).mem) ∧
    ((s.part p).watch.size = 0 ∨ (s.part p).watch.valid = true →
      ∃ t, exec (.stalemateSnapshotDone p) s = .next t ∧ (t.part p).watch.valid = (s.part p).watch.valid ∧
        (t.part p).watch.missed = min 255 ((s.part p).watch.missed + 1) ∧ (t.part p).stale = none ∧
        (t.part p).job = some { j with snap := false, stopping := true } ∧ t.mem = s.mem)) ∧
  (∀ (s : State) (o : Org) (p : Nat), s.servedBy o p → p < 8 →
    exec (.snapshotAck o) s = .next ((s.modPart p fun x =>
      { x with watch := { x.watch with valid := false, trunc := false, missed := 0 } }).complete o 0x0011 Code.ok []))

/-- A write of PART_SSCTL.EN = 1 with a PERIOD of 6-24, a queue selected and the ring in the view starts sampling: HEAD, TAIL, LOST
and the histograms are 0; EN = 0 stops it and keeps them. Once 2^PERIOD cycles have passed, a sample with room in the ring is
written as one record at HEAD, HEAD moves by the record's size round the ring, and the sample number advances; with no room LOST
counts it and HEAD stays. A read of CORE_QHEAD0 latches the head entry of the selected queue, which stays in the queue, or EMPTY.
Completes: SCORESHEET_ENABLE, SCORESHEET_DISABLE, SCORESHEET_SAMPLE, QHEAD_LATCH. -/
def Obligations.ScoresheetAndQueueHead : Prop :=
  (∀ (s : State) (o : Org) (p n : Nat), s.servedBy o p → p < 8 → 6 ≤ n → n ≤ 24 → (s.part p).sheet.chosen ≠ [] →
      s.sharedIn p (s.part p).sheet.base (s.part p).sheet.ring = true →
    exec (.scoresheetEnable o n) s = .next ((s.modPart p fun x => { x with
      sheet := { x.sheet with en := true, period := n, head := 0, tail := 0, lost := 0, hist := [], seq := 0, dropping := false, since := s.now, full := false } }).complete
        o 0x0011 Code.ok [])) ∧
  (∀ (s : State) (o : Org) (p : Nat), s.servedBy o p → p < 8 → (s.part p).sheet.period < 32 →
    exec (.scoresheetDisable o) s = .next ((s.modPart p fun x => { x with sheet := { x.sheet with en := false } }).complete o 0x0011 Code.ok [])) ∧
  (∀ (s : State) (p : Nat), s.runs = true → p < 8 → let t0 := (s.part p).sheet
    let size := if t0.chosen.length ≤ 24 then 64 else 128
    t0.en = true → t0.since + 2 ^ t0.period ≤ s.now →
    (t0.used + size ≤ t0.ring → ∃ t, exec (.scoresheetSample p) s = .next t ∧ (t.part p).sheet.head = (t0.head + size) % t0.ring ∧
      (t.part p).sheet.lost = t0.lost ∧ (t.part p).sheet.since = s.now ∧ (t.part p).sheet.seq = (t0.seq + 1) % 4294967296 ∧
      (t.part p).sheet.dropping = false) ∧
    (t0.ring < t0.used + size → ∃ t, exec (.scoresheetSample p) s = .next t ∧ (t.part p).sheet.head = t0.head ∧
      (t.part p).sheet.lost = min 0xFFFFFFFF (t0.lost + 1) ∧ (t.part p).sheet.dropping = true ∧ t.mem = s.mem)) ∧
  (∀ (s : State) (p : Nat), s.runs = true → p < 8 → ((s.part p).sheet.en = false ∨ s.now < (s.part p).sheet.since + 2 ^ (s.part p).sheet.period) →
    exec (.scoresheetSample p) s = .next s) ∧
  (∀ (s : State) (f k : Nat), s.onCore f k → let c := coreId f k
    let q := (s.core c).queue (s.core c).qsel
    ∃ t, exec (.qheadLatch f k) s = .next t ∧ (t.core c).queue (s.core c).qsel = q ∧
      (∀ e rest, q.ents ++ q.raw = e :: rest → (t.core c).qempty = false ∧ (t.core c).qhead = e) ∧
      (q.ents ++ q.raw = [] → (t.core c).qempty = true) ∧ (∀ d, d ≠ c → t.core d = s.core d) ∧ t.mem = s.mem ∧ t.parts = s.parts)

/-- An edge agent takes the next descriptor of its descriptor input, whatever its OP (1 READ, 2 WRITE, 3 GATHER; any other fails the
checks and is refused by STACK_READ): the entry leaves the input, its route gets a credit back, and the descriptor is checked as a
whole. One that passes becomes the agent's last request, owed the entries that R291 and R292 say follow it; a READ or a GATHER binds
the queue that it names. One that fails is refused with the code of R293: nothing of it is executed, the entries that follow it will
be discarded, and the job of the issuing core fails. One whose job has failed or is aborted starts nothing (R297). No byte of memory
changes. Completes: STACK_READ, STACK_WRITE, GATHER. -/
def Obligations.StackRequestsTaken : Prop :=
  ∀ (s : State) (f k n : Nat) (fl : Flit), s.onCore f k → let c := coreId f k
    s.nextDesc c = some (n, fl) →
    let d := DmaDesc.read fl.entry
    let u := s.edgeTaken c n fl.src
    let q : EReq := ⟨fl.src, fl.part, fl.job, d, [], d.follows, 0, none, false⟩
    let past := if d.follows = 0 then u else u.modAgent c fun a => { a with drains := a.drains ++ [⟨fl.src, d.op, d.follows⟩] }
    (s.jobGoes fl = true → u.descCode fl.part (stackAt c) d = 0 →
      (d.op = 1 → exec (.stackRead f k) s = .next ((u.modAgent c fun a => { a with reqs := a.reqs ++ [q] }).edgeBind 2 c d.core d.dq fl.part fl.job)) ∧
      (d.op = 2 → exec (.stackWrite f k) s = .next (u.modAgent c fun a => { a with reqs := a.reqs ++ [q] })) ∧
      (d.op = 3 → exec (.gather f k) s = .next ((u.modAgent c fun a => { a with reqs := a.reqs ++ [q] }).edgeBind 2 c d.core d.dq fl.part fl.job))) ∧
    (∀ (e : Nat) (i : Instr), u.descCode fl.part (stackAt c) d = e → e ≠ 0 →
      (d.op ≠ 2 ∧ d.op ≠ 3 ∧ i = .stackRead f k) ∨ (d.op = 2 ∧ i = .stackWrite f k) ∨ (d.op = 3 ∧ i = .gather f k) →
      (s.jobGoes fl = true → exec i s = .next (past.coreJobFail fl.src.core fl.part fl.job e)) ∧
      ∃ t, exec i s = .next t ∧ t.mem = s.mem ∧ ∀ r ∈ (t.agent c).reqs, r ∈ (s.agent c).reqs) ∧
    (s.jobGoes fl = false → (d.op ≠ 2 → d.op ≠ 3 → exec (.stackRead f k) s = .next past) ∧
      (d.op = 2 → exec (.stackWrite f k) s = .next past) ∧ (d.op = 3 → exec (.gather f k) s = .next past))

/-- The next data entry of a WRITE whose request was not refused is written as the codeword at the address that R291 computes
(DmaDesc.entryAddr of the entry's number), where the stack can take an access, and the request owes one entry less; every other byte
of memory keeps its value. Where it cannot, nothing happens yet and the agent takes its place in line (log entry 123). The next
index entry of a GATHER is taken in, its indices are checked in order and the good ones join those to be read; memory does not
change. An entry that follows a refused request is discarded. Completes: STACK_WRITE_DATA, GATHER_INDEX. -/
def Obligations.StackDataArrives : Prop :=
  (∀ (s : State) (f k n i : Nat) (fl : Flit) (q : EReq), s.onCore f k → let c := coreId f k
    let a := s.agent c
    let mine := fun (q : EReq) (x : Src) => q.src == x && q.data.isNone && q.d.op == 2 && decide (0 < q.left)
    firstOf 0 (fun f => f.dst.tgt == 2 && (a.drains.any (fun d => d.src == f.src && d.kind == 2) || a.reqs.any fun q => mine q f.src))
      s.now (s.router c).arrE = some (n, fl) →
    findAt (fun (d : Drain) => d.src == fl.src && d.kind == 2) a.drains = none →
    findAt (fun (q : EReq) => mine q fl.src) a.reqs = some (i, q) →
    let at_ := q.d.entryAddr (q.d.entries - q.left)
    (s.stackRoom (.edge c) at_ = true →
      ∃ t, exec (.stackWriteData f k) s = .next t ∧ t.mem = s.mem.write at_ (padTo 64 fl.entry) ∧
        (fl.entry.length ≤ 64 → ∀ b, b < at_ ∨ at_ + 64 ≤ b → t.mem.byte b = s.mem.byte b) ∧
        (t.agent c).reqs = putAt a.reqs i { q with left := q.left - 1 } ∧ t.cores = s.cores ∧ t.parts = s.parts) ∧
    (s.stackRoom (.edge c) at_ = false →
      exec (.stackWriteData f k) s = .next (s.modStack (stackAt c) fun x => x.await (.edge c) s.now))) ∧
  (∀ (s : State) (f k n i : Nat) (fl : Flit) (q : EReq), s.onCore f k → let c := coreId f k
    let a := s.agent c
    let mine := fun (q : EReq) (x : Src) => q.src == x && q.data.isNone && q.d.op == 3 && decide (0 < q.left)
    firstOf 0 (fun f => f.dst.tgt == 2 && (a.drains.any (fun d => d.src == f.src && d.kind == 3) || a.reqs.any fun q => mine q f.src))
      s.now (s.router c).arrE = some (n, fl) →
    findAt (fun (d : Drain) => d.src == fl.src && d.kind == 3) a.drains = none →
    findAt (fun (q : EReq) => mine q fl.src) a.reqs = some (i, q) → q.bad = false →
    let is := (List.range (min 16 (q.d.nrow - 16 * (cdiv q.d.nrow 16 - q.left)))).map fun j => fld fl.entry (4 * j) 4
    let u := s.edgeTaken c n fl.src
    (∀ x ∈ is, s.stackIn q.part (stackAt c) (q.d.addr + x * q.d.stride) q.d.rowb = true) →
    exec (.gatherIndex f k) s = .next (u.modAgent c fun a => { a with reqs := putAt a.reqs i { q with left := q.left - 1, idx := q.idx ++ is } })) ∧
  (∀ (s : State) (f k n i : Nat) (fl : Flit) (d : Drain), s.onCore f k → let c := coreId f k
    let a := s.agent c
    findAt (fun (d : Drain) => d.src == fl.src && d.kind == 2) a.drains = some (i, d) →
    firstOf 0 (fun f => f.dst.tgt == 2 && (a.drains.any (fun d => d.src == f.src && d.kind == 2) ||
      a.reqs.any fun q => q.src == f.src && q.data.isNone && q.d.op == 2 && decide (0 < q.left))) s.now (s.router c).arrE = some (n, fl) →
    exec (.stackWriteData f k) s = .next ((s.edgeTaken c n fl.src).modAgent c fun a => a.drained i d))

/-- The oldest request of an agent that can deliver (State.mayDeliver: R289, R294, R298, R304), where its queue is bound, delivers
its next entry: a READ reads the codeword at the address that R291 computes, and an undamaged one reaches the mesh as the entry, one
credit is used and the request has delivered one more. A request whose queue is not bound sends a BIND instead. Where only the stack
has no room for it, the agent takes its place in line there. The oldest complete request leaves the agent, and with FLAG a set of
the flag it names is on its way to that core. Completes: EDGE_DELIVERY, STACK_REQUEST_COMPLETE. -/
def Obligations.StackDeliveriesEnd : Prop :=
  (∀ (s : State) (f k i n x : Nat) (q : EReq) (o : AgentOut), s.onCore f k → let c := coreId f k
    let rs := (s.agent c).reqs
    (rs.zip (List.range rs.length)).find? (fun x => s.mayDeliver c x.2 x.1) = some (q, i) →
    outOf (s.agent c).outs q.d.core q.d.dq = some (n, o) →
    let sent := fun (e : Entry) (q' : EReq) (u : State) => (u.modAgent c fun a => { a with
      outs := putAt a.outs n { o with credit := o.credit - 1 }, reqs := putAt a.reqs i q',
      sent := (a.sent.filter fun x => x.1 == s.now) ++ [(s.now, q.d.core, q.d.dq)] }).inject c (outPort c ⟨c, 2, 0, false⟩)
        ⟨agentSrc 2 c q.d.core q.d.dq o.ep, ⟨q.d.core, 1, q.d.dq, false⟩, .entry e, s.now, q.part, q.job⟩
    (o.bound = true → q.data = none → q.d.op = 1 → q.done < q.d.entries → x = q.d.entryAddr q.done → s.readErrors x 64 = (0, 0) → q.bad = false →
      exec (.edgeDelivery f k []) s = .next (sent (s.mem.read x 64) { q with done := q.done + 1 }
        ((s.modStack (stackAt c) fun y => y.served (.edge c)).stackCount x))) ∧
    (∀ l, o.bound = true → q.data = some l →
      exec (.edgeDelivery f k []) s = .next (sent (nth [] l q.done) { q with done := q.done + 1 } s)) ∧
    (o.bound = false → exec (.edgeDelivery f k []) s = .next (s.edgeBind 2 c q.d.core q.d.dq q.part q.job))) ∧
  (∀ (s : State) (f k : Nat), s.onCore f k → let c := coreId f k
    let rs := (s.agent c).reqs
    (rs.zip (List.range rs.length)).find? (fun x => s.mayDeliver c x.2 x.1) = none →
    ((rs.zip (List.range rs.length)).any (fun x => s.wouldDeliver c x.2 x.1) = true →
      exec (.edgeDelivery f k []) s = .next (s.modStack (stackAt c) fun y => y.await (.edge c) s.now)) ∧
    ((rs.zip (List.range rs.length)).any (fun x => s.wouldDeliver c x.2 x.1) = false → exec (.edgeDelivery f k []) s = .next s)) ∧
  (∀ (s : State) (f k i : Nat) (q : EReq), s.onCore f k → let c := coreId f k
    let rs := (s.agent c).reqs
    (rs.zip (List.range rs.length)).find? (fun x => s.reqDone c x.2 x.1) = some (q, i) →
    ∃ t, exec (.stackRequestComplete f k) s = .next t ∧ (t.agent c).reqs = dropAt rs i ∧ t.mem = s.mem ∧ t.cores = s.cores ∧ t.parts = s.parts ∧
      (q.d.flag = true → t.mesh.ops = s.mesh.ops ++ [⟨q.part, some q.d.core, q.d.flg, ⟨true, 3, some c, 0, 0⟩⟩]) ∧
      (q.d.flag = false → t.mesh.ops = s.mesh.ops) ∧
      (q.data.isSome = true → (t.stack (stackAt c)).run = none))

/-- A match command at the match input of an agent whose stack has a free place leaves the input and is checked: one that passes
waits last in the stack's queue for the query entries it owes; one that fails is refused with its code; one whose job has failed or
is aborted starts nothing (R297). A query entry joins the command it belongs to; with the last one, queries that break R308 end the
command with MATCH_FORMAT. The engine starts the oldest command whose queries are all there when none runs. An undamaged pass with
RDST 1 writes the results of every query (State.matchQuery, in query order) to the result area and ends; with RDST 0 they become a
request of the agent. Completes: MATCH, MATCH_QUERY_ENTRY, MATCH_SCAN_START, MATCH_PASS_END. -/
def Obligations.MatchCommandsRun : Prop :=
  (∀ (s : State) (f k n : Nat) (fl : Flit), s.onCore f k → let c := coreId f k
    firstOf 1 (fun f => f.dst.tgt == 2 && !s.owesQueries c f.src) s.now (s.router c).arrE = some (n, fl) → (s.stack (stackAt c)).mq.length < 8 →
    let m := MatchC.read fl.entry
    let u := s.edgeTaken c n fl.src
    (s.jobGoes fl = true → u.matchCode fl.part (stackAt c) m = 0 → exec (.matchCommand f k) s = .next (u.modStack (stackAt c) fun x =>
      { x with mq := x.mq ++ [⟨m, some (c, fl.src), fl.part, fl.job, 0, [], m.nq * m.dim / 16⟩] })) ∧
    (s.jobGoes fl = true → u.matchCode fl.part (stackAt c) m ≠ 0 → exec (.matchCommand f k) s = .next
      (u.refuse c fl 1 (m.nq * m.dim / 16) (u.matchCode fl.part (stackAt c) m))) ∧
    (s.jobGoes fl = false → exec (.matchCommand f k) s = .next (u.swallow c fl 1 (m.nq * m.dim / 16)))) ∧
  (∀ (s : State) (f k n i : Nat) (fl : Flit) (m : MCmd), s.onCore f k → let c := coreId f k
    firstOf 1 (fun f => f.dst.tgt == 2 && s.owesQueries c f.src) s.now (s.router c).arrE = some (n, fl) →
    findAt (fun (d : Drain) => d.src == fl.src && d.kind == 1) (s.agent c).drains = none →
    findAt (fun (m : MCmd) => m.src == some (c, fl.src) && decide (0 < m.left)) (s.stack (stackAt c)).mq = some (i, m) →
    let m' := { m with queries := m.queries ++ [fl.entry], left := m.left - 1 }
    let u := s.edgeTaken c n fl.src
    (m.left ≠ 1 ∨ m'.queriesOk = true → exec (.matchQueryEntry f k) s = .next (u.modStack (stackAt c) fun x => { x with mq := putAt x.mq i m' })) ∧
    (m.left = 1 → m'.queriesOk = false → exec (.matchQueryEntry f k) s = .next
      ((u.modStack (stackAt c) fun x => { x with mq := dropAt x.mq i }).coreJobFail fl.src.core m.part m.job Code.matchFormat))) ∧
  (∀ (s : State) (n : Nat) (m : MCmd) (rest : List MCmd), s.runs = true → n < 8 → (s.stack n).run = none → (s.stack n).mq = m :: rest →
    m.left = 0 → (∀ d ∈ s.defs, ∀ a b c x y z, d.k ≠ .matchMulti a b c x y z) →
    exec (.matchScanStart n) s = .next (s.modStack n fun x => { x with run := some m, mq := rest, runAt := s.now, items := 0 })) ∧
  (∀ (s : State) (n : Nat) (m : MCmd) (c : Nat) (x : Src), s.runs = true → n < 8 → (s.stack n).run = some m → (s.stack n).delivering = false →
    s.passDamage n m.c = [] → m.src = some (c, x) →
    let res := (List.range m.c.nq).flatMap fun q => s.matchQuery n m.c m.queries q
    let u := s.modStack n fun y => { y with items := m.c.nitem }
    let v := ((res.zip (List.range res.length)).foldl (fun v e => v.stackWrite (m.c.raddr + 64 * e.2) e.1) u).modStack n fun y => { y with run := none }
    (m.c.rdst = true → m.c.flag = false → exec (.matchPassEnd n []) s = .next v) ∧
    (m.c.rdst = true → m.c.flag = true → exec (.matchPassEnd n []) s =
      .next (v.edgeFlag c m.part (coreId m.c.dfile m.c.drank) m.c.flg)) ∧
    (m.c.rdst = false → ∃ t q, exec (.matchPassEnd n []) s = .next t ∧ (t.agent c).reqs = (s.agent c).reqs ++ [q] ∧ q.data = some res ∧ q.d.core = coreId m.c.dfile m.c.drank ∧
      q.d.dq = m.c.dq ∧ q.d.flag = m.c.flag ∧ q.d.flg = m.c.flg ∧ q.done = 0 ∧ t.mem = s.mem))

/-- A refresh that is due takes the next row of every bank, and the next is due 3.9 µs later, 1.95 µs while the stack is hot; before
that a refresh changes no stack. A scrub read of an undamaged codeword with none queued moves on to the next codeword; after the
last it begins again at the first, one more pass done. The copy of the first waiting row ends with the row moved to a spare of its
bank, and the holder of the stack is told ROW_SPARED. A grant whose losing partitions are idle has a stack cleared, once the blocks
that it takes are free (State.freeBlocks): the stack reads as zero and memory elsewhere keeps its value; with the last stack that
moves the grant applies. A write of HSTK_ECC.CLR by a partition that holds the stack, which is not being cleared, and one of CORE_ECC.CLR or DIE_ECC.CLR by the
management partition, zero the counters of that register alone. Completes: REFRESH, SCRUB_READ, ROW_SPARED, STACK_CLEAR_DONE,
HSTK_ECC_CLEAR, CORE_ECC_CLEAR. -/
def Obligations.StackUpkeep : Prop :=
  (∀ (s : State) (n : Nat), s.runs = true → n < 8 →
    ((s.stack n).refDue ≤ 1000 * s.now → exec (.refresh n) s = .next (s.modStack n fun x =>
      { x with refRow := (x.refRow + 1) % 65536, refDue := x.refDue + (if x.hot then 1950 else 3900) * s.clock })) ∧
    (1000 * s.now < (s.stack n).refDue → ∃ t, exec (.refresh n) s = .next t ∧ ∀ m, t.stack m = s.stack m)) ∧
  (∀ (s : State) (n : Nat), s.runs = true → n < 8 → (s.stack n).wback = [] → s.readErrors (stackBase n + 64 * (s.stack n).scrubAt) 64 = (0, 0) →
    exec (.scrubRead n []) s = .next (s.modStack n fun x =>
      if x.scrubAt + 1 = stackWords then { x with scrubAt := 0, passes := satAt 0x1FFFF (x.passes + 1), seen := [] } else { x with scrubAt := x.scrubAt + 1 })) ∧
  (∀ (s : State) (n row : Nat) (rest : List Nat), s.runs = true → n < 8 → (s.stack n).copying = row :: rest → s.dmg = [] →
    exec (.rowSpared n []) s = .next ((s.modStack n fun x => { x with
      copying := rest, moved := if x.moved.contains row then x.moved else x.moved ++ [row],
      seen := x.seen.filter fun a => rowNum (a % stackBytes) != row, written := x.written.filter fun a => rowNum (a % stackBytes) != row,
      spares := SMap.set 0 x.spares (row / 65536) (x.spares.get 0 (row / 65536) + 1) }).stackEvent n Code.rowSpared row)) ∧
  (∀ (s : State) (n i q op p : Nat) (o : Org) (g : GrantR) (dl fr : Bool) (cl : List Nat), s.runs = true → n < 8 →
    findAt (fun (d : Defr) => match d.k with
       | .grant q g _ cl _ => (stksMoved (s.part q).grant g).contains n && !cl.contains n
       | _ => false) s.defs = some (i, ⟨o, p, op, .grant q g dl cl fr⟩) → s.losersIdle q g = true →
    let v := if fr then s else s.freeBlocks q g
    let u := { v with mem := v.mem.clear (stackBase n) stackBytes, defs := putAt v.defs i ⟨o, p, op, .grant q g dl (cl ++ [n]) true⟩ }.mend
      (stackBase n) stackBytes
    ((∃ x ∈ stksMoved (s.part q).grant g, x ∉ cl ++ [n]) → exec (.stackClearDone n) s = .next u) ∧
    ((∀ x ∈ stksMoved (s.part q).grant g, x ∈ cl ++ [n]) → exec (.stackClearDone n) s = .next (u.grantApply i o op q g dl)) ∧
    (∀ b, stackBase n ≤ b → b < stackBase n + stackBytes → u.mem.byte b = 0) ∧
    (∀ b, b < stackBase n ∨ stackBase n + stackBytes ≤ b → u.mem.byte b = v.mem.byte b)) ∧
  (∀ (s : State) (o : Org) (n p : Nat), s.servedBy o p → n < 8 → n ∈ (s.part p).grant.stks → (s.stack n).clearing = none →
    exec (.hstkEccClear o n) s = .next ((s.modStack n fun x => { x with corr := 0, unc := 0 }).complete o 0x0011 Code.ok [])) ∧
  (∀ (s : State) (o : Org) (n p : Nat), s.servedBy o p →
    (n < 4 → p = 0 → exec (.coreEccClear o true n) s = .next ({ s with dieEcc := putAt s.dieEcc n (0, 0) }.complete o 0x0011 Code.ok [])) ∧
    (n < 3072 → s.reaches p n = true →
      exec (.coreEccClear o false n) s = .next ((s.modCore n fun x => { x with eccCorr := 0, eccUnc := 0 }).complete o 0x0011 Code.ok [])))

/-- A RED frame from the predecessor of its level that is the next of its stream, continues its sub-piece and passes the group
checks is accepted: the partial sums are added to the module's own values entry by entry; the sums of the own sub-piece are kept
(State.sumDone: in WORK), those of another sub-piece go on to the successor, with as many entries counted. The check of R344 that a
group fails ends the step with LINK_ADD_MISMATCH at that group's first entry. The stacks that this accesses have room for it
(State.roomFor); where one has none, nothing of it happens yet and the port takes its place in line (R45, R298; log entry 123).
Completes: RED_FRAME. -/
def Obligations.PartialSumFramesAdd : Prop :=
  ∀ (s u : State) (b : Nat) (d : Dgram) (c : Nat) (tab : RingTab) (body : List Byte) (t : Step) (q : PStep) (j first total : Nat) (x : List W32),
    s.ringGot b d 1 c tab body → let f := RingF.read d.data
    let l := f.lvl
    let h := tab.h
    let pred := (h.pos l + h.n l - 1) % h.n l
    s.ringNext b f c 1 t q → 1 ≤ f.count → f.count ≤ maxCount h → body.length = 4 * f.count + 4 * cdiv f.count 64 → l ≤ h.levels →
    h.standby = false → 1 < h.n l → f.arg1 = 0 → memberFrame h f l pred = true → subOf t q h l f.arg0 = some (j, first, total) → j ≠ pred →
    let done := if j = h.pos l then nth 0 q.sums (l - 1) else q.got.get 0 (64 * l + j)
    f.arg0 = first + done → done + f.count ≤ total → (f.last = true ↔ done + f.count = total) →
    (l = 1 ∨ f.arg0 - 256 * (q.piece (l - 1)).1 + f.count ≤ nth 0 q.sums (l - 2)) → (j = h.pos l ∨ s.retainRoom b (body.length + 64) = true) →
    s.ownValues b t q l f.arg0 f.count = (u, x, true) →
    let rv := words32 body f.count
    let out := (rv.zip x).map fun y => fadd y.1 y.2
    let checks := ((chunks 64 rv).zip ((chunks 64 x).zip ((chunks 64 out).zip (words32 (body.drop (4 * f.count)) (cdiv f.count 64))))).map fun y =>
      groupOk y.1 y.2.1 y.2.2.1 y.2.2.2
    let v := u.accepted c b 1 1 l f.step f.last (tab.ent l pred)
    ∀ r : State,
      (firstBad checks f.arg0 = none ∧ j = h.pos l ∧ r = v.sumDone c b l f.arg0 out ∨
       firstBad checks f.arg0 = none ∧ j ≠ h.pos l ∧ r = ((v.streamSend c b 1 l 0 1 f.last f.arg0 f.count (valueBody out)).modPStep c b fun q =>
         { q with got := SMap.set 0 q.got (64 * l + j) (done + f.count) }).stepNext c ∨
       ∃ bad, firstBad checks f.arg0 = some bad ∧ r = u.stepFail c Code.linkAddMismatch b l (h.pos l) bad) →
      (s.roomFor (.link b) r = true → exec (.redFrame b d) s = .next (s.through (.link b) r)) ∧
      (s.roomFor (.link b) r = false → exec (.redFrame b d) s = .next (s.inLine (.link b) r))

/-- Where the stacks have room for it, a BCC frame (corrections, added to the replica) or BCF frame (full values, that replace it)
from the predecessor of its level that is the next of its stream and continues its sub-piece, with a good check of its groups, is
accepted: the entries are reconstructed in the replica, kept above level 1 (WORK or CBUF) for the next level down, counted, and sent
on to the successor (and to the standbys from position 0 of level 1) while the module is not the one before the sub-piece's owner.
Completes: BCF_FRAME, BCC_FRAME. -/
def Obligations.BroadcastFramesReconstruct : Prop :=
  ∀ (s u w : State) (b : Nat) (d : Dgram) (full : Bool) (c : Nat) (tab : RingTab) (body : List Byte) (t : Step) (q : PStep) (j a total : Nat),
    s.ringGot b d (if full then 3 else 2) c tab body → let f := RingF.read d.data
    let l := f.lvl
    let h := tab.h
    let pred := (h.pos l + h.n l - 1) % h.n l
    s.ringNext b f c 2 t q → h.standby = false → l ≤ h.levels → 1 < h.n l → f.arg1 = 0 → memberFrame h f l pred = true →
    let first := if full then f.arg0 else 256 * f.arg0
    subOf t q h l first = some (j, a, total) → j ≠ h.pos l →
    let done := q.bgot.get 0 (64 * l + j)
    let n := if full then f.count else min (256 * f.count) (total - (first - a))
    1 ≤ f.count → (if full then f.count ≤ maxCount h else f.count ≤ 252) →
    body.length = (if full then 4 * f.count + 4 * cdiv f.count 64 else 36 * f.count) →
    first = a + done → 0 < n → done + n ≤ total → (f.last = true ↔ done + n = total) →
    (full = true ∨ (n = 256 * f.count ∨ done + n = total) ∧ f.count ≤ cdiv n 256) →
    let onward := j != (h.pos l + 1) % h.n l
    s.retainRoom b ((body.length + 64) * (b2n onward + if l = 1 ∧ h.pos1 = 0 then h.nspare else 0)) = true →
    let vs := if full then words32 body n else (List.range f.count).flatMap fun i => corrValues (slice body (36 * i) 36) (min 256 (n - 256 * i))
    (full = true → firstBad (((groupWords vs).zip (words32 (body.drop (4 * n)) (cdiv n 64))).map fun y => y.1 == y.2) first = none) →
    s.reconstruct t first n (fun r i => if full then nth 0#32 vs i else fadd r (nth 0#32 vs i)) = (u, true) →
    (if l = 1 then (u, true) else if full then u.workWrite b t q first vs
      else u.reqWrite (nth 0 t.o.cbuf b + 36 * (first / 256 - (q.piece 1).1)) body) = (w, true) →
    let v := w.accepted c b 2 f.type l f.step f.last (tab.ent l pred)
    let r := ((v.modPStep c b fun q =>
        let q := { q with bgot := SMap.set 0 q.bgot (64 * l + j) (done + n), recon := q.recon + n, writes := q.writes + 1 }
        if l = 1 then q else q.hold first n full).spreadSend c b l f.type onward f.last f.arg0 f.count (if full then valueBody vs else body)).stepNext c
    s.roomFor (.link b) r = true →
    (full = true → exec (.bcfFrame b d) s = .next (s.through (.link b) r)) ∧
    (full = false → exec (.bccFrame b d) s = .next (s.through (.link b) r))

/-- An ACK of the running step from the successor, READY 1 and GAP 0, drops the frames below its number from the stream and releases
it; READY 0 holds the stream. A NORM frame of the running step is acknowledged, its value is taken in for its level and position,
and the norm lane goes on (the step's barrier starts once its conditions hold); a BAR frame of the running barrier likewise. A frame
that matches no table is counted in FOREIGN. Fifty microseconds without an advance resend every kept frame identical and count the
resend, from the ninth on the step fails with RING_TIMEOUT; a NORM or BAR frame not acknowledged leaves again identical. Ring frames
carry the VLAN and PRIO of their table, ACK, NORM and BAR frames priority 7. At a frame's end the transmitter picks the next message
(State.pick; whether a held-back partition is told of it is log entry 63). Completes: ACK_FRAME, NORM_FRAME, BAR_FRAME,
UNMATCHED_RING_FRAME, RING_RESEND_TIMEOUT, PRIORITY_RESEND_TIMEOUT, TRANSMITTER_FRAME_END. -/
def Obligations.RingAnswersAndResends : Prop :=
  (∀ (s : State) (b c : Nat) (d : Dgram) (tab : RingTab) (t : Step) (q : PStep), s.ringGot b d 4 c tab [] → let f := RingF.read d.data
    f.count = 0 → f.arg1 < 2 ^ 9 → (let ty := f.arg1 % 256; ty = 1 ∨ ty = 2 ∨ ty = 3) →
    (s.memb c).step = some t → t.port b = some q → t.d.step = f.step → f.standby = false →
    memberFrame tab.h f f.lvl ((tab.h.pos f.lvl + 1) % tab.h.n f.lvl) = true →
    let x := q.stream (if f.arg1 % 256 = 1 then 1 else 2) f.lvl 0
    let kept := x.kept.filter fun k => decide (f.arg0 ≤ k.lseq)
    (256 ≤ f.arg1 → exec (.ackFrame b d) s = .next (s.modPStep c b fun q => q.setStream
      { x with kept := kept, held := false, resends := if kept.length < x.kept.length then 0 else x.resends })) ∧
    (f.arg1 < 256 → exec (.ackFrame b d) s = .next (s.modPStep c b fun q => q.setStream { x with held := true }))) ∧
  (∀ (s : State) (b c : Nat) (d : Dgram) (tab : RingTab) (t : Step), s.ringGot b d 5 c tab [] → let f := RingF.read d.data
    let pos := f.posAt f.lvl
    f.count = 0 → memberFrame tab.h f f.lvl pos = true → pos < tab.h.n f.lvl → (s.memb c).step = some t → (s.memb c).cur = f.step → (s.memb c).dead.contains f.step = false →
    tab.h.standby = false →
    exec (.normFrame b d) s = .next ((((s.ringAck c b 5 f.lvl f.round f.step 1 true false (tab.ent f.lvl pos)).modStep c fun t =>
      { t with lane := t.lane.take f.lvl pos (BitVec.ofNat 32 f.arg0) }).normRun c).stepBar c)) ∧
  (∀ (s : State) (b c : Nat) (d : Dgram) (tab : RingTab) (x : Bar), s.ringGot b d 6 c tab [] → let f := RingF.read d.data
    let pos := f.posAt f.lvl
    f.count = 0 → f.arg0 = 0 → memberFrame tab.h f f.lvl pos = true → pos < tab.h.n f.lvl → tab.h.standby = false →
    (s.memb c).bar = some x → x.num = f.step → (s.memb c).barDead.contains f.step = false →
    exec (.barFrame b d) s = .next (((s.ringAck c b 6 f.lvl f.round f.step 1 true false (tab.ent f.lvl pos)).modMemb c fun m =>
      { m with bar := m.bar.map fun x => { x with lane := x.lane.take f.lvl pos 0#32 } }).barNext c)) ∧
  (∀ (s : State) (b : Nat) (d : Dgram), s.runs = true → b < 4 → s.portUp (4 + b) = true → s.ringMatch b d = none →
    exec (.unmatchedRingFrame b d) s = .next (s.modPort (4 + b) fun x => { x with foreign := min 0xFFFF (x.foreign + 1) })) ∧
  (∀ (s : State) (c b phase lvl peer : Nat) (t : Step) (tab : RingTab) (q : PStep) (x : RTx), s.runs = true → c < 8 → b < 4 →
    (s.memb c).step = some t → (s.memb c).tab b = some tab → t.port b = some q →
    q.tx.find? (fun x => x.phase == phase && x.lvl == lvl && x.peer == peer) = some x → x.kept ≠ [] →
    (x.held = true ∨ x.resends < 8 → let e := if peer = 0 then tab.ent lvl ((tab.h.pos lvl + 1) % tab.h.n lvl) else tab.ent 4 (peer - 1)
      exec (.ringResendTimeout c b phase lvl peer) s = .next (x.kept.foldl (fun u k => u.transmit (4 + b) (ringMsg c tab.h false e k.data))
        ((s.modPStep c b fun q => q.setStream { x with resends := if x.held then x.resends else x.resends + 1 }).modMemb c fun m =>
          { m with resent := min 0xFFFFFFFF (m.resent + x.kept.length) }))) ∧
    (x.held = false → 8 ≤ x.resends → exec (.ringResendTimeout c b phase lvl peer) s = .next (s.stepFail c Code.ringTimeout b lvl (tab.h.pos lvl) 0))) ∧
  (∀ (s : State) (c b lvl pos : Nat) (data : List Byte) (rest : List (Nat × Nat × List Byte)) (tab : RingTab), s.runs = true → c < 8 → s.laneTab c = some (b, tab) →
    (∀ t, (s.memb c).step = some t → t.lane.unacked = (lvl, pos, data) :: rest →
      exec (.priorityResendTimeout c false) s = .next ((s.modMemb c fun m =>
        { m with resent := min 0xFFFFFFFF (m.resent + 1), step := m.step.map fun x => { x with lane := { t.lane with unacked := rest ++ [(lvl, pos, data)] } } }).transmit (4 + b)
          (ringMsg c tab.h true (tab.ent lvl pos) data))) ∧
    (∀ x, (s.memb c).bar = some x → x.lane.unacked = (lvl, pos, data) :: rest →
      exec (.priorityResendTimeout c true) s = .next ((s.modMemb c fun m =>
        { m with resent := min 0xFFFFFFFF (m.resent + 1), bar := m.bar.map fun y => { y with lane := { x.lane with unacked := rest ++ [(lvl, pos, data)] } } }).transmit (4 + b)
          (ringMsg c tab.h true (tab.ent lvl pos) data)))) ∧
  (∀ (c : Nat) (h : RingHdr) (high : Bool) (e : RingEnt) (data : List Byte),
    ringMsg c h high e data = ⟨high, some (if high then 7 else h.prio, h.vlan), c, 0, e.mac, e.ip, h.udp, data⟩) ∧
  (∀ (s : State) (i : Nat), s.runs = true → i < 8 → let u := (s.modPort i fun x => { x with cur := none }).pick i
    (4 ≤ i ∨ (s.port i).cur = none → exec (.transmitterFrameEnd i) s = .next u) ∧
    ∃ t, exec (.transmitterFrameEnd i) s = .next t ∧ (t = u ∨ ∃ m, (s.port i).cur = some m ∧ t = u.yields m.who 4 5 5))

/-- A LNKB_RINGTAB.LOAD of a membership of the sender's view, idle and with a key that the table may use, whose table passes R329
completes OK: the port holds the table, VALID is 1, the counts are 0 and GEN is the last one loaded. RING_KEY on an idle membership
completes OK with the key loaded, every port fresh and the frame counters 0. RING_STEP with no step running or pending completes OK
with the descriptor pending. A descriptor at the step input whose membership is free becomes pending and its route gets a credit; a
pending one whose checks pass starts its step on every port, one whose check fails posts the step's completion record with that
code, where the stacks have room for what the checks read. Completes: RING_TABLE_LOAD, RING_KEY, RING_STEP, STEP_DESCRIPTOR. -/
def Obligations.RingTablesKeysAndSteps : Prop :=
  (∀ (s : State) (o : Org) (b m addr p c : Nat), s.servedBy o p → b < 4 → m < 8 → s.ctxOf p m = some c → (s.memb c).busy = false →
    addr % 64 = 0 → addr < 2 ^ 48 →
    let h := RingHdr.read (s.viewRead p addr 64)
    let bs := s.viewRead p addr (64 + 32 * h.count)
    let hb := slice bs 0 64
    let es := (List.range h.count).map fun i => slice bs (64 + 32 * i) 32
    (∀ i < cdiv (64 + 32 * h.count) 16, ∀ a, s.sharedAddr p (addr + 16 * i) = some a → (s.readErrors a 16).2 = 0) →
    s.sharedIn p addr 64 = true → s.sharedIn p addr (64 + 32 * h.count) = true → ringTableOk b hb h es = true → (s.memb c).key ≠ none →
    (nth false (s.memb c).fresh b = true ∨ nth 0 (s.memb c).lastGen b ≠ h.gen) →
    ∃ t : State, exec (.ringTableLoad o b m addr) s = .next (t.complete o 0x0011 Code.ok []) ∧
      t.memb c = { { s.memb c with
          taddr := putAt (s.memb c).taddr b (addr / 64)
          tvalid := putAt (putAt (s.memb c).tvalid b false) b true
          tabs := putAt (s.memb c).tabs b (some ⟨h, es.map RingEnt.read⟩)
          fresh := putAt (s.memb c).fresh b false } with
          lastGen := putAt (s.memb c).lastGen b h.gen, resent := 0, reject := 0, barNum := 0, barDead := [] } ∧
      (∀ d, d ≠ c → t.memb d = s.memb d) ∧ t.mem = s.mem ∧ t.parts = s.parts) ∧
  (∀ (s : State) (o : Org) (m p c : Nat) (key : List Byte), s.servedBy o p → s.ctxOf p m = some c → (s.memb c).busy = false → s.holdsMemb c = false →
    exec (.ringKey o m key) s = .next ((s.modMemb c fun x =>
      { x with key := some (padTo 32 key), fresh := [true, true, true, true], fcnt := [0, 0, 0, 0] }).complete o 0x0030 Code.ok [])) ∧
  (∀ (s : State) (o : Org) (p c : Nat) (desc : List Byte), s.servedBy o p → s.ctxOf p (StepD.read desc).ring = some c → s.holdsMemb c = false →
    ((s.memb c).step = none → (s.memb c).pend = none →
      exec (.ringStep o desc) s = .next ((s.modMemb c fun x => { x with pend := some desc }).complete o 0x0031 Code.ok [])) ∧
    ((s.memb c).step ≠ none ∨ (s.memb c).pend ≠ none → exec (.ringStep o desc) s = .next (s.complete o 0x0031 Code.busy []))) ∧
  (∀ (s : State) (b n c : Nat) (fl : Flit), s.runs = true → b < 4 → let core := portBCore s.grade b
    firstOf 0 (fun f => f.dst.tgt == 3 && (match s.ctxOf f.part (StepD.read f.entry).ring with
      | some c => (s.memb c).pend.isNone
      | none => true)) s.now (s.router core).arrE = some (n, fl) →
    s.ctxOf fl.part (StepD.read fl.entry).ring = some c → (s.memb c).step ≠ none → (∀ d, d ≠ c → (s.memb d).pend = none ∨ (s.memb d).step ≠ none) →
    exec (.stepDescriptor b) s = .next ((s.edgeTaken core n fl.src).modMemb c fun m => { m with pend := some fl.entry })) ∧
  (∀ (s : State) (b c p m : Nat) (e : List Byte), s.runs = true → b < 4 →
    (s.router (portBCore s.grade b)).arrE = [] → c < 8 → (s.memb c).pend = some e → (s.memb c).step = none → s.ctxHolder c = some (p, m) →
    (∀ d, d ≠ c → (s.memb d).pend = none) →
    let u := s.modMemb c fun m => { m with pend := none }
    (∀ t v, (u.stepCheck p c e) = (v, Code.ok, some t) →
      let r := v.modMemb c fun m =>
        { m with step := some t, cur := (StepD.read e).step, failed := false, dead := m.dead.filter (· != (StepD.read e).step) }
      (s.roomFor (.link b) r = true → exec (.stepDescriptor b) s = .next (s.through (.link b) r)) ∧
      (s.roomFor (.link b) r = false → exec (.stepDescriptor b) s = .next (s.inLine (.link b) r))) ∧
    (∀ v code, (u.stepCheck p c e) = (v, code, none) →
      let r := (v.modMemb c fun m => { m with code := code }).stepRecord c code
        (StepD.read e).tag (StepD.read e).step 0xFF 0xFF 0xFF 0
      s.roomFor (.link b) r = true → exec (.stepDescriptor b) s = .next (s.through (.link b) r)))

/-- An ARRIVE flag of an enabled barrier that has gone from clear to set, the barrier not busy and on a membership where the module
is no standby, is cleared, BUSY is set and the barrier starts on its membership and goes on as far as its frames allow. A barrier of
PART_BARRIER that runs out of time leaves the membership, tells RING_TIMEOUT, and BUSY ends; a barrier of a step ends the step with
that code; one that is done only waits for its own acknowledgements. A step that still expects frames or acknowledgements and runs
out of time fails with RING_TIMEOUT; a complete one (State.stepComplete: R361) ends with its DONE flag and its record, once the
owner states that it updated are marked. An ABORT of a step that runs and is not complete completes OK, with the step failed as
RING_ABORTED; after a step that has completed it completes ABORT_NO_EFFECT, and after none or a failed one OK (log entry 109). (What
the events carry is log entry 126.) Completes: BARRIER_ARRIVE, BARRIER_TIMEOUT, RING_PROGRESS_TIMEOUT, STEP_COMPLETE,
RING_STEP_ABORT. -/
def Obligations.BarriersStepsEnd : Prop :=
  (∀ (s : State) (p c : Nat) (x : Nat × RingTab), s.runs = true → p < 8 → let y := (s.part p).barrier
    s.ctxOf p y.ring = some c → y.en = true → y.due = true → y.busy = false → ((s.part p).cflag y.arrive).read s.now = true → s.laneTab c = some x → x.2.h.standby = false →
    exec (.barrierArrive p) s = .next ((((s.setChipFlag p y.arrive ⟨false, 6, none, 0, 0⟩).modPart p fun z =>
      { z with barrier := { z.barrier with busy := true } }).barStart c y.levels true).barNext c)) ∧
  (∀ (s : State) (c b : Nat) (x : Bar) (tab : RingTab), s.runs = true → c < 8 → (s.memb c).bar = some x → s.laneTab c = some (b, tab) →
    let u := s.stepEvent c Code.ringTimeout b x.num (s.ownModid c b)
    (x.told = false → x.chip = true →
      exec (.barrierTimeout c) s = .next (((u.modMemb c fun m => { m with bar := none }).chipBarEnd c false).barNext c)) ∧
    (x.told = false → x.chip = false →
      exec (.barrierTimeout c) s = .next (u.stepFail c Code.ringTimeout b x.lane.lvl (tab.h.pos x.lane.lvl) 0)) ∧
    (x.told = true → exec (.barrierTimeout c) s = .next s)) ∧
  (∀ (s : State) (c : Nat) (t : Step), s.runs = true → c < 8 → (s.memb c).step = some t →
    let v := s.stepFail c Code.ringTimeout (s.lagging c).1 0xFF (s.lagging c).2 0
    (t.spread = false ∨ t.lane.unacked ≠ [] → exec (.ringProgressTimeout c) s = .next v) ∧
    (t.spread = true → t.lane.unacked = [] → exec (.ringProgressTimeout c) s = .next s) ∧
    (v.memb c).step = none ∧ (v.memb c).code = Code.ringTimeout) ∧
  (∀ (s v : State) (c p m : Nat) (t : Step) (lost : Option Nat), s.runs = true → c < 8 → s.stepComplete c = true → (s.memb c).step = some t →
    s.ctxHolder c = some (p, m) →
    (t.skipped = true → exec (.stepComplete c) s = .next
      ((if t.d.dfen then (s.modMemb c fun x => { x with step := none, code := Code.gradNonfinite }).setChipFlag p t.d.done ⟨true, 6, none, 0, 0⟩
        else s.modMemb c fun x => { x with step := none, code := Code.gradNonfinite }).stepRecord c Code.gradNonfinite t.d.tag t.d.step 0xFF 0xFF 0xFF 0)) ∧
    (t.skipped = false → t.ports.foldl (fun (acc : State × Option Nat) x =>
        if x.2.full.isNone ∨ acc.2.isSome then acc
        else
          let y := acc.1.reqWrite (nth 0 t.o.ostate x.1 + 2) [1]
          let z := if y.2 then y.1.reqWrite (nth 0 t.o.ostate x.1 + 36) (natLe 4 t.d.step) else y
          (z.1, if z.2 then none else some x.1)) (s, none) = (v, lost) →
      let u := v.modMemb c fun x => { x with step := none, code := Code.ok, lastOk := t.d.step }
      let r := match lost with
        | none => (if t.d.dfen then u.setChipFlag p t.d.done ⟨true, 6, none, 0, 0⟩ else u).stepRecord c Code.ok t.d.tag t.d.step 0xFF 0xFF 0xFF 0
        | some b => v.stepFail c Code.uncorrectableData b 0xFF 0xFF 0
      (s.roomFor (.link (s.lanePort c)) r = true → exec (.stepComplete c) s = .next (s.through (.link (s.lanePort c)) r)) ∧
      (s.roomFor (.link (s.lanePort c)) r = false → exec (.stepComplete c) s = .next (s.inLine (.link (s.lanePort c)) r)))) ∧
  (∀ (s : State) (o : Org) (m p c : Nat), s.servedBy o p → p < 8 → m < 8 → s.ctxOf p m = some c →
    (∀ t, (s.memb c).step = some t → s.stepComplete c = false →
      exec (.ringStepAbort o m) s = .next ((s.stepFail c Code.ringAborted 0xFF 0xFF 0xFF 0).complete o 0x0011 Code.ok [])) ∧
    ((s.memb c).step = none → exec (.ringStepAbort o m) s = .next (s.complete o 0x0011
      (if (s.memb c).cur ≠ 0 ∧ (s.memb c).failed = false ∧ ((s.memb c).code = Code.ok ∨ (s.memb c).code = Code.gradNonfinite) then Code.abortNoEffect
        else Code.ok) [])))

/-- With the norm known and the kind of the shard decided, the next block of a port's shard is updated by the optimizer from the
owner records and the sums: with finite results the records (error memory included) are written back, the full values go to WORK or
the corrections to CBUF, the module's own replica takes them, and one more block is updated and held. A write of a reconstruction
that completes leaves one less to wait for. A read completion lets the port start its level-1 chain: the next entries of the
gradients go to the successor as a RED frame and are counted as sent. Each where the stacks that it accesses have room for it.
Completes: UPDATE_BLOCK, STACK_REQUESTER_COMPLETION. -/
def Obligations.UpdatesAndRequesterSends : Prop :=
  (∀ (s s1 s2 s3 s4 u : State) (c b : Nat) (t : Step) (tab : RingTab) (q : PStep) (qv : W32) (full : Bool) (rb : List Byte) (g : List W32),
    s.runs = true → c < 8 → b < 4 → (s.memb c).step = some t → (s.memb c).tab b = some tab → t.port b = some q → t.q = some qv →
    let h := tab.h
    let sh := q.piece h.levels
    t.skipped = false → h.standby = false → q.upd < sh.2 → q.full = some full →
    let e := t.ents (sh.1 + q.upd, 1)
    let at_ := nth 0 t.o.ostate b + 64 + 16 * (e.1 - (t.ents sh).1)
    s.reqRead at_ (16 * e.2) = (s1, rb, true) → s1.ownValues b t q 2 e.1 e.2 = (s2, g, true) →
    let nrm := fsqrt qv
    let clip := if flt 0#32 t.o.clip && flt t.o.clip nrm then fdiv t.o.clip nrm else one32
    let rs := (List.range e.2).map fun i =>
      let r := OwnerR.read (slice rb (16 * i) 16)
      let gh := fmul (nth 0#32 g i) t.d.gscale
      (r, optimize t.o t.k t.d.lr r (if clip = one32 then gh else fmul gh clip))
    (∀ x ∈ rs, isFinite x.2.1.w = true ∧ isFinite x.2.1.m = true ∧ isFinite x.2.1.v = true ∧ isFinite x.2.2 = true) →
    let us := rs.map fun x => fadd (fsub x.2.1.w x.1.w) x.1.e
    let cr := corrections us
    (full = true ∨ (∀ x ∈ us, isFinite x = true) ∧ isFinite cr.1 = true) →
    let es := if full then us.map fun _ => 0#32 else cr.2.2
    s2.reqWrite at_ ((rs.zip es).flatMap fun x => OwnerR.bytes { x.1.2.1 with e := x.2 }) = (s3, true) →
    let ws := rs.map fun x => x.2.1.w
    (if full then s3.workWrite b t q e.1 ws
      else s3.reqWrite (nth 0 t.o.cbuf b + 36 * (e.1 / 256 - (q.piece 1).1)) (corrBytes cr.1 cr.2.1)) = (s4, true) →
    s4.reconstruct t e.1 e.2 (fun r i => if full then nth 0#32 ws i else fadd r (nth 0#32 (corrValues (corrBytes cr.1 cr.2.1) e.2) i)) = (u, true) →
    let r := (u.modPStep c b fun q =>
      { q with upd := q.upd + 1, recon := q.recon + e.2, writes := q.writes + 1 }.hold e.1 e.2 full).stepNext c
    (s.roomFor (.link b) r = true → exec (.updateBlock c b) s = .next (s.through (.link b) r)) ∧
    (s.roomFor (.link b) r = false → exec (.updateBlock c b) s = .next (s.inLine (.link b) r))) ∧
  (∀ (s : State) (c b : Nat), s.runs = true → c < 8 → b < 4 →
    let r := (s.modPStep c b fun q => { q with writes := q.writes - 1 }).stepNext c
    (s.roomFor (.link b) r = true → exec (.stackRequesterCompletion c b true) s = .next (s.through (.link b) r)) ∧
    (s.roomFor (.link b) r = false → exec (.stackRequesterCompletion c b true) s = .next (s.inLine (.link b) r))) ∧
  (∀ (s u : State) (c b : Nat) (t : Step) (tab : RingTab) (q : PStep) (v : List W32), s.runs = true → c < 8 → b < 4 →
    (s.memb c).step = some t → (s.memb c).tab b = some tab → t.port b = some q → 1 ≤ tab.h.levels → tab.h.n 1 ≠ 1 →
    let ch := t.ents (q.chain tab.h 1)
    let done := nth 0 q.sent 0
    let n := min (maxCount tab.h) (ch.2 - done)
    n ≠ 0 → s.retainRoom b (4 * n + 4 * cdiv n 64 + 64) = true → s.ownValues b t q 1 (ch.1 + done) n = (u, v, true) →
    let r := ((u.streamSend c b 1 1 0 1 (decide (done + n = ch.2)) (ch.1 + done) n (valueBody v)).modPStep c b fun q =>
      { q with sent := addAt q.sent 0 n }).stepNext c
    (s.roomFor (.link b) r = true → exec (.stackRequesterCompletion c b false) s = .next (s.through (.link b) r)) ∧
    (s.roomFor (.link b) r = false → exec (.stackRequesterCompletion c b false) s = .next (s.inLine (.link b) r)))

/-- A well-formed INIT, new to its port, with fields in range, fewer than 64 INITs in the last second, fewer than 16 half-open
sessions and no reason to refuse it, is answered: a half-open session is kept, with a nonzero identifier that nothing uses, and its
REPLY leaves for the sender in its partition's turn (R371). A repeated INIT gets the same REPLY; one with a reason to refuse it gets
a REJECT with that reason, which is 5 in a module that is not in service. A well-formed CONFIRM of a half-open session whose
signature verifies under a key of its partition opens the session (keys and empty rings as R376 and R386 say), which gets the
records that were held for it, and an ACK; a signature that does not verify is rejected with reason 4 and the half-open session
dropped. A half-open session expires: it is dropped. Completes: INIT, CONFIRM, HALF_OPEN_EXPIRY. -/
def Obligations.SessionsOpen : Prop :=
  (∀ (s : State) (i : Nat) (d : Dgram), i < 4 → s.arrives i d 1 = true → let h := RHdr.read d.data
    let b := d.data.drop 24
    let recent := (s.port i).inits.filter fun t => decide (s.now < t + s.clock * 1000000)
    h.magic = 0x4E52 → h.ver = 1 → h.sid = 0 → h.len = 96 → b.length = 96 → recent.length < 64 →
    let u := s.modPort i fun x => { x with inits := recent ++ [s.now] }
    let good := fld b 0 1 ≤ 1 ∧ 1 ≤ fld b 1 1 ∧ bits (fld b 3 1) 3 0 ≤ 4 ∧ bits (fld b 3 1) 7 4 ≤ 4 ∧ 1232 ≤ fld b 4 2 ∧ fld b 4 2 ≤ 9146
    ((u.port i).half.find? (fun x => x.init == d.data) = none → good →
      u.refusal i (fld b 2 1) = 0 → (u.port i).half.length < 16 → s.sids.length + 1 < 2 ^ 64 →
      ∃ x : HalfOpen, x.sid ≠ 0 ∧ x.sid ∉ s.sids ∧ x.part = fld b 2 1 ∧ x.rings = fld b 3 1 ∧ x.msgmax = fld b 4 2 ∧ x.init = d.data ∧
        x.mac = d.mac ∧ x.ip = d.src ∧ x.udp = d.sport ∧
        exec (.init i d) s = .next (({ u with free := s.free + 3 }.modPort i fun p => { p with half := p.half ++ [x] }).transmit i
          ⟨false, none, x.part, x.sid, d.mac, d.src, d.sport, x.reply⟩)) ∧
    ((u.port i).half.find? (fun x => x.init == d.data) = none → good → u.refusal i (fld b 2 1) ≠ 0 →
      exec (.init i d) s = .next (u.rejectMsg i (fld b 2 1) d (u.refusal i (fld b 2 1)))) ∧
    (∀ x, (u.port i).half.find? (fun x => x.init == d.data) = some x →
      exec (.init i d) s = .next (u.setupMsg i x.part x.sid d x.reply))) ∧
  (∀ (s : State) (i p : Nat), s.runs = false → p ≤ 7 → s.defined.contains p = true → nth 0 (s.part p).grant.shares i ≠ 0 →
    (s.sess.filter fun x => x.part == p).length < 16 → s.sess.length < 64 → s.refusal i p = 5) ∧
  (∀ (s : State) (i : Nat) (d : Dgram) (x : HalfOpen), i < 4 → s.arrives i d 3 = true → let h := RHdr.read d.data
    h.magic = 0x4E52 → h.ver = 1 → h.len = 178 → d.data.length = 202 → (s.port i).half.find? (fun x => x.sid == h.sid) = some x →
    let u := s.modPort i fun y => { y with half := y.half.filter fun z => z.sid != x.sid }
    u.refusal i x.part = 0 →
    (u.confirmOk x d.data = true → exec (.confirm i d) s = .next (({ u with sess := u.sess ++ [x.open_ i d] }.release x.sid).sendAck x.sid)) ∧
    (u.confirmOk x d.data = false → exec (.confirm i d) s = .next (u.rejectMsg i x.part d 4))) ∧
  (∀ (s : State) (i sid : Nat), s.runs = true → i < 4 →
    exec (.halfOpenExpiry i sid) s = .next (s.modPort i fun x => { x with half := x.half.filter fun h => h.sid != sid }))

/-- A port that receives answers an ARP request or an echo request for one of its own addresses and counts any other frame in
FOREIGN. An enabled port comes up with its partner and picks a message; a lost partner takes LINK to 0. The ACK timer sends the ACK
that is due; a retransmission time sends the message again, counts it, and after 12 resends ends the session, as does 30 s without a
message: it leaves the table of sessions. Completes: ARP_REQUEST, ECHO_REQUEST, FOREIGN_FRAME, LINK_UP, LINK_DOWN, RANOW_ACK_TIMER,
RANOW_RETRANSMIT, SESSION_TIMEOUT. -/
def Obligations.PortsAnswerAndTimersRun : Prop :=
  (∀ (s : State) (i mac target : Nat), i < 4 → s.portUp i = true →
    ((s.port i).cfg.owns target = true → exec (.arpRequest i mac target) s = .next (s.transmit i ⟨true, none, 0, 0, mac, target, 0,
      natLe 6 (s.port i).cfg.mac ++ natLe 16 target⟩)) ∧
    ((s.port i).cfg.owns target = false → exec (.arpRequest i mac target) s = .next (s.modPort i fun x => { x with foreign := min 0xFFFF (x.foreign + 1) }))) ∧
  (∀ (s : State) (i : Nat) (d : Dgram), i < 4 → s.portUp i = true →
    ((s.port i).cfg.owns d.dst = true → exec (.echoRequest i d) s = .next (s.transmit i ⟨true, none, 0, 0, d.mac, d.src, 0, d.data⟩)) ∧
    ((s.port i).cfg.owns d.dst = false → exec (.echoRequest i d) s = .next (s.modPort i fun x => { x with foreign := min 0xFFFF (x.foreign + 1) }))) ∧
  (∀ (s : State) (i : Nat), i < 4 → s.portUp i = true →
    exec (.foreignFrame i) s = .next (s.modPort i fun x => { x with foreign := min 0xFFFF (x.foreign + 1) })) ∧
  (∀ (s : State) (i : Nat), i < 8 → ((s.port i).enabled = true → exec (.linkUp i) s = .next ((s.modPort i fun x => { x with link := true }).pick i)) ∧
    exec (.linkDown i) s = .next (s.modPort i fun x => { x with link := false })) ∧
  (∀ (s : State) (sid : Nat) (x : Sess), s.runs = true → s.session sid = some x → x.ackDue = true →
    exec (.ranowAckTimer sid) s = .next ((s.modSess sid fun y => { y with ackDue := false, rxSince := 0 }).sendCtl sid 0x10
      (natLe 8 x.rxNext ++ natLe 32 ((x.rxBuf.map fun y => 2 ^ (y.1 - x.rxNext - 1)).sum) ++ natLe 4 x.chead ++ natLe 4 0))) ∧
  (∀ (s : State) (sid seq : Nat) (x : Sess) (m : RelMsg), s.runs = true → s.session sid = some x → x.unack.find? (fun m => m.seq == seq) = some m →
    (m.resends < 12 → exec (.ranowRetransmit sid seq) s = .next (((s.modSess sid fun y =>
      { y with unack := y.unack.map fun n => if n.seq = seq then { n with resends := n.resends + 1 } else n }).modPort x.port fun p =>
        { p with resent := min 0xFFFFFFFF (p.resent + 1) }).transmit x.port ⟨false, none, x.part, x.sid, x.mac, x.ip, x.udp, m.data⟩)) ∧
    (12 ≤ m.resends → ∃ t, exec (.ranowRetransmit sid seq) s = .next t ∧ t.session sid = none ∧ t.mem = s.mem)) ∧
  (∀ (s : State) (sid : Nat), s.runs = true → s.session sid ≠ none →
    ∃ t, exec (.sessionTimeout sid) s = .next t ∧ t.session sid = none ∧ t.mem = s.mem ∧ t.flash = s.flash)

/-- An ACK with the control bit of SEQ, 48 bytes long and with fields that can hold frees what it acknowledges, moves the notify
ring's HEAD, and what waited for room leaves. A KEEPALIVE changes the session's peer and nothing else. An MBOX in its turn that
keeps the rules of R385 writes its bytes into the command ring at its offset and moves TAIL; one that breaks them closes the session
with SESSION_PROTOCOL. A CLOSE in its turn is acknowledged and ends the session. A message whose tag is not valid is counted in
REJECT and changes nothing else; so is a REPLY or a REJECT, which carries none (log entry 132). A protected message with a valid tag
and a TYPE that no host sends closes its session with SESSION_PROTOCOL. Completes: ACK, KEEPALIVE, MBOX, CLOSE. -/
def Obligations.SessionMessagesAct : Prop :=
  (∀ (s : State) (i : Nat) (d : Dgram) (x : Sess) (b : List Byte), s.protectedFrom i d 0x10 x b → let h := RHdr.read d.data
    bit h.seq 63 = true → b.length = 48 → x.ackOk (fld b 0 8) (fld b 40 4) = true →
    exec (.ack i d) s = .next (((s.heard d).modSess h.sid fun y => y.acked (fld b 0 8) (fld b 8 32) (fld b 40 4)).refill h.sid)) ∧
  (∀ (s : State) (i : Nat) (d : Dgram) (x : Sess), s.protectedFrom i d 0x11 x [] → bit (RHdr.read d.data).seq 63 = true →
    exec (.keepalive i d) s = .next (s.heard d)) ∧
  (∀ (s : State) (i : Nat) (d : Dgram) (x y : Sess) (b : List Byte), s.protectedFrom i d 0x20 x b → x.turnOf d → let sid := (RHdr.read d.data).sid
    let u := s.tookIn d 0x20 b
    u.session sid = some y →
    (∀ z, y.mbox b = some z → exec (.mbox i d) s = .next (u.modSess sid fun _ => z)) ∧
    (y.mbox b = none → exec (.mbox i d) s = .next (u.closeSession sid Code.sessionProtocol))) ∧
  (∀ (x z : Sess) (b : List Byte), x.mbox b = some z → z.cring = x.cring.write (fld b 0 4) (b.drop 16) ∧ z.ctail = fld b 8 4 ∧
    b.length = 16 + fld b 4 4 ∧ fld b 0 4 + fld b 4 4 ≤ x.csize ∧ z.chead = (if bit (fld b 12 1) 0 then fld b 8 4 else x.chead)) ∧
  (∀ (s : State) (i : Nat) (d : Dgram) (x : Sess) (b : List Byte), s.protectedFrom i d 0x12 x b → x.turnOf d → b.length = 8 →
    let sid := (RHdr.read d.data).sid
    exec (.close i d) s = .next (((s.tookIn d 0x12 b).sendAck sid).endSession sid true) ∧
    (((s.tookIn d 0x12 b).sendAck sid).endSession sid true).session sid = none) ∧
  (∀ (s : State) (i : Nat) (d : Dgram) (x : Sess) (ty : Nat) (c : Instr), s.runs = true → i < 4 → s.arrives i d ty = true →
    (ty = 0x10 ∧ c = .ack i d) ∨ (ty = 0x11 ∧ c = .keepalive i d) ∨ (ty = 0x12 ∧ c = .close i d) ∨ (ty = 0x20 ∧ c = .mbox i d) ∨
      (ty = 0x30 ∧ c = .dopen i d) ∨ (ty = 0x31 ∧ c = .dwrite i d) →
    let h := RHdr.read d.data
    s.session h.sid = some x →
    fld d.data (24 + h.len) 16 ≠ (Config.gcmTag x.kin (x.sin ++ natLe 8 h.seq) (d.data.take 24) (slice d.data 24 h.len)).toNat →
    exec c s = .next (s.modPort i fun x => { x with reject := min 0xFFFFFFFF (x.reject + 1) })) ∧
  (∀ (s : State) (i : Nat) (d : Dgram) (ty : Nat) (c : Instr), s.runs = true → i < 4 → s.arrives i d ty = true →
    c = .ack i d ∨ c = .keepalive i d ∨ c = .close i d ∨ c = .mbox i d ∨ c = .dopen i d ∨ c = .dwrite i d →
    (ty = 0x02 ∨ ty = 0x04 → exec c s = .next (s.modPort i fun x => { x with reject := min 0xFFFFFFFF (x.reject + 1) })) ∧
    (∀ x b, ty ∉ [0x01, 0x02, 0x03, 0x04, 0x10, 0x11, 0x12, 0x20, 0x30, 0x31] → s.protectedFrom i d ty x b →
      exec c s = .next ((s.heard d).closeSession (RHdr.read d.data).sid Code.sessionProtocol)))

/-- A DOPEN in its turn whose fields keep R403 and whose range passes R406 opens its burst with DSTAT state 1; one that fails is
answered with state 3 and its code, and opens nothing. A DWRITE of an open write burst that carries its next chunk is written at the
chunk's address (Burst.nextChunk), the burst goes on or ends with DSTAT state 2; in a stack, no byte outside the chunk changes. A
DREAD of an open read burst sends the chunk's bytes and goes on in the same way; memory does not change where no word of it is
damaged. Both where the stack that they access has room for it; where it has none, nothing of it happens yet (R45, R298; log entry
123). Completes: DOPEN, DWRITE, DREAD. -/
def Obligations.DataPortBursts : Prop :=
  (∀ (s : State) (i : Nat) (d : Dgram) (x : Sess) (b : List Byte), s.protectedFrom i d 0x30 x b → x.turnOf d → b.length = 24 →
    let sid := (RHdr.read d.data).sid
    let u := s.tookIn d 0x30 b
    let y : Burst := ⟨fld b 0 1, fld b 1 1 == 1, fld b 2 2, fld b 8 8, fld b 16 8, 0⟩
    let code := if x.burstFields y (fld b 1 1) then s.rangeCode x.part y.addr y.len else Code.burstFormat
    (code = 0 → exec (.dopen i d) s = .next ((u.modSess sid fun z => { z with bursts := z.bursts ++ [y] }).sendRel sid 0x33 (dstatPayload y.bid 1 0 0))) ∧
    (code ≠ 0 → exec (.dopen i d) s = .next (u.sendRel sid 0x33 (dstatPayload y.bid 3 code 0)))) ∧
  (∀ (s : State) (i : Nat) (d : Dgram) (x : Sess) (b : List Byte) (y : Burst), s.protectedFrom i d 0x31 x b → x.turnOf d →
    x.bursts.find? (fun y => y.bid == fld b 0 1) = some y → let sid := (RHdr.read d.data).sid
    let u := s.tookIn d 0x31 b
    let a := y.nextChunk.1
    let n := y.nextChunk.2
    let r := (u.chunkWrite x.part a (b.drop 8)).burstNext sid y
    y.rd = false → fld b 4 4 = y.next → 8 ≤ b.length → b.length = 8 + n → s.rangeCode x.part a n = 0 →
    (s.roomFor (.burst i) r = true → exec (.dwrite i d) s = .next (s.through (.burst i) r)) ∧
    (s.roomFor (.burst i) r = false → exec (.dwrite i d) s = .next (s.inLine (.burst i) r)) ∧
    (a < 8 * stackBytes → ∀ k, k < a ∨ a + n ≤ k → (s.through (.burst i) r).mem.byte k = s.mem.byte k)) ∧
  (∀ (s : State) (sid : Nat) (x : Sess) (y : Burst), s.runs = true → s.session sid = some x → y.rd = true →
    let a := y.nextChunk.1
    let n := y.nextChunk.2
    s.rangeCode x.part a n = 0 →
    ∀ u data, s.chunkRead x.part a n = (u, data, true) → x.bursts.find? (fun z => z.bid == y.bid) = some y →
      let r := (u.sendRel sid 0x32 (natLe 1 y.bid ++ zeros 3 ++ natLe 4 y.next ++ data)).burstNext sid y
      (s.roomFor (.burst x.port) r = true → exec (.dread sid y.bid) s = .next (s.through (.burst x.port) r)) ∧
      (s.roomFor (.burst x.port) r = false → exec (.dread sid y.bid) s = .next (s.inLine (.burst x.port) r)) ∧
      (s.dmg = [] → (s.through (.burst x.port) r).mem = s.mem)) ∧
  (∀ (s : State) (sid : Nat) (y : Burst),
    (y.len ≤ (y.next + 1) * y.chunk → s.burstNext sid y = (s.modSess sid fun z => { z with bursts := z.bursts.filter fun w => w.bid != y.bid }).sendRel sid 0x33
      (dstatPayload y.bid 2 0 (min y.len ((y.next + 1) * y.chunk)))) ∧
    ((y.next + 1) * y.chunk < y.len → s.burstNext sid y = s.modSess sid fun z =>
      { z with bursts := z.bursts.map fun w => if w.bid = y.bid then { y with next := y.next + 1 } else w }))

/-- Each completes, to the session that sent it, in a state the module serves. NOP: OK. SUBSCRIBE: the mask is in force, the held
records it lets through are delivered, OK. SESSION_INFO: OK with the session's data. REG_READ of n registers or words that exist,
are reached and are not busy: OK with their values in order. REG_WRITE and REGISTER_WRITE of a register or word that the sender
reaches, of that width: the write has the effect of the register (State.regWrite) and its code; a write into the memory of a core
that is not busy changes the w bytes at the address and no others. Of one that does not exist or is not reached: BAD_ARGUMENT and
nothing else. GRANT_READ, HOSTKEY_SET and CERT_READ by the management partition, or of the own partition: OK with the record, the
slot set in force and in the settings, or the certificate in shared memory. A parity error on the register bus completes a REG_READ,
REG_WRITE or REGISTER_WRITE with UNCORRECTABLE_DATA and changes nothing else. A key whose settings the flash does not take is not
set: FLASH_WRITE_FAIL; whether the flash takes a write is a free value (the model's choice, log entry 133). Completes: NOP,
SUBSCRIBE, SESSION_INFO, REG_READ, REG_WRITE, REGISTER_WRITE, GRANT_READ, HOSTKEY_SET, CERT_READ. -/
def Obligations.MailboxCommandsComplete : Prop :=
  (∀ (s : State) (o : Org) (p : Nat), s.servedBy o p → exec (.nop o) s = .next (s.complete o 0x0001 Code.ok [])) ∧
  (∀ (s : State) (o : Org) (p mask : Nat), s.servedBy o p →
    exec (.subscribe o mask) s = .next (((s.modSess o.sid fun x => { x with mask := mask }).release o.sid).complete o 0x0002 Code.ok [])) ∧
  (∀ (s : State) (o : Org) (x : Sess), s.serves o.sid = some x →
    exec (.sessionInfo o) s = .next (s.complete o 0x0003 Code.ok (natLe 8 x.sid ++ natLe 1 x.part ++ natLe 1 x.port ++
      natLe 1 (s.sess.filter fun y => y.part == x.part).length ++ natLe 1 0 ++ natLe 4 x.mask))) ∧
  (∀ (s : State) (o : Org) (p a w n : Nat), s.servedBy o p → 1 ≤ n → n ≤ 64 → w = 4 ∨ w = 8 →
    (∀ i < n, s.regOk p (a + i * w) w = true) → (∀ i < n, ∀ c, s.coreMemAt p (a + i * w) = some c → s.coreBusy c = false) →
    (∀ i < n, s.stackBusy (a + i * w) = false) →
    let r := ((List.range n).map fun i => a + i * w).foldl (fun (acc : State × List Byte × Bool) x =>
       ((acc.1.regRead p x w).1, acc.2.1 ++ natLe w (acc.1.regRead p x w).2.1, acc.2.2 && (acc.1.regRead p x w).2.2)) (s, [], true)
    (∀ us : List Upset, Upset.bus ∉ us →
      (r.2.2 = true → exec (.regRead o a w n us) s = .next (r.1.complete o 0x0010 Code.ok r.2.1)) ∧
      (r.2.2 = false → exec (.regRead o a w n us) s = .next (r.1.complete o 0x0010 Code.uncorrectableData []))) ∧
    (∀ us : List Upset, Upset.bus ∈ us → exec (.regRead o a w n us) s = .next (s.complete o 0x0010 Code.uncorrectableData []))) ∧
  (∀ (s : State) (o : Org) (p a w v : Nat) (us : List Upset), s.servedBy o p →
    (s.regOk p a w = true → Upset.bus ∉ us → let t := (s.regWrite p a w v).1.complete o 0x0011 (s.regWrite p a w v).2 []
      exec (.regWrite o a w v us) s = .next t ∧ exec (.registerWrite o a w v us) s = .next t) ∧
    (s.regOk p a w = true → Upset.bus ∈ us → let t := s.complete o 0x0011 Code.uncorrectableData []
      exec (.regWrite o a w v us) s = .next t ∧ exec (.registerWrite o a w v us) s = .next t) ∧
    (s.regOk p a w = false → let t := s.complete o 0x0011 Code.badArgument []
      exec (.regWrite o a w v us) s = .next t ∧ exec (.registerWrite o a w v us) s = .next t) ∧
    (∀ c, s.coreMemAt p a = some c → s.coreBusy c = false → w = 4 ∨ w = 8 →
      (s.regWrite p a w v).2 = Code.ok ∧ (s.regWrite p a w v).1.mem = s.mem.write a (natLe w (v % 2 ^ (8 * w))) ∧
      (∀ b, b < a ∨ a + w ≤ b → (s.regWrite p a w v).1.mem.byte b = s.mem.byte b))) ∧
  (∀ (s : State) (o : Org) (p q : Nat), s.servedBy o p → p = 0 ∨ q = p → q ∈ s.defined →
    exec (.grantRead o q) s = .next (s.complete o 0x0102 Code.ok ((s.part q).grant.bytes q)) ∧
    (∀ (slot : Nat) (key : List Byte), slot ≤ 3 →
      let set := s.writeSettings (setItem s.inForce.items (4, natLe 1 q ++ natLe 1 slot ++ padTo 57 key))
      let drop := s.writeSettings (dropItem s.inForce.items (itemKey (4, natLe 1 q ++ natLe 1 slot ++ [])))
      (set.2 = true → exec (.hostkeySet o q slot 1 key) s = .next ((set.1.modPart q fun x =>
        { x with keys := SMap.set [] x.keys slot (padTo 57 key) }).complete o 0x0103 Code.ok [])) ∧
      (drop.2 = true → exec (.hostkeySet o q slot 0 key) s = .next ((drop.1.modPart q fun x =>
        { x with keys := SMap.set [] x.keys slot [] }).complete o 0x0103 Code.ok [])) ∧
      (set.2 = false → exec (.hostkeySet o q slot 1 key) s = .next (set.1.complete o 0x0103 Code.flashWriteFail [])) ∧
      (drop.2 = false → exec (.hostkeySet o q slot 0 key) s = .next (drop.1.complete o 0x0103 Code.flashWriteFail [])))) ∧
  (∀ (s : State) (o : Org) (p q slot op : Nat) (key : List Byte), s.servedBy o p → p ≠ 0 → q ≠ p →
    exec (.grantRead o q) s = .next (s.complete o 0x0102 Code.notPermitted []) ∧
    exec (.hostkeySet o q slot op key) s = .next (s.complete o 0x0103 Code.notPermitted [])) ∧
  (∀ (s : State) (o : Org) (p dest : Nat), s.servedBy o p → dest % 64 = 0 → s.sharedIn p dest 224 = true →
    exec (.certRead o dest) s = .next ((s.viewWrite p dest s.certificate).complete o 0x0121 Code.ok []))

/-- Each of these deferred commands, once its checks pass, does not complete at once: it stands among the running deferred commands,
last. A GRANT_SET or PART_DELETE of the management partition has the jobs of the partitions that lose blocks aborted and the stacks
that move cleared (State.grantStart). A MATCH_MULTI has its queries read and its commands issued where places are free. An
IMAGE_LOAD has passed stage 1 and has its bytes staged; an ATTEST waits for its report. From another partition, GRANT_SET and
PART_DELETE complete NOT_PERMITTED and change nothing. Completes: GRANT_SET, PART_DELETE, MATCH_MULTI, IMAGE_LOAD, ATTEST. -/
def Obligations.DeferredCommandsStart : Prop :=
  (∀ (s : State) (o : Org) (b : List Byte), s.servedBy o 0 → let g := GrantR.read b
    let q := fld b 0 1
    grantFields s.grade b = true → s.grantRuns = false → s.grantConflict q g = false → s.grantHeld q g = false →
    (bit (fld b 1 1) 1 = true ∨ s.takesUsed q (s.part q).grant g = false ∧ s.takesUsed 0 (s.part 0).grant (s.ownerWith q g) = false) →
    exec (.grantSet o b) s = .next (s.grantStart o 0x0100 q g false) ∧
    (s.grantStart o 0x0100 q g false).defs.getLast? = some ⟨o, 0, 0x0100, .grant q g false [] false⟩) ∧
  (∀ (s : State) (o : Org) (q : Nat), s.servedBy o 0 → 1 ≤ q → q ≤ 7 → q ∈ s.defined → s.grantHeld q GrantR.empty = false →
    s.grantConflict q GrantR.empty = false →
    exec (.partDelete o q) s = .next (s.grantStart o 0x0101 q GrantR.empty true) ∧
    (s.grantStart o 0x0101 q GrantR.empty true).defs.getLast? = some ⟨o, 0, 0x0101, .grant q GrantR.empty true [] false⟩) ∧
  (∀ (s : State) (o : Org) (p q : Nat) (b : List Byte), s.servedBy o p → p ≠ 0 →
    exec (.grantSet o b) s = .next (s.complete o 0x0100 Code.notPermitted []) ∧ exec (.partDelete o q) s = .next (s.complete o 0x0101 Code.notPermitted [])) ∧
  (∀ (s u : State) (o : Org) (p qaddr raddr : Nat) (tmpl bs : List Byte) (l : List MStk), s.servedBy o p → let c := MatchC.read tmpl
    1 ≤ l.length → l.length ≤ 8 → noDup (l.map (·.stack)) = true → qaddr % 64 = 0 → raddr % 64 = 0 →
    (∀ x ∈ l, x.stack ∈ (s.part p).grant.stks ∧ s.holdsStack x.stack = false) → c.template = true → s.multiCode p c l = 0 →
    s.sharedIn p qaddr (4 * c.nq * c.dim) = true → s.sharedIn p raddr c.resultBytes = true →
    s.sharedRead p qaddr (4 * c.nq * c.dim) = (u, bs, true) → (⟨c, none, p, 0, 0, chunks 64 bs, 0⟩ : MCmd).queriesOk = true →
    exec (.matchMulti o qaddr raddr tmpl l) s = .next (l.foldl (fun v x => v.issueMulti x.stack) { u with
      multiNum := u.multiNum + 1
      defs := u.defs ++ [⟨o, p, 0x0040, .matchMulti u.multiNum raddr c l (chunks 64 bs) (l.map (·.stack))⟩] })) ∧
  (∀ (s u : State) (o : Org) (p r src len : Nat) (secret hb : List Byte), s.servedBy o p →
    (∀ d ∈ s.defs, d.part = p → ∀ a b c e f, d.k ≠ .image a b c e f) →
    s.imageSource p src (max 1 len) = 0 → s.anyRead p src (min len 96) = (u, hb, true) → u.imageCode p r len hb = 0 →
    exec (.imageLoad o r src len secret) s = .next { u with
      defs := u.defs ++ [⟨o, p, 0x0110, .image r src len (padTo 32 secret) (ImgHdr.read hb).bytes⟩] }) ∧
  (∀ (s : State) (o : Org) (p dest : Nat) (nonce : List Byte), s.servedBy o p → dest % 64 = 0 → s.sharedIn p dest (s.reportBytes p) = true →
    exec (.attest o nonce dest) s = .next { s with defs := s.defs ++ [⟨o, p, 0x0120, .attest (padTo 32 nonce) dest⟩] })

/-- The firmware takes the next record of the session next in turn of the partition next in turn: HEAD moves past it and the command
runs for that session with the record's CTAG. An unknown OP completes COMMAND_UNKNOWN, a LEN that the OP does not have BAD_ARGUMENT;
a PAD record is skipped, a bad LEN moves HEAD to the next multiple of the ring size with RING_RECORD_FORMAT. A word of management
memory that this meets beyond correction has a forced RESTART with deadline 0 announced first. The end of an ATTEST writes the
report; of an IMAGE_LOAD whose stream, tag and frames are good and whose staging is read without damage it stages the setups and
completes OK; of a FW_STAGE whose package is good it leaves the inactive bank first EMPTY, then STAGED; of a preload it leaves the
promotion ready. A MATCH_MULTI whose commands have all ended well has its merged lists written to the result area and completes OK.
Completes: COMMAND_RECORD_TAKE, DEFERRED_COMMAND_END, MATCH_MULTI_MERGE. -/
def Obligations.RecordsAreTakenAndDeferredCommandsEnd : Prop :=
  (∀ (s : State) (p sid : Nat) (x : Sess) (us : List Upset), (∀ n, Upset.mgmt n ∈ us → n ≤ 1) → let ready := s.readySess
    nextInTurn s.takePart (ready.map (·.part)) = some p →
    nextInTurn (s.takeSid.get 0 p) ((ready.filter fun x => x.part == p).map (·.sid)) = some sid → s.session sid = some x →
    let u := { s with takePart := p, takeSid := SMap.set 0 s.takeSid p sid }
    (∀ h b, x.nextRecord = some (.record h b) → exec (.commandRecordTake us) s = .next
      ((u.modSess x.sid fun y => { y with chead := h }).runRecord ⟨x.sid, fld b 4 4⟩ x.part b us)) ∧
    (∀ h, x.nextRecord = some (.pad h) → exec (.commandRecordTake us) s = .next (u.modSess x.sid fun y => { y with chead := h })) ∧
    (∀ h, x.nextRecord = some (.badLen h) → exec (.commandRecordTake us) s = .next (u.ringEvent x Code.ringRecordFormat h)) ∧
    (∀ h, x.nextRecord = some (.wrap h) → exec (.commandRecordTake us) s = .next (u.ringEvent x Code.ringWrapViolation h))) ∧
  (∀ (s : State) (n : Nat), s.runs = true → 1 < n →
    exec (.commandRecordTake [.mgmt n]) s = exec (.commandRecordTake []) s.mgmtRestart ∧
    (s.promotion = none → let told := s.eventAll Code.activationPending { Ev.none with arg0 := 1, arg1 := 0 }
      s.mgmtRestart = { told with defs := told.defs ++ [⟨⟨0, 0⟩, 0, 0x0220, .promote none true false⟩] })) ∧
  (∀ (s : State) (o : Org) (p : Nat) (b : List Byte) (us : List Upset),
    (commandLen (fld b 2 2) b = none → s.runRecord o p b us = s.complete o (fld b 2 2) Code.commandUnknown []) ∧
    (∀ n, commandLen (fld b 2 2) b = some n → b.length ≠ n → s.runRecord o p b us = s.complete o (fld b 2 2) Code.badArgument []) ∧
    (fld b 2 2 = 0x0011 → b.length = 32 → s.runRecord o p b us = s.doRegWrite o p (fld (b.drop 8) 0 8) (fld (b.drop 8) 8 1) (fld (b.drop 8) 16 8) us)) ∧
  (∀ (s : State) (i p op dest : Nat) (o : Org) (nonce : List Byte) (fail : Bool), s.runs = true → s.defs[i]? = some ⟨o, p, op, .attest nonce dest⟩ →
    let u := { s with defs := dropAt s.defs i }
    s.sharedIn p dest (s.reportBytes p) = true →
    exec (.deferredCommandEnd i fail) s = .next ((u.viewWrite p dest (u.report p nonce)).complete o 0x0120 Code.ok [])) ∧
  (∀ (s v : State) (i p op r src len : Nat) (o : Org) (secret stream : List Byte) (st : List Nat), s.runs = true →
    s.defs[i]? = some ⟨o, p, op, .image r src len secret st⟩ → ({ s with defs := dropAt s.defs i }).anyRead p src len = (v, stream, true) →
    let hb := stream.take 96
    let h := ImgHdr.read hb
    let c := slice stream 96 h.clen
    let plain := imagePlain (imageKeys secret hb).1 c
    let y := readFrames plain.length plain
    (v.region p r).state ≠ .undefined → v.inView p src len = true → v.imageCode p r len hb = 0 →
    stream.drop (96 + h.clen) = imageTag (imageKeys secret hb).2 hb c → framesCode h [] y.1 = 0 →
    frameSet h (v.region p r).rect ((v.region p r).seq / 64) y.1 y.2 = true →
    exec (.deferredCommandEnd i false) s = .next ((v.imageCommit p r h stream y.1).complete o 0x0110 Code.ok [])) ∧
  (∀ (s v : State) (i p op src len : Nat) (o : Org) (pkg : List Byte), s.runs = true → s.defs[i]? = some ⟨o, p, op, .stage src len⟩ →
    ({ s with defs := dropAt s.defs i }).anyRead 0 src len = (v, pkg, true) → (Manifest.read pkg).pkglen = len → packageCode pkg v.fuse.svn = 0 →
    let b := 1 - s.flash.cur.active
    exec (.deferredCommandEnd i false) s = .next (((v.setBank b 0 Bank.empty).setBank b 1 (Bank.of pkg)).complete o 0x0200 Code.ok [])) ∧
  (∀ (s : State) (i p op : Nat) (o : Org) (bank : Option Nat) (force x : Bool), s.runs = true → s.defs[i]? = some ⟨o, p, op, .promote bank force x⟩ →
    (s.flash.bank (bank.getD s.flash.cur.active)).good = true →
    exec (.deferredCommandEnd i false) s = .next { s with defs := putAt s.defs i ⟨o, p, op, .promote bank force true⟩ }) ∧
  (∀ (s : State) (i p op num raddr : Nat) (o : Org) (c : MatchC) (l : List MStk) (qs : List Entry), s.runs = true →
    s.defs[i]? = some ⟨o, p, op, .matchMulti num raddr c l qs []⟩ → s.multiRuns num = false → (∀ x ∈ s.multiFail, x.1 ≠ num) →
    let u := { s with defs := dropAt s.defs i, multiFail := s.multiFail.filter fun x => x.1 != num }
    let r := (List.range c.nq).foldl (fun (acc : State × List Entry × Bool) q =>
      ((acc.1.multiLists c l q).1, acc.2.1 ++ mergeLists c q (acc.1.multiLists c l q).2.1, acc.2.2 && (acc.1.multiLists c l q).2.2)) (u, [], true)
    r.2.2 = true → (r.1.freeWork c l).sharedIn p raddr c.resultBytes = true →
    exec (.matchMultiMerge i) s = .next (((r.1.freeWork c l).viewWrite p raddr r.2.1.flatten).complete o 0x0040 Code.ok []))

/-- From the management partition: a FW_STAGE of a package in its view, with no staging or promotion under way, becomes a running
deferred command; a FW_PROMOTE of a bank in the state that its target needs, with a version not below the fuses', and a RESTART, are
announced to every partition and become the pending promotion; a FW_CANCEL ends the pending one with ACTIVATION_DEFERRED and
completes OK; a SET_READ writes the slot in force at its destination; a SET_WRITE of items of types 1 and 2 in range puts them in
force and in the flash, or completes FLASH_WRITE_FAIL where the flash does not take them, with the old slot in force and the written
one invalid (whether it takes them is a free value, the model's choice: log entry 133); a write of MGMT_RETIRE with REQ for an
active core makes it pending retirement. From another partition each command completes NOT_PERMITTED and changes nothing. When an
unforced promotion's deadline passes, it completes ACTIVATION_DEFERRED. What a retirement at request records as its cause is a free
value. Completes: FW_STAGE, RESTART, FW_PROMOTE, FW_CANCEL, SET_READ, SET_WRITE, RETIRE_REQUEST, ACTIVATION_DEFERRED. -/
def Obligations.FirmwareAndSettingsCommandsComplete : Prop :=
  (∀ (s : State) (o : Org) (src len : Nat), s.servedBy o 0 → s.stagingRuns = false → s.promotion = none → src % 64 = 0 → s.inOne 0 src (max 1 len) = true →
    exec (.fwStage o src len) s = .next { s with defs := s.defs ++ [⟨o, 0, 0x0200, .stage src len⟩] }) ∧
  (∀ (s : State) (o : Org) (target force deadline : Nat), s.servedBy o 0 → force ≤ 1 → deadline ≤ 3600000 → s.stagingRuns = false → s.promotion = none →
    let told := s.eventAll Code.activationPending { Ev.none with arg0 := force, arg1 := 1000 * deadline }
    exec (.restart o force deadline) s = .next { told with defs := told.defs ++ [⟨o, 0, 0x0220, .promote none (force == 1) false⟩] } ∧
    (let b := 1 - s.flash.cur.active
     target ≤ 1 → s.flash.cur.st b = (if target = 0 then 1 else 3) → s.fuse.svn ≤ (s.flash.bank b).svn →
     exec (.fwPromote o target force deadline) s = .next { told with defs := told.defs ++ [⟨o, 0, 0x0201, .promote (some b) (force == 1) false⟩] })) ∧
  (∀ (s : State) (o : Org) (i : Nat) (d : Defr), s.servedBy o 0 → s.promotion = some (i, d) →
    exec (.fwCancel o) s = .next (({ s with defs := dropAt s.defs i }.complete d.o d.op Code.activationDeferred []).complete o 0x0202 Code.ok [])) ∧
  (∀ (s : State) (o : Org) (dest : Nat), s.servedBy o 0 → s.sharedIn 0 dest s.inForce.bytes.length = true →
    exec (.setRead o dest) s = .next ((s.viewWrite 0 dest s.inForce.bytes).complete o 0x0210 Code.ok [])) ∧
  (∀ (s : State) (o : Org) (n : Nat) (b : List Byte) (l : List (Nat × List Byte)), s.servedBy o 0 → readItems n b = some l → l.all itemOk = true →
    let items := l.foldl setItem s.inForce.items
    let w := s.writeSettings items
    let at_ := s.flash.target s.inForce.sver
    (w.2 = true → exec (.setWrite o n b) s = .next (w.1.complete o 0x0211 Code.ok []) ∧
      w.1.inForce = ⟨s.inForce.sver, s.flash.nextSeq, items⟩ ∧ w.1.flash = { s.flash with slots := putAt s.flash.slots at_ (some w.1.inForce) }) ∧
    (w.2 = false → exec (.setWrite o n b) s = .next (w.1.complete o 0x0211 Code.flashWriteFail []) ∧
      w.1.inForce = s.inForce ∧ w.1.flash = { s.flash with slots := putAt s.flash.slots at_ none })) ∧
  (∀ (s : State) (o : Org) (p : Nat) (i : Instr) (op : Nat), s.servedBy o p → p ≠ 0 →
    ((∃ src len, i = .fwStage o src len ∧ op = 0x0200) ∨ (∃ a b c, i = .fwPromote o a b c ∧ op = 0x0201) ∨ (i = .fwCancel o ∧ op = 0x0202) ∨
      (∃ a, i = .setRead o a ∧ op = 0x0210) ∨ (∃ a b, i = .setWrite o a b ∧ op = 0x0211) ∨ (∃ a b, i = .restart o a b ∧ op = 0x0220)) →
    exec i s = .next (s.complete o op Code.notPermitted [])) ∧
  (∀ (s : State) (o : Org) (f k : Nat), s.servedBy o 0 → f < 64 → k < 48 → coreActive s.grade f k = true →
    ∃ t : State, exec (.retireRequest o f k) s = .next (t.complete o 0x0011 Code.ok []) ∧ coreId f k ∈ t.pendingRetire ∧
      (∀ c, c ≠ coreId f k → (c ∈ t.pendingRetire ↔ c ∈ s.pendingRetire)) ∧ t.cores = s.cores ∧ t.mem = s.mem) ∧
  (∀ (s : State) (i p op : Nat) (o : Org) (bank : Option Nat) (x : Bool), s.runs = true → s.promotion = some (i, ⟨o, p, op, .promote bank false x⟩) →
    exec .activationDeferred s = .next ({ s with defs := dropAt s.defs i }.complete o op Code.activationDeferred []))

/-- A start that may begin, with the reference clock, all of whose stages pass, ends ready: PWR.ready, not stopped, FAULT_N off, the
boot status word at stage 10 without failure, no session, job, step or command running, memory empty. Its stages all pass where the
boot image is accepted, a record is valid, the active bank is good with a version not below the fuses' and a settings slot of the
firmware's version stands. One that a stage fails and that may not fall back has FAULT_N on, not ready, the ports disabled, and the
boot status word tells the stage and the code; one that falls back and whose second attempt passes ends ready on the other bank, and
says so. A start that stands still for 10 s in a stage fails there with START_TIMEOUT, in stage 1 without any fallback. A preloaded
promotion in a quiescent cycle is decided: it completes OK, each partition with a session hears that it yields, the sessions close,
the record names the new bank on trial, and the stages of the pause run; the event's cause is the model's choice (log entry 131).
Completes: START, START_TIMEOUT, ACTIVATION_DECISION. -/
def Obligations.StartAndActivationDecision : Prop :=
  (∀ (s x : State) (e : StartEnv), s.mayStart = true → e.refclk = true →
    (s.modPwr fun y => { y with resetN := true }).runStages e false 1 none = (x, none) → e.failing = [] → s.pendingRetire = [] →
    ∃ t, exec (.start e) s = .next t ∧ t.pwr.ready = true ∧ t.pwr.stopped = false ∧ t.pwr.fault = false ∧ t.pwr.boot.stage = 10 ∧
      t.pwr.boot.failed = false ∧ t.pwr.boot.code = 0 ∧ t.pwr.boot.fellback = false ∧ t.sess = [] ∧ t.defs = [] ∧ t.book = [] ∧ t.membs = [] ∧
      t.mem = [] ∧ t.now = 0 ∧ t.pending = s.pending) ∧
  (∀ (s : State) (x : SetSlot), s.fuse.accepts s.flash.boot = true → s.flash.recordAt.isSome = true → s.activeBank.good = true →
    s.fuse.svn ≤ s.activeBank.svn → s.flash.settings s.activeBank.sver = some x → x.sver = s.activeBank.sver →
    (s.runStages StartEnv.good false 1 none).2 = none) ∧
  (∀ (s x : State) (e : StartEnv) (stage code : Nat), s.mayStart = true → e.refclk = true →
    (s.modPwr fun y => { y with resetN := true }).runStages e false 1 none = (x, some (stage, code)) →
    fallback x.flash x.fuse stage x.fresh.2 = none →
    ∃ t, exec (.start e) s = .next t ∧ t.pwr.ready = false ∧ t.pwr.fault = true ∧ t.pwr.boot.stage = stage ∧ t.pwr.boot.failed = true ∧
      t.pwr.boot.code = code ∧ (∀ y ∈ t.ports, y.enabled = false) ∧ t.flash = x.flash ∧ t.mem = x.mem) ∧
  (∀ (s x z : State) (e : StartEnv) (stage code : Nat) (g : BankRec → BankRec), s.mayStart = true → e.refclk = true → e.failing = [] →
    s.pendingRetire = [] → (s.modPwr fun y => { y with resetN := true }).runStages e false 1 none = (x, some (stage, code)) →
    fallback x.flash x.fuse stage x.fresh.2 = some g →
    { x.fresh.1 with flash := x.flash.writeRec g }.runStages e.again false 2 none = (z, none) →
    ∃ t, exec (.start e) s = .next t ∧ t.pwr.ready = true ∧ t.pwr.fault = false ∧ t.pwr.boot.stage = 10 ∧ t.pwr.boot.failed = false ∧
      t.pwr.boot.fellback = true ∧ t.pwr.boot.bank = z.flash.cur.active ∧ t.sess = []) ∧
  (∀ (s x : State) (e : StartEnv) (stage code : Nat), s.mayStart = true → e.late ≠ none →
    (s.modPwr fun y => { y with resetN := true }).runStages e false 1 e.halts.1 = (x, some (stage, code)) →
    fallback x.flash x.fuse stage x.fresh.2 = none →
    ∃ t, exec (.startTimeout e) s = .next t ∧ t.pwr.ready = false ∧ t.pwr.fault = true ∧ t.pwr.boot.stage = stage ∧ t.pwr.boot.failed = true ∧
      t.pwr.boot.code = code ∧ (∀ y ∈ t.ports, y.enabled = false) ∧ t.flash = x.flash) ∧
  (∀ (s : State) (e : StartEnv), s.mayStart = true → e.late = some 1 →
    ∃ t, exec (.startTimeout e) s = .next t ∧ t.pwr.ready = false ∧ t.pwr.fault = true ∧ t.pwr.boot.stage = 1 ∧ t.pwr.boot.failed = true ∧
      t.pwr.boot.code = Code.startTimeout ∧ (∀ y ∈ t.ports, y.enabled = false) ∧ t.flash = s.flash ∧ t.mem = s.mem) ∧
  (∀ (s : State) (e : StartEnv) (i p op : Nat) (o : Org) (bank : Option Nat), s.runs = true →
    s.promotion = some (i, ⟨o, p, op, .promote bank false true⟩) → s.quiescent = true →
    let u := { s with defs := dropAt s.defs i }.complete o op Code.ok []
    let y := ((List.range 8).filter fun q => u.sess.any fun x => x.part == q).foldl (fun s q => s.yields q 3 5 0) u
    let v := (y.sess.map (·.sid)).foldl (fun s sid => s.closeSession sid 0) y
    let w := match bank with
      | some b => { v with flash := v.flash.writeRec fun r => { ((r.setSt r.active 3).setSt b 2) with active := b, trial := true } }
      | none => v
    exec (.activationDecision e) s = .next ((w.modPwr fun x => { x with ready := false }).stages e true e.halts))

/-- While its protection watches (powered, not stopped, no start failure): sensors at a WARNING or THROTTLE entry raise the state,
assert THERM_N and SB_STAT.THRM. A step of 1 ms in THROTTLE lowers the clock limit by 100 MHz, not below 500 MHz, and counts once it
stands there. Below THROTTLE a ramp step raises it by 100 MHz up to the profile clock. Sensors 5 degrees below the entry threshold
clear the state, or lead from THROTTLE to WARNING. The fabric clock is always the least of the profile, thermal and power limits
after such a row. A trip temperature, an overcurrent or the loss of REFCLK after a start stops the module: not ready, FAULT_N, every
port disabled, the code in the boot status word, and the trip counted in the flash's event log. Completes: THERMAL_WARNING,
THERMAL_THROTTLE, THROTTLE_STEP, THERMAL_CLOCK_RAMP, THERMAL_CLEAR, THERMAL_TRIP, OVERCURRENT_TRIP, REFCLK_LOSS. -/
def Obligations.ThermalStatesChange : Prop :=
  (∀ (s : State) (die : Nat) (l : List Nat), s.watching = true →
    (s.pwr.tstate = 0 → reachesEntry 1 die l = true → ∃ t, exec (.thermalWarning die l) s = .next t ∧ t.pwr.tstate = 1 ∧ t.pwr.therm = true ∧
      t.pwr.dieMax = die ∧ t.pwr.stkMax = hottest l ∧ bit t.pwr.sbstat 10 = true ∧ t.clock = s.clock ∧ t.mem = s.mem) ∧
    (s.pwr.tstate < 2 → reachesEntry 2 die l = true → ∃ t, exec (.thermalThrottle die l) s = .next t ∧ t.pwr.tstate = 2 ∧ t.pwr.therm = true ∧
      t.pwr.atFloor = 0 ∧ bit t.pwr.sbstat 10 = true ∧ t.pwr.thermClk = s.pwr.thermClk ∧
      (∀ i < 8, nth 16 t.pwr.thermCap i = if 95 ≤ nth 0 l i then 8 else nth 16 s.pwr.thermCap i) ∧ t.mem = s.mem)) ∧
  (∀ (s : State), s.watching = true → s.pwr.tstate = 2 → ∃ t, exec .throttleStep s = .next t ∧
    (500 < s.pwr.thermClk → t.pwr.thermClk = max 500 (s.pwr.thermClk - 100) ∧ t.pwr.atFloor = s.pwr.atFloor) ∧
    (s.pwr.thermClk ≤ 500 → t.pwr.thermClk = s.pwr.thermClk ∧ t.pwr.atFloor = s.pwr.atFloor + 1) ∧
    t.clock = min (profileClock s.pwr.profile) (min t.pwr.thermClk s.pwr.powClk) ∧ t.parts = s.parts ∧ t.mem = s.mem) ∧
  (∀ (s : State), s.watching = true → s.pwr.tstate < 2 → ∃ t, exec .thermalClockRamp s = .next t ∧
    t.pwr.thermClk = min (profileClock s.pwr.profile) (s.pwr.thermClk + 100) ∧
    t.clock = min (profileClock s.pwr.profile) (min t.pwr.thermClk s.pwr.powClk) ∧ t.parts = s.parts ∧ t.mem = s.mem) ∧
  (∀ (s : State) (die : Nat) (l : List Nat), s.watching = true → 0 < s.pwr.tstate → belowEntry s.pwr.tstate die l = true →
    ∃ t, exec (.thermalClear die l) s = .next t ∧ t.pwr.tstate = (if s.pwr.tstate = 2 ∧ belowEntry 1 die l = false then 1 else 0) ∧
      (t.pwr.therm = true ↔ t.pwr.tstate = 1) ∧ t.pwr.thermClk = s.pwr.thermClk ∧ t.mem = s.mem) ∧
  (∀ (s : State) (die cur : Nat) (l : List Nat), s.watching = true →
    (110 ≤ die ∨ 105 ≤ hottest l ∨ (s.pwr.tstate = 2 ∧ 100 ≤ s.pwr.atFloor) → ∃ t, exec (.thermalTrip die l) s = .next t ∧ t.pwr.stopped = true ∧
      t.pwr.ready = false ∧ t.pwr.fault = true ∧ t.pwr.boot.failed = true ∧ t.pwr.boot.code = Code.thermalTrip ∧ (∀ x ∈ t.ports, x.enabled = false) ∧
      t.flash = { s.flash with trips := s.flash.trips + 1 }) ∧
    (2400 < cur → ∃ t, exec (.overcurrentTrip cur) s = .next t ∧ t.pwr.stopped = true ∧ t.pwr.ready = false ∧ t.pwr.fault = true ∧
      t.pwr.boot.failed = true ∧ t.pwr.boot.code = Code.powerCap ∧ (∀ x ∈ t.ports, x.enabled = false) ∧ t.flash = { s.flash with trips := s.flash.trips + 1 }) ∧
    (0 < s.pwr.boot.stage → ∃ t, exec .refclkLoss s = .next t ∧ t.pwr.stopped = true ∧ t.pwr.ready = false ∧ t.pwr.fault = true ∧
      t.pwr.boot.failed = true ∧ t.pwr.boot.code = Code.hardwareSelftest ∧ (∀ x ∈ t.ports, x.enabled = false) ∧
      t.flash = { s.flash with trips := s.flash.trips + 1 }))

/-- STANDBY_UP reads the slot and leaves the sideband registers reset and the rails off; STANDBY_RAIL_DOWN loses them and the
standby rail. PWR_EN_RISE brings PGOOD up with the input in 40 V to 63 V. POWER_DOWN, RAIL_FAULT and an input out of range take
PGOOD and RESET_N low: what survives is flash, fuses, the event log and the sideband registers; nothing else of the module is left
(not ready, no session, memory empty); a rail fault keeps FAULT_N asserted until PWR_EN falls. RESET with PGOOD high leaves the same
with the rails up, and ends a start failure: the boot status word is 0. A change of the input's band keeps the module as it is, sets
SB_STAT.VIN when it leaves the normal band, and tells every partition that it crossed its limit. Completes: STANDBY_UP,
STANDBY_RAIL_DOWN, PWR_EN_RISE, INPUT_VOLTAGE, POWER_DOWN, RAIL_FAULT, INPUT_OUT_OF_RANGE, RESET. -/
def Obligations.RailsAndPinsChange : Prop :=
  (∀ (s : State) (slot : Nat), s.pwr.standby = false → ∃ t, exec (.standbyUp slot) s = .next t ∧ t.pwr.standby = true ∧ t.pwr.slot = slot % 16 ∧
    t.pwr.pgood = false ∧ t.pwr.pwrEn = false ∧ t.pwr.sbstat = 0 ∧ t.pwr.alerten = 0 ∧ t.pwr.pwrlim = 0 ∧ t.pwr.boot.word = 0 ∧ t.flash = s.flash) ∧
  (∀ (s : State), s.pwr.standby = true → ∃ t, exec .standbyRailDown s = .next t ∧ t.pwr.standby = false ∧ t.pwr.pgood = false ∧ t.pwr.ready = false ∧
    t.smbOut = none ∧ t.flash = s.flash ∧ t.fuse = s.fuse) ∧
  (∀ (s : State), s.pwr.standby = true → s.pwr.pwrEn = false → ∃ t, exec .pwrEnRise s = .next t ∧ t.pwr.pwrEn = true ∧
    (t.pwr.pgood = true ↔ s.pwr.input = 0 ∨ s.pwr.input = 2) ∧ t.pwr.resetN = false ∧ t.mem = s.mem ∧ t.sess = s.sess) ∧
  (∀ (s : State) (i : Instr) (v : Nat), (i = .powerDown ∧ s.pwr.pwrEn = true) ∨ (i = .railFault ∧ s.pwr.pwrEn = true ∧ s.pwr.pgood = true ∧ s.pwr.input = 0) ∨
      (i = .inputOutOfRange v ∧ s.pwr.standby = true ∧ (v < 3600 ∨ 6300 < v)) ∨ (i = .resetPin ∧ s.pwr.pgood = true) →
    ∃ t, exec i s = .next t ∧ t.pwr.ready = false ∧ t.pwr.boot.word = 0 ∧ t.pwr.resetN = false ∧ t.sess = [] ∧ t.mem = [] ∧ t.cores = [] ∧ t.membs = [] ∧
      t.defs = [] ∧ t.flash = s.flash ∧ t.fuse = s.fuse ∧ t.elog = s.elog ∧ t.pwr.alerten = s.pwr.alerten ∧ t.pwr.pwrlim = s.pwr.pwrlim ∧
      t.pwr.standby = s.pwr.standby ∧ t.pending = s.pending ∧
      (i = .resetPin → t.pwr.pgood = true ∧ t.pwr.pwrEn = s.pwr.pwrEn) ∧ (i ≠ .resetPin → t.pwr.pgood = false) ∧
      (i = .powerDown → t.pwr.pwrEn = false ∧ t.pwr.railFault = false ∧ t.pwr.fault = false) ∧ (i = .railFault → t.pwr.railFault = true ∧ t.pwr.fault = true) ∧
      (i = .inputOutOfRange v → bit t.pwr.sbstat 8 = true ∧ t.pwr.vin = v)) ∧
  (∀ (s : State) (v : Nat), s.pwr.standby = true → 3600 ≤ v → v ≤ 6300 → ∃ t, exec (.inputVoltage v) s = .next t ∧
    t.pwr.input = (if v < 4000 then 1 else if v ≤ 6000 then 0 else 2) ∧ t.pwr.vin = v ∧
    (s.pwr.pgood = true → t.pwr.pgood = true) ∧ (s.pwr.input = 0 → v < 4000 ∨ 6000 < v → bit t.pwr.sbstat 8 = true) ∧
    t.pwr.ready = s.pwr.ready ∧ t.cores = s.cores ∧ t.mem = s.mem)

/-- A tick of the power controller whose power exceeds the target (the cap less 10 W) steps the clock limit down by 50 MHz, not
below 500 MHz, and at that floor the stack caps; one whose power neither exceeds it nor lies 30 W below begins the wait for the
release again. A model update moves k toward the measured ratio within 0.8 to 1.25, how far being a free value, and no further. A
valid SB_PWRLIM write sets the rack cap and is acknowledged; one of another value, with a wrong PEC or length, is refused and
changes nothing but the answer. A Block Read of code 0 answers while the standby rail is up, of the others while the data side is
answered: byte count, value, PEC. The alert response answers while SMB_ALERT_N is asserted; a clock-low timeout abandons the answer.
A scrub step of an undamaged place of shared memory moves to the next place. Completes: POWER_CAP_TICK, POWER_MODEL_UPDATE,
SB_PWRLIM_WRITE, SMBUS_BLOCK_WRITE, SMBUS_STATUS_READ, SMBUS_BLOCK_READ, SMBUS_CLOCK_LOW_TIMEOUT, SMBUS_ALERT_RESPONSE,
SHARED_MEMORY_SCRUB. -/
def Obligations.PowerCapAndSideband : Prop :=
  (∀ (s : State) (m : Measured) (a : Activity), s.watching = true → s.pwr.ready = true →
    let power := max m.pin (predictPower s.pwr.profile s.clock s.pwr.k (s.ports.map (·.link)) a)
    let cap := 10 * s.pwr.capWatts
    (cap - 100 < power → 500 < s.pwr.powClk → ∃ t, exec (.powerCapTick m a) s = .next t ∧ t.pwr.powClk = max 500 (s.pwr.powClk - 50) ∧
      t.pwr.powCap = s.pwr.powCap ∧ t.pwr.calm = 0 ∧ t.pwr.capping = true ∧ t.pwr.energy = s.pwr.energy + m.pin ∧
      t.clock = min (profileClock s.pwr.profile) (min s.pwr.thermClk t.pwr.powClk) ∧ t.mem = s.mem) ∧
    (cap - 100 < power → s.pwr.powClk ≤ 500 → 8 < s.pwr.powCap → ∃ t, exec (.powerCapTick m a) s = .next t ∧ t.pwr.powClk = s.pwr.powClk ∧
      t.pwr.powCap = s.pwr.powCap - 1 ∧ t.pwr.calm = 0 ∧ t.pwr.capping = true) ∧
    (cap - 100 < power → s.pwr.powClk ≤ 500 → s.pwr.powCap ≤ 8 → ∃ t, exec (.powerCapTick m a) s = .next t ∧ t.pwr.powClk = s.pwr.powClk ∧
      t.pwr.powCap = s.pwr.powCap ∧ t.pwr.floor = decide (cap < power)) ∧
    (power ≤ cap - 100 → cap - 100 < power + 300 → ∃ t, exec (.powerCapTick m a) s = .next t ∧ t.pwr.powClk = s.pwr.powClk ∧
      t.pwr.powCap = s.pwr.powCap ∧ t.pwr.calm = 0 ∧ t.clock = s.clock)) ∧
  (∀ (s : State) (pin : Nat) (a : Activity), s.watching = true → s.pwr.ready = true →
    let goal := min 1250 (max 800 (1000 * pin / max 1 (predictPower s.pwr.profile s.clock s.pwr.k (s.ports.map (·.link)) a)))
    ∃ t, exec (.powerModelUpdate pin a) s = .next t ∧ (s.pwr.k ≤ goal → s.pwr.k ≤ t.pwr.k ∧ t.pwr.k ≤ goal) ∧
      (goal ≤ s.pwr.k → goal ≤ t.pwr.k ∧ t.pwr.k ≤ s.pwr.k) ∧ t.clock = s.clock ∧ t.mem = s.mem) ∧
  (∀ (s : State) (data : List Byte) (pec : Byte) (code n v : Nat), s.dataSide = true →
    let want := fun code => Config.smbusPec (natLe 1 (2 * s.pwr.smbAddr) ++ natLe 1 code ++ natLe 1 data.length ++ data)
    (pec = want 0x20 → data.length = 2 → (let x := leNat data % 2 ^ 11; x = 0 ∨ 400 ≤ x ∧ x ≤ profileWatts s.pwr.profile) →
      ∃ t, exec (.sbPwrlimWrite data pec) s = .next t ∧ exec (.smbusBlockWrite 0x20 data pec) s = .next t ∧ t.smbOut = some [] ∧
        t.pwr.pwrlim = leNat data % 2 ^ 11 ∧ t.pwr.powClk = s.pwr.powClk ∧ t.mem = s.mem) ∧
    (s.sbReg code = some (n, v) → pec ≠ want code ∨ data.length ≠ n → exec (.smbusBlockWrite code data pec) s = .next { s with smbOut := none }) ∧
    (pec = want 0x31 → data.length = 2 → ∃ t, exec (.smbusBlockWrite 0x31 data pec) s = .next t ∧ t.smbOut = some [] ∧
        t.pwr.alerten = bits (leNat data) 11 8 ∧ (t.pwr.alert = true ↔ bits s.pwr.sbstat 11 8 &&& t.pwr.alerten ≠ 0))) ∧
  (∀ (s : State) (code n v : Nat), let answer := fun code n v => natLe 1 n ++ natLe n v ++ [Config.smbusPec (natLe 1 (2 * s.pwr.smbAddr) ++ natLe 1 code ++
      natLe 1 (2 * s.pwr.smbAddr + 1) ++ (natLe 1 n ++ natLe n v))]
    (s.pwr.standby = true → exec .smbusStatusRead s = .next { s with smbOut := some (answer 0 4 s.pwr.boot.word) }) ∧
    (s.dataSide = true → s.sbReg code = some (n, v) → exec (.smbusBlockRead code) s = .next { s with smbOut := some (answer code n v) }) ∧
    (s.dataSide = false → code ≠ 0 → exec (.smbusBlockRead code) s = .next { s with smbOut := none })) ∧
  (∀ (s : State), exec .smbusClockLowTimeout s = .next { s with smbOut := none } ∧
    (s.pwr.standby = true → s.pwr.alert = true → exec .smbusAlertResponse s = .next { s with smbOut := some (natLe 1 (2 * s.pwr.smbAddr)) })) ∧
  (∀ (s : State) (d : Nat), s.runs = true → d < 4 → nth 0 s.smScrub d < sharedBytes / 16 →
    s.readErrors (sharedBase d + 16 * nth 0 s.smScrub d) 16 = (0, 0) →
    ∃ t, exec (.sharedMemoryScrub d []) s = .next t ∧ t.smScrub = putAt s.smScrub d ((nth 0 s.smScrub d + 1) % scrubPlaces) ∧ t.mem = s.mem ∧ t.dmg = s.dmg)
end

