-- ==== Sys2Proof/Laws/Memory.lean ====
section
/-!
SUPPORT. Sparse tables and memories: a read after a write, and that every operation keeps the canonical form.
-/

namespace Sys2Proof.SMap

variable {α : Type} (d : α)

@[simp] theorem get_nil (k : Nat) : get d ([] : SMap α) k = d := rfl

theorem get_put (m : SMap α) (k : Nat) (v : α) (j : Nat) : get d (put m k v) j = if j = k then v else get d m j := by
  induction m with
  | nil => simp [put, get]
  | cons e m ih =>
    obtain ⟨k', v'⟩ := e
    simp only [put]
    split
    · simp [get]
    · split
      · subst_vars; simp only [get]; split <;> rfl
      · simp only [get, ih]; grind

theorem get_dropKeys (m : SMap α) (p : Nat → Bool) (j : Nat) : get d (dropKeys p m) j = if p j then d else get d m j := by
  induction m with
  | nil => simp [dropKeys]
  | cons e m ih =>
    obtain ⟨k, v⟩ := e
    simp only [dropKeys, List.filter] at ih ⊢
    cases hp : p k <;> simp only [Bool.not_true, Bool.not_false, get, ih] <;> grind

theorem get_del (m : SMap α) (k j : Nat) : get d (del m k) j = if j = k then d else get d m j := by
  induction m with
  | nil => simp [del]
  | cons e m ih =>
    obtain ⟨k', v⟩ := e
    simp only [del, List.filter] at ih ⊢
    by_cases hk : k' = k
    · simp only [hk, bne_self_eq_false, ih, get]; grind
    · rw [bne_iff_ne.mpr hk]; simp only [get, ih]; grind

variable [DecidableEq α]

theorem wfFrom_mono {m : SMap α} {lo lo' : Nat} (h : wfFrom d lo m = true) (hl : lo' ≤ lo) : wfFrom d lo' m = true := by
  cases m with
  | nil => rfl
  | cons e m =>
    obtain ⟨k, v⟩ := e
    simp only [wfFrom, Bool.and_eq_true, decide_eq_true_eq] at h ⊢
    exact ⟨⟨by omega, h.1.2⟩, h.2⟩

theorem wfFrom_put {m : SMap α} {lo k : Nat} {v : α} (h : wfFrom d lo m = true) (hl : lo ≤ k) (hv : v ≠ d) :
    wfFrom d lo (put m k v) = true := by
  induction m generalizing lo with
  | nil => simp [put, wfFrom, hl, hv]
  | cons e m ih =>
    obtain ⟨k', v'⟩ := e
    have h' := h
    simp only [wfFrom, Bool.and_eq_true, decide_eq_true_eq] at h
    obtain ⟨⟨h1, h2⟩, h3⟩ := h
    simp only [put]
    split
    · simp only [wfFrom, Bool.and_eq_true, decide_eq_true_eq]
      exact ⟨⟨hl, hv⟩, ⟨by omega, h2⟩, h3⟩
    · split
      · subst_vars
        simp only [wfFrom, Bool.and_eq_true, decide_eq_true_eq]
        exact ⟨⟨hl, hv⟩, h3⟩
      · simp only [wfFrom, Bool.and_eq_true, decide_eq_true_eq]
        exact ⟨⟨h1, h2⟩, ih h3 (by omega)⟩

theorem wfFrom_filter {m : SMap α} {lo : Nat} (p : Nat × α → Bool) (h : wfFrom d lo m = true) : wfFrom d lo (m.filter p) = true := by
  induction m generalizing lo with
  | nil => rfl
  | cons e m ih =>
    obtain ⟨k, v⟩ := e
    simp only [wfFrom, Bool.and_eq_true, decide_eq_true_eq] at h
    simp only [List.filter]
    split
    · simp only [wfFrom, Bool.and_eq_true, decide_eq_true_eq]
      exact ⟨h.1, ih h.2⟩
    · exact wfFrom_mono d (ih h.2) (by omega)

theorem wf_set {m : SMap α} (k : Nat) (v : α) (h : wf d m = true) : wf d (set d m k v) = true := by
  unfold set
  split
  · exact wfFrom_filter d _ h
  · exact wfFrom_put d h (Nat.zero_le _) ‹_›

theorem wf_filter {m : SMap α} (p : Nat × α → Bool) (h : wf d m = true) : wf d (m.filter p) = true := wfFrom_filter d p h

theorem wf_dropKeys {m : SMap α} (p : Nat → Bool) (h : wf d m = true) : wf d (dropKeys p m) = true := wfFrom_filter d _ h

/-- A read after a write: the value at the key, and the old value elsewhere. -/
theorem get_set (m : SMap α) (k : Nat) (v : α) (j : Nat) : get d (set d m k v) j = if j = k then v else get d m j := by
  unfold set
  split
  · rename_i hv; rw [hv]; exact get_del d m k j
  · exact get_put d m k v j

@[simp] theorem get_set_same (m : SMap α) (k : Nat) (v : α) : get d (set d m k v) k = v := by simp [get_set]

theorem get_set_of_ne (m : SMap α) {k j : Nat} (v : α) (hj : j ≠ k) : get d (set d m k v) j = get d m j := by simp [get_set, hj]

end Sys2Proof.SMap

namespace Sys2Proof.Memory

@[simp] theorem byte_nil (a : Nat) : byte [] a = 0 := rfl

theorem wf_setByte {m : Memory} (a : Nat) (b : Byte) (h : m.wf = true) : (m.setByte a b).wf = true := SMap.wf_set 0 a b h

theorem wf_write {m : Memory} (a : Nat) (bs : List Byte) (h : m.wf = true) : (m.write a bs).wf = true := by
  induction bs generalizing m a with
  | nil => exact h
  | cons b bs ih => exact ih _ (wf_setByte a b h)

theorem wf_clear {m : Memory} (a n : Nat) (h : m.wf = true) : (m.clear a n).wf = true := SMap.wf_dropKeys 0 _ h

theorem wf_filter {m : Memory} (p : Nat × Byte → Bool) (h : m.wf = true) : Memory.wf (m.filter p) = true := SMap.wf_filter 0 p h

theorem byte_setByte (m : Memory) (a : Nat) (b : Byte) (j : Nat) : (m.setByte a b).byte j = if j = a then b else m.byte j :=
  SMap.get_set 0 m a b j

/-- A byte after a write of a run: the run's byte inside it, the old byte outside. -/
theorem byte_write (m : Memory) (a : Nat) (bs : List Byte) (j : Nat) :
    (m.write a bs).byte j = if a ≤ j ∧ j < a + bs.length then bs.getD (j - a) 0 else m.byte j := by
  induction bs generalizing m a with
  | nil => simp [write]
  | cons b bs ih =>
    simp only [write, ih, byte_setByte, List.length_cons]
    by_cases h1 : j = a
    · subst h1; simp
    · by_cases h2 : a + 1 ≤ j ∧ j < a + 1 + bs.length
      · have e : j - a = (j - (a + 1)) + 1 := by omega
        rw [if_pos h2, if_pos (by omega), e, List.getD_cons_succ]
      · rw [if_neg h2, if_neg h1, if_neg (by omega)]

theorem byte_write_of_outside (m : Memory) {a : Nat} {bs : List Byte} {j : Nat} (hj : j < a ∨ a + bs.length ≤ j) :
    (m.write a bs).byte j = m.byte j := by
  rw [byte_write, if_neg (by omega)]

/-- A byte after a run is cleared. -/
theorem byte_clear (m : Memory) (a n j : Nat) : (m.clear a n).byte j = if a ≤ j ∧ j < a + n then 0 else m.byte j := by
  unfold clear byte
  rw [SMap.get_dropKeys]
  simp

@[simp] theorem length_read (m : Memory) (a n : Nat) : (m.read a n).length = n := by
  induction n generalizing a with
  | zero => rfl
  | succ n ih => simp [read, ih]

end Sys2Proof.Memory
end

