-- ==== Sys2Proof/Laws/CoreTempo.lean ====
section
/-!
SUPPORT. A core's tempo keeps its memory canonical: one lemma per operation, with the operation applied last.
-/

namespace Sys2Proof

/-- The memory of a tempo's context is canonical. -/
def Twf (x : TC) : Prop := x.mem.wf = true

theorem Twf.intro {x : TC} (h : x.mem.wf = true) : Twf x := h

theorem Twf.elim {x : TC} (h : Twf x) : x.mem.wf = true := h

theorem Twf.ite {c : Prop} [Decidable c] {a b : TC} (ha : c → Twf a) (hb : ¬c → Twf b) : Twf (if c then a else b) := by
  split <;> solve_by_elim

theorem Twf.ite1 {α : Type} {c : Prop} [Decidable c] {a b : TC × α} (ha : c → Twf a.1) (hb : ¬c → Twf b.1) : Twf (if c then a else b).1 := by
  split <;> solve_by_elim

theorem Twf.foldl {α : Type} {l : List α} {f : TC → α → TC} {x : TC} (h : Twf x) (hf : ∀ u a, Twf u → Twf (f u a)) : Twf (l.foldl f x) := by
  induction l generalizing x with
  | nil => exact h
  | cons a l ih => exact ih (hf _ _ h)

theorem Twf.foldlP {α β : Type} {l : List α} {f : TC × β → α → TC × β} {x : TC × β} (h : Twf x.1) (hf : ∀ u a, Twf u.1 → Twf (f u a).1) :
    Twf (l.foldl f x).1 := by
  induction l generalizing x with
  | nil => exact h
  | cons a l ih => exact ih (hf _ _ h)

theorem Twf.of_pair {α : Type} {p : TC × α} {y : TC} {a : α} (e : p = (y, a)) (h : Twf p.1) : Twf y := by rw [e] at h; exact h

theorem Twf.raise {y : TC} (ord code : Nat) (h : Twf y) : Twf (y.raise ord code) := by
  unfold TC.raise
  try dsimp only
  repeat' first
    | with_reducible assumption
    | with_reducible refine Twf.ite (fun _ => ?_) (fun _ => ?_)
    | with_reducible refine Twf.ite1 (fun _ => ?_) (fun _ => ?_)
    | (refine Twf.intro ?_; dsimp only; with_reducible first | refine Twf.elim ?_ | (apply Memory.wf_write; refine Twf.elim ?_))
    | (apply Twf.of_pair; assumption)
    | split
    | dsimp only

theorem Twf.memErr {y : TC} (ord eng bank code : Nat) (h : Twf y) : Twf (y.memErr ord eng bank code) := by
  unfold TC.memErr
  try dsimp only
  repeat' first
    | with_reducible assumption
    | with_reducible apply Twf.raise
    | with_reducible refine Twf.ite (fun _ => ?_) (fun _ => ?_)
    | with_reducible refine Twf.ite1 (fun _ => ?_) (fun _ => ?_)
    | (refine Twf.intro ?_; dsimp only; with_reducible first | refine Twf.elim ?_ | (apply Memory.wf_write; refine Twf.elim ?_))
    | (apply Twf.of_pair; assumption)
    | split
    | dsimp only

theorem Twf.access {y : TC} (ord eng : Nat) (write : Bool) (pieces : List Nat) (h : Twf y) : Twf (y.access ord eng write pieces).1 := by
  unfold TC.access
  try dsimp only
  repeat' first
    | with_reducible assumption
    | with_reducible apply Twf.memErr
    | with_reducible refine Twf.ite (fun _ => ?_) (fun _ => ?_)
    | with_reducible refine Twf.ite1 (fun _ => ?_) (fun _ => ?_)
    | (refine Twf.intro ?_; dsimp only; with_reducible first | refine Twf.elim ?_ | (apply Memory.wf_write; refine Twf.elim ?_))
    | (apply Twf.of_pair; assumption)
    | split
    | dsimp only

theorem Twf.accPort {y : TC} (ord a : Nat) (h : Twf y) : Twf (y.accPort ord a).1 := by
  unfold TC.accPort
  try dsimp only
  repeat' first
    | with_reducible assumption
    | with_reducible apply Twf.memErr
    | with_reducible refine Twf.ite (fun _ => ?_) (fun _ => ?_)
    | with_reducible refine Twf.ite1 (fun _ => ?_) (fun _ => ?_)
    | (refine Twf.intro ?_; dsimp only; with_reducible first | refine Twf.elim ?_ | (apply Memory.wf_write; refine Twf.elim ?_))
    | (apply Twf.of_pair; assumption)
    | split
    | dsimp only

theorem Twf.deq {y : TC} (ord q n under : Nat) (h : Twf y) : Twf (y.deq ord q n under).1 := by
  unfold TC.deq
  try dsimp only
  repeat' first
    | with_reducible assumption
    | with_reducible apply Twf.raise
    | with_reducible refine Twf.ite (fun _ => ?_) (fun _ => ?_)
    | with_reducible refine Twf.ite1 (fun _ => ?_) (fun _ => ?_)
    | (refine Twf.intro ?_; dsimp only; with_reducible first | refine Twf.elim ?_ | (apply Memory.wf_write; refine Twf.elim ?_))
    | (apply Twf.of_pair; assumption)
    | split
    | dsimp only

theorem Twf.send {y : TC} (ord cls r : Nat) (c : Cargo) (h : Twf y) : Twf (y.send ord cls r c) := by
  unfold TC.send
  try dsimp only
  repeat' first
    | with_reducible assumption
    | with_reducible apply Twf.raise
    | with_reducible refine Twf.ite (fun _ => ?_) (fun _ => ?_)
    | with_reducible refine Twf.ite1 (fun _ => ?_) (fun _ => ?_)
    | (refine Twf.intro ?_; dsimp only; with_reducible first | refine Twf.elim ?_ | (apply Memory.wf_write; refine Twf.elim ?_))
    | (apply Twf.of_pair; assumption)
    | split
    | dsimp only

theorem Twf.wr {y : TC} (a : Nat) (bs : List Byte) (h : Twf y) : Twf (y.wr a bs) := by
  unfold TC.wr
  try dsimp only
  repeat' first
    | with_reducible assumption
    | with_reducible refine Twf.ite (fun _ => ?_) (fun _ => ?_)
    | with_reducible refine Twf.ite1 (fun _ => ?_) (fun _ => ?_)
    | (refine Twf.intro ?_; dsimp only; with_reducible first | refine Twf.elim ?_ | (apply Memory.wf_write; refine Twf.elim ?_))
    | (apply Twf.of_pair; assumption)
    | split
    | dsimp only

theorem Twf.wrHalf {y : TC} (a k v : Nat) (h : Twf y) : Twf (y.wrHalf a k v) := by
  unfold TC.wrHalf
  exact Twf.wr _ _ h

theorem Twf.noteRead {y : TC} (a r : Nat) (h : Twf y) : Twf (y.noteRead a r) := by
  unfold TC.noteRead
  try dsimp only
  repeat' first
    | with_reducible assumption
    | with_reducible refine Twf.ite (fun _ => ?_) (fun _ => ?_)
    | with_reducible refine Twf.ite1 (fun _ => ?_) (fun _ => ?_)
    | (refine Twf.intro ?_; dsimp only; with_reducible first | refine Twf.elim ?_ | (apply Memory.wf_write; refine Twf.elim ?_))
    | (apply Twf.of_pair; assumption)
    | split
    | dsimp only

theorem Twf.noteWrite {y : TC} (a r : Nat) (h : Twf y) : Twf (y.noteWrite a r) := by
  unfold TC.noteWrite
  try dsimp only
  repeat' first
    | with_reducible assumption
    | with_reducible refine Twf.ite (fun _ => ?_) (fun _ => ?_)
    | with_reducible refine Twf.ite1 (fun _ => ?_) (fun _ => ?_)
    | (refine Twf.intro ?_; dsimp only; with_reducible first | refine Twf.elim ?_ | (apply Memory.wf_write; refine Twf.elim ?_))
    | (apply Twf.of_pair; assumption)
    | split
    | dsimp only

theorem Twf.fresh {y : TC}  (h : Twf y) : Twf (y.fresh).1 := by
  unfold TC.fresh
  try dsimp only
  repeat' first
    | with_reducible assumption
    | with_reducible refine Twf.ite (fun _ => ?_) (fun _ => ?_)
    | with_reducible refine Twf.ite1 (fun _ => ?_) (fun _ => ?_)
    | (refine Twf.intro ?_; dsimp only; with_reducible first | refine Twf.elim ?_ | (apply Memory.wf_write; refine Twf.elim ?_))
    | (apply Twf.of_pair; assumption)
    | split
    | dsimp only

theorem Twf.feed {y : TC} (ord : Nat) (runs : List Run) (h : Twf y) : Twf (y.feed ord runs).1 := by
  unfold TC.feed
  try dsimp only
  repeat' first
    | with_reducible assumption
    | with_reducible apply Twf.access
    | with_reducible refine Twf.ite (fun _ => ?_) (fun _ => ?_)
    | with_reducible refine Twf.ite1 (fun _ => ?_) (fun _ => ?_)
    | (refine Twf.intro ?_; dsimp only; with_reducible first | refine Twf.elim ?_ | (apply Memory.wf_write; refine Twf.elim ?_))
    | (apply Twf.of_pair; assumption)
    | split
    | dsimp only

theorem Twf.freeScales {y : TC} (n : Nat) (h : Twf y) : Twf (y.freeScales n).1 := by
  unfold TC.freeScales
  try dsimp only
  repeat' first
    | with_reducible assumption
    | with_reducible refine Twf.ite (fun _ => ?_) (fun _ => ?_)
    | with_reducible refine Twf.ite1 (fun _ => ?_) (fun _ => ?_)
    | (refine Twf.intro ?_; dsimp only; with_reducible first | refine Twf.elim ?_ | (apply Memory.wf_write; refine Twf.elim ?_))
    | (apply Twf.of_pair; assumption)
    | split
    | dsimp only

theorem Twf.weightRowD {y : TC} (w : WRun) (st : TStep) (cols e : Nat) (h : Twf y) : Twf (y.weightRowD w st cols e).1 := by
  unfold TC.weightRowD
  try dsimp only
  repeat' first
    | with_reducible assumption
    | with_reducible apply Twf.feed
    | with_reducible refine Twf.ite (fun _ => ?_) (fun _ => ?_)
    | with_reducible refine Twf.ite1 (fun _ => ?_) (fun _ => ?_)
    | (refine Twf.intro ?_; dsimp only; with_reducible first | refine Twf.elim ?_ | (apply Memory.wf_write; refine Twf.elim ?_))
    | (apply Twf.of_pair; assumption)
    | split
    | dsimp only

theorem Twf.advance {y : TC} (a : Nat) (weight : Bool) (h : Twf y) : Twf (y.advance a weight) := by
  unfold TC.advance
  try dsimp only
  repeat' first
    | with_reducible assumption
    | with_reducible refine Twf.ite (fun _ => ?_) (fun _ => ?_)
    | (refine Twf.intro ?_; dsimp only; with_reducible refine Twf.elim ?_)

theorem Twf.weightRowC {y : TC} (w : WRun) (cols e : Nat) (h : Twf y) : Twf (y.weightRowC w cols e).1 := by
  unfold TC.weightRowC
  try dsimp only
  repeat' first
    | with_reducible assumption
    | with_reducible apply Twf.advance
    | with_reducible apply Twf.access
    | with_reducible apply Twf.freeScales
    | with_reducible apply Twf.raise
    | with_reducible refine Twf.ite (fun _ => ?_) (fun _ => ?_)
    | with_reducible refine Twf.ite1 (fun _ => ?_) (fun _ => ?_)
    | (refine Twf.intro ?_; dsimp only; with_reducible first | refine Twf.elim ?_ | (apply Memory.wf_write; refine Twf.elim ?_))
    | (apply Twf.of_pair; assumption)
    | split
    | dsimp only

theorem Twf.weightRowR {y : TC} (w : WRun) (cols e : Nat) (h : Twf y) : Twf (y.weightRowR w cols e).1 := by
  unfold TC.weightRowR
  try dsimp only
  repeat' first
    | with_reducible assumption
    | with_reducible apply Twf.raise
    | with_reducible apply Twf.units
    | with_reducible refine Twf.ite (fun _ => ?_) (fun _ => ?_)
    | with_reducible refine Twf.ite1 (fun _ => ?_) (fun _ => ?_)
    | (refine Twf.intro ?_; dsimp only; with_reducible first | refine Twf.elim ?_ | (apply Memory.wf_write; refine Twf.elim ?_))
    | (apply Twf.of_pair; assumption)
    | split
    | dsimp only

theorem Twf.weightRowQ {y : TC} (w : WRun) (cols e : Nat) (h : Twf y) : Twf (y.weightRowQ w cols e).1 := by
  unfold TC.weightRowQ
  try dsimp only
  repeat' first
    | with_reducible assumption
    | with_reducible apply Twf.deq
    | with_reducible apply Twf.freeScales
    | with_reducible refine Twf.ite (fun _ => ?_) (fun _ => ?_)
    | with_reducible refine Twf.ite1 (fun _ => ?_) (fun _ => ?_)
    | (refine Twf.intro ?_; dsimp only; with_reducible first | refine Twf.elim ?_ | (apply Memory.wf_write; refine Twf.elim ?_))
    | (apply Twf.of_pair; assumption)
    | split
    | dsimp only

theorem Twf.weightRow {y : TC} (w : WRun) (h : Twf y) : Twf (y.weightRow w).1 := by
  unfold TC.weightRow
  try dsimp only
  repeat' first
    | with_reducible assumption
    | with_reducible apply Twf.weightRowC
    | with_reducible apply Twf.weightRowD
    | with_reducible apply Twf.weightRowQ
    | with_reducible apply Twf.weightRowR
    | with_reducible refine Twf.ite (fun _ => ?_) (fun _ => ?_)
    | with_reducible refine Twf.ite1 (fun _ => ?_) (fun _ => ?_)
    | (refine Twf.intro ?_; dsimp only; with_reducible first | refine Twf.elim ?_ | (apply Memory.wf_write; refine Twf.elim ?_))
    | (apply Twf.of_pair; assumption)
    | split
    | dsimp only

theorem Twf.wloadTempo {y : TC} (w : WRun) (h : Twf y) : Twf (y.wloadTempo w) := by
  unfold TC.wloadTempo
  try dsimp only
  repeat' first
    | with_reducible assumption
    | with_reducible apply Twf.weightRow
    | with_reducible refine Twf.foldl ?_ fun _ _ _ => ?_
    | with_reducible refine Twf.foldlP ?_ fun _ _ _ => ?_
    | with_reducible refine Twf.ite (fun _ => ?_) (fun _ => ?_)
    | with_reducible refine Twf.ite1 (fun _ => ?_) (fun _ => ?_)
    | (refine Twf.intro ?_; dsimp only; with_reducible first | refine Twf.elim ?_ | (apply Memory.wf_write; refine Twf.elim ?_))
    | (apply Twf.of_pair; assumption)
    | split
    | dsimp only

theorem Twf.inputRow {y : TC} (r : SRun) (n : Nat) (h : Twf y) : Twf (y.inputRow r n).1 := by
  unfold TC.inputRow
  try dsimp only
  repeat' first
    | with_reducible assumption
    | with_reducible apply Twf.advance
    | with_reducible apply Twf.access
    | with_reducible apply Twf.feed
    | with_reducible apply Twf.freeScales
    | with_reducible apply Twf.raise
    | with_reducible refine Twf.ite (fun _ => ?_) (fun _ => ?_)
    | with_reducible refine Twf.ite1 (fun _ => ?_) (fun _ => ?_)
    | (refine Twf.intro ?_; dsimp only; with_reducible first | refine Twf.elim ?_ | (apply Memory.wf_write; refine Twf.elim ?_))
    | (apply Twf.of_pair; assumption)
    | split
    | dsimp only

theorem Twf.streamWrite {y : TC} (r : SRun) (n : Nat) (row : RowIn) (hin : Option (List (List W32))) (h : Twf y) : Twf (y.streamWrite r n row hin).1 := by
  unfold TC.streamWrite
  try dsimp only
  repeat' first
    | with_reducible assumption
    | with_reducible apply Twf.noteRead
    | with_reducible apply Twf.noteWrite
    | with_reducible apply Twf.raise
    | with_reducible refine Twf.foldl ?_ fun _ _ _ => ?_
    | with_reducible refine Twf.foldlP ?_ fun _ _ _ => ?_
    | with_reducible refine Twf.ite (fun _ => ?_) (fun _ => ?_)
    | with_reducible refine Twf.ite1 (fun _ => ?_) (fun _ => ?_)
    | (refine Twf.intro ?_; dsimp only; with_reducible first | refine Twf.elim ?_ | (apply Memory.wf_write; refine Twf.elim ?_))
    | (apply Twf.of_pair; assumption)
    | split
    | dsimp only

theorem Twf.streamFail {y : TC} (r : SRun) (code : Nat) (h : Twf y) : Twf (y.streamFail r code).1 := by
  unfold TC.streamFail
  try dsimp only
  repeat' first
    | with_reducible assumption
    | with_reducible apply Twf.raise
    | with_reducible refine Twf.ite (fun _ => ?_) (fun _ => ?_)
    | (refine Twf.intro ?_; dsimp only; with_reducible refine Twf.elim ?_)
    | split
    | dsimp only

theorem Twf.streamStart {y : TC} (r : SRun) (l : List SRun) (h : Twf y) : Twf (y.streamStart r l).1 := by
  unfold TC.streamStart
  try dsimp only
  repeat' first
    | with_reducible assumption
    | with_reducible apply Twf.streamFail
    | with_reducible apply Twf.raise
    | with_reducible refine Twf.foldl ?_ fun _ _ _ => ?_
    | with_reducible refine Twf.foldlP ?_ fun _ _ _ => ?_
    | with_reducible refine Twf.ite (fun _ => ?_) (fun _ => ?_)
    | with_reducible refine Twf.ite1 (fun _ => ?_) (fun _ => ?_)
    | (refine Twf.intro ?_; dsimp only; with_reducible first | refine Twf.elim ?_ | (apply Memory.wf_write; refine Twf.elim ?_))
    | (apply Twf.of_pair; assumption)
    | split
    | dsimp only

theorem Twf.checkDone {y : TC} (ord : Nat) (f : ChkFail) (h : Twf y) : Twf (y.checkDone ord f) := by
  unfold TC.checkDone
  try dsimp only
  repeat' first
    | with_reducible assumption
    | with_reducible apply Twf.raise
    | with_reducible refine Twf.ite (fun _ => ?_) (fun _ => ?_)
    | with_reducible refine Twf.ite1 (fun _ => ?_) (fun _ => ?_)
    | (refine Twf.intro ?_; dsimp only; with_reducible first | refine Twf.elim ?_ | (apply Memory.wf_write; refine Twf.elim ?_))
    | (apply Twf.of_pair; assumption)
    | split
    | dsimp only

theorem Twf.releaseStep {y : TC} (r : SRun) (h : Twf y) : Twf (y.releaseStep r) := by
  unfold TC.releaseStep
  try dsimp only
  repeat' first
    | with_reducible assumption
    | with_reducible refine Twf.ite (fun _ => ?_) (fun _ => ?_)
    | with_reducible refine Twf.ite1 (fun _ => ?_) (fun _ => ?_)
    | (refine Twf.intro ?_; dsimp only; with_reducible first | refine Twf.elim ?_ | (apply Memory.wf_write; refine Twf.elim ?_))
    | (apply Twf.of_pair; assumption)
    | split
    | dsimp only

theorem Twf.streamTempo {y : TC} (r : SRun) (l : List SRun) (h : Twf y) : Twf (y.streamTempo r l) := by
  unfold TC.streamTempo
  try dsimp only
  repeat' first
    | with_reducible assumption
    | with_reducible apply Twf.checkDone
    | with_reducible apply Twf.inputRow
    | with_reducible apply Twf.releaseStep
    | with_reducible apply Twf.streamStart
    | with_reducible apply Twf.streamWrite
    | with_reducible refine Twf.foldl ?_ fun _ _ _ => ?_
    | with_reducible refine Twf.foldlP ?_ fun _ _ _ => ?_
    | with_reducible refine Twf.ite (fun _ => ?_) (fun _ => ?_)
    | with_reducible refine Twf.ite1 (fun _ => ?_) (fun _ => ?_)
    | (refine Twf.intro ?_; dsimp only; with_reducible first | refine Twf.elim ?_ | (apply Memory.wf_write; refine Twf.elim ?_))
    | (apply Twf.of_pair; assumption)
    | split
    | dsimp only

theorem Twf.startMat {y : TC} (field idx : Nat) (h : Twf y) : Twf (y.startMat field idx) := by
  unfold TC.startMat
  try dsimp only
  repeat' first
    | with_reducible assumption
    | with_reducible apply Twf.raise
    | with_reducible refine Twf.ite (fun _ => ?_) (fun _ => ?_)
    | with_reducible refine Twf.ite1 (fun _ => ?_) (fun _ => ?_)
    | (refine Twf.intro ?_; dsimp only; with_reducible first | refine Twf.elim ?_ | (apply Memory.wf_write; refine Twf.elim ?_))
    | (apply Twf.of_pair; assumption)
    | split
    | dsimp only

theorem wf_clears (l : List Nat) (f n : Nat → Nat) {m : Memory} (h : m.wf = true) :
    (l.foldl (fun (m : Memory) a => m.clear (f a) (n a)) m).wf = true := by
  induction l generalizing m with
  | nil => exact h
  | cons a l ih => exact ih (Memory.wf_clear _ _ h)

theorem Twf.aclrTempo {y : TC} (r : ARun) (h : Twf y) : Twf (y.aclrTempo r) := by
  unfold TC.aclrTempo
  lift_lets
  intro n m x
  have hx : Twf x := by
    refine Twf.foldl ?_ fun _ _ hu => Twf.foldl hu fun _ _ hv => Twf.noteWrite _ _ hv
    exact wf_clears _ _ (fun _ => 64 * n) h
  exact Twf.ite (fun _ => hx) fun _ => hx

theorem Twf.streamsTempo (l : List SRun) {y : TC} (h : Twf y) : Twf (y.streamsTempo l) := by
  induction l generalizing y with
  | nil => exact h
  | cons r l ih => exact ih (Twf.streamTempo r l h)

theorem Twf.arraysTempo {y : TC}  (h : Twf y) : Twf (y.arraysTempo) := by
  unfold TC.arraysTempo
  try dsimp only
  repeat' first
    | with_reducible assumption
    | with_reducible apply Twf.aclrTempo
    | with_reducible apply Twf.streamsTempo
    | with_reducible apply Twf.wloadTempo
    | with_reducible refine Twf.foldl ?_ fun _ _ _ => ?_
    | with_reducible refine Twf.foldlP ?_ fun _ _ _ => ?_
    | with_reducible refine Twf.ite (fun _ => ?_) (fun _ => ?_)
    | with_reducible refine Twf.ite1 (fun _ => ?_) (fun _ => ?_)
    | (refine Twf.intro ?_; dsimp only; with_reducible first | refine Twf.elim ?_ | (apply Memory.wf_write; refine Twf.elim ?_))
    | (apply Twf.of_pair; assumption)
    | split
    | dsimp only

theorem Twf.chanRead {y : TC} (q f lo hi : Nat) (held : List Byte) (h : Twf y) : Twf (y.chanRead q f lo hi held).1 := by
  unfold TC.chanRead
  try dsimp only
  repeat' first
    | with_reducible assumption
    | with_reducible apply Twf.deq
    | with_reducible refine Twf.ite (fun _ => ?_) (fun _ => ?_)
    | with_reducible refine Twf.ite1 (fun _ => ?_) (fun _ => ?_)
    | (refine Twf.intro ?_; dsimp only; with_reducible first | refine Twf.elim ?_ | (apply Memory.wf_write; refine Twf.elim ?_))
    | (apply Twf.of_pair; assumption)
    | split
    | dsimp only

theorem Twf.destWrites {y : TC} (r : VRun) (last : Bool) (due : Nat) (es : List El) (h : Twf y) : Twf (y.destWrites r last due es).1 := by
  unfold TC.destWrites
  try dsimp only
  repeat' first
    | with_reducible assumption
    | with_reducible refine Twf.ite (fun _ => ?_) (fun _ => ?_)
    | with_reducible refine Twf.ite1 (fun _ => ?_) (fun _ => ?_)
    | (refine Twf.intro ?_; dsimp only; with_reducible first | refine Twf.elim ?_ | (apply Memory.wf_write; refine Twf.elim ?_))
    | (apply Twf.of_pair; assumption)
    | split
    | dsimp only

theorem Twf.drainRows {y : TC} (d : Nat) (n : Nat) (h : Twf y) : Twf (y.drainRows d n).1 := by
  unfold TC.drainRows
  try dsimp only
  repeat' first
    | with_reducible assumption
    | with_reducible apply Twf.raise
    | with_reducible refine Twf.foldl ?_ fun _ _ _ => ?_
    | with_reducible refine Twf.foldlP ?_ fun _ _ _ => ?_
    | with_reducible refine Twf.ite (fun _ => ?_) (fun _ => ?_)
    | with_reducible refine Twf.ite1 (fun _ => ?_) (fun _ => ?_)
    | (refine Twf.intro ?_; dsimp only; with_reducible first | refine Twf.elim ?_ | (apply Memory.wf_write; refine Twf.elim ?_))
    | (apply Twf.of_pair; assumption)
    | split
    | dsimp only

theorem Twf.drainGroup {y : TC} (r : VRun) (d cnt : Nat) (h : Twf y) : Twf (y.drainGroup r d cnt).1 := by
  unfold TC.drainGroup
  try dsimp only
  repeat' first
    | with_reducible assumption
    | with_reducible apply Twf.accPort
    | with_reducible apply Twf.drainRows
    | with_reducible apply Twf.noteRead
    | with_reducible refine Twf.foldl ?_ fun _ _ _ => ?_
    | with_reducible refine Twf.foldlP ?_ fun _ _ _ => ?_
    | with_reducible refine Twf.ite (fun _ => ?_) (fun _ => ?_)
    | with_reducible refine Twf.ite1 (fun _ => ?_) (fun _ => ?_)
    | (refine Twf.intro ?_; dsimp only; with_reducible first | refine Twf.elim ?_ | (apply Memory.wf_write; refine Twf.elim ?_))
    | (apply Twf.of_pair; assumption)
    | split
    | dsimp only

theorem Twf.xGroup {y : TC} (r : VRun) (lo hi : Nat) (h : Twf y) : Twf (y.xGroup r lo hi).1 := by
  unfold TC.xGroup
  try dsimp only
  repeat' first
    | with_reducible assumption
    | with_reducible apply Twf.accPort
    | with_reducible apply Twf.access
    | with_reducible apply Twf.chanRead
    | with_reducible apply Twf.noteRead
    | with_reducible refine Twf.foldl ?_ fun _ _ _ => ?_
    | with_reducible refine Twf.foldlP ?_ fun _ _ _ => ?_
    | with_reducible refine Twf.ite (fun _ => ?_) (fun _ => ?_)
    | with_reducible refine Twf.ite1 (fun _ => ?_) (fun _ => ?_)
    | (refine Twf.intro ?_; dsimp only; with_reducible first | refine Twf.elim ?_ | (apply Memory.wf_write; refine Twf.elim ?_))
    | (apply Twf.of_pair; assumption)
    | split
    | dsimp only

theorem Twf.yGroup {y : TC} (r : VRun) (lo hi : Nat) (os : List Nat) (h : Twf y) : Twf (y.yGroup r lo hi os).1 := by
  unfold TC.yGroup
  try dsimp only
  repeat' first
    | with_reducible assumption
    | with_reducible apply Twf.access
    | with_reducible apply Twf.chanRead
    | with_reducible refine Twf.ite (fun _ => ?_) (fun _ => ?_)
    | with_reducible refine Twf.ite1 (fun _ => ?_) (fun _ => ?_)
    | (refine Twf.intro ?_; dsimp only; with_reducible first | refine Twf.elim ?_ | (apply Memory.wf_write; refine Twf.elim ?_))
    | (apply Twf.of_pair; assumption)
    | split
    | dsimp only

theorem Twf.expandFetch {y : TC} (r : VRun) (pre : List Stage) (n : Nat) (h : Twf y) : Twf (y.expandFetch r pre n).1 := by
  induction n generalizing y r with
  | zero => exact h
  | succ n ih =>
    unfold TC.expandFetch
    dsimp only
    repeat' first
      | assumption
      | with_reducible apply ih
      | with_reducible apply Twf.xGroup
      | with_reducible refine Twf.ite1 (fun _ => ?_) (fun _ => ?_)
      | (apply Twf.of_pair; assumption)
      | split
      | dsimp only

theorem Twf.vecGroup {y : TC} (r : VRun) (g lat : Nat) (h : Twf y) : Twf (y.vecGroup r g lat).1 := by
  unfold TC.vecGroup
  try dsimp only
  repeat' first
    | with_reducible assumption
    | with_reducible apply Twf.destWrites
    | with_reducible apply Twf.drainGroup
    | with_reducible apply Twf.xGroup
    | with_reducible apply Twf.yGroup
    | with_reducible apply Twf.expandFetch
    | with_reducible refine Twf.ite (fun _ => ?_) (fun _ => ?_)
    | with_reducible refine Twf.ite1 (fun _ => ?_) (fun _ => ?_)
    | (refine Twf.intro ?_; dsimp only; with_reducible first | refine Twf.elim ?_ | (apply Memory.wf_write; refine Twf.elim ?_))
    | (apply Twf.of_pair; assumption)
    | split
    | dsimp only

theorem Twf.noteRow {y : TC} (d row cols nv : Nat) (h : Twf y) : Twf (y.noteRow d row cols nv) := by
  unfold TC.noteRow
  try dsimp only
  repeat' first
    | with_reducible assumption
    | with_reducible refine Twf.foldl ?_ fun _ _ _ => ?_
    | with_reducible refine Twf.foldlP ?_ fun _ _ _ => ?_
    | with_reducible refine Twf.ite (fun _ => ?_) (fun _ => ?_)
    | with_reducible refine Twf.ite1 (fun _ => ?_) (fun _ => ?_)
    | (refine Twf.intro ?_; dsimp only; with_reducible first | refine Twf.elim ?_ | (apply Memory.wf_write; refine Twf.elim ?_))
    | (apply Twf.of_pair; assumption)
    | split
    | dsimp only

theorem Twf.vecWrites {y : TC} (r : VRun) (h : Twf y) : Twf (y.vecWrites r) := by
  unfold TC.vecWrites
  try dsimp only
  repeat' first
    | with_reducible assumption
    | with_reducible apply Twf.access
    | with_reducible apply Twf.noteRow
    | with_reducible apply Twf.raise
    | with_reducible apply Twf.send
    | with_reducible apply Twf.wr
    | with_reducible apply Twf.wrHalf
    | with_reducible refine Twf.foldl ?_ fun _ _ _ => ?_
    | with_reducible refine Twf.foldlP ?_ fun _ _ _ => ?_
    | with_reducible refine Twf.ite (fun _ => ?_) (fun _ => ?_)
    | with_reducible refine Twf.ite1 (fun _ => ?_) (fun _ => ?_)
    | (refine Twf.intro ?_; dsimp only; with_reducible first | refine Twf.elim ?_ | (apply Memory.wf_write; refine Twf.elim ?_))
    | (apply Twf.of_pair; assumption)
    | split
    | dsimp only

theorem Twf.vecTempo {y : TC} (r : VRun) (h : Twf y) : Twf (y.vecTempo r) := by
  unfold TC.vecTempo
  try dsimp only
  repeat' first
    | with_reducible assumption
    | with_reducible apply Twf.vecGroup
    | with_reducible apply Twf.vecWrites
    | with_reducible refine Twf.ite (fun _ => ?_) (fun _ => ?_)
    | with_reducible refine Twf.ite1 (fun _ => ?_) (fun _ => ?_)
    | (refine Twf.intro ?_; dsimp only; with_reducible first | refine Twf.elim ?_ | (apply Memory.wf_write; refine Twf.elim ?_))
    | (apply Twf.of_pair; assumption)
    | split
    | dsimp only

theorem Twf.startVec {y : TC} (idx : Nat) (h : Twf y) : Twf (y.startVec idx) := by
  unfold TC.startVec
  try dsimp only
  repeat' first
    | with_reducible assumption
    | with_reducible apply Twf.raise
    | with_reducible refine Twf.ite (fun _ => ?_) (fun _ => ?_)
    | with_reducible refine Twf.ite1 (fun _ => ?_) (fun _ => ?_)
    | (refine Twf.intro ?_; dsimp only; with_reducible first | refine Twf.elim ?_ | (apply Memory.wf_write; refine Twf.elim ?_))
    | (apply Twf.of_pair; assumption)
    | split
    | dsimp only

theorem Twf.vectorTempo {y : TC}  (h : Twf y) : Twf (y.vectorTempo) := by
  unfold TC.vectorTempo
  try dsimp only
  repeat' first
    | with_reducible assumption
    | with_reducible apply Twf.vecTempo
    | with_reducible refine Twf.foldl ?_ fun _ _ _ => ?_
    | with_reducible refine Twf.foldlP ?_ fun _ _ _ => ?_
    | with_reducible refine Twf.ite (fun _ => ?_) (fun _ => ?_)
    | with_reducible refine Twf.ite1 (fun _ => ?_) (fun _ => ?_)
    | (refine Twf.intro ?_; dsimp only; with_reducible first | refine Twf.elim ?_ | (apply Memory.wf_write; refine Twf.elim ?_))
    | (apply Twf.of_pair; assumption)
    | split
    | dsimp only

theorem Twf.startCursor {y : TC} (arr : Nat) (weight : Bool) (b : BaseW) (stride : Nat) (h : Twf y) : Twf (y.startCursor arr weight b stride) := by
  unfold TC.startCursor
  try dsimp only
  repeat' first
    | with_reducible assumption
    | with_reducible refine Twf.ite (fun _ => ?_) (fun _ => ?_)
    | with_reducible refine Twf.ite1 (fun _ => ?_) (fun _ => ?_)
    | (refine Twf.intro ?_; dsimp only; with_reducible first | refine Twf.elim ?_ | (apply Memory.wf_write; refine Twf.elim ?_))
    | (apply Twf.of_pair; assumption)
    | split
    | dsimp only

theorem Twf.startCastle {y : TC} (bufs : Nat) (h : Twf y) : Twf (y.startCastle bufs) := by
  unfold TC.startCastle
  try dsimp only
  repeat' first
    | with_reducible assumption
    | with_reducible apply Twf.raise
    | with_reducible refine Twf.foldl ?_ fun _ _ _ => ?_
    | with_reducible refine Twf.foldlP ?_ fun _ _ _ => ?_
    | with_reducible refine Twf.ite (fun _ => ?_) (fun _ => ?_)
    | with_reducible refine Twf.ite1 (fun _ => ?_) (fun _ => ?_)
    | (refine Twf.intro ?_; dsimp only; with_reducible first | refine Twf.elim ?_ | (apply Memory.wf_write; refine Twf.elim ?_))
    | (apply Twf.of_pair; assumption)
    | split
    | dsimp only

theorem Twf.startDmain {y : TC} (a : DmaA) (h : Twf y) : Twf (y.startDmain a) := by
  unfold TC.startDmain
  try dsimp only
  repeat' first
    | with_reducible assumption
    | with_reducible apply Twf.raise
    | with_reducible refine Twf.ite (fun _ => ?_) (fun _ => ?_)
    | with_reducible refine Twf.ite1 (fun _ => ?_) (fun _ => ?_)
    | (refine Twf.intro ?_; dsimp only; with_reducible first | refine Twf.elim ?_ | (apply Memory.wf_write; refine Twf.elim ?_))
    | (apply Twf.of_pair; assumption)
    | split
    | dsimp only

theorem Twf.startDmaout {y : TC} (a : DmaA) (h : Twf y) : Twf (y.startDmaout a) := by
  unfold TC.startDmaout
  try dsimp only
  repeat' first
    | with_reducible assumption
    | with_reducible apply Twf.raise
    | with_reducible refine Twf.ite (fun _ => ?_) (fun _ => ?_)
    | with_reducible refine Twf.ite1 (fun _ => ?_) (fun _ => ?_)
    | (refine Twf.intro ?_; dsimp only; with_reducible first | refine Twf.elim ?_ | (apply Memory.wf_write; refine Twf.elim ?_))
    | (apply Twf.of_pair; assumption)
    | split
    | dsimp only

theorem Twf.startSmreq {y : TC} (route : Nat) (write : Bool) (dchan addr entries stride : Nat) (h : Twf y) : Twf (y.startSmreq route write dchan addr entries stride) := by
  unfold TC.startSmreq
  try dsimp only
  repeat' first
    | with_reducible assumption
    | with_reducible apply Twf.raise
    | with_reducible apply Twf.send
    | with_reducible refine Twf.ite (fun _ => ?_) (fun _ => ?_)
    | with_reducible refine Twf.ite1 (fun _ => ?_) (fun _ => ?_)
    | (refine Twf.intro ?_; dsimp only; with_reducible first | refine Twf.elim ?_ | (apply Memory.wf_write; refine Twf.elim ?_))
    | (apply Twf.of_pair; assumption)
    | split
    | dsimp only

theorem Twf.startRotate {y : TC} (rslot rnt mode : Nat) (h : Twf y) : Twf (y.startRotate rslot rnt mode) := by
  unfold TC.startRotate
  try dsimp only
  repeat' first
    | with_reducible assumption
    | with_reducible apply Twf.raise
    | with_reducible refine Twf.ite (fun _ => ?_) (fun _ => ?_)
    | with_reducible refine Twf.ite1 (fun _ => ?_) (fun _ => ?_)
    | (refine Twf.intro ?_; dsimp only; with_reducible first | refine Twf.elim ?_ | (apply Memory.wf_write; refine Twf.elim ?_))
    | (apply Twf.of_pair; assumption)
    | split
    | dsimp only

theorem Twf.startMem {y : TC} (idx : Nat) (h : Twf y) : Twf (y.startMem idx) := by
  unfold TC.startMem
  try dsimp only
  repeat' first
    | with_reducible assumption
    | with_reducible apply Twf.startCastle
    | with_reducible apply Twf.startCursor
    | with_reducible apply Twf.startDmain
    | with_reducible apply Twf.startDmaout
    | with_reducible apply Twf.startRotate
    | with_reducible apply Twf.startSmreq
    | with_reducible refine Twf.ite (fun _ => ?_) (fun _ => ?_)
    | with_reducible refine Twf.ite1 (fun _ => ?_) (fun _ => ?_)
    | (refine Twf.intro ?_; dsimp only; with_reducible first | refine Twf.elim ?_ | (apply Memory.wf_write; refine Twf.elim ?_))
    | (apply Twf.of_pair; assumption)
    | split
    | dsimp only

theorem Twf.dmainTempo {y : TC}  (h : Twf y) : Twf (y.dmainTempo) := by
  unfold TC.dmainTempo
  try dsimp only
  repeat' first
    | with_reducible assumption
    | with_reducible apply Twf.access
    | with_reducible apply Twf.deq
    | with_reducible apply Twf.wr
    | with_reducible refine Twf.foldl ?_ fun _ _ _ => ?_
    | with_reducible refine Twf.foldlP ?_ fun _ _ _ => ?_
    | with_reducible refine Twf.ite (fun _ => ?_) (fun _ => ?_)
    | with_reducible refine Twf.ite1 (fun _ => ?_) (fun _ => ?_)
    | (refine Twf.intro ?_; dsimp only; with_reducible first | refine Twf.elim ?_ | (apply Memory.wf_write; refine Twf.elim ?_))
    | (apply Twf.of_pair; assumption)
    | split
    | dsimp only

theorem Twf.dmaoutTempo {y : TC}  (h : Twf y) : Twf (y.dmaoutTempo) := by
  unfold TC.dmaoutTempo
  try dsimp only
  repeat' first
    | with_reducible assumption
    | with_reducible apply Twf.accPort
    | with_reducible apply Twf.access
    | with_reducible apply Twf.noteRead
    | with_reducible apply Twf.send
    | with_reducible refine Twf.ite (fun _ => ?_) (fun _ => ?_)
    | with_reducible refine Twf.ite1 (fun _ => ?_) (fun _ => ?_)
    | (refine Twf.intro ?_; dsimp only; with_reducible first | refine Twf.elim ?_ | (apply Memory.wf_write; refine Twf.elim ?_))
    | (apply Twf.of_pair; assumption)
    | split
    | dsimp only

theorem Twf.rotArrive {y : TC} (u : RIn) (h : Twf y) : Twf (y.rotArrive u) := by
  unfold TC.rotArrive
  try dsimp only
  repeat' first
    | with_reducible assumption
    | with_reducible apply Twf.access
    | with_reducible apply Twf.raise
    | with_reducible apply Twf.units
    | with_reducible apply Twf.wr
    | with_reducible refine Twf.foldl ?_ fun _ _ _ => ?_
    | with_reducible refine Twf.foldlP ?_ fun _ _ _ => ?_
    | with_reducible refine Twf.ite (fun _ => ?_) (fun _ => ?_)
    | with_reducible refine Twf.ite1 (fun _ => ?_) (fun _ => ?_)
    | (refine Twf.intro ?_; dsimp only; with_reducible first | refine Twf.elim ?_ | (apply Memory.wf_write; refine Twf.elim ?_))
    | (apply Twf.of_pair; assumption)
    | split
    | dsimp only

theorem Twf.rotInTempo {y : TC}  (h : Twf y) : Twf (y.rotInTempo) := by
  unfold TC.rotInTempo
  try dsimp only
  repeat' first
    | with_reducible assumption
    | with_reducible apply Twf.rotArrive
    | with_reducible refine Twf.foldl ?_ fun _ _ _ => ?_
    | with_reducible refine Twf.foldlP ?_ fun _ _ _ => ?_
    | with_reducible refine Twf.ite (fun _ => ?_) (fun _ => ?_)
    | with_reducible refine Twf.ite1 (fun _ => ?_) (fun _ => ?_)
    | (refine Twf.intro ?_; dsimp only; with_reducible first | refine Twf.elim ?_ | (apply Memory.wf_write; refine Twf.elim ?_))
    | (apply Twf.of_pair; assumption)
    | split
    | dsimp only

theorem Twf.rotateTempo {y : TC} (r : RRun) (h : Twf y) : Twf (y.rotateTempo r) := by
  unfold TC.rotateTempo
  try dsimp only
  repeat' first
    | with_reducible assumption
    | with_reducible apply Twf.access
    | with_reducible refine Twf.ite (fun _ => ?_) (fun _ => ?_)
    | with_reducible refine Twf.ite1 (fun _ => ?_) (fun _ => ?_)
    | (refine Twf.intro ?_; dsimp only; with_reducible first | refine Twf.elim ?_ | (apply Memory.wf_write; refine Twf.elim ?_))
    | (apply Twf.of_pair; assumption)
    | split
    | dsimp only

theorem Twf.rotationTempo {y : TC}  (h : Twf y) : Twf (y.rotationTempo) := by
  unfold TC.rotationTempo
  try dsimp only
  repeat' first
    | with_reducible assumption
    | with_reducible apply Twf.rotateTempo
    | with_reducible refine Twf.foldl ?_ fun _ _ _ => ?_
    | with_reducible refine Twf.foldlP ?_ fun _ _ _ => ?_
    | with_reducible refine Twf.ite (fun _ => ?_) (fun _ => ?_)
    | with_reducible refine Twf.ite1 (fun _ => ?_) (fun _ => ?_)
    | (refine Twf.intro ?_; dsimp only; with_reducible first | refine Twf.elim ?_ | (apply Memory.wf_write; refine Twf.elim ?_))
    | (apply Twf.of_pair; assumption)
    | split
    | dsimp only

theorem Twf.startTokgen {y : TC} (a : SteerA) (h : Twf y) : Twf (y.startTokgen a) := by
  unfold TC.startTokgen
  try dsimp only
  repeat' first
    | with_reducible assumption
    | with_reducible refine Twf.ite (fun _ => ?_) (fun _ => ?_)
    | with_reducible refine Twf.ite1 (fun _ => ?_) (fun _ => ?_)
    | (refine Twf.intro ?_; dsimp only; with_reducible first | refine Twf.elim ?_ | (apply Memory.wf_write; refine Twf.elim ?_))
    | (apply Twf.of_pair; assumption)
    | split
    | dsimp only

theorem Twf.toksTempo {y : TC}  (h : Twf y) : Twf (y.toksTempo) := by
  unfold TC.toksTempo
  try dsimp only
  repeat' first
    | with_reducible assumption
    | with_reducible refine Twf.foldl ?_ fun _ _ _ => ?_
    | with_reducible refine Twf.foldlP ?_ fun _ _ _ => ?_
    | with_reducible refine Twf.ite (fun _ => ?_) (fun _ => ?_)
    | with_reducible refine Twf.ite1 (fun _ => ?_) (fun _ => ?_)
    | (refine Twf.intro ?_; dsimp only; with_reducible first | refine Twf.elim ?_ | (apply Memory.wf_write; refine Twf.elim ?_))
    | (apply Twf.of_pair; assumption)
    | split
    | dsimp only

theorem Twf.startSteer {y : TC} (idx : Nat) (h : Twf y) : Twf (y.startSteer idx) := by
  unfold TC.startSteer
  try dsimp only
  repeat' first
    | with_reducible assumption
    | with_reducible apply Twf.startTokgen
    | with_reducible refine Twf.ite (fun _ => ?_) (fun _ => ?_)
    | with_reducible refine Twf.ite1 (fun _ => ?_) (fun _ => ?_)
    | (refine Twf.intro ?_; dsimp only; with_reducible first | refine Twf.elim ?_ | (apply Memory.wf_write; refine Twf.elim ?_))
    | (apply Twf.of_pair; assumption)
    | split
    | dsimp only

theorem Twf.pairTake {y : TC} (q : Nat) (side : List Entry) (h : Twf y) : Twf (y.pairTake q side).1 := by
  unfold TC.pairTake
  try dsimp only
  repeat' first
    | with_reducible assumption
    | with_reducible apply Twf.deq
    | with_reducible refine Twf.ite (fun _ => ?_) (fun _ => ?_)
    | with_reducible refine Twf.ite1 (fun _ => ?_) (fun _ => ?_)
    | (refine Twf.intro ?_; dsimp only; with_reducible first | refine Twf.elim ?_ | (apply Memory.wf_write; refine Twf.elim ?_))
    | (apply Twf.of_pair; assumption)
    | split
    | dsimp only

theorem Twf.pairTempo {y : TC} (p : PairS) (h : Twf y) : Twf (y.pairTempo p).1 := by
  unfold TC.pairTempo
  try dsimp only
  repeat' first
    | with_reducible assumption
    | with_reducible apply Twf.pairTake
    | with_reducible apply Twf.send
    | with_reducible refine Twf.ite (fun _ => ?_) (fun _ => ?_)
    | with_reducible refine Twf.ite1 (fun _ => ?_) (fun _ => ?_)
    | (refine Twf.intro ?_; dsimp only; with_reducible first | refine Twf.elim ?_ | (apply Memory.wf_write; refine Twf.elim ?_))
    | (apply Twf.of_pair; assumption)
    | split
    | dsimp only

theorem Twf.delivTempo {y : TC} (d : DelivS) (h : Twf y) : Twf (y.delivTempo d).1 := by
  unfold TC.delivTempo
  try dsimp only
  repeat' first
    | with_reducible assumption
    | with_reducible refine Twf.ite (fun _ => ?_) (fun _ => ?_)
    | with_reducible refine Twf.ite1 (fun _ => ?_) (fun _ => ?_)
    | (refine Twf.intro ?_; dsimp only; with_reducible first | refine Twf.elim ?_ | (apply Memory.wf_write; refine Twf.elim ?_))
    | (apply Twf.of_pair; assumption)
    | split
    | dsimp only

theorem Twf.steerTempo {y : TC}  (h : Twf y) : Twf (y.steerTempo) := by
  unfold TC.steerTempo
  try dsimp only
  repeat' first
    | with_reducible assumption
    | with_reducible apply Twf.delivTempo
    | with_reducible apply Twf.pairTempo
    | with_reducible refine Twf.foldl ?_ fun _ _ _ => ?_
    | with_reducible refine Twf.foldlP ?_ fun _ _ _ => ?_
    | with_reducible refine Twf.ite (fun _ => ?_) (fun _ => ?_)
    | with_reducible refine Twf.ite1 (fun _ => ?_) (fun _ => ?_)
    | (refine Twf.intro ?_; dsimp only; with_reducible first | refine Twf.elim ?_ | (apply Memory.wf_write; refine Twf.elim ?_))
    | (apply Twf.of_pair; assumption)
    | split
    | dsimp only

theorem Twf.startFlag {y : TC} (idx : Nat) (h : Twf y) : Twf (y.startFlag idx) := by
  unfold TC.startFlag
  try dsimp only
  repeat' first
    | with_reducible assumption
    | with_reducible apply Twf.send
    | with_reducible refine Twf.ite (fun _ => ?_) (fun _ => ?_)
    | with_reducible refine Twf.ite1 (fun _ => ?_) (fun _ => ?_)
    | (refine Twf.intro ?_; dsimp only; with_reducible first | refine Twf.elim ?_ | (apply Memory.wf_write; refine Twf.elim ?_))
    | (apply Twf.of_pair; assumption)
    | split
    | dsimp only

theorem Twf.startRte {y : TC} (idx : Nat) (h : Twf y) : Twf (y.startRte idx) := by
  unfold TC.startRte
  try dsimp only
  repeat' first
    | with_reducible assumption
    | with_reducible refine Twf.ite (fun _ => ?_) (fun _ => ?_)
    | with_reducible refine Twf.ite1 (fun _ => ?_) (fun _ => ?_)
    | (refine Twf.intro ?_; dsimp only; with_reducible first | refine Twf.elim ?_ | (apply Memory.wf_write; refine Twf.elim ?_))
    | (apply Twf.of_pair; assumption)
    | split
    | dsimp only

theorem Twf.startActions {y : TC} (step : Nat) (h : Twf y) : Twf (y.startActions step) := by
  unfold TC.startActions
  split
  · exact h
  · lift_lets
    intro i x1 x2 x3 x4 x5 x6
    have h1 : Twf x1 := Twf.ite (fun _ => h) fun _ => Twf.startMat _ _ h
    have h2 : Twf x2 := Twf.ite (fun _ => h1) fun _ => Twf.startMat _ _ h1
    have h3 : Twf x3 := Twf.ite (fun _ => h2) fun _ => Twf.startVec _ h2
    have h4 : Twf x4 := Twf.ite (fun _ => h3) fun _ => Twf.startMem _ h3
    have h5 : Twf x5 := Twf.startRte _ h4
    have h6 : Twf x6 := Twf.ite (fun _ => h5) fun _ => Twf.startFlag _ h5
    exact Twf.ite (fun _ => h6) fun _ => Twf.startSteer _ h6

theorem Twf.unitsOnce {y : TC} (h : Twf y) : Twf y.unitsOnce := by
  unfold TC.unitsOnce
  try dsimp only
  repeat' first
    | with_reducible assumption
    | with_reducible apply Twf.arraysTempo
    | with_reducible apply Twf.dmainTempo
    | with_reducible apply Twf.dmaoutTempo
    | with_reducible apply Twf.rotInTempo
    | with_reducible apply Twf.rotationTempo
    | with_reducible apply Twf.steerTempo
    | with_reducible apply Twf.toksTempo
    | with_reducible apply Twf.vectorTempo
    | with_reducible refine Twf.ite (fun _ => ?_) (fun _ => ?_)
    | with_reducible refine Twf.ite1 (fun _ => ?_) (fun _ => ?_)
    | (refine Twf.intro ?_; dsimp only; with_reducible first | refine Twf.elim ?_ | (apply Memory.wf_write; refine Twf.elim ?_))
    | (apply Twf.of_pair; assumption)
    | split
    | dsimp only

theorem Twf.units {y : TC} (h : Twf y) : Twf y.units :=
  Twf.ite (fun _ => Twf.unitsOnce h) fun _ => Twf.unitsOnce (y := { y with banned := y.unitsOnce.clash }) h

end Sys2Proof
end

