-- ==== Sys2Proof/Laws/Keeps.lean ====
section
/-!
SUPPORT. What every operation of the module keeps: the queue of waiting commands, the grade, the canonical form of memory, the eight
Ethernet ports, and the security version in the fuses, which never falls (R446); and, as three switches say, every byte of memory,
the flash and the fuses, and the power part with the sideband's answer and the clock.
-/

namespace Sys2Proof.Machine

/-- What `Keeps` says, of the parts of the state reached. -/
structure KeepsTo (m f w : Bool) (s : State) (q : List Instr) (g : Grade) (mem : Memory) (ps : List Port) (fu : Fuses) (fl : Flash)
    (pw : Power) (so : Option (List Byte)) (ck : Nat) : Prop where
  pending : q = s.pending
  grade : g = s.grade
  wf : s.mem.wf = true → mem.wf = true
  ports : s.ports.length = 8 → ps.length = 8
  svn : s.fuse.svn ≤ fu.svn
  mem : m = true → mem = s.mem
  fuse : f = true → fu = s.fuse
  flash : f = true → fl = s.flash
  pwr : w = true → pw = s.pwr
  smbOut : w = true → so = s.smbOut
  clock : w = true → ck = s.clock

/-- State `t`, reached from `s`, has the same queue and grade, canonical memory if `s` has, eight ports if `s` has, and no lower SVN;
the switches `m`, `f`, `w` add that memory, the flash and fuses, and the power part are those of `s`. -/
def Keeps (m f w : Bool) (s t : State) : Prop := KeepsTo m f w s t.pending t.grade t.mem t.ports t.fuse t.flash t.pwr t.smbOut t.clock

namespace Keeps

variable {m f w : Bool} {s t u : State}

theorem refl (s : State) : Keeps m f w s s :=
  ⟨rfl, rfl, id, id, le_refl _, fun _ => rfl, fun _ => rfl, fun _ => rfl, fun _ => rfl, fun _ => rfl, fun _ => rfl⟩

theorem trans (h : Keeps m f w s t) (k : Keeps m f w t u) : Keeps m f w s u :=
  ⟨k.pending.trans h.pending, k.grade.trans h.grade, k.wf ∘ h.wf, k.ports ∘ h.ports, le_trans h.svn k.svn,
    fun e => (k.mem e).trans (h.mem e), fun e => (k.fuse e).trans (h.fuse e), fun e => (k.flash e).trans (h.flash e),
    fun e => (k.pwr e).trans (h.pwr e), fun e => (k.smbOut e).trans (h.smbOut e), fun e => (k.clock e).trans (h.clock e)⟩

/-- Fewer switches say less. -/
theorem weaken {m' f' w' : Bool} (h : Keeps m f w s t) (hm : m' = true → m = true) (hf : f' = true → f = true) (hw : w' = true → w = true) :
    Keeps m' f' w' s t :=
  ⟨h.pending, h.grade, h.wf, h.ports, h.svn, fun e => h.mem (hm e), fun e => h.fuse (hf e), fun e => h.flash (hf e),
    fun e => h.pwr (hw e), fun e => h.smbOut (hw e), fun e => h.clock (hw e)⟩

theorem intro (h : KeepsTo m f w s t.pending t.grade t.mem t.ports t.fuse t.flash t.pwr t.smbOut t.clock) : Keeps m f w s t := h

theorem elim (h : Keeps m f w s t) : KeepsTo m f w s t.pending t.grade t.mem t.ports t.fuse t.flash t.pwr t.smbOut t.clock := h

theorem ite {c : Prop} [Decidable c] {a b : State} (ha : c → Keeps m f w s a) (hb : ¬c → Keeps m f w s b) :
    Keeps m f w s (if c then a else b) := by
  split
  · exact ha ‹_›
  · exact hb ‹_›

theorem ite1 {α : Type} {c : Prop} [Decidable c] {a b : State × α} (ha : c → Keeps m f w s a.1) (hb : ¬c → Keeps m f w s b.1) :
    Keeps m f w s (if c then a else b).1 := by
  split
  · exact ha ‹_›
  · exact hb ‹_›

theorem foldl {α : Type} {l : List α} {k : State → α → State} (h : Keeps m f w s t) (hk : ∀ u a, Keeps m f w s u → Keeps m f w s (k u a)) :
    Keeps m f w s (l.foldl k t) := by
  induction l generalizing t with
  | nil => exact h
  | cons a l ih => exact ih (hk _ _ h)

theorem foldlP {α β : Type} {l : List α} {k : State × β → α → State × β} {t : State × β} (h : Keeps m f w s t.1)
    (hk : ∀ u a, Keeps m f w s u.1 → Keeps m f w s (k u a).1) : Keeps m f w s (l.foldl k t).1 := by
  induction l generalizing t with
  | nil => exact h
  | cons a l ih => exact ih (hk _ _ h)

theorem of_pair {α : Type} {p : State × α} {a : α} (e : p = (t, a)) (h : Keeps m f w s p.1) : Keeps m f w s t := by rw [e] at h; exact h

end Keeps

namespace KeepsTo

variable {m f w : Bool} {s : State} {q : List Instr} {g : Grade} {mem : Memory} {ps : List Port} {fu : Fuses} {fl : Flash} {pw : Power}
  {so : Option (List Byte)} {ck : Nat}

theorem of_wf {mem' : Memory} (e : mem.wf = true → mem'.wf = true) (h : KeepsTo false f w s q g mem ps fu fl pw so ck) :
    KeepsTo false f w s q g mem' ps fu fl pw so ck := { h with wf := fun k => e (h.wf k), mem := nofun }

theorem write (a : Nat) (bs : List Byte) (h : KeepsTo false f w s q g mem ps fu fl pw so ck) :
    KeepsTo false f w s q g (mem.write a bs) ps fu fl pw so ck := of_wf (Memory.wf_write a bs) h

theorem clear (a n : Nat) (h : KeepsTo false f w s q g mem ps fu fl pw so ck) :
    KeepsTo false f w s q g (mem.clear a n) ps fu fl pw so ck := of_wf (Memory.wf_clear a n) h

theorem filter (p : Nat × Byte → Bool) (h : KeepsTo false f w s q g mem ps fu fl pw so ck) :
    KeepsTo false f w s q g (mem.filter p) ps fu fl pw so ck := of_wf (Memory.wf_filter p) h

theorem of_ports {ps' : List Port} (e : ps'.length = ps.length) (h : KeepsTo m f w s q g mem ps fu fl pw so ck) :
    KeepsTo m f w s q g mem ps' fu fl pw so ck := { h with ports := fun k => e.trans (h.ports k) }

theorem putAt (i : Nat) (x : Port) (h : KeepsTo m f w s q g mem ps fu fl pw so ck) :
    KeepsTo m f w s q g mem (Sys2Proof.putAt ps i x) fu fl pw so ck := of_ports (by simp [Sys2Proof.putAt]) h

theorem map (k : Port → Port) (h : KeepsTo m f w s q g mem ps fu fl pw so ck) : KeepsTo m f w s q g mem (ps.map k) fu fl pw so ck :=
  of_ports (by simp) h

/-- Anything may happen to the flash where its switch is off. -/
theorem setFlash (fl' : Flash) (h : KeepsTo m false w s q g mem ps fu fl pw so ck) : KeepsTo m false w s q g mem ps fu fl' pw so ck :=
  { h with flash := nofun }

/-- The fuses may change where their switch is off, if the SVN does not fall. -/
theorem setFuse {fu' : Fuses} (e : fu.svn ≤ fu'.svn) (h : KeepsTo m false w s q g mem ps fu fl pw so ck) :
    KeepsTo m false w s q g mem ps fu' fl pw so ck := { h with svn := le_trans h.svn e, fuse := nofun }

/-- Anything may happen to the power part where its switch is off. -/
theorem setPwr (pw' : Power) (so' : Option (List Byte)) (ck' : Nat) (h : KeepsTo m f false s q g mem ps fu fl pw so ck) :
    KeepsTo m f false s q g mem ps fu fl pw' so' ck' := { h with pwr := nofun, smbOut := nofun, clock := nofun }

end KeepsTo

end Sys2Proof.Machine
end

