-- ==== Sys2Proof/Laws/KeepsPorts.lean ====
section
/-!
SUPPORT. What `Keeps` says, of the operations of Sys2Proof/Machine/Ports.lean: one lemma each, with the operation applied last.
-/

set_option linter.unusedTactic false
set_option linter.unreachableTactic false

namespace Sys2Proof.Machine

theorem Keeps.modPart {μ φ π : Bool} {σ τ : State} (p : Nat) (f : Part → Part) (hk : Keeps μ φ π σ τ) : Keeps μ φ π σ (τ.modPart p f) := by
  unfold State.modPart
  try dsimp only
  repeat' first
    | with_reducible assumption
    | with_reducible refine Keeps.ite (fun _ => ?_) (fun _ => ?_)
    | with_reducible refine Keeps.ite1 (fun _ => ?_) (fun _ => ?_)
    | (refine Keeps.intro ?_; dsimp only; with_reducible first | refine Keeps.elim ?_ | refine KeepsTo.write _ _ (Keeps.elim ?_) | refine KeepsTo.clear _ _ (Keeps.elim ?_) | refine KeepsTo.putAt _ _ (Keeps.elim ?_) | refine KeepsTo.map _ (Keeps.elim ?_) | refine KeepsTo.filter _ (Keeps.elim ?_) | refine KeepsTo.setFlash _ (Keeps.elim ?_) | refine KeepsTo.setPwr _ _ _ (Keeps.elim ?_))
    | (apply Keeps.of_pair; with_reducible assumption)
    | split
    | dsimp only

theorem Keeps.modPort {μ φ π : Bool} {σ τ : State} (i : Nat) (f : Port → Port) (hk : Keeps μ φ π σ τ) : Keeps μ φ π σ (τ.modPort i f) := by
  unfold State.modPort
  try dsimp only
  repeat' first
    | with_reducible assumption
    | with_reducible refine Keeps.ite (fun _ => ?_) (fun _ => ?_)
    | with_reducible refine Keeps.ite1 (fun _ => ?_) (fun _ => ?_)
    | (refine Keeps.intro ?_; dsimp only; with_reducible first | refine Keeps.elim ?_ | refine KeepsTo.write _ _ (Keeps.elim ?_) | refine KeepsTo.clear _ _ (Keeps.elim ?_) | refine KeepsTo.putAt _ _ (Keeps.elim ?_) | refine KeepsTo.map _ (Keeps.elim ?_) | refine KeepsTo.filter _ (Keeps.elim ?_) | refine KeepsTo.setFlash _ (Keeps.elim ?_) | refine KeepsTo.setPwr _ _ _ (Keeps.elim ?_))
    | (apply Keeps.of_pair; with_reducible assumption)
    | split
    | dsimp only

theorem Keeps.pick {μ φ π : Bool} {σ τ : State} (i : Nat) (hk : Keeps μ φ π σ τ) : Keeps μ φ π σ (τ.pick i) := by
  unfold State.pick
  try dsimp only
  repeat' first
    | with_reducible assumption
    | with_reducible apply Keeps.modPort
    | with_reducible refine Keeps.ite (fun _ => ?_) (fun _ => ?_)
    | with_reducible refine Keeps.ite1 (fun _ => ?_) (fun _ => ?_)
    | (refine Keeps.intro ?_; dsimp only; with_reducible first | refine Keeps.elim ?_ | refine KeepsTo.write _ _ (Keeps.elim ?_) | refine KeepsTo.clear _ _ (Keeps.elim ?_) | refine KeepsTo.putAt _ _ (Keeps.elim ?_) | refine KeepsTo.map _ (Keeps.elim ?_) | refine KeepsTo.filter _ (Keeps.elim ?_) | refine KeepsTo.setFlash _ (Keeps.elim ?_) | refine KeepsTo.setPwr _ _ _ (Keeps.elim ?_))
    | (apply Keeps.of_pair; with_reducible assumption)
    | split
    | dsimp only

theorem Keeps.transmit {μ φ π : Bool} {σ τ : State} (i : Nat) (m : TxMsg) (hk : Keeps μ φ π σ τ) : Keeps μ φ π σ (τ.transmit i m) := by
  unfold State.transmit
  try dsimp only
  repeat' first
    | with_reducible assumption
    | with_reducible apply Keeps.modPort
    | with_reducible apply Keeps.pick
    | with_reducible refine Keeps.ite (fun _ => ?_) (fun _ => ?_)
    | with_reducible refine Keeps.ite1 (fun _ => ?_) (fun _ => ?_)
    | (refine Keeps.intro ?_; dsimp only; with_reducible first | refine Keeps.elim ?_ | refine KeepsTo.write _ _ (Keeps.elim ?_) | refine KeepsTo.clear _ _ (Keeps.elim ?_) | refine KeepsTo.putAt _ _ (Keeps.elim ?_) | refine KeepsTo.map _ (Keeps.elim ?_) | refine KeepsTo.filter _ (Keeps.elim ?_) | refine KeepsTo.setFlash _ (Keeps.elim ?_) | refine KeepsTo.setPwr _ _ _ (Keeps.elim ?_))
    | (apply Keeps.of_pair; with_reducible assumption)
    | split
    | dsimp only

theorem Keeps.frameEnd {μ φ π : Bool} {σ τ : State} (i : Nat) (hk : Keeps μ φ π σ τ) : Keeps μ φ π σ (τ.frameEnd i) := by
  unfold State.frameEnd
  try dsimp only
  repeat' first
    | with_reducible assumption
    | with_reducible apply Keeps.modPort
    | with_reducible apply Keeps.pick
    | with_reducible refine Keeps.ite (fun _ => ?_) (fun _ => ?_)
    | with_reducible refine Keeps.ite1 (fun _ => ?_) (fun _ => ?_)
    | (refine Keeps.intro ?_; dsimp only; with_reducible first | refine Keeps.elim ?_ | refine KeepsTo.write _ _ (Keeps.elim ?_) | refine KeepsTo.clear _ _ (Keeps.elim ?_) | refine KeepsTo.putAt _ _ (Keeps.elim ?_) | refine KeepsTo.map _ (Keeps.elim ?_) | refine KeepsTo.filter _ (Keeps.elim ?_) | refine KeepsTo.setFlash _ (Keeps.elim ?_) | refine KeepsTo.setPwr _ _ _ (Keeps.elim ?_))
    | (apply Keeps.of_pair; with_reducible assumption)
    | split
    | dsimp only

end Sys2Proof.Machine
end

