-- ==== Sys2Proof/Laws/KeepsSessions.lean ====
section
/-!
SUPPORT. What `Keeps` says, of the operations of Sys2Proof/Machine/Sessions.lean: one lemma each, with the operation applied last.
-/

set_option linter.unusedTactic false
set_option linter.unreachableTactic false

namespace Sys2Proof.Machine

theorem Keeps.modSess {μ φ π : Bool} {σ τ : State} (sid : Nat) (f : Sess → Sess) (hk : Keeps μ φ π σ τ) : Keeps μ φ π σ (τ.modSess sid f) := by
  unfold State.modSess
  try dsimp only
  repeat' first
    | with_reducible assumption
    | with_reducible refine Keeps.ite (fun _ => ?_) (fun _ => ?_)
    | with_reducible refine Keeps.ite1 (fun _ => ?_) (fun _ => ?_)
    | (refine Keeps.intro ?_; dsimp only; with_reducible first | refine Keeps.elim ?_ | refine KeepsTo.write _ _ (Keeps.elim ?_) | refine KeepsTo.clear _ _ (Keeps.elim ?_) | refine KeepsTo.putAt _ _ (Keeps.elim ?_) | refine KeepsTo.map _ (Keeps.elim ?_) | refine KeepsTo.filter _ (Keeps.elim ?_) | refine KeepsTo.setFlash _ (Keeps.elim ?_) | refine KeepsTo.setPwr _ _ _ (Keeps.elim ?_))
    | (apply Keeps.of_pair; with_reducible assumption)
    | split
    | dsimp only

theorem Keeps.sendRel {μ φ π : Bool} {σ τ : State} (sid type : Nat) (payload : List Byte) (hk : Keeps μ φ π σ τ) : Keeps μ φ π σ (τ.sendRel sid type payload) := by
  unfold State.sendRel
  try dsimp only
  repeat' first
    | with_reducible assumption
    | with_reducible apply Keeps.modSess
    | with_reducible apply Keeps.transmit
    | with_reducible refine Keeps.ite (fun _ => ?_) (fun _ => ?_)
    | with_reducible refine Keeps.ite1 (fun _ => ?_) (fun _ => ?_)
    | (refine Keeps.intro ?_; dsimp only; with_reducible first | refine Keeps.elim ?_ | refine KeepsTo.write _ _ (Keeps.elim ?_) | refine KeepsTo.clear _ _ (Keeps.elim ?_) | refine KeepsTo.putAt _ _ (Keeps.elim ?_) | refine KeepsTo.map _ (Keeps.elim ?_) | refine KeepsTo.filter _ (Keeps.elim ?_) | refine KeepsTo.setFlash _ (Keeps.elim ?_) | refine KeepsTo.setPwr _ _ _ (Keeps.elim ?_))
    | (apply Keeps.of_pair; with_reducible assumption)
    | split
    | dsimp only

theorem Keeps.sendCtl {μ φ π : Bool} {σ τ : State} (sid type : Nat) (payload : List Byte) (hk : Keeps μ φ π σ τ) : Keeps μ φ π σ (τ.sendCtl sid type payload) := by
  unfold State.sendCtl
  try dsimp only
  repeat' first
    | with_reducible assumption
    | with_reducible apply Keeps.modSess
    | with_reducible apply Keeps.transmit
    | with_reducible refine Keeps.ite (fun _ => ?_) (fun _ => ?_)
    | with_reducible refine Keeps.ite1 (fun _ => ?_) (fun _ => ?_)
    | (refine Keeps.intro ?_; dsimp only; with_reducible first | refine Keeps.elim ?_ | refine KeepsTo.write _ _ (Keeps.elim ?_) | refine KeepsTo.clear _ _ (Keeps.elim ?_) | refine KeepsTo.putAt _ _ (Keeps.elim ?_) | refine KeepsTo.map _ (Keeps.elim ?_) | refine KeepsTo.filter _ (Keeps.elim ?_) | refine KeepsTo.setFlash _ (Keeps.elim ?_) | refine KeepsTo.setPwr _ _ _ (Keeps.elim ?_))
    | (apply Keeps.of_pair; with_reducible assumption)
    | split
    | dsimp only

theorem Keeps.sendAck {μ φ π : Bool} {σ τ : State} (sid : Nat) (hk : Keeps μ φ π σ τ) : Keeps μ φ π σ (τ.sendAck sid) := by
  unfold State.sendAck
  try dsimp only
  repeat' first
    | with_reducible assumption
    | with_reducible apply Keeps.modSess
    | with_reducible apply Keeps.sendCtl
    | with_reducible refine Keeps.ite (fun _ => ?_) (fun _ => ?_)
    | with_reducible refine Keeps.ite1 (fun _ => ?_) (fun _ => ?_)
    | (refine Keeps.intro ?_; dsimp only; with_reducible first | refine Keeps.elim ?_ | refine KeepsTo.write _ _ (Keeps.elim ?_) | refine KeepsTo.clear _ _ (Keeps.elim ?_) | refine KeepsTo.putAt _ _ (Keeps.elim ?_) | refine KeepsTo.map _ (Keeps.elim ?_) | refine KeepsTo.filter _ (Keeps.elim ?_) | refine KeepsTo.setFlash _ (Keeps.elim ?_) | refine KeepsTo.setPwr _ _ _ (Keeps.elim ?_))
    | (apply Keeps.of_pair; with_reducible assumption)
    | split
    | dsimp only

theorem Keeps.flushOne {μ φ π : Bool} {σ τ : State} (sid : Nat) (hk : Keeps μ φ π σ τ) : Keeps μ φ π σ (τ.flushOne sid) := by
  unfold State.flushOne
  try dsimp only
  repeat' first
    | with_reducible assumption
    | with_reducible apply Keeps.modPart
    | with_reducible apply Keeps.modSess
    | with_reducible apply Keeps.sendRel
    | with_reducible refine Keeps.foldl ?_ fun _ _ _ => ?_
    | with_reducible refine Keeps.foldlP ?_ fun _ _ _ => ?_
    | with_reducible refine Keeps.ite (fun _ => ?_) (fun _ => ?_)
    | with_reducible refine Keeps.ite1 (fun _ => ?_) (fun _ => ?_)
    | (refine Keeps.intro ?_; dsimp only; with_reducible first | refine Keeps.elim ?_ | refine KeepsTo.write _ _ (Keeps.elim ?_) | refine KeepsTo.clear _ _ (Keeps.elim ?_) | refine KeepsTo.putAt _ _ (Keeps.elim ?_) | refine KeepsTo.map _ (Keeps.elim ?_) | refine KeepsTo.filter _ (Keeps.elim ?_) | refine KeepsTo.setFlash _ (Keeps.elim ?_) | refine KeepsTo.setPwr _ _ _ (Keeps.elim ?_))
    | (apply Keeps.of_pair; with_reducible assumption)
    | split
    | dsimp only

theorem Keeps.flush {μ φ π : Bool} {σ τ : State} (sid : Nat) (hk : Keeps μ φ π σ τ) : Keeps μ φ π σ (τ.flush sid) := by
  unfold State.flush
  try dsimp only
  repeat' first
    | with_reducible assumption
    | with_reducible apply Keeps.flushOne
    | with_reducible refine Keeps.foldl ?_ fun _ _ _ => ?_
    | with_reducible refine Keeps.foldlP ?_ fun _ _ _ => ?_
    | with_reducible refine Keeps.ite (fun _ => ?_) (fun _ => ?_)
    | with_reducible refine Keeps.ite1 (fun _ => ?_) (fun _ => ?_)
    | (refine Keeps.intro ?_; dsimp only; with_reducible first | refine Keeps.elim ?_ | refine KeepsTo.write _ _ (Keeps.elim ?_) | refine KeepsTo.clear _ _ (Keeps.elim ?_) | refine KeepsTo.putAt _ _ (Keeps.elim ?_) | refine KeepsTo.map _ (Keeps.elim ?_) | refine KeepsTo.filter _ (Keeps.elim ?_) | refine KeepsTo.setFlash _ (Keeps.elim ?_) | refine KeepsTo.setPwr _ _ _ (Keeps.elim ?_))
    | (apply Keeps.of_pair; with_reducible assumption)
    | split
    | dsimp only

theorem Keeps.deliver {μ φ π : Bool} {σ τ : State} (sid : Nat) (r : Rec) (hk : Keeps μ φ π σ τ) : Keeps μ φ π σ (τ.deliver sid r) := by
  unfold State.deliver
  try dsimp only
  repeat' first
    | with_reducible assumption
    | with_reducible apply Keeps.flush
    | with_reducible apply Keeps.modSess
    | with_reducible refine Keeps.ite (fun _ => ?_) (fun _ => ?_)
    | with_reducible refine Keeps.ite1 (fun _ => ?_) (fun _ => ?_)
    | (refine Keeps.intro ?_; dsimp only; with_reducible first | refine Keeps.elim ?_ | refine KeepsTo.write _ _ (Keeps.elim ?_) | refine KeepsTo.clear _ _ (Keeps.elim ?_) | refine KeepsTo.putAt _ _ (Keeps.elim ?_) | refine KeepsTo.map _ (Keeps.elim ?_) | refine KeepsTo.filter _ (Keeps.elim ?_) | refine KeepsTo.setFlash _ (Keeps.elim ?_) | refine KeepsTo.setPwr _ _ _ (Keeps.elim ?_))
    | (apply Keeps.of_pair; with_reducible assumption)
    | split
    | dsimp only

theorem Keeps.notify {μ φ π : Bool} {σ τ : State} (p : Nat) (r : Rec) (hk : Keeps μ φ π σ τ) : Keeps μ φ π σ (τ.notify p r) := by
  unfold State.notify
  try dsimp only
  repeat' first
    | with_reducible assumption
    | with_reducible apply Keeps.deliver
    | with_reducible apply Keeps.modPart
    | with_reducible refine Keeps.foldl ?_ fun _ _ _ => ?_
    | with_reducible refine Keeps.foldlP ?_ fun _ _ _ => ?_
    | with_reducible refine Keeps.ite (fun _ => ?_) (fun _ => ?_)
    | with_reducible refine Keeps.ite1 (fun _ => ?_) (fun _ => ?_)
    | (refine Keeps.intro ?_; dsimp only; with_reducible first | refine Keeps.elim ?_ | refine KeepsTo.write _ _ (Keeps.elim ?_) | refine KeepsTo.clear _ _ (Keeps.elim ?_) | refine KeepsTo.putAt _ _ (Keeps.elim ?_) | refine KeepsTo.map _ (Keeps.elim ?_) | refine KeepsTo.filter _ (Keeps.elim ?_) | refine KeepsTo.setFlash _ (Keeps.elim ?_) | refine KeepsTo.setPwr _ _ _ (Keeps.elim ?_))
    | (apply Keeps.of_pair; with_reducible assumption)
    | split
    | dsimp only

theorem Keeps.release {μ φ π : Bool} {σ τ : State} (sid : Nat) (hk : Keeps μ φ π σ τ) : Keeps μ φ π σ (τ.release sid) := by
  unfold State.release
  try dsimp only
  repeat' first
    | with_reducible assumption
    | with_reducible apply Keeps.deliver
    | with_reducible apply Keeps.modPart
    | with_reducible refine Keeps.foldl ?_ fun _ _ _ => ?_
    | with_reducible refine Keeps.foldlP ?_ fun _ _ _ => ?_
    | with_reducible refine Keeps.ite (fun _ => ?_) (fun _ => ?_)
    | with_reducible refine Keeps.ite1 (fun _ => ?_) (fun _ => ?_)
    | (refine Keeps.intro ?_; dsimp only; with_reducible first | refine Keeps.elim ?_ | refine KeepsTo.write _ _ (Keeps.elim ?_) | refine KeepsTo.clear _ _ (Keeps.elim ?_) | refine KeepsTo.putAt _ _ (Keeps.elim ?_) | refine KeepsTo.map _ (Keeps.elim ?_) | refine KeepsTo.filter _ (Keeps.elim ?_) | refine KeepsTo.setFlash _ (Keeps.elim ?_) | refine KeepsTo.setPwr _ _ _ (Keeps.elim ?_))
    | (apply Keeps.of_pair; with_reducible assumption)
    | split
    | dsimp only

theorem Keeps.event {μ φ π : Bool} {σ τ : State} (p code : Nat) (e : Ev) (hk : Keeps μ φ π σ τ) : Keeps μ φ π σ (τ.event p code e) := by
  unfold State.event
  try dsimp only
  repeat' first
    | with_reducible assumption
    | with_reducible apply Keeps.notify
    | with_reducible refine Keeps.ite (fun _ => ?_) (fun _ => ?_)
    | with_reducible refine Keeps.ite1 (fun _ => ?_) (fun _ => ?_)
    | (refine Keeps.intro ?_; dsimp only; with_reducible first | refine Keeps.elim ?_ | refine KeepsTo.write _ _ (Keeps.elim ?_) | refine KeepsTo.clear _ _ (Keeps.elim ?_) | refine KeepsTo.putAt _ _ (Keeps.elim ?_) | refine KeepsTo.map _ (Keeps.elim ?_) | refine KeepsTo.filter _ (Keeps.elim ?_) | refine KeepsTo.setFlash _ (Keeps.elim ?_) | refine KeepsTo.setPwr _ _ _ (Keeps.elim ?_))
    | (apply Keeps.of_pair; with_reducible assumption)
    | split
    | dsimp only

theorem Keeps.eventAll {μ φ π : Bool} {σ τ : State} (code : Nat) (e : Ev) (hk : Keeps μ φ π σ τ) : Keeps μ φ π σ (τ.eventAll code e) := by
  unfold State.eventAll
  try dsimp only
  repeat' first
    | with_reducible assumption
    | with_reducible apply Keeps.event
    | with_reducible refine Keeps.foldl ?_ fun _ _ _ => ?_
    | with_reducible refine Keeps.foldlP ?_ fun _ _ _ => ?_
    | with_reducible refine Keeps.ite (fun _ => ?_) (fun _ => ?_)
    | with_reducible refine Keeps.ite1 (fun _ => ?_) (fun _ => ?_)
    | (refine Keeps.intro ?_; dsimp only; with_reducible first | refine Keeps.elim ?_ | refine KeepsTo.write _ _ (Keeps.elim ?_) | refine KeepsTo.clear _ _ (Keeps.elim ?_) | refine KeepsTo.putAt _ _ (Keeps.elim ?_) | refine KeepsTo.map _ (Keeps.elim ?_) | refine KeepsTo.filter _ (Keeps.elim ?_) | refine KeepsTo.setFlash _ (Keeps.elim ?_) | refine KeepsTo.setPwr _ _ _ (Keeps.elim ?_))
    | (apply Keeps.of_pair; with_reducible assumption)
    | split
    | dsimp only

theorem Keeps.complete {μ φ π : Bool} {σ τ : State} (o : Org) (op code : Nat) (data : List Byte) (hk : Keeps μ φ π σ τ) : Keeps μ φ π σ (τ.complete o op code data) := by
  unfold State.complete
  try dsimp only
  repeat' first
    | with_reducible assumption
    | with_reducible apply Keeps.deliver
    | with_reducible refine Keeps.ite (fun _ => ?_) (fun _ => ?_)
    | with_reducible refine Keeps.ite1 (fun _ => ?_) (fun _ => ?_)
    | (refine Keeps.intro ?_; dsimp only; with_reducible first | refine Keeps.elim ?_ | refine KeepsTo.write _ _ (Keeps.elim ?_) | refine KeepsTo.clear _ _ (Keeps.elim ?_) | refine KeepsTo.putAt _ _ (Keeps.elim ?_) | refine KeepsTo.map _ (Keeps.elim ?_) | refine KeepsTo.filter _ (Keeps.elim ?_) | refine KeepsTo.setFlash _ (Keeps.elim ?_) | refine KeepsTo.setPwr _ _ _ (Keeps.elim ?_))
    | (apply Keeps.of_pair; with_reducible assumption)
    | split
    | dsimp only

end Sys2Proof.Machine
end

