-- ==== Sys2Proof/Laws/KeepsOps.lean ====
section
/-!
SUPPORT. What `Keeps` says, of the operations of Sys2Proof/Machine/Ops.lean: one lemma each, with the operation applied last.
-/

set_option linter.unusedTactic false
set_option linter.unreachableTactic false

namespace Sys2Proof.Machine

theorem Keeps.setCore {μ φ π : Bool} {σ τ : State} (c : Nat) (x : Core) (hk : Keeps μ φ π σ τ) : Keeps μ φ π σ (τ.setCore c x) := by
  unfold State.setCore
  try dsimp only
  repeat' first
    | with_reducible assumption
    | with_reducible refine Keeps.ite (fun _ => ?_) (fun _ => ?_)
    | with_reducible refine Keeps.ite1 (fun _ => ?_) (fun _ => ?_)
    | (refine Keeps.intro ?_; dsimp only; with_reducible first | refine Keeps.elim ?_ | refine KeepsTo.write _ _ (Keeps.elim ?_) | refine KeepsTo.clear _ _ (Keeps.elim ?_) | refine KeepsTo.putAt _ _ (Keeps.elim ?_) | refine KeepsTo.map _ (Keeps.elim ?_) | refine KeepsTo.filter _ (Keeps.elim ?_) | refine KeepsTo.setFlash _ (Keeps.elim ?_) | refine KeepsTo.setPwr _ _ _ (Keeps.elim ?_))
    | (apply Keeps.of_pair; with_reducible assumption)
    | split
    | dsimp only

theorem Keeps.modCore {μ φ π : Bool} {σ τ : State} (c : Nat) (f : Core → Core) (hk : Keeps μ φ π σ τ) : Keeps μ φ π σ (τ.modCore c f) := by
  unfold State.modCore
  try dsimp only
  repeat' first
    | with_reducible assumption
    | with_reducible apply Keeps.setCore
    | with_reducible refine Keeps.ite (fun _ => ?_) (fun _ => ?_)
    | with_reducible refine Keeps.ite1 (fun _ => ?_) (fun _ => ?_)
    | (refine Keeps.intro ?_; dsimp only; with_reducible first | refine Keeps.elim ?_ | refine KeepsTo.write _ _ (Keeps.elim ?_) | refine KeepsTo.clear _ _ (Keeps.elim ?_) | refine KeepsTo.putAt _ _ (Keeps.elim ?_) | refine KeepsTo.map _ (Keeps.elim ?_) | refine KeepsTo.filter _ (Keeps.elim ?_) | refine KeepsTo.setFlash _ (Keeps.elim ?_) | refine KeepsTo.setPwr _ _ _ (Keeps.elim ?_))
    | (apply Keeps.of_pair; with_reducible assumption)
    | split
    | dsimp only

theorem Keeps.modRegion {μ φ π : Bool} {σ τ : State} (p r : Nat) (f : Region → Region) (hk : Keeps μ φ π σ τ) : Keeps μ φ π σ (τ.modRegion p r f) := by
  unfold State.modRegion
  try dsimp only
  repeat' first
    | with_reducible assumption
    | with_reducible apply Keeps.modPart
    | with_reducible refine Keeps.ite (fun _ => ?_) (fun _ => ?_)
    | with_reducible refine Keeps.ite1 (fun _ => ?_) (fun _ => ?_)
    | (refine Keeps.intro ?_; dsimp only; with_reducible first | refine Keeps.elim ?_ | refine KeepsTo.write _ _ (Keeps.elim ?_) | refine KeepsTo.clear _ _ (Keeps.elim ?_) | refine KeepsTo.putAt _ _ (Keeps.elim ?_) | refine KeepsTo.map _ (Keeps.elim ?_) | refine KeepsTo.filter _ (Keeps.elim ?_) | refine KeepsTo.setFlash _ (Keeps.elim ?_) | refine KeepsTo.setPwr _ _ _ (Keeps.elim ?_))
    | (apply Keeps.of_pair; with_reducible assumption)
    | split
    | dsimp only

theorem Keeps.modRouter {μ φ π : Bool} {σ τ : State} (c : Nat) (f : Router → Router) (hk : Keeps μ φ π σ τ) : Keeps μ φ π σ (τ.modRouter c f) := by
  unfold State.modRouter
  try dsimp only
  repeat' first
    | with_reducible assumption
    | with_reducible refine Keeps.ite (fun _ => ?_) (fun _ => ?_)
    | with_reducible refine Keeps.ite1 (fun _ => ?_) (fun _ => ?_)
    | (refine Keeps.intro ?_; dsimp only; with_reducible first | refine Keeps.elim ?_ | refine KeepsTo.write _ _ (Keeps.elim ?_) | refine KeepsTo.clear _ _ (Keeps.elim ?_) | refine KeepsTo.putAt _ _ (Keeps.elim ?_) | refine KeepsTo.map _ (Keeps.elim ?_) | refine KeepsTo.filter _ (Keeps.elim ?_) | refine KeepsTo.setFlash _ (Keeps.elim ?_) | refine KeepsTo.setPwr _ _ _ (Keeps.elim ?_))
    | (apply Keeps.of_pair; with_reducible assumption)
    | split
    | dsimp only

theorem Keeps.fresh {μ φ π : Bool} {σ τ : State} (hk : Keeps μ φ π σ τ) : Keeps μ φ π σ τ.fresh.1 := by
  unfold State.fresh
  try dsimp only
  repeat' first
    | with_reducible assumption
    | with_reducible refine Keeps.ite (fun _ => ?_) (fun _ => ?_)
    | with_reducible refine Keeps.ite1 (fun _ => ?_) (fun _ => ?_)
    | (refine Keeps.intro ?_; dsimp only; with_reducible first | refine Keeps.elim ?_ | refine KeepsTo.write _ _ (Keeps.elim ?_) | refine KeepsTo.clear _ _ (Keeps.elim ?_) | refine KeepsTo.putAt _ _ (Keeps.elim ?_) | refine KeepsTo.map _ (Keeps.elim ?_) | refine KeepsTo.filter _ (Keeps.elim ?_) | refine KeepsTo.setFlash _ (Keeps.elim ?_) | refine KeepsTo.setPwr _ _ _ (Keeps.elim ?_))
    | (apply Keeps.of_pair; with_reducible assumption)
    | split
    | dsimp only

theorem Keeps.modAgent {μ φ π : Bool} {σ τ : State} (c : Nat) (f : EdgeAgent → EdgeAgent) (hk : Keeps μ φ π σ τ) : Keeps μ φ π σ (τ.modAgent c f) := by
  unfold State.modAgent
  try dsimp only
  repeat' first
    | with_reducible assumption
    | with_reducible refine Keeps.ite (fun _ => ?_) (fun _ => ?_)
    | with_reducible refine Keeps.ite1 (fun _ => ?_) (fun _ => ?_)
    | (refine Keeps.intro ?_; dsimp only; with_reducible first | refine Keeps.elim ?_ | refine KeepsTo.write _ _ (Keeps.elim ?_) | refine KeepsTo.clear _ _ (Keeps.elim ?_) | refine KeepsTo.putAt _ _ (Keeps.elim ?_) | refine KeepsTo.map _ (Keeps.elim ?_) | refine KeepsTo.filter _ (Keeps.elim ?_) | refine KeepsTo.setFlash _ (Keeps.elim ?_) | refine KeepsTo.setPwr _ _ _ (Keeps.elim ?_))
    | (apply Keeps.of_pair; with_reducible assumption)
    | split
    | dsimp only

theorem Keeps.modStack {μ φ π : Bool} {σ τ : State} (i : Nat) (f : Stack → Stack) (hk : Keeps μ φ π σ τ) : Keeps μ φ π σ (τ.modStack i f) := by
  unfold State.modStack
  try dsimp only
  repeat' first
    | with_reducible assumption
    | with_reducible refine Keeps.ite (fun _ => ?_) (fun _ => ?_)
    | with_reducible refine Keeps.ite1 (fun _ => ?_) (fun _ => ?_)
    | (refine Keeps.intro ?_; dsimp only; with_reducible first | refine Keeps.elim ?_ | refine KeepsTo.write _ _ (Keeps.elim ?_) | refine KeepsTo.clear _ _ (Keeps.elim ?_) | refine KeepsTo.putAt _ _ (Keeps.elim ?_) | refine KeepsTo.map _ (Keeps.elim ?_) | refine KeepsTo.filter _ (Keeps.elim ?_) | refine KeepsTo.setFlash _ (Keeps.elim ?_) | refine KeepsTo.setPwr _ _ _ (Keeps.elim ?_))
    | (apply Keeps.of_pair; with_reducible assumption)
    | split
    | dsimp only

theorem Keeps.modAtt {μ φ π : Bool} {σ τ : State} (c : Nat) (f : Attach → Attach) (hk : Keeps μ φ π σ τ) : Keeps μ φ π σ (τ.modAtt c f) := by
  unfold State.modAtt
  try dsimp only
  repeat' first
    | with_reducible assumption
    | with_reducible refine Keeps.ite (fun _ => ?_) (fun _ => ?_)
    | with_reducible refine Keeps.ite1 (fun _ => ?_) (fun _ => ?_)
    | (refine Keeps.intro ?_; dsimp only; with_reducible first | refine Keeps.elim ?_ | refine KeepsTo.write _ _ (Keeps.elim ?_) | refine KeepsTo.clear _ _ (Keeps.elim ?_) | refine KeepsTo.putAt _ _ (Keeps.elim ?_) | refine KeepsTo.map _ (Keeps.elim ?_) | refine KeepsTo.filter _ (Keeps.elim ?_) | refine KeepsTo.setFlash _ (Keeps.elim ?_) | refine KeepsTo.setPwr _ _ _ (Keeps.elim ?_))
    | (apply Keeps.of_pair; with_reducible assumption)
    | split
    | dsimp only

theorem Keeps.dropAgentOut {μ φ π : Bool} {σ τ : State} (kind core c q : Nat) (hk : Keeps μ φ π σ τ) : Keeps μ φ π σ (τ.dropAgentOut kind core c q) := by
  unfold State.dropAgentOut
  try dsimp only
  repeat' first
    | with_reducible assumption
    | with_reducible apply Keeps.modAgent
    | with_reducible apply Keeps.modAtt
    | with_reducible refine Keeps.ite (fun _ => ?_) (fun _ => ?_)
    | with_reducible refine Keeps.ite1 (fun _ => ?_) (fun _ => ?_)
    | (refine Keeps.intro ?_; dsimp only; with_reducible first | refine Keeps.elim ?_ | refine KeepsTo.write _ _ (Keeps.elim ?_) | refine KeepsTo.clear _ _ (Keeps.elim ?_) | refine KeepsTo.putAt _ _ (Keeps.elim ?_) | refine KeepsTo.map _ (Keeps.elim ?_) | refine KeepsTo.filter _ (Keeps.elim ?_) | refine KeepsTo.setFlash _ (Keeps.elim ?_) | refine KeepsTo.setPwr _ _ _ (Keeps.elim ?_))
    | (apply Keeps.of_pair; with_reducible assumption)
    | split
    | dsimp only

theorem Keeps.stopRequests {μ φ π : Bool} {σ τ : State} (p job : Nat) (hk : Keeps μ φ π σ τ) : Keeps μ φ π σ (τ.stopRequests p job) := by
  unfold State.stopRequests
  try dsimp only
  repeat' first
    | with_reducible assumption
    | with_reducible apply Keeps.modAgent
    | with_reducible refine Keeps.foldl ?_ fun _ _ _ => ?_
    | with_reducible refine Keeps.foldlP ?_ fun _ _ _ => ?_
    | with_reducible refine Keeps.ite (fun _ => ?_) (fun _ => ?_)
    | with_reducible refine Keeps.ite1 (fun _ => ?_) (fun _ => ?_)
    | (refine Keeps.intro ?_; dsimp only; with_reducible first | refine Keeps.elim ?_ | refine KeepsTo.write _ _ (Keeps.elim ?_) | refine KeepsTo.clear _ _ (Keeps.elim ?_) | refine KeepsTo.putAt _ _ (Keeps.elim ?_) | refine KeepsTo.map _ (Keeps.elim ?_) | refine KeepsTo.filter _ (Keeps.elim ?_) | refine KeepsTo.setFlash _ (Keeps.elim ?_) | refine KeepsTo.setPwr _ _ _ (Keeps.elim ?_))
    | (apply Keeps.of_pair; with_reducible assumption)
    | split
    | dsimp only

end Sys2Proof.Machine
end

