-- ==== Sys2Proof/Laws/KeepsChannels.lean ====
section
/-!
SUPPORT. What `Keeps` says, of the operations of Sys2Proof/Machine/Channels.lean: one lemma each, with the operation applied last.
-/

set_option linter.unusedTactic false
set_option linter.unreachableTactic false

namespace Sys2Proof.Machine

theorem Keeps.slotSeen {μ φ π : Bool} {σ τ : State} (c : Nat) (pr : GateD → Bool) (n : Nat) (hk : Keeps μ φ π σ τ) : Keeps μ φ π σ (τ.slotSeen c pr n) := by
  unfold State.slotSeen
  try dsimp only
  repeat' first
    | with_reducible assumption
    | with_reducible apply Keeps.modRegion
    | with_reducible refine Keeps.ite (fun _ => ?_) (fun _ => ?_)
    | with_reducible refine Keeps.ite1 (fun _ => ?_) (fun _ => ?_)
    | (refine Keeps.intro ?_; dsimp only; with_reducible first | refine Keeps.elim ?_ | refine KeepsTo.write _ _ (Keeps.elim ?_) | refine KeepsTo.clear _ _ (Keeps.elim ?_) | refine KeepsTo.putAt _ _ (Keeps.elim ?_) | refine KeepsTo.map _ (Keeps.elim ?_) | refine KeepsTo.filter _ (Keeps.elim ?_) | refine KeepsTo.setFlash _ (Keeps.elim ?_) | refine KeepsTo.setPwr _ _ _ (Keeps.elim ?_))
    | (apply Keeps.of_pair; with_reducible assumption)
    | split
    | dsimp only

theorem Keeps.sendCredit {μ φ π : Bool} {σ τ : State} (x : Src) (n : Nat) (hk : Keeps μ φ π σ τ) : Keeps μ φ π σ (τ.sendCredit x n) := by
  unfold State.sendCredit
  try dsimp only
  repeat' first
    | with_reducible assumption
    | with_reducible refine Keeps.ite (fun _ => ?_) (fun _ => ?_)
    | with_reducible refine Keeps.ite1 (fun _ => ?_) (fun _ => ?_)
    | (refine Keeps.intro ?_; dsimp only; with_reducible first | refine Keeps.elim ?_ | refine KeepsTo.write _ _ (Keeps.elim ?_) | refine KeepsTo.clear _ _ (Keeps.elim ?_) | refine KeepsTo.putAt _ _ (Keeps.elim ?_) | refine KeepsTo.map _ (Keeps.elim ?_) | refine KeepsTo.filter _ (Keeps.elim ?_) | refine KeepsTo.setFlash _ (Keeps.elim ?_) | refine KeepsTo.setPwr _ _ _ (Keeps.elim ?_))
    | (apply Keeps.of_pair; with_reducible assumption)
    | split
    | dsimp only

theorem Keeps.recall {μ φ π : Bool} {σ τ : State} (x : Src) (hk : Keeps μ φ π σ τ) : Keeps μ φ π σ (τ.recall x).1 := by
  unfold State.recall
  try dsimp only
  repeat' first
    | with_reducible assumption
    | with_reducible refine Keeps.ite (fun _ => ?_) (fun _ => ?_)
    | with_reducible refine Keeps.ite1 (fun _ => ?_) (fun _ => ?_)
    | (refine Keeps.intro ?_; dsimp only; with_reducible first | refine Keeps.elim ?_ | refine KeepsTo.write _ _ (Keeps.elim ?_) | refine KeepsTo.clear _ _ (Keeps.elim ?_) | refine KeepsTo.putAt _ _ (Keeps.elim ?_) | refine KeepsTo.map _ (Keeps.elim ?_) | refine KeepsTo.filter _ (Keeps.elim ?_) | refine KeepsTo.setFlash _ (Keeps.elim ?_) | refine KeepsTo.setPwr _ _ _ (Keeps.elim ?_))
    | (apply Keeps.of_pair; with_reducible assumption)
    | split
    | dsimp only

theorem Keeps.answerBind {μ φ π : Bool} {σ τ : State} (c q : Nat) (x : Src) (hk : Keeps μ φ π σ τ) : Keeps μ φ π σ (τ.answerBind c q x) := by
  unfold State.answerBind
  try dsimp only
  repeat' first
    | with_reducible assumption
    | with_reducible apply Keeps.modCore
    | with_reducible apply Keeps.recall
    | with_reducible apply Keeps.sendCredit
    | with_reducible refine Keeps.ite (fun _ => ?_) (fun _ => ?_)
    | with_reducible refine Keeps.ite1 (fun _ => ?_) (fun _ => ?_)
    | (refine Keeps.intro ?_; dsimp only; with_reducible first | refine Keeps.elim ?_ | refine KeepsTo.write _ _ (Keeps.elim ?_) | refine KeepsTo.clear _ _ (Keeps.elim ?_) | refine KeepsTo.putAt _ _ (Keeps.elim ?_) | refine KeepsTo.map _ (Keeps.elim ?_) | refine KeepsTo.filter _ (Keeps.elim ?_) | refine KeepsTo.setFlash _ (Keeps.elim ?_) | refine KeepsTo.setPwr _ _ _ (Keeps.elim ?_))
    | (apply Keeps.of_pair; with_reducible assumption)
    | split
    | dsimp only

theorem Keeps.bindQueue {μ φ π : Bool} {σ τ : State} (c q : Nat) (x : Src) (hk : Keeps μ φ π σ τ) : Keeps μ φ π σ (τ.bindQueue c q x) := by
  unfold State.bindQueue
  try dsimp only
  repeat' first
    | with_reducible assumption
    | with_reducible apply Keeps.answerBind
    | with_reducible apply Keeps.modCore
    | with_reducible refine Keeps.ite (fun _ => ?_) (fun _ => ?_)
    | with_reducible refine Keeps.ite1 (fun _ => ?_) (fun _ => ?_)
    | (refine Keeps.intro ?_; dsimp only; with_reducible first | refine Keeps.elim ?_ | refine KeepsTo.write _ _ (Keeps.elim ?_) | refine KeepsTo.clear _ _ (Keeps.elim ?_) | refine KeepsTo.putAt _ _ (Keeps.elim ?_) | refine KeepsTo.map _ (Keeps.elim ?_) | refine KeepsTo.filter _ (Keeps.elim ?_) | refine KeepsTo.setFlash _ (Keeps.elim ?_) | refine KeepsTo.setPwr _ _ _ (Keeps.elim ?_))
    | (apply Keeps.of_pair; with_reducible assumption)
    | split
    | dsimp only

theorem Keeps.unbindQueue {μ φ π : Bool} {σ τ : State} (c q : Nat) (x : Src) (n : Nat) (hk : Keeps μ φ π σ τ) : Keeps μ φ π σ (τ.unbindQueue c q x n) := by
  unfold State.unbindQueue
  try dsimp only
  repeat' first
    | with_reducible assumption
    | with_reducible apply Keeps.modCore
    | with_reducible refine Keeps.ite (fun _ => ?_) (fun _ => ?_)
    | with_reducible refine Keeps.ite1 (fun _ => ?_) (fun _ => ?_)
    | (refine Keeps.intro ?_; dsimp only; with_reducible first | refine Keeps.elim ?_ | refine KeepsTo.write _ _ (Keeps.elim ?_) | refine KeepsTo.clear _ _ (Keeps.elim ?_) | refine KeepsTo.putAt _ _ (Keeps.elim ?_) | refine KeepsTo.map _ (Keeps.elim ?_) | refine KeepsTo.filter _ (Keeps.elim ?_) | refine KeepsTo.setFlash _ (Keeps.elim ?_) | refine KeepsTo.setPwr _ _ _ (Keeps.elim ?_))
    | (apply Keeps.of_pair; with_reducible assumption)
    | split
    | dsimp only

theorem Keeps.enterQueue {μ φ π : Bool} {σ τ : State} (c q : Nat) (x : Src) (e : Entry) (hk : Keeps μ φ π σ τ) : Keeps μ φ π σ (τ.enterQueue c q x e) := by
  unfold State.enterQueue
  try dsimp only
  repeat' first
    | with_reducible assumption
    | with_reducible apply Keeps.modCore
    | with_reducible apply Keeps.slotSeen
    | with_reducible refine Keeps.ite (fun _ => ?_) (fun _ => ?_)
    | with_reducible refine Keeps.ite1 (fun _ => ?_) (fun _ => ?_)
    | (refine Keeps.intro ?_; dsimp only; with_reducible first | refine Keeps.elim ?_ | refine KeepsTo.write _ _ (Keeps.elim ?_) | refine KeepsTo.clear _ _ (Keeps.elim ?_) | refine KeepsTo.putAt _ _ (Keeps.elim ?_) | refine KeepsTo.map _ (Keeps.elim ?_) | refine KeepsTo.filter _ (Keeps.elim ?_) | refine KeepsTo.setFlash _ (Keeps.elim ?_) | refine KeepsTo.setPwr _ _ _ (Keeps.elim ?_))
    | (apply Keeps.of_pair; with_reducible assumption)
    | split
    | dsimp only

theorem Keeps.returnCredits {μ φ π : Bool} {σ τ : State} (c q n : Nat) (hk : Keeps μ φ π σ τ) : Keeps μ φ π σ (τ.returnCredits c q n) := by
  unfold State.returnCredits
  try dsimp only
  repeat' first
    | with_reducible assumption
    | with_reducible apply Keeps.modCore
    | with_reducible apply Keeps.sendCredit
    | with_reducible refine Keeps.ite (fun _ => ?_) (fun _ => ?_)
    | with_reducible refine Keeps.ite1 (fun _ => ?_) (fun _ => ?_)
    | (refine Keeps.intro ?_; dsimp only; with_reducible first | refine Keeps.elim ?_ | refine KeepsTo.write _ _ (Keeps.elim ?_) | refine KeepsTo.clear _ _ (Keeps.elim ?_) | refine KeepsTo.putAt _ _ (Keeps.elim ?_) | refine KeepsTo.map _ (Keeps.elim ?_) | refine KeepsTo.filter _ (Keeps.elim ?_) | refine KeepsTo.setFlash _ (Keeps.elim ?_) | refine KeepsTo.setPwr _ _ _ (Keeps.elim ?_))
    | (apply Keeps.of_pair; with_reducible assumption)
    | split
    | dsimp only

theorem Keeps.pressure {μ φ π : Bool} {σ τ : State} (c : Nat) (hk : Keeps μ φ π σ τ) : Keeps μ φ π σ (τ.pressure c) := by
  unfold State.pressure
  try dsimp only
  repeat' first
    | with_reducible assumption
    | with_reducible apply Keeps.modRegion
    | with_reducible refine Keeps.ite (fun _ => ?_) (fun _ => ?_)
    | with_reducible refine Keeps.ite1 (fun _ => ?_) (fun _ => ?_)
    | (refine Keeps.intro ?_; dsimp only; with_reducible first | refine Keeps.elim ?_ | refine KeepsTo.write _ _ (Keeps.elim ?_) | refine KeepsTo.clear _ _ (Keeps.elim ?_) | refine KeepsTo.putAt _ _ (Keeps.elim ?_) | refine KeepsTo.map _ (Keeps.elim ?_) | refine KeepsTo.filter _ (Keeps.elim ?_) | refine KeepsTo.setFlash _ (Keeps.elim ?_) | refine KeepsTo.setPwr _ _ _ (Keeps.elim ?_))
    | (apply Keeps.of_pair; with_reducible assumption)
    | split
    | dsimp only

theorem Keeps.routeReplaced {μ φ π : Bool} {σ τ : State} (c r : Nat) (hk : Keeps μ φ π σ τ) : Keeps μ φ π σ (τ.routeReplaced c r) := by
  unfold State.routeReplaced
  try dsimp only
  repeat' first
    | with_reducible assumption
    | with_reducible apply Keeps.modRegion
    | with_reducible refine Keeps.ite (fun _ => ?_) (fun _ => ?_)
    | with_reducible refine Keeps.ite1 (fun _ => ?_) (fun _ => ?_)
    | (refine Keeps.intro ?_; dsimp only; with_reducible first | refine Keeps.elim ?_ | refine KeepsTo.write _ _ (Keeps.elim ?_) | refine KeepsTo.clear _ _ (Keeps.elim ?_) | refine KeepsTo.putAt _ _ (Keeps.elim ?_) | refine KeepsTo.map _ (Keeps.elim ?_) | refine KeepsTo.filter _ (Keeps.elim ?_) | refine KeepsTo.setFlash _ (Keeps.elim ?_) | refine KeepsTo.setPwr _ _ _ (Keeps.elim ?_))
    | (apply Keeps.of_pair; with_reducible assumption)
    | split
    | dsimp only

theorem Keeps.loadRoutes {μ φ π : Bool} {σ τ : State} (c : Nat) (words : Nat → Nat) (hk : Keeps μ φ π σ τ) : Keeps μ φ π σ (τ.loadRoutes c words) := by
  unfold State.loadRoutes
  try dsimp only
  repeat' first
    | with_reducible assumption
    | with_reducible apply Keeps.modCore
    | with_reducible apply Keeps.routeReplaced
    | with_reducible refine Keeps.foldl ?_ fun _ _ _ => ?_
    | with_reducible refine Keeps.foldlP ?_ fun _ _ _ => ?_
    | with_reducible refine Keeps.ite (fun _ => ?_) (fun _ => ?_)
    | with_reducible refine Keeps.ite1 (fun _ => ?_) (fun _ => ?_)
    | (refine Keeps.intro ?_; dsimp only; with_reducible first | refine Keeps.elim ?_ | refine KeepsTo.write _ _ (Keeps.elim ?_) | refine KeepsTo.clear _ _ (Keeps.elim ?_) | refine KeepsTo.putAt _ _ (Keeps.elim ?_) | refine KeepsTo.map _ (Keeps.elim ?_) | refine KeepsTo.filter _ (Keeps.elim ?_) | refine KeepsTo.setFlash _ (Keeps.elim ?_) | refine KeepsTo.setPwr _ _ _ (Keeps.elim ?_))
    | (apply Keeps.of_pair; with_reducible assumption)
    | split
    | dsimp only

theorem Keeps.setCoreFlag {μ φ π : Bool} {σ τ : State} (c i : Nat) (o : FlagOp) (hk : Keeps μ φ π σ τ) : Keeps μ φ π σ (τ.setCoreFlag c i o) := by
  unfold State.setCoreFlag
  try dsimp only
  repeat' first
    | with_reducible assumption
    | with_reducible apply Keeps.modCore
    | with_reducible apply Keeps.slotSeen
    | with_reducible refine Keeps.ite (fun _ => ?_) (fun _ => ?_)
    | with_reducible refine Keeps.ite1 (fun _ => ?_) (fun _ => ?_)
    | (refine Keeps.intro ?_; dsimp only; with_reducible first | refine Keeps.elim ?_ | refine KeepsTo.write _ _ (Keeps.elim ?_) | refine KeepsTo.clear _ _ (Keeps.elim ?_) | refine KeepsTo.putAt _ _ (Keeps.elim ?_) | refine KeepsTo.map _ (Keeps.elim ?_) | refine KeepsTo.filter _ (Keeps.elim ?_) | refine KeepsTo.setFlash _ (Keeps.elim ?_) | refine KeepsTo.setPwr _ _ _ (Keeps.elim ?_))
    | (apply Keeps.of_pair; with_reducible assumption)
    | split
    | dsimp only

theorem Keeps.setChipFlag {μ φ π : Bool} {σ τ : State} (p i : Nat) (o : FlagOp) (hk : Keeps μ φ π σ τ) : Keeps μ φ π σ (τ.setChipFlag p i o) := by
  unfold State.setChipFlag
  try dsimp only
  repeat' first
    | with_reducible assumption
    | with_reducible apply Keeps.modPart
    | with_reducible refine Keeps.ite (fun _ => ?_) (fun _ => ?_)
    | with_reducible refine Keeps.ite1 (fun _ => ?_) (fun _ => ?_)
    | (refine Keeps.intro ?_; dsimp only; with_reducible first | refine Keeps.elim ?_ | refine KeepsTo.write _ _ (Keeps.elim ?_) | refine KeepsTo.clear _ _ (Keeps.elim ?_) | refine KeepsTo.putAt _ _ (Keeps.elim ?_) | refine KeepsTo.map _ (Keeps.elim ?_) | refine KeepsTo.filter _ (Keeps.elim ?_) | refine KeepsTo.setFlash _ (Keeps.elim ?_) | refine KeepsTo.setPwr _ _ _ (Keeps.elim ?_))
    | (apply Keeps.of_pair; with_reducible assumption)
    | split
    | dsimp only

theorem Keeps.applyHeld {μ φ π : Bool} {σ τ : State} (c : Nat) (hk : Keeps μ φ π σ τ) : Keeps μ φ π σ (τ.applyHeld c) := by
  unfold State.applyHeld
  try dsimp only
  repeat' first
    | with_reducible assumption
    | with_reducible apply Keeps.modCore
    | with_reducible apply Keeps.setCoreFlag
    | with_reducible refine Keeps.foldl ?_ fun _ _ _ => ?_
    | with_reducible refine Keeps.foldlP ?_ fun _ _ _ => ?_
    | with_reducible refine Keeps.ite (fun _ => ?_) (fun _ => ?_)
    | with_reducible refine Keeps.ite1 (fun _ => ?_) (fun _ => ?_)
    | (refine Keeps.intro ?_; dsimp only; with_reducible first | refine Keeps.elim ?_ | refine KeepsTo.write _ _ (Keeps.elim ?_) | refine KeepsTo.clear _ _ (Keeps.elim ?_) | refine KeepsTo.putAt _ _ (Keeps.elim ?_) | refine KeepsTo.map _ (Keeps.elim ?_) | refine KeepsTo.filter _ (Keeps.elim ?_) | refine KeepsTo.setFlash _ (Keeps.elim ?_) | refine KeepsTo.setPwr _ _ _ (Keeps.elim ?_))
    | (apply Keeps.of_pair; with_reducible assumption)
    | split
    | dsimp only

end Sys2Proof.Machine
end

