-- ==== Sys2Proof/Laws/KeepsViews.lean ====
section
/-!
SUPPORT. What `Keeps` says, of the operations of Sys2Proof/Machine/Views.lean: one lemma each, with the operation applied last.
-/

set_option linter.unusedTactic false
set_option linter.unreachableTactic false

namespace Sys2Proof.Machine

theorem Keeps.mend {μ φ π : Bool} {σ τ : State} (a n : Nat) (hk : Keeps μ φ π σ τ) : Keeps μ φ π σ (τ.mend a n) := by
  unfold State.mend
  try dsimp only
  repeat' first
    | with_reducible assumption
    | with_reducible refine Keeps.ite (fun _ => ?_) (fun _ => ?_)
    | with_reducible refine Keeps.ite1 (fun _ => ?_) (fun _ => ?_)
    | (refine Keeps.intro ?_; dsimp only; with_reducible first | refine Keeps.elim ?_ | refine KeepsTo.write _ _ (Keeps.elim ?_) | refine KeepsTo.clear _ _ (Keeps.elim ?_) | refine KeepsTo.putAt _ _ (Keeps.elim ?_) | refine KeepsTo.map _ (Keeps.elim ?_) | refine KeepsTo.filter _ (Keeps.elim ?_) | refine KeepsTo.setFlash _ (Keeps.elim ?_) | refine KeepsTo.setPwr _ _ _ (Keeps.elim ?_))
    | (apply Keeps.of_pair; with_reducible assumption)
    | split
    | dsimp only

theorem Keeps.pieceWrite {φ π : Bool} {σ τ : State} (p a : Nat) (bs : List Byte) (hk : Keeps false φ π σ τ) : Keeps false φ π σ (τ.pieceWrite p a bs) := by
  unfold State.pieceWrite
  try dsimp only
  repeat' first
    | with_reducible assumption
    | with_reducible apply Keeps.mend
    | with_reducible refine Keeps.ite (fun _ => ?_) (fun _ => ?_)
    | with_reducible refine Keeps.ite1 (fun _ => ?_) (fun _ => ?_)
    | (refine Keeps.intro ?_; dsimp only; with_reducible first | refine Keeps.elim ?_ | refine KeepsTo.write _ _ (Keeps.elim ?_) | refine KeepsTo.clear _ _ (Keeps.elim ?_) | refine KeepsTo.putAt _ _ (Keeps.elim ?_) | refine KeepsTo.map _ (Keeps.elim ?_) | refine KeepsTo.filter _ (Keeps.elim ?_) | refine KeepsTo.setFlash _ (Keeps.elim ?_) | refine KeepsTo.setPwr _ _ _ (Keeps.elim ?_))
    | (apply Keeps.of_pair; with_reducible assumption)
    | split
    | dsimp only

theorem Keeps.viewWrite {φ π : Bool} {σ τ : State} (p a : Nat) (bs : List Byte) (hk : Keeps false φ π σ τ) : Keeps false φ π σ (τ.viewWrite p a bs) := by
  unfold State.viewWrite
  try dsimp only
  repeat' first
    | with_reducible assumption
    | with_reducible apply Keeps.pieceWrite
    | with_reducible refine Keeps.foldl ?_ fun _ _ _ => ?_
    | with_reducible refine Keeps.foldlP ?_ fun _ _ _ => ?_
    | with_reducible refine Keeps.ite (fun _ => ?_) (fun _ => ?_)
    | with_reducible refine Keeps.ite1 (fun _ => ?_) (fun _ => ?_)
    | (refine Keeps.intro ?_; dsimp only; with_reducible first | refine Keeps.elim ?_ | refine KeepsTo.write _ _ (Keeps.elim ?_) | refine KeepsTo.clear _ _ (Keeps.elim ?_) | refine KeepsTo.putAt _ _ (Keeps.elim ?_) | refine KeepsTo.map _ (Keeps.elim ?_) | refine KeepsTo.filter _ (Keeps.elim ?_) | refine KeepsTo.setFlash _ (Keeps.elim ?_) | refine KeepsTo.setPwr _ _ _ (Keeps.elim ?_))
    | (apply Keeps.of_pair; with_reducible assumption)
    | split
    | dsimp only

end Sys2Proof.Machine
end

