-- ==== Sys2Proof/Laws/KeepsRegion.lean ====
section
/-!
SUPPORT. What `Keeps` says, of the operations of Sys2Proof/Machine/Region.lean: one lemma each, with the operation applied last.
-/

set_option linter.unusedTactic false
set_option linter.unreachableTactic false

namespace Sys2Proof.Machine

theorem Keeps.discardRoute {μ φ π : Bool} {σ τ : State} (x : Src) (hk : Keeps μ φ π σ τ) : Keeps μ φ π σ (τ.discardRoute x) := by
  unfold State.discardRoute
  try dsimp only
  repeat' first
    | with_reducible assumption
    | with_reducible apply Keeps.pressure
    | with_reducible apply Keeps.routeReplaced
    | with_reducible apply Keeps.setCore
    | with_reducible refine Keeps.ite (fun _ => ?_) (fun _ => ?_)
    | with_reducible refine Keeps.ite1 (fun _ => ?_) (fun _ => ?_)
    | (refine Keeps.intro ?_; dsimp only; with_reducible first | refine Keeps.elim ?_ | refine KeepsTo.write _ _ (Keeps.elim ?_) | refine KeepsTo.clear _ _ (Keeps.elim ?_) | refine KeepsTo.putAt _ _ (Keeps.elim ?_) | refine KeepsTo.map _ (Keeps.elim ?_) | refine KeepsTo.filter _ (Keeps.elim ?_) | refine KeepsTo.setFlash _ (Keeps.elim ?_) | refine KeepsTo.setPwr _ _ _ (Keeps.elim ?_))
    | (apply Keeps.of_pair; with_reducible assumption)
    | split
    | dsimp only

theorem Keeps.releaseSource {μ φ π : Bool} {σ τ : State} (rect : Rect) (c q : Nat) (hk : Keeps μ φ π σ τ) : Keeps μ φ π σ (τ.releaseSource rect c q) := by
  unfold State.releaseSource
  try dsimp only
  repeat' first
    | with_reducible assumption
    | with_reducible apply Keeps.discardRoute
    | with_reducible apply Keeps.dropAgentOut
    | with_reducible apply Keeps.recall
    | with_reducible refine Keeps.ite (fun _ => ?_) (fun _ => ?_)
    | with_reducible refine Keeps.ite1 (fun _ => ?_) (fun _ => ?_)
    | (refine Keeps.intro ?_; dsimp only; with_reducible first | refine Keeps.elim ?_ | refine KeepsTo.write _ _ (Keeps.elim ?_) | refine KeepsTo.clear _ _ (Keeps.elim ?_) | refine KeepsTo.putAt _ _ (Keeps.elim ?_) | refine KeepsTo.map _ (Keeps.elim ?_) | refine KeepsTo.filter _ (Keeps.elim ?_) | refine KeepsTo.setFlash _ (Keeps.elim ?_) | refine KeepsTo.setPwr _ _ _ (Keeps.elim ?_))
    | (apply Keeps.of_pair; with_reducible assumption)
    | split
    | dsimp only

theorem Keeps.unbindAll {μ φ π : Bool} {σ τ : State} (p : Nat) (rect : Rect) (c : Nat) (hk : Keeps μ φ π σ τ) : Keeps μ φ π σ (τ.unbindAll p rect c) := by
  unfold State.unbindAll
  try dsimp only
  repeat' first
    | with_reducible assumption
    | with_reducible apply Keeps.modRouter
    | with_reducible apply Keeps.recall
    | with_reducible refine Keeps.foldl ?_ fun _ _ _ => ?_
    | with_reducible refine Keeps.foldlP ?_ fun _ _ _ => ?_
    | with_reducible refine Keeps.ite (fun _ => ?_) (fun _ => ?_)
    | with_reducible refine Keeps.ite1 (fun _ => ?_) (fun _ => ?_)
    | (refine Keeps.intro ?_; dsimp only; with_reducible first | refine Keeps.elim ?_ | refine KeepsTo.write _ _ (Keeps.elim ?_) | refine KeepsTo.clear _ _ (Keeps.elim ?_) | refine KeepsTo.putAt _ _ (Keeps.elim ?_) | refine KeepsTo.map _ (Keeps.elim ?_) | refine KeepsTo.filter _ (Keeps.elim ?_) | refine KeepsTo.setFlash _ (Keeps.elim ?_) | refine KeepsTo.setPwr _ _ _ (Keeps.elim ?_))
    | (apply Keeps.of_pair; with_reducible assumption)
    | split
    | dsimp only

theorem Keeps.clearRect {φ π : Bool} {σ τ : State} (p : Nat) (rect : Rect) (owner : Option (Nat × Nat)) (hk : Keeps false φ π σ τ) : Keeps false φ π σ (τ.clearRect p rect owner) := by
  unfold State.clearRect
  try dsimp only
  repeat' first
    | with_reducible assumption
    | with_reducible apply Keeps.mend
    | with_reducible apply Keeps.modCore
    | with_reducible apply Keeps.releaseSource
    | with_reducible apply Keeps.unbindAll
    | with_reducible refine Keeps.foldl ?_ fun _ _ _ => ?_
    | with_reducible refine Keeps.foldlP ?_ fun _ _ _ => ?_
    | with_reducible refine Keeps.ite (fun _ => ?_) (fun _ => ?_)
    | with_reducible refine Keeps.ite1 (fun _ => ?_) (fun _ => ?_)
    | (refine Keeps.intro ?_; dsimp only; with_reducible first | refine Keeps.elim ?_ | refine KeepsTo.write _ _ (Keeps.elim ?_) | refine KeepsTo.clear _ _ (Keeps.elim ?_) | refine KeepsTo.putAt _ _ (Keeps.elim ?_) | refine KeepsTo.map _ (Keeps.elim ?_) | refine KeepsTo.filter _ (Keeps.elim ?_) | refine KeepsTo.setFlash _ (Keeps.elim ?_) | refine KeepsTo.setPwr _ _ _ (Keeps.elim ?_))
    | (apply Keeps.of_pair; with_reducible assumption)
    | split
    | dsimp only

theorem Keeps.releaseRegion {φ π : Bool} {σ τ : State} (p r : Nat) (hk : Keeps false φ π σ τ) : Keeps false φ π σ (τ.releaseRegion p r) := by
  unfold State.releaseRegion
  try dsimp only
  repeat' first
    | with_reducible assumption
    | with_reducible apply Keeps.clearRect
    | with_reducible apply Keeps.modPart
    | with_reducible apply Keeps.modRegion
    | with_reducible refine Keeps.ite (fun _ => ?_) (fun _ => ?_)
    | with_reducible refine Keeps.ite1 (fun _ => ?_) (fun _ => ?_)
    | (refine Keeps.intro ?_; dsimp only; with_reducible first | refine Keeps.elim ?_ | refine KeepsTo.write _ _ (Keeps.elim ?_) | refine KeepsTo.clear _ _ (Keeps.elim ?_) | refine KeepsTo.putAt _ _ (Keeps.elim ?_) | refine KeepsTo.map _ (Keeps.elim ?_) | refine KeepsTo.filter _ (Keeps.elim ?_) | refine KeepsTo.setFlash _ (Keeps.elim ?_) | refine KeepsTo.setPwr _ _ _ (Keeps.elim ?_))
    | (apply Keeps.of_pair; with_reducible assumption)
    | split
    | dsimp only

theorem Keeps.defineRegion {φ π : Bool} {σ τ : State} (p r : Nat) (rect : Rect) (hk : Keeps false φ π σ τ) : Keeps false φ π σ (τ.defineRegion p r rect) := by
  unfold State.defineRegion
  try dsimp only
  repeat' first
    | with_reducible assumption
    | with_reducible apply Keeps.clearRect
    | with_reducible apply Keeps.modRegion
    | with_reducible apply Keeps.releaseRegion
    | with_reducible refine Keeps.ite (fun _ => ?_) (fun _ => ?_)
    | with_reducible refine Keeps.ite1 (fun _ => ?_) (fun _ => ?_)
    | (refine Keeps.intro ?_; dsimp only; with_reducible first | refine Keeps.elim ?_ | refine KeepsTo.write _ _ (Keeps.elim ?_) | refine KeepsTo.clear _ _ (Keeps.elim ?_) | refine KeepsTo.putAt _ _ (Keeps.elim ?_) | refine KeepsTo.map _ (Keeps.elim ?_) | refine KeepsTo.filter _ (Keeps.elim ?_) | refine KeepsTo.setFlash _ (Keeps.elim ?_) | refine KeepsTo.setPwr _ _ _ (Keeps.elim ?_))
    | (apply Keeps.of_pair; with_reducible assumption)
    | split
    | dsimp only

end Sys2Proof.Machine
end

