-- ==== Sys2Proof/Laws/KeepsMoveStream.lean ====
section
/-!
SUPPORT. What `Keeps` says, of the operations of Sys2Proof/Machine/MoveStream.lean: one lemma each, with the operation applied last.
-/

set_option linter.unusedTactic false
set_option linter.unreachableTactic false

namespace Sys2Proof.Machine

theorem Keeps.writeMsBase {μ φ π : Bool} {σ τ : State} (p v : Nat) (hk : Keeps μ φ π σ τ) : Keeps μ φ π σ (τ.writeMsBase p v).1 := by
  unfold State.writeMsBase
  try dsimp only
  repeat' first
    | with_reducible assumption
    | with_reducible apply Keeps.modMs
    | with_reducible refine Keeps.ite (fun _ => ?_) (fun _ => ?_)
    | with_reducible refine Keeps.ite1 (fun _ => ?_) (fun _ => ?_)
    | (refine Keeps.intro ?_; dsimp only; with_reducible first | refine Keeps.elim ?_ | refine KeepsTo.write _ _ (Keeps.elim ?_) | refine KeepsTo.clear _ _ (Keeps.elim ?_) | refine KeepsTo.putAt _ _ (Keeps.elim ?_) | refine KeepsTo.map _ (Keeps.elim ?_) | refine KeepsTo.filter _ (Keeps.elim ?_) | refine KeepsTo.setFlash _ (Keeps.elim ?_) | refine KeepsTo.setPwr _ _ _ (Keeps.elim ?_))
    | (apply Keeps.of_pair; with_reducible assumption)
    | split
    | dsimp only

theorem Keeps.writeMsCtl {μ φ π : Bool} {σ τ : State} (p v : Nat) (hk : Keeps μ φ π σ τ) : Keeps μ φ π σ (τ.writeMsCtl p v).1 := by
  unfold State.writeMsCtl
  try dsimp only
  repeat' first
    | with_reducible assumption
    | with_reducible apply Keeps.abortWrite
    | with_reducible apply Keeps.modMs
    | with_reducible refine Keeps.ite (fun _ => ?_) (fun _ => ?_)
    | with_reducible refine Keeps.ite1 (fun _ => ?_) (fun _ => ?_)
    | (refine Keeps.intro ?_; dsimp only; with_reducible first | refine Keeps.elim ?_ | refine KeepsTo.write _ _ (Keeps.elim ?_) | refine KeepsTo.clear _ _ (Keeps.elim ?_) | refine KeepsTo.putAt _ _ (Keeps.elim ?_) | refine KeepsTo.map _ (Keeps.elim ?_) | refine KeepsTo.filter _ (Keeps.elim ?_) | refine KeepsTo.setFlash _ (Keeps.elim ?_) | refine KeepsTo.setPwr _ _ _ (Keeps.elim ?_))
    | (apply Keeps.of_pair; with_reducible assumption)
    | split
    | dsimp only

theorem Keeps.moveFail {μ φ π : Bool} {σ τ : State} (p : Nat) (h : MoveHdr) (code : Nat) (hk : Keeps μ φ π σ τ) : Keeps μ φ π σ (τ.moveFail p h code) := by
  unfold State.moveFail
  try dsimp only
  repeat' first
    | with_reducible assumption
    | with_reducible apply Keeps.failJob
    | with_reducible apply Keeps.modPart
    | with_reducible refine Keeps.ite (fun _ => ?_) (fun _ => ?_)
    | with_reducible refine Keeps.ite1 (fun _ => ?_) (fun _ => ?_)
    | (refine Keeps.intro ?_; dsimp only; with_reducible first | refine Keeps.elim ?_ | refine KeepsTo.write _ _ (Keeps.elim ?_) | refine KeepsTo.clear _ _ (Keeps.elim ?_) | refine KeepsTo.putAt _ _ (Keeps.elim ?_) | refine KeepsTo.map _ (Keeps.elim ?_) | refine KeepsTo.filter _ (Keeps.elim ?_) | refine KeepsTo.setFlash _ (Keeps.elim ?_) | refine KeepsTo.setPwr _ _ _ (Keeps.elim ?_))
    | (apply Keeps.of_pair; with_reducible assumption)
    | split
    | dsimp only

theorem Keeps.moveFormat {μ φ π : Bool} {σ τ : State} (p : Nat) (h : MoveHdr) (hk : Keeps μ φ π σ τ) : Keeps μ φ π σ (τ.moveFormat p h) := by
  unfold State.moveFormat
  try dsimp only
  repeat' first
    | with_reducible assumption
    | with_reducible apply Keeps.moveFail
    | with_reducible refine Keeps.ite (fun _ => ?_) (fun _ => ?_)
    | with_reducible refine Keeps.ite1 (fun _ => ?_) (fun _ => ?_)
    | (refine Keeps.intro ?_; dsimp only; with_reducible first | refine Keeps.elim ?_ | refine KeepsTo.write _ _ (Keeps.elim ?_) | refine KeepsTo.clear _ _ (Keeps.elim ?_) | refine KeepsTo.putAt _ _ (Keeps.elim ?_) | refine KeepsTo.map _ (Keeps.elim ?_) | refine KeepsTo.filter _ (Keeps.elim ?_) | refine KeepsTo.setFlash _ (Keeps.elim ?_) | refine KeepsTo.setPwr _ _ _ (Keeps.elim ?_))
    | (apply Keeps.of_pair; with_reducible assumption)
    | split
    | dsimp only

theorem Keeps.skipMove {μ φ π : Bool} {σ τ : State} (p : Nat) (h : MoveHdr) (hk : Keeps μ φ π σ τ) : Keeps μ φ π σ (τ.skipMove p h) := by
  unfold State.skipMove
  try dsimp only
  repeat' first
    | with_reducible assumption
    | with_reducible apply Keeps.modMs
    | with_reducible refine Keeps.ite (fun _ => ?_) (fun _ => ?_)
    | with_reducible refine Keeps.ite1 (fun _ => ?_) (fun _ => ?_)
    | (refine Keeps.intro ?_; dsimp only; with_reducible first | refine Keeps.elim ?_ | refine KeepsTo.write _ _ (Keeps.elim ?_) | refine KeepsTo.clear _ _ (Keeps.elim ?_) | refine KeepsTo.putAt _ _ (Keeps.elim ?_) | refine KeepsTo.map _ (Keeps.elim ?_) | refine KeepsTo.filter _ (Keeps.elim ?_) | refine KeepsTo.setFlash _ (Keeps.elim ?_) | refine KeepsTo.setPwr _ _ _ (Keeps.elim ?_))
    | (apply Keeps.of_pair; with_reducible assumption)
    | split
    | dsimp only

theorem Keeps.takeMove {μ φ π : Bool} {σ τ : State} (p : Nat) (h : MoveHdr) (hk : Keeps μ φ π σ τ) : Keeps μ φ π σ (τ.takeMove p h) := by
  unfold State.takeMove
  try dsimp only
  repeat' first
    | with_reducible assumption
    | with_reducible apply Keeps.modMs
    | with_reducible apply Keeps.modPart
    | with_reducible apply Keeps.moveFail
    | with_reducible apply Keeps.moveFormat
    | with_reducible apply Keeps.sharedRead
    | with_reducible refine Keeps.ite (fun _ => ?_) (fun _ => ?_)
    | with_reducible refine Keeps.ite1 (fun _ => ?_) (fun _ => ?_)
    | (refine Keeps.intro ?_; dsimp only; with_reducible first | refine Keeps.elim ?_ | refine KeepsTo.write _ _ (Keeps.elim ?_) | refine KeepsTo.clear _ _ (Keeps.elim ?_) | refine KeepsTo.putAt _ _ (Keeps.elim ?_) | refine KeepsTo.map _ (Keeps.elim ?_) | refine KeepsTo.filter _ (Keeps.elim ?_) | refine KeepsTo.setFlash _ (Keeps.elim ?_) | refine KeepsTo.setPwr _ _ _ (Keeps.elim ?_))
    | (apply Keeps.of_pair; with_reducible assumption)
    | split
    | dsimp only

theorem Keeps.moveFetch {μ φ π : Bool} {σ τ : State} (p : Nat) (hk : Keeps μ φ π σ τ) : Keeps μ φ π σ (τ.moveFetch p) := by
  unfold State.moveFetch
  try dsimp only
  repeat' first
    | with_reducible assumption
    | with_reducible apply Keeps.modMs
    | with_reducible apply Keeps.moveFail
    | with_reducible apply Keeps.moveFormat
    | with_reducible apply Keeps.sharedRead
    | with_reducible apply Keeps.skipMove
    | with_reducible apply Keeps.takeMove
    | with_reducible refine Keeps.ite (fun _ => ?_) (fun _ => ?_)
    | with_reducible refine Keeps.ite1 (fun _ => ?_) (fun _ => ?_)
    | (refine Keeps.intro ?_; dsimp only; with_reducible first | refine Keeps.elim ?_ | refine KeepsTo.write _ _ (Keeps.elim ?_) | refine KeepsTo.clear _ _ (Keeps.elim ?_) | refine KeepsTo.putAt _ _ (Keeps.elim ?_) | refine KeepsTo.map _ (Keeps.elim ?_) | refine KeepsTo.filter _ (Keeps.elim ?_) | refine KeepsTo.setFlash _ (Keeps.elim ?_) | refine KeepsTo.setPwr _ _ _ (Keeps.elim ?_))
    | (apply Keeps.of_pair; with_reducible assumption)
    | split
    | dsimp only

theorem Keeps.laneDispatch {μ φ π : Bool} {σ τ : State} (hk : Keeps μ φ π σ τ) : Keeps μ φ π σ τ.laneDispatch := by
  unfold State.laneDispatch
  try dsimp only
  repeat' first
    | with_reducible assumption
    | with_reducible apply Keeps.failJob
    | with_reducible apply Keeps.modJob
    | with_reducible apply Keeps.modMs
    | with_reducible apply Keeps.modRegion
    | with_reducible apply Keeps.moveFormat
    | with_reducible refine Keeps.ite (fun _ => ?_) (fun _ => ?_)
    | with_reducible refine Keeps.ite1 (fun _ => ?_) (fun _ => ?_)
    | (refine Keeps.intro ?_; dsimp only; with_reducible first | refine Keeps.elim ?_ | refine KeepsTo.write _ _ (Keeps.elim ?_) | refine KeepsTo.clear _ _ (Keeps.elim ?_) | refine KeepsTo.putAt _ _ (Keeps.elim ?_) | refine KeepsTo.map _ (Keeps.elim ?_) | refine KeepsTo.filter _ (Keeps.elim ?_) | refine KeepsTo.setFlash _ (Keeps.elim ?_) | refine KeepsTo.setPwr _ _ _ (Keeps.elim ?_))
    | (apply Keeps.of_pair; with_reducible assumption)
    | split
    | dsimp only

end Sys2Proof.Machine
end

