-- ==== Sys2Proof/Laws/KeepsTempoRun.lean ====
section
/-!
SUPPORT. What `Keeps` says, of the operations of Sys2Proof/Machine/TempoRun.lean: one lemma each, with the operation applied last.
-/

set_option linter.unusedTactic false
set_option linter.unreachableTactic false

namespace Sys2Proof.Machine

theorem Keeps.commitCore {μ φ π : Bool} {σ τ : State} (x : TC) (hk : Keeps μ φ π σ τ) : Keeps μ φ π σ (τ.commitCore x) := by
  unfold State.commitCore
  try dsimp only
  repeat' first
    | with_reducible assumption
    | with_reducible apply Keeps.loadRoutes
    | with_reducible apply Keeps.modCore
    | with_reducible apply Keeps.pressure
    | with_reducible apply Keeps.returnCredits
    | with_reducible apply Keeps.setCore
    | with_reducible apply Keeps.slotSeen
    | with_reducible refine Keeps.foldl ?_ fun _ _ _ => ?_
    | with_reducible refine Keeps.foldlP ?_ fun _ _ _ => ?_
    | with_reducible refine Keeps.ite (fun _ => ?_) (fun _ => ?_)
    | with_reducible refine Keeps.ite1 (fun _ => ?_) (fun _ => ?_)
    | (refine Keeps.intro ?_; dsimp only; with_reducible first | refine Keeps.elim ?_ | refine KeepsTo.write _ _ (Keeps.elim ?_) | refine KeepsTo.clear _ _ (Keeps.elim ?_) | refine KeepsTo.putAt _ _ (Keeps.elim ?_) | refine KeepsTo.map _ (Keeps.elim ?_) | refine KeepsTo.filter _ (Keeps.elim ?_) | refine KeepsTo.setFlash _ (Keeps.elim ?_) | refine KeepsTo.setPwr _ _ _ (Keeps.elim ?_))
    | (apply Keeps.of_pair; with_reducible assumption)
    | split
    | dsimp only

theorem Keeps.commitOut {μ φ π : Bool} {σ τ : State} (p r : Nat) (g : Region) (cores : List Nat) (x : TC) (hk : Keeps μ φ π σ τ) : Keeps μ φ π σ (τ.commitOut p r g cores x) := by
  unfold State.commitOut
  try dsimp only
  repeat' first
    | with_reducible assumption
    | with_reducible apply Keeps.event
    | with_reducible apply Keeps.modCore
    | with_reducible apply Keeps.modRouter
    | with_reducible apply Keeps.setCoreFlag
    | with_reducible refine Keeps.foldl ?_ fun _ _ _ => ?_
    | with_reducible refine Keeps.foldlP ?_ fun _ _ _ => ?_
    | with_reducible refine Keeps.ite (fun _ => ?_) (fun _ => ?_)
    | with_reducible refine Keeps.ite1 (fun _ => ?_) (fun _ => ?_)
    | (refine Keeps.intro ?_; dsimp only; with_reducible first | refine Keeps.elim ?_ | refine KeepsTo.write _ _ (Keeps.elim ?_) | refine KeepsTo.clear _ _ (Keeps.elim ?_) | refine KeepsTo.putAt _ _ (Keeps.elim ?_) | refine KeepsTo.map _ (Keeps.elim ?_) | refine KeepsTo.filter _ (Keeps.elim ?_) | refine KeepsTo.setFlash _ (Keeps.elim ?_) | refine KeepsTo.setPwr _ _ _ (Keeps.elim ?_))
    | (apply Keeps.of_pair; with_reducible assumption)
    | split
    | dsimp only

theorem Keeps.coreReads {μ φ π : Bool} {σ τ : State} (x : TC) (hk : Keeps μ φ π σ τ) : Keeps μ φ π σ (τ.coreReads x).1 := by
  unfold State.coreReads
  try dsimp only
  repeat' first
    | with_reducible assumption
    | with_reducible apply Keeps.coreCorrected
    | with_reducible apply Keeps.coreUncorrectable
    | with_reducible apply Keeps.mend
    | with_reducible refine Keeps.foldl ?_ fun _ _ _ => ?_
    | with_reducible refine Keeps.foldlP ?_ fun _ _ _ => ?_
    | with_reducible refine Keeps.ite (fun _ => ?_) (fun _ => ?_)
    | with_reducible refine Keeps.ite1 (fun _ => ?_) (fun _ => ?_)
    | (refine Keeps.intro ?_; dsimp only; with_reducible first | refine Keeps.elim ?_ | refine KeepsTo.write _ _ (Keeps.elim ?_) | refine KeepsTo.clear _ _ (Keeps.elim ?_) | refine KeepsTo.putAt _ _ (Keeps.elim ?_) | refine KeepsTo.map _ (Keeps.elim ?_) | refine KeepsTo.filter _ (Keeps.elim ?_) | refine KeepsTo.setFlash _ (Keeps.elim ?_) | refine KeepsTo.setPwr _ _ _ (Keeps.elim ?_))
    | (apply Keeps.of_pair; with_reducible assumption)
    | split
    | dsimp only

theorem Keeps.tempoFail {μ φ π : Bool} {σ τ : State} (fs : List (Nat × Nat × Nat)) (hk : Keeps μ φ π σ τ) : Keeps μ φ π σ (τ.tempoFail fs).1 := by
  unfold State.tempoFail
  try dsimp only
  repeat' first
    | with_reducible assumption
    | with_reducible apply Keeps.fresh
    | with_reducible refine Keeps.foldl ?_ fun _ _ _ => ?_
    | with_reducible refine Keeps.foldlP ?_ fun _ _ _ => ?_
    | with_reducible refine Keeps.ite (fun _ => ?_) (fun _ => ?_)
    | with_reducible refine Keeps.ite1 (fun _ => ?_) (fun _ => ?_)
    | (refine Keeps.intro ?_; dsimp only; with_reducible first | refine Keeps.elim ?_ | refine KeepsTo.write _ _ (Keeps.elim ?_) | refine KeepsTo.clear _ _ (Keeps.elim ?_) | refine KeepsTo.putAt _ _ (Keeps.elim ?_) | refine KeepsTo.map _ (Keeps.elim ?_) | refine KeepsTo.filter _ (Keeps.elim ?_) | refine KeepsTo.setFlash _ (Keeps.elim ?_) | refine KeepsTo.setPwr _ _ _ (Keeps.elim ?_))
    | (apply Keeps.of_pair; with_reducible assumption)
    | split
    | dsimp only

/-- The contexts of a tempo keep memory canonical when each core's act does. -/
theorem Twf.runAll {s : State} (g : Region) (cores : List Nat) (pc : Nat) (lc : List Nat) (ups : List Adder) {act : TC → TC}
    (hm : s.mem.wf = true) (ha : ∀ x, Twf x → Twf (act x)) : ∀ x ∈ s.runAll g cores pc lc ups act, Twf x := by
  unfold State.runAll
  suffices H : ∀ (l : List Nat) (a : List TC × Memory × List SteerCh × Nat), (∀ x ∈ a.1, Twf x) → a.2.1.wf = true →
      ∀ x ∈ (l.foldl (fun (acc : List TC × Memory × List SteerCh × Nat) c =>
        let x := act (s.tc c g pc lc s.mem acc.2.1 acc.2.2.1 acc.2.2.2 ups)
        (acc.1 ++ [x], x.mem, x.steer, x.free)) a).1, Twf x from H cores _ (by simp) hm
  intro l
  induction l with
  | nil => intro a h _; exact h
  | cons c l ih =>
    intro a h hw
    have hx : Twf (act (s.tc c g pc lc s.mem a.2.1 a.2.2.1 a.2.2.2 ups)) := ha _ hw
    refine ih _ ?_ hx
    intro x hxm
    rcases List.mem_append.mp hxm with h1 | h1
    · exact h x h1
    · rw [List.mem_singleton.mp h1]; exact hx

theorem Keeps.commit {φ π : Bool} {σ τ : State} (p r : Nat) (cores : List Nat) {xs : List TC} (bad : List Nat)
    (hx : σ.mem.wf = true → ∀ z ∈ xs, Twf z) (hk : Keeps false φ π σ τ) : Keeps false φ π σ (τ.commit p r cores xs bad) := by
  unfold State.commit
  split
  · exact hk
  · rename_i z hz
    have h1 : Keeps false φ π σ ({ τ with mem := z.mem, free := z.free }) :=
      { hk with wf := fun h => hx h z (List.mem_of_getLast? hz), mem := nofun }
    lift_lets
    intro g s1 s2 s3
    have h2 : Keeps false φ π σ s1 := Keeps.modRegion _ _ _ h1
    have h3 : Keeps false φ π σ s2 := Keeps.foldl h2 fun _ _ hu => Keeps.commitCore _ hu
    have h4 : Keeps false φ π σ s3 := Keeps.foldl h3 fun _ _ hu => Keeps.commitOut _ _ _ _ _ hu
    clear_value s3
    split
    rename_i s4 unc e4
    have h5 : Keeps false φ π σ s4 := Keeps.of_pair e4 (Keeps.foldlP h4 fun u a hu => Keeps.coreReads _ hu)
    lift_lets
    intro fs
    clear_value fs
    obtain ⟨⟨s5, f⟩, e5⟩ : ∃ x, s4.tempoFail fs = x := ⟨_, rfl⟩
    have h6 : Keeps false φ π σ s5 := Keeps.of_pair e5 (Keeps.tempoFail _ h5)
    rw [e5]
    dsimp only
    have h7 := Keeps.foldl (l := xs.filter fun x => x.events.any fun e => e.1 == Code.checkColumnMismatch) h6
      fun _ x hu => Keeps.coreFailure x.id 0 hu
    split
    · exact h7
    · exact Keeps.failJob _ _ _ _ h7

theorem Keeps.tempoExecute {φ π : Bool} {σ τ : State} (p r : Nat) (us : List Upset) (hk : Keeps false φ π σ τ) : Keeps false φ π σ (τ.tempoExecute p r us) := by
  have h1 : Keeps false φ π σ (τ.damages us) := Keeps.damages _ hk
  unfold State.tempoExecute
  dsimp only
  split
  · exact hk
  · refine Keeps.ite (fun _ => ?_) fun _ => hk
    refine Keeps.commit _ _ _ _ (fun h => Twf.runAll _ _ _ _ _ (h1.wf h) fun x hx => ?_)
      (Keeps.foldl (Keeps.foldl (Keeps.modRegion _ _ _ h1) fun _ _ hu => Keeps.coreCorrected _ _ hu) fun _ _ hu => Keeps.coreUncorrectable _ _ hu)
    split
    · exact Twf.units (Twf.startActions _ hx)
    · exact Twf.units hx

theorem Keeps.startOne {φ π : Bool} {σ τ : State} (c : Nat) {act : TC → TC} (ha : ∀ x, Twf x → Twf (act x)) (hk : Keeps false φ π σ τ) :
    Keeps false φ π σ (τ.startOne c act) := by
  unfold State.startOne
  split
  · exact hk
  · exact Keeps.commit _ _ _ _ (fun h => Twf.runAll _ _ _ _ _ (hk.wf h) ha) hk

theorem Keeps.drainTick {φ π : Bool} {σ τ : State} (p r : Nat) (hk : Keeps false φ π σ τ) : Keeps false φ π σ (τ.drainTick p r) := by
  unfold State.drainTick
  dsimp only
  split
  · exact Keeps.commit _ _ _ _ (fun h => Twf.runAll _ _ _ _ _ (hk.wf h) fun _ hx => Twf.units hx) (Keeps.modRegion _ _ _ hk)
  · exact hk

end Sys2Proof.Machine
end

