-- ==== Sys2Proof/Laws/KeepsAttachments.lean ====
section
/-!
SUPPORT. What `Keeps` says, of the operations of Sys2Proof/Machine/Attachments.lean: one lemma each, with the operation applied last.
-/

set_option linter.unusedTactic false
set_option linter.unreachableTactic false

namespace Sys2Proof.Machine

theorem Keeps.vertTaken {μ φ π : Bool} {σ τ : State} (c : Nat) (x : Src) (hk : Keeps μ φ π σ τ) : Keeps μ φ π σ (τ.vertTaken c x) := by
  unfold State.vertTaken
  try dsimp only
  repeat' first
    | with_reducible assumption
    | with_reducible apply Keeps.modRouter
    | with_reducible apply Keeps.sendCredit
    | with_reducible refine Keeps.ite (fun _ => ?_) (fun _ => ?_)
    | with_reducible refine Keeps.ite1 (fun _ => ?_) (fun _ => ?_)
    | (refine Keeps.intro ?_; dsimp only; with_reducible first | refine Keeps.elim ?_ | refine KeepsTo.write _ _ (Keeps.elim ?_) | refine KeepsTo.clear _ _ (Keeps.elim ?_) | refine KeepsTo.putAt _ _ (Keeps.elim ?_) | refine KeepsTo.map _ (Keeps.elim ?_) | refine KeepsTo.filter _ (Keeps.elim ?_) | refine KeepsTo.setFlash _ (Keeps.elim ?_) | refine KeepsTo.setPwr _ _ _ (Keeps.elim ?_))
    | (apply Keeps.of_pair; with_reducible assumption)
    | split
    | dsimp only

theorem Keeps.streamFail {μ φ π : Bool} {σ τ : State} (q : SmReq) (code : Nat) (hk : Keeps μ φ π σ τ) : Keeps μ φ π σ (τ.streamFail q code) := by
  unfold State.streamFail
  try dsimp only
  repeat' first
    | with_reducible assumption
    | with_reducible apply Keeps.failJob
    | with_reducible refine Keeps.ite (fun _ => ?_) (fun _ => ?_)
    | with_reducible refine Keeps.ite1 (fun _ => ?_) (fun _ => ?_)
    | (refine Keeps.intro ?_; dsimp only; with_reducible first | refine Keeps.elim ?_ | refine KeepsTo.write _ _ (Keeps.elim ?_) | refine KeepsTo.clear _ _ (Keeps.elim ?_) | refine KeepsTo.putAt _ _ (Keeps.elim ?_) | refine KeepsTo.map _ (Keeps.elim ?_) | refine KeepsTo.filter _ (Keeps.elim ?_) | refine KeepsTo.setFlash _ (Keeps.elim ?_) | refine KeepsTo.setPwr _ _ _ (Keeps.elim ?_))
    | (apply Keeps.of_pair; with_reducible assumption)
    | split
    | dsimp only

theorem Keeps.streamRequest {μ φ π : Bool} {σ τ : State} (c : Nat) (hk : Keeps μ φ π σ τ) : Keeps μ φ π σ (τ.streamRequest c) := by
  unfold State.streamRequest
  try dsimp only
  repeat' first
    | with_reducible assumption
    | with_reducible apply Keeps.inject
    | with_reducible apply Keeps.modAtt
    | with_reducible apply Keeps.streamFail
    | with_reducible apply Keeps.vertTaken
    | with_reducible refine Keeps.ite (fun _ => ?_) (fun _ => ?_)
    | with_reducible refine Keeps.ite1 (fun _ => ?_) (fun _ => ?_)
    | (refine Keeps.intro ?_; dsimp only; with_reducible first | refine Keeps.elim ?_ | refine KeepsTo.write _ _ (Keeps.elim ?_) | refine KeepsTo.clear _ _ (Keeps.elim ?_) | refine KeepsTo.putAt _ _ (Keeps.elim ?_) | refine KeepsTo.map _ (Keeps.elim ?_) | refine KeepsTo.filter _ (Keeps.elim ?_) | refine KeepsTo.setFlash _ (Keeps.elim ?_) | refine KeepsTo.setPwr _ _ _ (Keeps.elim ?_))
    | (apply Keeps.of_pair; with_reducible assumption)
    | split
    | dsimp only

theorem Keeps.smRead {μ φ π : Bool} {σ τ : State} (c i : Nat) (hk : Keeps μ φ π σ τ) : Keeps μ φ π σ (τ.smRead c i) := by
  unfold State.smRead
  try dsimp only
  repeat' first
    | with_reducible assumption
    | with_reducible apply Keeps.dieErrors
    | with_reducible apply Keeps.inject
    | with_reducible apply Keeps.modAtt
    | with_reducible apply Keeps.streamFail
    | with_reducible refine Keeps.ite (fun _ => ?_) (fun _ => ?_)
    | with_reducible refine Keeps.ite1 (fun _ => ?_) (fun _ => ?_)
    | (refine Keeps.intro ?_; dsimp only; with_reducible first | refine Keeps.elim ?_ | refine KeepsTo.write _ _ (Keeps.elim ?_) | refine KeepsTo.clear _ _ (Keeps.elim ?_) | refine KeepsTo.putAt _ _ (Keeps.elim ?_) | refine KeepsTo.map _ (Keeps.elim ?_) | refine KeepsTo.filter _ (Keeps.elim ?_) | refine KeepsTo.setFlash _ (Keeps.elim ?_) | refine KeepsTo.setPwr _ _ _ (Keeps.elim ?_))
    | (apply Keeps.of_pair; with_reducible assumption)
    | split
    | dsimp only

theorem Keeps.smWrite {φ π : Bool} {σ τ : State} (c : Nat) (hk : Keeps false φ π σ τ) : Keeps false φ π σ (τ.smWrite c) := by
  unfold State.smWrite
  try dsimp only
  repeat' first
    | with_reducible assumption
    | with_reducible apply Keeps.mend
    | with_reducible apply Keeps.modAtt
    | with_reducible apply Keeps.streamFail
    | with_reducible apply Keeps.vertTaken
    | with_reducible refine Keeps.ite (fun _ => ?_) (fun _ => ?_)
    | with_reducible refine Keeps.ite1 (fun _ => ?_) (fun _ => ?_)
    | (refine Keeps.intro ?_; dsimp only; with_reducible first | refine Keeps.elim ?_ | refine KeepsTo.write _ _ (Keeps.elim ?_) | refine KeepsTo.clear _ _ (Keeps.elim ?_) | refine KeepsTo.putAt _ _ (Keeps.elim ?_) | refine KeepsTo.map _ (Keeps.elim ?_) | refine KeepsTo.filter _ (Keeps.elim ?_) | refine KeepsTo.setFlash _ (Keeps.elim ?_) | refine KeepsTo.setPwr _ _ _ (Keeps.elim ?_))
    | (apply Keeps.of_pair; with_reducible assumption)
    | split
    | dsimp only

end Sys2Proof.Machine
end

