-- ==== Sys2Proof/Laws/KeepsBinding.lean ====
section
/-!
SUPPORT. What `Keeps` says, of the operations of Sys2Proof/Machine/Binding.lean: one lemma each, with the operation applied last.
-/

set_option linter.unusedTactic false
set_option linter.unreachableTactic false

namespace Sys2Proof.Machine

theorem Keeps.edgeBound {μ φ π : Bool} {σ τ : State} (c : Nat) (d : Dst) (x : Src) (hk : Keeps μ φ π σ τ) : Keeps μ φ π σ (τ.edgeBound c d x) := by
  unfold State.edgeBound
  try dsimp only
  repeat' first
    | with_reducible assumption
    | with_reducible apply Keeps.modAgent
    | with_reducible apply Keeps.sendCredit
    | with_reducible refine Keeps.ite (fun _ => ?_) (fun _ => ?_)
    | with_reducible refine Keeps.ite1 (fun _ => ?_) (fun _ => ?_)
    | (refine Keeps.intro ?_; dsimp only; with_reducible first | refine Keeps.elim ?_ | refine KeepsTo.write _ _ (Keeps.elim ?_) | refine KeepsTo.clear _ _ (Keeps.elim ?_) | refine KeepsTo.putAt _ _ (Keeps.elim ?_) | refine KeepsTo.map _ (Keeps.elim ?_) | refine KeepsTo.filter _ (Keeps.elim ?_) | refine KeepsTo.setFlash _ (Keeps.elim ?_) | refine KeepsTo.setPwr _ _ _ (Keeps.elim ?_))
    | (apply Keeps.of_pair; with_reducible assumption)
    | split
    | dsimp only

theorem Keeps.edgeUnbound {μ φ π : Bool} {σ τ : State} (c : Nat) (x : Src) (hk : Keeps μ φ π σ τ) : Keeps μ φ π σ (τ.edgeUnbound c x) := by
  unfold State.edgeUnbound
  try dsimp only
  repeat' first
    | with_reducible assumption
    | with_reducible apply Keeps.modAgent
    | with_reducible apply Keeps.sendCredit
    | with_reducible refine Keeps.ite (fun _ => ?_) (fun _ => ?_)
    | with_reducible refine Keeps.ite1 (fun _ => ?_) (fun _ => ?_)
    | (refine Keeps.intro ?_; dsimp only; with_reducible first | refine Keeps.elim ?_ | refine KeepsTo.write _ _ (Keeps.elim ?_) | refine KeepsTo.clear _ _ (Keeps.elim ?_) | refine KeepsTo.putAt _ _ (Keeps.elim ?_) | refine KeepsTo.map _ (Keeps.elim ?_) | refine KeepsTo.filter _ (Keeps.elim ?_) | refine KeepsTo.setFlash _ (Keeps.elim ?_) | refine KeepsTo.setPwr _ _ _ (Keeps.elim ?_))
    | (apply Keeps.of_pair; with_reducible assumption)
    | split
    | dsimp only

theorem Keeps.bind {μ φ π : Bool} {σ τ : State} (c port : Nat) (hk : Keeps μ φ π σ τ) : Keeps μ φ π σ (τ.bind c port) := by
  unfold State.bind
  try dsimp only
  repeat' first
    | with_reducible assumption
    | with_reducible apply Keeps.bindQueue
    | with_reducible apply Keeps.edgeBound
    | with_reducible apply Keeps.localTaken
    | with_reducible apply Keeps.modAtt
    | with_reducible apply Keeps.modRouter
    | with_reducible apply Keeps.sendCredit
    | with_reducible refine Keeps.ite (fun _ => ?_) (fun _ => ?_)
    | with_reducible refine Keeps.ite1 (fun _ => ?_) (fun _ => ?_)
    | (refine Keeps.intro ?_; dsimp only; with_reducible first | refine Keeps.elim ?_ | refine KeepsTo.write _ _ (Keeps.elim ?_) | refine KeepsTo.clear _ _ (Keeps.elim ?_) | refine KeepsTo.putAt _ _ (Keeps.elim ?_) | refine KeepsTo.map _ (Keeps.elim ?_) | refine KeepsTo.filter _ (Keeps.elim ?_) | refine KeepsTo.setFlash _ (Keeps.elim ?_) | refine KeepsTo.setPwr _ _ _ (Keeps.elim ?_))
    | (apply Keeps.of_pair; with_reducible assumption)
    | split
    | dsimp only

theorem Keeps.unbind {μ φ π : Bool} {σ τ : State} (c port : Nat) (hk : Keeps μ φ π σ τ) : Keeps μ φ π σ (τ.unbind c port) := by
  unfold State.unbind
  try dsimp only
  repeat' first
    | with_reducible assumption
    | with_reducible apply Keeps.edgeUnbound
    | with_reducible apply Keeps.localTaken
    | with_reducible apply Keeps.modAtt
    | with_reducible apply Keeps.modRouter
    | with_reducible apply Keeps.unbindQueue
    | with_reducible refine Keeps.ite (fun _ => ?_) (fun _ => ?_)
    | with_reducible refine Keeps.ite1 (fun _ => ?_) (fun _ => ?_)
    | (refine Keeps.intro ?_; dsimp only; with_reducible first | refine Keeps.elim ?_ | refine KeepsTo.write _ _ (Keeps.elim ?_) | refine KeepsTo.clear _ _ (Keeps.elim ?_) | refine KeepsTo.putAt _ _ (Keeps.elim ?_) | refine KeepsTo.map _ (Keeps.elim ?_) | refine KeepsTo.filter _ (Keeps.elim ?_) | refine KeepsTo.setFlash _ (Keeps.elim ?_) | refine KeepsTo.setPwr _ _ _ (Keeps.elim ?_))
    | (apply Keeps.of_pair; with_reducible assumption)
    | split
    | dsimp only

theorem Keeps.creditRoute {μ φ π : Bool} {σ τ : State} (x : Src) (n : Nat) (hk : Keeps μ φ π σ τ) : Keeps μ φ π σ (τ.creditRoute x n) := by
  unfold State.creditRoute
  try dsimp only
  repeat' first
    | with_reducible assumption
    | with_reducible apply Keeps.setCore
    | with_reducible apply Keeps.slotSeen
    | with_reducible refine Keeps.ite (fun _ => ?_) (fun _ => ?_)
    | with_reducible refine Keeps.ite1 (fun _ => ?_) (fun _ => ?_)
    | (refine Keeps.intro ?_; dsimp only; with_reducible first | refine Keeps.elim ?_ | refine KeepsTo.write _ _ (Keeps.elim ?_) | refine KeepsTo.clear _ _ (Keeps.elim ?_) | refine KeepsTo.putAt _ _ (Keeps.elim ?_) | refine KeepsTo.map _ (Keeps.elim ?_) | refine KeepsTo.filter _ (Keeps.elim ?_) | refine KeepsTo.setFlash _ (Keeps.elim ?_) | refine KeepsTo.setPwr _ _ _ (Keeps.elim ?_))
    | (apply Keeps.of_pair; with_reducible assumption)
    | split
    | dsimp only

theorem Keeps.creditGrant {μ φ π : Bool} {σ τ : State} (n : Nat) (hk : Keeps μ φ π σ τ) : Keeps μ φ π σ (τ.creditGrant n) := by
  unfold State.creditGrant
  try dsimp only
  repeat' first
    | with_reducible assumption
    | with_reducible apply Keeps.creditRoute
    | with_reducible apply Keeps.modAgent
    | with_reducible apply Keeps.modAtt
    | with_reducible refine Keeps.ite (fun _ => ?_) (fun _ => ?_)
    | with_reducible refine Keeps.ite1 (fun _ => ?_) (fun _ => ?_)
    | (refine Keeps.intro ?_; dsimp only; with_reducible first | refine Keeps.elim ?_ | refine KeepsTo.write _ _ (Keeps.elim ?_) | refine KeepsTo.clear _ _ (Keeps.elim ?_) | refine KeepsTo.putAt _ _ (Keeps.elim ?_) | refine KeepsTo.map _ (Keeps.elim ?_) | refine KeepsTo.filter _ (Keeps.elim ?_) | refine KeepsTo.setFlash _ (Keeps.elim ?_) | refine KeepsTo.setPwr _ _ _ (Keeps.elim ?_))
    | (apply Keeps.of_pair; with_reducible assumption)
    | split
    | dsimp only

end Sys2Proof.Machine
end

