-- ==== Sys2Proof/Laws/KeepsRingStep.lean ====
section
/-!
SUPPORT. What `Keeps` says, of the operations of Sys2Proof/Machine/RingStep.lean: one lemma each, with the operation applied last.
-/

set_option linter.unusedTactic false
set_option linter.unreachableTactic false

namespace Sys2Proof.Machine

theorem Keeps.stepCheck {μ φ π : Bool} {σ τ : State} (p c : Nat) (desc : List Byte) (hk : Keeps μ φ π σ τ) : Keeps μ φ π σ (τ.stepCheck p c desc).1 := by
  unfold State.stepCheck
  try dsimp only
  repeat' first
    | with_reducible assumption
    | with_reducible apply Keeps.anyRead
    | with_reducible refine Keeps.ite (fun _ => ?_) (fun _ => ?_)
    | with_reducible refine Keeps.ite1 (fun _ => ?_) (fun _ => ?_)
    | (refine Keeps.intro ?_; dsimp only; with_reducible first | refine Keeps.elim ?_ | refine KeepsTo.write _ _ (Keeps.elim ?_) | refine KeepsTo.clear _ _ (Keeps.elim ?_) | refine KeepsTo.putAt _ _ (Keeps.elim ?_) | refine KeepsTo.map _ (Keeps.elim ?_) | refine KeepsTo.filter _ (Keeps.elim ?_) | refine KeepsTo.setFlash _ (Keeps.elim ?_) | refine KeepsTo.setPwr _ _ _ (Keeps.elim ?_))
    | (apply Keeps.of_pair; with_reducible assumption)
    | split
    | dsimp only

theorem Keeps.stepStart {μ φ π : Bool} {σ τ : State} (p c : Nat) (desc : List Byte) (hk : Keeps μ φ π σ τ) : Keeps μ φ π σ (τ.stepStart p c desc) := by
  unfold State.stepStart
  try dsimp only
  repeat' first
    | with_reducible assumption
    | with_reducible apply Keeps.modMemb
    | with_reducible apply Keeps.stepCheck
    | with_reducible apply Keeps.stepRecord
    | with_reducible refine Keeps.ite (fun _ => ?_) (fun _ => ?_)
    | with_reducible refine Keeps.ite1 (fun _ => ?_) (fun _ => ?_)
    | (refine Keeps.intro ?_; dsimp only; with_reducible first | refine Keeps.elim ?_ | refine KeepsTo.write _ _ (Keeps.elim ?_) | refine KeepsTo.clear _ _ (Keeps.elim ?_) | refine KeepsTo.putAt _ _ (Keeps.elim ?_) | refine KeepsTo.map _ (Keeps.elim ?_) | refine KeepsTo.filter _ (Keeps.elim ?_) | refine KeepsTo.setFlash _ (Keeps.elim ?_) | refine KeepsTo.setPwr _ _ _ (Keeps.elim ?_))
    | (apply Keeps.of_pair; with_reducible assumption)
    | split
    | dsimp only

theorem Keeps.ownValues {μ φ π : Bool} {σ τ : State} (b : Nat) (t : Step) (q : PStep) (l first n : Nat) (hk : Keeps μ φ π σ τ) : Keeps μ φ π σ (τ.ownValues b t q l first n).1 := by
  unfold State.ownValues
  try dsimp only
  repeat' first
    | with_reducible assumption
    | with_reducible apply Keeps.reqRead
    | with_reducible refine Keeps.foldl ?_ fun _ _ _ => ?_
    | with_reducible refine Keeps.foldlP ?_ fun _ _ _ => ?_
    | with_reducible refine Keeps.ite (fun _ => ?_) (fun _ => ?_)
    | with_reducible refine Keeps.ite1 (fun _ => ?_) (fun _ => ?_)
    | (refine Keeps.intro ?_; dsimp only; with_reducible first | refine Keeps.elim ?_ | refine KeepsTo.write _ _ (Keeps.elim ?_) | refine KeepsTo.clear _ _ (Keeps.elim ?_) | refine KeepsTo.putAt _ _ (Keeps.elim ?_) | refine KeepsTo.map _ (Keeps.elim ?_) | refine KeepsTo.filter _ (Keeps.elim ?_) | refine KeepsTo.setFlash _ (Keeps.elim ?_) | refine KeepsTo.setPwr _ _ _ (Keeps.elim ?_))
    | (apply Keeps.of_pair; with_reducible assumption)
    | split
    | dsimp only

theorem Keeps.workWrite {φ π : Bool} {σ τ : State} (b : Nat) (t : Step) (q : PStep) (first : Nat) (v : List W32) (hk : Keeps false φ π σ τ) : Keeps false φ π σ (τ.workWrite b t q first v).1 := by
  unfold State.workWrite
  try dsimp only
  repeat' first
    | with_reducible assumption
    | with_reducible apply Keeps.reqWrite
    | with_reducible refine Keeps.ite (fun _ => ?_) (fun _ => ?_)
    | with_reducible refine Keeps.ite1 (fun _ => ?_) (fun _ => ?_)
    | (refine Keeps.intro ?_; dsimp only; with_reducible first | refine Keeps.elim ?_ | refine KeepsTo.write _ _ (Keeps.elim ?_) | refine KeepsTo.clear _ _ (Keeps.elim ?_) | refine KeepsTo.putAt _ _ (Keeps.elim ?_) | refine KeepsTo.map _ (Keeps.elim ?_) | refine KeepsTo.filter _ (Keeps.elim ?_) | refine KeepsTo.setFlash _ (Keeps.elim ?_) | refine KeepsTo.setPwr _ _ _ (Keeps.elim ?_))
    | (apply Keeps.of_pair; with_reducible assumption)
    | split
    | dsimp only

theorem Keeps.reconstruct {φ π : Bool} {σ τ : State} (t : Step) (first n : Nat) (f : W32 → Nat → W32) (hk : Keeps false φ π σ τ) : Keeps false φ π σ (τ.reconstruct t first n f).1 := by
  unfold State.reconstruct
  try dsimp only
  repeat' first
    | with_reducible assumption
    | with_reducible apply Keeps.reqRead
    | with_reducible apply Keeps.reqWrite
    | with_reducible refine Keeps.foldl ?_ fun _ _ _ => ?_
    | with_reducible refine Keeps.foldlP ?_ fun _ _ _ => ?_
    | with_reducible refine Keeps.ite (fun _ => ?_) (fun _ => ?_)
    | with_reducible refine Keeps.ite1 (fun _ => ?_) (fun _ => ?_)
    | (refine Keeps.intro ?_; dsimp only; with_reducible first | refine Keeps.elim ?_ | refine KeepsTo.write _ _ (Keeps.elim ?_) | refine KeepsTo.clear _ _ (Keeps.elim ?_) | refine KeepsTo.putAt _ _ (Keeps.elim ?_) | refine KeepsTo.map _ (Keeps.elim ?_) | refine KeepsTo.filter _ (Keeps.elim ?_) | refine KeepsTo.setFlash _ (Keeps.elim ?_) | refine KeepsTo.setPwr _ _ _ (Keeps.elim ?_))
    | (apply Keeps.of_pair; with_reducible assumption)
    | split
    | dsimp only

theorem Keeps.shardNorm {μ φ π : Bool} {σ τ : State} (b : Nat) (t : Step) (q : PStep) (levels : Nat) (hk : Keeps μ φ π σ τ) : Keeps μ φ π σ (τ.shardNorm b t q levels).1 := by
  unfold State.shardNorm
  try dsimp only
  repeat' first
    | with_reducible assumption
    | with_reducible apply Keeps.ownValues
    | with_reducible refine Keeps.foldl ?_ fun _ _ _ => ?_
    | with_reducible refine Keeps.foldlP ?_ fun _ _ _ => ?_
    | with_reducible refine Keeps.ite (fun _ => ?_) (fun _ => ?_)
    | with_reducible refine Keeps.ite1 (fun _ => ?_) (fun _ => ?_)
    | (refine Keeps.intro ?_; dsimp only; with_reducible first | refine Keeps.elim ?_ | refine KeepsTo.write _ _ (Keeps.elim ?_) | refine KeepsTo.clear _ _ (Keeps.elim ?_) | refine KeepsTo.putAt _ _ (Keeps.elim ?_) | refine KeepsTo.map _ (Keeps.elim ?_) | refine KeepsTo.filter _ (Keeps.elim ?_) | refine KeepsTo.setFlash _ (Keeps.elim ?_) | refine KeepsTo.setPwr _ _ _ (Keeps.elim ?_))
    | (apply Keeps.of_pair; with_reducible assumption)
    | split
    | dsimp only

theorem Keeps.normStart {μ φ π : Bool} {σ τ : State} (c : Nat) (hk : Keeps μ φ π σ τ) : Keeps μ φ π σ (τ.normStart c) := by
  unfold State.normStart
  try dsimp only
  repeat' first
    | with_reducible assumption
    | with_reducible apply Keeps.modStep
    | with_reducible apply Keeps.normRun
    | with_reducible apply Keeps.shardNorm
    | with_reducible apply Keeps.stepFail
    | with_reducible refine Keeps.foldl ?_ fun _ _ _ => ?_
    | with_reducible refine Keeps.foldlP ?_ fun _ _ _ => ?_
    | with_reducible refine Keeps.ite (fun _ => ?_) (fun _ => ?_)
    | with_reducible refine Keeps.ite1 (fun _ => ?_) (fun _ => ?_)
    | (refine Keeps.intro ?_; dsimp only; with_reducible first | refine Keeps.elim ?_ | refine KeepsTo.write _ _ (Keeps.elim ?_) | refine KeepsTo.clear _ _ (Keeps.elim ?_) | refine KeepsTo.putAt _ _ (Keeps.elim ?_) | refine KeepsTo.map _ (Keeps.elim ?_) | refine KeepsTo.filter _ (Keeps.elim ?_) | refine KeepsTo.setFlash _ (Keeps.elim ?_) | refine KeepsTo.setPwr _ _ _ (Keeps.elim ?_))
    | (apply Keeps.of_pair; with_reducible assumption)
    | split
    | dsimp only

theorem Keeps.stepNext {μ φ π : Bool} {σ τ : State} (c : Nat) (hk : Keeps μ φ π σ τ) : Keeps μ φ π σ (τ.stepNext c) :=
  Keeps.stepBar _ (Keeps.normStart _ hk)

theorem Keeps.stepDescriptor {μ φ π : Bool} {σ τ : State} (b : Nat) (hk : Keeps μ φ π σ τ) : Keeps μ φ π σ (τ.stepDescriptor b) := by
  unfold State.stepDescriptor
  try dsimp only
  repeat' first
    | with_reducible assumption
    | with_reducible apply Keeps.edgeTaken
    | with_reducible apply Keeps.modMemb
    | with_reducible apply Keeps.notify
    | with_reducible apply Keeps.stepStart
    | with_reducible refine Keeps.foldl ?_ fun _ _ _ => ?_
    | with_reducible refine Keeps.foldlP ?_ fun _ _ _ => ?_
    | with_reducible refine Keeps.ite (fun _ => ?_) (fun _ => ?_)
    | with_reducible refine Keeps.ite1 (fun _ => ?_) (fun _ => ?_)
    | (refine Keeps.intro ?_; dsimp only; with_reducible first | refine Keeps.elim ?_ | refine KeepsTo.write _ _ (Keeps.elim ?_) | refine KeepsTo.clear _ _ (Keeps.elim ?_) | refine KeepsTo.putAt _ _ (Keeps.elim ?_) | refine KeepsTo.map _ (Keeps.elim ?_) | refine KeepsTo.filter _ (Keeps.elim ?_) | refine KeepsTo.setFlash _ (Keeps.elim ?_) | refine KeepsTo.setPwr _ _ _ (Keeps.elim ?_))
    | (apply Keeps.of_pair; with_reducible assumption)
    | split
    | dsimp only

theorem Keeps.sumDone {φ π : Bool} {σ τ : State} (c b l first : Nat) (v : List W32) (hk : Keeps false φ π σ τ) : Keeps false φ π σ (τ.sumDone c b l first v) := by
  unfold State.sumDone
  try dsimp only
  repeat' first
    | with_reducible assumption
    | with_reducible apply Keeps.modPStep
    | with_reducible apply Keeps.stepFail
    | with_reducible apply Keeps.stepNext
    | with_reducible apply Keeps.workWrite
    | with_reducible refine Keeps.ite (fun _ => ?_) (fun _ => ?_)
    | with_reducible refine Keeps.ite1 (fun _ => ?_) (fun _ => ?_)
    | (refine Keeps.intro ?_; dsimp only; with_reducible first | refine Keeps.elim ?_ | refine KeepsTo.write _ _ (Keeps.elim ?_) | refine KeepsTo.clear _ _ (Keeps.elim ?_) | refine KeepsTo.putAt _ _ (Keeps.elim ?_) | refine KeepsTo.map _ (Keeps.elim ?_) | refine KeepsTo.filter _ (Keeps.elim ?_) | refine KeepsTo.setFlash _ (Keeps.elim ?_) | refine KeepsTo.setPwr _ _ _ (Keeps.elim ?_))
    | (apply Keeps.of_pair; with_reducible assumption)
    | split
    | dsimp only

theorem Keeps.chainSend {φ π : Bool} {σ τ : State} (c b l : Nat) (hk : Keeps false φ π σ τ) : Keeps false φ π σ (τ.chainSend c b l).1 := by
  unfold State.chainSend
  try dsimp only
  repeat' first
    | with_reducible assumption
    | with_reducible apply Keeps.modPStep
    | with_reducible apply Keeps.ownValues
    | with_reducible apply Keeps.stepFail
    | with_reducible apply Keeps.stepNext
    | with_reducible apply Keeps.streamSend
    | with_reducible apply Keeps.sumDone
    | with_reducible refine Keeps.ite (fun _ => ?_) (fun _ => ?_)
    | with_reducible refine Keeps.ite1 (fun _ => ?_) (fun _ => ?_)
    | (refine Keeps.intro ?_; dsimp only; with_reducible first | refine Keeps.elim ?_ | refine KeepsTo.write _ _ (Keeps.elim ?_) | refine KeepsTo.clear _ _ (Keeps.elim ?_) | refine KeepsTo.putAt _ _ (Keeps.elim ?_) | refine KeepsTo.map _ (Keeps.elim ?_) | refine KeepsTo.filter _ (Keeps.elim ?_) | refine KeepsTo.setFlash _ (Keeps.elim ?_) | refine KeepsTo.setPwr _ _ _ (Keeps.elim ?_))
    | (apply Keeps.of_pair; with_reducible assumption)
    | split
    | dsimp only

theorem Keeps.spreadSend {μ φ π : Bool} {σ τ : State} (c b l type : Nat) (ring last : Bool) (arg0 count : Nat) (body : List Byte) (hk : Keeps μ φ π σ τ) : Keeps μ φ π σ (τ.spreadSend c b l type ring last arg0 count body) := by
  unfold State.spreadSend
  try dsimp only
  repeat' first
    | with_reducible assumption
    | with_reducible apply Keeps.streamSend
    | with_reducible refine Keeps.foldl ?_ fun _ _ _ => ?_
    | with_reducible refine Keeps.foldlP ?_ fun _ _ _ => ?_
    | with_reducible refine Keeps.ite (fun _ => ?_) (fun _ => ?_)
    | with_reducible refine Keeps.ite1 (fun _ => ?_) (fun _ => ?_)
    | (refine Keeps.intro ?_; dsimp only; with_reducible first | refine Keeps.elim ?_ | refine KeepsTo.write _ _ (Keeps.elim ?_) | refine KeepsTo.clear _ _ (Keeps.elim ?_) | refine KeepsTo.putAt _ _ (Keeps.elim ?_) | refine KeepsTo.map _ (Keeps.elim ?_) | refine KeepsTo.filter _ (Keeps.elim ?_) | refine KeepsTo.setFlash _ (Keeps.elim ?_) | refine KeepsTo.setPwr _ _ _ (Keeps.elim ?_))
    | (apply Keeps.of_pair; with_reducible assumption)
    | split
    | dsimp only

theorem Keeps.pieceSend {μ φ π : Bool} {σ τ : State} (c b l : Nat) (hk : Keeps μ φ π σ τ) : Keeps μ φ π σ (τ.pieceSend c b l).1 := by
  unfold State.pieceSend
  try dsimp only
  repeat' first
    | with_reducible assumption
    | with_reducible apply Keeps.modPStep
    | with_reducible apply Keeps.reqRead
    | with_reducible apply Keeps.spreadSend
    | with_reducible apply Keeps.stepFail
    | with_reducible refine Keeps.ite (fun _ => ?_) (fun _ => ?_)
    | with_reducible refine Keeps.ite1 (fun _ => ?_) (fun _ => ?_)
    | (refine Keeps.intro ?_; dsimp only; with_reducible first | refine Keeps.elim ?_ | refine KeepsTo.write _ _ (Keeps.elim ?_) | refine KeepsTo.clear _ _ (Keeps.elim ?_) | refine KeepsTo.putAt _ _ (Keeps.elim ?_) | refine KeepsTo.map _ (Keeps.elim ?_) | refine KeepsTo.filter _ (Keeps.elim ?_) | refine KeepsTo.setFlash _ (Keeps.elim ?_) | refine KeepsTo.setPwr _ _ _ (Keeps.elim ?_))
    | (apply Keeps.of_pair; with_reducible assumption)
    | split
    | dsimp only

/-- Attempts in order, the first that does something: what each keeps, all keep. -/
theorem Keeps.tries {φ π : Bool} {σ : State} {fs : List (State → State × Bool)} (hf : ∀ f ∈ fs, ∀ u, Keeps false φ π σ u → Keeps false φ π σ (f u).1) {a : State × Bool}
    (h : Keeps false φ π σ a.1) : Keeps false φ π σ (fs.foldl (fun (acc : State × Bool) (f : State → State × Bool) => if acc.2 then acc else f acc.1) a).1 := by
  induction fs generalizing a with
  | nil => exact h
  | cons f fs ih =>
    refine ih (fun g hg => hf g (List.mem_cons_of_mem _ hg)) ?_
    exact Keeps.ite1 (fun _ => h) fun _ => hf f List.mem_cons_self _ h

theorem Keeps.requester {φ π : Bool} {σ τ : State} (c b : Nat) (write : Bool) (hk : Keeps false φ π σ τ) : Keeps false φ π σ (τ.requester c b write) := by
  unfold State.requester
  dsimp only
  split
  · exact Keeps.stepNext _ (Keeps.modPStep _ _ _ hk)
  · refine Keeps.tries (fun f hf u hu => ?_) hk
    have hm : f ∈ ([fun s => s.chainSend c b 1, fun s => s.chainSend c b 2, fun s => s.chainSend c b 3,
        fun s => s.pieceSend c b 3, fun s => s.pieceSend c b 2, fun s => s.pieceSend c b 1] : List (State → State × Bool)) := by
      rcases List.mem_append.mp hf with h | h
      · exact List.mem_of_mem_take (List.mem_of_mem_take h)
      · exact List.mem_of_mem_drop (List.mem_of_mem_drop h)
    simp only [List.mem_cons, List.not_mem_nil, or_false] at hm
    rcases hm with rfl | rfl | rfl | rfl | rfl | rfl
    · exact Keeps.chainSend _ _ _ hu
    · exact Keeps.chainSend _ _ _ hu
    · exact Keeps.chainSend _ _ _ hu
    · exact Keeps.pieceSend _ _ _ hu
    · exact Keeps.pieceSend _ _ _ hu
    · exact Keeps.pieceSend _ _ _ hu

theorem Keeps.accepted {μ φ π : Bool} {σ τ : State} (c b phase type lvl step : Nat) (last : Bool) (e : RingEnt) (hk : Keeps μ φ π σ τ) : Keeps μ φ π σ (τ.accepted c b phase type lvl step last e) := by
  unfold State.accepted
  try dsimp only
  repeat' first
    | with_reducible assumption
    | with_reducible apply Keeps.modPStep
    | with_reducible apply Keeps.ringAck
    | with_reducible refine Keeps.ite (fun _ => ?_) (fun _ => ?_)
    | with_reducible refine Keeps.ite1 (fun _ => ?_) (fun _ => ?_)
    | (refine Keeps.intro ?_; dsimp only; with_reducible first | refine Keeps.elim ?_ | refine KeepsTo.write _ _ (Keeps.elim ?_) | refine KeepsTo.clear _ _ (Keeps.elim ?_) | refine KeepsTo.putAt _ _ (Keeps.elim ?_) | refine KeepsTo.map _ (Keeps.elim ?_) | refine KeepsTo.filter _ (Keeps.elim ?_) | refine KeepsTo.setFlash _ (Keeps.elim ?_) | refine KeepsTo.setPwr _ _ _ (Keeps.elim ?_))
    | (apply Keeps.of_pair; with_reducible assumption)
    | split
    | dsimp only

theorem Keeps.inStep {μ φ π : Bool} {σ τ : State} (c b phase : Nat) (f : RingF) (e : RingEnt) (k : State → Step → PStep → State) (hf : ∀ u t q, Keeps μ φ π σ u → Keeps μ φ π σ (k u t q)) (hk : Keeps μ φ π σ τ) : Keeps μ φ π σ (τ.inStep c b phase f e k) := by
  unfold State.inStep
  try dsimp only
  repeat' first
    | with_reducible assumption
    | with_reducible apply Keeps.ringAck
    | with_reducible apply Keeps.ringReject
    | apply hf
    | with_reducible refine Keeps.ite (fun _ => ?_) (fun _ => ?_)
    | with_reducible refine Keeps.ite1 (fun _ => ?_) (fun _ => ?_)
    | (refine Keeps.intro ?_; dsimp only; with_reducible first | refine Keeps.elim ?_ | refine KeepsTo.write _ _ (Keeps.elim ?_) | refine KeepsTo.clear _ _ (Keeps.elim ?_) | refine KeepsTo.putAt _ _ (Keeps.elim ?_) | refine KeepsTo.map _ (Keeps.elim ?_) | refine KeepsTo.filter _ (Keeps.elim ?_) | refine KeepsTo.setFlash _ (Keeps.elim ?_) | refine KeepsTo.setPwr _ _ _ (Keeps.elim ?_))
    | (apply Keeps.of_pair; with_reducible assumption)
    | split
    | dsimp only

theorem Keeps.redFrame {φ π : Bool} {σ τ : State} (b : Nat) (d : Dgram) (hk : Keeps false φ π σ τ) : Keeps false φ π σ (τ.redFrame b d) := by
  unfold State.redFrame
  try dsimp only
  repeat' first
    | with_reducible assumption
    | with_reducible apply Keeps.accepted
    | with_reducible apply Keeps.inStep
    | with_reducible apply Keeps.modPStep
    | with_reducible apply Keeps.ownValues
    | with_reducible apply Keeps.ringFrame
    | with_reducible apply Keeps.ringReject
    | with_reducible apply Keeps.stepFail
    | with_reducible apply Keeps.stepNext
    | with_reducible apply Keeps.streamSend
    | with_reducible apply Keeps.sumDone
    | intro _
    | with_reducible refine Keeps.ite (fun _ => ?_) (fun _ => ?_)
    | with_reducible refine Keeps.ite1 (fun _ => ?_) (fun _ => ?_)
    | (refine Keeps.intro ?_; dsimp only; with_reducible first | refine Keeps.elim ?_ | refine KeepsTo.write _ _ (Keeps.elim ?_) | refine KeepsTo.clear _ _ (Keeps.elim ?_) | refine KeepsTo.putAt _ _ (Keeps.elim ?_) | refine KeepsTo.map _ (Keeps.elim ?_) | refine KeepsTo.filter _ (Keeps.elim ?_) | refine KeepsTo.setFlash _ (Keeps.elim ?_) | refine KeepsTo.setPwr _ _ _ (Keeps.elim ?_))
    | (apply Keeps.of_pair; with_reducible assumption)
    | split
    | dsimp only

theorem Keeps.spreadFrame {φ π : Bool} {σ τ : State} (c b : Nat) (tab : RingTab) (f : RingF) (full : Bool) (body : List Byte) (values : Nat → List W32) (hk : Keeps false φ π σ τ) : Keeps false φ π σ (τ.spreadFrame c b tab f full body values) := by
  unfold State.spreadFrame
  try dsimp only
  repeat' first
    | with_reducible assumption
    | with_reducible apply Keeps.accepted
    | with_reducible apply Keeps.inStep
    | with_reducible apply Keeps.modPStep
    | with_reducible apply Keeps.reconstruct
    | with_reducible apply Keeps.reqWrite
    | with_reducible apply Keeps.ringReject
    | with_reducible apply Keeps.spreadSend
    | with_reducible apply Keeps.stepFail
    | with_reducible apply Keeps.stepNext
    | with_reducible apply Keeps.workWrite
    | intro _
    | with_reducible refine Keeps.ite (fun _ => ?_) (fun _ => ?_)
    | with_reducible refine Keeps.ite1 (fun _ => ?_) (fun _ => ?_)
    | (refine Keeps.intro ?_; dsimp only; with_reducible first | refine Keeps.elim ?_ | refine KeepsTo.write _ _ (Keeps.elim ?_) | refine KeepsTo.clear _ _ (Keeps.elim ?_) | refine KeepsTo.putAt _ _ (Keeps.elim ?_) | refine KeepsTo.map _ (Keeps.elim ?_) | refine KeepsTo.filter _ (Keeps.elim ?_) | refine KeepsTo.setFlash _ (Keeps.elim ?_) | refine KeepsTo.setPwr _ _ _ (Keeps.elim ?_))
    | (apply Keeps.of_pair; with_reducible assumption)
    | split
    | dsimp only

theorem Keeps.bccFrame {φ π : Bool} {σ τ : State} (b : Nat) (d : Dgram) (hk : Keeps false φ π σ τ) : Keeps false φ π σ (τ.bccFrame b d) := by
  unfold State.bccFrame
  try dsimp only
  repeat' first
    | with_reducible assumption
    | with_reducible apply Keeps.ringFrame
    | with_reducible apply Keeps.ringReject
    | with_reducible apply Keeps.spreadFrame
    | intro _
    | with_reducible refine Keeps.ite (fun _ => ?_) (fun _ => ?_)
    | with_reducible refine Keeps.ite1 (fun _ => ?_) (fun _ => ?_)
    | (refine Keeps.intro ?_; dsimp only; with_reducible first | refine Keeps.elim ?_ | refine KeepsTo.write _ _ (Keeps.elim ?_) | refine KeepsTo.clear _ _ (Keeps.elim ?_) | refine KeepsTo.putAt _ _ (Keeps.elim ?_) | refine KeepsTo.map _ (Keeps.elim ?_) | refine KeepsTo.filter _ (Keeps.elim ?_) | refine KeepsTo.setFlash _ (Keeps.elim ?_) | refine KeepsTo.setPwr _ _ _ (Keeps.elim ?_))
    | (apply Keeps.of_pair; with_reducible assumption)
    | split
    | dsimp only

theorem Keeps.bcfFrame {φ π : Bool} {σ τ : State} (b : Nat) (d : Dgram) (hk : Keeps false φ π σ τ) : Keeps false φ π σ (τ.bcfFrame b d) := by
  unfold State.bcfFrame
  try dsimp only
  repeat' first
    | with_reducible assumption
    | with_reducible apply Keeps.ringFrame
    | with_reducible apply Keeps.ringReject
    | with_reducible apply Keeps.spreadFrame
    | intro _
    | with_reducible refine Keeps.ite (fun _ => ?_) (fun _ => ?_)
    | with_reducible refine Keeps.ite1 (fun _ => ?_) (fun _ => ?_)
    | (refine Keeps.intro ?_; dsimp only; with_reducible first | refine Keeps.elim ?_ | refine KeepsTo.write _ _ (Keeps.elim ?_) | refine KeepsTo.clear _ _ (Keeps.elim ?_) | refine KeepsTo.putAt _ _ (Keeps.elim ?_) | refine KeepsTo.map _ (Keeps.elim ?_) | refine KeepsTo.filter _ (Keeps.elim ?_) | refine KeepsTo.setFlash _ (Keeps.elim ?_) | refine KeepsTo.setPwr _ _ _ (Keeps.elim ?_))
    | (apply Keeps.of_pair; with_reducible assumption)
    | split
    | dsimp only

theorem Keeps.ownerRestart {φ π : Bool} {σ τ : State} (t : Step) (at_ : Nat) (sh : Nat × Nat) (fresh : Bool) (hk : Keeps false φ π σ τ) : Keeps false φ π σ (τ.ownerRestart t at_ sh fresh).1 := by
  unfold State.ownerRestart
  try dsimp only
  repeat' first
    | with_reducible assumption
    | with_reducible apply Keeps.reqRead
    | with_reducible apply Keeps.reqWrite
    | with_reducible refine Keeps.foldl ?_ fun _ _ _ => ?_
    | with_reducible refine Keeps.foldlP ?_ fun _ _ _ => ?_
    | with_reducible refine Keeps.ite (fun _ => ?_) (fun _ => ?_)
    | with_reducible refine Keeps.ite1 (fun _ => ?_) (fun _ => ?_)
    | (refine Keeps.intro ?_; dsimp only; with_reducible first | refine Keeps.elim ?_ | refine KeepsTo.write _ _ (Keeps.elim ?_) | refine KeepsTo.clear _ _ (Keeps.elim ?_) | refine KeepsTo.putAt _ _ (Keeps.elim ?_) | refine KeepsTo.map _ (Keeps.elim ?_) | refine KeepsTo.filter _ (Keeps.elim ?_) | refine KeepsTo.setFlash _ (Keeps.elim ?_) | refine KeepsTo.setPwr _ _ _ (Keeps.elim ?_))
    | (apply Keeps.of_pair; with_reducible assumption)
    | split
    | dsimp only

theorem Keeps.ownerCase {φ π : Bool} {σ τ : State} (c b : Nat) (t : Step) (h : RingHdr) (q : PStep) (hk : Keeps false φ π σ τ) : Keeps false φ π σ (τ.ownerCase c b t h q).1 := by
  unfold State.ownerCase
  try dsimp only
  repeat' first
    | with_reducible assumption
    | with_reducible apply Keeps.modPStep
    | with_reducible apply Keeps.ownerRestart
    | with_reducible apply Keeps.reqRead
    | with_reducible apply Keeps.reqWrite
    | with_reducible apply Keeps.stepEvent
    | with_reducible apply Keeps.stepFail
    | with_reducible refine Keeps.ite (fun _ => ?_) (fun _ => ?_)
    | with_reducible refine Keeps.ite1 (fun _ => ?_) (fun _ => ?_)
    | (refine Keeps.intro ?_; dsimp only; with_reducible first | refine Keeps.elim ?_ | refine KeepsTo.write _ _ (Keeps.elim ?_) | refine KeepsTo.clear _ _ (Keeps.elim ?_) | refine KeepsTo.putAt _ _ (Keeps.elim ?_) | refine KeepsTo.map _ (Keeps.elim ?_) | refine KeepsTo.filter _ (Keeps.elim ?_) | refine KeepsTo.setFlash _ (Keeps.elim ?_) | refine KeepsTo.setPwr _ _ _ (Keeps.elim ?_))
    | (apply Keeps.of_pair; with_reducible assumption)
    | split
    | dsimp only

theorem Keeps.updateBlock {φ π : Bool} {σ τ : State} (c b : Nat) (hk : Keeps false φ π σ τ) : Keeps false φ π σ (τ.updateBlock c b) := by
  unfold State.updateBlock
  try dsimp only
  repeat' first
    | with_reducible assumption
    | with_reducible apply Keeps.modPStep
    | with_reducible apply Keeps.ownValues
    | with_reducible apply Keeps.ownerCase
    | with_reducible apply Keeps.reconstruct
    | with_reducible apply Keeps.reqRead
    | with_reducible apply Keeps.reqWrite
    | with_reducible apply Keeps.stepFail
    | with_reducible apply Keeps.stepNext
    | with_reducible apply Keeps.workWrite
    | with_reducible refine Keeps.ite (fun _ => ?_) (fun _ => ?_)
    | with_reducible refine Keeps.ite1 (fun _ => ?_) (fun _ => ?_)
    | (refine Keeps.intro ?_; dsimp only; with_reducible first | refine Keeps.elim ?_ | refine KeepsTo.write _ _ (Keeps.elim ?_) | refine KeepsTo.clear _ _ (Keeps.elim ?_) | refine KeepsTo.putAt _ _ (Keeps.elim ?_) | refine KeepsTo.map _ (Keeps.elim ?_) | refine KeepsTo.filter _ (Keeps.elim ?_) | refine KeepsTo.setFlash _ (Keeps.elim ?_) | refine KeepsTo.setPwr _ _ _ (Keeps.elim ?_))
    | (apply Keeps.of_pair; with_reducible assumption)
    | split
    | dsimp only

theorem Keeps.ackFrame {μ φ π : Bool} {σ τ : State} (b : Nat) (d : Dgram) (hk : Keeps μ φ π σ τ) : Keeps μ φ π σ (τ.ackFrame b d) := by
  unfold State.ackFrame
  try dsimp only
  repeat' first
    | with_reducible assumption
    | with_reducible apply Keeps.barNext
    | with_reducible apply Keeps.modMemb
    | with_reducible apply Keeps.modPStep
    | with_reducible apply Keeps.modStep
    | with_reducible apply Keeps.ringFrame
    | with_reducible apply Keeps.ringReject
    | with_reducible apply Keeps.transmit
    | with_reducible refine Keeps.foldl ?_ fun _ _ _ => ?_
    | with_reducible refine Keeps.foldlP ?_ fun _ _ _ => ?_
    | intro _
    | with_reducible refine Keeps.ite (fun _ => ?_) (fun _ => ?_)
    | with_reducible refine Keeps.ite1 (fun _ => ?_) (fun _ => ?_)
    | (refine Keeps.intro ?_; dsimp only; with_reducible first | refine Keeps.elim ?_ | refine KeepsTo.write _ _ (Keeps.elim ?_) | refine KeepsTo.clear _ _ (Keeps.elim ?_) | refine KeepsTo.putAt _ _ (Keeps.elim ?_) | refine KeepsTo.map _ (Keeps.elim ?_) | refine KeepsTo.filter _ (Keeps.elim ?_) | refine KeepsTo.setFlash _ (Keeps.elim ?_) | refine KeepsTo.setPwr _ _ _ (Keeps.elim ?_))
    | (apply Keeps.of_pair; with_reducible assumption)
    | split
    | dsimp only

theorem Keeps.ringResend {μ φ π : Bool} {σ τ : State} (c b phase lvl peer : Nat) (hk : Keeps μ φ π σ τ) : Keeps μ φ π σ (τ.ringResend c b phase lvl peer) := by
  unfold State.ringResend
  try dsimp only
  repeat' first
    | with_reducible assumption
    | with_reducible apply Keeps.modMemb
    | with_reducible apply Keeps.modPStep
    | with_reducible apply Keeps.stepFail
    | with_reducible apply Keeps.transmit
    | with_reducible refine Keeps.foldl ?_ fun _ _ _ => ?_
    | with_reducible refine Keeps.foldlP ?_ fun _ _ _ => ?_
    | with_reducible refine Keeps.ite (fun _ => ?_) (fun _ => ?_)
    | with_reducible refine Keeps.ite1 (fun _ => ?_) (fun _ => ?_)
    | (refine Keeps.intro ?_; dsimp only; with_reducible first | refine Keeps.elim ?_ | refine KeepsTo.write _ _ (Keeps.elim ?_) | refine KeepsTo.clear _ _ (Keeps.elim ?_) | refine KeepsTo.putAt _ _ (Keeps.elim ?_) | refine KeepsTo.map _ (Keeps.elim ?_) | refine KeepsTo.filter _ (Keeps.elim ?_) | refine KeepsTo.setFlash _ (Keeps.elim ?_) | refine KeepsTo.setPwr _ _ _ (Keeps.elim ?_))
    | (apply Keeps.of_pair; with_reducible assumption)
    | split
    | dsimp only

theorem Keeps.ringTimeout {μ φ π : Bool} {σ τ : State} (c : Nat) (hk : Keeps μ φ π σ τ) : Keeps μ φ π σ (τ.ringTimeout c) := by
  unfold State.ringTimeout
  try dsimp only
  repeat' first
    | with_reducible assumption
    | with_reducible apply Keeps.stepFail
    | with_reducible refine Keeps.ite (fun _ => ?_) (fun _ => ?_)
    | with_reducible refine Keeps.ite1 (fun _ => ?_) (fun _ => ?_)
    | (refine Keeps.intro ?_; dsimp only; with_reducible first | refine Keeps.elim ?_ | refine KeepsTo.write _ _ (Keeps.elim ?_) | refine KeepsTo.clear _ _ (Keeps.elim ?_) | refine KeepsTo.putAt _ _ (Keeps.elim ?_) | refine KeepsTo.map _ (Keeps.elim ?_) | refine KeepsTo.filter _ (Keeps.elim ?_) | refine KeepsTo.setFlash _ (Keeps.elim ?_) | refine KeepsTo.setPwr _ _ _ (Keeps.elim ?_))
    | (apply Keeps.of_pair; with_reducible assumption)
    | split
    | dsimp only

theorem Keeps.stepEnd {φ π : Bool} {σ τ : State} (c : Nat) (hk : Keeps false φ π σ τ) : Keeps false φ π σ (τ.stepEnd c) := by
  unfold State.stepEnd
  try dsimp only
  repeat' first
    | with_reducible assumption
    | with_reducible apply Keeps.modMemb
    | with_reducible apply Keeps.reqWrite
    | with_reducible apply Keeps.setChipFlag
    | with_reducible apply Keeps.stepFail
    | with_reducible apply Keeps.stepRecord
    | with_reducible refine Keeps.foldl ?_ fun _ _ _ => ?_
    | with_reducible refine Keeps.foldlP ?_ fun _ _ _ => ?_
    | with_reducible refine Keeps.ite (fun _ => ?_) (fun _ => ?_)
    | with_reducible refine Keeps.ite1 (fun _ => ?_) (fun _ => ?_)
    | (refine Keeps.intro ?_; dsimp only; with_reducible first | refine Keeps.elim ?_ | refine KeepsTo.write _ _ (Keeps.elim ?_) | refine KeepsTo.clear _ _ (Keeps.elim ?_) | refine KeepsTo.putAt _ _ (Keeps.elim ?_) | refine KeepsTo.map _ (Keeps.elim ?_) | refine KeepsTo.filter _ (Keeps.elim ?_) | refine KeepsTo.setFlash _ (Keeps.elim ?_) | refine KeepsTo.setPwr _ _ _ (Keeps.elim ?_))
    | (apply Keeps.of_pair; with_reducible assumption)
    | split
    | dsimp only

theorem Keeps.stepDone {φ π : Bool} {σ τ : State} (c : Nat) (hk : Keeps false φ π σ τ) : Keeps false φ π σ (τ.stepDone c) := by
  unfold State.stepDone
  try dsimp only
  repeat' first
    | with_reducible assumption
    | with_reducible apply Keeps.stepEnd
    | with_reducible refine Keeps.ite (fun _ => ?_) (fun _ => ?_)
    | with_reducible refine Keeps.ite1 (fun _ => ?_) (fun _ => ?_)
    | (refine Keeps.intro ?_; dsimp only; with_reducible first | refine Keeps.elim ?_ | refine KeepsTo.write _ _ (Keeps.elim ?_) | refine KeepsTo.clear _ _ (Keeps.elim ?_) | refine KeepsTo.putAt _ _ (Keeps.elim ?_) | refine KeepsTo.map _ (Keeps.elim ?_) | refine KeepsTo.filter _ (Keeps.elim ?_) | refine KeepsTo.setFlash _ (Keeps.elim ?_) | refine KeepsTo.setPwr _ _ _ (Keeps.elim ?_))
    | (apply Keeps.of_pair; with_reducible assumption)
    | split
    | dsimp only

theorem Keeps.stepAbort {φ π : Bool} {σ τ : State} (c : Nat) (hk : Keeps false φ π σ τ) : Keeps false φ π σ (τ.stepAbort c).1 := by
  unfold State.stepAbort
  try dsimp only
  repeat' first
    | with_reducible assumption
    | with_reducible apply Keeps.stepEnd
    | with_reducible apply Keeps.stepFail
    | with_reducible refine Keeps.ite (fun _ => ?_) (fun _ => ?_)
    | with_reducible refine Keeps.ite1 (fun _ => ?_) (fun _ => ?_)
    | (refine Keeps.intro ?_; dsimp only; with_reducible first | refine Keeps.elim ?_ | refine KeepsTo.write _ _ (Keeps.elim ?_) | refine KeepsTo.clear _ _ (Keeps.elim ?_) | refine KeepsTo.putAt _ _ (Keeps.elim ?_) | refine KeepsTo.map _ (Keeps.elim ?_) | refine KeepsTo.filter _ (Keeps.elim ?_) | refine KeepsTo.setFlash _ (Keeps.elim ?_) | refine KeepsTo.setPwr _ _ _ (Keeps.elim ?_))
    | (apply Keeps.of_pair; with_reducible assumption)
    | split
    | dsimp only

theorem Keeps.writeRctl {φ π : Bool} {σ τ : State} (p m v : Nat) (hk : Keeps false φ π σ τ) : Keeps false φ π σ (τ.writeRctl p m v).1 := by
  unfold State.writeRctl
  try dsimp only
  repeat' first
    | with_reducible assumption
    | with_reducible apply Keeps.stepAbort
    | with_reducible refine Keeps.ite (fun _ => ?_) (fun _ => ?_)
    | with_reducible refine Keeps.ite1 (fun _ => ?_) (fun _ => ?_)
    | (refine Keeps.intro ?_; dsimp only; with_reducible first | refine Keeps.elim ?_ | refine KeepsTo.write _ _ (Keeps.elim ?_) | refine KeepsTo.clear _ _ (Keeps.elim ?_) | refine KeepsTo.putAt _ _ (Keeps.elim ?_) | refine KeepsTo.map _ (Keeps.elim ?_) | refine KeepsTo.filter _ (Keeps.elim ?_) | refine KeepsTo.setFlash _ (Keeps.elim ?_) | refine KeepsTo.setPwr _ _ _ (Keeps.elim ?_))
    | (apply Keeps.of_pair; with_reducible assumption)
    | split
    | dsimp only

end Sys2Proof.Machine
end

