-- ==== Sys2Proof/Laws/KeepsDataPort.lean ====
section
/-!
SUPPORT. What `Keeps` says, of the operations of Sys2Proof/Machine/DataPort.lean: one lemma each, with the operation applied last.
-/

set_option linter.unusedTactic false
set_option linter.unreachableTactic false

namespace Sys2Proof.Machine

theorem Keeps.dstat {μ φ π : Bool} {σ τ : State} (sid bid state code done : Nat) (hk : Keeps μ φ π σ τ) : Keeps μ φ π σ (τ.dstat sid bid state code done) := by
  unfold State.dstat
  try dsimp only
  repeat' first
    | with_reducible assumption
    | with_reducible apply Keeps.sendRel
    | with_reducible refine Keeps.ite (fun _ => ?_) (fun _ => ?_)
    | with_reducible refine Keeps.ite1 (fun _ => ?_) (fun _ => ?_)
    | (refine Keeps.intro ?_; dsimp only; with_reducible first | refine Keeps.elim ?_ | refine KeepsTo.write _ _ (Keeps.elim ?_) | refine KeepsTo.clear _ _ (Keeps.elim ?_) | refine KeepsTo.putAt _ _ (Keeps.elim ?_) | refine KeepsTo.map _ (Keeps.elim ?_) | refine KeepsTo.filter _ (Keeps.elim ?_) | refine KeepsTo.setFlash _ (Keeps.elim ?_) | refine KeepsTo.setPwr _ _ _ (Keeps.elim ?_))
    | (apply Keeps.of_pair; with_reducible assumption)
    | split
    | dsimp only

theorem Keeps.modBursts {μ φ π : Bool} {σ τ : State} (sid : Nat) (f : List Burst → List Burst) (hk : Keeps μ φ π σ τ) : Keeps μ φ π σ (τ.modBursts sid f) := by
  unfold State.modBursts
  try dsimp only
  repeat' first
    | with_reducible assumption
    | with_reducible apply Keeps.modSess
    | with_reducible refine Keeps.ite (fun _ => ?_) (fun _ => ?_)
    | with_reducible refine Keeps.ite1 (fun _ => ?_) (fun _ => ?_)
    | (refine Keeps.intro ?_; dsimp only; with_reducible first | refine Keeps.elim ?_ | refine KeepsTo.write _ _ (Keeps.elim ?_) | refine KeepsTo.clear _ _ (Keeps.elim ?_) | refine KeepsTo.putAt _ _ (Keeps.elim ?_) | refine KeepsTo.map _ (Keeps.elim ?_) | refine KeepsTo.filter _ (Keeps.elim ?_) | refine KeepsTo.setFlash _ (Keeps.elim ?_) | refine KeepsTo.setPwr _ _ _ (Keeps.elim ?_))
    | (apply Keeps.of_pair; with_reducible assumption)
    | split
    | dsimp only

theorem Keeps.burstEnd {μ φ π : Bool} {σ τ : State} (sid : Nat) (x : Burst) (state code : Nat) (hk : Keeps μ φ π σ τ) : Keeps μ φ π σ (τ.burstEnd sid x state code) := by
  unfold State.burstEnd
  try dsimp only
  repeat' first
    | with_reducible assumption
    | with_reducible apply Keeps.dstat
    | with_reducible apply Keeps.modBursts
    | with_reducible refine Keeps.ite (fun _ => ?_) (fun _ => ?_)
    | with_reducible refine Keeps.ite1 (fun _ => ?_) (fun _ => ?_)
    | (refine Keeps.intro ?_; dsimp only; with_reducible first | refine Keeps.elim ?_ | refine KeepsTo.write _ _ (Keeps.elim ?_) | refine KeepsTo.clear _ _ (Keeps.elim ?_) | refine KeepsTo.putAt _ _ (Keeps.elim ?_) | refine KeepsTo.map _ (Keeps.elim ?_) | refine KeepsTo.filter _ (Keeps.elim ?_) | refine KeepsTo.setFlash _ (Keeps.elim ?_) | refine KeepsTo.setPwr _ _ _ (Keeps.elim ?_))
    | (apply Keeps.of_pair; with_reducible assumption)
    | split
    | dsimp only

theorem Keeps.burstNext {μ φ π : Bool} {σ τ : State} (sid : Nat) (x : Burst) (hk : Keeps μ φ π σ τ) : Keeps μ φ π σ (τ.burstNext sid x) := by
  unfold State.burstNext
  try dsimp only
  repeat' first
    | with_reducible assumption
    | with_reducible apply Keeps.burstEnd
    | with_reducible apply Keeps.modBursts
    | with_reducible refine Keeps.ite (fun _ => ?_) (fun _ => ?_)
    | with_reducible refine Keeps.ite1 (fun _ => ?_) (fun _ => ?_)
    | (refine Keeps.intro ?_; dsimp only; with_reducible first | refine Keeps.elim ?_ | refine KeepsTo.write _ _ (Keeps.elim ?_) | refine KeepsTo.clear _ _ (Keeps.elim ?_) | refine KeepsTo.putAt _ _ (Keeps.elim ?_) | refine KeepsTo.map _ (Keeps.elim ?_) | refine KeepsTo.filter _ (Keeps.elim ?_) | refine KeepsTo.setFlash _ (Keeps.elim ?_) | refine KeepsTo.setPwr _ _ _ (Keeps.elim ?_))
    | (apply Keeps.of_pair; with_reducible assumption)
    | split
    | dsimp only

theorem Keeps.dopenAct {μ φ π : Bool} {σ τ : State} (sid : Nat) (b : List Byte) (hk : Keeps μ φ π σ τ) : Keeps μ φ π σ (τ.dopenAct sid b) := by
  unfold State.dopenAct
  try dsimp only
  repeat' first
    | with_reducible assumption
    | with_reducible apply Keeps.closeSession
    | with_reducible apply Keeps.dstat
    | with_reducible apply Keeps.modBursts
    | with_reducible refine Keeps.ite (fun _ => ?_) (fun _ => ?_)
    | with_reducible refine Keeps.ite1 (fun _ => ?_) (fun _ => ?_)
    | (refine Keeps.intro ?_; dsimp only; with_reducible first | refine Keeps.elim ?_ | refine KeepsTo.write _ _ (Keeps.elim ?_) | refine KeepsTo.clear _ _ (Keeps.elim ?_) | refine KeepsTo.putAt _ _ (Keeps.elim ?_) | refine KeepsTo.map _ (Keeps.elim ?_) | refine KeepsTo.filter _ (Keeps.elim ?_) | refine KeepsTo.setFlash _ (Keeps.elim ?_) | refine KeepsTo.setPwr _ _ _ (Keeps.elim ?_))
    | (apply Keeps.of_pair; with_reducible assumption)
    | split
    | dsimp only

theorem Keeps.chunkWrite {φ π : Bool} {σ τ : State} (p a : Nat) (bs : List Byte) (hk : Keeps false φ π σ τ) : Keeps false φ π σ (τ.chunkWrite p a bs) := by
  unfold State.chunkWrite
  try dsimp only
  repeat' first
    | with_reducible assumption
    | with_reducible apply Keeps.mend
    | with_reducible apply Keeps.reqWrite
    | with_reducible apply Keeps.viewWrite
    | with_reducible refine Keeps.ite (fun _ => ?_) (fun _ => ?_)
    | with_reducible refine Keeps.ite1 (fun _ => ?_) (fun _ => ?_)
    | (refine Keeps.intro ?_; dsimp only; with_reducible first | refine Keeps.elim ?_ | refine KeepsTo.write _ _ (Keeps.elim ?_) | refine KeepsTo.clear _ _ (Keeps.elim ?_) | refine KeepsTo.putAt _ _ (Keeps.elim ?_) | refine KeepsTo.map _ (Keeps.elim ?_) | refine KeepsTo.filter _ (Keeps.elim ?_) | refine KeepsTo.setFlash _ (Keeps.elim ?_) | refine KeepsTo.setPwr _ _ _ (Keeps.elim ?_))
    | (apply Keeps.of_pair; with_reducible assumption)
    | split
    | dsimp only

theorem Keeps.chunkRead {μ φ π : Bool} {σ τ : State} (p a n : Nat) (hk : Keeps μ φ π σ τ) : Keeps μ φ π σ (τ.chunkRead p a n).1 := by
  unfold State.chunkRead
  try dsimp only
  repeat' first
    | with_reducible assumption
    | with_reducible apply Keeps.anyRead
    | with_reducible apply Keeps.coreCorrected
    | with_reducible apply Keeps.coreUncorrectable
    | with_reducible refine Keeps.ite (fun _ => ?_) (fun _ => ?_)
    | with_reducible refine Keeps.ite1 (fun _ => ?_) (fun _ => ?_)
    | (refine Keeps.intro ?_; dsimp only; with_reducible first | refine Keeps.elim ?_ | refine KeepsTo.write _ _ (Keeps.elim ?_) | refine KeepsTo.clear _ _ (Keeps.elim ?_) | refine KeepsTo.putAt _ _ (Keeps.elim ?_) | refine KeepsTo.map _ (Keeps.elim ?_) | refine KeepsTo.filter _ (Keeps.elim ?_) | refine KeepsTo.setFlash _ (Keeps.elim ?_) | refine KeepsTo.setPwr _ _ _ (Keeps.elim ?_))
    | (apply Keeps.of_pair; with_reducible assumption)
    | split
    | dsimp only

theorem Keeps.dwriteAct {φ π : Bool} {σ τ : State} (sid : Nat) (b : List Byte) (hk : Keeps false φ π σ τ) : Keeps false φ π σ (τ.dwriteAct sid b) := by
  unfold State.dwriteAct
  try dsimp only
  repeat' first
    | with_reducible assumption
    | with_reducible apply Keeps.burstEnd
    | with_reducible apply Keeps.burstNext
    | with_reducible apply Keeps.chunkWrite
    | with_reducible apply Keeps.closeSession
    | with_reducible refine Keeps.ite (fun _ => ?_) (fun _ => ?_)
    | with_reducible refine Keeps.ite1 (fun _ => ?_) (fun _ => ?_)
    | (refine Keeps.intro ?_; dsimp only; with_reducible first | refine Keeps.elim ?_ | refine KeepsTo.write _ _ (Keeps.elim ?_) | refine KeepsTo.clear _ _ (Keeps.elim ?_) | refine KeepsTo.putAt _ _ (Keeps.elim ?_) | refine KeepsTo.map _ (Keeps.elim ?_) | refine KeepsTo.filter _ (Keeps.elim ?_) | refine KeepsTo.setFlash _ (Keeps.elim ?_) | refine KeepsTo.setPwr _ _ _ (Keeps.elim ?_))
    | (apply Keeps.of_pair; with_reducible assumption)
    | split
    | dsimp only

theorem Keeps.dread {μ φ π : Bool} {σ τ : State} (sid bid : Nat) (hk : Keeps μ φ π σ τ) : Keeps μ φ π σ (τ.dread sid bid) := by
  unfold State.dread
  try dsimp only
  repeat' first
    | with_reducible assumption
    | with_reducible apply Keeps.burstEnd
    | with_reducible apply Keeps.burstNext
    | with_reducible apply Keeps.chunkRead
    | with_reducible apply Keeps.paced
    | with_reducible apply Keeps.sendRel
    | with_reducible refine Keeps.ite (fun _ => ?_) (fun _ => ?_)
    | with_reducible refine Keeps.ite1 (fun _ => ?_) (fun _ => ?_)
    | (refine Keeps.intro ?_; dsimp only; with_reducible first | refine Keeps.elim ?_ | refine KeepsTo.write _ _ (Keeps.elim ?_) | refine KeepsTo.clear _ _ (Keeps.elim ?_) | refine KeepsTo.putAt _ _ (Keeps.elim ?_) | refine KeepsTo.map _ (Keeps.elim ?_) | refine KeepsTo.filter _ (Keeps.elim ?_) | refine KeepsTo.setFlash _ (Keeps.elim ?_) | refine KeepsTo.setPwr _ _ _ (Keeps.elim ?_))
    | (apply Keeps.of_pair; with_reducible assumption)
    | split
    | dsimp only

theorem Keeps.act {φ π : Bool} {σ τ : State} (sid type : Nat) (b : List Byte) (hk : Keeps false φ π σ τ) : Keeps false φ π σ (τ.act sid type b) := by
  unfold State.act
  try dsimp only
  repeat' first
    | with_reducible assumption
    | with_reducible apply Keeps.closeAct
    | with_reducible apply Keeps.dopenAct
    | with_reducible apply Keeps.dwriteAct
    | with_reducible apply Keeps.mboxAct
    | with_reducible refine Keeps.ite (fun _ => ?_) (fun _ => ?_)
    | with_reducible refine Keeps.ite1 (fun _ => ?_) (fun _ => ?_)
    | (refine Keeps.intro ?_; dsimp only; with_reducible first | refine Keeps.elim ?_ | refine KeepsTo.write _ _ (Keeps.elim ?_) | refine KeepsTo.clear _ _ (Keeps.elim ?_) | refine KeepsTo.putAt _ _ (Keeps.elim ?_) | refine KeepsTo.map _ (Keeps.elim ?_) | refine KeepsTo.filter _ (Keeps.elim ?_) | refine KeepsTo.setFlash _ (Keeps.elim ?_) | refine KeepsTo.setPwr _ _ _ (Keeps.elim ?_))
    | (apply Keeps.of_pair; with_reducible assumption)
    | split
    | dsimp only

theorem Keeps.drainRx {φ π : Bool} {σ τ : State} (n sid : Nat) (hk : Keeps false φ π σ τ) : Keeps false φ π σ (State.drainRx n τ sid) := by
  induction n generalizing τ with
  | zero => exact hk
  | succ n ih =>
    unfold State.drainRx
    split
    · exact hk
    · split
      · exact hk
      · exact ih (Keeps.act _ _ _ (Keeps.modSess _ _ hk))


theorem Keeps.reliable {φ π : Bool} {σ τ : State} (i : Nat) (d : Dgram) (t : Nat) (hk : Keeps false φ π σ τ) : Keeps false φ π σ (τ.reliable i d t) := by
  unfold State.reliable
  try dsimp only
  repeat' first
    | with_reducible assumption
    | with_reducible apply Keeps.drainRx
    | with_reducible apply Keeps.authentic
    | with_reducible apply Keeps.closeSession
    | with_reducible apply Keeps.modSess
    | with_reducible apply Keeps.paced
    | with_reducible apply Keeps.sendAck
    | intro _
    | with_reducible refine Keeps.ite (fun _ => ?_) (fun _ => ?_)
    | with_reducible refine Keeps.ite1 (fun _ => ?_) (fun _ => ?_)
    | (refine Keeps.intro ?_; dsimp only; with_reducible first | refine Keeps.elim ?_ | refine KeepsTo.write _ _ (Keeps.elim ?_) | refine KeepsTo.clear _ _ (Keeps.elim ?_) | refine KeepsTo.putAt _ _ (Keeps.elim ?_) | refine KeepsTo.map _ (Keeps.elim ?_) | refine KeepsTo.filter _ (Keeps.elim ?_) | refine KeepsTo.setFlash _ (Keeps.elim ?_) | refine KeepsTo.setPwr _ _ _ (Keeps.elim ?_))
    | (apply Keeps.of_pair; with_reducible assumption)
    | split
    | dsimp only

end Sys2Proof.Machine
end

