-- ==== Sys2Proof/Laws/KeepsImages.lean ====
section
/-!
SUPPORT. What `Keeps` says, of the operations of Sys2Proof/Machine/Images.lean: one lemma each, with the operation applied last.
-/

set_option linter.unusedTactic false
set_option linter.unreachableTactic false

namespace Sys2Proof.Machine

theorem Keeps.doImageLoad {μ φ π : Bool} {σ τ : State} (o : Org) (p r src len : Nat) (secret : List Byte) (hk : Keeps μ φ π σ τ) : Keeps μ φ π σ (τ.doImageLoad o p r src len secret) := by
  unfold State.doImageLoad
  try dsimp only
  repeat' first
    | with_reducible assumption
    | with_reducible apply Keeps.anyRead
    | with_reducible apply Keeps.complete
    | with_reducible refine Keeps.ite (fun _ => ?_) (fun _ => ?_)
    | with_reducible refine Keeps.ite1 (fun _ => ?_) (fun _ => ?_)
    | (refine Keeps.intro ?_; dsimp only; with_reducible first | refine Keeps.elim ?_ | refine KeepsTo.write _ _ (Keeps.elim ?_) | refine KeepsTo.clear _ _ (Keeps.elim ?_) | refine KeepsTo.putAt _ _ (Keeps.elim ?_) | refine KeepsTo.map _ (Keeps.elim ?_) | refine KeepsTo.filter _ (Keeps.elim ?_) | refine KeepsTo.setFlash _ (Keeps.elim ?_) | refine KeepsTo.setPwr _ _ _ (Keeps.elim ?_))
    | (apply Keeps.of_pair; with_reducible assumption)
    | split
    | dsimp only

theorem Keeps.imageCommit {μ φ π : Bool} {σ τ : State} (p r : Nat) (h : ImgHdr) (stream : List Byte) (fs : List Frame) (hk : Keeps μ φ π σ τ) : Keeps μ φ π σ (τ.imageCommit p r h stream fs) := by
  unfold State.imageCommit
  try dsimp only
  repeat' first
    | with_reducible assumption
    | with_reducible apply Keeps.modPart
    | with_reducible refine Keeps.ite (fun _ => ?_) (fun _ => ?_)
    | with_reducible refine Keeps.ite1 (fun _ => ?_) (fun _ => ?_)
    | (refine Keeps.intro ?_; dsimp only; with_reducible first | refine Keeps.elim ?_ | refine KeepsTo.write _ _ (Keeps.elim ?_) | refine KeepsTo.clear _ _ (Keeps.elim ?_) | refine KeepsTo.putAt _ _ (Keeps.elim ?_) | refine KeepsTo.map _ (Keeps.elim ?_) | refine KeepsTo.filter _ (Keeps.elim ?_) | refine KeepsTo.setFlash _ (Keeps.elim ?_) | refine KeepsTo.setPwr _ _ _ (Keeps.elim ?_))
    | (apply Keeps.of_pair; with_reducible assumption)
    | split
    | dsimp only

theorem Keeps.imageEnd {μ φ π : Bool} {σ τ : State} (o : Org) (p r src len : Nat) (secret : List Byte) (damaged : Bool) (hk : Keeps μ φ π σ τ) : Keeps μ φ π σ (τ.imageEnd o p r src len secret damaged) := by
  unfold State.imageEnd
  try dsimp only
  repeat' first
    | with_reducible assumption
    | with_reducible apply Keeps.anyRead
    | with_reducible apply Keeps.complete
    | with_reducible apply Keeps.dieErrors
    | with_reducible apply Keeps.event
    | with_reducible apply Keeps.imageCommit
    | with_reducible refine Keeps.ite (fun _ => ?_) (fun _ => ?_)
    | with_reducible refine Keeps.ite1 (fun _ => ?_) (fun _ => ?_)
    | (refine Keeps.intro ?_; dsimp only; with_reducible first | refine Keeps.elim ?_ | refine KeepsTo.write _ _ (Keeps.elim ?_) | refine KeepsTo.clear _ _ (Keeps.elim ?_) | refine KeepsTo.putAt _ _ (Keeps.elim ?_) | refine KeepsTo.map _ (Keeps.elim ?_) | refine KeepsTo.filter _ (Keeps.elim ?_) | refine KeepsTo.setFlash _ (Keeps.elim ?_) | refine KeepsTo.setPwr _ _ _ (Keeps.elim ?_))
    | (apply Keeps.of_pair; with_reducible assumption)
    | split
    | dsimp only

theorem Keeps.doCertRead {φ π : Bool} {σ τ : State} (o : Org) (p dest : Nat) (hk : Keeps false φ π σ τ) : Keeps false φ π σ (τ.doCertRead o p dest) := by
  unfold State.doCertRead
  try dsimp only
  repeat' first
    | with_reducible assumption
    | with_reducible apply Keeps.complete
    | with_reducible apply Keeps.viewWrite
    | with_reducible refine Keeps.ite (fun _ => ?_) (fun _ => ?_)
    | with_reducible refine Keeps.ite1 (fun _ => ?_) (fun _ => ?_)
    | (refine Keeps.intro ?_; dsimp only; with_reducible first | refine Keeps.elim ?_ | refine KeepsTo.write _ _ (Keeps.elim ?_) | refine KeepsTo.clear _ _ (Keeps.elim ?_) | refine KeepsTo.putAt _ _ (Keeps.elim ?_) | refine KeepsTo.map _ (Keeps.elim ?_) | refine KeepsTo.filter _ (Keeps.elim ?_) | refine KeepsTo.setFlash _ (Keeps.elim ?_) | refine KeepsTo.setPwr _ _ _ (Keeps.elim ?_))
    | (apply Keeps.of_pair; with_reducible assumption)
    | split
    | dsimp only

theorem Keeps.doAttest {μ φ π : Bool} {σ τ : State} (o : Org) (p : Nat) (nonce : List Byte) (dest : Nat) (hk : Keeps μ φ π σ τ) : Keeps μ φ π σ (τ.doAttest o p nonce dest) := by
  unfold State.doAttest
  try dsimp only
  repeat' first
    | with_reducible assumption
    | with_reducible apply Keeps.complete
    | with_reducible refine Keeps.ite (fun _ => ?_) (fun _ => ?_)
    | with_reducible refine Keeps.ite1 (fun _ => ?_) (fun _ => ?_)
    | (refine Keeps.intro ?_; dsimp only; with_reducible first | refine Keeps.elim ?_ | refine KeepsTo.write _ _ (Keeps.elim ?_) | refine KeepsTo.clear _ _ (Keeps.elim ?_) | refine KeepsTo.putAt _ _ (Keeps.elim ?_) | refine KeepsTo.map _ (Keeps.elim ?_) | refine KeepsTo.filter _ (Keeps.elim ?_) | refine KeepsTo.setFlash _ (Keeps.elim ?_) | refine KeepsTo.setPwr _ _ _ (Keeps.elim ?_))
    | (apply Keeps.of_pair; with_reducible assumption)
    | split
    | dsimp only

theorem Keeps.attestEnd {φ π : Bool} {σ τ : State} (o : Org) (p : Nat) (nonce : List Byte) (dest : Nat) (hk : Keeps false φ π σ τ) : Keeps false φ π σ (τ.attestEnd o p nonce dest) := by
  unfold State.attestEnd
  try dsimp only
  repeat' first
    | with_reducible assumption
    | with_reducible apply Keeps.complete
    | with_reducible apply Keeps.viewWrite
    | with_reducible refine Keeps.ite (fun _ => ?_) (fun _ => ?_)
    | with_reducible refine Keeps.ite1 (fun _ => ?_) (fun _ => ?_)
    | (refine Keeps.intro ?_; dsimp only; with_reducible first | refine Keeps.elim ?_ | refine KeepsTo.write _ _ (Keeps.elim ?_) | refine KeepsTo.clear _ _ (Keeps.elim ?_) | refine KeepsTo.putAt _ _ (Keeps.elim ?_) | refine KeepsTo.map _ (Keeps.elim ?_) | refine KeepsTo.filter _ (Keeps.elim ?_) | refine KeepsTo.setFlash _ (Keeps.elim ?_) | refine KeepsTo.setPwr _ _ _ (Keeps.elim ?_))
    | (apply Keeps.of_pair; with_reducible assumption)
    | split
    | dsimp only

end Sys2Proof.Machine
end

