-- ==== Sys2Proof/Laws/KeepsFirmware.lean ====
section
/-!
SUPPORT. What `Keeps` says, of the operations of Sys2Proof/Machine/Firmware.lean: one lemma each, with the operation applied last.
-/

set_option linter.unusedTactic false
set_option linter.unreachableTactic false

namespace Sys2Proof.Machine

theorem Keeps.modPwr {μ φ : Bool} {σ τ : State} (f : Power → Power) (hk : Keeps μ φ false σ τ) : Keeps μ φ false σ (τ.modPwr f) := by
  unfold State.modPwr
  try dsimp only
  repeat' first
    | with_reducible assumption
    | with_reducible refine Keeps.ite (fun _ => ?_) (fun _ => ?_)
    | with_reducible refine Keeps.ite1 (fun _ => ?_) (fun _ => ?_)
    | (refine Keeps.intro ?_; dsimp only; with_reducible first | refine Keeps.elim ?_ | refine KeepsTo.write _ _ (Keeps.elim ?_) | refine KeepsTo.clear _ _ (Keeps.elim ?_) | refine KeepsTo.putAt _ _ (Keeps.elim ?_) | refine KeepsTo.map _ (Keeps.elim ?_) | refine KeepsTo.filter _ (Keeps.elim ?_) | refine KeepsTo.setFlash _ (Keeps.elim ?_) | refine KeepsTo.setPwr _ _ _ (Keeps.elim ?_))
    | (apply Keeps.of_pair; with_reducible assumption)
    | split
    | dsimp only

theorem Keeps.setBoot {μ φ : Bool} {σ τ : State} (b : BootW) (hk : Keeps μ φ false σ τ) : Keeps μ φ false σ (τ.setBoot b) := by
  unfold State.setBoot
  try dsimp only
  repeat' first
    | with_reducible assumption
    | with_reducible apply Keeps.modPwr
    | with_reducible refine Keeps.ite (fun _ => ?_) (fun _ => ?_)
    | with_reducible refine Keeps.ite1 (fun _ => ?_) (fun _ => ?_)
    | (refine Keeps.intro ?_; dsimp only; with_reducible first | refine Keeps.elim ?_ | refine KeepsTo.write _ _ (Keeps.elim ?_) | refine KeepsTo.clear _ _ (Keeps.elim ?_) | refine KeepsTo.putAt _ _ (Keeps.elim ?_) | refine KeepsTo.map _ (Keeps.elim ?_) | refine KeepsTo.filter _ (Keeps.elim ?_) | refine KeepsTo.setFlash _ (Keeps.elim ?_) | refine KeepsTo.setPwr _ _ _ (Keeps.elim ?_))
    | (apply Keeps.of_pair; with_reducible assumption)
    | split
    | dsimp only

theorem Keeps.reclock {μ φ : Bool} {σ τ : State} (hk : Keeps μ φ false σ τ) : Keeps μ φ false σ τ.reclock := by
  unfold State.reclock
  try dsimp only
  repeat' first
    | with_reducible assumption
    | with_reducible apply Keeps.modStack
    | with_reducible refine Keeps.foldl ?_ fun _ _ _ => ?_
    | with_reducible refine Keeps.foldlP ?_ fun _ _ _ => ?_
    | with_reducible refine Keeps.ite (fun _ => ?_) (fun _ => ?_)
    | with_reducible refine Keeps.ite1 (fun _ => ?_) (fun _ => ?_)
    | (refine Keeps.intro ?_; dsimp only; with_reducible first | refine Keeps.elim ?_ | refine KeepsTo.write _ _ (Keeps.elim ?_) | refine KeepsTo.clear _ _ (Keeps.elim ?_) | refine KeepsTo.putAt _ _ (Keeps.elim ?_) | refine KeepsTo.map _ (Keeps.elim ?_) | refine KeepsTo.filter _ (Keeps.elim ?_) | refine KeepsTo.setFlash _ (Keeps.elim ?_) | refine KeepsTo.setPwr _ _ _ (Keeps.elim ?_))
    | (apply Keeps.of_pair; with_reducible assumption)
    | split
    | dsimp only

theorem Keeps.coreEvent {μ φ π : Bool} {σ τ : State} (c code : Nat) (hk : Keeps μ φ π σ τ) : Keeps μ φ π σ (τ.coreEvent c code) := by
  unfold State.coreEvent
  try dsimp only
  repeat' first
    | with_reducible assumption
    | with_reducible apply Keeps.eventHolder
    | with_reducible refine Keeps.ite (fun _ => ?_) (fun _ => ?_)
    | with_reducible refine Keeps.ite1 (fun _ => ?_) (fun _ => ?_)
    | (refine Keeps.intro ?_; dsimp only; with_reducible first | refine Keeps.elim ?_ | refine KeepsTo.write _ _ (Keeps.elim ?_) | refine KeepsTo.clear _ _ (Keeps.elim ?_) | refine KeepsTo.putAt _ _ (Keeps.elim ?_) | refine KeepsTo.map _ (Keeps.elim ?_) | refine KeepsTo.filter _ (Keeps.elim ?_) | refine KeepsTo.setFlash _ (Keeps.elim ?_) | refine KeepsTo.setPwr _ _ _ (Keeps.elim ?_))
    | (apply Keeps.of_pair; with_reducible assumption)
    | split
    | dsimp only

theorem Keeps.retireCore {μ π : Bool} {σ τ : State} (c cause : Nat) (hk : Keeps μ false π σ τ) : Keeps μ false π σ (τ.retireCore c cause) := by
  unfold State.retireCore
  dsimp only
  refine Keeps.ite (fun _ => Keeps.coreEvent _ _ ?_) fun _ => Keeps.ite (fun _ => ?_) fun _ => Keeps.coreEvent _ _ ?_
  all_goals exact { hk with fuse := nofun, flash := nofun }

theorem Keeps.retireAll {μ π : Bool} {σ τ : State} (failing : List Nat) (hk : Keeps μ false π σ τ) : Keeps μ false π σ (τ.retireAll failing) := by
  unfold State.retireAll
  try dsimp only
  repeat' first
    | with_reducible assumption
    | with_reducible apply Keeps.retireCore
    | with_reducible refine Keeps.foldl ?_ fun _ _ _ => ?_
    | with_reducible refine Keeps.foldlP ?_ fun _ _ _ => ?_
    | with_reducible refine Keeps.ite (fun _ => ?_) (fun _ => ?_)
    | with_reducible refine Keeps.ite1 (fun _ => ?_) (fun _ => ?_)
    | (refine Keeps.intro ?_; dsimp only; with_reducible first | refine Keeps.elim ?_ | refine KeepsTo.write _ _ (Keeps.elim ?_) | refine KeepsTo.clear _ _ (Keeps.elim ?_) | refine KeepsTo.putAt _ _ (Keeps.elim ?_) | refine KeepsTo.map _ (Keeps.elim ?_) | refine KeepsTo.filter _ (Keeps.elim ?_) | refine KeepsTo.setFlash _ (Keeps.elim ?_) | refine KeepsTo.setPwr _ _ _ (Keeps.elim ?_))
    | (apply Keeps.of_pair; with_reducible assumption)
    | split
    | dsimp only

theorem Keeps.bringUp  {σ τ : State} (e : StartEnv) (cold fell : Bool) (hk : Keeps false false false σ τ) : Keeps false false false σ (τ.bringUp e cold fell) := by
  unfold State.bringUp
  lift_lets
  intro r b fl prof keep fu s1 s2 s3
  have h1 : Keeps false false false σ s1 := ⟨hk.pending, hk.grade, fun h => Memory.wf_filter _ (hk.wf h), fun _ => by simp [s1, startPorts],
    le_trans hk.svn (by dsimp only [s1]; split <;> simp [fu]), nofun, nofun, nofun, nofun, nofun, nofun⟩
  have h2 : Keeps false false false σ s2 := Keeps.modPwr _ h1
  have h3 : Keeps false false false σ s3 := Keeps.retireAll _ (Keeps.reclock (Keeps.setBoot _ h2))
  exact Keeps.foldl h3 fun _ _ hu => Keeps.pick _ hu

theorem Keeps.startFailure {μ φ : Bool} {σ τ : State} (stage code : Nat) (hk : Keeps μ φ false σ τ) : Keeps μ φ false σ (τ.startFailure stage code) := by
  unfold State.startFailure
  try dsimp only
  repeat' first
    | with_reducible assumption
    | with_reducible apply Keeps.modPwr
    | with_reducible apply Keeps.setBoot
    | with_reducible refine Keeps.ite (fun _ => ?_) (fun _ => ?_)
    | with_reducible refine Keeps.ite1 (fun _ => ?_) (fun _ => ?_)
    | (refine Keeps.intro ?_; dsimp only; with_reducible first | refine Keeps.elim ?_ | refine KeepsTo.write _ _ (Keeps.elim ?_) | refine KeepsTo.clear _ _ (Keeps.elim ?_) | refine KeepsTo.putAt _ _ (Keeps.elim ?_) | refine KeepsTo.map _ (Keeps.elim ?_) | refine KeepsTo.filter _ (Keeps.elim ?_) | refine KeepsTo.setFlash _ (Keeps.elim ?_) | refine KeepsTo.setPwr _ _ _ (Keeps.elim ?_))
    | (apply Keeps.of_pair; with_reducible assumption)
    | split
    | dsimp only

theorem Keeps.bootStage {μ φ π : Bool} {σ τ : State} (e : StartEnv) (hk : Keeps μ φ π σ τ) : Keeps μ φ π σ (τ.bootStage e).1 := by
  unfold State.bootStage
  try dsimp only
  repeat' first
    | with_reducible assumption
    | with_reducible refine Keeps.ite (fun _ => ?_) (fun _ => ?_)
    | with_reducible refine Keeps.ite1 (fun _ => ?_) (fun _ => ?_)
    | (refine Keeps.intro ?_; dsimp only; with_reducible first | refine Keeps.elim ?_ | refine KeepsTo.write _ _ (Keeps.elim ?_) | refine KeepsTo.clear _ _ (Keeps.elim ?_) | refine KeepsTo.putAt _ _ (Keeps.elim ?_) | refine KeepsTo.map _ (Keeps.elim ?_) | refine KeepsTo.filter _ (Keeps.elim ?_) | refine KeepsTo.setFlash _ (Keeps.elim ?_) | refine KeepsTo.setPwr _ _ _ (Keeps.elim ?_))
    | (apply Keeps.of_pair; with_reducible assumption)
    | split
    | dsimp only

theorem Keeps.bankStage {μ π : Bool} {σ τ : State} (e : StartEnv) (hk : Keeps μ false π σ τ) : Keeps μ false π σ (τ.bankStage e).1 := by
  unfold State.bankStage
  try dsimp only
  repeat' first
    | with_reducible assumption
    | with_reducible refine Keeps.ite (fun _ => ?_) (fun _ => ?_)
    | with_reducible refine Keeps.ite1 (fun _ => ?_) (fun _ => ?_)
    | (refine Keeps.intro ?_; dsimp only; with_reducible first | refine Keeps.elim ?_ | refine KeepsTo.write _ _ (Keeps.elim ?_) | refine KeepsTo.clear _ _ (Keeps.elim ?_) | refine KeepsTo.putAt _ _ (Keeps.elim ?_) | refine KeepsTo.map _ (Keeps.elim ?_) | refine KeepsTo.filter _ (Keeps.elim ?_) | refine KeepsTo.setFlash _ (Keeps.elim ?_) | refine KeepsTo.setPwr _ _ _ (Keeps.elim ?_))
    | (apply Keeps.of_pair; with_reducible assumption)
    | split
    | dsimp only

theorem Keeps.fwStage {μ φ π : Bool} {σ τ : State} (e : StartEnv) (hk : Keeps μ φ π σ τ) : Keeps μ φ π σ (τ.fwStage e).1 := by
  unfold State.fwStage
  try dsimp only
  repeat' first
    | with_reducible assumption
    | with_reducible refine Keeps.ite (fun _ => ?_) (fun _ => ?_)
    | with_reducible refine Keeps.ite1 (fun _ => ?_) (fun _ => ?_)
    | (refine Keeps.intro ?_; dsimp only; with_reducible first | refine Keeps.elim ?_ | refine KeepsTo.write _ _ (Keeps.elim ?_) | refine KeepsTo.clear _ _ (Keeps.elim ?_) | refine KeepsTo.putAt _ _ (Keeps.elim ?_) | refine KeepsTo.map _ (Keeps.elim ?_) | refine KeepsTo.filter _ (Keeps.elim ?_) | refine KeepsTo.setFlash _ (Keeps.elim ?_) | refine KeepsTo.setPwr _ _ _ (Keeps.elim ?_))
    | (apply Keeps.of_pair; with_reducible assumption)
    | split
    | dsimp only

theorem Keeps.setStage {μ π : Bool} {σ τ : State} (e : StartEnv) (hk : Keeps μ false π σ τ) : Keeps μ false π σ (τ.setStage e).1 := by
  unfold State.setStage
  try dsimp only
  repeat' first
    | with_reducible assumption
    | with_reducible refine Keeps.ite (fun _ => ?_) (fun _ => ?_)
    | with_reducible refine Keeps.ite1 (fun _ => ?_) (fun _ => ?_)
    | (refine Keeps.intro ?_; dsimp only; with_reducible first | refine Keeps.elim ?_ | refine KeepsTo.write _ _ (Keeps.elim ?_) | refine KeepsTo.clear _ _ (Keeps.elim ?_) | refine KeepsTo.putAt _ _ (Keeps.elim ?_) | refine KeepsTo.map _ (Keeps.elim ?_) | refine KeepsTo.filter _ (Keeps.elim ?_) | refine KeepsTo.setFlash _ (Keeps.elim ?_) | refine KeepsTo.setPwr _ _ _ (Keeps.elim ?_))
    | (apply Keeps.of_pair; with_reducible assumption)
    | split
    | dsimp only

theorem Keeps.loadCtl {μ φ π : Bool} {σ τ : State} (i t : Nat) (l : List (Nat × Option (List Byte))) (hk : Keeps μ φ π σ τ) :
    Keeps μ φ π σ (τ.loadCtl i t l).1 := by
  unfold State.loadCtl
  split
  · exact hk
  · exact Keeps.ite1 (fun _ => hk) fun _ => hk
  · exact hk

theorem Keeps.ctlStage {μ φ π : Bool} {σ τ : State} (e : StartEnv) (hk : Keeps μ φ π σ τ) : Keeps μ φ π σ (τ.ctlStage e).1 :=
  Keeps.foldlP hk fun _ _ hu => Keeps.ite1 (fun _ => Keeps.loadCtl _ _ _ hu) fun _ => hu

theorem Keeps.memStage {φ π : Bool} {σ τ : State} (e : StartEnv) (hk : Keeps false φ π σ τ) : Keeps false φ π σ (τ.memStage e).1 :=
  Keeps.ite1 (fun _ => { hk with wf := fun _ => rfl, mem := nofun }) fun _ => hk

theorem Keeps.fabStage {μ φ π : Bool} {σ τ : State} (e : StartEnv) (hk : Keeps μ φ π σ τ) : Keeps μ φ π σ (τ.fabStage e).1 := by
  unfold State.fabStage
  try dsimp only
  repeat' first
    | with_reducible assumption
    | with_reducible refine Keeps.ite (fun _ => ?_) (fun _ => ?_)
    | with_reducible refine Keeps.ite1 (fun _ => ?_) (fun _ => ?_)
    | (refine Keeps.intro ?_; dsimp only; with_reducible first | refine Keeps.elim ?_ | refine KeepsTo.write _ _ (Keeps.elim ?_) | refine KeepsTo.clear _ _ (Keeps.elim ?_) | refine KeepsTo.putAt _ _ (Keeps.elim ?_) | refine KeepsTo.map _ (Keeps.elim ?_) | refine KeepsTo.filter _ (Keeps.elim ?_) | refine KeepsTo.setFlash _ (Keeps.elim ?_) | refine KeepsTo.setPwr _ _ _ (Keeps.elim ?_))
    | (apply Keeps.of_pair; with_reducible assumption)
    | split
    | dsimp only

theorem Keeps.atStage {m f w : Bool} {σ : State} {halt : Option (Nat × Nat)} {n : Nat} {k : State → State × Option Nat}
    {x : State × Option (Nat × Nat)} (hf : ∀ u, Keeps m f w σ u → Keeps m f w σ (k u).1) (hx : Keeps m f w σ x.1) :
    Keeps m f w σ (atStage halt n k x).1 := by
  unfold Machine.atStage
  split
  · exact hx
  · exact Keeps.ite1 (fun _ => hx) fun _ => hf _ hx
  · exact hf _ hx

theorem Keeps.runStages {π : Bool} {σ τ : State} (e : StartEnv) (pause : Bool) (first : Nat) (halt : Option (Nat × Nat))
    (hk : Keeps false false π σ τ) : Keeps false false π σ (τ.runStages e pause first halt).1 := by
  unfold State.runStages
  lift_lets
  intro go pass x1 x2 x3 x4
  have h2 : Keeps false false π σ x2.1 := Keeps.ite1 (fun _ => hk) fun _ =>
    Keeps.atStage (fun _ hu => Keeps.fwStage _ hu) (Keeps.atStage (fun _ hu => Keeps.bankStage _ hu) (Keeps.atStage (fun _ hu => Keeps.bootStage _ hu)
      (Keeps.ite1 (fun _ => Keeps.atStage (fun _ hu => hu) hk) fun _ => hk)))
  have h3 : Keeps false false π σ x3.1 := Keeps.atStage (fun _ hu => Keeps.ctlStage _ hu) (Keeps.atStage (fun _ hu => Keeps.setStage _ hu) h2)
  have h4 : Keeps false false π σ x4.1 := Keeps.ite1 (fun _ => h3) fun _ => Keeps.atStage (fun _ hu => Keeps.memStage _ hu) h3
  exact Keeps.atStage (fun _ hu => hu) (Keeps.atStage (fun _ hu => hu) (Keeps.atStage (fun _ hu => Keeps.fabStage _ hu) h4))

theorem Keeps.stages {σ τ : State} (e : StartEnv) (pause : Bool) (halts : Option (Nat × Nat) × Option (Nat × Nat)) (hk : Keeps false false false σ τ) : Keeps false false false σ (τ.stages e pause halts) := by
  unfold State.stages
  try dsimp only
  repeat' first
    | with_reducible assumption
    | with_reducible apply Keeps.bringUp
    | with_reducible apply Keeps.eventAll
    | with_reducible apply Keeps.fresh
    | with_reducible apply Keeps.runStages
    | with_reducible apply Keeps.startFailure
    | with_reducible refine Keeps.ite (fun _ => ?_) (fun _ => ?_)
    | with_reducible refine Keeps.ite1 (fun _ => ?_) (fun _ => ?_)
    | (refine Keeps.intro ?_; dsimp only; with_reducible first | refine Keeps.elim ?_ | refine KeepsTo.write _ _ (Keeps.elim ?_) | refine KeepsTo.clear _ _ (Keeps.elim ?_) | refine KeepsTo.putAt _ _ (Keeps.elim ?_) | refine KeepsTo.map _ (Keeps.elim ?_) | refine KeepsTo.filter _ (Keeps.elim ?_) | refine KeepsTo.setFlash _ (Keeps.elim ?_) | refine KeepsTo.setPwr _ _ _ (Keeps.elim ?_))
    | (apply Keeps.of_pair; with_reducible assumption)
    | split
    | dsimp only

theorem Keeps.start {σ τ : State} (e : StartEnv) (hk : Keeps false false false σ τ) : Keeps false false false σ (τ.start e) := by
  unfold State.start
  try dsimp only
  repeat' first
    | with_reducible assumption
    | with_reducible apply Keeps.fresh
    | with_reducible apply Keeps.modPwr
    | with_reducible apply Keeps.stages
    | with_reducible refine Keeps.ite (fun _ => ?_) (fun _ => ?_)
    | with_reducible refine Keeps.ite1 (fun _ => ?_) (fun _ => ?_)
    | (refine Keeps.intro ?_; dsimp only; with_reducible first | refine Keeps.elim ?_ | refine KeepsTo.write _ _ (Keeps.elim ?_) | refine KeepsTo.clear _ _ (Keeps.elim ?_) | refine KeepsTo.putAt _ _ (Keeps.elim ?_) | refine KeepsTo.map _ (Keeps.elim ?_) | refine KeepsTo.filter _ (Keeps.elim ?_) | refine KeepsTo.setFlash _ (Keeps.elim ?_) | refine KeepsTo.setPwr _ _ _ (Keeps.elim ?_))
    | (apply Keeps.of_pair; with_reducible assumption)
    | split
    | dsimp only

theorem Keeps.startLate {σ τ : State} (e : StartEnv) (hk : Keeps false false false σ τ) : Keeps false false false σ (τ.startLate e) := by
  unfold State.startLate
  try dsimp only
  repeat' first
    | with_reducible assumption
    | with_reducible apply Keeps.modPwr
    | with_reducible apply Keeps.stages
    | with_reducible refine Keeps.ite (fun _ => ?_) (fun _ => ?_)
    | with_reducible refine Keeps.ite1 (fun _ => ?_) (fun _ => ?_)
    | (refine Keeps.intro ?_; dsimp only; with_reducible first | refine Keeps.elim ?_ | refine KeepsTo.write _ _ (Keeps.elim ?_) | refine KeepsTo.clear _ _ (Keeps.elim ?_) | refine KeepsTo.putAt _ _ (Keeps.elim ?_) | refine KeepsTo.map _ (Keeps.elim ?_) | refine KeepsTo.filter _ (Keeps.elim ?_) | refine KeepsTo.setFlash _ (Keeps.elim ?_) | refine KeepsTo.setPwr _ _ _ (Keeps.elim ?_))
    | (apply Keeps.of_pair; with_reducible assumption)
    | split
    | dsimp only

theorem Keeps.doFwStage {μ φ π : Bool} {σ τ : State} (o : Org) (p src len : Nat) (hk : Keeps μ φ π σ τ) : Keeps μ φ π σ (τ.doFwStage o p src len) := by
  unfold State.doFwStage
  try dsimp only
  repeat' first
    | with_reducible assumption
    | with_reducible apply Keeps.complete
    | with_reducible refine Keeps.ite (fun _ => ?_) (fun _ => ?_)
    | with_reducible refine Keeps.ite1 (fun _ => ?_) (fun _ => ?_)
    | (refine Keeps.intro ?_; dsimp only; with_reducible first | refine Keeps.elim ?_ | refine KeepsTo.write _ _ (Keeps.elim ?_) | refine KeepsTo.clear _ _ (Keeps.elim ?_) | refine KeepsTo.putAt _ _ (Keeps.elim ?_) | refine KeepsTo.map _ (Keeps.elim ?_) | refine KeepsTo.filter _ (Keeps.elim ?_) | refine KeepsTo.setFlash _ (Keeps.elim ?_) | refine KeepsTo.setPwr _ _ _ (Keeps.elim ?_))
    | (apply Keeps.of_pair; with_reducible assumption)
    | split
    | dsimp only

theorem Keeps.setBank {μ π : Bool} {σ τ : State} (b st : Nat) (x : Bank) (hk : Keeps μ false π σ τ) : Keeps μ false π σ (τ.setBank b st x) := by
  unfold State.setBank
  try dsimp only
  repeat' first
    | with_reducible assumption
    | with_reducible refine Keeps.ite (fun _ => ?_) (fun _ => ?_)
    | with_reducible refine Keeps.ite1 (fun _ => ?_) (fun _ => ?_)
    | (refine Keeps.intro ?_; dsimp only; with_reducible first | refine Keeps.elim ?_ | refine KeepsTo.write _ _ (Keeps.elim ?_) | refine KeepsTo.clear _ _ (Keeps.elim ?_) | refine KeepsTo.putAt _ _ (Keeps.elim ?_) | refine KeepsTo.map _ (Keeps.elim ?_) | refine KeepsTo.filter _ (Keeps.elim ?_) | refine KeepsTo.setFlash _ (Keeps.elim ?_) | refine KeepsTo.setPwr _ _ _ (Keeps.elim ?_))
    | (apply Keeps.of_pair; with_reducible assumption)
    | split
    | dsimp only

theorem Keeps.stageEnd {μ π : Bool} {σ τ : State} (o : Org) (src len : Nat) (fail : Bool) (hk : Keeps μ false π σ τ) : Keeps μ false π σ (τ.stageEnd o src len fail) := by
  unfold State.stageEnd
  try dsimp only
  repeat' first
    | with_reducible assumption
    | with_reducible apply Keeps.anyRead
    | with_reducible apply Keeps.complete
    | with_reducible apply Keeps.setBank
    | with_reducible refine Keeps.ite (fun _ => ?_) (fun _ => ?_)
    | with_reducible refine Keeps.ite1 (fun _ => ?_) (fun _ => ?_)
    | (refine Keeps.intro ?_; dsimp only; with_reducible first | refine Keeps.elim ?_ | refine KeepsTo.write _ _ (Keeps.elim ?_) | refine KeepsTo.clear _ _ (Keeps.elim ?_) | refine KeepsTo.putAt _ _ (Keeps.elim ?_) | refine KeepsTo.map _ (Keeps.elim ?_) | refine KeepsTo.filter _ (Keeps.elim ?_) | refine KeepsTo.setFlash _ (Keeps.elim ?_) | refine KeepsTo.setPwr _ _ _ (Keeps.elim ?_))
    | (apply Keeps.of_pair; with_reducible assumption)
    | split
    | dsimp only

theorem Keeps.announce {μ φ π : Bool} {σ τ : State} (o : Org) (op : Nat) (bank : Option Nat) (force deadline : Nat) (hk : Keeps μ φ π σ τ) : Keeps μ φ π σ (τ.announce o op bank force deadline) := by
  unfold State.announce
  try dsimp only
  repeat' first
    | with_reducible assumption
    | with_reducible apply Keeps.eventAll
    | with_reducible refine Keeps.ite (fun _ => ?_) (fun _ => ?_)
    | with_reducible refine Keeps.ite1 (fun _ => ?_) (fun _ => ?_)
    | (refine Keeps.intro ?_; dsimp only; with_reducible first | refine Keeps.elim ?_ | refine KeepsTo.write _ _ (Keeps.elim ?_) | refine KeepsTo.clear _ _ (Keeps.elim ?_) | refine KeepsTo.putAt _ _ (Keeps.elim ?_) | refine KeepsTo.map _ (Keeps.elim ?_) | refine KeepsTo.filter _ (Keeps.elim ?_) | refine KeepsTo.setFlash _ (Keeps.elim ?_) | refine KeepsTo.setPwr _ _ _ (Keeps.elim ?_))
    | (apply Keeps.of_pair; with_reducible assumption)
    | split
    | dsimp only

theorem Keeps.doFwPromote {μ φ π : Bool} {σ τ : State} (o : Org) (p target force deadline : Nat) (hk : Keeps μ φ π σ τ) : Keeps μ φ π σ (τ.doFwPromote o p target force deadline) := by
  unfold State.doFwPromote
  try dsimp only
  repeat' first
    | with_reducible assumption
    | with_reducible apply Keeps.announce
    | with_reducible apply Keeps.complete
    | with_reducible refine Keeps.ite (fun _ => ?_) (fun _ => ?_)
    | with_reducible refine Keeps.ite1 (fun _ => ?_) (fun _ => ?_)
    | (refine Keeps.intro ?_; dsimp only; with_reducible first | refine Keeps.elim ?_ | refine KeepsTo.write _ _ (Keeps.elim ?_) | refine KeepsTo.clear _ _ (Keeps.elim ?_) | refine KeepsTo.putAt _ _ (Keeps.elim ?_) | refine KeepsTo.map _ (Keeps.elim ?_) | refine KeepsTo.filter _ (Keeps.elim ?_) | refine KeepsTo.setFlash _ (Keeps.elim ?_) | refine KeepsTo.setPwr _ _ _ (Keeps.elim ?_))
    | (apply Keeps.of_pair; with_reducible assumption)
    | split
    | dsimp only

theorem Keeps.doRestart {μ φ π : Bool} {σ τ : State} (o : Org) (p force deadline : Nat) (hk : Keeps μ φ π σ τ) : Keeps μ φ π σ (τ.doRestart o p force deadline) := by
  unfold State.doRestart
  try dsimp only
  repeat' first
    | with_reducible assumption
    | with_reducible apply Keeps.announce
    | with_reducible apply Keeps.complete
    | with_reducible refine Keeps.ite (fun _ => ?_) (fun _ => ?_)
    | with_reducible refine Keeps.ite1 (fun _ => ?_) (fun _ => ?_)
    | (refine Keeps.intro ?_; dsimp only; with_reducible first | refine Keeps.elim ?_ | refine KeepsTo.write _ _ (Keeps.elim ?_) | refine KeepsTo.clear _ _ (Keeps.elim ?_) | refine KeepsTo.putAt _ _ (Keeps.elim ?_) | refine KeepsTo.map _ (Keeps.elim ?_) | refine KeepsTo.filter _ (Keeps.elim ?_) | refine KeepsTo.setFlash _ (Keeps.elim ?_) | refine KeepsTo.setPwr _ _ _ (Keeps.elim ?_))
    | (apply Keeps.of_pair; with_reducible assumption)
    | split
    | dsimp only

theorem Keeps.doFwCancel {μ φ π : Bool} {σ τ : State} (o : Org) (p : Nat) (hk : Keeps μ φ π σ τ) : Keeps μ φ π σ (τ.doFwCancel o p) := by
  unfold State.doFwCancel
  try dsimp only
  repeat' first
    | with_reducible assumption
    | with_reducible apply Keeps.complete
    | with_reducible refine Keeps.ite (fun _ => ?_) (fun _ => ?_)
    | with_reducible refine Keeps.ite1 (fun _ => ?_) (fun _ => ?_)
    | (refine Keeps.intro ?_; dsimp only; with_reducible first | refine Keeps.elim ?_ | refine KeepsTo.write _ _ (Keeps.elim ?_) | refine KeepsTo.clear _ _ (Keeps.elim ?_) | refine KeepsTo.putAt _ _ (Keeps.elim ?_) | refine KeepsTo.map _ (Keeps.elim ?_) | refine KeepsTo.filter _ (Keeps.elim ?_) | refine KeepsTo.setFlash _ (Keeps.elim ?_) | refine KeepsTo.setPwr _ _ _ (Keeps.elim ?_))
    | (apply Keeps.of_pair; with_reducible assumption)
    | split
    | dsimp only

theorem Keeps.doSetRead {φ π : Bool} {σ τ : State} (o : Org) (p dest : Nat) (hk : Keeps false φ π σ τ) : Keeps false φ π σ (τ.doSetRead o p dest) := by
  unfold State.doSetRead
  try dsimp only
  repeat' first
    | with_reducible assumption
    | with_reducible apply Keeps.complete
    | with_reducible apply Keeps.viewWrite
    | with_reducible refine Keeps.ite (fun _ => ?_) (fun _ => ?_)
    | with_reducible refine Keeps.ite1 (fun _ => ?_) (fun _ => ?_)
    | (refine Keeps.intro ?_; dsimp only; with_reducible first | refine Keeps.elim ?_ | refine KeepsTo.write _ _ (Keeps.elim ?_) | refine KeepsTo.clear _ _ (Keeps.elim ?_) | refine KeepsTo.putAt _ _ (Keeps.elim ?_) | refine KeepsTo.map _ (Keeps.elim ?_) | refine KeepsTo.filter _ (Keeps.elim ?_) | refine KeepsTo.setFlash _ (Keeps.elim ?_) | refine KeepsTo.setPwr _ _ _ (Keeps.elim ?_))
    | (apply Keeps.of_pair; with_reducible assumption)
    | split
    | dsimp only

theorem Keeps.doSetWrite {μ π : Bool} {σ τ : State} (o : Org) (p n : Nat) (b : List Byte) (hk : Keeps μ false π σ τ) : Keeps μ false π σ (τ.doSetWrite o p n b) := by
  unfold State.doSetWrite
  try dsimp only
  repeat' first
    | with_reducible assumption
    | with_reducible apply Keeps.complete
    | with_reducible apply Keeps.writeSettings
    | with_reducible refine Keeps.foldl ?_ fun _ _ _ => ?_
    | with_reducible refine Keeps.foldlP ?_ fun _ _ _ => ?_
    | with_reducible refine Keeps.ite (fun _ => ?_) (fun _ => ?_)
    | with_reducible refine Keeps.ite1 (fun _ => ?_) (fun _ => ?_)
    | (refine Keeps.intro ?_; dsimp only; with_reducible first | refine Keeps.elim ?_ | refine KeepsTo.write _ _ (Keeps.elim ?_) | refine KeepsTo.clear _ _ (Keeps.elim ?_) | refine KeepsTo.putAt _ _ (Keeps.elim ?_) | refine KeepsTo.map _ (Keeps.elim ?_) | refine KeepsTo.filter _ (Keeps.elim ?_) | refine KeepsTo.setFlash _ (Keeps.elim ?_) | refine KeepsTo.setPwr _ _ _ (Keeps.elim ?_))
    | (apply Keeps.of_pair; with_reducible assumption)
    | split
    | dsimp only

theorem Keeps.endWork {φ π : Bool} {σ τ : State} (hk : Keeps false φ π σ τ) : Keeps false φ π σ τ.endWork := by
  unfold State.endWork
  try dsimp only
  repeat' first
    | with_reducible assumption
    | with_reducible apply Keeps.abortJob
    | with_reducible apply Keeps.complete
    | with_reducible apply Keeps.stepAbort
    | with_reducible apply Keeps.stopEnd
    | with_reducible refine Keeps.foldl ?_ fun _ _ _ => ?_
    | with_reducible refine Keeps.foldlP ?_ fun _ _ _ => ?_
    | with_reducible refine Keeps.ite (fun _ => ?_) (fun _ => ?_)
    | with_reducible refine Keeps.ite1 (fun _ => ?_) (fun _ => ?_)
    | (refine Keeps.intro ?_; dsimp only; with_reducible first | refine Keeps.elim ?_ | refine KeepsTo.write _ _ (Keeps.elim ?_) | refine KeepsTo.clear _ _ (Keeps.elim ?_) | refine KeepsTo.putAt _ _ (Keeps.elim ?_) | refine KeepsTo.map _ (Keeps.elim ?_) | refine KeepsTo.filter _ (Keeps.elim ?_) | refine KeepsTo.setFlash _ (Keeps.elim ?_) | refine KeepsTo.setPwr _ _ _ (Keeps.elim ?_))
    | (apply Keeps.of_pair; with_reducible assumption)
    | split
    | dsimp only

theorem Keeps.pause {σ τ : State} (e : StartEnv) (i : Nat) (d : Defr) (bank : Option Nat) (force : Bool) (hk : Keeps false false false σ τ) : Keeps false false false σ (τ.pause e i d bank force) := by
  unfold State.pause
  try dsimp only
  repeat' first
    | with_reducible assumption
    | with_reducible apply Keeps.closeSession
    | with_reducible apply Keeps.complete
    | with_reducible apply Keeps.modPwr
    | with_reducible apply Keeps.stages
    | with_reducible apply Keeps.yields
    | with_reducible refine Keeps.foldl ?_ fun _ _ _ => ?_
    | with_reducible refine Keeps.foldlP ?_ fun _ _ _ => ?_
    | with_reducible refine Keeps.ite (fun _ => ?_) (fun _ => ?_)
    | with_reducible refine Keeps.ite1 (fun _ => ?_) (fun _ => ?_)
    | (refine Keeps.intro ?_; dsimp only; with_reducible first | refine Keeps.elim ?_ | refine KeepsTo.write _ _ (Keeps.elim ?_) | refine KeepsTo.clear _ _ (Keeps.elim ?_) | refine KeepsTo.putAt _ _ (Keeps.elim ?_) | refine KeepsTo.map _ (Keeps.elim ?_) | refine KeepsTo.filter _ (Keeps.elim ?_) | refine KeepsTo.setFlash _ (Keeps.elim ?_) | refine KeepsTo.setPwr _ _ _ (Keeps.elim ?_))
    | (apply Keeps.of_pair; with_reducible assumption)
    | split
    | dsimp only

theorem Keeps.decide_ {σ τ : State} (e : StartEnv) (hk : Keeps false false false σ τ) : Keeps false false false σ (τ.decide_ e) := by
  unfold State.decide_
  try dsimp only
  repeat' first
    | with_reducible assumption
    | with_reducible apply Keeps.endWork
    | with_reducible apply Keeps.pause
    | with_reducible apply Keeps.yields
    | with_reducible refine Keeps.foldl ?_ fun _ _ _ => ?_
    | with_reducible refine Keeps.foldlP ?_ fun _ _ _ => ?_
    | with_reducible refine Keeps.ite (fun _ => ?_) (fun _ => ?_)
    | with_reducible refine Keeps.ite1 (fun _ => ?_) (fun _ => ?_)
    | (refine Keeps.intro ?_; dsimp only; with_reducible first | refine Keeps.elim ?_ | refine KeepsTo.write _ _ (Keeps.elim ?_) | refine KeepsTo.clear _ _ (Keeps.elim ?_) | refine KeepsTo.putAt _ _ (Keeps.elim ?_) | refine KeepsTo.map _ (Keeps.elim ?_) | refine KeepsTo.filter _ (Keeps.elim ?_) | refine KeepsTo.setFlash _ (Keeps.elim ?_) | refine KeepsTo.setPwr _ _ _ (Keeps.elim ?_))
    | (apply Keeps.of_pair; with_reducible assumption)
    | split
    | dsimp only

theorem Keeps.activationLate {μ φ π : Bool} {σ τ : State} (hk : Keeps μ φ π σ τ) : Keeps μ φ π σ τ.activationLate := by
  unfold State.activationLate
  try dsimp only
  repeat' first
    | with_reducible assumption
    | with_reducible apply Keeps.complete
    | with_reducible refine Keeps.ite (fun _ => ?_) (fun _ => ?_)
    | with_reducible refine Keeps.ite1 (fun _ => ?_) (fun _ => ?_)
    | (refine Keeps.intro ?_; dsimp only; with_reducible first | refine Keeps.elim ?_ | refine KeepsTo.write _ _ (Keeps.elim ?_) | refine KeepsTo.clear _ _ (Keeps.elim ?_) | refine KeepsTo.putAt _ _ (Keeps.elim ?_) | refine KeepsTo.map _ (Keeps.elim ?_) | refine KeepsTo.filter _ (Keeps.elim ?_) | refine KeepsTo.setFlash _ (Keeps.elim ?_) | refine KeepsTo.setPwr _ _ _ (Keeps.elim ?_))
    | (apply Keeps.of_pair; with_reducible assumption)
    | split
    | dsimp only

theorem Keeps.preloadEnd {μ φ π : Bool} {σ τ : State} (i : Nat) (fail : Bool) (hk : Keeps μ φ π σ τ) : Keeps μ φ π σ (τ.preloadEnd i fail) := by
  unfold State.preloadEnd
  try dsimp only
  repeat' first
    | with_reducible assumption
    | with_reducible apply Keeps.complete
    | with_reducible refine Keeps.ite (fun _ => ?_) (fun _ => ?_)
    | with_reducible refine Keeps.ite1 (fun _ => ?_) (fun _ => ?_)
    | (refine Keeps.intro ?_; dsimp only; with_reducible first | refine Keeps.elim ?_ | refine KeepsTo.write _ _ (Keeps.elim ?_) | refine KeepsTo.clear _ _ (Keeps.elim ?_) | refine KeepsTo.putAt _ _ (Keeps.elim ?_) | refine KeepsTo.map _ (Keeps.elim ?_) | refine KeepsTo.filter _ (Keeps.elim ?_) | refine KeepsTo.setFlash _ (Keeps.elim ?_) | refine KeepsTo.setPwr _ _ _ (Keeps.elim ?_))
    | (apply Keeps.of_pair; with_reducible assumption)
    | split
    | dsimp only

end Sys2Proof.Machine
end

