-- ==== Sys2Proof/Laws/KeepsMailbox.lean ====
section
/-!
SUPPORT. What `Keeps` says, of the operations of Sys2Proof/Machine/Mailbox.lean: one lemma each, with the operation applied last.
-/

set_option linter.unusedTactic false
set_option linter.unreachableTactic false

namespace Sys2Proof.Machine

theorem Keeps.runRecord {π : Bool} {σ τ : State} (o : Org) (p : Nat) (b : List Byte) (us : List Upset) (hk : Keeps false false π σ τ) : Keeps false false π σ (τ.runRecord o p b us) := by
  unfold State.runRecord
  try dsimp only
  repeat' first
    | with_reducible assumption
    | with_reducible apply Keeps.complete
    | with_reducible apply Keeps.doAttest
    | with_reducible apply Keeps.doCertRead
    | with_reducible apply Keeps.doFwCancel
    | with_reducible apply Keeps.doFwPromote
    | with_reducible apply Keeps.doFwStage
    | with_reducible apply Keeps.doGrantRead
    | with_reducible apply Keeps.doGrantSet
    | with_reducible apply Keeps.doHostkeySet
    | with_reducible apply Keeps.doImageLoad
    | with_reducible apply Keeps.doJobAbort
    | with_reducible apply Keeps.doMatchMulti
    | with_reducible apply Keeps.doNop
    | with_reducible apply Keeps.doPartDelete
    | with_reducible apply Keeps.doRegRead
    | with_reducible apply Keeps.doRegWrite
    | with_reducible apply Keeps.doRegionDefine
    | with_reducible apply Keeps.doRegionRelease
    | with_reducible apply Keeps.doRestart
    | with_reducible apply Keeps.doRingKey
    | with_reducible apply Keeps.doRingStep
    | with_reducible apply Keeps.doSessionInfo
    | with_reducible apply Keeps.doSetRead
    | with_reducible apply Keeps.doSetWrite
    | with_reducible apply Keeps.doSubscribe
    | with_reducible refine Keeps.ite (fun _ => ?_) (fun _ => ?_)
    | with_reducible refine Keeps.ite1 (fun _ => ?_) (fun _ => ?_)
    | (refine Keeps.intro ?_; dsimp only; with_reducible first | refine Keeps.elim ?_ | refine KeepsTo.write _ _ (Keeps.elim ?_) | refine KeepsTo.clear _ _ (Keeps.elim ?_) | refine KeepsTo.putAt _ _ (Keeps.elim ?_) | refine KeepsTo.map _ (Keeps.elim ?_) | refine KeepsTo.filter _ (Keeps.elim ?_) | refine KeepsTo.setFlash _ (Keeps.elim ?_) | refine KeepsTo.setPwr _ _ _ (Keeps.elim ?_))
    | (apply Keeps.of_pair; with_reducible assumption)
    | split
    | dsimp only

theorem Keeps.ringEvent {μ φ π : Bool} {σ τ : State} (x : Sess) (code new : Nat) (hk : Keeps μ φ π σ τ) : Keeps μ φ π σ (τ.ringEvent x code new) := by
  unfold State.ringEvent
  try dsimp only
  repeat' first
    | with_reducible assumption
    | with_reducible apply Keeps.deliver
    | with_reducible apply Keeps.modSess
    | with_reducible refine Keeps.ite (fun _ => ?_) (fun _ => ?_)
    | with_reducible refine Keeps.ite1 (fun _ => ?_) (fun _ => ?_)
    | (refine Keeps.intro ?_; dsimp only; with_reducible first | refine Keeps.elim ?_ | refine KeepsTo.write _ _ (Keeps.elim ?_) | refine KeepsTo.clear _ _ (Keeps.elim ?_) | refine KeepsTo.putAt _ _ (Keeps.elim ?_) | refine KeepsTo.map _ (Keeps.elim ?_) | refine KeepsTo.filter _ (Keeps.elim ?_) | refine KeepsTo.setFlash _ (Keeps.elim ?_) | refine KeepsTo.setPwr _ _ _ (Keeps.elim ?_))
    | (apply Keeps.of_pair; with_reducible assumption)
    | split
    | dsimp only

theorem Keeps.takeNext {π : Bool} {σ τ : State} (x : Sess) (n : Option Next) (us : List Upset) (hk : Keeps false false π σ τ) :
    Keeps false false π σ (τ.takeNext x n us) := by
  cases n with
  | none => exact hk
  | some n =>
    cases n with
    | badLen h => exact Keeps.ringEvent _ _ _ hk
    | wrap h => exact Keeps.ringEvent _ _ _ hk
    | pad h => exact Keeps.modSess _ _ hk
    | record h b => exact Keeps.runRecord _ _ _ _ (Keeps.modSess _ _ hk)

theorem Keeps.takeRecord {π : Bool} {σ τ : State} (x : Sess) (us : List Upset) (hk : Keeps false false π σ τ) :
    Keeps false false π σ (τ.takeRecord x us) := Keeps.takeNext _ _ _ hk

theorem Keeps.mgmtRestart {μ φ π : Bool} {σ τ : State} (hk : Keeps μ φ π σ τ) : Keeps μ φ π σ τ.mgmtRestart := by
  refine Keeps.announce _ _ _ _ _ ?_
  split
  · exact Keeps.complete _ _ _ _ (Keeps.intro hk.elim)
  · exact hk

theorem Keeps.recordTake {π : Bool} {σ τ : State} (us : List Upset) (hk : Keeps false false π σ τ) : Keeps false false π σ (τ.recordTake us) := by
  unfold State.recordTake
  try dsimp only
  repeat' first
    | with_reducible assumption
    | with_reducible apply Keeps.mgmtRestart
    | with_reducible apply Keeps.takeRecord
    | with_reducible refine Keeps.ite (fun _ => ?_) (fun _ => ?_)
    | with_reducible refine Keeps.ite1 (fun _ => ?_) (fun _ => ?_)
    | (refine Keeps.intro ?_; dsimp only; with_reducible first | refine Keeps.elim ?_ | refine KeepsTo.write _ _ (Keeps.elim ?_) | refine KeepsTo.clear _ _ (Keeps.elim ?_) | refine KeepsTo.putAt _ _ (Keeps.elim ?_) | refine KeepsTo.map _ (Keeps.elim ?_) | refine KeepsTo.filter _ (Keeps.elim ?_) | refine KeepsTo.setFlash _ (Keeps.elim ?_) | refine KeepsTo.setPwr _ _ _ (Keeps.elim ?_))
    | (apply Keeps.of_pair; with_reducible assumption)
    | split
    | dsimp only

theorem Keeps.deferredEnd {π : Bool} {σ τ : State} (i : Nat) (fail : Bool) (hk : Keeps false false π σ τ) : Keeps false false π σ (τ.deferredEnd i fail) := by
  unfold State.deferredEnd
  try dsimp only
  repeat' first
    | with_reducible assumption
    | with_reducible apply Keeps.attestEnd
    | with_reducible apply Keeps.grantEnd
    | with_reducible apply Keeps.imageEnd
    | with_reducible apply Keeps.preloadEnd
    | with_reducible apply Keeps.stageEnd
    | with_reducible refine Keeps.ite (fun _ => ?_) (fun _ => ?_)
    | with_reducible refine Keeps.ite1 (fun _ => ?_) (fun _ => ?_)
    | (refine Keeps.intro ?_; dsimp only; with_reducible first | refine Keeps.elim ?_ | refine KeepsTo.write _ _ (Keeps.elim ?_) | refine KeepsTo.clear _ _ (Keeps.elim ?_) | refine KeepsTo.putAt _ _ (Keeps.elim ?_) | refine KeepsTo.map _ (Keeps.elim ?_) | refine KeepsTo.filter _ (Keeps.elim ?_) | refine KeepsTo.setFlash _ (Keeps.elim ?_) | refine KeepsTo.setPwr _ _ _ (Keeps.elim ?_))
    | (apply Keeps.of_pair; with_reducible assumption)
    | split
    | dsimp only

end Sys2Proof.Machine
end

