-- ==== Sys2Proof/Laws/KeepsGuards.lean ====
section
/-!
SUPPORT. What `Keeps` says, of the operations of Sys2Proof/Machine/Guards.lean: one lemma each, with the operation applied last.
-/

set_option linter.unusedTactic false
set_option linter.unreachableTactic false

namespace Sys2Proof.Machine

theorem Keeps.regCommand {φ π : Bool} {σ τ : State} (o : Org) (a v : Nat) (hk : Keeps false φ π σ τ) : Keeps false φ π σ (τ.regCommand o a v) := by
  unfold State.regCommand
  try dsimp only
  repeat' first
    | with_reducible assumption
    | with_reducible apply Keeps.asCommand
    | with_reducible apply Keeps.doRegWrite
    | intro _
    | with_reducible refine Keeps.ite (fun _ => ?_) (fun _ => ?_)
    | with_reducible refine Keeps.ite1 (fun _ => ?_) (fun _ => ?_)
    | (refine Keeps.intro ?_; dsimp only; with_reducible first | refine Keeps.elim ?_ | refine KeepsTo.write _ _ (Keeps.elim ?_) | refine KeepsTo.clear _ _ (Keeps.elim ?_) | refine KeepsTo.putAt _ _ (Keeps.elim ?_) | refine KeepsTo.map _ (Keeps.elim ?_) | refine KeepsTo.filter _ (Keeps.elim ?_) | refine KeepsTo.setFlash _ (Keeps.elim ?_) | refine KeepsTo.setPwr _ _ _ (Keeps.elim ?_))
    | (apply Keeps.of_pair; with_reducible assumption)
    | split
    | dsimp only

theorem Keeps.partWrite {φ π : Bool} {σ τ : State} (o : Org) (ofs : Nat) (v : Part → Nat) (hk : Keeps false φ π σ τ) : Keeps false φ π σ (τ.partWrite o ofs v) := by
  unfold State.partWrite
  try dsimp only
  repeat' first
    | with_reducible assumption
    | with_reducible apply Keeps.asCommand
    | with_reducible apply Keeps.doRegWrite
    | intro _
    | with_reducible refine Keeps.ite (fun _ => ?_) (fun _ => ?_)
    | with_reducible refine Keeps.ite1 (fun _ => ?_) (fun _ => ?_)
    | (refine Keeps.intro ?_; dsimp only; with_reducible first | refine Keeps.elim ?_ | refine KeepsTo.write _ _ (Keeps.elim ?_) | refine KeepsTo.clear _ _ (Keeps.elim ?_) | refine KeepsTo.putAt _ _ (Keeps.elim ?_) | refine KeepsTo.map _ (Keeps.elim ?_) | refine KeepsTo.filter _ (Keeps.elim ?_) | refine KeepsTo.setFlash _ (Keeps.elim ?_) | refine KeepsTo.setPwr _ _ _ (Keeps.elim ?_))
    | (apply Keeps.of_pair; with_reducible assumption)
    | split
    | dsimp only

theorem Keeps.coreStarts {φ π : Bool} {σ τ : State} (c : Nat) (kind : Sect → Bool) {act : TC → TC} (ha : ∀ x, Twf x → Twf (act x)) (hk : Keeps false φ π σ τ) :
    Keeps false φ π σ (τ.coreStarts c kind act) := by
  unfold State.coreStarts
  split
  · exact Keeps.ite (fun _ => Keeps.startOne _ ha hk) fun _ => hk
  · exact hk

end Sys2Proof.Machine
end

