-- ==== Sys2Proof/Laws/KeepsStep.lean ====
section
/-!
SUPPORT. What `Keeps` says of one fabric cycle.
-/

namespace Sys2Proof.Machine

theorem Keeps.tick {φ π : Bool} {σ τ : State} (hk : Keeps false φ π σ τ) : Keeps false φ π σ (tick τ) := by
  unfold Machine.tick
  refine Keeps.ite (fun _ => ?_) fun _ => hk
  lift_lets
  intro all s1 s2 s3
  have h1 : Keeps false φ π σ s1 := Keeps.foldl hk fun _ _ hu => Keeps.drainTick _ _ hu
  have h2 : Keeps false φ π σ s2 := Keeps.foldl h1 fun _ _ hu => Keeps.stopFreeze _ _ hu
  have h3 : Keeps false φ π σ s3 := Keeps.foldl h2 fun _ _ hu => Keeps.modRegion _ _ _ hu
  exact { h3 with }

end Sys2Proof.Machine
end

