-- ==== Sys2Proof/Laws/State.lean ====
section
/-!
SUPPORT. What the updates of one field leave alone: one lemma per update and field; and what a read finds after an update.
-/

namespace Sys2Proof.Machine

variable (s : State)

@[simp] theorem modPart_free (p : Nat) (f : Part → Part) : (s.modPart p f).free = s.free := rfl
@[simp] theorem modPart_now (p : Nat) (f : Part → Part) : (s.modPart p f).now = s.now := rfl
@[simp] theorem modPart_grade (p : Nat) (f : Part → Part) : (s.modPart p f).grade = s.grade := rfl
@[simp] theorem modPart_mem (p : Nat) (f : Part → Part) : (s.modPart p f).mem = s.mem := rfl
@[simp] theorem modPart_dmg (p : Nat) (f : Part → Part) : (s.modPart p f).dmg = s.dmg := rfl
@[simp] theorem modPart_dieEcc (p : Nat) (f : Part → Part) : (s.modPart p f).dieEcc = s.dieEcc := rfl
@[simp] theorem modPart_elog (p : Nat) (f : Part → Part) : (s.modPart p f).elog = s.elog := rfl
@[simp] theorem modPart_corrLog (p : Nat) (f : Part → Part) : (s.modPart p f).corrLog = s.corrLog := rfl
@[simp] theorem modPart_past (p : Nat) (f : Part → Part) : (s.modPart p f).past = s.past := rfl
@[simp] theorem modPart_clock (p : Nat) (f : Part → Part) : (s.modPart p f).clock = s.clock := rfl
@[simp] theorem modPart_cores (p : Nat) (f : Part → Part) : (s.modPart p f).cores = s.cores := rfl
@[simp] theorem modPart_mesh (p : Nat) (f : Part → Part) : (s.modPart p f).mesh = s.mesh := rfl
@[simp] theorem modPart_attach (p : Nat) (f : Part → Part) : (s.modPart p f).attach = s.attach := rfl
@[simp] theorem modPart_agents (p : Nat) (f : Part → Part) : (s.modPart p f).agents = s.agents := rfl
@[simp] theorem modPart_stks (p : Nat) (f : Part → Part) : (s.modPart p f).stks = s.stks := rfl
@[simp] theorem modPart_multiFail (p : Nat) (f : Part → Part) : (s.modPart p f).multiFail = s.multiFail := rfl
@[simp] theorem modPart_multiNum (p : Nat) (f : Part → Part) : (s.modPart p f).multiNum = s.multiNum := rfl
@[simp] theorem modPart_book (p : Nat) (f : Part → Part) : (s.modPart p f).book = s.book := rfl
@[simp] theorem modPart_lastPart (p : Nat) (f : Part → Part) : (s.modPart p f).lastPart = s.lastPart := rfl
@[simp] theorem modPart_dispAt (p : Nat) (f : Part → Part) : (s.modPart p f).dispAt = s.dispAt := rfl
@[simp] theorem modPart_fetchAt (p : Nat) (f : Part → Part) : (s.modPart p f).fetchAt = s.fetchAt := rfl
@[simp] theorem modPart_lastSeq (p : Nat) (f : Part → Part) : (s.modPart p f).lastSeq = s.lastSeq := rfl
@[simp] theorem modPart_bookAt (p : Nat) (f : Part → Part) : (s.modPart p f).bookAt = s.bookAt := rfl
@[simp] theorem modPart_pendingRetire (p : Nat) (f : Part → Part) : (s.modPart p f).pendingRetire = s.pendingRetire := rfl
@[simp] theorem modPart_causes (p : Nat) (f : Part → Part) : (s.modPart p f).causes = s.causes := rfl
@[simp] theorem modPart_ports (p : Nat) (f : Part → Part) : (s.modPart p f).ports = s.ports := rfl
@[simp] theorem modPart_membs (p : Nat) (f : Part → Part) : (s.modPart p f).membs = s.membs := rfl
@[simp] theorem modPart_sess (p : Nat) (f : Part → Part) : (s.modPart p f).sess = s.sess := rfl
@[simp] theorem modPart_takePart (p : Nat) (f : Part → Part) : (s.modPart p f).takePart = s.takePart := rfl
@[simp] theorem modPart_takeSid (p : Nat) (f : Part → Part) : (s.modPart p f).takeSid = s.takeSid := rfl
@[simp] theorem modPart_defs (p : Nat) (f : Part → Part) : (s.modPart p f).defs = s.defs := rfl
@[simp] theorem modPart_fuse (p : Nat) (f : Part → Part) : (s.modPart p f).fuse = s.fuse := rfl
@[simp] theorem modPart_flash (p : Nat) (f : Part → Part) : (s.modPart p f).flash = s.flash := rfl
@[simp] theorem modPart_inForce (p : Nat) (f : Part → Part) : (s.modPart p f).inForce = s.inForce := rfl
@[simp] theorem modPart_applied (p : Nat) (f : Part → Part) : (s.modPart p f).applied = s.applied := rfl
@[simp] theorem modPart_running (p : Nat) (f : Part → Part) : (s.modPart p f).running = s.running := rfl
@[simp] theorem modPart_pwr (p : Nat) (f : Part → Part) : (s.modPart p f).pwr = s.pwr := rfl
@[simp] theorem modPart_smbOut (p : Nat) (f : Part → Part) : (s.modPart p f).smbOut = s.smbOut := rfl
@[simp] theorem modPart_retireSel (p : Nat) (f : Part → Part) : (s.modPart p f).retireSel = s.retireSel := rfl
@[simp] theorem modPart_repSel (p : Nat) (f : Part → Part) : (s.modPart p f).repSel = s.repSel := rfl
@[simp] theorem modPart_smScrub (p : Nat) (f : Part → Part) : (s.modPart p f).smScrub = s.smScrub := rfl
@[simp] theorem modPart_ctls (p : Nat) (f : Part → Part) : (s.modPart p f).ctls = s.ctls := rfl
@[simp] theorem modPart_pending (p : Nat) (f : Part → Part) : (s.modPart p f).pending = s.pending := rfl

@[simp] theorem setCore_free (c : Nat) (x : Core) : (s.setCore c x).free = s.free := rfl
@[simp] theorem setCore_now (c : Nat) (x : Core) : (s.setCore c x).now = s.now := rfl
@[simp] theorem setCore_grade (c : Nat) (x : Core) : (s.setCore c x).grade = s.grade := rfl
@[simp] theorem setCore_mem (c : Nat) (x : Core) : (s.setCore c x).mem = s.mem := rfl
@[simp] theorem setCore_dmg (c : Nat) (x : Core) : (s.setCore c x).dmg = s.dmg := rfl
@[simp] theorem setCore_dieEcc (c : Nat) (x : Core) : (s.setCore c x).dieEcc = s.dieEcc := rfl
@[simp] theorem setCore_elog (c : Nat) (x : Core) : (s.setCore c x).elog = s.elog := rfl
@[simp] theorem setCore_corrLog (c : Nat) (x : Core) : (s.setCore c x).corrLog = s.corrLog := rfl
@[simp] theorem setCore_past (c : Nat) (x : Core) : (s.setCore c x).past = s.past := rfl
@[simp] theorem setCore_clock (c : Nat) (x : Core) : (s.setCore c x).clock = s.clock := rfl
@[simp] theorem setCore_parts (c : Nat) (x : Core) : (s.setCore c x).parts = s.parts := rfl
@[simp] theorem setCore_mesh (c : Nat) (x : Core) : (s.setCore c x).mesh = s.mesh := rfl
@[simp] theorem setCore_attach (c : Nat) (x : Core) : (s.setCore c x).attach = s.attach := rfl
@[simp] theorem setCore_agents (c : Nat) (x : Core) : (s.setCore c x).agents = s.agents := rfl
@[simp] theorem setCore_stks (c : Nat) (x : Core) : (s.setCore c x).stks = s.stks := rfl
@[simp] theorem setCore_multiFail (c : Nat) (x : Core) : (s.setCore c x).multiFail = s.multiFail := rfl
@[simp] theorem setCore_multiNum (c : Nat) (x : Core) : (s.setCore c x).multiNum = s.multiNum := rfl
@[simp] theorem setCore_book (c : Nat) (x : Core) : (s.setCore c x).book = s.book := rfl
@[simp] theorem setCore_lastPart (c : Nat) (x : Core) : (s.setCore c x).lastPart = s.lastPart := rfl
@[simp] theorem setCore_dispAt (c : Nat) (x : Core) : (s.setCore c x).dispAt = s.dispAt := rfl
@[simp] theorem setCore_fetchAt (c : Nat) (x : Core) : (s.setCore c x).fetchAt = s.fetchAt := rfl
@[simp] theorem setCore_lastSeq (c : Nat) (x : Core) : (s.setCore c x).lastSeq = s.lastSeq := rfl
@[simp] theorem setCore_bookAt (c : Nat) (x : Core) : (s.setCore c x).bookAt = s.bookAt := rfl
@[simp] theorem setCore_pendingRetire (c : Nat) (x : Core) : (s.setCore c x).pendingRetire = s.pendingRetire := rfl
@[simp] theorem setCore_causes (c : Nat) (x : Core) : (s.setCore c x).causes = s.causes := rfl
@[simp] theorem setCore_ports (c : Nat) (x : Core) : (s.setCore c x).ports = s.ports := rfl
@[simp] theorem setCore_membs (c : Nat) (x : Core) : (s.setCore c x).membs = s.membs := rfl
@[simp] theorem setCore_sess (c : Nat) (x : Core) : (s.setCore c x).sess = s.sess := rfl
@[simp] theorem setCore_takePart (c : Nat) (x : Core) : (s.setCore c x).takePart = s.takePart := rfl
@[simp] theorem setCore_takeSid (c : Nat) (x : Core) : (s.setCore c x).takeSid = s.takeSid := rfl
@[simp] theorem setCore_defs (c : Nat) (x : Core) : (s.setCore c x).defs = s.defs := rfl
@[simp] theorem setCore_fuse (c : Nat) (x : Core) : (s.setCore c x).fuse = s.fuse := rfl
@[simp] theorem setCore_flash (c : Nat) (x : Core) : (s.setCore c x).flash = s.flash := rfl
@[simp] theorem setCore_inForce (c : Nat) (x : Core) : (s.setCore c x).inForce = s.inForce := rfl
@[simp] theorem setCore_applied (c : Nat) (x : Core) : (s.setCore c x).applied = s.applied := rfl
@[simp] theorem setCore_running (c : Nat) (x : Core) : (s.setCore c x).running = s.running := rfl
@[simp] theorem setCore_pwr (c : Nat) (x : Core) : (s.setCore c x).pwr = s.pwr := rfl
@[simp] theorem setCore_smbOut (c : Nat) (x : Core) : (s.setCore c x).smbOut = s.smbOut := rfl
@[simp] theorem setCore_retireSel (c : Nat) (x : Core) : (s.setCore c x).retireSel = s.retireSel := rfl
@[simp] theorem setCore_repSel (c : Nat) (x : Core) : (s.setCore c x).repSel = s.repSel := rfl
@[simp] theorem setCore_smScrub (c : Nat) (x : Core) : (s.setCore c x).smScrub = s.smScrub := rfl
@[simp] theorem setCore_ctls (c : Nat) (x : Core) : (s.setCore c x).ctls = s.ctls := rfl
@[simp] theorem setCore_pending (c : Nat) (x : Core) : (s.setCore c x).pending = s.pending := rfl

@[simp] theorem modCore_free (c : Nat) (f : Core → Core) : (s.modCore c f).free = s.free := rfl
@[simp] theorem modCore_now (c : Nat) (f : Core → Core) : (s.modCore c f).now = s.now := rfl
@[simp] theorem modCore_grade (c : Nat) (f : Core → Core) : (s.modCore c f).grade = s.grade := rfl
@[simp] theorem modCore_mem (c : Nat) (f : Core → Core) : (s.modCore c f).mem = s.mem := rfl
@[simp] theorem modCore_dmg (c : Nat) (f : Core → Core) : (s.modCore c f).dmg = s.dmg := rfl
@[simp] theorem modCore_dieEcc (c : Nat) (f : Core → Core) : (s.modCore c f).dieEcc = s.dieEcc := rfl
@[simp] theorem modCore_elog (c : Nat) (f : Core → Core) : (s.modCore c f).elog = s.elog := rfl
@[simp] theorem modCore_corrLog (c : Nat) (f : Core → Core) : (s.modCore c f).corrLog = s.corrLog := rfl
@[simp] theorem modCore_past (c : Nat) (f : Core → Core) : (s.modCore c f).past = s.past := rfl
@[simp] theorem modCore_clock (c : Nat) (f : Core → Core) : (s.modCore c f).clock = s.clock := rfl
@[simp] theorem modCore_parts (c : Nat) (f : Core → Core) : (s.modCore c f).parts = s.parts := rfl
@[simp] theorem modCore_mesh (c : Nat) (f : Core → Core) : (s.modCore c f).mesh = s.mesh := rfl
@[simp] theorem modCore_attach (c : Nat) (f : Core → Core) : (s.modCore c f).attach = s.attach := rfl
@[simp] theorem modCore_agents (c : Nat) (f : Core → Core) : (s.modCore c f).agents = s.agents := rfl
@[simp] theorem modCore_stks (c : Nat) (f : Core → Core) : (s.modCore c f).stks = s.stks := rfl
@[simp] theorem modCore_multiFail (c : Nat) (f : Core → Core) : (s.modCore c f).multiFail = s.multiFail := rfl
@[simp] theorem modCore_multiNum (c : Nat) (f : Core → Core) : (s.modCore c f).multiNum = s.multiNum := rfl
@[simp] theorem modCore_book (c : Nat) (f : Core → Core) : (s.modCore c f).book = s.book := rfl
@[simp] theorem modCore_lastPart (c : Nat) (f : Core → Core) : (s.modCore c f).lastPart = s.lastPart := rfl
@[simp] theorem modCore_dispAt (c : Nat) (f : Core → Core) : (s.modCore c f).dispAt = s.dispAt := rfl
@[simp] theorem modCore_fetchAt (c : Nat) (f : Core → Core) : (s.modCore c f).fetchAt = s.fetchAt := rfl
@[simp] theorem modCore_lastSeq (c : Nat) (f : Core → Core) : (s.modCore c f).lastSeq = s.lastSeq := rfl
@[simp] theorem modCore_bookAt (c : Nat) (f : Core → Core) : (s.modCore c f).bookAt = s.bookAt := rfl
@[simp] theorem modCore_pendingRetire (c : Nat) (f : Core → Core) : (s.modCore c f).pendingRetire = s.pendingRetire := rfl
@[simp] theorem modCore_causes (c : Nat) (f : Core → Core) : (s.modCore c f).causes = s.causes := rfl
@[simp] theorem modCore_ports (c : Nat) (f : Core → Core) : (s.modCore c f).ports = s.ports := rfl
@[simp] theorem modCore_membs (c : Nat) (f : Core → Core) : (s.modCore c f).membs = s.membs := rfl
@[simp] theorem modCore_sess (c : Nat) (f : Core → Core) : (s.modCore c f).sess = s.sess := rfl
@[simp] theorem modCore_takePart (c : Nat) (f : Core → Core) : (s.modCore c f).takePart = s.takePart := rfl
@[simp] theorem modCore_takeSid (c : Nat) (f : Core → Core) : (s.modCore c f).takeSid = s.takeSid := rfl
@[simp] theorem modCore_defs (c : Nat) (f : Core → Core) : (s.modCore c f).defs = s.defs := rfl
@[simp] theorem modCore_fuse (c : Nat) (f : Core → Core) : (s.modCore c f).fuse = s.fuse := rfl
@[simp] theorem modCore_flash (c : Nat) (f : Core → Core) : (s.modCore c f).flash = s.flash := rfl
@[simp] theorem modCore_inForce (c : Nat) (f : Core → Core) : (s.modCore c f).inForce = s.inForce := rfl
@[simp] theorem modCore_applied (c : Nat) (f : Core → Core) : (s.modCore c f).applied = s.applied := rfl
@[simp] theorem modCore_running (c : Nat) (f : Core → Core) : (s.modCore c f).running = s.running := rfl
@[simp] theorem modCore_pwr (c : Nat) (f : Core → Core) : (s.modCore c f).pwr = s.pwr := rfl
@[simp] theorem modCore_smbOut (c : Nat) (f : Core → Core) : (s.modCore c f).smbOut = s.smbOut := rfl
@[simp] theorem modCore_retireSel (c : Nat) (f : Core → Core) : (s.modCore c f).retireSel = s.retireSel := rfl
@[simp] theorem modCore_repSel (c : Nat) (f : Core → Core) : (s.modCore c f).repSel = s.repSel := rfl
@[simp] theorem modCore_smScrub (c : Nat) (f : Core → Core) : (s.modCore c f).smScrub = s.smScrub := rfl
@[simp] theorem modCore_ctls (c : Nat) (f : Core → Core) : (s.modCore c f).ctls = s.ctls := rfl
@[simp] theorem modCore_pending (c : Nat) (f : Core → Core) : (s.modCore c f).pending = s.pending := rfl

@[simp] theorem modRegion_free (p r : Nat) (f : Region → Region) : (s.modRegion p r f).free = s.free := rfl
@[simp] theorem modRegion_now (p r : Nat) (f : Region → Region) : (s.modRegion p r f).now = s.now := rfl
@[simp] theorem modRegion_grade (p r : Nat) (f : Region → Region) : (s.modRegion p r f).grade = s.grade := rfl
@[simp] theorem modRegion_mem (p r : Nat) (f : Region → Region) : (s.modRegion p r f).mem = s.mem := rfl
@[simp] theorem modRegion_dmg (p r : Nat) (f : Region → Region) : (s.modRegion p r f).dmg = s.dmg := rfl
@[simp] theorem modRegion_dieEcc (p r : Nat) (f : Region → Region) : (s.modRegion p r f).dieEcc = s.dieEcc := rfl
@[simp] theorem modRegion_elog (p r : Nat) (f : Region → Region) : (s.modRegion p r f).elog = s.elog := rfl
@[simp] theorem modRegion_corrLog (p r : Nat) (f : Region → Region) : (s.modRegion p r f).corrLog = s.corrLog := rfl
@[simp] theorem modRegion_past (p r : Nat) (f : Region → Region) : (s.modRegion p r f).past = s.past := rfl
@[simp] theorem modRegion_clock (p r : Nat) (f : Region → Region) : (s.modRegion p r f).clock = s.clock := rfl
@[simp] theorem modRegion_cores (p r : Nat) (f : Region → Region) : (s.modRegion p r f).cores = s.cores := rfl
@[simp] theorem modRegion_mesh (p r : Nat) (f : Region → Region) : (s.modRegion p r f).mesh = s.mesh := rfl
@[simp] theorem modRegion_attach (p r : Nat) (f : Region → Region) : (s.modRegion p r f).attach = s.attach := rfl
@[simp] theorem modRegion_agents (p r : Nat) (f : Region → Region) : (s.modRegion p r f).agents = s.agents := rfl
@[simp] theorem modRegion_stks (p r : Nat) (f : Region → Region) : (s.modRegion p r f).stks = s.stks := rfl
@[simp] theorem modRegion_multiFail (p r : Nat) (f : Region → Region) : (s.modRegion p r f).multiFail = s.multiFail := rfl
@[simp] theorem modRegion_multiNum (p r : Nat) (f : Region → Region) : (s.modRegion p r f).multiNum = s.multiNum := rfl
@[simp] theorem modRegion_book (p r : Nat) (f : Region → Region) : (s.modRegion p r f).book = s.book := rfl
@[simp] theorem modRegion_lastPart (p r : Nat) (f : Region → Region) : (s.modRegion p r f).lastPart = s.lastPart := rfl
@[simp] theorem modRegion_dispAt (p r : Nat) (f : Region → Region) : (s.modRegion p r f).dispAt = s.dispAt := rfl
@[simp] theorem modRegion_fetchAt (p r : Nat) (f : Region → Region) : (s.modRegion p r f).fetchAt = s.fetchAt := rfl
@[simp] theorem modRegion_lastSeq (p r : Nat) (f : Region → Region) : (s.modRegion p r f).lastSeq = s.lastSeq := rfl
@[simp] theorem modRegion_bookAt (p r : Nat) (f : Region → Region) : (s.modRegion p r f).bookAt = s.bookAt := rfl
@[simp] theorem modRegion_pendingRetire (p r : Nat) (f : Region → Region) : (s.modRegion p r f).pendingRetire = s.pendingRetire := rfl
@[simp] theorem modRegion_causes (p r : Nat) (f : Region → Region) : (s.modRegion p r f).causes = s.causes := rfl
@[simp] theorem modRegion_ports (p r : Nat) (f : Region → Region) : (s.modRegion p r f).ports = s.ports := rfl
@[simp] theorem modRegion_membs (p r : Nat) (f : Region → Region) : (s.modRegion p r f).membs = s.membs := rfl
@[simp] theorem modRegion_sess (p r : Nat) (f : Region → Region) : (s.modRegion p r f).sess = s.sess := rfl
@[simp] theorem modRegion_takePart (p r : Nat) (f : Region → Region) : (s.modRegion p r f).takePart = s.takePart := rfl
@[simp] theorem modRegion_takeSid (p r : Nat) (f : Region → Region) : (s.modRegion p r f).takeSid = s.takeSid := rfl
@[simp] theorem modRegion_defs (p r : Nat) (f : Region → Region) : (s.modRegion p r f).defs = s.defs := rfl
@[simp] theorem modRegion_fuse (p r : Nat) (f : Region → Region) : (s.modRegion p r f).fuse = s.fuse := rfl
@[simp] theorem modRegion_flash (p r : Nat) (f : Region → Region) : (s.modRegion p r f).flash = s.flash := rfl
@[simp] theorem modRegion_inForce (p r : Nat) (f : Region → Region) : (s.modRegion p r f).inForce = s.inForce := rfl
@[simp] theorem modRegion_applied (p r : Nat) (f : Region → Region) : (s.modRegion p r f).applied = s.applied := rfl
@[simp] theorem modRegion_running (p r : Nat) (f : Region → Region) : (s.modRegion p r f).running = s.running := rfl
@[simp] theorem modRegion_pwr (p r : Nat) (f : Region → Region) : (s.modRegion p r f).pwr = s.pwr := rfl
@[simp] theorem modRegion_smbOut (p r : Nat) (f : Region → Region) : (s.modRegion p r f).smbOut = s.smbOut := rfl
@[simp] theorem modRegion_retireSel (p r : Nat) (f : Region → Region) : (s.modRegion p r f).retireSel = s.retireSel := rfl
@[simp] theorem modRegion_repSel (p r : Nat) (f : Region → Region) : (s.modRegion p r f).repSel = s.repSel := rfl
@[simp] theorem modRegion_smScrub (p r : Nat) (f : Region → Region) : (s.modRegion p r f).smScrub = s.smScrub := rfl
@[simp] theorem modRegion_ctls (p r : Nat) (f : Region → Region) : (s.modRegion p r f).ctls = s.ctls := rfl
@[simp] theorem modRegion_pending (p r : Nat) (f : Region → Region) : (s.modRegion p r f).pending = s.pending := rfl

@[simp] theorem modRouter_free (c : Nat) (f : Router → Router) : (s.modRouter c f).free = s.free := rfl
@[simp] theorem modRouter_now (c : Nat) (f : Router → Router) : (s.modRouter c f).now = s.now := rfl
@[simp] theorem modRouter_grade (c : Nat) (f : Router → Router) : (s.modRouter c f).grade = s.grade := rfl
@[simp] theorem modRouter_mem (c : Nat) (f : Router → Router) : (s.modRouter c f).mem = s.mem := rfl
@[simp] theorem modRouter_dmg (c : Nat) (f : Router → Router) : (s.modRouter c f).dmg = s.dmg := rfl
@[simp] theorem modRouter_dieEcc (c : Nat) (f : Router → Router) : (s.modRouter c f).dieEcc = s.dieEcc := rfl
@[simp] theorem modRouter_elog (c : Nat) (f : Router → Router) : (s.modRouter c f).elog = s.elog := rfl
@[simp] theorem modRouter_corrLog (c : Nat) (f : Router → Router) : (s.modRouter c f).corrLog = s.corrLog := rfl
@[simp] theorem modRouter_past (c : Nat) (f : Router → Router) : (s.modRouter c f).past = s.past := rfl
@[simp] theorem modRouter_clock (c : Nat) (f : Router → Router) : (s.modRouter c f).clock = s.clock := rfl
@[simp] theorem modRouter_parts (c : Nat) (f : Router → Router) : (s.modRouter c f).parts = s.parts := rfl
@[simp] theorem modRouter_cores (c : Nat) (f : Router → Router) : (s.modRouter c f).cores = s.cores := rfl
@[simp] theorem modRouter_attach (c : Nat) (f : Router → Router) : (s.modRouter c f).attach = s.attach := rfl
@[simp] theorem modRouter_agents (c : Nat) (f : Router → Router) : (s.modRouter c f).agents = s.agents := rfl
@[simp] theorem modRouter_stks (c : Nat) (f : Router → Router) : (s.modRouter c f).stks = s.stks := rfl
@[simp] theorem modRouter_multiFail (c : Nat) (f : Router → Router) : (s.modRouter c f).multiFail = s.multiFail := rfl
@[simp] theorem modRouter_multiNum (c : Nat) (f : Router → Router) : (s.modRouter c f).multiNum = s.multiNum := rfl
@[simp] theorem modRouter_book (c : Nat) (f : Router → Router) : (s.modRouter c f).book = s.book := rfl
@[simp] theorem modRouter_lastPart (c : Nat) (f : Router → Router) : (s.modRouter c f).lastPart = s.lastPart := rfl
@[simp] theorem modRouter_dispAt (c : Nat) (f : Router → Router) : (s.modRouter c f).dispAt = s.dispAt := rfl
@[simp] theorem modRouter_fetchAt (c : Nat) (f : Router → Router) : (s.modRouter c f).fetchAt = s.fetchAt := rfl
@[simp] theorem modRouter_lastSeq (c : Nat) (f : Router → Router) : (s.modRouter c f).lastSeq = s.lastSeq := rfl
@[simp] theorem modRouter_bookAt (c : Nat) (f : Router → Router) : (s.modRouter c f).bookAt = s.bookAt := rfl
@[simp] theorem modRouter_pendingRetire (c : Nat) (f : Router → Router) : (s.modRouter c f).pendingRetire = s.pendingRetire := rfl
@[simp] theorem modRouter_causes (c : Nat) (f : Router → Router) : (s.modRouter c f).causes = s.causes := rfl
@[simp] theorem modRouter_ports (c : Nat) (f : Router → Router) : (s.modRouter c f).ports = s.ports := rfl
@[simp] theorem modRouter_membs (c : Nat) (f : Router → Router) : (s.modRouter c f).membs = s.membs := rfl
@[simp] theorem modRouter_sess (c : Nat) (f : Router → Router) : (s.modRouter c f).sess = s.sess := rfl
@[simp] theorem modRouter_takePart (c : Nat) (f : Router → Router) : (s.modRouter c f).takePart = s.takePart := rfl
@[simp] theorem modRouter_takeSid (c : Nat) (f : Router → Router) : (s.modRouter c f).takeSid = s.takeSid := rfl
@[simp] theorem modRouter_defs (c : Nat) (f : Router → Router) : (s.modRouter c f).defs = s.defs := rfl
@[simp] theorem modRouter_fuse (c : Nat) (f : Router → Router) : (s.modRouter c f).fuse = s.fuse := rfl
@[simp] theorem modRouter_flash (c : Nat) (f : Router → Router) : (s.modRouter c f).flash = s.flash := rfl
@[simp] theorem modRouter_inForce (c : Nat) (f : Router → Router) : (s.modRouter c f).inForce = s.inForce := rfl
@[simp] theorem modRouter_applied (c : Nat) (f : Router → Router) : (s.modRouter c f).applied = s.applied := rfl
@[simp] theorem modRouter_running (c : Nat) (f : Router → Router) : (s.modRouter c f).running = s.running := rfl
@[simp] theorem modRouter_pwr (c : Nat) (f : Router → Router) : (s.modRouter c f).pwr = s.pwr := rfl
@[simp] theorem modRouter_smbOut (c : Nat) (f : Router → Router) : (s.modRouter c f).smbOut = s.smbOut := rfl
@[simp] theorem modRouter_retireSel (c : Nat) (f : Router → Router) : (s.modRouter c f).retireSel = s.retireSel := rfl
@[simp] theorem modRouter_repSel (c : Nat) (f : Router → Router) : (s.modRouter c f).repSel = s.repSel := rfl
@[simp] theorem modRouter_smScrub (c : Nat) (f : Router → Router) : (s.modRouter c f).smScrub = s.smScrub := rfl
@[simp] theorem modRouter_ctls (c : Nat) (f : Router → Router) : (s.modRouter c f).ctls = s.ctls := rfl
@[simp] theorem modRouter_pending (c : Nat) (f : Router → Router) : (s.modRouter c f).pending = s.pending := rfl

@[simp] theorem modAgent_free (c : Nat) (f : EdgeAgent → EdgeAgent) : (s.modAgent c f).free = s.free := rfl
@[simp] theorem modAgent_now (c : Nat) (f : EdgeAgent → EdgeAgent) : (s.modAgent c f).now = s.now := rfl
@[simp] theorem modAgent_grade (c : Nat) (f : EdgeAgent → EdgeAgent) : (s.modAgent c f).grade = s.grade := rfl
@[simp] theorem modAgent_mem (c : Nat) (f : EdgeAgent → EdgeAgent) : (s.modAgent c f).mem = s.mem := rfl
@[simp] theorem modAgent_dmg (c : Nat) (f : EdgeAgent → EdgeAgent) : (s.modAgent c f).dmg = s.dmg := rfl
@[simp] theorem modAgent_dieEcc (c : Nat) (f : EdgeAgent → EdgeAgent) : (s.modAgent c f).dieEcc = s.dieEcc := rfl
@[simp] theorem modAgent_elog (c : Nat) (f : EdgeAgent → EdgeAgent) : (s.modAgent c f).elog = s.elog := rfl
@[simp] theorem modAgent_corrLog (c : Nat) (f : EdgeAgent → EdgeAgent) : (s.modAgent c f).corrLog = s.corrLog := rfl
@[simp] theorem modAgent_past (c : Nat) (f : EdgeAgent → EdgeAgent) : (s.modAgent c f).past = s.past := rfl
@[simp] theorem modAgent_clock (c : Nat) (f : EdgeAgent → EdgeAgent) : (s.modAgent c f).clock = s.clock := rfl
@[simp] theorem modAgent_parts (c : Nat) (f : EdgeAgent → EdgeAgent) : (s.modAgent c f).parts = s.parts := rfl
@[simp] theorem modAgent_cores (c : Nat) (f : EdgeAgent → EdgeAgent) : (s.modAgent c f).cores = s.cores := rfl
@[simp] theorem modAgent_mesh (c : Nat) (f : EdgeAgent → EdgeAgent) : (s.modAgent c f).mesh = s.mesh := rfl
@[simp] theorem modAgent_attach (c : Nat) (f : EdgeAgent → EdgeAgent) : (s.modAgent c f).attach = s.attach := rfl
@[simp] theorem modAgent_stks (c : Nat) (f : EdgeAgent → EdgeAgent) : (s.modAgent c f).stks = s.stks := rfl
@[simp] theorem modAgent_multiFail (c : Nat) (f : EdgeAgent → EdgeAgent) : (s.modAgent c f).multiFail = s.multiFail := rfl
@[simp] theorem modAgent_multiNum (c : Nat) (f : EdgeAgent → EdgeAgent) : (s.modAgent c f).multiNum = s.multiNum := rfl
@[simp] theorem modAgent_book (c : Nat) (f : EdgeAgent → EdgeAgent) : (s.modAgent c f).book = s.book := rfl
@[simp] theorem modAgent_lastPart (c : Nat) (f : EdgeAgent → EdgeAgent) : (s.modAgent c f).lastPart = s.lastPart := rfl
@[simp] theorem modAgent_dispAt (c : Nat) (f : EdgeAgent → EdgeAgent) : (s.modAgent c f).dispAt = s.dispAt := rfl
@[simp] theorem modAgent_fetchAt (c : Nat) (f : EdgeAgent → EdgeAgent) : (s.modAgent c f).fetchAt = s.fetchAt := rfl
@[simp] theorem modAgent_lastSeq (c : Nat) (f : EdgeAgent → EdgeAgent) : (s.modAgent c f).lastSeq = s.lastSeq := rfl
@[simp] theorem modAgent_bookAt (c : Nat) (f : EdgeAgent → EdgeAgent) : (s.modAgent c f).bookAt = s.bookAt := rfl
@[simp] theorem modAgent_pendingRetire (c : Nat) (f : EdgeAgent → EdgeAgent) : (s.modAgent c f).pendingRetire = s.pendingRetire := rfl
@[simp] theorem modAgent_causes (c : Nat) (f : EdgeAgent → EdgeAgent) : (s.modAgent c f).causes = s.causes := rfl
@[simp] theorem modAgent_ports (c : Nat) (f : EdgeAgent → EdgeAgent) : (s.modAgent c f).ports = s.ports := rfl
@[simp] theorem modAgent_membs (c : Nat) (f : EdgeAgent → EdgeAgent) : (s.modAgent c f).membs = s.membs := rfl
@[simp] theorem modAgent_sess (c : Nat) (f : EdgeAgent → EdgeAgent) : (s.modAgent c f).sess = s.sess := rfl
@[simp] theorem modAgent_takePart (c : Nat) (f : EdgeAgent → EdgeAgent) : (s.modAgent c f).takePart = s.takePart := rfl
@[simp] theorem modAgent_takeSid (c : Nat) (f : EdgeAgent → EdgeAgent) : (s.modAgent c f).takeSid = s.takeSid := rfl
@[simp] theorem modAgent_defs (c : Nat) (f : EdgeAgent → EdgeAgent) : (s.modAgent c f).defs = s.defs := rfl
@[simp] theorem modAgent_fuse (c : Nat) (f : EdgeAgent → EdgeAgent) : (s.modAgent c f).fuse = s.fuse := rfl
@[simp] theorem modAgent_flash (c : Nat) (f : EdgeAgent → EdgeAgent) : (s.modAgent c f).flash = s.flash := rfl
@[simp] theorem modAgent_inForce (c : Nat) (f : EdgeAgent → EdgeAgent) : (s.modAgent c f).inForce = s.inForce := rfl
@[simp] theorem modAgent_applied (c : Nat) (f : EdgeAgent → EdgeAgent) : (s.modAgent c f).applied = s.applied := rfl
@[simp] theorem modAgent_running (c : Nat) (f : EdgeAgent → EdgeAgent) : (s.modAgent c f).running = s.running := rfl
@[simp] theorem modAgent_pwr (c : Nat) (f : EdgeAgent → EdgeAgent) : (s.modAgent c f).pwr = s.pwr := rfl
@[simp] theorem modAgent_smbOut (c : Nat) (f : EdgeAgent → EdgeAgent) : (s.modAgent c f).smbOut = s.smbOut := rfl
@[simp] theorem modAgent_retireSel (c : Nat) (f : EdgeAgent → EdgeAgent) : (s.modAgent c f).retireSel = s.retireSel := rfl
@[simp] theorem modAgent_repSel (c : Nat) (f : EdgeAgent → EdgeAgent) : (s.modAgent c f).repSel = s.repSel := rfl
@[simp] theorem modAgent_smScrub (c : Nat) (f : EdgeAgent → EdgeAgent) : (s.modAgent c f).smScrub = s.smScrub := rfl
@[simp] theorem modAgent_ctls (c : Nat) (f : EdgeAgent → EdgeAgent) : (s.modAgent c f).ctls = s.ctls := rfl
@[simp] theorem modAgent_pending (c : Nat) (f : EdgeAgent → EdgeAgent) : (s.modAgent c f).pending = s.pending := rfl

@[simp] theorem modStack_free (i : Nat) (f : Stack → Stack) : (s.modStack i f).free = s.free := rfl
@[simp] theorem modStack_now (i : Nat) (f : Stack → Stack) : (s.modStack i f).now = s.now := rfl
@[simp] theorem modStack_grade (i : Nat) (f : Stack → Stack) : (s.modStack i f).grade = s.grade := rfl
@[simp] theorem modStack_mem (i : Nat) (f : Stack → Stack) : (s.modStack i f).mem = s.mem := rfl
@[simp] theorem modStack_dmg (i : Nat) (f : Stack → Stack) : (s.modStack i f).dmg = s.dmg := rfl
@[simp] theorem modStack_dieEcc (i : Nat) (f : Stack → Stack) : (s.modStack i f).dieEcc = s.dieEcc := rfl
@[simp] theorem modStack_elog (i : Nat) (f : Stack → Stack) : (s.modStack i f).elog = s.elog := rfl
@[simp] theorem modStack_corrLog (i : Nat) (f : Stack → Stack) : (s.modStack i f).corrLog = s.corrLog := rfl
@[simp] theorem modStack_past (i : Nat) (f : Stack → Stack) : (s.modStack i f).past = s.past := rfl
@[simp] theorem modStack_clock (i : Nat) (f : Stack → Stack) : (s.modStack i f).clock = s.clock := rfl
@[simp] theorem modStack_parts (i : Nat) (f : Stack → Stack) : (s.modStack i f).parts = s.parts := rfl
@[simp] theorem modStack_cores (i : Nat) (f : Stack → Stack) : (s.modStack i f).cores = s.cores := rfl
@[simp] theorem modStack_mesh (i : Nat) (f : Stack → Stack) : (s.modStack i f).mesh = s.mesh := rfl
@[simp] theorem modStack_attach (i : Nat) (f : Stack → Stack) : (s.modStack i f).attach = s.attach := rfl
@[simp] theorem modStack_agents (i : Nat) (f : Stack → Stack) : (s.modStack i f).agents = s.agents := rfl
@[simp] theorem modStack_multiFail (i : Nat) (f : Stack → Stack) : (s.modStack i f).multiFail = s.multiFail := rfl
@[simp] theorem modStack_multiNum (i : Nat) (f : Stack → Stack) : (s.modStack i f).multiNum = s.multiNum := rfl
@[simp] theorem modStack_book (i : Nat) (f : Stack → Stack) : (s.modStack i f).book = s.book := rfl
@[simp] theorem modStack_lastPart (i : Nat) (f : Stack → Stack) : (s.modStack i f).lastPart = s.lastPart := rfl
@[simp] theorem modStack_dispAt (i : Nat) (f : Stack → Stack) : (s.modStack i f).dispAt = s.dispAt := rfl
@[simp] theorem modStack_fetchAt (i : Nat) (f : Stack → Stack) : (s.modStack i f).fetchAt = s.fetchAt := rfl
@[simp] theorem modStack_lastSeq (i : Nat) (f : Stack → Stack) : (s.modStack i f).lastSeq = s.lastSeq := rfl
@[simp] theorem modStack_bookAt (i : Nat) (f : Stack → Stack) : (s.modStack i f).bookAt = s.bookAt := rfl
@[simp] theorem modStack_pendingRetire (i : Nat) (f : Stack → Stack) : (s.modStack i f).pendingRetire = s.pendingRetire := rfl
@[simp] theorem modStack_causes (i : Nat) (f : Stack → Stack) : (s.modStack i f).causes = s.causes := rfl
@[simp] theorem modStack_ports (i : Nat) (f : Stack → Stack) : (s.modStack i f).ports = s.ports := rfl
@[simp] theorem modStack_membs (i : Nat) (f : Stack → Stack) : (s.modStack i f).membs = s.membs := rfl
@[simp] theorem modStack_sess (i : Nat) (f : Stack → Stack) : (s.modStack i f).sess = s.sess := rfl
@[simp] theorem modStack_takePart (i : Nat) (f : Stack → Stack) : (s.modStack i f).takePart = s.takePart := rfl
@[simp] theorem modStack_takeSid (i : Nat) (f : Stack → Stack) : (s.modStack i f).takeSid = s.takeSid := rfl
@[simp] theorem modStack_defs (i : Nat) (f : Stack → Stack) : (s.modStack i f).defs = s.defs := rfl
@[simp] theorem modStack_fuse (i : Nat) (f : Stack → Stack) : (s.modStack i f).fuse = s.fuse := rfl
@[simp] theorem modStack_flash (i : Nat) (f : Stack → Stack) : (s.modStack i f).flash = s.flash := rfl
@[simp] theorem modStack_inForce (i : Nat) (f : Stack → Stack) : (s.modStack i f).inForce = s.inForce := rfl
@[simp] theorem modStack_applied (i : Nat) (f : Stack → Stack) : (s.modStack i f).applied = s.applied := rfl
@[simp] theorem modStack_running (i : Nat) (f : Stack → Stack) : (s.modStack i f).running = s.running := rfl
@[simp] theorem modStack_pwr (i : Nat) (f : Stack → Stack) : (s.modStack i f).pwr = s.pwr := rfl
@[simp] theorem modStack_smbOut (i : Nat) (f : Stack → Stack) : (s.modStack i f).smbOut = s.smbOut := rfl
@[simp] theorem modStack_retireSel (i : Nat) (f : Stack → Stack) : (s.modStack i f).retireSel = s.retireSel := rfl
@[simp] theorem modStack_repSel (i : Nat) (f : Stack → Stack) : (s.modStack i f).repSel = s.repSel := rfl
@[simp] theorem modStack_smScrub (i : Nat) (f : Stack → Stack) : (s.modStack i f).smScrub = s.smScrub := rfl
@[simp] theorem modStack_ctls (i : Nat) (f : Stack → Stack) : (s.modStack i f).ctls = s.ctls := rfl
@[simp] theorem modStack_pending (i : Nat) (f : Stack → Stack) : (s.modStack i f).pending = s.pending := rfl

@[simp] theorem modAtt_free (c : Nat) (f : Attach → Attach) : (s.modAtt c f).free = s.free := rfl
@[simp] theorem modAtt_now (c : Nat) (f : Attach → Attach) : (s.modAtt c f).now = s.now := rfl
@[simp] theorem modAtt_grade (c : Nat) (f : Attach → Attach) : (s.modAtt c f).grade = s.grade := rfl
@[simp] theorem modAtt_mem (c : Nat) (f : Attach → Attach) : (s.modAtt c f).mem = s.mem := rfl
@[simp] theorem modAtt_dmg (c : Nat) (f : Attach → Attach) : (s.modAtt c f).dmg = s.dmg := rfl
@[simp] theorem modAtt_dieEcc (c : Nat) (f : Attach → Attach) : (s.modAtt c f).dieEcc = s.dieEcc := rfl
@[simp] theorem modAtt_elog (c : Nat) (f : Attach → Attach) : (s.modAtt c f).elog = s.elog := rfl
@[simp] theorem modAtt_corrLog (c : Nat) (f : Attach → Attach) : (s.modAtt c f).corrLog = s.corrLog := rfl
@[simp] theorem modAtt_past (c : Nat) (f : Attach → Attach) : (s.modAtt c f).past = s.past := rfl
@[simp] theorem modAtt_clock (c : Nat) (f : Attach → Attach) : (s.modAtt c f).clock = s.clock := rfl
@[simp] theorem modAtt_parts (c : Nat) (f : Attach → Attach) : (s.modAtt c f).parts = s.parts := rfl
@[simp] theorem modAtt_cores (c : Nat) (f : Attach → Attach) : (s.modAtt c f).cores = s.cores := rfl
@[simp] theorem modAtt_mesh (c : Nat) (f : Attach → Attach) : (s.modAtt c f).mesh = s.mesh := rfl
@[simp] theorem modAtt_agents (c : Nat) (f : Attach → Attach) : (s.modAtt c f).agents = s.agents := rfl
@[simp] theorem modAtt_stks (c : Nat) (f : Attach → Attach) : (s.modAtt c f).stks = s.stks := rfl
@[simp] theorem modAtt_multiFail (c : Nat) (f : Attach → Attach) : (s.modAtt c f).multiFail = s.multiFail := rfl
@[simp] theorem modAtt_multiNum (c : Nat) (f : Attach → Attach) : (s.modAtt c f).multiNum = s.multiNum := rfl
@[simp] theorem modAtt_book (c : Nat) (f : Attach → Attach) : (s.modAtt c f).book = s.book := rfl
@[simp] theorem modAtt_lastPart (c : Nat) (f : Attach → Attach) : (s.modAtt c f).lastPart = s.lastPart := rfl
@[simp] theorem modAtt_dispAt (c : Nat) (f : Attach → Attach) : (s.modAtt c f).dispAt = s.dispAt := rfl
@[simp] theorem modAtt_fetchAt (c : Nat) (f : Attach → Attach) : (s.modAtt c f).fetchAt = s.fetchAt := rfl
@[simp] theorem modAtt_lastSeq (c : Nat) (f : Attach → Attach) : (s.modAtt c f).lastSeq = s.lastSeq := rfl
@[simp] theorem modAtt_bookAt (c : Nat) (f : Attach → Attach) : (s.modAtt c f).bookAt = s.bookAt := rfl
@[simp] theorem modAtt_pendingRetire (c : Nat) (f : Attach → Attach) : (s.modAtt c f).pendingRetire = s.pendingRetire := rfl
@[simp] theorem modAtt_causes (c : Nat) (f : Attach → Attach) : (s.modAtt c f).causes = s.causes := rfl
@[simp] theorem modAtt_ports (c : Nat) (f : Attach → Attach) : (s.modAtt c f).ports = s.ports := rfl
@[simp] theorem modAtt_membs (c : Nat) (f : Attach → Attach) : (s.modAtt c f).membs = s.membs := rfl
@[simp] theorem modAtt_sess (c : Nat) (f : Attach → Attach) : (s.modAtt c f).sess = s.sess := rfl
@[simp] theorem modAtt_takePart (c : Nat) (f : Attach → Attach) : (s.modAtt c f).takePart = s.takePart := rfl
@[simp] theorem modAtt_takeSid (c : Nat) (f : Attach → Attach) : (s.modAtt c f).takeSid = s.takeSid := rfl
@[simp] theorem modAtt_defs (c : Nat) (f : Attach → Attach) : (s.modAtt c f).defs = s.defs := rfl
@[simp] theorem modAtt_fuse (c : Nat) (f : Attach → Attach) : (s.modAtt c f).fuse = s.fuse := rfl
@[simp] theorem modAtt_flash (c : Nat) (f : Attach → Attach) : (s.modAtt c f).flash = s.flash := rfl
@[simp] theorem modAtt_inForce (c : Nat) (f : Attach → Attach) : (s.modAtt c f).inForce = s.inForce := rfl
@[simp] theorem modAtt_applied (c : Nat) (f : Attach → Attach) : (s.modAtt c f).applied = s.applied := rfl
@[simp] theorem modAtt_running (c : Nat) (f : Attach → Attach) : (s.modAtt c f).running = s.running := rfl
@[simp] theorem modAtt_pwr (c : Nat) (f : Attach → Attach) : (s.modAtt c f).pwr = s.pwr := rfl
@[simp] theorem modAtt_smbOut (c : Nat) (f : Attach → Attach) : (s.modAtt c f).smbOut = s.smbOut := rfl
@[simp] theorem modAtt_retireSel (c : Nat) (f : Attach → Attach) : (s.modAtt c f).retireSel = s.retireSel := rfl
@[simp] theorem modAtt_repSel (c : Nat) (f : Attach → Attach) : (s.modAtt c f).repSel = s.repSel := rfl
@[simp] theorem modAtt_smScrub (c : Nat) (f : Attach → Attach) : (s.modAtt c f).smScrub = s.smScrub := rfl
@[simp] theorem modAtt_ctls (c : Nat) (f : Attach → Attach) : (s.modAtt c f).ctls = s.ctls := rfl
@[simp] theorem modAtt_pending (c : Nat) (f : Attach → Attach) : (s.modAtt c f).pending = s.pending := rfl

@[simp] theorem modPort_free (i : Nat) (f : Port → Port) : (s.modPort i f).free = s.free := rfl
@[simp] theorem modPort_now (i : Nat) (f : Port → Port) : (s.modPort i f).now = s.now := rfl
@[simp] theorem modPort_grade (i : Nat) (f : Port → Port) : (s.modPort i f).grade = s.grade := rfl
@[simp] theorem modPort_mem (i : Nat) (f : Port → Port) : (s.modPort i f).mem = s.mem := rfl
@[simp] theorem modPort_dmg (i : Nat) (f : Port → Port) : (s.modPort i f).dmg = s.dmg := rfl
@[simp] theorem modPort_dieEcc (i : Nat) (f : Port → Port) : (s.modPort i f).dieEcc = s.dieEcc := rfl
@[simp] theorem modPort_elog (i : Nat) (f : Port → Port) : (s.modPort i f).elog = s.elog := rfl
@[simp] theorem modPort_corrLog (i : Nat) (f : Port → Port) : (s.modPort i f).corrLog = s.corrLog := rfl
@[simp] theorem modPort_past (i : Nat) (f : Port → Port) : (s.modPort i f).past = s.past := rfl
@[simp] theorem modPort_clock (i : Nat) (f : Port → Port) : (s.modPort i f).clock = s.clock := rfl
@[simp] theorem modPort_parts (i : Nat) (f : Port → Port) : (s.modPort i f).parts = s.parts := rfl
@[simp] theorem modPort_cores (i : Nat) (f : Port → Port) : (s.modPort i f).cores = s.cores := rfl
@[simp] theorem modPort_mesh (i : Nat) (f : Port → Port) : (s.modPort i f).mesh = s.mesh := rfl
@[simp] theorem modPort_attach (i : Nat) (f : Port → Port) : (s.modPort i f).attach = s.attach := rfl
@[simp] theorem modPort_agents (i : Nat) (f : Port → Port) : (s.modPort i f).agents = s.agents := rfl
@[simp] theorem modPort_stks (i : Nat) (f : Port → Port) : (s.modPort i f).stks = s.stks := rfl
@[simp] theorem modPort_multiFail (i : Nat) (f : Port → Port) : (s.modPort i f).multiFail = s.multiFail := rfl
@[simp] theorem modPort_multiNum (i : Nat) (f : Port → Port) : (s.modPort i f).multiNum = s.multiNum := rfl
@[simp] theorem modPort_book (i : Nat) (f : Port → Port) : (s.modPort i f).book = s.book := rfl
@[simp] theorem modPort_lastPart (i : Nat) (f : Port → Port) : (s.modPort i f).lastPart = s.lastPart := rfl
@[simp] theorem modPort_dispAt (i : Nat) (f : Port → Port) : (s.modPort i f).dispAt = s.dispAt := rfl
@[simp] theorem modPort_fetchAt (i : Nat) (f : Port → Port) : (s.modPort i f).fetchAt = s.fetchAt := rfl
@[simp] theorem modPort_lastSeq (i : Nat) (f : Port → Port) : (s.modPort i f).lastSeq = s.lastSeq := rfl
@[simp] theorem modPort_bookAt (i : Nat) (f : Port → Port) : (s.modPort i f).bookAt = s.bookAt := rfl
@[simp] theorem modPort_pendingRetire (i : Nat) (f : Port → Port) : (s.modPort i f).pendingRetire = s.pendingRetire := rfl
@[simp] theorem modPort_causes (i : Nat) (f : Port → Port) : (s.modPort i f).causes = s.causes := rfl
@[simp] theorem modPort_membs (i : Nat) (f : Port → Port) : (s.modPort i f).membs = s.membs := rfl
@[simp] theorem modPort_sess (i : Nat) (f : Port → Port) : (s.modPort i f).sess = s.sess := rfl
@[simp] theorem modPort_takePart (i : Nat) (f : Port → Port) : (s.modPort i f).takePart = s.takePart := rfl
@[simp] theorem modPort_takeSid (i : Nat) (f : Port → Port) : (s.modPort i f).takeSid = s.takeSid := rfl
@[simp] theorem modPort_defs (i : Nat) (f : Port → Port) : (s.modPort i f).defs = s.defs := rfl
@[simp] theorem modPort_fuse (i : Nat) (f : Port → Port) : (s.modPort i f).fuse = s.fuse := rfl
@[simp] theorem modPort_flash (i : Nat) (f : Port → Port) : (s.modPort i f).flash = s.flash := rfl
@[simp] theorem modPort_inForce (i : Nat) (f : Port → Port) : (s.modPort i f).inForce = s.inForce := rfl
@[simp] theorem modPort_applied (i : Nat) (f : Port → Port) : (s.modPort i f).applied = s.applied := rfl
@[simp] theorem modPort_running (i : Nat) (f : Port → Port) : (s.modPort i f).running = s.running := rfl
@[simp] theorem modPort_pwr (i : Nat) (f : Port → Port) : (s.modPort i f).pwr = s.pwr := rfl
@[simp] theorem modPort_smbOut (i : Nat) (f : Port → Port) : (s.modPort i f).smbOut = s.smbOut := rfl
@[simp] theorem modPort_retireSel (i : Nat) (f : Port → Port) : (s.modPort i f).retireSel = s.retireSel := rfl
@[simp] theorem modPort_repSel (i : Nat) (f : Port → Port) : (s.modPort i f).repSel = s.repSel := rfl
@[simp] theorem modPort_smScrub (i : Nat) (f : Port → Port) : (s.modPort i f).smScrub = s.smScrub := rfl
@[simp] theorem modPort_ctls (i : Nat) (f : Port → Port) : (s.modPort i f).ctls = s.ctls := rfl
@[simp] theorem modPort_pending (i : Nat) (f : Port → Port) : (s.modPort i f).pending = s.pending := rfl

@[simp] theorem modMemb_free (c : Nat) (f : Memb → Memb) : (s.modMemb c f).free = s.free := rfl
@[simp] theorem modMemb_now (c : Nat) (f : Memb → Memb) : (s.modMemb c f).now = s.now := rfl
@[simp] theorem modMemb_grade (c : Nat) (f : Memb → Memb) : (s.modMemb c f).grade = s.grade := rfl
@[simp] theorem modMemb_mem (c : Nat) (f : Memb → Memb) : (s.modMemb c f).mem = s.mem := rfl
@[simp] theorem modMemb_dmg (c : Nat) (f : Memb → Memb) : (s.modMemb c f).dmg = s.dmg := rfl
@[simp] theorem modMemb_dieEcc (c : Nat) (f : Memb → Memb) : (s.modMemb c f).dieEcc = s.dieEcc := rfl
@[simp] theorem modMemb_elog (c : Nat) (f : Memb → Memb) : (s.modMemb c f).elog = s.elog := rfl
@[simp] theorem modMemb_corrLog (c : Nat) (f : Memb → Memb) : (s.modMemb c f).corrLog = s.corrLog := rfl
@[simp] theorem modMemb_past (c : Nat) (f : Memb → Memb) : (s.modMemb c f).past = s.past := rfl
@[simp] theorem modMemb_clock (c : Nat) (f : Memb → Memb) : (s.modMemb c f).clock = s.clock := rfl
@[simp] theorem modMemb_parts (c : Nat) (f : Memb → Memb) : (s.modMemb c f).parts = s.parts := rfl
@[simp] theorem modMemb_cores (c : Nat) (f : Memb → Memb) : (s.modMemb c f).cores = s.cores := rfl
@[simp] theorem modMemb_mesh (c : Nat) (f : Memb → Memb) : (s.modMemb c f).mesh = s.mesh := rfl
@[simp] theorem modMemb_attach (c : Nat) (f : Memb → Memb) : (s.modMemb c f).attach = s.attach := rfl
@[simp] theorem modMemb_agents (c : Nat) (f : Memb → Memb) : (s.modMemb c f).agents = s.agents := rfl
@[simp] theorem modMemb_stks (c : Nat) (f : Memb → Memb) : (s.modMemb c f).stks = s.stks := rfl
@[simp] theorem modMemb_multiFail (c : Nat) (f : Memb → Memb) : (s.modMemb c f).multiFail = s.multiFail := rfl
@[simp] theorem modMemb_multiNum (c : Nat) (f : Memb → Memb) : (s.modMemb c f).multiNum = s.multiNum := rfl
@[simp] theorem modMemb_book (c : Nat) (f : Memb → Memb) : (s.modMemb c f).book = s.book := rfl
@[simp] theorem modMemb_lastPart (c : Nat) (f : Memb → Memb) : (s.modMemb c f).lastPart = s.lastPart := rfl
@[simp] theorem modMemb_dispAt (c : Nat) (f : Memb → Memb) : (s.modMemb c f).dispAt = s.dispAt := rfl
@[simp] theorem modMemb_fetchAt (c : Nat) (f : Memb → Memb) : (s.modMemb c f).fetchAt = s.fetchAt := rfl
@[simp] theorem modMemb_lastSeq (c : Nat) (f : Memb → Memb) : (s.modMemb c f).lastSeq = s.lastSeq := rfl
@[simp] theorem modMemb_bookAt (c : Nat) (f : Memb → Memb) : (s.modMemb c f).bookAt = s.bookAt := rfl
@[simp] theorem modMemb_pendingRetire (c : Nat) (f : Memb → Memb) : (s.modMemb c f).pendingRetire = s.pendingRetire := rfl
@[simp] theorem modMemb_causes (c : Nat) (f : Memb → Memb) : (s.modMemb c f).causes = s.causes := rfl
@[simp] theorem modMemb_ports (c : Nat) (f : Memb → Memb) : (s.modMemb c f).ports = s.ports := rfl
@[simp] theorem modMemb_sess (c : Nat) (f : Memb → Memb) : (s.modMemb c f).sess = s.sess := rfl
@[simp] theorem modMemb_takePart (c : Nat) (f : Memb → Memb) : (s.modMemb c f).takePart = s.takePart := rfl
@[simp] theorem modMemb_takeSid (c : Nat) (f : Memb → Memb) : (s.modMemb c f).takeSid = s.takeSid := rfl
@[simp] theorem modMemb_defs (c : Nat) (f : Memb → Memb) : (s.modMemb c f).defs = s.defs := rfl
@[simp] theorem modMemb_fuse (c : Nat) (f : Memb → Memb) : (s.modMemb c f).fuse = s.fuse := rfl
@[simp] theorem modMemb_flash (c : Nat) (f : Memb → Memb) : (s.modMemb c f).flash = s.flash := rfl
@[simp] theorem modMemb_inForce (c : Nat) (f : Memb → Memb) : (s.modMemb c f).inForce = s.inForce := rfl
@[simp] theorem modMemb_applied (c : Nat) (f : Memb → Memb) : (s.modMemb c f).applied = s.applied := rfl
@[simp] theorem modMemb_running (c : Nat) (f : Memb → Memb) : (s.modMemb c f).running = s.running := rfl
@[simp] theorem modMemb_pwr (c : Nat) (f : Memb → Memb) : (s.modMemb c f).pwr = s.pwr := rfl
@[simp] theorem modMemb_smbOut (c : Nat) (f : Memb → Memb) : (s.modMemb c f).smbOut = s.smbOut := rfl
@[simp] theorem modMemb_retireSel (c : Nat) (f : Memb → Memb) : (s.modMemb c f).retireSel = s.retireSel := rfl
@[simp] theorem modMemb_repSel (c : Nat) (f : Memb → Memb) : (s.modMemb c f).repSel = s.repSel := rfl
@[simp] theorem modMemb_smScrub (c : Nat) (f : Memb → Memb) : (s.modMemb c f).smScrub = s.smScrub := rfl
@[simp] theorem modMemb_ctls (c : Nat) (f : Memb → Memb) : (s.modMemb c f).ctls = s.ctls := rfl
@[simp] theorem modMemb_pending (c : Nat) (f : Memb → Memb) : (s.modMemb c f).pending = s.pending := rfl

@[simp] theorem modStep_free (c : Nat) (f : Step → Step) : (s.modStep c f).free = s.free := rfl
@[simp] theorem modStep_now (c : Nat) (f : Step → Step) : (s.modStep c f).now = s.now := rfl
@[simp] theorem modStep_grade (c : Nat) (f : Step → Step) : (s.modStep c f).grade = s.grade := rfl
@[simp] theorem modStep_mem (c : Nat) (f : Step → Step) : (s.modStep c f).mem = s.mem := rfl
@[simp] theorem modStep_dmg (c : Nat) (f : Step → Step) : (s.modStep c f).dmg = s.dmg := rfl
@[simp] theorem modStep_dieEcc (c : Nat) (f : Step → Step) : (s.modStep c f).dieEcc = s.dieEcc := rfl
@[simp] theorem modStep_elog (c : Nat) (f : Step → Step) : (s.modStep c f).elog = s.elog := rfl
@[simp] theorem modStep_corrLog (c : Nat) (f : Step → Step) : (s.modStep c f).corrLog = s.corrLog := rfl
@[simp] theorem modStep_past (c : Nat) (f : Step → Step) : (s.modStep c f).past = s.past := rfl
@[simp] theorem modStep_clock (c : Nat) (f : Step → Step) : (s.modStep c f).clock = s.clock := rfl
@[simp] theorem modStep_parts (c : Nat) (f : Step → Step) : (s.modStep c f).parts = s.parts := rfl
@[simp] theorem modStep_cores (c : Nat) (f : Step → Step) : (s.modStep c f).cores = s.cores := rfl
@[simp] theorem modStep_mesh (c : Nat) (f : Step → Step) : (s.modStep c f).mesh = s.mesh := rfl
@[simp] theorem modStep_attach (c : Nat) (f : Step → Step) : (s.modStep c f).attach = s.attach := rfl
@[simp] theorem modStep_agents (c : Nat) (f : Step → Step) : (s.modStep c f).agents = s.agents := rfl
@[simp] theorem modStep_stks (c : Nat) (f : Step → Step) : (s.modStep c f).stks = s.stks := rfl
@[simp] theorem modStep_multiFail (c : Nat) (f : Step → Step) : (s.modStep c f).multiFail = s.multiFail := rfl
@[simp] theorem modStep_multiNum (c : Nat) (f : Step → Step) : (s.modStep c f).multiNum = s.multiNum := rfl
@[simp] theorem modStep_book (c : Nat) (f : Step → Step) : (s.modStep c f).book = s.book := rfl
@[simp] theorem modStep_lastPart (c : Nat) (f : Step → Step) : (s.modStep c f).lastPart = s.lastPart := rfl
@[simp] theorem modStep_dispAt (c : Nat) (f : Step → Step) : (s.modStep c f).dispAt = s.dispAt := rfl
@[simp] theorem modStep_fetchAt (c : Nat) (f : Step → Step) : (s.modStep c f).fetchAt = s.fetchAt := rfl
@[simp] theorem modStep_lastSeq (c : Nat) (f : Step → Step) : (s.modStep c f).lastSeq = s.lastSeq := rfl
@[simp] theorem modStep_bookAt (c : Nat) (f : Step → Step) : (s.modStep c f).bookAt = s.bookAt := rfl
@[simp] theorem modStep_pendingRetire (c : Nat) (f : Step → Step) : (s.modStep c f).pendingRetire = s.pendingRetire := rfl
@[simp] theorem modStep_causes (c : Nat) (f : Step → Step) : (s.modStep c f).causes = s.causes := rfl
@[simp] theorem modStep_ports (c : Nat) (f : Step → Step) : (s.modStep c f).ports = s.ports := rfl
@[simp] theorem modStep_sess (c : Nat) (f : Step → Step) : (s.modStep c f).sess = s.sess := rfl
@[simp] theorem modStep_takePart (c : Nat) (f : Step → Step) : (s.modStep c f).takePart = s.takePart := rfl
@[simp] theorem modStep_takeSid (c : Nat) (f : Step → Step) : (s.modStep c f).takeSid = s.takeSid := rfl
@[simp] theorem modStep_defs (c : Nat) (f : Step → Step) : (s.modStep c f).defs = s.defs := rfl
@[simp] theorem modStep_fuse (c : Nat) (f : Step → Step) : (s.modStep c f).fuse = s.fuse := rfl
@[simp] theorem modStep_flash (c : Nat) (f : Step → Step) : (s.modStep c f).flash = s.flash := rfl
@[simp] theorem modStep_inForce (c : Nat) (f : Step → Step) : (s.modStep c f).inForce = s.inForce := rfl
@[simp] theorem modStep_applied (c : Nat) (f : Step → Step) : (s.modStep c f).applied = s.applied := rfl
@[simp] theorem modStep_running (c : Nat) (f : Step → Step) : (s.modStep c f).running = s.running := rfl
@[simp] theorem modStep_pwr (c : Nat) (f : Step → Step) : (s.modStep c f).pwr = s.pwr := rfl
@[simp] theorem modStep_smbOut (c : Nat) (f : Step → Step) : (s.modStep c f).smbOut = s.smbOut := rfl
@[simp] theorem modStep_retireSel (c : Nat) (f : Step → Step) : (s.modStep c f).retireSel = s.retireSel := rfl
@[simp] theorem modStep_repSel (c : Nat) (f : Step → Step) : (s.modStep c f).repSel = s.repSel := rfl
@[simp] theorem modStep_smScrub (c : Nat) (f : Step → Step) : (s.modStep c f).smScrub = s.smScrub := rfl
@[simp] theorem modStep_ctls (c : Nat) (f : Step → Step) : (s.modStep c f).ctls = s.ctls := rfl
@[simp] theorem modStep_pending (c : Nat) (f : Step → Step) : (s.modStep c f).pending = s.pending := rfl

@[simp] theorem modPStep_free (c b : Nat) (f : PStep → PStep) : (s.modPStep c b f).free = s.free := rfl
@[simp] theorem modPStep_now (c b : Nat) (f : PStep → PStep) : (s.modPStep c b f).now = s.now := rfl
@[simp] theorem modPStep_grade (c b : Nat) (f : PStep → PStep) : (s.modPStep c b f).grade = s.grade := rfl
@[simp] theorem modPStep_mem (c b : Nat) (f : PStep → PStep) : (s.modPStep c b f).mem = s.mem := rfl
@[simp] theorem modPStep_dmg (c b : Nat) (f : PStep → PStep) : (s.modPStep c b f).dmg = s.dmg := rfl
@[simp] theorem modPStep_dieEcc (c b : Nat) (f : PStep → PStep) : (s.modPStep c b f).dieEcc = s.dieEcc := rfl
@[simp] theorem modPStep_elog (c b : Nat) (f : PStep → PStep) : (s.modPStep c b f).elog = s.elog := rfl
@[simp] theorem modPStep_corrLog (c b : Nat) (f : PStep → PStep) : (s.modPStep c b f).corrLog = s.corrLog := rfl
@[simp] theorem modPStep_past (c b : Nat) (f : PStep → PStep) : (s.modPStep c b f).past = s.past := rfl
@[simp] theorem modPStep_clock (c b : Nat) (f : PStep → PStep) : (s.modPStep c b f).clock = s.clock := rfl
@[simp] theorem modPStep_parts (c b : Nat) (f : PStep → PStep) : (s.modPStep c b f).parts = s.parts := rfl
@[simp] theorem modPStep_cores (c b : Nat) (f : PStep → PStep) : (s.modPStep c b f).cores = s.cores := rfl
@[simp] theorem modPStep_mesh (c b : Nat) (f : PStep → PStep) : (s.modPStep c b f).mesh = s.mesh := rfl
@[simp] theorem modPStep_attach (c b : Nat) (f : PStep → PStep) : (s.modPStep c b f).attach = s.attach := rfl
@[simp] theorem modPStep_agents (c b : Nat) (f : PStep → PStep) : (s.modPStep c b f).agents = s.agents := rfl
@[simp] theorem modPStep_stks (c b : Nat) (f : PStep → PStep) : (s.modPStep c b f).stks = s.stks := rfl
@[simp] theorem modPStep_multiFail (c b : Nat) (f : PStep → PStep) : (s.modPStep c b f).multiFail = s.multiFail := rfl
@[simp] theorem modPStep_multiNum (c b : Nat) (f : PStep → PStep) : (s.modPStep c b f).multiNum = s.multiNum := rfl
@[simp] theorem modPStep_book (c b : Nat) (f : PStep → PStep) : (s.modPStep c b f).book = s.book := rfl
@[simp] theorem modPStep_lastPart (c b : Nat) (f : PStep → PStep) : (s.modPStep c b f).lastPart = s.lastPart := rfl
@[simp] theorem modPStep_dispAt (c b : Nat) (f : PStep → PStep) : (s.modPStep c b f).dispAt = s.dispAt := rfl
@[simp] theorem modPStep_fetchAt (c b : Nat) (f : PStep → PStep) : (s.modPStep c b f).fetchAt = s.fetchAt := rfl
@[simp] theorem modPStep_lastSeq (c b : Nat) (f : PStep → PStep) : (s.modPStep c b f).lastSeq = s.lastSeq := rfl
@[simp] theorem modPStep_bookAt (c b : Nat) (f : PStep → PStep) : (s.modPStep c b f).bookAt = s.bookAt := rfl
@[simp] theorem modPStep_pendingRetire (c b : Nat) (f : PStep → PStep) : (s.modPStep c b f).pendingRetire = s.pendingRetire := rfl
@[simp] theorem modPStep_causes (c b : Nat) (f : PStep → PStep) : (s.modPStep c b f).causes = s.causes := rfl
@[simp] theorem modPStep_ports (c b : Nat) (f : PStep → PStep) : (s.modPStep c b f).ports = s.ports := rfl
@[simp] theorem modPStep_sess (c b : Nat) (f : PStep → PStep) : (s.modPStep c b f).sess = s.sess := rfl
@[simp] theorem modPStep_takePart (c b : Nat) (f : PStep → PStep) : (s.modPStep c b f).takePart = s.takePart := rfl
@[simp] theorem modPStep_takeSid (c b : Nat) (f : PStep → PStep) : (s.modPStep c b f).takeSid = s.takeSid := rfl
@[simp] theorem modPStep_defs (c b : Nat) (f : PStep → PStep) : (s.modPStep c b f).defs = s.defs := rfl
@[simp] theorem modPStep_fuse (c b : Nat) (f : PStep → PStep) : (s.modPStep c b f).fuse = s.fuse := rfl
@[simp] theorem modPStep_flash (c b : Nat) (f : PStep → PStep) : (s.modPStep c b f).flash = s.flash := rfl
@[simp] theorem modPStep_inForce (c b : Nat) (f : PStep → PStep) : (s.modPStep c b f).inForce = s.inForce := rfl
@[simp] theorem modPStep_applied (c b : Nat) (f : PStep → PStep) : (s.modPStep c b f).applied = s.applied := rfl
@[simp] theorem modPStep_running (c b : Nat) (f : PStep → PStep) : (s.modPStep c b f).running = s.running := rfl
@[simp] theorem modPStep_pwr (c b : Nat) (f : PStep → PStep) : (s.modPStep c b f).pwr = s.pwr := rfl
@[simp] theorem modPStep_smbOut (c b : Nat) (f : PStep → PStep) : (s.modPStep c b f).smbOut = s.smbOut := rfl
@[simp] theorem modPStep_retireSel (c b : Nat) (f : PStep → PStep) : (s.modPStep c b f).retireSel = s.retireSel := rfl
@[simp] theorem modPStep_repSel (c b : Nat) (f : PStep → PStep) : (s.modPStep c b f).repSel = s.repSel := rfl
@[simp] theorem modPStep_smScrub (c b : Nat) (f : PStep → PStep) : (s.modPStep c b f).smScrub = s.smScrub := rfl
@[simp] theorem modPStep_ctls (c b : Nat) (f : PStep → PStep) : (s.modPStep c b f).ctls = s.ctls := rfl
@[simp] theorem modPStep_pending (c b : Nat) (f : PStep → PStep) : (s.modPStep c b f).pending = s.pending := rfl

@[simp] theorem modSess_free (sid : Nat) (f : Sess → Sess) : (s.modSess sid f).free = s.free := rfl
@[simp] theorem modSess_now (sid : Nat) (f : Sess → Sess) : (s.modSess sid f).now = s.now := rfl
@[simp] theorem modSess_grade (sid : Nat) (f : Sess → Sess) : (s.modSess sid f).grade = s.grade := rfl
@[simp] theorem modSess_mem (sid : Nat) (f : Sess → Sess) : (s.modSess sid f).mem = s.mem := rfl
@[simp] theorem modSess_dmg (sid : Nat) (f : Sess → Sess) : (s.modSess sid f).dmg = s.dmg := rfl
@[simp] theorem modSess_dieEcc (sid : Nat) (f : Sess → Sess) : (s.modSess sid f).dieEcc = s.dieEcc := rfl
@[simp] theorem modSess_elog (sid : Nat) (f : Sess → Sess) : (s.modSess sid f).elog = s.elog := rfl
@[simp] theorem modSess_corrLog (sid : Nat) (f : Sess → Sess) : (s.modSess sid f).corrLog = s.corrLog := rfl
@[simp] theorem modSess_past (sid : Nat) (f : Sess → Sess) : (s.modSess sid f).past = s.past := rfl
@[simp] theorem modSess_clock (sid : Nat) (f : Sess → Sess) : (s.modSess sid f).clock = s.clock := rfl
@[simp] theorem modSess_parts (sid : Nat) (f : Sess → Sess) : (s.modSess sid f).parts = s.parts := rfl
@[simp] theorem modSess_cores (sid : Nat) (f : Sess → Sess) : (s.modSess sid f).cores = s.cores := rfl
@[simp] theorem modSess_mesh (sid : Nat) (f : Sess → Sess) : (s.modSess sid f).mesh = s.mesh := rfl
@[simp] theorem modSess_attach (sid : Nat) (f : Sess → Sess) : (s.modSess sid f).attach = s.attach := rfl
@[simp] theorem modSess_agents (sid : Nat) (f : Sess → Sess) : (s.modSess sid f).agents = s.agents := rfl
@[simp] theorem modSess_stks (sid : Nat) (f : Sess → Sess) : (s.modSess sid f).stks = s.stks := rfl
@[simp] theorem modSess_multiFail (sid : Nat) (f : Sess → Sess) : (s.modSess sid f).multiFail = s.multiFail := rfl
@[simp] theorem modSess_multiNum (sid : Nat) (f : Sess → Sess) : (s.modSess sid f).multiNum = s.multiNum := rfl
@[simp] theorem modSess_book (sid : Nat) (f : Sess → Sess) : (s.modSess sid f).book = s.book := rfl
@[simp] theorem modSess_lastPart (sid : Nat) (f : Sess → Sess) : (s.modSess sid f).lastPart = s.lastPart := rfl
@[simp] theorem modSess_dispAt (sid : Nat) (f : Sess → Sess) : (s.modSess sid f).dispAt = s.dispAt := rfl
@[simp] theorem modSess_fetchAt (sid : Nat) (f : Sess → Sess) : (s.modSess sid f).fetchAt = s.fetchAt := rfl
@[simp] theorem modSess_lastSeq (sid : Nat) (f : Sess → Sess) : (s.modSess sid f).lastSeq = s.lastSeq := rfl
@[simp] theorem modSess_bookAt (sid : Nat) (f : Sess → Sess) : (s.modSess sid f).bookAt = s.bookAt := rfl
@[simp] theorem modSess_pendingRetire (sid : Nat) (f : Sess → Sess) : (s.modSess sid f).pendingRetire = s.pendingRetire := rfl
@[simp] theorem modSess_causes (sid : Nat) (f : Sess → Sess) : (s.modSess sid f).causes = s.causes := rfl
@[simp] theorem modSess_ports (sid : Nat) (f : Sess → Sess) : (s.modSess sid f).ports = s.ports := rfl
@[simp] theorem modSess_membs (sid : Nat) (f : Sess → Sess) : (s.modSess sid f).membs = s.membs := rfl
@[simp] theorem modSess_takePart (sid : Nat) (f : Sess → Sess) : (s.modSess sid f).takePart = s.takePart := rfl
@[simp] theorem modSess_takeSid (sid : Nat) (f : Sess → Sess) : (s.modSess sid f).takeSid = s.takeSid := rfl
@[simp] theorem modSess_defs (sid : Nat) (f : Sess → Sess) : (s.modSess sid f).defs = s.defs := rfl
@[simp] theorem modSess_fuse (sid : Nat) (f : Sess → Sess) : (s.modSess sid f).fuse = s.fuse := rfl
@[simp] theorem modSess_flash (sid : Nat) (f : Sess → Sess) : (s.modSess sid f).flash = s.flash := rfl
@[simp] theorem modSess_inForce (sid : Nat) (f : Sess → Sess) : (s.modSess sid f).inForce = s.inForce := rfl
@[simp] theorem modSess_applied (sid : Nat) (f : Sess → Sess) : (s.modSess sid f).applied = s.applied := rfl
@[simp] theorem modSess_running (sid : Nat) (f : Sess → Sess) : (s.modSess sid f).running = s.running := rfl
@[simp] theorem modSess_pwr (sid : Nat) (f : Sess → Sess) : (s.modSess sid f).pwr = s.pwr := rfl
@[simp] theorem modSess_smbOut (sid : Nat) (f : Sess → Sess) : (s.modSess sid f).smbOut = s.smbOut := rfl
@[simp] theorem modSess_retireSel (sid : Nat) (f : Sess → Sess) : (s.modSess sid f).retireSel = s.retireSel := rfl
@[simp] theorem modSess_repSel (sid : Nat) (f : Sess → Sess) : (s.modSess sid f).repSel = s.repSel := rfl
@[simp] theorem modSess_smScrub (sid : Nat) (f : Sess → Sess) : (s.modSess sid f).smScrub = s.smScrub := rfl
@[simp] theorem modSess_ctls (sid : Nat) (f : Sess → Sess) : (s.modSess sid f).ctls = s.ctls := rfl
@[simp] theorem modSess_pending (sid : Nat) (f : Sess → Sess) : (s.modSess sid f).pending = s.pending := rfl

@[simp] theorem modPwr_free (f : Power → Power) : (s.modPwr f).free = s.free := rfl
@[simp] theorem modPwr_now (f : Power → Power) : (s.modPwr f).now = s.now := rfl
@[simp] theorem modPwr_grade (f : Power → Power) : (s.modPwr f).grade = s.grade := rfl
@[simp] theorem modPwr_mem (f : Power → Power) : (s.modPwr f).mem = s.mem := rfl
@[simp] theorem modPwr_dmg (f : Power → Power) : (s.modPwr f).dmg = s.dmg := rfl
@[simp] theorem modPwr_dieEcc (f : Power → Power) : (s.modPwr f).dieEcc = s.dieEcc := rfl
@[simp] theorem modPwr_elog (f : Power → Power) : (s.modPwr f).elog = s.elog := rfl
@[simp] theorem modPwr_corrLog (f : Power → Power) : (s.modPwr f).corrLog = s.corrLog := rfl
@[simp] theorem modPwr_past (f : Power → Power) : (s.modPwr f).past = s.past := rfl
@[simp] theorem modPwr_clock (f : Power → Power) : (s.modPwr f).clock = s.clock := rfl
@[simp] theorem modPwr_parts (f : Power → Power) : (s.modPwr f).parts = s.parts := rfl
@[simp] theorem modPwr_cores (f : Power → Power) : (s.modPwr f).cores = s.cores := rfl
@[simp] theorem modPwr_mesh (f : Power → Power) : (s.modPwr f).mesh = s.mesh := rfl
@[simp] theorem modPwr_attach (f : Power → Power) : (s.modPwr f).attach = s.attach := rfl
@[simp] theorem modPwr_agents (f : Power → Power) : (s.modPwr f).agents = s.agents := rfl
@[simp] theorem modPwr_stks (f : Power → Power) : (s.modPwr f).stks = s.stks := rfl
@[simp] theorem modPwr_multiFail (f : Power → Power) : (s.modPwr f).multiFail = s.multiFail := rfl
@[simp] theorem modPwr_multiNum (f : Power → Power) : (s.modPwr f).multiNum = s.multiNum := rfl
@[simp] theorem modPwr_book (f : Power → Power) : (s.modPwr f).book = s.book := rfl
@[simp] theorem modPwr_lastPart (f : Power → Power) : (s.modPwr f).lastPart = s.lastPart := rfl
@[simp] theorem modPwr_dispAt (f : Power → Power) : (s.modPwr f).dispAt = s.dispAt := rfl
@[simp] theorem modPwr_fetchAt (f : Power → Power) : (s.modPwr f).fetchAt = s.fetchAt := rfl
@[simp] theorem modPwr_lastSeq (f : Power → Power) : (s.modPwr f).lastSeq = s.lastSeq := rfl
@[simp] theorem modPwr_bookAt (f : Power → Power) : (s.modPwr f).bookAt = s.bookAt := rfl
@[simp] theorem modPwr_pendingRetire (f : Power → Power) : (s.modPwr f).pendingRetire = s.pendingRetire := rfl
@[simp] theorem modPwr_causes (f : Power → Power) : (s.modPwr f).causes = s.causes := rfl
@[simp] theorem modPwr_ports (f : Power → Power) : (s.modPwr f).ports = s.ports := rfl
@[simp] theorem modPwr_membs (f : Power → Power) : (s.modPwr f).membs = s.membs := rfl
@[simp] theorem modPwr_sess (f : Power → Power) : (s.modPwr f).sess = s.sess := rfl
@[simp] theorem modPwr_takePart (f : Power → Power) : (s.modPwr f).takePart = s.takePart := rfl
@[simp] theorem modPwr_takeSid (f : Power → Power) : (s.modPwr f).takeSid = s.takeSid := rfl
@[simp] theorem modPwr_defs (f : Power → Power) : (s.modPwr f).defs = s.defs := rfl
@[simp] theorem modPwr_fuse (f : Power → Power) : (s.modPwr f).fuse = s.fuse := rfl
@[simp] theorem modPwr_flash (f : Power → Power) : (s.modPwr f).flash = s.flash := rfl
@[simp] theorem modPwr_inForce (f : Power → Power) : (s.modPwr f).inForce = s.inForce := rfl
@[simp] theorem modPwr_applied (f : Power → Power) : (s.modPwr f).applied = s.applied := rfl
@[simp] theorem modPwr_running (f : Power → Power) : (s.modPwr f).running = s.running := rfl
@[simp] theorem modPwr_smbOut (f : Power → Power) : (s.modPwr f).smbOut = s.smbOut := rfl
@[simp] theorem modPwr_retireSel (f : Power → Power) : (s.modPwr f).retireSel = s.retireSel := rfl
@[simp] theorem modPwr_repSel (f : Power → Power) : (s.modPwr f).repSel = s.repSel := rfl
@[simp] theorem modPwr_smScrub (f : Power → Power) : (s.modPwr f).smScrub = s.smScrub := rfl
@[simp] theorem modPwr_ctls (f : Power → Power) : (s.modPwr f).ctls = s.ctls := rfl
@[simp] theorem modPwr_pending (f : Power → Power) : (s.modPwr f).pending = s.pending := rfl

@[simp] theorem modMs_free (p : Nat) (f : Stream → Stream) : (s.modMs p f).free = s.free := rfl
@[simp] theorem modMs_now (p : Nat) (f : Stream → Stream) : (s.modMs p f).now = s.now := rfl
@[simp] theorem modMs_grade (p : Nat) (f : Stream → Stream) : (s.modMs p f).grade = s.grade := rfl
@[simp] theorem modMs_mem (p : Nat) (f : Stream → Stream) : (s.modMs p f).mem = s.mem := rfl
@[simp] theorem modMs_dmg (p : Nat) (f : Stream → Stream) : (s.modMs p f).dmg = s.dmg := rfl
@[simp] theorem modMs_dieEcc (p : Nat) (f : Stream → Stream) : (s.modMs p f).dieEcc = s.dieEcc := rfl
@[simp] theorem modMs_elog (p : Nat) (f : Stream → Stream) : (s.modMs p f).elog = s.elog := rfl
@[simp] theorem modMs_corrLog (p : Nat) (f : Stream → Stream) : (s.modMs p f).corrLog = s.corrLog := rfl
@[simp] theorem modMs_past (p : Nat) (f : Stream → Stream) : (s.modMs p f).past = s.past := rfl
@[simp] theorem modMs_clock (p : Nat) (f : Stream → Stream) : (s.modMs p f).clock = s.clock := rfl
@[simp] theorem modMs_cores (p : Nat) (f : Stream → Stream) : (s.modMs p f).cores = s.cores := rfl
@[simp] theorem modMs_mesh (p : Nat) (f : Stream → Stream) : (s.modMs p f).mesh = s.mesh := rfl
@[simp] theorem modMs_attach (p : Nat) (f : Stream → Stream) : (s.modMs p f).attach = s.attach := rfl
@[simp] theorem modMs_agents (p : Nat) (f : Stream → Stream) : (s.modMs p f).agents = s.agents := rfl
@[simp] theorem modMs_stks (p : Nat) (f : Stream → Stream) : (s.modMs p f).stks = s.stks := rfl
@[simp] theorem modMs_multiFail (p : Nat) (f : Stream → Stream) : (s.modMs p f).multiFail = s.multiFail := rfl
@[simp] theorem modMs_multiNum (p : Nat) (f : Stream → Stream) : (s.modMs p f).multiNum = s.multiNum := rfl
@[simp] theorem modMs_book (p : Nat) (f : Stream → Stream) : (s.modMs p f).book = s.book := rfl
@[simp] theorem modMs_lastPart (p : Nat) (f : Stream → Stream) : (s.modMs p f).lastPart = s.lastPart := rfl
@[simp] theorem modMs_dispAt (p : Nat) (f : Stream → Stream) : (s.modMs p f).dispAt = s.dispAt := rfl
@[simp] theorem modMs_fetchAt (p : Nat) (f : Stream → Stream) : (s.modMs p f).fetchAt = s.fetchAt := rfl
@[simp] theorem modMs_lastSeq (p : Nat) (f : Stream → Stream) : (s.modMs p f).lastSeq = s.lastSeq := rfl
@[simp] theorem modMs_bookAt (p : Nat) (f : Stream → Stream) : (s.modMs p f).bookAt = s.bookAt := rfl
@[simp] theorem modMs_pendingRetire (p : Nat) (f : Stream → Stream) : (s.modMs p f).pendingRetire = s.pendingRetire := rfl
@[simp] theorem modMs_causes (p : Nat) (f : Stream → Stream) : (s.modMs p f).causes = s.causes := rfl
@[simp] theorem modMs_ports (p : Nat) (f : Stream → Stream) : (s.modMs p f).ports = s.ports := rfl
@[simp] theorem modMs_membs (p : Nat) (f : Stream → Stream) : (s.modMs p f).membs = s.membs := rfl
@[simp] theorem modMs_sess (p : Nat) (f : Stream → Stream) : (s.modMs p f).sess = s.sess := rfl
@[simp] theorem modMs_takePart (p : Nat) (f : Stream → Stream) : (s.modMs p f).takePart = s.takePart := rfl
@[simp] theorem modMs_takeSid (p : Nat) (f : Stream → Stream) : (s.modMs p f).takeSid = s.takeSid := rfl
@[simp] theorem modMs_defs (p : Nat) (f : Stream → Stream) : (s.modMs p f).defs = s.defs := rfl
@[simp] theorem modMs_fuse (p : Nat) (f : Stream → Stream) : (s.modMs p f).fuse = s.fuse := rfl
@[simp] theorem modMs_flash (p : Nat) (f : Stream → Stream) : (s.modMs p f).flash = s.flash := rfl
@[simp] theorem modMs_inForce (p : Nat) (f : Stream → Stream) : (s.modMs p f).inForce = s.inForce := rfl
@[simp] theorem modMs_applied (p : Nat) (f : Stream → Stream) : (s.modMs p f).applied = s.applied := rfl
@[simp] theorem modMs_running (p : Nat) (f : Stream → Stream) : (s.modMs p f).running = s.running := rfl
@[simp] theorem modMs_pwr (p : Nat) (f : Stream → Stream) : (s.modMs p f).pwr = s.pwr := rfl
@[simp] theorem modMs_smbOut (p : Nat) (f : Stream → Stream) : (s.modMs p f).smbOut = s.smbOut := rfl
@[simp] theorem modMs_retireSel (p : Nat) (f : Stream → Stream) : (s.modMs p f).retireSel = s.retireSel := rfl
@[simp] theorem modMs_repSel (p : Nat) (f : Stream → Stream) : (s.modMs p f).repSel = s.repSel := rfl
@[simp] theorem modMs_smScrub (p : Nat) (f : Stream → Stream) : (s.modMs p f).smScrub = s.smScrub := rfl
@[simp] theorem modMs_ctls (p : Nat) (f : Stream → Stream) : (s.modMs p f).ctls = s.ctls := rfl
@[simp] theorem modMs_pending (p : Nat) (f : Stream → Stream) : (s.modMs p f).pending = s.pending := rfl

@[simp] theorem modJob_free (p : Nat) (f : Job → Job) : (s.modJob p f).free = s.free := rfl
@[simp] theorem modJob_now (p : Nat) (f : Job → Job) : (s.modJob p f).now = s.now := rfl
@[simp] theorem modJob_grade (p : Nat) (f : Job → Job) : (s.modJob p f).grade = s.grade := rfl
@[simp] theorem modJob_mem (p : Nat) (f : Job → Job) : (s.modJob p f).mem = s.mem := rfl
@[simp] theorem modJob_dmg (p : Nat) (f : Job → Job) : (s.modJob p f).dmg = s.dmg := rfl
@[simp] theorem modJob_dieEcc (p : Nat) (f : Job → Job) : (s.modJob p f).dieEcc = s.dieEcc := rfl
@[simp] theorem modJob_elog (p : Nat) (f : Job → Job) : (s.modJob p f).elog = s.elog := rfl
@[simp] theorem modJob_corrLog (p : Nat) (f : Job → Job) : (s.modJob p f).corrLog = s.corrLog := rfl
@[simp] theorem modJob_past (p : Nat) (f : Job → Job) : (s.modJob p f).past = s.past := rfl
@[simp] theorem modJob_clock (p : Nat) (f : Job → Job) : (s.modJob p f).clock = s.clock := rfl
@[simp] theorem modJob_cores (p : Nat) (f : Job → Job) : (s.modJob p f).cores = s.cores := rfl
@[simp] theorem modJob_mesh (p : Nat) (f : Job → Job) : (s.modJob p f).mesh = s.mesh := rfl
@[simp] theorem modJob_attach (p : Nat) (f : Job → Job) : (s.modJob p f).attach = s.attach := rfl
@[simp] theorem modJob_agents (p : Nat) (f : Job → Job) : (s.modJob p f).agents = s.agents := rfl
@[simp] theorem modJob_stks (p : Nat) (f : Job → Job) : (s.modJob p f).stks = s.stks := rfl
@[simp] theorem modJob_multiFail (p : Nat) (f : Job → Job) : (s.modJob p f).multiFail = s.multiFail := rfl
@[simp] theorem modJob_multiNum (p : Nat) (f : Job → Job) : (s.modJob p f).multiNum = s.multiNum := rfl
@[simp] theorem modJob_book (p : Nat) (f : Job → Job) : (s.modJob p f).book = s.book := rfl
@[simp] theorem modJob_lastPart (p : Nat) (f : Job → Job) : (s.modJob p f).lastPart = s.lastPart := rfl
@[simp] theorem modJob_dispAt (p : Nat) (f : Job → Job) : (s.modJob p f).dispAt = s.dispAt := rfl
@[simp] theorem modJob_fetchAt (p : Nat) (f : Job → Job) : (s.modJob p f).fetchAt = s.fetchAt := rfl
@[simp] theorem modJob_lastSeq (p : Nat) (f : Job → Job) : (s.modJob p f).lastSeq = s.lastSeq := rfl
@[simp] theorem modJob_bookAt (p : Nat) (f : Job → Job) : (s.modJob p f).bookAt = s.bookAt := rfl
@[simp] theorem modJob_pendingRetire (p : Nat) (f : Job → Job) : (s.modJob p f).pendingRetire = s.pendingRetire := rfl
@[simp] theorem modJob_causes (p : Nat) (f : Job → Job) : (s.modJob p f).causes = s.causes := rfl
@[simp] theorem modJob_ports (p : Nat) (f : Job → Job) : (s.modJob p f).ports = s.ports := rfl
@[simp] theorem modJob_membs (p : Nat) (f : Job → Job) : (s.modJob p f).membs = s.membs := rfl
@[simp] theorem modJob_sess (p : Nat) (f : Job → Job) : (s.modJob p f).sess = s.sess := rfl
@[simp] theorem modJob_takePart (p : Nat) (f : Job → Job) : (s.modJob p f).takePart = s.takePart := rfl
@[simp] theorem modJob_takeSid (p : Nat) (f : Job → Job) : (s.modJob p f).takeSid = s.takeSid := rfl
@[simp] theorem modJob_defs (p : Nat) (f : Job → Job) : (s.modJob p f).defs = s.defs := rfl
@[simp] theorem modJob_fuse (p : Nat) (f : Job → Job) : (s.modJob p f).fuse = s.fuse := rfl
@[simp] theorem modJob_flash (p : Nat) (f : Job → Job) : (s.modJob p f).flash = s.flash := rfl
@[simp] theorem modJob_inForce (p : Nat) (f : Job → Job) : (s.modJob p f).inForce = s.inForce := rfl
@[simp] theorem modJob_applied (p : Nat) (f : Job → Job) : (s.modJob p f).applied = s.applied := rfl
@[simp] theorem modJob_running (p : Nat) (f : Job → Job) : (s.modJob p f).running = s.running := rfl
@[simp] theorem modJob_pwr (p : Nat) (f : Job → Job) : (s.modJob p f).pwr = s.pwr := rfl
@[simp] theorem modJob_smbOut (p : Nat) (f : Job → Job) : (s.modJob p f).smbOut = s.smbOut := rfl
@[simp] theorem modJob_retireSel (p : Nat) (f : Job → Job) : (s.modJob p f).retireSel = s.retireSel := rfl
@[simp] theorem modJob_repSel (p : Nat) (f : Job → Job) : (s.modJob p f).repSel = s.repSel := rfl
@[simp] theorem modJob_smScrub (p : Nat) (f : Job → Job) : (s.modJob p f).smScrub = s.smScrub := rfl
@[simp] theorem modJob_ctls (p : Nat) (f : Job → Job) : (s.modJob p f).ctls = s.ctls := rfl
@[simp] theorem modJob_pending (p : Nat) (f : Job → Job) : (s.modJob p f).pending = s.pending := rfl

@[simp] theorem fresh_now : s.fresh.1.now = s.now := rfl
@[simp] theorem fresh_grade : s.fresh.1.grade = s.grade := rfl
@[simp] theorem fresh_mem : s.fresh.1.mem = s.mem := rfl
@[simp] theorem fresh_dmg : s.fresh.1.dmg = s.dmg := rfl
@[simp] theorem fresh_dieEcc : s.fresh.1.dieEcc = s.dieEcc := rfl
@[simp] theorem fresh_elog : s.fresh.1.elog = s.elog := rfl
@[simp] theorem fresh_corrLog : s.fresh.1.corrLog = s.corrLog := rfl
@[simp] theorem fresh_past : s.fresh.1.past = s.past := rfl
@[simp] theorem fresh_clock : s.fresh.1.clock = s.clock := rfl
@[simp] theorem fresh_parts : s.fresh.1.parts = s.parts := rfl
@[simp] theorem fresh_cores : s.fresh.1.cores = s.cores := rfl
@[simp] theorem fresh_mesh : s.fresh.1.mesh = s.mesh := rfl
@[simp] theorem fresh_attach : s.fresh.1.attach = s.attach := rfl
@[simp] theorem fresh_agents : s.fresh.1.agents = s.agents := rfl
@[simp] theorem fresh_stks : s.fresh.1.stks = s.stks := rfl
@[simp] theorem fresh_multiFail : s.fresh.1.multiFail = s.multiFail := rfl
@[simp] theorem fresh_multiNum : s.fresh.1.multiNum = s.multiNum := rfl
@[simp] theorem fresh_book : s.fresh.1.book = s.book := rfl
@[simp] theorem fresh_lastPart : s.fresh.1.lastPart = s.lastPart := rfl
@[simp] theorem fresh_dispAt : s.fresh.1.dispAt = s.dispAt := rfl
@[simp] theorem fresh_fetchAt : s.fresh.1.fetchAt = s.fetchAt := rfl
@[simp] theorem fresh_lastSeq : s.fresh.1.lastSeq = s.lastSeq := rfl
@[simp] theorem fresh_bookAt : s.fresh.1.bookAt = s.bookAt := rfl
@[simp] theorem fresh_pendingRetire : s.fresh.1.pendingRetire = s.pendingRetire := rfl
@[simp] theorem fresh_causes : s.fresh.1.causes = s.causes := rfl
@[simp] theorem fresh_ports : s.fresh.1.ports = s.ports := rfl
@[simp] theorem fresh_membs : s.fresh.1.membs = s.membs := rfl
@[simp] theorem fresh_sess : s.fresh.1.sess = s.sess := rfl
@[simp] theorem fresh_takePart : s.fresh.1.takePart = s.takePart := rfl
@[simp] theorem fresh_takeSid : s.fresh.1.takeSid = s.takeSid := rfl
@[simp] theorem fresh_defs : s.fresh.1.defs = s.defs := rfl
@[simp] theorem fresh_fuse : s.fresh.1.fuse = s.fuse := rfl
@[simp] theorem fresh_flash : s.fresh.1.flash = s.flash := rfl
@[simp] theorem fresh_inForce : s.fresh.1.inForce = s.inForce := rfl
@[simp] theorem fresh_applied : s.fresh.1.applied = s.applied := rfl
@[simp] theorem fresh_running : s.fresh.1.running = s.running := rfl
@[simp] theorem fresh_pwr : s.fresh.1.pwr = s.pwr := rfl
@[simp] theorem fresh_smbOut : s.fresh.1.smbOut = s.smbOut := rfl
@[simp] theorem fresh_retireSel : s.fresh.1.retireSel = s.retireSel := rfl
@[simp] theorem fresh_repSel : s.fresh.1.repSel = s.repSel := rfl
@[simp] theorem fresh_smScrub : s.fresh.1.smScrub = s.smScrub := rfl
@[simp] theorem fresh_ctls : s.fresh.1.ctls = s.ctls := rfl
@[simp] theorem fresh_pending : s.fresh.1.pending = s.pending := rfl

@[simp] theorem fresh_value : s.fresh.2 = Config.freeNat s.free := rfl

theorem part_modPart (p q : Nat) (f : Part → Part) : (s.modPart p f).part q = if q = p then f (s.part p) else s.part q :=
  SMap.get_set _ _ _ _ _

@[simp] theorem part_modPart_same (p : Nat) (f : Part → Part) : (s.modPart p f).part p = f (s.part p) := by simp [part_modPart]

theorem region_modRegion (p r q i : Nat) (f : Region → Region) :
    (s.modRegion p r f).region q i = if q = p ∧ i = r then f (s.region p r) else s.region q i := by
  unfold State.modRegion State.region
  rw [part_modPart]
  by_cases hq : q = p
  · subst hq
    simp only [if_true, true_and]
    exact SMap.get_set _ _ _ _ _
  · simp [hq]

@[simp] theorem region_modRegion_same (p r : Nat) (f : Region → Region) : (s.modRegion p r f).region p r = f (s.region p r) := by
  simp [region_modRegion]

theorem core_modCore (c d : Nat) (f : Core → Core) : (s.modCore c f).core d = if d = c then f (s.core c) else s.core d :=
  SMap.get_set _ _ _ _ _

@[simp] theorem core_modCore_same (c : Nat) (f : Core → Core) : (s.modCore c f).core c = f (s.core c) := by simp [core_modCore]

theorem stack_modStack (t u : Nat) (f : Stack → Stack) : (s.modStack t f).stack u = if u = t then f (s.stack t) else s.stack u :=
  SMap.get_set _ _ _ _ _

@[simp] theorem stack_modStack_same (t : Nat) (f : Stack → Stack) : (s.modStack t f).stack t = f (s.stack t) := by simp [stack_modStack]

theorem memb_modMemb (c d : Nat) (f : Memb → Memb) : (s.modMemb c f).memb d = if d = c then f (s.memb c) else s.memb d :=
  SMap.get_set _ _ _ _ _

@[simp] theorem memb_modMemb_same (c : Nat) (f : Memb → Memb) : (s.modMemb c f).memb c = f (s.memb c) := by simp [memb_modMemb]

theorem agent_modAgent (c d : Nat) (f : EdgeAgent → EdgeAgent) : (s.modAgent c f).agent d = if d = c then f (s.agent c) else s.agent d :=
  SMap.get_set _ _ _ _ _

theorem att_modAtt (c d : Nat) (f : Attach → Attach) : (s.modAtt c f).att d = if d = c then f (s.att c) else s.att d :=
  SMap.get_set _ _ _ _ _

theorem router_modRouter (c d : Nat) (f : Router → Router) : (s.modRouter c f).router d = if d = c then f (s.router c) else s.router d :=
  SMap.get_set _ _ _ _ _

/-- A port after a port is changed, while there are eight of them. -/
theorem port_modPort (i j : Nat) (f : Port → Port) (hi : i < s.ports.length) :
    (s.modPort i f).port j = if j = i then f (s.port i) else s.port j := by
  unfold State.modPort State.port nth putAt
  simp only [List.getD_eq_getElem?_getD, List.getElem?_set]
  by_cases h : j = i
  · subst h; simp [hi]
  · simp [h, Ne.symm h]

@[simp] theorem modPwr_pwr (f : Power → Power) : (s.modPwr f).pwr = Power.alerted (f s.pwr) := rfl

@[simp] theorem alerted_ready (x : Power) : (Power.alerted x).ready = x.ready := rfl
@[simp] theorem alerted_stopped (x : Power) : (Power.alerted x).stopped = x.stopped := rfl
@[simp] theorem alerted_boot (x : Power) : (Power.alerted x).boot = x.boot := rfl
@[simp] theorem alerted_tstate (x : Power) : (Power.alerted x).tstate = x.tstate := rfl
@[simp] theorem alerted_fault (x : Power) : (Power.alerted x).fault = x.fault := rfl
@[simp] theorem alerted_therm (x : Power) : (Power.alerted x).therm = x.therm := rfl
@[simp] theorem alerted_pgood (x : Power) : (Power.alerted x).pgood = x.pgood := rfl
@[simp] theorem alerted_pwrEn (x : Power) : (Power.alerted x).pwrEn = x.pwrEn := rfl
@[simp] theorem alerted_pwrlim (x : Power) : (Power.alerted x).pwrlim = x.pwrlim := rfl

/-- A command whose operands name objects of the module runs. -/
@[simp] theorem guarded_true (t : State) : s.guarded true t = .next t := rfl
/-- At an object that the module does not have nothing happens. -/
@[simp] theorem guarded_false (t : State) : s.guarded false t = .next s := rfl

theorem guarded_eq_next {ok : Bool} {t u : State} (h : s.guarded ok t = .next u) : u = t ∨ u = s := by
  cases ok <;> injection h with h <;> simp [← h]

theorem whileOn_of_runs (t : State) (h : s.runs = true) : s.whileOn t = t := by simp [State.whileOn, h]

end Sys2Proof.Machine
end

