-- ==== Sys2Proof/Laws/Places.lean ====
section
/-!
SUPPORT. Where the register blocks lie, and what a command that writes a register of the sender's own partition block comes to.
-/

namespace Sys2Proof

/-- The PART block of a partition (R19, R22). -/
theorem place_part (g : Grade) {p ofs : Nat} (hp : p < 8) (ho : ofs < 0x10000) : place g (Machine.partRegBase p + ofs) = .part p ofs := by
  obtain ⟨a, ha⟩ : ∃ a, a = Machine.partRegBase p + ofs := ⟨_, rfl⟩
  have hb : a = 0x040000100000 + 0x10000 * p + ofs := ha
  have h1 : ¬ a < 8 * stackBytes := by rw [stackBytes]; omega
  have h2 : ¬ (0x010000000000 ≤ a ∧ a < 0x010000000000 + 4 * 0x08000000) := by omega
  have h3 : ¬ (0x020000000000 ≤ a ∧ a < 0x020060000000) := by omega
  have h4 : ¬ (0x030000000000 ≤ a ∧ a < 0x030000000000 + 4 * 0x08000000) := by omega
  have h5 : ¬ (0x040000000000 ≤ a ∧ a < 0x040000100000) := by omega
  have h6 : 0x040000100000 ≤ a ∧ a < 0x040000180000 := by omega
  rw [← ha]
  unfold place
  simp only [h1, h2, h3, h4, h5, h6, if_false, if_true, and_self]
  have e1 : (a - 0x040000100000) / 0x10000 = p := by omega
  have e2 : (a - 0x040000100000) % 0x10000 = ofs := by omega
  rw [e1, e2]

end Sys2Proof

namespace Sys2Proof.Machine

theorem regAt_part (s : State) {p ofs : Nat} (hp : p < 8) (ho : ofs < 0x10000) :
    s.regAt p (partRegBase p + ofs) = s.partReg p ofs := by
  simp [State.regAt, place_part s.grade hp ho]

theorem coreMemAt_part (s : State) {p ofs : Nat} (hp : p < 8) (ho : ofs < 0x10000) : s.coreMemAt p (partRegBase p + ofs) = none := by
  simp [State.coreMemAt, place_part s.grade hp ho]

theorem asCommand_of_serves {s : State} {o : Org} {x : Sess} (h : s.serves o.sid = some x) (k : State → Nat → State) :
    s.asCommand o k = k s x.part := by simp [State.asCommand, h]

/-- A register command to the own partition block: the write of the block's register, then the completion (R19, R394). -/
theorem partWrite_eq {s : State} {o : Org} {x : Sess} (h : s.serves o.sid = some x) (hp : x.part < 8) {ofs w c : Nat} (ho : ofs < 0x10000)
    (h4 : ofs % 4 = 0) (hr : s.partReg x.part ofs = some (w, c)) (hw : w = 4 ∨ w = 8) (v : Part → Nat) :
    s.partWrite o ofs v = ((s.writePart x.part ofs (v (s.part x.part) % 2 ^ (8 * w))).1.complete o 0x0011
      (s.writePart x.part ofs (v (s.part x.part) % 2 ^ (8 * w))).2 []) := by
  have ha : (partRegBase x.part + ofs) % 4 = 0 := by unfold partRegBase; omega
  rw [State.partWrite, asCommand_of_serves h]
  dsimp only
  rw [regAt_part s hp ho, hr]
  dsimp only
  rw [State.doRegWrite, if_pos]
  · have : s.regWrite x.part (partRegBase x.part + ofs) w (v (s.part x.part)) = s.writePart x.part ofs (v (s.part x.part) % 2 ^ (8 * w)) := by
      rw [State.regWrite, coreMemAt_part s hp ho]
      dsimp only
      rw [place_part s.grade hp ho]
      obtain rfl | rfl := hw
      · rw [if_pos rfl]
      · rw [if_neg (by decide)]
    rw [if_neg (by simp), this]
  · rw [State.regOk, regAt_part s hp ho, hr, ha]
    obtain rfl | rfl := hw <;> rfl

end Sys2Proof.Machine
end

