-- ==== Sys2Proof/Laws/Told.lean ====
section
/-!
SUPPORT. What a record to a host changes: completions, events and job records reach only sessions, their ports and the records
that a partition holds.
-/

namespace Sys2Proof.Machine

/-- `t` is `s` after records to hosts: only sessions, ports, and per partition the held records and their count differ. -/
structure Told (s t : State) : Prop where
  eq : t = { s with sess := t.sess, ports := t.ports, parts := t.parts }
  part : ∀ p, t.part p = { s.part p with held := (t.part p).held, lost := (t.part p).lost }
  sids : t.sess.map (·.sid) = s.sess.map (·.sid)

namespace Told

variable {s t u : State}

theorem refl (s : State) : Told s s := ⟨rfl, fun _ => rfl, rfl⟩

theorem trans (h : Told s t) (k : Told t u) : Told s u := by
  refine ⟨?_, fun p => ?_, k.sids.trans h.sids⟩
  · rw [k.eq, h.eq]
  · rw [k.part p, h.part p]

theorem foldl {α : Type} {l : List α} {k : State → α → State} (h : Told s t) (hk : ∀ u a, Told s u → Told s (k u a)) :
    Told s (l.foldl k t) := by
  induction l generalizing t with
  | nil => exact h
  | cons a l ih => exact ih (hk _ _ h)

theorem part_eq (h : Told s t) (p : Nat) : t.part p = { s.part p with held := (t.part p).held, lost := (t.part p).lost } := h.part p

theorem mem (h : Told s t) : t.mem = s.mem := by rw [h.eq]
theorem core (h : Told s t) (c : Nat) : t.core c = s.core c := by rw [h.eq]; rfl
theorem stack (h : Told s t) (c : Nat) : t.stack c = s.stack c := by rw [h.eq]; rfl
theorem memb (h : Told s t) : t.membs = s.membs := by rw [h.eq]
theorem region (h : Told s t) (p r : Nat) : t.region p r = s.region p r := by unfold State.region; rw [h.part p]; rfl
theorem ms (h : Told s t) (p : Nat) : (t.part p).ms = (s.part p).ms := by rw [h.part p]
theorem job (h : Told s t) (p : Nat) : (t.part p).job = (s.part p).job := by rw [h.part p]

theorem ite {c : Prop} [Decidable c] {a b : State} (ha : c → Told s a) (hb : ¬c → Told s b) : Told s (if c then a else b) := by
  split
  · exact ha ‹_›
  · exact hb ‹_›

theorem modSess (n : Nat) {f : Sess → Sess} (hf : ∀ x, (f x).sid = x.sid) (h : Told s t) : Told s (t.modSess n f) := by
  refine h.trans ⟨rfl, fun _ => rfl, ?_⟩
  simp only [State.modSess, List.map_map]
  refine List.map_congr_left fun x _ => ?_
  simp only [Function.comp_apply]
  split
  · exact hf x
  · rfl

theorem modPort (i : Nat) (f : Port → Port) (h : Told s t) : Told s (t.modPort i f) := h.trans ⟨rfl, fun _ => rfl, rfl⟩

theorem modPart (p : Nat) {f : Part → Part} (hf : ∀ x, f x = { x with held := (f x).held, lost := (f x).lost }) (h : Told s t) :
    Told s (t.modPart p f) := by
  refine h.trans ⟨rfl, fun q => ?_, rfl⟩
  rw [part_modPart]
  split
  · rename_i e; subst e; exact hf _
  · rfl

theorem pick (i : Nat) (h : Told s t) : Told s (t.pick i) := h.modPort _ _

theorem transmit (i : Nat) (m : TxMsg) (h : Told s t) : Told s (t.transmit i m) := (h.modPort _ _).pick _

theorem sendRel (n k : Nat) (bs : List Byte) (h : Told s t) : Told s (t.sendRel n k bs) := by
  unfold State.sendRel
  split
  · exact h
  · refine ite (fun _ => ?_) fun _ => ?_
    · exact h.modSess _ fun _ => rfl
    · refine transmit _ _ (modSess n (fun x => ?_) h)
      rfl

theorem sendCtl (n k : Nat) (bs : List Byte) (h : Told s t) : Told s (t.sendCtl n k bs) := by
  unfold State.sendCtl
  split
  · exact h
  · refine transmit _ _ (modSess n (fun x => ?_) h)
    rfl

theorem nwrite_sid (x : Sess) (bs : List Byte) : (x.nwrite bs).sid = x.sid := rfl

theorem place_sid {x y : Sess} {bs : List Byte} {ps : List (List Byte)} (h : x.place bs = some (y, ps)) : y.sid = x.sid := by
  unfold Sess.place at h
  dsimp only at h
  split at h
  · split at h
    · injection h with h; injection h with h; subst h; rfl
    · cases h
  · split at h
    · injection h with h; injection h with h; subst h; rfl
    · cases h

theorem session_sid {n : Nat} {x : Sess} (h : t.session n = some x) : x.sid = n := by
  have := List.find?_some h
  simpa using this

theorem flushOne (n : Nat) (h : Told s t) : Told s (t.flushOne n) := by
  unfold State.flushOne
  split
  · exact h
  · rename_i x hx
    split
    · exact h
    · split
      · exact h
      · rename_i y ps hy
        refine foldl ?_ fun _ _ hu => hu.sendRel _ _ _
        have k := h.modPart x.part (f := fun p => { p with lost := 0 }) fun _ => rfl
        refine k.trans ⟨rfl, fun _ => rfl, ?_⟩
        simp only [State.modSess, List.map_map]
        refine List.map_congr_left fun z _ => ?_
        simp only [Function.comp_apply]
        split
        · rename_i e; rw [e, ← session_sid hx]; exact (place_sid hy : y.sid = x.sid)
        · rfl

theorem flush (n : Nat) (h : Told s t) : Told s (t.flush n) := by
  unfold State.flush
  split
  · exact h
  · exact foldl h fun _ _ hu => hu.flushOne _

/-- A record for one session. -/
theorem deliver (n : Nat) (r : Rec) (h : Told s t) : Told s (t.deliver n r) := by
  unfold State.deliver
  refine flush _ (h.modSess _ fun x => ?_)
  dsimp only
  split <;> rfl

/-- A record for a partition. -/
theorem notify (p : Nat) (r : Rec) (h : Told s t) : Told s (t.notify p r) := by
  unfold State.notify
  split
  · refine h.modPart _ fun x => ?_
    dsimp only
    split
    · rfl
    · split <;> rfl
  · exact foldl h fun _ _ hu => hu.deliver _ _

/-- An event to a partition. -/
theorem event (p code : Nat) (e : Ev) (h : Told s t) : Told s (t.event p code e) := h.notify _ _

/-- An event to every defined partition. -/
theorem eventAll (code : Nat) (e : Ev) (h : Told s t) : Told s (t.eventAll code e) := foldl h fun _ _ hu => hu.event _ _ _

/-- The completion of a command. -/
theorem complete (o : Org) (op code : Nat) (bs : List Byte) (h : Told s t) : Told s (t.complete o op code bs) := h.deliver _ _

end Told

@[simp] theorem part_modMs (s : State) (p q : Nat) (f : Stream → Stream) :
    (s.modMs p f).part q = if q = p then { s.part p with ms := f (s.part p).ms } else s.part q := part_modPart _ _ _ _

@[simp] theorem part_modJob (s : State) (p q : Nat) (f : Job → Job) :
    (s.modJob p f).part q = if q = p then { s.part p with job := (s.part p).job.map f } else s.part q := part_modPart _ _ _ _

theorem servedBy_runs {s : State} {n : Nat} {x : Sess} (h : s.serves n = some x) : s.runs = true := by
  unfold State.serves at h
  split at h
  · cases h
  · split at h
    · rename_i k
      simp only [Bool.and_eq_true] at k
      simp only [State.runs, k.1.1.1, k.1.1.2, Bool.and_self]
    · cases h

end Sys2Proof.Machine
end

