-- ==== Sys2Proof/Tests/Slice0.lean ====
section
/-!
SUPPORT. Tests: the well-formedness checks, the table words that the decoder reads, and, for each statement with hypotheses, a state
and operands that meet them. Every expected result is read from the spec.
-/

namespace Sys2Proof.Tests

open Sys2Proof.Machine

set_option Elab.async false

/-- A datagram of n zero bytes. -/
def dg (n : Nat) : Dgram := ⟨0, 0, 0, 0, 0, zeros n⟩

/-- A module at rest. -/
def act : Activity := ⟨0, 0, [0, 0, 0, 0, 0, 0, 0, 0], [0, 0, 0, 0, 0, 0, 0, 0]⟩

/-- Nothing measured but zero. -/
def still : Measured := ⟨0, 0, 0, 0, 0, 0, [0, 0, 0, 0, 0, 0, 0, 0]⟩

/-- Commands whose operands are in range are well formed. -/
theorem test_wellFormed_1 : [
    .regionDefine ⟨1, 0⟩ 0 ⟨0, 0, 0, 0⟩, .regionRelease ⟨1, 0⟩ 0, .moveStreamConfigWrite ⟨1, 0⟩ false 0, .moveStreamEnable ⟨1, 0⟩ 0,
    .moveStreamDisable ⟨1, 0⟩, .moveStreamAbort ⟨1, 0⟩, .moveFetch 0, .laneDispatch, .laneStart 0 0, .laneFwaitPass 0 0, .reconfDrainEnd 0 0,
    .reconfFreezeEnd 0 0, .reconfTablesEnd 0 0 [], .reconfCheckEnd 0 0, .bookSectionUnit 0, .reconfSectionsEnd 0 0 [], .reconfRegistersEnd 0 0,
    .reconfRelease 0 0, .tempoGrant 0 0, .tempoExecute 0 0 [], .laneRetire 0 0, .jobStopDrainEnd 0, .wload 0 0 0 1, .stream 0 0 0 1, .aclr 0 0 0 1,
    .vectorChainProgram 0 0 1, .routeSetLoad 0 0 1, .flagSet 0 0 1, .flagClear 0 0 1, .flagOpArrive false 0 0 0 [], .pair 0 0 1, .deliver 0 0 1,
    .tokgen 0 0 1, .cursor 0 0 1, .castle 0 0 1, .dmain 0 0 1, .dmaout 0 0 1, .smreq 0 0 1, .rotate 0 0 1, .streamRequest 0 0, .smReadEntry 0 0 0,
    .streamWriteEntry 0 0, .bind 0 0 0, .unbind 0 0 0, .creditGrant 0, .outputStoreSend 0 0 0, .flitForward 0 0 0, .entryArrival 0 0,
    .linkReplay 0 0 0 false, .stalemate 0 0, .stalemateSnapshotDone 0, .watchdogWrite ⟨1, 0⟩ 0, .snapshotAck ⟨1, 0⟩, .chipFlagSet ⟨1, 0⟩ 0,
    .chipFlagClear ⟨1, 0⟩ 0, .qheadLatch 0 0, .scoresheetEnable ⟨1, 0⟩ 0, .scoresheetDisable ⟨1, 0⟩, .scoresheetSample 0, .barrierArrive 0].all Instr.wellFormed = true := by decide +kernel

/-- Commands whose operands are in range are well formed. -/
theorem test_wellFormed_2 : [
    .barrierTimeout 0, .stackRead 0 0, .stackWrite 0 0, .stackWriteData 0 0, .gather 0 0, .gatherIndex 0 0, .edgeDelivery 0 0 [],
    .stackRequestComplete 0 0, .matchCommand 0 0, .matchQueryEntry 0 0, .matchScanStart 0, .matchPassEnd 0 [], .refresh 0, .scrubRead 0 [],
    .rowSpared 0 [], .stackClearDone 0, .hstkEccClear ⟨1, 0⟩ 0, .coreEccClear ⟨1, 0⟩ false 0, .ringTableLoad ⟨1, 0⟩ 0 0 0,
    .ringKey ⟨1, 0⟩ 0 (zeros 32), .ringStep ⟨1, 0⟩ (zeros 64), .stepDescriptor 0, .redFrame 0 (dg 0), .bccFrame 0 (dg 0), .bcfFrame 0 (dg 0),
    .ackFrame 0 (dg 0), .normFrame 0 (dg 0), .barFrame 0 (dg 0), .ringResendTimeout 0 0 1 1 0, .ringProgressTimeout 0,
    .priorityResendTimeout 0 false, .updateBlock 0 0, .stepComplete 0, .ringStepAbort ⟨1, 0⟩ 0, .init 0 (dg 0), .confirm 0 (dg 0),
    .halfOpenExpiry 0 0, .ack 0 (dg 0), .keepalive 0 (dg 0), .close 0 (dg 0), .mbox 0 (dg 0), .ranowAckTimer 0, .ranowRetransmit 0 0,
    .sessionTimeout 0, .arpRequest 0 0 0, .echoRequest 0 (dg 0), .foreignFrame 0, .commandRecordTake [], .nop ⟨1, 0⟩, .subscribe ⟨1, 0⟩ 0,
    .sessionInfo ⟨1, 0⟩, .regRead ⟨1, 0⟩ 0 0 0 [], .regWrite ⟨1, 0⟩ 0 0 0 [], .jobAbort ⟨1, 0⟩ 0, .matchMulti ⟨1, 0⟩ 0 0 (zeros 64) [], .matchMultiMerge 0,
    .dopen 0 (dg 0), .dwrite 0 (dg 0), .dread 0 0, .grantSet ⟨1, 0⟩ (zeros 64)].all Instr.wellFormed = true := by decide +kernel

/-- Commands whose operands are in range are well formed. -/
theorem test_wellFormed_3 : [
    .partDelete ⟨1, 0⟩ 0, .grantRead ⟨1, 0⟩ 0, .hostkeySet ⟨1, 0⟩ 0 0 0 (zeros 57), .imageLoad ⟨1, 0⟩ 0 0 0 (zeros 32), .attest ⟨1, 0⟩ (zeros 32) 0,
    .certRead ⟨1, 0⟩ 0, .fwStage ⟨1, 0⟩ 0 0, .fwPromote ⟨1, 0⟩ 0 0 0, .fwCancel ⟨1, 0⟩, .setRead ⟨1, 0⟩ 0, .setWrite ⟨1, 0⟩ 0 (zeros 0),
    .restart ⟨1, 0⟩ 0 0, .activationDecision .good, .activationDeferred, .start .good, .startTimeout { StartEnv.good with late := some 1 }, .linkUp 0, .retireRequest ⟨1, 0⟩ 0 0,
    .thermalWarning 0 [0, 0, 0, 0, 0, 0, 0, 0], .thermalThrottle 0 [0, 0, 0, 0, 0, 0, 0, 0], .throttleStep, .thermalTrip 0 [0, 0, 0, 0, 0, 0, 0, 0],
    .thermalClear 0 [0, 0, 0, 0, 0, 0, 0, 0], .thermalClockRamp, .inputVoltage 0, .inputOutOfRange 0, .overcurrentTrip 0, .standbyUp 0, .pwrEnRise,
    .powerDown, .railFault, .resetPin, .refclkLoss, .powerCapTick still act, .powerModelUpdate 0 act, .sbPwrlimWrite (zeros 0) 0,
    .smbusStatusRead, .smbusBlockRead 0, .smbusBlockWrite 0 (zeros 0) 0, .smbusAlertResponse, .registerWrite ⟨1, 0⟩ 0 0 0 [],
    .stackRequesterCompletion 0 0 false, .linkDown 0, .standbyRailDown, .deferredCommandEnd 0 false, .sharedMemoryScrub 0 [], .smbusClockLowTimeout,
    .unmatchedRingFrame 0 (dg 0), .transmitterFrameEnd 0].all Instr.wellFormed = true := by decide +kernel

/-- For each check, a command that is beyond it by one and is refused. -/
theorem test_illFormed_1 : [
    .regionDefine ⟨2 ^ 64, 0⟩ 0 ⟨0, 0, 0, 0⟩, .regionDefine ⟨1, 2 ^ 32⟩ 0 ⟨0, 0, 0, 0⟩, .regionDefine ⟨1, 0⟩ 256 ⟨0, 0, 0, 0⟩,
    .regionDefine ⟨1, 0⟩ 0 ⟨256, 0, 0, 0⟩, .regionDefine ⟨1, 0⟩ 0 ⟨0, 256, 0, 0⟩, .regionDefine ⟨1, 0⟩ 0 ⟨0, 0, 256, 0⟩,
    .regionDefine ⟨1, 0⟩ 0 ⟨0, 0, 0, 256⟩, .regionRelease ⟨2 ^ 64, 0⟩ 0, .regionRelease ⟨1, 2 ^ 32⟩ 0, .regionRelease ⟨1, 0⟩ 256,
    .moveStreamConfigWrite ⟨2 ^ 64, 0⟩ false 0, .moveStreamConfigWrite ⟨1, 2 ^ 32⟩ false 0, .moveStreamConfigWrite ⟨1, 0⟩ false (2 ^ 48),
    .moveStreamConfigWrite ⟨1, 0⟩ true (2 ^ 13), .moveStreamEnable ⟨2 ^ 64, 0⟩ 0, .moveStreamEnable ⟨1, 2 ^ 32⟩ 0, .moveStreamEnable ⟨1, 0⟩ (2 ^ 13),
    .moveStreamDisable ⟨2 ^ 64, 0⟩, .moveStreamDisable ⟨1, 2 ^ 32⟩, .moveStreamAbort ⟨2 ^ 64, 0⟩, .moveStreamAbort ⟨1, 2 ^ 32⟩, .moveFetch 8,
    .laneStart 8 0, .laneStart 0 256, .laneFwaitPass 8 0, .laneFwaitPass 0 256, .reconfDrainEnd 8 0, .reconfDrainEnd 0 256, .reconfFreezeEnd 8 0,
    .reconfFreezeEnd 0 256, .reconfTablesEnd 8 0 [], .reconfTablesEnd 0 256 [], .reconfCheckEnd 8 0, .reconfCheckEnd 0 256, .bookSectionUnit 4,
    .reconfSectionsEnd 8 0 [], .reconfSectionsEnd 0 256 [], .reconfRegistersEnd 8 0, .reconfRegistersEnd 0 256, .reconfRelease 8 0,
    .reconfRelease 0 256, .tempoGrant 8 0, .tempoGrant 0 256, .tempoExecute 8 0 [], .tempoExecute 0 256 [], .laneRetire 8 0, .laneRetire 0 256,
    .jobStopDrainEnd 8, .wload 64 0 0 1, .wload 0 48 0 1, .wload 0 0 2 1, .wload 0 0 0 0, .wload 0 0 0 256, .stream 64 0 0 1, .stream 0 48 0 1,
    .stream 0 0 2 1, .stream 0 0 0 0, .stream 0 0 0 256, .aclr 64 0 0 1, .aclr 0 48 0 1].any Instr.wellFormed = false := by decide +kernel

/-- For each check, a command that is beyond it by one and is refused. -/
theorem test_illFormed_2 : [
    .aclr 0 0 2 1, .aclr 0 0 0 0, .aclr 0 0 0 256, .vectorChainProgram 64 0 1, .vectorChainProgram 0 48 1, .vectorChainProgram 0 0 0,
    .vectorChainProgram 0 0 256, .routeSetLoad 64 0 1, .routeSetLoad 0 48 1, .routeSetLoad 0 0 0, .routeSetLoad 0 0 256, .flagSet 64 0 1,
    .flagSet 0 48 1, .flagSet 0 0 0, .flagSet 0 0 256, .flagClear 64 0 1, .flagClear 0 48 1, .flagClear 0 0 0, .flagClear 0 0 256,
    .flagOpArrive false 64 0 0 [], .flagOpArrive false 0 48 0 [], .pair 64 0 1, .pair 0 48 1, .pair 0 0 0, .pair 0 0 256, .deliver 64 0 1, .deliver 0 48 1,
    .deliver 0 0 0, .deliver 0 0 256, .tokgen 64 0 1, .tokgen 0 48 1, .tokgen 0 0 0, .tokgen 0 0 256, .cursor 64 0 1, .cursor 0 48 1, .cursor 0 0 0,
    .cursor 0 0 256, .castle 64 0 1, .castle 0 48 1, .castle 0 0 0, .castle 0 0 256, .dmain 64 0 1, .dmain 0 48 1, .dmain 0 0 0, .dmain 0 0 256,
    .dmaout 64 0 1, .dmaout 0 48 1, .dmaout 0 0 0, .dmaout 0 0 256, .smreq 64 0 1, .smreq 0 48 1, .smreq 0 0 0, .smreq 0 0 256, .rotate 64 0 1,
    .rotate 0 48 1, .rotate 0 0 0, .rotate 0 0 256, .streamRequest 64 0, .streamRequest 0 48, .smReadEntry 64 0 0].any Instr.wellFormed = false := by decide +kernel

/-- For each check, a command that is beyond it by one and is refused. -/
theorem test_illFormed_3 : [
    .smReadEntry 0 48 0, .smReadEntry 0 0 8, .streamWriteEntry 64 0, .streamWriteEntry 0 48, .bind 64 0 0, .bind 0 48 0, .bind 0 0 3, .unbind 64 0 0,
    .unbind 0 48 0, .unbind 0 0 3, .outputStoreSend 64 0 0, .outputStoreSend 0 48 0, .outputStoreSend 0 0 16, .flitForward 64 0 0,
    .flitForward 0 48 0, .flitForward 0 0 6, .entryArrival 64 0, .entryArrival 0 48, .linkReplay 64 0 0 false, .linkReplay 0 48 0 false,
    .linkReplay 0 0 6 false, .stalemate 8 0, .stalemate 0 256, .stalemateSnapshotDone 8, .watchdogWrite ⟨2 ^ 64, 0⟩ 0, .watchdogWrite ⟨1, 2 ^ 32⟩ 0,
    .watchdogWrite ⟨1, 0⟩ (2 ^ 32), .snapshotAck ⟨2 ^ 64, 0⟩, .snapshotAck ⟨1, 2 ^ 32⟩, .chipFlagSet ⟨2 ^ 64, 0⟩ 0, .chipFlagSet ⟨1, 2 ^ 32⟩ 0,
    .chipFlagSet ⟨1, 0⟩ 256, .chipFlagClear ⟨2 ^ 64, 0⟩ 0, .chipFlagClear ⟨1, 2 ^ 32⟩ 0, .chipFlagClear ⟨1, 0⟩ 256, .qheadLatch 64 0,
    .qheadLatch 0 48, .scoresheetEnable ⟨2 ^ 64, 0⟩ 0, .scoresheetEnable ⟨1, 2 ^ 32⟩ 0, .scoresheetEnable ⟨1, 0⟩ 32, .scoresheetDisable ⟨2 ^ 64, 0⟩,
    .scoresheetDisable ⟨1, 2 ^ 32⟩, .scoresheetSample 8, .barrierArrive 8, .barrierTimeout 8, .stackRead 64 0, .stackRead 0 48, .stackWrite 64 0,
    .stackWrite 0 48, .stackWriteData 64 0, .stackWriteData 0 48, .gather 64 0, .gather 0 48, .gatherIndex 64 0, .gatherIndex 0 48,
    .edgeDelivery 64 0 [], .edgeDelivery 0 48 [], .stackRequestComplete 64 0, .stackRequestComplete 0 48, .matchCommand 64 0].any Instr.wellFormed = false := by decide +kernel

/-- For each check, a command that is beyond it by one and is refused. -/
theorem test_illFormed_4 : [
    .matchCommand 0 48, .matchQueryEntry 64 0, .matchQueryEntry 0 48, .matchScanStart 8, .matchPassEnd 8 [], .refresh 8, .scrubRead 8 [],
    .rowSpared 8 [], .stackClearDone 8, .hstkEccClear ⟨2 ^ 64, 0⟩ 0, .hstkEccClear ⟨1, 2 ^ 32⟩ 0, .hstkEccClear ⟨1, 0⟩ 8,
    .coreEccClear ⟨2 ^ 64, 0⟩ false 0, .coreEccClear ⟨1, 2 ^ 32⟩ false 0, .coreEccClear ⟨1, 0⟩ false 3072, .coreEccClear ⟨1, 0⟩ true 4,
    .ringTableLoad ⟨2 ^ 64, 0⟩ 0 0 0, .ringTableLoad ⟨1, 2 ^ 32⟩ 0 0 0, .ringTableLoad ⟨1, 0⟩ 4 0 0, .ringTableLoad ⟨1, 0⟩ 0 8 0,
    .ringTableLoad ⟨1, 0⟩ 0 0 (2 ^ 48), .ringTableLoad ⟨1, 0⟩ 0 0 1, .ringKey ⟨2 ^ 64, 0⟩ 0 (zeros 32), .ringKey ⟨1, 2 ^ 32⟩ 0 (zeros 32),
    .ringKey ⟨1, 0⟩ 256 (zeros 32), .ringKey ⟨1, 0⟩ 0 (zeros 31), .ringStep ⟨2 ^ 64, 0⟩ (zeros 64), .ringStep ⟨1, 2 ^ 32⟩ (zeros 64),
    .ringStep ⟨1, 0⟩ (zeros 63), .stepDescriptor 4, .redFrame 4 (dg 0), .redFrame 0 ⟨2 ^ 48, 0, 0, 0, 0, []⟩, .redFrame 0 ⟨0, 2 ^ 128, 0, 0, 0, []⟩,
    .redFrame 0 ⟨0, 0, 2 ^ 128, 0, 0, []⟩, .redFrame 0 ⟨0, 0, 0, 2 ^ 16, 0, []⟩, .redFrame 0 ⟨0, 0, 0, 0, 2 ^ 16, []⟩, .bccFrame 4 (dg 0),
    .bccFrame 0 ⟨2 ^ 48, 0, 0, 0, 0, []⟩, .bccFrame 0 ⟨0, 2 ^ 128, 0, 0, 0, []⟩, .bccFrame 0 ⟨0, 0, 2 ^ 128, 0, 0, []⟩,
    .bccFrame 0 ⟨0, 0, 0, 2 ^ 16, 0, []⟩, .bccFrame 0 ⟨0, 0, 0, 0, 2 ^ 16, []⟩, .bcfFrame 4 (dg 0), .bcfFrame 0 ⟨2 ^ 48, 0, 0, 0, 0, []⟩,
    .bcfFrame 0 ⟨0, 2 ^ 128, 0, 0, 0, []⟩, .bcfFrame 0 ⟨0, 0, 2 ^ 128, 0, 0, []⟩, .bcfFrame 0 ⟨0, 0, 0, 2 ^ 16, 0, []⟩,
    .bcfFrame 0 ⟨0, 0, 0, 0, 2 ^ 16, []⟩, .ackFrame 4 (dg 0), .ackFrame 0 ⟨2 ^ 48, 0, 0, 0, 0, []⟩, .ackFrame 0 ⟨0, 2 ^ 128, 0, 0, 0, []⟩,
    .ackFrame 0 ⟨0, 0, 2 ^ 128, 0, 0, []⟩, .ackFrame 0 ⟨0, 0, 0, 2 ^ 16, 0, []⟩, .ackFrame 0 ⟨0, 0, 0, 0, 2 ^ 16, []⟩, .normFrame 4 (dg 0),
    .normFrame 0 ⟨2 ^ 48, 0, 0, 0, 0, []⟩, .normFrame 0 ⟨0, 2 ^ 128, 0, 0, 0, []⟩, .normFrame 0 ⟨0, 0, 2 ^ 128, 0, 0, []⟩,
    .normFrame 0 ⟨0, 0, 0, 2 ^ 16, 0, []⟩, .normFrame 0 ⟨0, 0, 0, 0, 2 ^ 16, []⟩].any Instr.wellFormed = false := by decide +kernel

/-- For each check, a command that is beyond it by one and is refused. -/
theorem test_illFormed_5 : [
    .barFrame 4 (dg 0), .barFrame 0 ⟨2 ^ 48, 0, 0, 0, 0, []⟩, .barFrame 0 ⟨0, 2 ^ 128, 0, 0, 0, []⟩, .barFrame 0 ⟨0, 0, 2 ^ 128, 0, 0, []⟩,
    .barFrame 0 ⟨0, 0, 0, 2 ^ 16, 0, []⟩, .barFrame 0 ⟨0, 0, 0, 0, 2 ^ 16, []⟩, .ringResendTimeout 8 0 1 1 0, .ringResendTimeout 0 4 1 1 0,
    .ringResendTimeout 0 0 0 1 0, .ringResendTimeout 0 0 3 1 0, .ringResendTimeout 0 0 1 0 0, .ringResendTimeout 0 0 1 4 0,
    .ringResendTimeout 0 0 1 1 5, .ringProgressTimeout 8, .priorityResendTimeout 8 false, .updateBlock 8 0, .updateBlock 0 4, .stepComplete 8,
    .ringStepAbort ⟨2 ^ 64, 0⟩ 0, .ringStepAbort ⟨1, 2 ^ 32⟩ 0, .ringStepAbort ⟨1, 0⟩ 8, .init 4 (dg 0), .init 0 ⟨2 ^ 48, 0, 0, 0, 0, []⟩,
    .init 0 ⟨0, 2 ^ 128, 0, 0, 0, []⟩, .init 0 ⟨0, 0, 2 ^ 128, 0, 0, []⟩, .init 0 ⟨0, 0, 0, 2 ^ 16, 0, []⟩, .init 0 ⟨0, 0, 0, 0, 2 ^ 16, []⟩,
    .confirm 4 (dg 0), .confirm 0 ⟨2 ^ 48, 0, 0, 0, 0, []⟩, .confirm 0 ⟨0, 2 ^ 128, 0, 0, 0, []⟩, .confirm 0 ⟨0, 0, 2 ^ 128, 0, 0, []⟩,
    .confirm 0 ⟨0, 0, 0, 2 ^ 16, 0, []⟩, .confirm 0 ⟨0, 0, 0, 0, 2 ^ 16, []⟩, .halfOpenExpiry 4 0, .halfOpenExpiry 0 (2 ^ 64), .ack 4 (dg 0),
    .ack 0 ⟨2 ^ 48, 0, 0, 0, 0, []⟩, .ack 0 ⟨0, 2 ^ 128, 0, 0, 0, []⟩, .ack 0 ⟨0, 0, 2 ^ 128, 0, 0, []⟩, .ack 0 ⟨0, 0, 0, 2 ^ 16, 0, []⟩,
    .ack 0 ⟨0, 0, 0, 0, 2 ^ 16, []⟩, .keepalive 4 (dg 0), .keepalive 0 ⟨2 ^ 48, 0, 0, 0, 0, []⟩, .keepalive 0 ⟨0, 2 ^ 128, 0, 0, 0, []⟩,
    .keepalive 0 ⟨0, 0, 2 ^ 128, 0, 0, []⟩, .keepalive 0 ⟨0, 0, 0, 2 ^ 16, 0, []⟩, .keepalive 0 ⟨0, 0, 0, 0, 2 ^ 16, []⟩, .close 4 (dg 0),
    .close 0 ⟨2 ^ 48, 0, 0, 0, 0, []⟩, .close 0 ⟨0, 2 ^ 128, 0, 0, 0, []⟩, .close 0 ⟨0, 0, 2 ^ 128, 0, 0, []⟩, .close 0 ⟨0, 0, 0, 2 ^ 16, 0, []⟩,
    .close 0 ⟨0, 0, 0, 0, 2 ^ 16, []⟩, .mbox 4 (dg 0), .mbox 0 ⟨2 ^ 48, 0, 0, 0, 0, []⟩, .mbox 0 ⟨0, 2 ^ 128, 0, 0, 0, []⟩,
    .mbox 0 ⟨0, 0, 2 ^ 128, 0, 0, []⟩, .mbox 0 ⟨0, 0, 0, 2 ^ 16, 0, []⟩, .mbox 0 ⟨0, 0, 0, 0, 2 ^ 16, []⟩, .ranowAckTimer (2 ^ 64)].any Instr.wellFormed = false := by decide +kernel

/-- For each check, a command that is beyond it by one and is refused. -/
theorem test_illFormed_6 : [
    .ranowRetransmit (2 ^ 64) 0, .ranowRetransmit 0 (2 ^ 64), .sessionTimeout (2 ^ 64), .arpRequest 4 0 0, .arpRequest 0 (2 ^ 48) 0,
    .arpRequest 0 0 (2 ^ 128), .echoRequest 4 (dg 0), .echoRequest 0 ⟨2 ^ 48, 0, 0, 0, 0, []⟩, .echoRequest 0 ⟨0, 2 ^ 128, 0, 0, 0, []⟩,
    .echoRequest 0 ⟨0, 0, 2 ^ 128, 0, 0, []⟩, .echoRequest 0 ⟨0, 0, 0, 2 ^ 16, 0, []⟩, .echoRequest 0 ⟨0, 0, 0, 0, 2 ^ 16, []⟩, .foreignFrame 4,
    .nop ⟨2 ^ 64, 0⟩, .nop ⟨1, 2 ^ 32⟩, .subscribe ⟨2 ^ 64, 0⟩ 0, .subscribe ⟨1, 2 ^ 32⟩ 0, .subscribe ⟨1, 0⟩ (2 ^ 32), .sessionInfo ⟨2 ^ 64, 0⟩,
    .sessionInfo ⟨1, 2 ^ 32⟩, .regRead ⟨2 ^ 64, 0⟩ 0 0 0 [], .regRead ⟨1, 2 ^ 32⟩ 0 0 0 [], .regRead ⟨1, 0⟩ (2 ^ 64) 0 0 [], .regRead ⟨1, 0⟩ 0 256 0 [],
    .regRead ⟨1, 0⟩ 0 0 256 [], .regWrite ⟨2 ^ 64, 0⟩ 0 0 0 [], .regWrite ⟨1, 2 ^ 32⟩ 0 0 0 [], .regWrite ⟨1, 0⟩ (2 ^ 64) 0 0 [], .regWrite ⟨1, 0⟩ 0 256 0 [],
    .regWrite ⟨1, 0⟩ 0 0 (2 ^ 64) [], .jobAbort ⟨2 ^ 64, 0⟩ 0, .jobAbort ⟨1, 2 ^ 32⟩ 0, .jobAbort ⟨1, 0⟩ (2 ^ 16),
    .matchMulti ⟨2 ^ 64, 0⟩ 0 0 (zeros 64) [], .matchMulti ⟨1, 2 ^ 32⟩ 0 0 (zeros 64) [], .matchMulti ⟨1, 0⟩ (2 ^ 64) 0 (zeros 64) [],
    .matchMulti ⟨1, 0⟩ 0 (2 ^ 64) (zeros 64) [], .matchMulti ⟨1, 0⟩ 0 0 (zeros 63) [],
    .matchMulti ⟨1, 0⟩ 0 0 (zeros 64) (List.replicate 256 ⟨0, 0, 0, 0, 0, 0⟩), .dopen 4 (dg 0), .dopen 0 ⟨2 ^ 48, 0, 0, 0, 0, []⟩,
    .dopen 0 ⟨0, 2 ^ 128, 0, 0, 0, []⟩, .dopen 0 ⟨0, 0, 2 ^ 128, 0, 0, []⟩, .dopen 0 ⟨0, 0, 0, 2 ^ 16, 0, []⟩, .dopen 0 ⟨0, 0, 0, 0, 2 ^ 16, []⟩,
    .dwrite 4 (dg 0), .dwrite 0 ⟨2 ^ 48, 0, 0, 0, 0, []⟩, .dwrite 0 ⟨0, 2 ^ 128, 0, 0, 0, []⟩, .dwrite 0 ⟨0, 0, 2 ^ 128, 0, 0, []⟩,
    .dwrite 0 ⟨0, 0, 0, 2 ^ 16, 0, []⟩, .dwrite 0 ⟨0, 0, 0, 0, 2 ^ 16, []⟩, .dread (2 ^ 64) 0, .dread 0 256, .grantSet ⟨2 ^ 64, 0⟩ (zeros 64),
    .grantSet ⟨1, 2 ^ 32⟩ (zeros 64), .grantSet ⟨1, 0⟩ (zeros 63), .partDelete ⟨2 ^ 64, 0⟩ 0, .partDelete ⟨1, 2 ^ 32⟩ 0, .partDelete ⟨1, 0⟩ 256,
    .grantRead ⟨2 ^ 64, 0⟩ 0].any Instr.wellFormed = false := by decide +kernel

/-- For each check, a command that is beyond it by one and is refused. -/
theorem test_illFormed_7 : [
    .grantRead ⟨1, 2 ^ 32⟩ 0, .grantRead ⟨1, 0⟩ 256, .hostkeySet ⟨2 ^ 64, 0⟩ 0 0 0 (zeros 57), .hostkeySet ⟨1, 2 ^ 32⟩ 0 0 0 (zeros 57),
    .hostkeySet ⟨1, 0⟩ 256 0 0 (zeros 57), .hostkeySet ⟨1, 0⟩ 0 256 0 (zeros 57), .hostkeySet ⟨1, 0⟩ 0 0 256 (zeros 57),
    .hostkeySet ⟨1, 0⟩ 0 0 0 (zeros 56), .imageLoad ⟨2 ^ 64, 0⟩ 0 0 0 (zeros 32), .imageLoad ⟨1, 2 ^ 32⟩ 0 0 0 (zeros 32),
    .imageLoad ⟨1, 0⟩ 256 0 0 (zeros 32), .imageLoad ⟨1, 0⟩ 0 (2 ^ 64) 0 (zeros 32), .imageLoad ⟨1, 0⟩ 0 0 (2 ^ 64) (zeros 32),
    .imageLoad ⟨1, 0⟩ 0 0 0 (zeros 31), .attest ⟨2 ^ 64, 0⟩ (zeros 32) 0, .attest ⟨1, 2 ^ 32⟩ (zeros 32) 0, .attest ⟨1, 0⟩ (zeros 31) 0,
    .attest ⟨1, 0⟩ (zeros 32) (2 ^ 64), .certRead ⟨2 ^ 64, 0⟩ 0, .certRead ⟨1, 2 ^ 32⟩ 0, .certRead ⟨1, 0⟩ (2 ^ 64), .fwStage ⟨2 ^ 64, 0⟩ 0 0,
    .fwStage ⟨1, 2 ^ 32⟩ 0 0, .fwStage ⟨1, 0⟩ (2 ^ 64) 0, .fwStage ⟨1, 0⟩ 0 (2 ^ 64), .fwPromote ⟨2 ^ 64, 0⟩ 0 0 0, .fwPromote ⟨1, 2 ^ 32⟩ 0 0 0,
    .fwPromote ⟨1, 0⟩ 256 0 0, .fwPromote ⟨1, 0⟩ 0 256 0, .fwPromote ⟨1, 0⟩ 0 0 (2 ^ 32), .fwCancel ⟨2 ^ 64, 0⟩, .fwCancel ⟨1, 2 ^ 32⟩,
    .setRead ⟨2 ^ 64, 0⟩ 0, .setRead ⟨1, 2 ^ 32⟩ 0, .setRead ⟨1, 0⟩ (2 ^ 64), .setWrite ⟨2 ^ 64, 0⟩ 0 (zeros 0), .setWrite ⟨1, 2 ^ 32⟩ 0 (zeros 0),
    .setWrite ⟨1, 0⟩ (2 ^ 16) (zeros 0), .setWrite ⟨1, 0⟩ 0 (zeros 4081), .restart ⟨2 ^ 64, 0⟩ 0 0, .restart ⟨1, 2 ^ 32⟩ 0 0, .restart ⟨1, 0⟩ 256 0,
    .restart ⟨1, 0⟩ 0 (2 ^ 32), .activationDecision { StartEnv.good with recs := [] }, .activationDecision { StartEnv.good with bank := [] },
    .activationDecision { StartEnv.good with fw := [] }, .activationDecision { StartEnv.good with ctl := [] },
    .activationDecision { StartEnv.good with slots := [] }, .activationDecision { StartEnv.good with links := [] },
    .start { StartEnv.good with recs := [] }, .start { StartEnv.good with bank := [] }, .start { StartEnv.good with fw := [] },
    .start { StartEnv.good with ctl := [] }, .start { StartEnv.good with slots := [] }, .start { StartEnv.good with links := [] }, .startTimeout .good,
    .startTimeout { StartEnv.good with late := some 10 }, .startTimeout { StartEnv.good with late2 := some 1 },
    .start { StartEnv.good with ctl := [[(20, none)], []] }, .linkUp 8, .retireRequest ⟨2 ^ 64, 0⟩ 0 0, .retireRequest ⟨1, 2 ^ 32⟩ 0 0].any Instr.wellFormed = false := by decide +kernel

/-- For each check, a command that is beyond it by one and is refused. -/
theorem test_illFormed_8 : [
    .retireRequest ⟨1, 0⟩ 64 0, .retireRequest ⟨1, 0⟩ 0 64, .thermalWarning 0 [0, 0, 0, 0, 0, 0, 0], .thermalThrottle 0 [0, 0, 0, 0, 0, 0, 0],
    .thermalTrip 0 [0, 0, 0, 0, 0, 0, 0], .thermalClear 0 [0, 0, 0, 0, 0, 0, 0], .standbyUp 16,
    .powerCapTick { still with stks := [] } act, .powerCapTick still { act with rates := [] }, .powerCapTick still { act with loads := [] },
    .powerModelUpdate 0 { act with rates := [] }, .powerModelUpdate 0 { act with loads := [] }, .sbPwrlimWrite (zeros 33) 0, .smbusBlockRead 256,
    .smbusBlockWrite 256 (zeros 0) 0, .smbusBlockWrite 0 (zeros 33) 0, .registerWrite ⟨2 ^ 64, 0⟩ 0 0 0 [], .registerWrite ⟨1, 2 ^ 32⟩ 0 0 0 [],
    .registerWrite ⟨1, 0⟩ (2 ^ 64) 0 0 [], .registerWrite ⟨1, 0⟩ 0 256 0 [], .registerWrite ⟨1, 0⟩ 0 0 (2 ^ 64) [], .stackRequesterCompletion 8 0 false,
    .stackRequesterCompletion 0 4 false, .linkDown 8, .sharedMemoryScrub 4 [], .unmatchedRingFrame 4 (dg 0),
    .unmatchedRingFrame 0 ⟨2 ^ 48, 0, 0, 0, 0, []⟩, .unmatchedRingFrame 0 ⟨0, 2 ^ 128, 0, 0, 0, []⟩, .unmatchedRingFrame 0 ⟨0, 0, 2 ^ 128, 0, 0, []⟩,
    .unmatchedRingFrame 0 ⟨0, 0, 0, 2 ^ 16, 0, []⟩, .unmatchedRingFrame 0 ⟨0, 0, 0, 0, 2 ^ 16, []⟩, .transmitterFrameEnd 8].any Instr.wellFormed = false := by decide +kernel

/-! ### Bytes -/

theorem leNat_natLe (n x : Nat) : leNat (natLe n x) = x % 256 ^ n := by
  induction n generalizing x with
  | zero => simp [natLe, leNat, Nat.mod_one]
  | succ n ih =>
    have e : (256 : Nat) ^ (n + 1) = 256 * 256 ^ n := by rw [Nat.pow_succ, Nat.mul_comm]
    rw [natLe, leNat, ih, e, BitVec.toNat_ofNat, Nat.mod_mul]

theorem length_natLe (n x : Nat) : (natLe n x).length = n := by
  induction n generalizing x with
  | zero => rfl
  | succ n ih => simp [natLe, ih]

theorem slice_left (a b : List Byte) (o n : Nat) (h : o + n ≤ a.length) : slice (a ++ b) o n = slice a o n := by
  unfold slice
  rw [List.drop_append_of_le_length (by omega), List.take_append_of_le_length (by rw [List.length_drop]; omega)]

theorem fld_left (a b : List Byte) (o n : Nat) (h : o + n ≤ a.length) : fld (a ++ b) o n = fld a o n := by
  unfold fld
  rw [slice_left a b o n h]

theorem slice_right (a b : List Byte) (n : Nat) (h : n = b.length) : slice (a ++ b) a.length n = b := by
  subst h
  simp [slice]

theorem length_padTo (n : Nat) (b : List Byte) : (padTo n b).length = n := by
  simp [padTo, zeros]
  omega

theorem length_xorBytes (a k : List Byte) : (xorBytes a k).length = a.length := by
  simp [xorBytes, length_padTo]

theorem xorBytes_twice (a k : List Byte) : xorBytes (xorBytes a k) k = a := by
  have e : ∀ b k : List Byte, b.length = k.length → ((((b.zip k).map (fun x => x.1 ^^^ x.2)).zip k).map (fun x => x.1 ^^^ x.2)) = b := by
    intro b
    induction b with
    | nil => intro k _; rfl
    | cons x b ih =>
      intro k h
      cases k with
      | nil => simp at h
      | cons y k =>
        simp only [List.zip_cons_cons, List.map_cons, BitVec.xor_assoc, BitVec.xor_self, BitVec.xor_zero]
        rw [ih k (by simpa using h)]
  have l := length_xorBytes a k
  unfold xorBytes at l ⊢
  rw [l]
  exact e a _ (length_padTo _ _).symm

/-! ### The statements' hypotheses can be met: the whole machine, regions, move streams -/

/-- A host's session of partition `p`. -/
def sess (sid p : Nat) : Sess :=
  { sid := sid, port := 0, part := p, mac := 0, ip := 0, udp := 0, msgmax := 1232, kin := [], kout := [], sin := [], sout := [],
    confirm := [], rxNext := 0, rxBuf := [], ackDue := false, rxSince := 0, txNext := 0, ctl := 0, unack := [], txWait := [],
    csize := 64, cring := [], chead := 0, ctail := 0, nsize := 64, nring := [], nhead := 0, ntail := 0, mask := 0, waitq := [],
    lost := 0, bursts := [], sentq := [] }

/-- A module at service ready, with every port up and a session of partition 0 (1) and of partition 1 (2). -/
def on : State :=
  { State.reset with
    pwr := { Power.reset with ready := true, boot := ⟨10, false, 0, false, 0⟩ }
    ports := List.replicate 8 { Port.reset with enabled := true, link := true }
    sess := [sess 1 0, sess 2 1] }

/-- Where a command of partition 0 and one of partition 1 come from. -/
def o0 : Org := ⟨1, 0⟩
/-- See o0. -/
def o1 : Org := ⟨2, 7⟩

theorem servedBy_of {s : State} {o : Org} {p : Nat} (h : (s.serves o.sid).map (·.part) = some p) : s.servedBy o p := by
  cases e : s.serves o.sid with
  | none => simp [e] at h
  | some x => exact ⟨x, e, by simpa [e] using h⟩

theorem actsIn_of {s : State} {f k : Nat} (p r : Nat)
    (h : s.runs = true ∧ coreActive s.grade f k = true ∧ (s.core (coreId f k)).owner = some (p, r) ∧
      ((s.region p r).state = .running ∨ (s.region p r).state = .held)) : s.actsIn f k :=
  ⟨h.1, h.2.1, p, r, h.2.2⟩

theorem served_o0 : on.servedBy o0 0 := servedBy_of (by decide +kernel)
theorem served_o1 : on.servedBy o1 1 := servedBy_of (by decide +kernel)

/-- Partition 0 of that module changed. -/
def withPart (f : Part → Part) : State := { on with parts := [(0, f { Part.reset with grant := GrantR.all .gx9_3072 })] }

/-- Region 3 of partition 0 is `g`; core 0.0 is its core, with `c` in it. -/
def withRegion (g : Region) (c : Core → Core) : State :=
  { withPart (fun x => { x with regions := [(3, g)] }) with cores := [(0, c { Core.reset with owner := some (0, 3) })] }

/-- A region of one core in state `st`. -/
def reg (st : RState) : Region := { Region.reset with state := st }

theorem meets_StepRunsFrontCommand :
    { on with pending := [.moveFetch 0, .laneDispatch] }.pending = .moveFetch 0 :: [.laneDispatch] := rfl

theorem meets_EmptyQueueStep : State.reset.pending = [] ∧ State.reset.runs = false ∧ on.pending = [] ∧ on.runs = true := by decide +kernel

theorem meets_ResetLeaves : (1 : Nat) ≠ 0 := by decide

theorem meets_StepKeepsSound : ∃ t, { on with pending := [.linkDown 0] }.sound = true ∧ step { on with pending := [.linkDown 0] } = .next t :=
  ⟨_, by decide +kernel, rfl⟩

theorem meets_CommandsKeepQueueAndGrade : ∃ t, exec (.linkDown 0) { on with pending := [.laneDispatch] } = .next t := ⟨_, rfl⟩

theorem meets_SecurityVersionNeverFalls : ∃ t, exec (.linkDown 7) on = .next t := ⟨_, rfl⟩

theorem meets_MemoryFrame : ∃ t, exec (.linkDown 7) on = .next t ∧ (Instr.linkDown 7).mayWriteMemory = false := ⟨_, rfl, rfl⟩

theorem meets_FlashFrame : ∃ t, exec (.linkDown 7) on = .next t ∧ (Instr.linkDown 7).mayWriteFlash = false := ⟨_, rfl, rfl⟩

theorem meets_PowerFrame : ∃ t, exec (.moveFetch 0) on = .next t ∧ (Instr.moveFetch 0).mayChangePower = false := ⟨_, rfl, rfl⟩

theorem meets_EveryCommandAnswers :
    on.has (.qheadLatch 63 47) = true ∧ on.has (.qheadLatch 63 48) = false ∧ on.has (.moveFetch 7) = true ∧ on.has (.moveFetch 8) = false := by
  decide +kernel

theorem meets_NothingRunsInAModuleThatIsOff :
    State.reset.runs = false ∧ (Instr.moveFetch 0).actsWhenStopped = false ∧ exec (.moveFetch 0) State.reset = .next State.reset :=
  ⟨by decide +kernel, rfl, rfl⟩

theorem meets_RecordsTouchOnlySessions : on.event 0 1 Ev.none = on.event 0 1 Ev.none := rfl

/-- Session 1 asks for region 3 in state `st`, with core 0.0. -/
def busy (st : RState) : State := withRegion (reg st) id

theorem meets_RegionCommandsRefuseBusyRegions_1 :
    (busy .loading).servedBy o0 0 ∧ (busy .loading).holdsRegion 0 3 = false ∧ ((busy .loading).region 0 3).state = .loading ∧
    ((busy .running).region 0 3).state = .running ∧ ((busy .held).region 0 3).state = .held ∧ (0 : Nat) ≤ 0 :=
  ⟨servedBy_of (by decide +kernel), by decide +kernel⟩

theorem meets_RegionCommandsRefuseBusyRegions_2 :
    { busy .idle with defs := [⟨o0, 0, 0x0110, .image 3 0 96 [] []⟩] }.servedBy o0 0 ∧
    { busy .idle with defs := [⟨o0, 0, 0x0110, .image 3 0 96 [] []⟩] }.holdsRegion 0 3 = true :=
  ⟨servedBy_of (by decide +kernel), by decide +kernel⟩

theorem meets_RegionCommandsRefuseBusyRegions_3 :
    ((busy .idle).region 0 3).state ≠ .undefined ∧ ((busy .idle).region 0 3).rect ≠ ⟨0, 0, 0, 1⟩ := by decide +kernel

theorem meets_RegionCommandsComplete_1 :
    on.servedBy o0 0 ∧ on.holdsRegion 0 255 = false ∧ on.defineCode 0 255 ⟨63, 47, 63, 47⟩ = Code.ok :=
  ⟨served_o0, by decide +kernel⟩

theorem meets_RegionCommandsComplete_2 :
    (busy .idle).servedBy o0 0 ∧ (busy .idle).holdsRegion 0 3 = false ∧ ((busy .idle).region 0 3).state = .idle ∧
    ((busy .ready).region 0 3).state = .ready ∧ ((busy .quarantined).region 0 3).state = .quarantined :=
  ⟨servedBy_of (by decide +kernel), by decide +kernel⟩

theorem meets_RegionCommandsComplete_3 : 3071 ∈ (⟨63, 47, 63, 47⟩ : Rect).cores := by decide +kernel

/-- The move stream of partition 0 is `m`. -/
def withMs (m : Stream) : State := withPart fun x => { x with ms := m }

theorem meets_MoveStreamRegisterWrites_1 :
    on.servedBy o0 0 ∧ (2 ^ 48 - 1 < 2 ^ 48) ∧ (on.part 0).ms.en = false ∧ 2 ^ 13 - 1 < 2 ^ 13 ∧ 2 ^ 13 - 1 ≠ (on.part 0).ms.size % 2 ^ 13 :=
  ⟨served_o0, by decide +kernel⟩

theorem meets_MoveStreamRegisterWrites_2 :
    let s := withMs { Stream.reset with en := true, size := 4096 }
    s.servedBy o0 0 ∧ (s.part 0).ms.en = true ∧ 0 < 2 ^ 13 ∧ 0 ≠ (s.part 0).ms.size % 2 ^ 13 :=
  ⟨servedBy_of (by decide +kernel), by decide +kernel⟩

theorem meets_MoveStreamRegisterWrites_3 :
    let s := withMs { Stream.reset with base := sharedBase 0 }
    s.servedBy o0 0 ∧ (s.part 0).ms.en = false ∧ s.sharedIn 0 (s.part 0).ms.base (1 * 4096) = true ∧
    s.sharedIn 0 (s.part 0).ms.base (4096 * 4096) = true ∧ on.sharedIn 0 (on.part 0).ms.base (1 * 4096) = false :=
  ⟨servedBy_of (by decide +kernel), by decide +kernel⟩

/-- A job of one move with one lane, to region 3. -/
def job : Job := ⟨9, [3], [(0, 1)], true, none, false, false⟩

theorem meets_AbortStopsTheJob_1 :
    let s := { withPart fun x => { x with job := some job, regions := [(3, reg .ready)] } with cores := [] }
    s.servedBy o0 0 ∧ (s.part 0).job = some job ∧ job.fail = none ∧ ∃ m ∈ job.moves, 0 < m.2 ∧ ∀ r ∈ job.regions, s.retireReady 0 r = false :=
  ⟨servedBy_of (by decide +kernel), by decide +kernel⟩

theorem meets_AbortStopsTheJob_2 :
    let s := withPart fun x => { x with lastJob := some (9, 0) }
    s.servedBy o0 0 ∧ (s.part 0).job = none ∧ (s.part 0).lastJob = some (9, 0) ∧ (10 : Nat) ≠ 9 :=
  ⟨servedBy_of (by decide +kernel), by decide +kernel⟩

/-! ### Moves, lanes, reloads, tempos -/

/-- A move that starts job 9 with one lane for region 3, whose SETUP is 0 and whose START is 0; then a WRAP header. -/
def moveBytes : List Byte :=
  [1, 0, 5, 0, 1, 0, 9, 0] ++ zeros 8 ++ [3, 1] ++ zeros 30

/-- The stream of partition 0 with its ring at the start of die 0's shared memory, one 4-KiB block long. -/
def ms : Stream := { Stream.reset with base := sharedBase 0, size := 1, en := true, tail := 48 }

/-- A ring that holds `bs`. -/
def ring (m : Stream) (bs : List Byte) : State :=
  { withPart fun x => { x with ms := m, regions := [(3, reg .idle)] } with mem := Memory.write [] (sharedBase 0) bs }

/-- Where MOVE_FETCH reads next, and the header that it reads. -/
def headAt (s : State) : Nat := (s.part 0).ms.base + (s.part 0).ms.head
/-- See headAt. -/
def headHdr (s : State) : MoveHdr := MoveHdr.read (s.sharedRead 0 (headAt s) 16).2.1

theorem meets_MoveFetchTakesTheNextMove_1 :
    let s := ring ms moveBytes
    let m := (s.part 0).ms
    let h := headHdr s
    let y := { s with fetchAt := s.now + fetchCycles h.bytes }.sharedRead 0 (headAt s) h.bytes
    let lanes := (List.range h.lanes).map fun i => Lane.read h.job m.nextMove (slice y.2.1 (16 + 32 * i) 32)
    s.runs = true ∧ (s.part 0).mayFetch = true ∧ s.fetchAt ≤ s.now ∧ m.skipping = false ∧ (s.sharedRead 0 (headAt s) 16).2.2 = true ∧ y.2.2 = true ∧
      h.inOrder m = true ∧ h.fits m = true ∧ h.wrap = false ∧ h.bytes ≤ m.avail ∧ (s.part 0).job = none ∧
      h.jobstart = true ∧ noDup (lanes.map (·.region)) = true ∧ lanes.all (fun l => l.good (s.part 0) ((s.part 0).allot s.grade)) = true := by decide +kernel

theorem meets_MoveFetchTakesTheNextMove_2 :
    let s := ring { ms with expect := some 65535 } ([0, 0, 255, 255, 8] ++ zeros 11)
    (s.part 0).mayFetch = true ∧ s.fetchAt ≤ s.now ∧ (s.sharedRead 0 (headAt s) 16).2.2 = true ∧ (headHdr s).inOrder (s.part 0).ms = true ∧
      (headHdr s).fits (s.part 0).ms = true ∧ (headHdr s).wrap = true := by decide +kernel

theorem meets_MoveFetchTakesTheNextMove_3 :
    let s := ring { ms with expect := some 6 } moveBytes
    let v := ring { ms with expect := some 65535 } ([0, 0, 255, 255, 0] ++ zeros 11)
    let w := { ring ms moveBytes with dmg := [(sharedBase 0, 2)] }
    (s.part 0).mayFetch = true ∧ (s.sharedRead 0 (headAt s) 16).2.2 = true ∧ (headHdr s).inOrder (s.part 0).ms = false ∧
      (v.sharedRead 0 (headAt v) 16).2.2 = true ∧ (headHdr v).inOrder (v.part 0).ms = true ∧ (headHdr v).fits (v.part 0).ms = false ∧
      (w.part 0).mayFetch = true ∧ (w.part 0).ms.skipping = false ∧ (w.sharedRead 0 (headAt w) 16).2.2 = false ∧
      { s with fetchAt := 1 }.now < { s with fetchAt := 1 }.fetchAt := by decide +kernel

/-- The lane of that move. -/
def lane : Lane := Lane.read 9 0 (moveBytes.drop 16)

/-- A module that has fetched it and waits for the dispatch; partition 0 comes last in turn. -/
def fetched : State :=
  withPart fun x => { x with ms := { ms with fetched := some ⟨0, 9, false, false, 48, [lane]⟩ }, job := some job, regions := [(3, reg .idle)] }

theorem meets_LaneDispatchServesPartitionsInTurn_1 :
    fetched.runs = true ∧ 7 < 8 ∧ (fetched.lastPart + 1 + 7) % 8 = 0 ∧ fetched.laneReady 0 = true ∧
    (∀ k < 7, fetched.laneReady ((fetched.lastPart + 1 + k) % 8) = false) ∧ fetched.dispAt ≤ fetched.now ∧
    (fetched.part 0).ms.fetched = some ⟨0, 9, false, false, 48, lane :: []⟩ ∧ (fetched.region 0 lane.region).state ≠ .undefined := by
  decide +kernel

theorem meets_LaneDispatchServesPartitionsInTurn_2 : ∀ p < 8, on.laneReady p = false := by decide +kernel

theorem meets_LaneDispatchServesPartitionsInTurn_3 : on.part 7 = fetched.part 7 := by decide +kernel

/-- Region 3 with a pending lane. -/
def pending (st : RState) (l : Lane) : State := withRegion { reg st with pend := some l } id

theorem live_pending (st : RState) (l : Lane) : (pending st l).live 0 3 := ⟨rfl, by decide, by decide⟩

theorem meets_LaneStartsAndWaits_1 :
    (pending .idle lane).live 0 3 ∧ ((pending .idle lane).region 0 3).run = none ∧ ((pending .idle lane).region 0 3).pend = some lane ∧
    ((pending .idle lane).region 0 3).stopping = false ∧ ((pending .idle lane).region 0 3).state ≠ .quarantined ∧ lane.reconf = true :=
  ⟨live_pending _ _, by decide +kernel⟩

/-- One entry: step 0, executed once, the last. -/
def prog1 : Tables := { Tables.empty with prog := [ProgE.read 0x400] }

theorem meets_LaneStartsAndWaits_2 :
    ((withRegion { reg .ready with pend := some { lane with reconf := false }, tab := prog1 } id).region 0 3).pend = some { lane with reconf := false } ∧
    (RState.ready ≠ .idle) ∧ (lane.start < prog1.prog.length) ∧ { lane with keeppc := true }.keeppc = true := by decide +kernel

theorem meets_LaneStartsAndWaits_3 :
    (pending .quarantined lane).live 0 3 ∧ ((pending .quarantined lane).region 0 3).state = .quarantined ∧
    ((pending .idle { lane with reconf := false }).region 0 3).state = .idle ∧ ((pending .quarantined lane).region 0 3).pend = some lane :=
  ⟨live_pending _ _, by decide +kernel⟩

/-- The last lane: no tempo limit, and it waits on chip flag 255. -/
def waiter : LaneRun := ⟨{ lane with fwait := 0xC0FF }, true, none, false⟩

theorem meets_LaneStartsAndWaits_4 :
    let s := { withRegion { reg .held with run := some waiter } id with
      parts := [(0, { Part.reset with grant := GrantR.all .gx9_3072, regions := [(3, { reg .held with run := some waiter })],
                                      cflags := [(255, { FlagR.reset with val := true })] })] }
    s.live 0 3 ∧ (s.region 0 3).run = some waiter ∧ waiter.fwait = true ∧ ((s.part 0).cflag (bits waiter.lane.fwait 7 0)).read s.now = true ∧
    (s.region 0 3).load = none ∧ (s.region 0 3).stopping = false :=
  ⟨⟨rfl, by decide, by decide⟩, by decide +kernel⟩

/-- A region that loads, in a phase that began in cycle 0; now is cycle `n`. -/
def loading (l : Load) (n : Nat) (c : Core → Core) : State :=
  { withRegion { reg .loading with run := some ⟨lane, false, none, false⟩, load := some l } c with now := n }

/-- The header and tables of a setup for one core, with one program entry; the shortest section. -/
def tables1 : List Byte :=
  [1, 0, 64, 0, 1, 1, 1, 0, 0, 0, 0, 0] ++ natLe 4 64 ++ zeros 12 ++ natLe 4 72 ++ zeros 32 ++ natLe 8 0x400
/-- See tables1. -/
def section1 : List Byte := natLe 2 1 ++ zeros 10 ++ natLe 4 40 ++ zeros 24

/-- That setup, staged for region 3. -/
def staged1 : Staged := ⟨0, 3, 0, tables1, [(0, section1)]⟩

theorem meets_ReloadDrainFreezeTablesAndCheck_1 :
    let l : Load := ⟨.drain, 0, none, Tables.empty, []⟩
    let s := loading l 1 id
    s.live 0 3 ∧ (s.region 0 3).load = some l ∧ l.phase = .drain ∧ l.since + 1 ≤ s.now ∧ (s.region 0 3).granted = [] ∧
    s.unitsIdle (s.region 0 3) = true :=
  ⟨⟨rfl, by decide, by decide⟩, by decide +kernel⟩

theorem meets_ReloadDrainFreezeTablesAndCheck_2 :
    let l : Load := ⟨.freeze, 0, none, Tables.empty, []⟩
    let s := loading l 8 id
    s.live 0 3 ∧ (s.region 0 3).load = some l ∧ l.phase = .freeze ∧ l.since + 8 ≤ s.now ∧ (s.region 0 3).run = some ⟨lane, false, none, false⟩ :=
  ⟨⟨rfl, by decide, by decide⟩, by decide +kernel⟩

theorem meets_ReloadDrainFreezeTablesAndCheck_3 :
    let l : Load := ⟨.tables, 0, none, Tables.empty, []⟩
    let k : Load := { l with staged := some staged1 }
    (loading l 24 id).live 0 3 ∧ ((loading l 24 id).region 0 3).load = some l ∧ l.since + (cdiv l.tbytes 512 + 24) ≤ (loading l 24 id).now ∧
    ((loading l 24 id).bookReads []).2 = false ∧ l.staged = none ∧ k.staged = some staged1 ∧
    k.since + (cdiv k.tbytes 512 + 24) ≤ (loading k 25 id).now ∧ ((loading k 25 id).bookReads []).2 = false :=
  ⟨⟨rfl, by decide, by decide⟩, by decide +kernel⟩

theorem meets_ReloadDrainFreezeTablesAndCheck_4 :
    let l : Load := ⟨.check, 0, some staged1, Tables.empty, []⟩
    let s := loading l 32 id
    s.live 0 3 ∧ (s.region 0 3).load = some l ∧ l.phase = .check ∧ l.since + 32 ≤ s.now ∧
    checkTables (s.pview 0) (s.region 0 3).rect tables1 (s.steeredOthers 0 3) Code.ok Code.setupFormat Code.steerLimit = Code.ok ∧
    checkTables (s.pview 0) (s.region 0 3).rect (zeros 63) (s.steeredOthers 0 3) Code.ok Code.setupFormat Code.steerLimit ≠ Code.ok :=
  ⟨⟨rfl, by decide, by decide⟩, by decide +kernel⟩

theorem meets_ReloadSectionsRegistersAndRelease_1 :
    let l : Load := ⟨.sections, 0, some staged1, prog1, [1, 0, 0, 0]⟩
    let s := loading l 1 id
    s.runs = true ∧ (3, s.region 0 3) ∈ s.regionsOf 0 ∧ (s.region 0 3).load = some l ∧ l.phase = .sections ∧ l.since < s.now ∧ nth 0 l.left 0 = 0 + 1 ∧
    nth 0 s.bookAt 0 ≤ s.now ∧ (∀ q < 8, ∀ y ∈ s.regionsOf q, q = 0 ∧ y = (3, s.region 0 3)) := by decide +kernel

/-- The sections phase over, with setup `b`. -/
def sections (b : Staged) (c : Core → Core) : State := loading ⟨.sections, 0, some b, prog1, [0, 0, 0, 0]⟩ 1 c

theorem meets_ReloadSectionsRegistersAndRelease_2 :
    let s := sections staged1 id
    s.live 0 3 ∧ (s.bookReads []).2 = false ∧ sectionsOk (s.pview 0) (s.region 0 3).rect prog1 staged1.sects = true ∧
    sectionsFit staged1.sects = true ∧ (staged1.sects.all fun x => residueOk (s.core x.1) (Sect.read x.2)) = true ∧
    sectionsOk (s.pview 0) (s.region 0 3).rect prog1 [] = false ∧
    (staged1.sects.all fun x => residueOk ((sections staged1 fun c => c.setQueue 15 { Queue.reset with ents := [zeros 64] }).core x.1) (Sect.read x.2)) = false :=
  ⟨⟨rfl, by decide, by decide⟩, by decide +kernel⟩

/-- A section with a STREAM of 3 rows and a window of 2 over a descriptor with two K tiles: its accumulators do not suffice. -/
def section2 : List Byte :=
  let matI : Nat := 2 + 2 ^ 4 + 2 ^ 8 + 3 * 2 ^ 32 + 2 * 2 ^ 57 + 2 ^ 72
  let tile := [1, 0, 0, 1] ++ natLe 2 3 ++ natLe 2 16 ++ natLe 2 32 ++ natLe 2 3 ++ [1, 1, 2, 0] ++ zeros 112
  natLe 2 1 ++ [1, 0, 0, 0, 0, 0, 1] ++ zeros 3 ++ natLe 4 (32 + 8 + 16 + 64) ++ zeros 16 ++ zeros 8 ++ natLe 16 matI ++ tile.take 64

theorem meets_ReloadSectionsRegistersAndRelease_3 :
    let s := sections { staged1 with sects := [(0, section2)] } id
    sectionsOk (s.pview 0) (s.region 0 3).rect prog1 [(0, section2)] = true ∧ sectionsFit [(0, section2)] = false := by decide +kernel

theorem meets_ReloadSectionsRegistersAndRelease_4 :
    let l : Load := ⟨.registers, 0, some staged1, prog1, []⟩
    let k : Load := ⟨.release, 0, some staged1, prog1, []⟩
    (loading l 16 id).live 0 3 ∧ ((loading l 16 id).region 0 3).load = some l ∧ l.since + 16 ≤ (loading l 16 id).now ∧ l.staged = some staged1 ∧
    ((loading l 16 id).region 0 3).run = some ⟨lane, false, none, false⟩ ∧ ((loading k 4 id).region 0 3).load = some k ∧
    k.since + (if ((loading k 4 id).region 0 3).rect.spans then 18 else 4) ≤ (loading k 4 id).now :=
  ⟨⟨rfl, by decide, by decide⟩, by decide +kernel⟩

/-- Region 3 with lane `x`, in a job. -/
def runningLane (st : RState) (x : LaneRun) (g : Region → Region) : State :=
  { withPart fun y => { y with job := some job, regions := [(3, g { reg st with run := some x, tab := prog1 })] } with
    cores := [(0, { Core.reset with owner := some (0, 3) })] }

theorem meets_TempoGrantAndExecute_1 :
    let s := runningLane .held ⟨lane, false, some 1, false⟩ id
    s.live 0 3 ∧ (s.part 0).job = some job ∧ job.fail = none ∧ (s.region 0 3).mayGrant s.now = true ∧ s.senderHeld 0 3 = false ∧
    ((runningLane .held ⟨lane, false, none, true⟩ id).region 0 3).run = some ⟨lane, false, none, true⟩ :=
  ⟨⟨rfl, by decide, by decide⟩, by decide +kernel⟩

theorem meets_TempoGrantAndExecute_2 :
    let s := { runningLane .held ⟨lane, false, some 1, false⟩ (fun g => { g with granted := [⟨0, 0, true, none⟩] }) with now := 4 }
    s.live 0 3 ∧ (s.region 0 3).granted = ⟨0, 0, true, none⟩ :: [] ∧ 0 + (if (s.region 0 3).rect.spans then 18 else 4) ≤ s.now ∧
    (s.region 0 3).xcyc ≤ s.now ∧ { s with now := 3 }.now < 0 + (if (s.region 0 3).rect.spans then 18 else 4) ∧
    ((runningLane .held ⟨lane, false, some 1, false⟩ id).region 0 3).granted = [] :=
  ⟨⟨rfl, by decide, by decide⟩, by decide +kernel⟩

theorem meets_LaneRetireAndJobStopEnd_1 :
    let s := runningLane .running ⟨{ lane with fset := 0x80FF }, false, none, true⟩ id
    s.live 0 3 ∧ s.retireReady 0 3 = true ∧ (s.region 0 3).run = some ⟨{ lane with fset := 0x80FF }, false, none, true⟩ ∧
    bit 0x80FF 15 = true ∧ ((s.part 0).cflag 255).stamp ≠ s.now + 1 :=
  ⟨⟨rfl, by decide, by decide⟩, by decide +kernel⟩

/-- The job, failed and stopping. -/
def stopped : Job := { job with fail := some (0x0120, some 3, none), stopping := true }

theorem meets_LaneRetireAndJobStopEnd_2 :
    let s := { withPart fun y => { y with job := some stopped, regions := [(3, { reg .running with stopping := true, froze := true })] } with now := 8 }
    s.runs = true ∧ s.stopDone 0 = true ∧ (s.part 0).job = some stopped ∧ stopped.fail = some (0x0120, some 3, none) ∧ 0x0120 ≠ Code.ok := by decide +kernel

/-! ### Actions of the cores, the mesh, attachments, flags -/

/-- A core whose section lists what the actions below name: each list begins with one element of each kind. -/
def sect1 : Sect :=
  { Sect.empty with
    mats := [{ MatI.read (zeros 16) with op := 1 }, { MatI.read (zeros 16) with op := 1, tile := 1 }, { MatI.read (zeros 16) with op := 2 },
      { MatI.read (zeros 16) with op := 2, tile := 1 }, { MatI.read (zeros 16) with op := 3, pair := true }]
    vecs := [VecP.read (zeros 64)]
    rtes := [[]]
    flgs := [⟨1, 0, 63, 0, 0, 0, true⟩, ⟨2, 1, 0, 15, 0, 0, true⟩, ⟨1, 2, 0, 0, 63, 47, true⟩, ⟨2, 3, 255, 0, 0, 0, true⟩]
    strs := [⟨0, 1, 0, 1, 0⟩, ⟨0, 2, 0, 0, 0⟩, ⟨7, 3, 0, 15, 0⟩]
    mems := [.cursor 1 true (BaseW.read 0) 16, .castle 1, .dmain (DmaA.read (zeros 16)), .dmaout (DmaA.read (zeros 16)),
      .smreq 15 false 0 (sharedBase 0) 1 64, .rotate 0 1 1]
    tiles := [TileD.read (zeros 64)] }

/-- Core 0.0 of region 3, which runs; `c` changes it. -/
def core1 (c : Core → Core) : State := withRegion (reg .running) fun x => c { x with sect := sect1 }

theorem acts_core1 (c : Core → Core) (h : (c { Core.reset with owner := some (0, 3), sect := sect1 }).owner = some (0, 3)) : (core1 c).actsIn 0 0 :=
  actsIn_of 0 3 ⟨rfl, rfl, h, .inl rfl⟩

/-- In use, on either array. -/
def wload1 (a : Nat) : Core → Core := fun c => { c with wloads := [⟨a, MatI.read (zeros 16), 0, none, []⟩] }

theorem meets_MatrixInstructionsStart_1 :
    (core1 id).actsIn 0 0 ∧ ((core1 id).sect 0 0).mats[1 - 1]? = some { MatI.read (zeros 16) with op := 1 } ∧
    (((core1 id).core (coreId 0 0)).wloads.any fun w => arrMeet w.arr 1) = false ∧
    (((core1 (wload1 2)).core (coreId 0 0)).wloads.any fun w => arrMeet w.arr 1) = true ∧
    ((core1 id).sect 0 0).mats[2 - 1]? = some { MatI.read (zeros 16) with op := 1, tile := 1 } ∧
    ((core1 id).sect 0 0).tiles[1 - 1]? = some (TileD.read (zeros 64)) :=
  ⟨acts_core1 _ rfl, by decide +kernel⟩

theorem meets_MatrixInstructionsStart_2 :
    (core1 id).actsIn 0 0 ∧ ((core1 id).sect 0 0).mats[3 - 1]? = some { MatI.read (zeros 16) with op := 2 } ∧
    ((core1 id).sect 0 0).mats[4 - 1]? = some { MatI.read (zeros 16) with op := 2, tile := 1 } ∧
    ((core1 id).sect 0 0).tiles[1 - 1]? = some (TileD.read (zeros 64)) ∧ (TileD.read (zeros 64)).ofEn = false :=
  ⟨acts_core1 _ rfl, by decide +kernel⟩

theorem meets_MatrixInstructionsStart_3 :
    (core1 id).actsIn 0 0 ∧ ((core1 id).sect 0 0).mats[5 - 1]? = some { MatI.read (zeros 16) with op := 3, pair := true } ∧
    ((core1 id).core (coreId 0 0)).streams = [] ∧ (((core1 id).core (coreId 0 0)).aclrs.any fun y => arrMeet y.arr 2) = false :=
  ⟨acts_core1 _ rfl, by decide +kernel⟩

theorem meets_VectorRouteAndFlagActionsStart_1 :
    (core1 id).actsIn 0 0 ∧ ((core1 id).sect 0 0).vecs[1 - 1]? = some (VecP.read (zeros 64)) ∧ ((core1 id).core (coreId 0 0)).vrun = [] ∧
    (VecP.read (zeros 64)).nselEn = false ∧ ((core1 id).sect 0 0).rtes[1 - 1]? = some [] :=
  ⟨acts_core1 _ rfl, by decide +kernel⟩

theorem meets_VectorRouteAndFlagActionsStart_2 :
    (core1 id).actsIn 0 0 ∧ ((core1 id).sect 0 0).flgs[1 - 1]? = some ⟨1, 0, 63, 0, 0, 0, true⟩ ∧
    ((core1 id).sect 0 0).flgs[2 - 1]? = some ⟨2, 1, 0, 15, 0, 0, true⟩ ∧ ((core1 id).sect 0 0).flgs[3 - 1]? = some ⟨1, 2, 0, 0, 63, 47, true⟩ ∧
    ((core1 id).sect 0 0).flgs[4 - 1]? = some ⟨2, 3, 255, 0, 0, 0, true⟩ ∧
    (RWord.read (((core1 fun c => c.setRoute 15 { Route.null with word := 0x10000 }).core (coreId 0 0)).route 15).word).tgt ≠ 0 :=
  ⟨acts_core1 _ rfl, by decide +kernel⟩

theorem meets_SteeringActionsStart :
    (core1 id).actsIn 0 0 ∧ ((core1 id).sect 0 0).strs[1 - 1]? = some ⟨0, 1, 0, 1, 0⟩ ∧ ((core1 id).sect 0 0).strs[2 - 1]? = some ⟨0, 2, 0, 0, 0⟩ ∧
    ((core1 id).sect 0 0).strs[3 - 1]? = some ⟨7, 3, 0, 15, 0⟩ ∧ (((core1 id).core (coreId 0 0)).pairs.any fun y => y.a == ⟨0, 1, 0, 1, 0⟩) = false ∧
    (((core1 fun c => { c with pairs := [⟨⟨0, 1, 0, 1, 0⟩, [], [], 0, none⟩] }).core (coreId 0 0)).pairs.any fun y => y.a == ⟨0, 1, 0, 1, 0⟩) = true ∧
    (((core1 id).core (coreId 0 0)).delivs.any fun y => y.a == ⟨0, 2, 0, 0, 0⟩) = false :=
  ⟨acts_core1 _ rfl, by decide +kernel⟩

theorem meets_MemoryActionsStart_1 :
    (core1 id).actsIn 0 0 ∧ ((core1 id).sect 0 0).mems[1 - 1]? = some (.cursor 1 true (BaseW.read 0) 16) ∧
    ((core1 id).sect 0 0).mems[3 - 1]? = some (.dmain (DmaA.read (zeros 16))) ∧ ((core1 id).core (coreId 0 0)).din = none ∧
    ((core1 id).sect 0 0).mems[4 - 1]? = some (.dmaout (DmaA.read (zeros 16))) ∧ ((core1 id).core (coreId 0 0)).dout = none ∧
    ((core1 fun c => { c with din := some ⟨DmaA.read (zeros 16), 0, 0, 0⟩ }).core (coreId 0 0)).din ≠ none ∧
    ((core1 fun c => { c with dout := some ⟨DmaA.read (zeros 16), 0, 0, 0⟩ }).core (coreId 0 0)).dout ≠ none :=
  ⟨acts_core1 _ rfl, by decide +kernel⟩

/-- Buffer 0, filled. -/
def filled (c : Core) : Core :=
  { c with bufs := [(0, some ⟨⟨0, 0, 1, 1, 1, 1, 5, false, 0⟩, 0, 0⟩)], flags := [(5, { FlagR.reset with val := true })] }

theorem meets_MemoryActionsStart_2 :
    (core1 filled).actsIn 0 0 ∧ ((core1 filled).sect 0 0).mems[2 - 1]? = some (.castle 1) ∧
    (((List.range 16).filter fun b => bit 1 b).all fun b => match ((core1 filled).core (coreId 0 0)).buf b with
      | some y => (((core1 filled).core (coreId 0 0)).flag y.d.flag).read (core1 filled).now
      | none => false) = true ∧
    (((List.range 16).filter fun b => bit 1 b).all fun b => match ((core1 id).core (coreId 0 0)).buf b with
      | some y => (((core1 id).core (coreId 0 0)).flag y.d.flag).read (core1 id).now
      | none => false) = false :=
  ⟨acts_core1 _ rfl, by decide +kernel⟩

theorem meets_MemoryActionsStart_3 :
    ((core1 id).sect 0 0).mems[5 - 1]? = some (.smreq 15 false 0 (sharedBase 0) 1 64) ∧ ((core1 id).core (coreId 0 0)).dout = none ∧
    (RWord.read (((core1 fun c => c.setRoute 15 { Route.null with word := 0x40000 }).core (coreId 0 0)).route 15).word).tgt ≠ 0 ∧
    ((core1 id).sect 0 0).mems[6 - 1]? = some (.rotate 0 1 1) ∧
    ((core1 fun c => { c with rot := some ⟨0, 1, 1, 1, 0⟩ }).core (coreId 0 0)).rot = some ⟨0, 1, 1, 1, 0⟩ ∧
    ((core1 id).core (coreId 0 0)).rots = [] := by decide +kernel

theorem meets_CursorActionActsOnItsCoreAlone :
    (core1 id).actsIn 0 0 ∧ (1 : Nat) ≠ 0 ∧ ((core1 id).sect 0 0).mems[1 - 1]? = some (.cursor 1 true (BaseW.read 0) 16) :=
  ⟨acts_core1 _ rfl, by decide +kernel⟩

/-- The sources and flits below come from route 15 of core 0.1. -/
def src1 : Src := ⟨1, 64, 15, 0⟩
/-- See src1. -/
def flit (dst : Dst) (x : Cargo) : Flit := ⟨src1, dst, x, 0, 0, 0⟩

/-- Core 0.0 with router `r`. -/
def routed (r : Router) (c : Core → Core) : State := { core1 c with mesh := { Mesh.reset with routers := [(0, r)] } }

/-- A core with an entry for route 15 in its output store and one credit for it. -/
def storing (c : Core) : Core := { c.setRoute 15 ⟨0x10001, 1, 2, 0, []⟩ with out := [⟨15, 0, ⟨1, 1, 0, false⟩, .entry (zeros 64)⟩] }

theorem meets_EntriesLeaveAndArrive_1 :
    let s := routed Router.reset storing
    s.onCore 0 0 ∧ (s.core 0).nextOut 15 = some (0, ⟨15, 0, ⟨1, 1, 0, false⟩, .entry (zeros 64)⟩) ∧
    (s.core 0).out[0]? = some ⟨15, 0, ⟨1, 1, 0, false⟩, .entry (zeros 64)⟩ ∧ s.shutOut 0 = false ∧ (⟨15, 0, ⟨1, 1, 0, false⟩, .entry (zeros 64)⟩ : OutE).free_ ((s.core 0).route 15) = true ∧
    (0 : Nat) = ((s.core 0).route 15).ep ∧ (∀ m, Cargo.entry (zeros 64) ≠ .unbind m) :=
  ⟨⟨rfl, rfl⟩, by decide +kernel, by decide +kernel, by decide +kernel, by decide +kernel, rfl, fun m h => by cases h⟩

theorem meets_EntriesLeaveAndArrive_5 :
    let s := routed Router.reset fun c => { c.setRoute 15 ⟨0x10001, 1, 2, 0, []⟩ with out := [⟨15, 0, ⟨1, 1, 0, false⟩, .unbind 0⟩] }
    s.onCore 0 0 ∧ (s.core 0).nextOut 15 = some (0, ⟨15, 0, ⟨1, 1, 0, false⟩, .unbind 0⟩) ∧
    s.shutOut 0 = false :=
  ⟨⟨rfl, rfl⟩, by decide +kernel⟩

/-- A flit at the north input of core 0.0, for core `d`. -/
def passing (d : Nat) : State := routed { Router.reset with inq := [[flit ⟨d, 1, 0, false⟩ (.entry (zeros 64))], [], [], [], [], []] } id

theorem meets_EntriesLeaveAndArrive_2 :
    let s := passing 1
    s.onCore 0 0 ∧ portFree (widePort s.grade 0 1) (nth 0 (s.router 0).freeAt 1) s.now = true ∧
    ((inputOrder (nth 5 (s.router 0).last 1)).findSome? fun i => (waiting 0 1 s.now (nth [] (s.router 0).inq i)).map fun w => (i, w.1, w.2)) =
      some (0, 0, flit ⟨1, 1, 0, false⟩ (.entry (zeros 64))) ∧
    neighbour s.grade 0 (RPort.ofNum 1) = some 1 ∧ dieOfCore 0 = dieOfCore 1 ∧ nth false (s.router 1).dead (RPort.ofNum 1).facing.num = false :=
  ⟨⟨rfl, rfl⟩, by decide +kernel⟩

theorem meets_EntriesLeaveAndArrive_3 :
    let s := passing 0
    s.onCore 0 0 ∧ portFree (widePort s.grade 0 4) (nth 0 (s.router 0).freeAt 4) s.now = true ∧ neighbour s.grade 0 (RPort.ofNum 4) = none ∧
    ((inputOrder (nth 5 (s.router 0).last 4)).findSome? fun i => (waiting 0 4 s.now (nth [] (s.router 0).inq i)).map fun w => (i, w.1, w.2)) =
      some (0, 0, flit ⟨0, 1, 0, false⟩ (.entry (zeros 64))) :=
  ⟨⟨rfl, rfl⟩, by decide +kernel⟩

/-- A flit at the north input of core 31.0, for core 32.0 on the next die, at whose input `l` has come in over the bridge. -/
def crossing (l : List Flit) : State :=
  { core1 id with mesh := { Mesh.reset with routers :=
    [(31, { Router.reset with inq := [[flit ⟨32, 1, 0, false⟩ (.entry (zeros 64))], [], [], [], [], []] }),
     (32, { Router.reset with inq := [[], [], [], l, [], []] })] } }

theorem meets_EntriesLeaveAndArrive_6 :
    let s := crossing []
    s.onCore 31 0 ∧ portFree (widePort s.grade 31 1) (nth 0 (s.router 31).freeAt 1) s.now = true ∧
    ((inputOrder (nth 5 (s.router 31).last 1)).findSome? fun i => (waiting 31 1 s.now (nth [] (s.router 31).inq i)).map fun w => (i, w.1, w.2)) =
      some (0, 0, flit ⟨32, 1, 0, false⟩ (.entry (zeros 64))) ∧
    neighbour s.grade 31 (RPort.ofNum 1) = some 32 ∧ dieOfCore 31 ≠ dieOfCore 32 ∧ nth false (s.router 32).dead (RPort.ofNum 1).facing.num = false :=
  ⟨⟨rfl, rfl⟩, by decide +kernel⟩

theorem meets_EntriesLeaveAndArrive_7 :
    (crossing []).crossFull 31 32 3 = false ∧ (RPort.ofNum 1).facing.num = 3 ∧
    (crossing (List.replicate (Config.bridgeDepth + 1) (flit ⟨32, 1, 0, false⟩ .bind))).crossFull 31 32 3 = true := by
  have e : ∀ l : List Flit, nth [] ((crossing l).router 32).inq 3 = l := fun _ => rfl
  have d : (dieOfCore 31 != dieOfCore 32) = true := by decide +kernel
  unfold State.crossFull
  rw [e, e, d, List.length_replicate]
  simp
  decide +kernel

theorem meets_EntriesLeaveAndArrive_8 :
    let s := routed { Router.reset with freeAt := [0, 1, 2, 0, 0, 0] } id
    portFree (widePort s.grade (coreId 0 0) 1) (nth 0 (s.router (coreId 0 0)).freeAt 1) s.now = false ∧
    portFree (widePort s.grade (coreId 0 0) 2) (nth 0 (s.router (coreId 0 0)).freeAt 2) s.now = false ∧
    portFree false 5 5 = true ∧ 10 ≤ 2 * 5 := by decide +kernel

/-- `x` at the local port of core 0.0, for its queue 15. -/
def arrived (x : Cargo) (c : Core → Core) : State := routed { Router.reset with arrL := [flit ⟨0, 1, 15, false⟩ x] } c

theorem meets_EntriesLeaveAndArrive_4 :
    let s := arrived (.entry (zeros 64)) id
    s.onCore 0 0 ∧ s.localFront 0 = some (flit ⟨0, 1, 15, false⟩ (.entry (zeros 64))) :=
  ⟨⟨rfl, rfl⟩, by decide +kernel⟩

/-- Queue 15 is fed by route 15 of core 0.1. -/
def fed (b : Option Src) (c : Core) : Core := c.setQueue 15 { Queue.reset with w := ⟨256, 1, 0, 1, 15⟩, bound := b }

theorem meets_BindingsAndCredits_1 :
    let s := arrived .bind (fed none)
    s.onCore 0 0 ∧ s.localFront 0 = some (flit ⟨0, 1, 15, false⟩ .bind) ∧ ((s.core 0).queue 15).w.names src1 = true ∧ s.frozen 0 = false ∧
    ((s.core 0).queue 15).bound = none ∧ (((arrived .bind id).core 0).queue 15).w.names src1 = false ∧
    ({ s with parts := (pending .loading lane).parts }).frozen 0 = true :=
  ⟨⟨rfl, rfl⟩, by decide +kernel⟩

theorem meets_BindingsAndCredits_5 :
    let q := { Queue.reset with w := ⟨256, 1, 0, 1, 15⟩, rem := [src1, ⟨1, 2, 0, 0⟩, ⟨1, 3, 0, 0⟩, ⟨1, 4, 0, 0⟩, ⟨1, 5, 0, 0⟩] }
    (q.rem.filter fun y => !q.w.names y).length ≤ 4 ∧ src1 ∈ q.rem ∧ q.w.names src1 = true := by decide +kernel

theorem meets_BindingsAndCredits_6 :
    let s := routed { Router.reset with arrV := [flit ⟨0, 4, 0, false⟩ .bind] } id
    s.onCore 0 0 ∧ s.vertFront (coreId 0 0) = some (flit ⟨0, 4, 0, false⟩ .bind) :=
  ⟨⟨rfl, rfl⟩, by decide +kernel⟩

theorem meets_BindingsAndCredits_2 :
    let s := routed { Router.reset with arrE := [flit ⟨0, 2, 0, false⟩ .bind] } id
    let v := routed { Router.reset with arrE := [flit ⟨0, 3, 0, false⟩ .bind] } id
    s.onCore 0 0 ∧ firstOut Flit.isBind s.now (s.router 0).arrE = some (0, flit ⟨0, 2, 0, false⟩ .bind) ∧ (s.agent 0).routes 0 < 32 ∧
    firstOut Flit.isBind v.now (v.router 0).arrE = some (0, flit ⟨0, 3, 0, false⟩ .bind) :=
  ⟨⟨rfl, rfl⟩, by decide +kernel⟩

theorem meets_BindingsAndCredits_3 :
    let s := arrived (.unbind 1) (fed (some src1))
    s.onCore 0 0 ∧ s.localFront 0 = some (flit ⟨0, 1, 15, false⟩ (.unbind 1)) ∧ ((s.core 0).queue 15).bound = some src1 :=
  ⟨⟨rfl, rfl⟩, by decide +kernel⟩

theorem meets_BindingsAndCredits_4 :
    let s := { core1 (fun c => c.setRoute 15 ⟨0x10001, 0, 1, 7, []⟩) with mesh := ⟨[], [⟨⟨1, 0, 15, 7⟩, 256⟩], []⟩ }
    s.runs = true ∧ s.mesh.credits[0]? = some ⟨⟨1, 0, 15, 7⟩, 256⟩ ∧ ((s.core 0).route 15).ep = 7 ∧ ((s.core 0).route 15).st = 1 := by decide +kernel

/-- A stream request for `n` entries of 64 bytes from address `a`, at the vertical port of core 0.0. -/
def requested (w : Bool) (a n : Nat) : State :=
  routed { Router.reset with arrV := [flit ⟨0, 4, 0, false⟩ (.entry (smEntry 15 w 0 a n 64))] } id

theorem meets_SharedMemoryStreams_1 :
    let s := requested true (sharedBase 0) 1
    let q := SmReq.read src1 0 0 (smEntry 15 true 0 (sharedBase 0) 1 64)
    let bad := fun (a : Nat) => SmReq.read src1 0 0 (smEntry 15 true 0 a 1 64)
    s.onCore 0 0 ∧ s.vertFront 0 = some (flit ⟨0, 4, 0, false⟩ (.entry (smEntry 15 true 0 (sharedBase 0) 1 64))) ∧ (s.att 0).wants src1 0 = false ∧
    q.left ≠ 0 ∧ s.streamAddr 0 q = some (sharedBase 0) ∧ q.write = true ∧ ((s.att 0).buried src1).ctxs.length < 8 ∧ ((s.att 0).buried src1).wait = [] ∧
    (bad (sharedBase 0 + 0x7800000)).left ≠ 0 ∧ s.streamAddr 0 (bad (sharedBase 0 + 0x7800000)) = none ∧
    s.streamAddr 0 (bad (sharedBase 1)) = none ∧ (SmReq.read src1 0 0 (smEntry 15 true 0 (sharedBase 0) 0 64)).left = 0 :=
  ⟨⟨rfl, rfl⟩, by decide +kernel⟩

/-- A line of die 0's shared memory. -/
def line1 : Nat := sharedBase 0 + 64

theorem meets_SharedMemoryStreams_2 :
    let q : SmReq := ⟨src1, 0, 0, false, 15, line1, 1, 64, false⟩
    let s := { core1 id with attach := [(0, { Attach.reset with ctxs := [q], outs := [⟨64, 15, 1, true, 0⟩] })] }
    s.onCore 0 0 ∧ (s.att 0).ctxs[0]? = some q ∧ q.write = false ∧ outOf (s.att 0).outs q.src.core q.dchan = some (0, ⟨64, 15, 1, true, 0⟩) ∧
    (s.router 0).room 5 s.now = true ∧ s.streamAddr 0 q = some line1 ∧ (s.readErrors line1 64).2 = 0 :=
  ⟨⟨rfl, rfl⟩, by decide +kernel⟩

theorem meets_SharedMemoryStreams_3 :
    let q : SmReq := ⟨src1, 0, 0, true, 0, line1, 1, 64, false⟩
    let s := fun (q : SmReq) => { requested true line1 1 with attach := [(0, { Attach.reset with ctxs := [q] })] }
    let of := fun (q : SmReq) => findAt (fun (x : SmReq) => x.takes src1 0) ((s q).att 0).ctxs
    (s q).onCore 0 0 ∧ (s q).vertFront 0 = some (flit ⟨0, 4, 0, false⟩ (.entry (smEntry 15 true 0 line1 1 64))) ∧ of q = some (0, q) ∧
    (s q).streamAddr 0 q = some line1 ∧ (smEntry 15 true 0 line1 1 64).length ≤ 64 ∧ of { q with dead := true } = some (0, { q with dead := true }) :=
  ⟨⟨rfl, rfl⟩, by decide +kernel⟩

/-- A set of flag 63 of core 0.0, on its way from core 0.1; and one of chip flag 255. -/
def setOp : FlagOp := ⟨true, 3, some 64, 0, 0⟩

theorem meets_FlagOperations_1 :
    let s := { core1 id with mesh := ⟨[], [], [⟨0, some 0, 63, setOp⟩, ⟨0, none, 255, setOp⟩]⟩ }
    let v := { withRegion (reg .loading) id with mesh := s.mesh }
    s.onCore 0 0 ∧ s.mesh.ops[0]? = some ⟨0, some 0, 63, setOp⟩ ∧ s.flagsFrozen 0 = false ∧ v.flagsFrozen 0 = true ∧ (v.core 0).heldOps.length < 8 ∧
    s.mesh.ops[1]? = some ⟨0, none, 255, setOp⟩ ∧ [Upset.flagNet].contains Upset.flagNet = true ∧ ([] : List Upset).contains Upset.flagNet = false :=
  ⟨⟨rfl, rfl⟩, by decide +kernel⟩

theorem meets_FlagOperations_2 :
    let s := arrived (.flag 63 setOp) id
    s.onCore 0 0 ∧ s.localFront 0 = some (flit ⟨0, 1, 15, false⟩ (.flag 63 setOp)) ∧ s.flagsFrozen 0 = false :=
  ⟨⟨rfl, rfl⟩, by decide +kernel⟩

theorem meets_FlagOperations_3 :
    on.servedBy o0 0 ∧ 255 < (on.part 0).allot on.grade ∧ on.servedBy o1 1 ∧ (on.part 1).allot on.grade ≤ 0 ∧
    FlagR.reset.stamp ≠ 0 + 1 ∧ setOp.set = true ∧ { setOp with set := false }.set = false :=
  ⟨served_o0, by decide +kernel, served_o1, by decide +kernel⟩

/-- A link of core 0.0 whose last flit has failed `n` times in succession. -/
def replayed (n : Nat) : State :=
  routed { Router.reset with inq := [[], [], [], [], [], [flit ⟨1, 1, 0, false⟩ .bind]], replays := [0, 0, 0, 0, 0, n] } id

theorem meets_LinkReplayAndFailure :
    (replayed 6).onCore 0 0 ∧ 5 < ((replayed 6).router 0).inq.length ∧ 5 < ((replayed 6).router 0).replays.length ∧
    5 < ((replayed 6).router 0).dead.length ∧ (nth [] ((replayed 6).router 0).inq 5).getLast? = some (flit ⟨1, 1, 0, false⟩ .bind) ∧
    nth 0 ((replayed 6).router 0).replays 5 < 7 ∧ nth 0 ((replayed 7).router 0).replays 5 = 7 :=
  ⟨⟨rfl, rfl⟩, by decide +kernel⟩

/-- Region 3 runs a lane, in a job, with no grant for `n` cycles. -/
def held (n : Nat) : State := runningLane .running ⟨lane, false, none, false⟩ fun g => { g with hold := n }

theorem meets_WatchdogLimit :
    on.servedBy o0 0 ∧ 12 < 2 ^ 5 ∧ 30 < 2 ^ 5 ∧ 31 < 2 ^ 5 ∧ ((held 4096).region 0 3).run = some ⟨lane, false, none, false⟩ ∧
    ((held 4096).region 0 3).load = none ∧ 2 ^ 12 ≤ ((held 4096).region 0 3).hold ∧ ((held 4095).region 0 3).hold < 2 ^ 12 :=
  ⟨served_o0, by decide +kernel⟩

theorem meets_StalemateAndSnapshot_1 :
    let s := held (2 ^ 20)
    s.live 0 3 ∧ (s.part 0).job = some job ∧ job.fail = none ∧ 3 ∈ job.regions ∧ s.expired 0 3 = true ∧
    (∀ q ∈ job.regions, q < 3 → s.expired 0 q = false) ∧ (held (2 ^ 20 - 1)).expired 0 3 = false :=
  ⟨⟨rfl, by decide, by decide⟩, by decide +kernel⟩

/-- A stalemate found, with snapshot registers `w`. -/
def stale (w : Watch) : State := withPart fun x => { x with job := some job, stale := some ⟨3, 0, 20, []⟩, watch := w }

theorem meets_StalemateAndSnapshot_2 :
    let s := stale { Watch.reset with base := sharedBase 0, size := 1 }
    s.runs = true ∧ (s.part 0).stale = some ⟨3, 0, 20, []⟩ ∧ (s.part 0).job = some job ∧ (s.part 0).watch.size ≠ 0 ∧ (s.part 0).watch.valid = false ∧
    ((stale Watch.reset).part 0).watch.size = 0 ∧ ((stale { Watch.reset with size := 1, valid := true }).part 0).watch.valid = true ∧
    (stale Watch.reset).runs = true := by decide +kernel

theorem meets_StalemateAndSnapshot_3 : on.servedBy o0 0 := served_o0

/-- A scoresheet of one queue, with its ring at the start of shared memory. -/
def sheet (t : Sheet) : State := withPart fun x => { x with sheet := { t with base := sharedBase 0, sel := [(0, 0x10000)] } }

theorem meets_ScoresheetAndQueueHead_1 :
    let s := sheet Sheet.reset
    s.servedBy o0 0 ∧ (s.part 0).sheet.chosen ≠ [] ∧ s.sharedIn 0 (s.part 0).sheet.base (s.part 0).sheet.ring = true ∧ (s.part 0).sheet.period < 32 :=
  ⟨servedBy_of (by decide +kernel), by decide +kernel⟩

theorem meets_ScoresheetAndQueueHead_2 :
    let s := { sheet { Sheet.reset with en := true } with now := 2 ^ 10 }
    let v := { sheet { Sheet.reset with en := true, head := Sheet.reset.ring - 64 } with now := 2 ^ 10 }
    let w := { sheet { Sheet.reset with en := true, full := true } with now := 2 ^ 10 }
    let size := if (s.part 0).sheet.chosen.length ≤ 24 then 64 else 128
    s.runs = true ∧ (s.part 0).sheet.en = true ∧ (s.part 0).sheet.since + 2 ^ (s.part 0).sheet.period ≤ s.now ∧
    (s.part 0).sheet.used + size ≤ (s.part 0).sheet.ring ∧ (v.part 0).sheet.ring = (v.part 0).sheet.used + size ∧
    (w.part 0).sheet.ring < (w.part 0).sheet.used + size ∧
    { s with now := 2 ^ 10 - 1 }.now < (s.part 0).sheet.since + 2 ^ (s.part 0).sheet.period ∧ (on.part 0).sheet.en = false := by decide +kernel

theorem meets_ScoresheetAndQueueHead_3 :
    let s := core1 fun c => { c.setQueue 15 { Queue.reset with ents := [zeros 64] } with qsel := 15 }
    s.onCore 0 0 ∧ ((s.core 0).queue (s.core 0).qsel).ents ++ ((s.core 0).queue (s.core 0).qsel).raw = zeros 64 :: [] ∧
    (((core1 id).core 0).queue 0).ents ++ (((core1 id).core 0).queue 0).raw = [] :=
  ⟨⟨rfl, rfl⟩, by decide +kernel⟩

/-! ### Stacks -/

/-- The last codeword of stack 0. -/
def lastWord : Nat := stackBytes - 64

/-- A descriptor of one codeword: OP, address, row length, rows. -/
def desc (op addr rowb nrow : Nat) : Entry := padTo 64 (natLe 1 op ++ zeros 7 ++ natLe 8 addr ++ natLe 4 rowb ++ natLe 4 nrow)

/-- An entry `e` at input `n` of the agent at core 0.0, whose agent is `a`. -/
def atEdge (n : Nat) (e : Entry) (a : EdgeAgent) : State :=
  { routed { Router.reset with arrE := [flit ⟨0, 2, n, false⟩ (.entry e)] } id with agents := [(0, a)] }

/-- The job that sent the flits above runs. -/
def working (s : State) : State := s.modPart 0 fun x => { x with job := some { job with id := 0 } }

/-- Stack 0 has no room: an earlier request waits there. -/
def crowded (s : State) : State := s.modStack 0 fun k => { k with line := [(.edge 1, 0)] }

theorem meets_StackRequestsTaken_1 :
    let s := working (atEdge 0 (desc 1 lastWord 64 1) EdgeAgent.reset)
    let u := s.edgeTaken 0 0 src1
    s.onCore 0 0 ∧ s.jobGoes (flit ⟨0, 2, 0, false⟩ (.entry (desc 1 lastWord 64 1))) = true ∧ s.nextDesc 0 = some (0, flit ⟨0, 2, 0, false⟩ (.entry (desc 1 lastWord 64 1))) ∧
    u.descCode 0 (stackAt 0) (DmaDesc.read (desc 1 lastWord 64 1)) = 0 ∧ u.descCode 0 (stackAt 0) (DmaDesc.read (desc 2 lastWord 64 1)) = 0 ∧
    u.descCode 0 (stackAt 0) (DmaDesc.read (desc 3 0 4096 65536)) = 0 ∧ (DmaDesc.read (desc 1 lastWord 64 1)).op = 1 ∧
    (DmaDesc.read (desc 2 lastWord 64 1)).op = 2 ∧ (DmaDesc.read (desc 3 0 4096 65536)).op = 3 :=
  ⟨⟨rfl, rfl⟩, by decide +kernel⟩

theorem meets_StackRequestsTaken_2 :
    let s := atEdge 0 (desc 2 lastWord 128 1) EdgeAgent.reset
    let u := s.edgeTaken 0 0 src1
    s.jobGoes (flit ⟨0, 2, 0, false⟩ (.entry (desc 2 lastWord 128 1))) = false ∧ (DmaDesc.read (desc 2 lastWord 128 1)).op = 2 ∧
    u.descCode 0 (stackAt 0) (DmaDesc.read (desc 2 lastWord 128 1)) = Code.stackAddress ∧
    u.descCode 0 (stackAt 0) (DmaDesc.read (desc 1 lastWord 63 1)) = Code.stackDescFormat ∧ Code.stackAddress ≠ 0 ∧ Code.stackDescFormat ≠ 0 := by decide +kernel

/-- A request of route src1 for descriptor `e`, owed `n` entries. -/
def request (e : Entry) (n : Nat) : EReq := ⟨src1, 0, 0, DmaDesc.read e, [], n, 0, none, false⟩

theorem meets_StackDataArrives_1 :
    let q := request (desc 2 lastWord 64 1) 1
    let s := atEdge 0 (zeros 64) { EdgeAgent.reset with reqs := [q] }
    let a := s.agent 0
    let mine := fun (q : EReq) (x : Src) => q.src == x && q.data.isNone && q.d.op == 2 && decide (0 < q.left)
    s.onCore 0 0 ∧
    firstOf 0 (fun f => f.dst.tgt == 2 && (a.drains.any (fun d => d.src == f.src && d.kind == 2) || a.reqs.any fun q => mine q f.src))
      s.now (s.router 0).arrE = some (0, flit ⟨0, 2, 0, false⟩ (.entry (zeros 64))) ∧
    findAt (fun (d : Drain) => d.src == src1 && d.kind == 2) a.drains = none ∧
    findAt (fun (q : EReq) => mine q src1) a.reqs = some (0, q) ∧ s.stackRoom (.edge 0) (q.d.entryAddr (q.d.entries - q.left)) = true ∧
    (crowded s).stackRoom (.edge 0) (q.d.entryAddr (q.d.entries - q.left)) = false ∧
    q.d.entryAddr (q.d.entries - q.left) = lastWord ∧ (zeros 64).length ≤ 64 :=
  ⟨⟨rfl, rfl⟩, by decide +kernel⟩

theorem meets_StackDataArrives_2 :
    let q := request (desc 3 0 64 1) 1
    let s := atEdge 0 (zeros 64) { EdgeAgent.reset with reqs := [q] }
    let a := s.agent 0
    let mine := fun (q : EReq) (x : Src) => q.src == x && q.data.isNone && q.d.op == 3 && decide (0 < q.left)
    s.onCore 0 0 ∧
    firstOf 0 (fun f => f.dst.tgt == 2 && (a.drains.any (fun d => d.src == f.src && d.kind == 3) || a.reqs.any fun q => mine q f.src))
      s.now (s.router 0).arrE = some (0, flit ⟨0, 2, 0, false⟩ (.entry (zeros 64))) ∧
    findAt (fun (d : Drain) => d.src == src1 && d.kind == 3) a.drains = none ∧
    findAt (fun (q : EReq) => mine q src1) a.reqs = some (0, q) ∧ q.bad = false ∧
    (∀ x ∈ (List.range (min 16 (q.d.nrow - 16 * (cdiv q.d.nrow 16 - q.left)))).map (fun j => fld (zeros 64) (4 * j) 4),
      s.stackIn q.part (stackAt 0) (q.d.addr + x * q.d.stride) q.d.rowb = true) :=
  ⟨⟨rfl, rfl⟩, by decide +kernel⟩

theorem meets_StackDataArrives_3 :
    let s := atEdge 0 (zeros 64) { EdgeAgent.reset with drains := [⟨src1, 2, 1⟩] }
    let a := s.agent 0
    s.onCore 0 0 ∧ findAt (fun (d : Drain) => d.src == src1 && d.kind == 2) a.drains = some (0, ⟨src1, 2, 1⟩) ∧
    firstOf 0 (fun f => f.dst.tgt == 2 && (a.drains.any (fun d => d.src == f.src && d.kind == 2) ||
      a.reqs.any fun q => q.src == f.src && q.data.isNone && q.d.op == 2 && decide (0 < q.left))) s.now (s.router 0).arrE =
        some (0, flit ⟨0, 2, 0, false⟩ (.entry (zeros 64))) :=
  ⟨⟨rfl, rfl⟩, by decide +kernel⟩

/-- An agent with one request, whose queue 0 of core 0.0 is bound or not, with one credit. -/
def delivering (q : EReq) (b : Bool) : State := { core1 id with agents := [(0, { EdgeAgent.reset with reqs := [q], outs := [⟨0, 0, 1, b, 0⟩] })] }

/-- The request that a delivery takes next. -/
def nextDelivery (s : State) : Option (EReq × Nat) :=
  let rs := (s.agent 0).reqs
  (rs.zip (List.range rs.length)).find? fun x => s.mayDeliver 0 x.2 x.1

/-- Whether a request would deliver, had its stack room. -/
def anyWould (s : State) : Bool :=
  let rs := (s.agent 0).reqs
  (rs.zip (List.range rs.length)).any fun x => s.wouldDeliver 0 x.2 x.1

theorem meets_StackDeliveriesEnd_1 :
    let q := request (desc 1 lastWord 64 1) 0
    let s := delivering q true
    s.onCore 0 0 ∧ nextDelivery s = some (q, 0) ∧ outOf (s.agent 0).outs q.d.core q.d.dq = some (0, ⟨0, 0, 1, true, 0⟩) ∧
    q.data = none ∧ q.d.op = 1 ∧ q.done < q.d.entries ∧ q.d.entryAddr q.done = lastWord ∧ s.readErrors lastWord 64 = (0, 0) ∧ q.bad = false ∧
    nextDelivery (delivering q false) = some (q, 0) ∧ nextDelivery (crowded s) = none ∧ anyWould (crowded s) = true ∧
    nextDelivery (core1 id) = none ∧ anyWould (core1 id) = false :=
  ⟨⟨rfl, rfl⟩, by decide +kernel⟩

theorem meets_StackDeliveriesEnd_2 :
    let q := { request (desc 0 0 0 0) 0 with data := some [zeros 64] }
    let s := delivering q true
    s.onCore 0 0 ∧ nextDelivery s = some (q, 0) ∧ outOf (s.agent 0).outs q.d.core q.d.dq = some (0, ⟨0, 0, 1, true, 0⟩) ∧
    q.data = some [zeros 64] :=
  ⟨⟨rfl, rfl⟩, by decide +kernel⟩

theorem meets_StackDeliveriesEnd_3 :
    let q := { request (desc 1 lastWord 64 1) 0 with done := 1, d := { DmaDesc.read (desc 1 lastWord 64 1) with flag := true } }
    let w := request (desc 2 lastWord 64 1) 0
    let find := fun (s : State) => ((s.agent 0).reqs.zip (List.range (s.agent 0).reqs.length)).find? fun x => s.reqDone 0 x.2 x.1
    (delivering q true).onCore 0 0 ∧ find (delivering q true) = some (q, 0) ∧ q.d.flag = true ∧ find (delivering w true) = some (w, 0) ∧
    w.d.flag = false ∧ find (delivering { q with data := some [zeros 64] } true) = some ({ q with data := some [zeros 64] }, 0) :=
  ⟨⟨rfl, rfl⟩, by decide +kernel⟩

/-- A match command over one record of 16 FP16 elements at the start of stack 0, one query, K = 1; results in the stack or not. -/
def matchBytes (rdst : Bool) : Entry :=
  padTo 64 ([1, (if rdst then 8 else 0), 7, 1] ++ natLe 2 16 ++ natLe 2 1 ++ zeros 8 ++ natLe 4 1 ++ natLe 4 64 ++ zeros 24 ++
    (if rdst then natLe 8 lastWord else []))

theorem meets_MatchCommandsRun_1 :
    let s := working (atEdge 1 (matchBytes false) EdgeAgent.reset)
    let u := s.edgeTaken 0 0 src1
    s.jobGoes (flit ⟨0, 2, 1, false⟩ (.entry (matchBytes false))) = true ∧ (core1 id).jobGoes (flit ⟨0, 2, 1, false⟩ .bind) = false ∧ s.onCore 0 0 ∧ firstOf 1 (fun f => f.dst.tgt == 2 && !s.owesQueries 0 f.src) s.now (s.router 0).arrE =
      some (0, flit ⟨0, 2, 1, false⟩ (.entry (matchBytes false))) ∧ (s.stack (stackAt 0)).mq.length < 8 ∧
    u.matchCode 0 (stackAt 0) (MatchC.read (matchBytes false)) = 0 ∧ u.matchCode 0 (stackAt 0) (MatchC.read (zeros 64)) ≠ 0 :=
  ⟨by decide +kernel, by decide +kernel, ⟨rfl, rfl⟩, by decide +kernel⟩

/-- That command in stack 0's queue, owed `n` of its query entries. -/
def mcmd (rdst : Bool) (n : Nat) : MCmd := ⟨MatchC.read (matchBytes rdst), some (0, src1), 0, 0, 0, [], n⟩

theorem meets_MatchCommandsRun_2 :
    let s := { atEdge 1 (zeros 64) EdgeAgent.reset with stks := [(0, { Stack.reset with mq := [mcmd false 1] })] }
    let nan : Entry := padTo 64 [0, 0, 0xC0, 0x7F]
    s.onCore 0 0 ∧ firstOf 1 (fun f => f.dst.tgt == 2 && s.owesQueries 0 f.src) s.now (s.router 0).arrE =
      some (0, flit ⟨0, 2, 1, false⟩ (.entry (zeros 64))) ∧
    findAt (fun (d : Drain) => d.src == src1 && d.kind == 1) (s.agent 0).drains = none ∧
    findAt (fun (m : MCmd) => m.src == some (0, src1) && decide (0 < m.left)) (s.stack (stackAt 0)).mq = some (0, mcmd false 1) ∧
    { mcmd false 1 with queries := [zeros 64], left := 0 }.queriesOk = true ∧
    (mcmd false 1).left = 1 ∧ { mcmd false 1 with queries := [nan], left := 0 }.queriesOk = false :=
  ⟨⟨rfl, rfl⟩, by decide +kernel⟩

/-- Stack 0 runs that command. -/
def scanning (rdst : Bool) : State := { on with stks := [(0, { Stack.reset with run := some (mcmd rdst 0) })] }

theorem meets_MatchCommandsRun_3 :
    let s := { on with stks := [(0, { Stack.reset with mq := [mcmd false 0] })] }
    s.runs = true ∧ (s.stack 0).run = none ∧ (s.stack 0).mq = mcmd false 0 :: [] ∧ (mcmd false 0).left = 0 ∧ s.defs = [] ∧
    ((scanning true).stack 0).run = some (mcmd true 0) ∧ ((scanning true).stack 0).delivering = false ∧
    (scanning true).passDamage 0 (mcmd true 0).c = [] ∧ (mcmd true 0).src = some (0, src1) ∧ (mcmd true 0).c.rdst = true ∧ (mcmd true 0).c.flag = false ∧ (mcmd false 0).c.rdst = false := by decide +kernel

theorem meets_StackUpkeep_4 :
    on.runs = true ∧ (on.stack 7).refDue ≤ 1000 * on.now ∧ 1000 * on.now < ((on.modStack 7 fun k => { k with refDue := 1 }).stack 7).refDue ∧
    (on.stack 7).clearing = none := by decide +kernel

theorem meets_StackUpkeep_1 :
    on.runs = true ∧ (on.stack 7).wback = [] ∧ on.readErrors (stackBase 7 + 64 * (on.stack 7).scrubAt) 64 = (0, 0) ∧
    { on with stks := [(7, { Stack.reset with copying := [65535] })] }.dmg = [] ∧
    ({ on with stks := [(7, { Stack.reset with copying := [65535] })] }.stack 7).copying = 65535 :: [] := by decide +kernel

theorem meets_StackUpkeep_2 :
    let s := { on with defs := [⟨o0, 0, 0x0100, .grant 1 { GrantR.empty with stks := [6, 7] } false [6] false⟩] }
    s.runs = true ∧ findAt (fun (d : Defr) => match d.k with
       | .grant q g _ cl _ => (stksMoved (s.part q).grant g).contains 7 && !cl.contains 7
       | _ => false) s.defs = some (0, ⟨o0, 0, 0x0100, .grant 1 { GrantR.empty with stks := [6, 7] } false [6] false⟩) ∧
    s.losersIdle 1 { GrantR.empty with stks := [6, 7] } = true ∧
    (∀ x ∈ stksMoved (s.part 1).grant { GrantR.empty with stks := [6, 7] }, x ∈ [6] ++ [7]) ∧
    (∃ x ∈ stksMoved (s.part 1).grant { GrantR.empty with stks := [6, 7] }, x ∉ [] ++ [7]) := by decide +kernel

theorem meets_StackUpkeep_3 :
    on.servedBy o0 0 ∧ 7 ∈ (on.part 0).grant.stks ∧ 3 < 4 ∧ 3071 < 3072 ∧ on.reaches 0 3071 = true := ⟨served_o0, by decide +kernel⟩

/-! ### Network B -/

theorem tag_read (a : List Byte) (v : BitVec 128) : BitVec.ofNat 128 (fld (a ++ natLe 16 v.toNat) a.length 16) = v := by
  unfold fld
  rw [slice_right a _ 16 (length_natLe 16 _).symm, leNat_natLe, Nat.mod_eq_of_lt (by have := v.isLt; omega), BitVec.ofNat_toNat, BitVec.setWidth_eq]

/-- A frame with header `hd` and body `body`, not enciphered, under the key of no bytes. -/
def sealed (hd body : List Byte) : List Byte :=
  hd ++ body ++ natLe 16 (Config.gcmTag [] (ringNonce (fld hd 10 3) (RingF.read hd).gen (RingF.read hd).fcnt) (hd ++ body) []).toNat

theorem read_left (a b : List Byte) (h : a.length = 48) : RingF.read (a ++ b) = RingF.read a := by
  simp only [RingF.read, fld_left a b 0 1 (by omega), fld_left a b 1 1 (by omega), fld_left a b 2 1 (by omega), fld_left a b 3 1 (by omega),
    fld_left a b 4 4 (by omega), fld_left a b 8 2 (by omega), fld_left a b 10 3 (by omega),
    fld_left a b 16 8 (by omega), fld_left a b 24 4 (by omega), fld_left a b 28 4 (by omega), fld_left a b 32 8 (by omega),
    fld_left a b 40 4 (by omega), fld_left a b 44 4 (by omega)]

theorem ringOpen_sealed {s : State} {c : Nat} {h : RingHdr} {hd body : List Byte} (hk : (s.memb c).key = some []) (he : h.enc = false)
    (hl : hd.length = 48) : s.ringOpen c h (sealed hd body) = some body := by
  have len : (sealed hd body).length = 48 + body.length + 16 := by
    simp [sealed, hl, length_natLe, Nat.add_assoc]
  have hr : RingF.read (sealed hd body) = RingF.read hd := by
    unfold sealed
    rw [List.append_assoc, read_left hd _ hl]
  have h1 : fld (sealed hd body) 10 3 = fld hd 10 3 := by
    unfold sealed
    rw [List.append_assoc, fld_left hd _ 10 3 (by omega)]
  have h2 : (sealed hd body).take 48 = hd := by
    unfold sealed
    rw [List.append_assoc, ← hl, List.take_left]
  have h3 : slice (sealed hd body) 48 body.length = body := by
    unfold sealed
    rw [slice_left _ _ _ _ (by simp [hl]), ← hl, slice_right hd body _ rfl]
  have h4 : BitVec.ofNat 128 (fld (sealed hd body) (48 + body.length) 16) =
      Config.gcmTag [] (ringNonce (fld hd 10 3) (RingF.read hd).gen (RingF.read hd).fcnt) (hd ++ body) [] := by
    have e : 48 + body.length = (hd ++ body).length := by simp [hl]
    rw [e]
    exact tag_read _ _
  unfold State.ringOpen
  simp [hr, h1, h2, h3, h4, hk, he, len]

/-- The member entry of another module. -/
def ent (i : Nat) : RingEnt := ⟨i, i == 0, i, i⟩

/-- A table of port 0: one level of `n` members, of which this module is the first; no spare; no encryption. -/
def hdr (n : Nat) : RingHdr :=
  { format := 1, gen := 1, sysid := 0, levels := 1, n1 := n, n2 := 1, n3 := 1, pos1 := 0, pos2 := 0, pos3 := 0, nspare := 0, ipv6 := false,
    enc := false, standby := false, pmask := 1, prio := 0, vlan := 0, udp := 0, lmac := 0, tout := 1, lip := 0 }
/-- See hdr. -/
def tab (n : Nat) : RingTab := ⟨hdr n, (List.range n).map ent ++ [ent 0, ent 0]⟩

/-- A step over 600 gradients in shared memory, held as FP32, with replicas beside them; all of it goes through port 0. -/
def step1 (f : PStep → PStep) (n : Nat) : Step :=
  { d := { StepD.read (zeros 64) with step := 1 }
    o := { OptR.read (zeros 192) with gfmt := 8, cfmt := 0, opt := 1, ostate := [stackBytes, 0, 0, 0], work := [0, 0, 0, 0],
                                      cbuf := [0, 0, 0, 0] }
    segs := [⟨0, 600, 0x10000, 0x20000, 0x30000⟩], len := 600, k := ⟨0, 0, 0, 0, 0⟩
    ports := [(0, f (PStep.start (hdr n) (0, 3)))], lane := LaneS.start 1 0, norm := false, q := none, skipped := false,
    rejected := false, bar := 0 }

/-- Membership 0 with that table on port 0. -/
def memb1 (n : Nat) : Memb := { Memb.reset with key := some [], tabs := [some (tab n), none, none, none], tvalid := [true, false, false, false] }

/-- A module of a ring of `n` whose membership 0 is `m`. -/
def inRing (m : Memb) : State := { on with membs := [(0, m)] }

/-- The step of that membership under way. -/
def stepping (n : Nat) (f : PStep → PStep) : State := inRing { memb1 n with step := some (step1 f n), cur := 1 }

/-- The header of a frame of step 1 that position `pos` of level 1 sends. -/
def frameHd (n pos type : Nat) (last : Bool) (lseq arg0 count arg1 : Nat) : List Byte :=
  ringHeader { hdr n with pos1 := pos } 0 type last 1 0 0 1 lseq arg0 count arg1

/-- That frame. -/
def frame (hd body : List Byte) : Dgram := ⟨0, 0, 0, 0, 0, sealed hd body⟩

theorem got_of {s : State} {ty n : Nat} {hd body : List Byte} (hk : (s.memb 0).key = some []) (hl : hd.length = 48)
    (h1 : s.runs = true ∧ s.portUp 4 = true ∧ s.ringMatch 0 (frame hd body) = some 0 ∧ (s.memb 0).tab 0 = some (tab n))
    (h2 : (RingF.read hd).type = ty ∧ (RingF.read hd).ver = 1 ∧ (RingF.read hd).enc = false ∧
      (RingF.read hd).port = 0 ∧ 1 ≤ (RingF.read hd).lvl ∧ (RingF.read hd).lvl ≤ 3) : s.ringGot 0 (frame hd body) ty 0 (tab n) body := by
  have hr : RingF.read (frame hd body).data = RingF.read hd := by
    show RingF.read (sealed hd body) = _
    unfold sealed
    rw [List.append_assoc, read_left hd _ hl]
  refine ⟨h1.1, by decide, h1.2.1, h1.2.2.1, h1.2.2.2, ringOpen_sealed hk rfl hl, ?_⟩
  simp only [hr]
  exact h2

theorem read_frame (hd body : List Byte) (hl : hd.length = 48) : RingF.read (frame hd body).data = RingF.read hd := by
  show RingF.read (sealed hd body) = _
  unfold sealed
  rw [List.append_assoc, read_left hd _ hl]

/-- One value and its group word, as a body. -/
def oneValue (v g : Nat) : List Byte := natLe 4 v ++ natLe 4 g

/-- A RED frame of one entry of sub-piece `j` from the last of three members. -/
def redHd (j : Nat) : List Byte := frameHd 3 2 1 false 0 (256 * j) 1 0

/-- What PartialSumFramesAdd asks, of that frame with the value 0 and the group word `g`, what the check of its group finds, and whether
the stacks have room: stack 0 is `k`. -/
def redMet (k : Stack) (room : Bool) (j g : Nat) (bad : Option Nat) : Prop :=
  let s := { stepping 3 id with stks := [(0, k)] }
  let q := PStep.start (hdr 3) (0, 3)
  let f := RingF.read (redHd j)
  let own := s.ownValues 0 (step1 id 3) q f.lvl f.arg0 f.count
  let out := ((words32 (oneValue 0 g) 1).zip own.2.1).map fun y => fadd y.1 y.2
  let v := own.1.accepted 0 0 1 1 f.lvl f.step f.last ((tab 3).ent f.lvl 2)
  let r := match bad with
    | some e => own.1.stepFail 0 Code.linkAddMismatch 0 f.lvl ((hdr 3).pos f.lvl) e
    | none =>
      if j = (hdr 3).pos f.lvl then v.sumDone 0 0 f.lvl f.arg0 out
      else ((v.streamSend 0 0 1 f.lvl 0 1 f.last f.arg0 f.count (valueBody out)).modPStep 0 0 fun q =>
        { q with got := SMap.set 0 q.got (64 * f.lvl + j) (0 + f.count) }).stepNext 0
  s.ringGot 0 (frame (redHd j) (oneValue 0 g)) 1 0 (tab 3) (oneValue 0 g) ∧ s.ringNext 0 f 0 1 (step1 id 3) q ∧
  1 ≤ f.count ∧ f.count ≤ maxCount (hdr 3) ∧ (oneValue 0 g).length = 4 * f.count + 4 * cdiv f.count 64 ∧ f.lvl ≤ (hdr 3).levels ∧
  (hdr 3).standby = false ∧ 1 < (hdr 3).n f.lvl ∧ f.arg1 = 0 ∧ memberFrame (hdr 3) f f.lvl (((hdr 3).pos f.lvl + (hdr 3).n f.lvl - 1) % (hdr 3).n f.lvl) = true ∧
  subOf (step1 id 3) q (hdr 3) f.lvl f.arg0 = some (j, 256 * j, 256) ∧ j ≠ 2 ∧
  f.arg0 = 256 * j + (if j = (hdr 3).pos f.lvl then nth 0 q.sums (f.lvl - 1) else q.got.get 0 (64 * f.lvl + j)) ∧
  (f.last = true ↔ 0 + f.count = 256) ∧ f.lvl = 1 ∧ s.retainRoom 0 ((oneValue 0 g).length + 64) = true ∧ own.2.2 = true ∧
  firstBad (((chunks 64 (words32 (oneValue 0 g) 1)).zip ((chunks 64 own.2.1).zip ((chunks 64 out).zip (words32 ((oneValue 0 g).drop 4) 1)))).map fun y =>
    groupOk y.1 y.2.1 y.2.2.1 y.2.2.2) f.arg0 = bad ∧
  s.roomFor (.link 0) r = room

/-- A stack for which another port waits. -/
def waited : Stack := { Stack.reset with line := [(.link 1, 0)] }

theorem meets_PartialSumFramesAdd_1 : redMet Stack.reset true 0 0 none :=
  ⟨got_of rfl (by decide +kernel) (by decide +kernel) (by decide +kernel), by unfold State.ringNext; decide +kernel⟩
theorem meets_PartialSumFramesAdd_2 : redMet Stack.reset true 1 0 none :=
  ⟨got_of rfl (by decide +kernel) (by decide +kernel) (by decide +kernel), by unfold State.ringNext; decide +kernel⟩
theorem meets_PartialSumFramesAdd_3 : redMet Stack.reset true 1 0x3F800000 (some 256) :=
  ⟨got_of rfl (by decide +kernel) (by decide +kernel) (by decide +kernel), by unfold State.ringNext; decide +kernel⟩
theorem meets_PartialSumFramesAdd_4 : redMet waited false 0 0 none :=
  ⟨got_of rfl (by decide +kernel) (by decide +kernel) (by decide +kernel), by unfold State.ringNext; decide +kernel⟩

/-- A frame of the broadcast for sub-piece `j` of three: BCC (corrections of its one block) or BCF (its first value). -/
def bcHd (full : Bool) (j : Nat) : List Byte :=
  if full then frameHd 3 2 3 false 0 (256 * j) 1 0 else frameHd 3 2 2 true 0 j 1 0
/-- See bcHd. -/
def bcBody (full : Bool) : List Byte := if full then oneValue 0 0 else zeros 36

/-- What BroadcastFramesReconstruct asks of that frame; sub-piece `j` has `total` entries. -/
def bcMet (full : Bool) (j total : Nat) : Prop :=
  let s := stepping 3 id
  let t := step1 id 3
  let q := PStep.start (hdr 3) (0, 3)
  let f := RingF.read (bcHd full j)
  let body := bcBody full
  let first := if full then f.arg0 else 256 * f.arg0
  let n := if full then f.count else min (256 * f.count) total
  let vs := if full then words32 body n else (List.range f.count).flatMap fun i => corrValues (slice body (36 * i) 36) (min 256 (n - 256 * i))
  s.ringGot 0 (frame (bcHd full j) body) (if full then 3 else 2) 0 (tab 3) body ∧ s.ringNext 0 f 0 2 t q ∧ (hdr 3).standby = false ∧
  f.lvl ≤ (hdr 3).levels ∧ 1 < (hdr 3).n f.lvl ∧ f.arg1 = 0 ∧ memberFrame (hdr 3) f f.lvl 2 = true ∧
  subOf t q (hdr 3) f.lvl first = some (j, first, total) ∧ j ≠ (hdr 3).pos f.lvl ∧ q.bgot.get 0 (64 * f.lvl + j) = 0 ∧ 1 ≤ f.count ∧
  (if full then f.count ≤ maxCount (hdr 3) else f.count ≤ 252) ∧ body.length = (if full then 4 * f.count + 4 * cdiv f.count 64 else 36 * f.count) ∧
  0 < n ∧ 0 + n ≤ total ∧ (f.last = true ↔ 0 + n = total) ∧ (full = true ∨ (n = 256 * f.count ∨ 0 + n = total) ∧ f.count ≤ cdiv n 256) ∧
  s.retainRoom 0 ((body.length + 64) * (1 + (hdr 3).nspare)) = true ∧
  (full = true → firstBad (((groupWords vs).zip (words32 (body.drop (4 * n)) (cdiv n 64))).map fun y => y.1 == y.2) first = none) ∧
  (let w := s.reconstruct t first n (fun r i => if full then nth 0#32 vs i else fadd r (nth 0#32 vs i))
   let v := w.1.accepted 0 0 2 f.type f.lvl f.step f.last ((tab 3).ent f.lvl 2)
   w.2 = true ∧ s.roomFor (.link 0) (((v.modPStep 0 0 fun q =>
     { q with bgot := SMap.set 0 q.bgot (64 * f.lvl + j) (0 + n), recon := q.recon + n, writes := q.writes + 1 }).spreadSend 0 0 f.lvl f.type
       (j != ((hdr 3).pos f.lvl + 1) % (hdr 3).n f.lvl) f.last f.arg0 f.count (if full then valueBody vs else body)).stepNext 0) = true)

theorem meets_BroadcastFramesReconstruct_1 : bcMet false 2 88 :=
  ⟨got_of rfl (by decide +kernel) (by decide +kernel) (by decide +kernel), by unfold State.ringNext; decide +kernel⟩
theorem meets_BroadcastFramesReconstruct_2 : bcMet true 1 256 :=
  ⟨got_of rfl (by decide +kernel) (by decide +kernel) (by decide +kernel), by unfold State.ringNext; decide +kernel⟩

/-- An ACK of the successor's: READY 1 or 0, to frames of the reduce phase. -/
def ackHd (ready : Bool) : List Byte := frameHd 3 1 4 false 0 1 0 (if ready then 257 else 1)

theorem meets_RingAnswersAndResends_1 :
    let s := stepping 3 id
    let f := RingF.read (ackHd true)
    s.ringGot 0 (frame (ackHd true) []) 4 0 (tab 3) [] ∧ s.ringGot 0 (frame (ackHd false) []) 4 0 (tab 3) [] ∧
    f.count = 0 ∧ f.arg1 < 2 ^ 9 ∧ f.arg1 % 256 = 1 ∧ (s.memb 0).step = some (step1 id 3) ∧
    (step1 id 3).port 0 = some (PStep.start (hdr 3) (0, 3)) ∧ (step1 id 3).d.step = f.step ∧ f.standby = false ∧
    memberFrame (hdr 3) f f.lvl (((hdr 3).pos f.lvl + 1) % (hdr 3).n f.lvl) = true ∧ 256 ≤ f.arg1 ∧ (RingF.read (ackHd false)).arg1 < 256 :=
  ⟨got_of rfl (by decide +kernel) (by decide +kernel) (by decide +kernel), got_of rfl (by decide +kernel) (by decide +kernel) (by decide +kernel),
    by decide +kernel⟩

/-- A NORM or BAR frame of position 2. -/
def laneHd (type : Nat) : List Byte := frameHd 3 2 type false 0 0 0 0

theorem meets_RingAnswersAndResends_2 :
    let s := stepping 3 id
    let f := RingF.read (laneHd 5)
    s.ringGot 0 (frame (laneHd 5) []) 5 0 (tab 3) [] ∧ f.count = 0 ∧ f.posAt f.lvl = 2 ∧ memberFrame (hdr 3) f f.lvl 2 = true ∧ 2 < (hdr 3).n f.lvl ∧
    (s.memb 0).step = some (step1 id 3) ∧ (s.memb 0).cur = f.step ∧ (s.memb 0).dead.contains f.step = false ∧ (hdr 3).standby = false :=
  ⟨got_of rfl (by decide +kernel) (by decide +kernel) (by decide +kernel), by decide +kernel⟩

/-- Barrier 1 of membership 0 under way, for the partition or for a step; `u` not acknowledged. -/
def barring (chip : Bool) (u : List (Nat × Nat × List Byte)) : State :=
  inRing { memb1 3 with bar := some ⟨1, { LaneS.start 1 0 with unacked := u }, chip, false⟩ }

theorem meets_RingAnswersAndResends_3 :
    let s := barring true []
    let f := RingF.read (laneHd 6)
    s.ringGot 0 (frame (laneHd 6) []) 6 0 (tab 3) [] ∧ f.count = 0 ∧ f.arg0 = 0 ∧ memberFrame (hdr 3) f f.lvl 2 = true ∧
    2 < (hdr 3).n f.lvl ∧ (hdr 3).standby = false ∧
    (s.memb 0).bar = some ⟨1, LaneS.start 1 0, true, false⟩ ∧ 1 = f.step ∧ (s.memb 0).barDead.contains f.step = false :=
  ⟨got_of rfl (by decide +kernel) (by decide +kernel) (by decide +kernel), by decide +kernel⟩

theorem meets_RingAnswersAndResends_4 :
    on.runs = true ∧ on.portUp (4 + 3) = true ∧ on.ringMatch 3 (dg 0) = none ∧ (on.port 0).cur = none := by decide +kernel

/-- Stream 1 of level 1 to the successor, with one frame kept. -/
def kept1 (resends : Nat) (h : Bool) : RTx := ⟨1, 1, 0, 1, [⟨0, zeros 48⟩], resends, h⟩

theorem meets_RingAnswersAndResends_5 :
    let s := fun (x : RTx) => stepping 3 fun q => { q with tx := [x] }
    let find := fun (x : RTx) => ([x] : List RTx).find? fun x => x.phase == 1 && x.lvl == 1 && x.peer == 0
    (s (kept1 7 false)).runs = true ∧ ((s (kept1 7 false)).memb 0).step = some (step1 (fun q => { q with tx := [kept1 7 false] }) 3) ∧
    ((s (kept1 7 false)).memb 0).tab 0 = some (tab 3) ∧
    (step1 (fun q => { q with tx := [kept1 7 false] }) 3).port 0 = some { PStep.start (hdr 3) (0, 3) with tx := [kept1 7 false] } ∧
    find (kept1 7 false) = some (kept1 7 false) ∧ find (kept1 8 true) = some (kept1 8 true) ∧ find (kept1 8 false) = some (kept1 8 false) ∧
    (kept1 7 false).kept ≠ [] := by decide +kernel

theorem meets_RingAnswersAndResends_6 :
    let s := inRing { memb1 3 with step := some { step1 id 3 with lane := { LaneS.start 1 0 with unacked := [(1, 2, zeros 48)] } }, cur := 1 }
    s.runs = true ∧ s.laneTab 0 = some (0, tab 3) ∧
    ((s.memb 0).step.map fun t => t.lane.unacked) = some ((1, 2, zeros 48) :: []) ∧
    (((barring true [(1, 2, zeros 48)]).memb 0).bar.map fun x => x.lane.unacked) = some ((1, 2, zeros 48) :: []) ∧
    (barring true [(1, 2, zeros 48)]).laneTab 0 = some (0, tab 3) := by decide +kernel

/-- The bytes of a ring table of one member, loaded from the last place of shared memory that the partition sees. -/
def tabBytes : List Byte :=
  [1, 0, 1, 0, 0, 0, 0, 0, 1, 1, 1, 1, 0, 0, 0, 0, 0, 8, 0, 0] ++ zeros 10 ++ [1, 0] ++ zeros 32 ++
    (List.range 3).flatMap fun _ => zeros 6 ++ [1] ++ zeros 25

theorem meets_RingTablesKeysAndSteps_1 :
    let s := { inRing { Memb.reset with key := some [], fresh := [true, true, true, true] } with mem := Memory.write [] (sharedBase 0) tabBytes }
    let hb := s.viewRead 0 (sharedBase 0) 64
    let h := RingHdr.read hb
    let es := (List.range h.count).map fun i => s.viewRead 0 (sharedBase 0 + 64 + 32 * i) 32
    s.servedBy o0 0 ∧ s.ctxOf 0 0 = some 0 ∧ (s.memb 0).busy = false ∧ sharedBase 0 % 64 = 0 ∧ sharedBase 0 < 2 ^ 48 ∧
    s.sharedIn 0 (sharedBase 0) 64 = true ∧ s.sharedIn 0 (sharedBase 0) (64 + 32 * h.count) = true ∧ ringTableOk 3 hb h es = true ∧ s.dmg = [] ∧
    (s.memb 0).key ≠ none ∧ nth false (s.memb 0).fresh 3 = true ∧ s.holdsMemb 0 = false :=
  ⟨servedBy_of (by decide +kernel), by decide +kernel⟩

theorem meets_RingTablesKeysAndSteps_2 :
    let s := stepping 3 id
    let v := inRing (memb1 3)
    v.servedBy o0 0 ∧ v.ctxOf 0 (StepD.read (zeros 64)).ring = some 0 ∧ v.holdsMemb 0 = false ∧ (v.memb 0).step = none ∧ (v.memb 0).pend = none ∧
    (s.memb 0).step ≠ none ∧ s.servedBy o0 0 :=
  ⟨servedBy_of (by decide +kernel), by decide +kernel, by decide +kernel, by decide +kernel, by decide +kernel, by decide +kernel,
    servedBy_of (by decide +kernel)⟩

/-- A descriptor at the step input of port 3, for membership 0. -/
def stepInput : State :=
  { stepping 3 id with
    mesh := { Mesh.reset with routers := [(portBCore .gx9_3072 3, { Router.reset with arrE := [flit ⟨0, 3, 0, false⟩ (.entry (zeros 64))] })] } }

theorem meets_RingTablesKeysAndSteps_3 :
    let s := stepInput
    s.runs = true ∧ firstOf 0 (fun f => f.dst.tgt == 3 && (match s.ctxOf f.part (StepD.read f.entry).ring with
      | some c => (s.memb c).pend.isNone
      | none => true)) s.now (s.router (portBCore s.grade 3)).arrE = some (0, flit ⟨0, 3, 0, false⟩ (.entry (zeros 64))) ∧
    s.ctxOf 0 (StepD.read (zeros 64)).ring = some 0 ∧ (s.memb 0).step ≠ none ∧ s.memb 1 = Memb.reset ∧ Memb.reset.pend = none := by decide +kernel

/-- A step over one segment of 32 gradients in stack 0; its optimizer record is at 0x1000. -/
def stepBytes : List Byte := padTo 64 ([1, 0, 0, 0] ++ natLe 4 1 ++ zeros 8 ++ natLe 8 0x1000)
/-- See stepBytes. -/
def optBytes1 : List Byte :=
  padTo 192 ([1, 0, 8, 0] ++ zeros 20 ++ natLe 4 1 ++ zeros 4 ++ natLe 8 0x10000 ++ zeros 24 ++ natLe 8 0x20000 ++ zeros 24 ++ natLe 8 0x2000 ++ natLe 8 0x30000)
/-- See stepBytes. -/
def segBytes : List Byte := natLe 4 32 ++ zeros 4 ++ natLe 8 0x40000 ++ natLe 8 0x50000 ++ zeros 8

/-- Its descriptor, or another, pends. -/
def pendingStep (d : List Byte) : State :=
  { inRing { memb1 3 with pend := some d } with mem := Memory.write (Memory.write [] 0x1000 optBytes1) 0x2000 segBytes }

theorem meets_RingTablesKeysAndSteps_4 :
    let s := pendingStep stepBytes
    let u := s.modMemb 0 fun m => { m with pend := none }
    s.runs = true ∧ (s.router (portBCore s.grade 3)).arrE = [] ∧ (s.memb 0).pend = some stepBytes ∧ (s.memb 0).step = none ∧
    s.ctxHolder 0 = some (0, 0) ∧ (u.stepCheck 0 0 stepBytes).2.1 = Code.ok ∧ (u.stepCheck 0 0 stepBytes).2.2.isSome = true ∧
    (u.stepCheck 0 0 (zeros 64)).2.2 = none ∧ s.memb 1 = Memb.reset := by decide +kernel

theorem meets_RingTablesKeysAndSteps_5 :
    let r := fun (s : State) (d : List Byte) =>
      let y := (s.modMemb 0 fun m => { m with pend := none }).stepCheck 0 0 d
      match y.2.2 with
      | some t => y.1.modMemb 0 fun m =>
        { m with step := some t, cur := (StepD.read d).step, failed := false, dead := m.dead.filter (· != (StepD.read d).step) }
      | none => (y.1.modMemb 0 fun m => { m with code := y.2.1 }).stepRecord 0 y.2.1 (StepD.read d).tag (StepD.read d).step 0xFF 0xFF 0xFF 0
    let s := pendingStep stepBytes
    let v := { s with stks := [(0, waited)] }
    s.roomFor (.link 3) (r s stepBytes) = true ∧ v.roomFor (.link 3) (r v stepBytes) = false ∧
    (pendingStep (zeros 64)).roomFor (.link 3) (r (pendingStep (zeros 64)) (zeros 64)) = true := by decide +kernel

theorem meets_BarriersStepsEnd_1 :
    let s := { inRing (memb1 3) with
      parts := [(0, { Part.reset with grant := GrantR.all .gx9_3072, barrier := { Barrier.reset with en := true, arrive := 255, due := true },
                                      cflags := [(255, { FlagR.reset with val := true })] })] }
    s.runs = true ∧ s.ctxOf 0 (s.part 0).barrier.ring = some 0 ∧ (s.part 0).barrier.en = true ∧ (s.part 0).barrier.due = true ∧ (s.part 0).barrier.busy = false ∧
    ((s.part 0).cflag (s.part 0).barrier.arrive).read s.now = true ∧ s.laneTab 0 = some (0, tab 3) ∧ (tab 3).h.standby = false := by decide +kernel

theorem meets_BarriersStepsEnd_2 :
    (barring true []).runs = true ∧ ((barring true []).memb 0).bar = some ⟨1, LaneS.start 1 0, true, false⟩ ∧ (barring true []).laneTab 0 = some (0, tab 3) ∧
    ((barring false []).memb 0).bar = some ⟨1, LaneS.start 1 0, false, false⟩ ∧ (barring false []).laneTab 0 = some (0, tab 3) ∧
    ((stepping 3 id).memb 0).step = some (step1 id 3) ∧ (step1 id 3).spread = false := by decide +kernel

/-- A step that has reconstructed everything, skipped or not; with its shards sent in full width or not updated. -/
def ended (skip : Bool) (full : Option Bool) : Step :=
  { step1 (fun q => { q with recon := 600, full := full }) 3 with q := some 0#32, skipped := skip }

theorem meets_BarriersStepsEnd_3 :
    let s := fun (t : Step) => inRing { memb1 3 with step := some t, cur := 1 }
    (s (ended true none)).stepComplete 0 = true ∧ (s (ended false none)).stepComplete 0 = true ∧ (s (ended false (some true))).stepComplete 0 = true ∧
    (s (ended true none)).ctxHolder 0 = some (0, 0) ∧ (ended true none).skipped = true ∧ (∀ x ∈ (ended false none).ports, x.2.full = none) ∧
    (∀ x ∈ (ended false (some true)).ports, x.2.full ≠ none) ∧ (s (ended true none)).runs = true := by decide +kernel

theorem meets_BarriersStepsEnd_4 :
    (stepping 3 id).servedBy o0 0 ∧ (stepping 3 id).ctxOf 0 0 = some 0 ∧ ((stepping 3 id).memb 0).step = some (step1 id 3) ∧
    (stepping 3 id).stepComplete 0 = false ∧ on.servedBy o0 0 ∧ on.ctxOf 0 7 = some 7 ∧ (on.memb 7).step = none :=
  ⟨servedBy_of (by decide +kernel), by decide +kernel, by decide +kernel, by decide +kernel, served_o0, by decide +kernel⟩

theorem meets_BarriersStepsEnd_5 :
    let b := inRing { memb1 3 with bar := some ⟨1, LaneS.start 1 0, true, true⟩ }
    let s := fun (t : Step) => inRing { memb1 3 with step := some t, cur := 1 }
    (b.memb 0).bar = some ⟨1, LaneS.start 1 0, true, true⟩ ∧ b.laneTab 0 = some (0, tab 3) ∧ (step1 id 3).spread = false ∧
    (ended false none).spread = true ∧ (ended false none).lane.unacked = [] ∧ ((s (ended false none)).memb 0).step = some (ended false none) := by
  decide +kernel

theorem meets_BarriersStepsEnd_6 :
    let t := ended false (some true)
    let s := fun (k : Stack) => { inRing { memb1 3 with step := some t, cur := 1 } with stks := [(1, k)] }
    let w := fun k => t.ports.foldl (fun (acc : State × Option Nat) x =>
      if x.2.full.isNone ∨ acc.2.isSome then acc
      else
        let y := acc.1.reqWrite (nth 0 t.o.ostate x.1 + 2) [1]
        let z := if y.2 then y.1.reqWrite (nth 0 t.o.ostate x.1 + 36) (natLe 4 t.d.step) else y
        (z.1, if z.2 then none else some x.1)) (s k, none)
    let r := fun k => ((w k).1.modMemb 0 fun x => { x with step := none, code := Code.ok, lastOk := t.d.step }).stepRecord 0 Code.ok t.d.tag t.d.step 0xFF 0xFF 0xFF 0
    (w Stack.reset).2 = none ∧ (w waited).2 = none ∧ t.d.dfen = false ∧ (s waited).stepComplete 0 = true ∧
    (s Stack.reset).roomFor (.link ((s Stack.reset).lanePort 0)) (r Stack.reset) = true ∧
    (s waited).roomFor (.link ((s waited).lanePort 0)) (r waited) = false := by decide +kernel

/-- A step of one entry whose shard is to be sent in full width or not. -/
def updating (full : Bool) : Step :=
  let t := step1 (fun q => { q with full := some full, part := (0, 1), own := ownPieces (hdr 1) (0, 1) }) 1
  { t with segs := [⟨0, 1, 0x10000, 0x20000, 0x30000⟩], len := 1, q := some 0#32 }

/-- The owner record of its entry, as read and as updated: zero, with u zero. -/
def zeroUpd : List (OwnerR × OwnerR × W32) := [(⟨0, 0, 0, 0⟩, ⟨0, 0, 0, 0⟩, 0)]

/-- What the first clause of UpdatesAndRequesterSends asks, of that step, and whether stack 0, which is `k`, has room for it; `zeroUpd`
stands for the records and [0] for the changes. -/
def updMet (k : Stack) (room full : Bool) : Prop :=
  let t := updating full
  let s := { inRing { memb1 1 with step := some t, cur := 1 } with stks := [(0, k)] }
  let q := { PStep.start (hdr 1) (0, 1) with full := some full }
  let sh := q.piece (hdr 1).levels
  let e := t.ents (sh.1 + q.upd, 1)
  let at_ := nth 0 t.o.ostate 0 + 64 + 16 * (e.1 - (t.ents sh).1)
  let s1 := s.reqRead at_ (16 * e.2)
  let s2 := s1.1.ownValues 0 t q 2 e.1 e.2
  let rs := (List.range e.2).map fun i =>
    let r := OwnerR.read (slice s1.2.1 (16 * i) 16)
    (r, optimize t.o t.k t.d.lr r (fmul (nth 0#32 s2.2.1 i) t.d.gscale))
  let us := rs.map fun x => fadd (fsub x.2.1.w x.1.w) x.1.e
  let cr := corrections us
  let es := if full then us.map fun _ => 0#32 else cr.2.2
  let s3 := s2.1.reqWrite at_ ((rs.zip es).flatMap fun x => OwnerR.bytes { x.1.2.1 with e := x.2 })
  let ws := rs.map fun x => x.2.1.w
  let s4 := if full then s3.1.workWrite 0 t q e.1 ws else s3.1.reqWrite (nth 0 t.o.cbuf 0 + 36 * (e.1 / 256 - (q.piece 1).1)) (corrBytes cr.1 cr.2.1)
  let u := s4.1.reconstruct t e.1 e.2 fun r i => if full then nth 0#32 ws i else fadd r (nth 0#32 (corrValues (corrBytes cr.1 cr.2.1) e.2) i)
  let r := (u.1.modPStep 0 0 fun q => { q with upd := q.upd + 1, recon := q.recon + e.2, writes := q.writes + 1 }.hold e.1 e.2 full).stepNext 0
  (s.memb 0).step = some t ∧ (s.memb 0).tab 0 = some (tab 1) ∧ t.port 0 = some q ∧ t.q = some 0#32 ∧ t.skipped = false ∧ q.upd < sh.2 ∧
  q.full = some full ∧ s1.2.2 = true ∧ s2.2.2 = true ∧ flt 0#32 t.o.clip = false ∧ rs = zeroUpd ∧
  (∀ x ∈ zeroUpd, isFinite x.2.1.w = true ∧ isFinite x.2.1.m = true ∧ isFinite x.2.1.v = true ∧ isFinite x.2.2 = true) ∧
  zeroUpd.map (fun x => fadd (fsub x.2.1.w x.1.w) x.1.e) = [0#32] ∧
  (full = true ∨ [0#32].all isFinite = true ∧ isFinite (corrections [0#32]).1 = true) ∧
  s3.2 = true ∧ s4.2 = true ∧ u.2 = true ∧ s.roomFor (.link 0) r = room

theorem meets_UpdatesAndRequesterSends_1 : updMet Stack.reset true true := by unfold updMet; decide +kernel
theorem meets_UpdatesAndRequesterSends_2 : updMet Stack.reset true false := by unfold updMet; decide +kernel
theorem meets_UpdatesAndRequesterSends_4 : updMet waited false true := by unfold updMet; decide +kernel

/-- A write that completes the Reduce phase lets the norm be read, where the stack has room. -/
theorem meets_UpdatesAndRequesterSends_5 :
    let t := { updating true with q := none, ports := [(0, { PStep.start (hdr 1) (0, 1) with sums := [1, 0, 0] })] }
    let s := fun (k : Stack) => { inRing { memb1 1 with step := some t, cur := 1 } with stks := [(0, k)] }
    let r := fun k => ((s k).modPStep 0 0 fun q => { q with writes := q.writes - 1 }).stepNext 0
    (s waited).runs = true ∧ (s Stack.reset).roomFor (.link 0) (r Stack.reset) = true ∧ (s waited).roomFor (.link 0) (r waited) = false := by decide +kernel

/-- The next values of a chain are read, where the stack has room. -/
theorem meets_UpdatesAndRequesterSends_6 :
    let q := PStep.start (hdr 3) (0, 3)
    let s := fun (k : Stack) => { stepping 3 id with stks := [(0, k)] }
    let ch := (step1 id 3).ents (q.chain (hdr 3) 1)
    let done := nth 0 q.sent 0
    let n := min (maxCount (hdr 3)) (ch.2 - done)
    let v := fun k => (s k).ownValues 0 (step1 id 3) q 1 (ch.1 + done) n
    let r := fun k => (((v k).1.streamSend 0 0 1 1 0 1 (decide (done + n = ch.2)) (ch.1 + done) n (valueBody (v k).2.1)).modPStep 0 0 fun q =>
      { q with sent := addAt q.sent 0 n }).stepNext 0
    (s Stack.reset).roomFor (.link 0) (r Stack.reset) = true ∧ (s waited).roomFor (.link 0) (r waited) = false := by decide +kernel

theorem meets_UpdatesAndRequesterSends_3 :
    let s := stepping 3 id
    let q := PStep.start (hdr 3) (0, 3)
    let ch := (step1 id 3).ents (q.chain (hdr 3) 1)
    let n := min (maxCount (hdr 3)) (ch.2 - nth 0 q.sent 0)
    s.runs = true ∧ (s.memb 0).step = some (step1 id 3) ∧ (s.memb 0).tab 0 = some (tab 3) ∧ (step1 id 3).port 0 = some q ∧ 1 ≤ (hdr 3).levels ∧
    (hdr 3).n 1 ≠ 1 ∧ n ≠ 0 ∧ s.retainRoom 0 (4 * n + 4 * cdiv n 64 + 64) = true ∧
    (s.ownValues 0 (step1 id 3) q 1 (ch.1 + nth 0 q.sent 0) n).2.2 = true := by decide +kernel

/-! ### Network A -/

/-- A module whose ports have address 1 and Ranow port 50310; session 1 of partition 0 is `x`. -/
def net (x : Sess) : State :=
  { on with ports := List.replicate 8 { Port.reset with enabled := true, link := true, cfg := ⟨1, 0, 1, 0, 50310⟩ }, sess := [x, sess 2 1] }

/-- A datagram from a host to such a port. -/
def msg (data : List Byte) : Dgram := ⟨9, 2, 1, 50310, 4000, data⟩

theorem length_ranowHeader (ty n sid seq : Nat) : (ranowHeader ty n sid seq).length = 24 := by
  simp [ranowHeader, length_natLe]

theorem readR_left (a b : List Byte) (h : a.length = 24) : RHdr.read (a ++ b) = RHdr.read a := by
  simp only [RHdr.read, fld_left a b 0 2 (by omega), fld_left a b 2 1 (by omega), fld_left a b 3 1 (by omega), fld_left a b 4 2 (by omega),
    fld_left a b 8 8 (by omega), fld_left a b 16 8 (by omega)]

/-- A protected message with payload `b` under the keys of no bytes, whose tag is off by `e`. -/
def protected_ (ty sid seq : Nat) (b : List Byte) (e : BitVec 128) : List Byte :=
  let hd := ranowHeader ty b.length sid seq
  let c := xorBytes b (Config.gcmStream [] (natLe 8 seq) b.length)
  hd ++ c ++ natLe 16 (Config.gcmTag [] (natLe 8 seq) hd c + e).toNat

theorem protected_parts (ty sid seq : Nat) (b : List Byte) (e : BitVec 128) :
    let d := protected_ ty sid seq b e
    let c := xorBytes b (Config.gcmStream [] (natLe 8 seq) b.length)
    RHdr.read d = RHdr.read (ranowHeader ty b.length sid seq) ∧ slice d 24 b.length = c ∧ d.take 24 = ranowHeader ty b.length sid seq ∧
    d.length = 24 + b.length + 16 ∧
    fld d (24 + b.length) 16 = (Config.gcmTag [] (natLe 8 seq) (ranowHeader ty b.length sid seq) c + e).toNat := by
  intro d c
  have hl := length_ranowHeader ty b.length sid seq
  have hc : c.length = b.length := length_xorBytes _ _
  refine ⟨?_, ?_, ?_, ?_, ?_⟩
  · show RHdr.read (_ ++ c ++ _) = _
    rw [List.append_assoc, readR_left _ _ hl]
  · show slice (_ ++ c ++ _) 24 b.length = _
    rw [slice_left _ _ _ _ (by simp [hl, hc])]
    have := slice_right (ranowHeader ty b.length sid seq) c b.length hc.symm
    rwa [hl] at this
  · show (_ ++ c ++ _).take 24 = _
    rw [List.append_assoc, ← hl, List.take_left]
  · show (_ ++ c ++ _).length = _
    simp [hl, hc, length_natLe]
    omega
  · show fld (ranowHeader ty b.length sid seq ++ c ++ _) _ 16 = _
    have h : 24 + b.length = (ranowHeader ty b.length sid seq ++ c).length := by simp [hl, hc]
    rw [h]
    unfold fld
    rw [slice_right _ _ 16 (length_natLe 16 _).symm, leNat_natLe, Nat.mod_eq_of_lt]
    have := (Config.gcmTag [] (natLe 8 seq) (ranowHeader ty b.length sid seq) c + e).isLt
    omega

theorem protected_of {s : State} {i ty sid seq : Nat} {x : Sess} {b : List Byte}
    (h : s.runs = true ∧ i < 4 ∧ s.arrives i (msg (protected_ ty sid seq b 0)) ty = true)
    (hr : RHdr.read (ranowHeader ty b.length sid seq) = ⟨0x4E52, 1, ty, b.length, sid, seq⟩)
    (hs : s.session sid = some x) (hx : x.kin = [] ∧ x.sin = [] ∧ x.port = i) :
    s.protectedFrom i (msg (protected_ ty sid seq b 0)) ty x b := by
  obtain ⟨p1, p2, p3, p4, p5⟩ := protected_parts ty sid seq b 0
  rw [hr] at p1
  refine ⟨h.1, h.2.1, h.2.2, ?_⟩
  simp only [msg, p1, p2, p3, p4, p5, hx.1, hx.2.1, hx.2.2, hs, List.nil_append, xorBytes_twice]
  simp

theorem turn_of {x : Sess} {ty sid seq : Nat} {b : List Byte} (hr : (RHdr.read (ranowHeader ty b.length sid seq)).seq = seq)
    (h : seq = x.rxNext ∧ seq < 2 ^ 63 ∧ x.rxBuf = [] ∧ x.rxSince < 15) : x.turnOf (msg (protected_ ty sid seq b 0)) := by
  have p := (protected_parts ty sid seq b 0).1
  unfold Sess.turnOf
  simp only [msg, p, hr]
  exact h

/-- An INIT for partition 0, with rings of 4 KiB and messages of 1,232 bytes. -/
def initData : List Byte := ranowHeader 1 96 0 0 ++ [0, 1, 0, 0] ++ natLe 2 1232 ++ zeros 90

/-- The half-open session 5 that it leaves. -/
def half5 : HalfOpen := ⟨5, 0, 0, 1232, 9, 2, 4000, initData, zeros 298, []⟩

theorem meets_SessionsOpen_1 :
    let s := net (sess 1 0)
    let d := msg initData
    let b := d.data.drop 24
    let u := s.modPort 0 fun x => { x with inits := [] ++ [s.now] }
    s.runs = true ∧ s.arrives 0 d 1 = true ∧ RHdr.read d.data = ⟨0x4E52, 1, 1, 96, 0, 0⟩ ∧ b.length = 96 ∧
    (s.port 0).inits.filter (fun t => decide (s.now < t + s.clock * 1000000)) = [] ∧
    (u.port 0).half.find? (fun x => x.init == d.data) = none ∧ fld b 0 1 ≤ 1 ∧ 1 ≤ fld b 1 1 ∧ bits (fld b 3 1) 3 0 ≤ 4 ∧ bits (fld b 3 1) 7 4 ≤ 4 ∧
    1232 ≤ fld b 4 2 ∧ fld b 4 2 ≤ 9146 ∧ u.refusal 0 (fld b 2 1) = 0 ∧ (u.port 0).half.length < 16 ∧ s.sids.length + 1 < 2 ^ 64 ∧
    ((u.modPort 0 fun x => { x with half := [half5] }).port 0).half.find? (fun x => x.init == d.data) = some half5 := by decide +kernel

/-- That module before it serves. -/
def early : State := let s := net (sess 1 0); { s with pwr := { s.pwr with ready := false } }

theorem meets_SessionsOpen_4 :
    let s := early
    let d := msg initData
    let u := s.modPort 0 fun x => { x with inits := [] ++ [s.now] }
    s.runs = false ∧ s.arrives 0 d 1 = true ∧ s.defined.contains 0 = true ∧ nth 0 (s.part 0).grant.shares 0 ≠ 0 ∧
    (s.sess.filter fun x => x.part == 0).length < 16 ∧ s.sess.length < 64 ∧
    (u.port 0).half.find? (fun x => x.init == d.data) = none ∧ u.refusal 0 (fld (d.data.drop 24) 2 1) ≠ 0 := by decide +kernel

/-- A module with that half-open session, whose partition 0 has the host key of 57 zero bytes, or none. -/
def halfOpen (key : Bool) : State :=
  let s := { net (sess 1 0) with parts := [(0, { Part.reset with grant := GrantR.all .gx9_3072, keys := if key then [(3, zeros 57)] else [] })] }
  s.modPort 0 fun x => { x with half := [half5] }

/-- CONFIRM with that key, up to its signature. -/
def confirmHead : List Byte := ranowHeader 3 178 5 0 ++ zeros 64
/-- The CONFIRM, signed. -/
def confirmData : List Byte := confirmHead ++ padTo 114 (Config.ed448Sig (zeros 57) (ascii "RANOW-H") (half5.tm ++ half5.sigm ++ confirmHead))

theorem meets_SessionsOpen_2 :
    let s := halfOpen true
    let u := s.modPort 0 fun y => { y with half := y.half.filter fun z => z.sid != 5 }
    s.runs = true ∧ s.arrives 0 (msg confirmData) 3 = true ∧ RHdr.read confirmData = ⟨0x4E52, 1, 3, 178, 5, 0⟩ ∧
    (s.port 0).half.find? (fun x => x.sid == 5) = some half5 ∧ u.refusal 0 0 = 0 ∧ confirmData.length = 202 := by
  refine ⟨by decide +kernel, by decide +kernel, by decide +kernel, by decide +kernel, by decide +kernel, ?_⟩
  simp [confirmData, confirmHead, length_padTo, length_ranowHeader, zeros]

theorem meets_SessionsOpen_3 :
    ((halfOpen true).modPort 0 fun y => { y with half := y.half.filter fun z => z.sid != 5 }).confirmOk half5 confirmData = true ∧
    ((halfOpen false).modPort 0 fun y => { y with half := y.half.filter fun z => z.sid != 5 }).confirmOk half5 confirmData = false ∧
    ((halfOpen false).modPort 0 fun y => { y with half := y.half.filter fun z => z.sid != 5 }).refusal 0 0 = 0 := by
  have hl : confirmHead.length = 88 := by decide +kernel
  have h1 : slice confirmData 24 57 = zeros 57 := by
    unfold confirmData
    rw [slice_left _ _ _ _ (by omega)]
    decide +kernel
  have h2 : slice confirmData (24 + 64) 114 = padTo 114 (Config.ed448Sig (zeros 57) (ascii "RANOW-H") (half5.tm ++ half5.sigm ++ confirmHead)) := by
    unfold confirmData
    have := slice_right confirmHead (padTo 114 (Config.ed448Sig (zeros 57) (ascii "RANOW-H") (half5.tm ++ half5.sigm ++ confirmHead))) 114
      (length_padTo _ _).symm
    rwa [hl] at this
  have h3 : confirmData.take (24 + 64) = confirmHead := by
    unfold confirmData
    rw [show 24 + 64 = confirmHead.length from hl.symm, List.take_left]
  refine ⟨?_, ?_, by decide +kernel⟩
  · unfold State.confirmOk HalfOpen.th
    simp only [h1, h2, h3, beq_self_eq_true, Bool.true_and]
    decide +kernel
  · unfold State.confirmOk
    have : ((halfOpen false).modPort 0 fun y => { y with half := y.half.filter fun z => z.sid != 5 }).part half5.part = (halfOpen false).part 0 := by
      decide +kernel
    simp only [this]
    have k : ((halfOpen false).part 0).keys = [] := by decide +kernel
    simp [k]

theorem meets_PortsAnswerAndTimersRun_1 :
    (net (sess 1 0)).portUp 3 = true ∧ ((net (sess 1 0)).port 3).cfg.owns 1 = true ∧ ((net (sess 1 0)).port 3).cfg.owns 2 = false ∧
    ((net (sess 1 0)).port 7).enabled = true := by decide +kernel

/-- A message of session 1 that has been sent again `n` times. -/
def resent (n : Nat) : Sess := { sess 1 0 with unack := [⟨0, zeros 64, n⟩], txNext := 1, ackDue := true }

theorem meets_PortsAnswerAndTimersRun_2 :
    (net (resent 11)).runs = true ∧ (net (resent 11)).session 1 = some (resent 11) ∧ (resent 11).ackDue = true ∧
    (resent 11).unack.find? (fun m => m.seq == 0) = some ⟨0, zeros 64, 11⟩ ∧ (resent 12).unack.find? (fun m => m.seq == 0) = some ⟨0, zeros 64, 12⟩ ∧
    (net (resent 12)).session 1 = some (resent 12) ∧ (net (resent 12)).session 1 ≠ none := by decide +kernel

/-- The payload of an ACK that acknowledges nothing new. -/
def ackData : List Byte := zeros 48

theorem meets_SessionMessagesAct_1 :
    (net (sess 1 0)).protectedFrom 0 (msg (protected_ 0x10 1 (2 ^ 63) ackData 0)) 0x10 (sess 1 0) ackData ∧
    (net (sess 1 0)).protectedFrom 0 (msg (protected_ 0x11 1 (2 ^ 63) [] 0)) 0x11 (sess 1 0) [] ∧
    bit (RHdr.read (protected_ 0x10 1 (2 ^ 63) ackData 0)).seq 63 = true ∧ bit (RHdr.read (protected_ 0x11 1 (2 ^ 63) [] 0)).seq 63 = true ∧
    ackData.length = 48 ∧ (sess 1 0).ackOk (fld ackData 0 8) (fld ackData 40 4) = true :=
  ⟨protected_of (by decide +kernel) (by decide +kernel) rfl ⟨rfl, rfl, rfl⟩, protected_of (by decide +kernel) (by decide +kernel) rfl ⟨rfl, rfl, rfl⟩,
    by decide +kernel⟩

/-- An MBOX of 64 bytes, to the end of the ring; and one of one byte too many. -/
def mboxData (n : Nat) : List Byte := natLe 4 0 ++ natLe 4 n ++ natLe 4 n ++ zeros 4 ++ zeros n

theorem meets_SessionMessagesAct_2 :
    let s := net (sess 1 0)
    let d := fun n => msg (protected_ 0x20 1 0 (mboxData n) 0)
    s.protectedFrom 0 (d 64) 0x20 (sess 1 0) (mboxData 64) ∧ (sess 1 0).turnOf (d 64) ∧
    s.protectedFrom 0 (d 65) 0x20 (sess 1 0) (mboxData 65) ∧ (sess 1 0).turnOf (d 65) ∧
    (((s.tookIn (d 64) 0x20 (mboxData 64)).session (RHdr.read (d 64).data).sid).bind fun y => y.mbox (mboxData 64)).isSome = true ∧
    (((s.tookIn (d 65) 0x20 (mboxData 65)).session (RHdr.read (d 65).data).sid).map fun y => y.mbox (mboxData 65)) = some none :=
  ⟨protected_of (by decide +kernel) (by decide +kernel) rfl ⟨rfl, rfl, rfl⟩, turn_of (by decide +kernel) (by decide +kernel),
    protected_of (by decide +kernel) (by decide +kernel) rfl ⟨rfl, rfl, rfl⟩, turn_of (by decide +kernel) (by decide +kernel),
    by decide +kernel, by decide +kernel⟩

theorem meets_SessionMessagesAct_3 :
    (net (sess 1 0)).protectedFrom 0 (msg (protected_ 0x12 1 0 (closePayload 0) 0)) 0x12 (sess 1 0) (closePayload 0) ∧
    (sess 1 0).turnOf (msg (protected_ 0x12 1 0 (closePayload 0) 0)) ∧ (closePayload 0).length = 8 ∧
    ((sess 1 0).mbox (mboxData 64)).isSome = true :=
  ⟨protected_of (by decide +kernel) (by decide +kernel) rfl ⟨rfl, rfl, rfl⟩, turn_of (by decide +kernel) (by decide +kernel), by decide +kernel⟩

theorem meets_SessionMessagesAct_4 :
    let s := net (sess 1 0)
    let d := msg (protected_ 0x11 1 (2 ^ 63) [] 1)
    let h := RHdr.read d.data
    s.runs = true ∧ s.arrives 0 d 0x11 = true ∧ s.session h.sid = some (sess 1 0) ∧
    fld d.data (24 + h.len) 16 ≠ (Config.gcmTag [] ([] ++ natLe 8 h.seq) (d.data.take 24) (slice d.data 24 h.len)).toNat := by
  refine ⟨by decide +kernel, by decide +kernel, by decide +kernel, ?_⟩
  obtain ⟨p1, p2, p3, p4, p5⟩ := protected_parts 0x11 1 (2 ^ 63) [] 1
  have hr : RHdr.read (ranowHeader 0x11 ([] : List Byte).length 1 (2 ^ 63)) = ⟨0x4E52, 1, 0x11, 0, 1, 2 ^ 63⟩ := by decide +kernel
  rw [hr] at p1
  simp only [List.length_nil] at p2 p3 p5
  simp only [msg, p1, List.nil_append]
  rw [p2, p3, p5]
  intro e
  have := BitVec.eq_of_toNat_eq e
  have k := congrArg (fun v => v - Config.gcmTag [] (natLe 8 (2 ^ 63)) (ranowHeader 0x11 0 1 (2 ^ 63))
    (xorBytes [] (Config.gcmStream [] (natLe 8 (2 ^ 63)) 0))) this
  simp only [BitVec.sub_self] at k
  rw [BitVec.add_comm, BitVec.add_sub_cancel] at k
  exact absurd k (by decide)

theorem meets_SessionMessagesAct_5 :
    let s := net (sess 1 0)
    s.runs = true ∧ s.arrives 0 (msg (ranowHeader 2 0 1 0)) 2 = true ∧ s.arrives 0 (msg (ranowHeader 4 0 1 0)) 4 = true ∧
    0x21 ∉ [0x01, 0x02, 0x03, 0x04, 0x10, 0x11, 0x12, 0x20, 0x30, 0x31] ∧
    s.protectedFrom 0 (msg (protected_ 0x21 1 0 [] 0)) 0x21 (sess 1 0) [] :=
  ⟨by decide +kernel, by decide +kernel, by decide +kernel, by decide, protected_of (by decide +kernel) (by decide +kernel) rfl ⟨rfl, rfl, rfl⟩⟩

/-- A DOPEN of the last 64 bytes of stack 0, to write; `bid` is its number. -/
def dopenData (bid : Nat) : List Byte := natLe 1 bid ++ [0] ++ natLe 2 64 ++ zeros 4 ++ natLe 8 lastWord ++ natLe 8 64

theorem meets_DataPortBursts_1 :
    let s := net (sess 1 0)
    let d := fun n => msg (protected_ 0x30 1 0 (dopenData n) 0)
    s.protectedFrom 0 (d 15) 0x30 (sess 1 0) (dopenData 15) ∧ (sess 1 0).turnOf (d 15) ∧ (dopenData 15).length = 24 ∧
    s.protectedFrom 0 (d 16) 0x30 (sess 1 0) (dopenData 16) ∧ (sess 1 0).turnOf (d 16) ∧ (dopenData 16).length = 24 ∧
    (sess 1 0).burstFields ⟨15, false, 64, lastWord, 64, 0⟩ 0 = true ∧ s.rangeCode 0 lastWord 64 = 0 ∧
    (sess 1 0).burstFields ⟨16, false, 64, lastWord, 64, 0⟩ 0 = false ∧ Code.burstFormat ≠ 0 :=
  ⟨protected_of (by decide +kernel) (by decide +kernel) rfl ⟨rfl, rfl, rfl⟩, turn_of (by decide +kernel) (by decide +kernel), by decide +kernel,
    protected_of (by decide +kernel) (by decide +kernel) rfl ⟨rfl, rfl, rfl⟩, turn_of (by decide +kernel) (by decide +kernel), by decide +kernel⟩

/-- A session with a burst of two chunks, the second of which is next. -/
def bursting (rd : Bool) : Sess := { sess 1 0 with bursts := [⟨15, rd, 64, lastWord - 64, 128, 1⟩] }

/-- Its second chunk. -/
def chunkData : List Byte := [15, 0, 0, 0] ++ natLe 4 1 ++ zeros 64

theorem meets_DataPortBursts_2 :
    let s := net (bursting false)
    let y : Burst := ⟨15, false, 64, lastWord - 64, 128, 1⟩
    s.protectedFrom 0 (msg (protected_ 0x31 1 0 chunkData 0)) 0x31 (bursting false) chunkData ∧
    (bursting false).turnOf (msg (protected_ 0x31 1 0 chunkData 0)) ∧
    (bursting false).bursts.find? (fun y => y.bid == fld chunkData 0 1) = some y ∧ fld chunkData 4 4 = y.next ∧ 8 ≤ chunkData.length ∧
    chunkData.length = 8 + y.nextChunk.2 ∧ s.rangeCode 0 y.nextChunk.1 y.nextChunk.2 = 0 ∧ y.nextChunk.1 < 8 * stackBytes ∧
    y.len ≤ (y.next + 1) * y.chunk ∧ (0 + 1) * 64 < y.len :=
  ⟨protected_of (by decide +kernel) (by decide +kernel) rfl ⟨rfl, rfl, rfl⟩, turn_of (by decide +kernel) (by decide +kernel), by decide +kernel⟩

theorem meets_DataPortBursts_3 :
    let s := net (bursting true)
    let y : Burst := ⟨15, true, 64, lastWord - 64, 128, 1⟩
    s.runs = true ∧ s.session 1 = some (bursting true) ∧ y.rd = true ∧ s.rangeCode 0 y.nextChunk.1 y.nextChunk.2 = 0 ∧
    (s.chunkRead 0 y.nextChunk.1 y.nextChunk.2).2.2 = true ∧ (bursting true).bursts.find? (fun z => z.bid == y.bid) = some y ∧ s.dmg = [] := by
  decide +kernel

/-- Stack 0 has room for that chunk, or not. -/
theorem meets_DataPortBursts_4 :
    let y := fun rd => (⟨15, rd, 64, lastWord - 64, 128, 1⟩ : Burst)
    let s := fun rd k => { net (bursting rd) with stks := [(0, k)] }
    let w := fun k => (((s false k).tookIn (msg (protected_ 0x31 1 0 (zeros 0) 0)) 0x31 []).chunkWrite 0 lastWord (zeros 64)).burstNext 1 (y false)
    let rd := fun k => let x := (s true k).chunkRead 0 lastWord 64
      (x.1.sendRel 1 0x32 (natLe 1 15 ++ zeros 3 ++ natLe 4 1 ++ x.2.1)).burstNext 1 (y true)
    (s false Stack.reset).roomFor (.burst 0) (w Stack.reset) = true ∧ (s false waited).roomFor (.burst 0) (w waited) = false ∧
    (s true Stack.reset).roomFor (.burst 0) (rd Stack.reset) = true ∧ (s true waited).roomFor (.burst 0) (rd waited) = false := by decide +kernel

/-! ### Commands of the mailbox -/

theorem meets_MailboxCommandsComplete_1 :
    on.servedBy o0 0 ∧ on.serves o0.sid = some (sess 1 0) ∧ on.servedBy o1 1 ∧ 0 ∈ on.defined ∧ (1 ≠ 0 ∧ 0 ≠ 1) ∧ 3 ≤ 3 ∧
    (sharedBase 0 + sharedBytes - 256) % 64 = 0 ∧ on.sharedIn 0 (sharedBase 0 + sharedBytes - 256) 224 = true :=
  ⟨served_o0, by decide +kernel, served_o1, by decide +kernel⟩

/-- Region 3 is ready, with core 0.0; the words at the last 512 bytes of its core memory are damaged or not. -/
def idleCore (hurt : Bool) : State :=
  { busy .ready with dmg := if hurt then [(windowBase 0 + coreMemBytes - 512, 2)] else [] }

theorem meets_MailboxCommandsComplete_2 (hurt : Bool) :
    (idleCore hurt).servedBy o0 0 ∧ (∀ i < 64, (idleCore hurt).regOk 0 (windowBase 0 + coreMemBytes - 512 + i * 8) 8 = true) ∧
    (∀ i < 64, ∀ c, (idleCore hurt).coreMemAt 0 (windowBase 0 + coreMemBytes - 512 + i * 8) = some c → (idleCore hurt).coreBusy c = false) ∧
    (∀ i < 64, (idleCore hurt).stackBusy (windowBase 0 + coreMemBytes - 512 + i * 8) = false) ∧ Upset.bus ∉ [] ∧ Upset.bus ∈ [Upset.bus] := by
  have h : ((List.range 64).all fun i => (idleCore hurt).regOk 0 (windowBase 0 + coreMemBytes - 512 + i * 8) 8 &&
      ((idleCore hurt).coreMemAt 0 (windowBase 0 + coreMemBytes - 512 + i * 8) == some 0) &&
      !(idleCore hurt).stackBusy (windowBase 0 + coreMemBytes - 512 + i * 8)) = true := by
    cases hurt <;> decide +kernel
  simp only [List.all_eq_true, List.mem_range, Bool.and_eq_true, beq_iff_eq, Bool.not_eq_true'] at h
  refine ⟨by cases hurt <;> exact servedBy_of (by decide +kernel), fun i hi => (h i hi).1.1, fun i hi c hc => ?_, fun i hi => (h i hi).2, by decide⟩
  rw [(h i hi).1.2] at hc
  obtain rfl := Option.some.inj hc
  cases hurt <;> decide +kernel

theorem meets_MailboxCommandsComplete_3 :
    let r := fun hurt => ((List.range 64).map fun i => windowBase 0 + coreMemBytes - 512 + i * 8).foldl (fun (acc : State × List Byte × Bool) x =>
       ((acc.1.regRead 0 x 8).1, acc.2.1 ++ natLe 8 (acc.1.regRead 0 x 8).2.1, acc.2.2 && (acc.1.regRead 0 x 8).2.2)) (idleCore hurt, [], true)
    (r false).2.2 = true ∧ (r true).2.2 = false ∧ (idleCore false).regOk 0 (windowBase 0) 8 = true ∧ (idleCore false).regOk 0 (windowBase 0) 2 = false ∧
    (idleCore false).coreMemAt 0 (windowBase 0) = some 0 ∧ (idleCore false).coreBusy 0 = false := by decide +kernel

/-- A grant of block 95, stack 7 and membership 7. -/
def grant1 : GrantR := ⟨true, [95], [7], [7], [0, 0, 0, 1], [0, 0, 0, 480]⟩

theorem meets_DeferredCommandsStart_1 :
    let b := grant1.bytes 7
    let g := GrantR.read b
    let q := fld b 0 1
    on.servedBy o0 0 ∧ grantFields on.grade b = true ∧ on.grantRuns = false ∧ on.grantConflict q g = false ∧ on.grantHeld q g = false ∧
    bit (fld b 1 1) 1 = false ∧ on.takesUsed q (on.part q).grant g = false ∧ on.takesUsed 0 (on.part 0).grant (on.ownerWith q g) = false :=
  ⟨served_o0, by decide +kernel⟩

theorem meets_DeferredCommandsStart_2 :
    let s := { on with parts := [(0, { Part.reset with grant := ownerGrant .gx9_3072 [grant1] }), (7, { Part.reset with grant := grant1 })] }
    s.servedBy o0 0 ∧ 7 ∈ s.defined ∧ s.grantHeld 7 GrantR.empty = false ∧ s.grantConflict 7 GrantR.empty = false :=
  ⟨servedBy_of (by decide +kernel), by decide +kernel⟩

/-- A template: one query of 16 FP16 elements, K = 1, records of 64 bytes. -/
def tmpl1 : Entry := padTo 64 ([1, 0, 7, 1] ++ natLe 2 16 ++ natLe 2 1 ++ zeros 12 ++ natLe 4 64)

/-- One record of each stack, with a work area behind it. -/
def mstks : List MStk := (List.range 8).map fun t => ⟨t, 1, stackBase t, 0, 0, stackBase t + 4096⟩

theorem meets_DeferredCommandsStart_3 :
    let c := MatchC.read tmpl1
    let r := on.sharedRead 0 (sharedBase 0) (4 * c.nq * c.dim)
    on.servedBy o0 0 ∧ 1 ≤ mstks.length ∧ mstks.length ≤ 8 ∧ noDup (mstks.map (·.stack)) = true ∧ sharedBase 0 % 64 = 0 ∧
    sharedBase 1 % 64 = 0 ∧ (∀ x ∈ mstks, x.stack ∈ (on.part 0).grant.stks ∧ on.holdsStack x.stack = false) ∧ c.template = true ∧
    on.multiCode 0 c mstks = 0 ∧ on.sharedIn 0 (sharedBase 0) (4 * c.nq * c.dim) = true ∧ on.sharedIn 0 (sharedBase 1) c.resultBytes = true ∧
    r.2.2 = true ∧ (⟨c, none, 0, 0, 0, chunks 64 r.2.1, 0⟩ : MCmd).queriesOk = true :=
  ⟨served_o0, by decide +kernel⟩

/-- The header of an image for region 3 of one core, with one frame. -/
def imgHead : List Byte := [0x49, 0x47, 1, 0, 3, 1, 1, 0] ++ natLe 4 1 ++ zeros 4 ++ natLe 8 16 ++ zeros 72

theorem meets_DeferredCommandsStart_4 :
    let s := { busy .idle with mem := Memory.write [] (sharedBase 0) imgHead }
    let r := s.anyRead 0 (sharedBase 0) 96
    s.servedBy o0 0 ∧ s.defs = [] ∧ (s.region 0 3).state ≠ .undefined ∧ s.imageSource 0 (sharedBase 0) (max 1 144) = 0 ∧
    r.2.2 = true ∧ r.1.imageCode 0 3 144 r.2.1 = 0 ∧ s.sharedIn 0 (sharedBase 0) (s.reportBytes 0) = true :=
  ⟨servedBy_of (by decide +kernel), by decide +kernel⟩
/-! ### Records, and the ends of deferred commands -/

/-- A module whose session 1 has these bytes in its command ring from count `h` on, and TAIL at `t`. -/
def ringOf (h t : Nat) (b : List Byte) : State :=
  { on with sess := [{ sess 1 0 with chead := h, ctail := t, cring := Memory.write [] (h % 64) b }, sess 2 1] }

theorem meets_RecordsAreTaken :
    let x := fun (s : State) => (s.session 1).bind (·.nextRecord)
    let rec_ := ringOf (2 ^ 32 - 8) 0 [8, 0, 1]
    let pad := ringOf 0 64 [64]
    let bad := ringOf 0 8 [12]
    let wrap := ringOf 56 72 [16, 0, 1]
    let turn := fun (s : State) => nextInTurn s.takePart (s.readySess.map (·.part)) = some 0 ∧
      nextInTurn (s.takeSid.get 0 0) ((s.readySess.filter fun x => x.part == 0).map (·.sid)) = some 1
    turn rec_ ∧ x rec_ = some (.record 0 [8, 0, 1, 0, 0, 0, 0, 0]) ∧ turn pad ∧ x pad = some (.pad 64) ∧
    turn bad ∧ x bad = some (.badLen 64) ∧ turn wrap ∧ x wrap = some (.wrap 64) := by
  decide +kernel

theorem meets_RecordsAreTaken_3 :
    (∀ n, Upset.mgmt n ∈ [Upset.mgmt 1] → n ≤ 1) ∧ (ringOf 0 0 []).runs = true ∧ 1 < 2 ∧ (ringOf 0 0 []).promotion = none := by
  refine ⟨fun n h => ?_, by decide +kernel⟩
  simp only [List.mem_singleton, Upset.mgmt.injEq] at h
  omega

theorem meets_RecordsAreTaken_2 :
    commandLen (fld [8, 0, 0xFF, 0xFF] 2 2) [8, 0, 0xFF, 0xFF] = none ∧ commandLen (fld (padTo 16 [16, 0, 1]) 2 2) (padTo 16 [16, 0, 1]) = some 8 ∧
    (padTo 16 [16, 0, 1]).length ≠ 8 ∧ fld (padTo 32 [32, 0, 0x11]) 2 2 = 0x0011 ∧ (padTo 32 [32, 0, 0x11]).length = 32 := by decide +kernel

/-- One deferred command of partition 0 runs, in a module with these bytes at the start of shared memory. -/
def deferred (op : Nat) (k : DefK) (m : Memory) : State :=
  { withPart (fun x => { x with regions := [(3, reg .idle)] }) with defs := [⟨o0, 0, op, k⟩], mem := m }

theorem meets_DeferredCommandsEnd_1 :
    let s := deferred 0x0120 (.attest (zeros 32) (sharedBase 3)) []
    s.runs = true ∧ s.defs[0]? = some ⟨o0, 0, 0x0120, .attest (zeros 32) (sharedBase 3)⟩ ∧ s.sharedIn 0 (sharedBase 3) (s.reportBytes 0) = true ∧
    (deferred 0x0201 (.promote none false false) []).defs[0]? = some ⟨o0, 0, 0x0201, .promote none false false⟩ ∧
    ((deferred 0x0201 (.promote none false false) []).flash.bank ((none : Option Nat).getD on.flash.cur.active)).good = true := by decide +kernel

/-- Bytes listed from address `a` on. -/
def cells : Nat → List Byte → Memory
  | _, [] => []
  | a, b :: bs => (a, b) :: cells (a + 1) bs

theorem byte_cells (bs : List Byte) (a j : Nat) (h : j < bs.length) : Memory.byte (cells a bs) (a + j) = bs[j] := by
  induction bs generalizing a j with
  | nil => simp at h
  | cons b bs ih =>
    cases j with
    | zero => simp [cells, Memory.byte, SMap.get]
    | succ j =>
      have := ih (a + 1) j (by simpa using h)
      rw [Nat.add_assoc, Nat.add_comm 1 j] at this
      simpa [cells, Memory.byte, SMap.get] using this

theorem read_cells (bs : List Byte) (a j n : Nat) (h : j + n ≤ bs.length) : Memory.read (cells a bs) (a + j) n = slice bs j n := by
  induction n generalizing j with
  | zero => simp [Memory.read, slice]
  | succ n ih =>
    have l : j < bs.length := by omega
    rw [Memory.read, byte_cells bs a j l, Nat.add_assoc, ih (j + 1) (by omega)]
    unfold slice
    rw [List.drop_eq_getElem_cons l, List.take_succ_cons]

theorem slices (bs : List Byte) (n : Nat) : (List.range n).flatMap (fun i => slice bs (16 * i) 16) = bs.take (16 * n) := by
  induction n with
  | zero => simp
  | succ n ih =>
    rw [List.range_succ, List.flatMap_append, ih, Nat.mul_succ, List.take_add]
    simp [slice]

/-- Bytes at the start of shared memory are read as they stand. -/
theorem anyRead_cells (s : State) (bs : List Byte) (n : Nat) (hm : s.mem = cells (sharedBase 0) bs) (hl : bs.length = 16 * n)
    (ha : ∀ i < n, s.sharedAddr 0 (sharedBase 0 + 16 * i) = some (sharedBase 0 + 16 * i)) (hd : s.dmg = []) :
    s.anyRead 0 (sharedBase 0) (16 * n) = ((s.anyRead 0 (sharedBase 0) (16 * n)).1, bs, true) := by
  have e : s.anyRead 0 (sharedBase 0) (16 * n) = s.sharedRead 0 (sharedBase 0) (16 * n) := by
    unfold State.anyRead
    rw [if_neg (by decide)]
  have f : s.sharedRead 0 (sharedBase 0) (16 * n) =
      (s, (s.viewRead 0 (sharedBase 0 - sharedBase 0 % 16) (sharedBase 0 % 16 + 16 * n)).drop (sharedBase 0 % 16), true) := by
    unfold State.sharedRead
    rw [hd]
    rfl
  rw [e, f]
  refine Prod.ext rfl (Prod.ext ?_ rfl)
  have c : cdiv (16 * n) 16 = n := by unfold cdiv; omega
  have z : sharedBase 0 % 16 = 0 := by decide
  show (s.viewRead 0 (sharedBase 0 - sharedBase 0 % 16) (sharedBase 0 % 16 + 16 * n)).drop (sharedBase 0 % 16) = bs
  rw [z, Nat.sub_zero, Nat.zero_add, List.drop_zero]
  unfold State.viewRead
  rw [c]
  refine (congrArg (List.take (16 * n)) (List.flatMap_congr (g := fun i => slice bs (16 * i) 16) fun i hi => ?_)).trans ?_
  · rw [List.mem_range] at hi
    rw [ha i hi, hm]
    exact read_cells bs _ _ _ (by omega)
  · rw [slices, ← hl, List.take_length, List.take_length]
theorem chunks_one (n : Nat) (l : List Byte) (h : 0 < l.length ∧ l.length ≤ n) : chunks n l = [l] := by
  obtain ⟨h0, hn⟩ := h
  cases l with
  | nil => simp at h0
  | cons b l =>
    have e : ∀ k, chunksF n k ([] : List Byte) = [] := by intro k; cases k <;> rfl
    unfold chunks
    rw [List.length_cons, chunksF, if_neg (by simp), List.take_of_length_le hn, List.drop_eq_nil_of_le hn, e]

theorem length_imagePlain (k c : List Byte) (h : c.length = 16) : (imagePlain k c).length = 16 := by
  unfold imagePlain
  rw [chunks_one _ _ (by omega)]
  simpa [segmentPlain, length_xorBytes] using h

theorem imagePlain_twice (k c : List Byte) (h : c.length = 16) : imagePlain k (imagePlain k c) = c := by
  have l := length_imagePlain k c h
  have e : ∀ c : List Byte, c.length = 16 → imagePlain k c = xorBytes c ((List.range 1).flatMap fun b =>
      padTo 16 (Config.aes256 (segmentKey k 0) (natLe 8 0 ++ natLe 8 b))) := by
    intro c h
    unfold imagePlain
    rw [chunks_one _ _ (by omega)]
    simp [segmentPlain, h, cdiv]
  rw [e _ l, e _ h, xorBytes_twice]

/-- The plain text of an image that takes setup 0 out of region 3, its ciphertext, and the whole stream. -/
def imgPlain : List Byte := [0, 0, 0, 0, 3, 0, 0, 3] ++ zeros 8
/-- See imgPlain. -/
def imgCipher : List Byte := imagePlain (imageKeys (zeros 32) imgHead).1 imgPlain
/-- See imgPlain. -/
def imgTail : List Byte := imageTag (imageKeys (zeros 32) imgHead).2 imgHead imgCipher
/-- See imgPlain. -/
def imgStream : List Byte := imgHead ++ (imgCipher ++ imgTail)

theorem img_parts : imgCipher.length = 16 ∧ imgTail.length = 32 ∧ imgStream.length = 144 ∧ imgStream.take 96 = imgHead ∧
    slice imgStream 96 16 = imgCipher ∧ imgStream.drop (96 + 16) = imgTail := by
  have h : imgHead.length = 96 := by decide +kernel
  have c : imgCipher.length = 16 := length_imagePlain _ _ (by decide +kernel)
  have t : imgTail.length = 32 := length_padTo _ _
  refine ⟨c, t, by simp [imgStream, h, c, t], ?_, ?_, ?_⟩
  · unfold imgStream; rw [← h, List.take_left]
  · unfold imgStream slice; rw [← h, List.drop_left, ← c, List.take_left]
  · unfold imgStream; rw [← List.drop_drop, ← h, List.drop_left, ← c, List.drop_left]

/-- Its IMAGE_LOAD runs. -/
def imgEnding : State := deferred 0x0110 (.image 3 (sharedBase 0) 144 (zeros 32) [0, 0, 0, 0]) (cells (sharedBase 0) imgStream)

theorem meets_DeferredCommandsEnd_2 :
    let s := imgEnding
    let v := ({ s with defs := dropAt s.defs 0 }.anyRead 0 (sharedBase 0) 144).1
    let hb := imgStream.take 96
    let h := ImgHdr.read hb
    let c := slice imgStream 96 h.clen
    let plain := imagePlain (imageKeys (zeros 32) hb).1 c
    let y := readFrames plain.length plain
    s.runs = true ∧ s.defs[0]? = some ⟨o0, 0, 0x0110, .image 3 (sharedBase 0) 144 (zeros 32) [0, 0, 0, 0]⟩ ∧
    { s with defs := dropAt s.defs 0 }.anyRead 0 (sharedBase 0) 144 = (v, imgStream, true) ∧
    (v.region 0 3).state ≠ .undefined ∧ v.inView 0 (sharedBase 0) 144 = true ∧ v.imageCode 0 3 144 hb = 0 ∧
    imgStream.drop (96 + h.clen) = imageTag (imageKeys (zeros 32) hb).2 hb c ∧ framesCode h [] y.1 = 0 ∧
    frameSet h (v.region 0 3).rect ((v.region 0 3).seq / 64) y.1 y.2 = true := by
  obtain ⟨p1, p2, p3, p4, p5, p6⟩ := img_parts
  have hc : (ImgHdr.read imgHead).clen = 16 := by decide +kernel
  have hp : imagePlain (imageKeys (zeros 32) imgHead).1 imgCipher = imgPlain := imagePlain_twice _ _ (by decide +kernel)
  intro s v hb h c plain y
  have eb : hb = imgHead := p4
  have ec : c = imgCipher := by
    show slice imgStream 96 (ImgHdr.read hb).clen = _
    rw [eb, hc, p5]
  have ep : plain = imgPlain := by
    show imagePlain (imageKeys (zeros 32) hb).1 c = _
    rw [eb, ec, hp]
  have ey : y = readFrames 16 imgPlain := by
    show readFrames plain.length plain = _
    rw [ep]
    rfl
  refine ⟨rfl, rfl, anyRead_cells _ _ 9 rfl p3 (by decide +kernel) rfl, by decide +kernel, by decide +kernel, ?_, ?_, ?_, ?_⟩
  · rw [eb]; decide +kernel
  · show imgStream.drop (96 + (ImgHdr.read hb).clen) = imageTag (imageKeys (zeros 32) hb).2 hb c
    rw [eb, hc, p6, ec]
    rfl
  · show framesCode (ImgHdr.read hb) [] y.1 = 0
    rw [eb, ey]; decide +kernel
  · show frameSet (ImgHdr.read hb) _ _ y.1 y.2 = true
    rw [eb, ey]; decide +kernel
theorem slice_mid (a b c : List Byte) (o n : Nat) (ho : o = a.length) (hn : n = b.length) : slice (a ++ (b ++ c)) o n = b := by
  subst ho hn
  simp [slice]

/-- The hash of a component of no bytes. -/
def noHash : List Byte := padTo 32 (Config.shake256 [] 32)
/-- The entry of a component of type `t` of no bytes. -/
def comp (t : Nat) : List Byte := natLe 2 t ++ zeros 22 ++ (noHash ++ zeros 8)
/-- The header of a manifest of five components. -/
def manHead : List Byte := natLe 2 0x464D ++ natLe 2 2 ++ [9, 0] ++ natLe 2 5 ++ natLe 4 0x02000000 ++ natLe 2 63 ++ natLe 2 1 ++ natLe 8 512 ++ zeros 40
/-- What is signed. -/
def manBody : List Byte := manHead ++ (comp 1 ++ (comp 2 ++ (comp 3 ++ (comp 4 ++ comp 5))))
/-- The signature block. -/
def manSig : List Byte := padTo 8 Config.fwKeyId ++ (zeros 6 ++ padTo 114 (Config.ed448Sig Config.fwKey (ascii "GLOBATEN-FW") manBody))
/-- A package of five components of no bytes. -/
def pkg1 : List Byte := manBody ++ manSig

theorem length_comp (t : Nat) : (comp t).length = 64 := by
  simp [comp, noHash, length_padTo, length_natLe, zeros]

theorem comp_fields (t : Nat) (h : t < 65536) : fld (comp t) 0 2 = t ∧ fld (comp t) 2 2 = 0 ∧ fld (comp t) 8 8 = 0 ∧ fld (comp t) 16 8 = 0 ∧
    slice (comp t) 24 32 = noHash ∧ allZero (slice (comp t) 56 8) = true := by
  have hn : (natLe 2 t).length = 2 := length_natLe _ _
  have hz : (natLe 2 t ++ zeros 22).length = 24 := by rw [List.length_append, hn]; rfl
  have hh : noHash.length = 32 := length_padTo _ _
  have z : ∀ o n, 2 ≤ o → o + n ≤ 24 → fld (comp t) o n = 0 := by
    intro o n h2 h24
    have e : slice (comp t) o n = zeros n := by
      unfold comp
      rw [slice_left _ _ _ _ (by rw [hz]; exact h24)]
      unfold slice
      rw [List.drop_append, List.drop_of_length_le (by rw [hn]; exact h2), List.nil_append, hn]
      simp only [zeros, List.drop_replicate, List.take_replicate]
      congr 1
      clear hn hz hh h
      omega
    unfold fld
    rw [e]
    clear e h24
    induction n with
    | zero => rfl
    | succ n ih => simpa [zeros, List.replicate_succ, leNat] using ih
  refine ⟨?_, z _ _ (by omega) (by omega), z _ _ (by omega) (by omega), z _ _ (by omega) (by omega), ?_, ?_⟩
  · unfold comp fld
    rw [List.append_assoc]
    have : slice (natLe 2 t ++ (zeros 22 ++ (noHash ++ zeros 8))) 0 2 = natLe 2 t := by
      simpa using slice_mid [] (natLe 2 t) (zeros 22 ++ (noHash ++ zeros 8)) 0 2 rfl hn.symm
    rw [this, leNat_natLe]
    exact Nat.mod_eq_of_lt h
  · exact slice_mid _ _ _ _ _ hz.symm hh.symm
  · have : slice (comp t) 56 8 = zeros 8 := by
      unfold comp
      rw [← List.append_assoc]
      have := slice_right (natLe 2 t ++ zeros 22 ++ noHash) (zeros 8) 8 rfl
      rwa [List.length_append, hz, hh] at this
    rw [this]
    decide

theorem pkg1_parts : manBody.length = 384 ∧ pkg1.length = 512 ∧ pkg1.take 384 = manBody ∧ slice pkg1 384 128 = manSig ∧
    manifestEntries pkg1 5 = [comp 1, comp 2, comp 3, comp 4, comp 5] ∧
    Manifest.read pkg1 = ⟨0x464D, 2, 9, false, 5, 0x02000000, 63, 1, 512, true⟩ := by
  have hh : manHead.length = 64 := by decide +kernel
  have hb : manBody.length = 384 := by simp [manBody, hh, length_comp]
  have hs : manSig.length = 128 := by simp [manSig, length_padTo, zeros]
  refine ⟨hb, by simp [pkg1, hb, hs], by unfold pkg1; rw [← hb, List.take_left], ?_, ?_, ?_⟩
  · have := slice_right manBody manSig 128 hs.symm
    rwa [hb] at this
  · have e : pkg1 = manHead ++ (comp 1 ++ (comp 2 ++ (comp 3 ++ (comp 4 ++ (comp 5 ++ manSig))))) := by simp [pkg1, manBody]
    have m : ∀ (a b c : List Byte) (i : Nat), pkg1 = a ++ (b ++ c) → a.length = 64 + 64 * i → b.length = 64 → slice pkg1 (64 + 64 * i) 64 = b := by
      intro a b c i h ha hb
      rw [h]
      exact slice_mid a b c _ _ ha.symm hb.symm
    show [slice pkg1 (64 + 64 * 0) 64, slice pkg1 (64 + 64 * 1) 64, slice pkg1 (64 + 64 * 2) 64, slice pkg1 (64 + 64 * 3) 64,
      slice pkg1 (64 + 64 * 4) 64] = _
    rw [m manHead (comp 1) _ 0 e (by simp [hh]) (length_comp _), m (manHead ++ comp 1) (comp 2) _ 1 (by simpa using e) (by simp [hh, length_comp]) (length_comp _),
      m (manHead ++ comp 1 ++ comp 2) (comp 3) _ 2 (by simpa using e) (by simp [hh, length_comp]) (length_comp _),
      m (manHead ++ comp 1 ++ comp 2 ++ comp 3) (comp 4) _ 3 (by simpa using e) (by simp [hh, length_comp]) (length_comp _),
      m (manHead ++ comp 1 ++ comp 2 ++ comp 3 ++ comp 4) (comp 5) _ 4 (by simpa using e) (by simp [hh, length_comp]) (length_comp _)]
  · have e : pkg1 = manHead ++ (comp 1 ++ (comp 2 ++ (comp 3 ++ (comp 4 ++ (comp 5 ++ manSig))))) := by simp [pkg1, manBody]
    have r : Manifest.read pkg1 = Manifest.read manHead := by
      rw [e]
      unfold Manifest.read
      rw [slice_left _ _ _ _ (by omega)]
      simp only [fld_left manHead _ 0 2 (by omega), fld_left manHead _ 2 2 (by omega), fld_left manHead _ 4 1 (by omega), fld_left manHead _ 5 1 (by omega),
        fld_left manHead _ 6 2 (by omega), fld_left manHead _ 8 4 (by omega), fld_left manHead _ 12 2 (by omega), fld_left manHead _ 14 2 (by omega),
        fld_left manHead _ 16 8 (by omega)]
    rw [r]
    decide +kernel

/-- The package is good for every security version that the fuses can hold. -/
theorem pkg1_good (n : Nat) (h : n ≤ 63) : packageCode pkg1 n = 0 := by
  obtain ⟨h1, h2, h3, h4, h5, h6⟩ := pkg1_parts
  have hk : (padTo 8 Config.fwKeyId).length = 8 := length_padTo _ _
  have s1 : manSig.take 8 = padTo 8 Config.fwKeyId := by
    unfold manSig
    exact List.take_left' hk
  have s2 : manSig.drop 14 = padTo 114 (Config.ed448Sig Config.fwKey (ascii "GLOBATEN-FW") manBody) := by
    unfold manSig
    rw [← List.append_assoc]
    exact List.drop_left' (by rw [List.length_append, hk]; rfl)
  have s3 : allZero (slice manSig 8 6) = true := by
    have : slice manSig 8 6 = zeros 6 := slice_mid _ _ _ _ _ hk.symm rfl
    rw [this]
    decide
  have c1 := comp_fields 1 (by omega)
  have c2 := comp_fields 2 (by omega)
  have c3 := comp_fields 3 (by omega)
  have c4 := comp_fields 4 (by omega)
  have c5 := comp_fields 5 (by omega)
  have hn : ∀ b : List Byte, slice b 0 0 = [] := fun b => by simp [slice]
  have hh : padTo 32 (Config.shake256 [] 32) = noHash := rfl
  unfold packageCode
  simp only [h6, h5, h3, h4, s1, s2, s3, Nat.reduceMul, Nat.reduceAdd, List.any_cons, List.any_nil, List.all_cons, List.all_nil, List.filter_cons,
    List.filter_nil, c1, c2, c3, c4, c5, hn, hh]
  simp [h, Code.ok, bankBytes]

/-- Its FW_STAGE runs; or one becomes a running command, with shared memory whole in the view. -/
def staging : State := deferred 0x0200 (.stage (sharedBase 0) 512) (cells (sharedBase 0) pkg1)

theorem meets_DeferredCommandsEnd_3 :
    let s := staging
    let v := ({ s with defs := dropAt s.defs 0 }.anyRead 0 (sharedBase 0) 512).1
    s.runs = true ∧ s.defs[0]? = some ⟨o0, 0, 0x0200, .stage (sharedBase 0) 512⟩ ∧
    { s with defs := dropAt s.defs 0 }.anyRead 0 (sharedBase 0) 512 = (v, pkg1, true) ∧ (Manifest.read pkg1).pkglen = 512 ∧
    packageCode pkg1 v.fuse.svn = 0 := by
  obtain ⟨h1, h2, h3, h4, h5, h6⟩ := pkg1_parts
  refine ⟨rfl, rfl, anyRead_cells _ _ 32 rfl h2 (by decide +kernel) rfl, by rw [h6], ?_⟩
  exact pkg1_good _ (by decide +kernel)

theorem meets_DeferredCommandsEnd_4 :
    let c := MatchC.read tmpl1
    let s := deferred 0x0040 (.matchMulti 5 (sharedBase 1) c mstks [zeros 64] []) []
    let u := { s with defs := dropAt s.defs 0, multiFail := s.multiFail.filter fun x => x.1 != 5 }
    let r := (List.range c.nq).foldl (fun (acc : State × List Entry × Bool) q =>
      ((acc.1.multiLists c mstks q).1, acc.2.1 ++ mergeLists c q (acc.1.multiLists c mstks q).2.1, acc.2.2 && (acc.1.multiLists c mstks q).2.2)) (u, [], true)
    s.runs = true ∧ s.defs[0]? = some ⟨o0, 0, 0x0040, .matchMulti 5 (sharedBase 1) c mstks [zeros 64] []⟩ ∧ s.multiRuns 5 = false ∧
    (∀ x ∈ s.multiFail, x.1 ≠ 5) ∧ r.2.2 = true ∧ (r.1.freeWork c mstks).sharedIn 0 (sharedBase 1) c.resultBytes = true := by
  decide +kernel
/-! ### Firmware, settings, starts -/

/-- Bank 1 is in state `st` and bank 0 runs; one more deferred command may run. -/
def banks (st : Nat) (d : List Defr) : State :=
  { on with flash := { factoryFlash with recs := [some ⟨1, 0, false, false, 2, st⟩, some ⟨0, 0, false, false, 2, 0⟩] }, defs := d }

/-- An unforced promotion of bank 1 is pending. -/
def pendingPromotion (loaded : Bool) : State := banks 1 [⟨o0, 0, 0x0201, .promote (some 1) false loaded⟩]

theorem meets_FirmwareCommandsComplete_1 :
    on.servedBy o0 0 ∧ on.servedBy o1 1 ∧ on.stagingRuns = false ∧ on.promotion = none ∧ sharedBase 0 % 64 = 0 ∧
    on.inOne 0 (sharedBase 0) (max 1 0) = true ∧ on.flash.cur.active = 0 ∧ (banks 1 []).flash.cur.st (1 - 0) = 1 ∧
    (banks 3 []).flash.cur.st (1 - 0) = 3 ∧ (banks 3 []).fuse.svn ≤ ((banks 3 []).flash.bank 1).svn ∧ (banks 1 []).stagingRuns = false ∧
    (banks 3 []).promotion = none ∧ (pendingPromotion false).promotion = some (0, ⟨o0, 0, 0x0201, .promote (some 1) false false⟩) ∧
    coreActive on.grade 63 47 = true :=
  ⟨served_o0, served_o1, by decide +kernel⟩

theorem meets_FirmwareCommandsComplete_2 : (banks 1 []).servedBy o0 0 ∧ (banks 3 []).servedBy o0 0 ∧ (pendingPromotion false).servedBy o0 0 :=
  ⟨servedBy_of (by decide +kernel), servedBy_of (by decide +kernel), servedBy_of (by decide +kernel)⟩

theorem meets_SettingsCommandsComplete_1 :
    on.inForce.bytes.length = 64 + (factoryItems.flatMap itemBytes).length ∧ (factoryItems.flatMap itemBytes).length = 232 ∧
    on.sharedIn 0 (sharedBase 3 + 1) (64 + 232) = true := by
  refine ⟨?_, by decide +kernel⟩
  show factorySlot.bytes.length = _
  unfold SetSlot.bytes
  simp only [List.length_append, length_natLe, length_padTo]
  simp [zeros, factorySlot]

/-- Two items of a SET_WRITE: the profile, and network A port 3. -/
def items2 : List (Nat × List Byte) := [(2, [1]), portItem 3 0 0 0 0 0]

theorem meets_SettingsCommandsComplete_2 : readItems 2 (items2.flatMap itemBytes) = some items2 ∧ items2.all itemOk = true := by decide +kernel

/-- Whether the flash takes a write of the settings rests on the free value alone: both answers are met where it allows both. -/
theorem meets_SettingsCommandsComplete_3 (s : State) (items : List (Nat × List Byte)) :
    ((s.writeSettings items).2 = true ↔ Config.freeNat s.free % 2 = 0) ∧ ((s.writeSettings items).2 = false ↔ ¬ Config.freeNat s.free % 2 = 0) := by
  by_cases h : Config.freeNat s.free % 2 = 0 <;> simp [State.writeSettings, State.fresh, h]

/-- The areas of the flash follow one another and fill its 256 MiB. -/
theorem test_flash_map_fills :
    flashMap.map (·.1) = [0, 4, 8, 120, 232, 248].map (· * 2 ^ 20) ∧ (flashMap.map (·.2)).sum = 256 * 2 ^ 20 ∧
    bankOffset 1 = 0x07800000 ∧ slotOffset 3 + slotBytes = 0x0F800000 ∧ recOffset 1 = 0x00410000 := by decide +kernel

/-- The boot image of a module that leaves manufacture is accepted. -/
theorem factory_accepted : factoryFuses.accepts factoryBoot = true := by
  have l : (padTo 57 Config.bootKey).length = 57 := length_padTo _ _
  have m : (padTo 114 (Config.ed448Sig (padTo 57 Config.bootKey) (ascii "GX9-BOOT") Config.bootBody)).length = 114 := length_padTo _ _
  have e : factoryBoot = padTo 57 Config.bootKey ++
      (padTo 114 (Config.ed448Sig (padTo 57 Config.bootKey) (ascii "GX9-BOOT") Config.bootBody) ++ Config.bootBody) := List.append_assoc _ _ _
  have h1 : factoryBoot.take 57 = padTo 57 Config.bootKey := by rw [e]; exact List.take_left' l
  have h2 : slice factoryBoot 57 114 = padTo 114 (Config.ed448Sig (padTo 57 Config.bootKey) (ascii "GX9-BOOT") Config.bootBody) := by
    rw [e]
    exact slice_mid _ _ _ _ _ l.symm m.symm
  have h3 : factoryBoot.drop 171 = Config.bootBody := List.drop_left' (by rw [List.length_append, l, m])
  unfold Fuses.accepts
  rw [h1, h2, h3]
  simp [factoryFuses]

/-- The stages of a start from stage 3 on, where nothing stands still. -/
def afterBoot (s : State) (e : StartEnv) : State × Option (Nat × Nat) :=
  let go := atStage none
  let pass := fun (s : State) => (s, (none : Option Nat))
  go 10 pass (go 9 pass (go 8 (·.fabStage e) (go 7 (·.memStage e) (go 6 (·.ctlStage e) (go 5 (·.setStage e) (go 4 (·.fwStage e) (go 3 (·.bankStage e) (s, none))))))))

/-- A boot image that is accepted takes the start to stage 3. -/
theorem runStages_boot {s : State} {e : StartEnv} (first : Nat) (h : s.fuse.accepts s.flash.boot = true) (he : e.boot = none) :
    s.runStages e false first none = afterBoot s e := by
  have b : s.bootStage e = (s, none) := by
    unfold State.bootStage
    rw [he, Option.getD_none, if_pos h]
  have p : (if first = 1 then atStage none 1 (fun s : State => (s, (none : Option Nat))) (s, none) else (s, none)) = (s, none) := by
    split <;> rfl
  have q : atStage none 2 (·.bootStage e) (s, none) = (s, none) := by simp [atStage, b]
  unfold State.runStages afterBoot
  simp only [p, q, if_false, Bool.false_eq_true]

/-- Bank 1 is active and on trial, with bank 0 to go back to. -/
def onTrial : State :=
  { State.reset with flash := { factoryFlash with recs := [some ⟨1, 1, true, false, 3, 2⟩, none], banks := [factoryBank, factoryBank] } }

/-- Stage 8 fails. -/
def badFabric : StartEnv := { StartEnv.good with fabric := false }
/-- Of bank 1 no image of the first controller can be read. -/
def badCtl : StartEnv := { StartEnv.good with ctl := [[], [(0, none)]] }

theorem meets_StartAndActivationDecision_1 :
    State.reset.mayStart = true ∧ StartEnv.good.refclk = true ∧ StartEnv.good.failing = [] ∧ State.reset.pendingRetire = [] ∧
    State.reset.fuse.accepts State.reset.flash.boot = true ∧ State.reset.flash.recordAt.isSome = true ∧
    State.reset.activeBank.good = true ∧ State.reset.fuse.svn ≤ State.reset.activeBank.svn ∧
    State.reset.flash.settings State.reset.activeBank.sver = some factorySlot ∧ factorySlot.sver = State.reset.activeBank.sver ∧
    (State.reset.modPwr fun y => { y with resetN := true }) = State.reset ∧ (State.reset.runStages StartEnv.good false 1 none).2 = none :=
  ⟨by decide +kernel, rfl, rfl, rfl, factory_accepted, by decide +kernel, by decide +kernel, by decide +kernel, rfl, rfl, rfl, by
    rw [runStages_boot 1 factory_accepted rfl]; decide +kernel⟩

theorem meets_StartAndActivationDecision_2 :
    let x := State.reset.runStages badFabric false 1 none
    badFabric.refclk = true ∧ x.2 = some (8, Code.hardwareSelftest) ∧ (fallback x.1.flash x.1.fuse 8 x.1.fresh.2).isNone = true := by
  intro x
  have e : x = afterBoot State.reset badFabric := runStages_boot 1 factory_accepted rfl
  rw [e]
  decide +kernel

theorem meets_StartAndActivationDecision_3 :
    let x := onTrial.runStages badCtl false 1 none
    onTrial.mayStart = true ∧ badCtl.refclk = true ∧ badCtl.failing = [] ∧ onTrial.pendingRetire = [] ∧
    (onTrial.modPwr fun y => { y with resetN := true }) = onTrial ∧ x.2 = some (6, Code.controllerLoadFail) ∧
    ∃ g, fallback x.1.flash x.1.fuse 6 x.1.fresh.2 = some g ∧
      ({ x.1.fresh.1 with flash := x.1.flash.writeRec g }.runStages badCtl.again false 2 none).2 = none := by
  intro x
  have e : x = afterBoot onTrial badCtl := runStages_boot 1 factory_accepted rfl
  rw [e]
  refine ⟨by decide +kernel, rfl, rfl, rfl, rfl, by decide +kernel, _, rfl, ?_⟩
  rw [runStages_boot 2 factory_accepted rfl]
  decide +kernel

theorem meets_StartAndActivationDecision_4 :
    let e := { StartEnv.good with late := some 1 }
    let x := State.reset.runStages e false 1 e.halts.1
    State.reset.mayStart = true ∧ e.late ≠ none ∧ e.late = some 1 ∧ x.2 = some (1, Code.startTimeout) ∧
    (fallback x.1.flash x.1.fuse 1 x.1.fresh.2).isNone = true ∧ (pendingPromotion true).runs = true ∧
    (pendingPromotion true).promotion = some (0, ⟨o0, 0, 0x0201, .promote (some 1) false true⟩) ∧ (pendingPromotion true).quiescent = true := by decide +kernel

/-! ### Thermal states, rails, power cap, sideband -/

/-- A running module whose power part is changed. -/
def powered (f : Power → Power) : State := { on with pwr := f on.pwr }

/-- Eight stacks at one temperature. -/
def temps (n : Nat) : List Nat := List.replicate 8 n

theorem meets_ThermalStatesChange :
    let warm := powered fun x => { x with tstate := 1 }
    let hot := fun c => powered fun x => { x with tstate := 2, thermClk := c, atFloor := 100 }
    on.watching = true ∧ on.pwr.tstate = 0 ∧ reachesEntry 1 95 (temps 20) = true ∧ reachesEntry 1 20 (temps 90) = true ∧ reachesEntry 1 94 (temps 89) = false ∧
    reachesEntry 2 100 (temps 20) = true ∧ warm.watching = true ∧ warm.pwr.tstate < 2 ∧ 0 < warm.pwr.tstate ∧
    (hot 500).watching = true ∧ (hot 500).pwr.tstate = 2 ∧ 500 < (hot 1400).pwr.thermClk ∧ (hot 500).pwr.thermClk ≤ 500 ∧
    belowEntry 1 90 (temps 85) = true ∧ belowEntry 2 95 (temps 90) = true ∧ belowEntry 1 95 (temps 90) = false ∧
    100 ≤ (hot 500).pwr.atFloor ∧ 110 ≤ 110 ∧ 105 ≤ hottest (temps 105) ∧ 2400 < 2401 ∧ 0 < on.pwr.boot.stage := by decide +kernel

theorem meets_RailsAndPinsChange :
    let dark := powered fun x => { x with standby := false }
    let waiting := powered fun x => { x with pwrEn := false, pgood := false, input := 2 }
    dark.pwr.standby = false ∧ waiting.pwr.standby = true ∧ waiting.pwr.pwrEn = false ∧ on.pwr.standby = true ∧ on.pwr.pwrEn = true ∧ on.pwr.pgood = true ∧
    on.pwr.input = 0 ∧ (3599 < 3600 ∨ 6300 < 3599) ∧ (6301 < 3600 ∨ 6300 < 6301) ∧ (3600 ≤ 3600 ∧ 3600 ≤ 6300 ∧ 3600 < 4000) ∧ (4000 ≤ 6000) ∧
    (3600 ≤ 6300 ∧ 6000 < 6300) := by decide +kernel

/-- A measurement of `n` times 0.1 W. -/
def watts (n : Nat) : Measured := ⟨n, 5200, 1400, 30, 40, 20, temps 20⟩

theorem meets_PowerCapAndSideband_1 :
    let floor := fun c => powered fun x => { x with powClk := 500, powCap := c }
    let power := fun n => max (watts n).pin (predictPower on.pwr.profile on.clock on.pwr.k (on.ports.map (·.link)) act)
    on.watching = true ∧ on.pwr.ready = true ∧ 10 * on.pwr.capWatts - 100 < power 7101 ∧ 500 < on.pwr.powClk ∧
    (floor 16).watching = true ∧ (floor 16).pwr.ready = true ∧ (floor 16).pwr.powClk ≤ 500 ∧ 8 < (floor 9).pwr.powCap ∧ (floor 8).pwr.powCap ≤ 8 ∧
    10 * (floor 8).pwr.capWatts = 10 * on.pwr.capWatts ∧ power 7100 ≤ 10 * on.pwr.capWatts - 100 ∧ 10 * on.pwr.capWatts - 100 < power 7100 + 300 := by
  decide +kernel

theorem meets_PowerCapAndSideband_2 :
    on.dataSide = true ∧ (leNat [0x90, 0x01] % 2 ^ 11 = 0 ∨ 400 ≤ leNat [0x90, 0x01] % 2 ^ 11 ∧ leNat [0x90, 0x01] % 2 ^ 11 ≤ profileWatts on.pwr.profile) ∧
    ([0x90, 0x01] : List Byte).length = 2 ∧ on.sbReg 0x20 = some (2, 0) ∧ ([0x90] : List Byte).length ≠ 2 ∧ on.pwr.standby = true ∧
    State.reset.dataSide = false ∧ (powered fun x => { x with alert := true }).pwr.alert = true := by decide +kernel

theorem meets_PowerCapAndSideband_3 :
    let s := { on with smScrub := [0, sharedBytes / 16 - 1, 0, 0] }
    s.runs = true ∧ (1 : Nat) < 4 ∧ nth 0 s.smScrub 1 < sharedBytes / 16 ∧ s.readErrors (sharedBase 1 + 16 * nth 0 s.smScrub 1) 16 = (0, 0) := by decide +kernel

end Sys2Proof.Tests
end

section
/-!
PROOFS. What every command keeps, from what its operations keep (Sys2Proof/Laws/Keeps*.lean); which commands answer, and that one
which names no object of the module does nothing; the commands of the mailbox that complete at once.
-/

open Sys2Proof Sys2Proof.Machine

namespace Sys2Proof.Machine

/-- `Keeps` of the next state that an outcome answers. -/
def KeepsNext (m f w : Bool) (s : State) (x : Host.Outcome State Fault Refusal) : Prop := ∀ t, x = .next t → Keeps m f w s t

namespace KeepsNext

variable {m f w : Bool} {s t : State}

theorem next (h : Keeps m f w s t) : KeepsNext m f w s (.next t) := by
  rintro _ ⟨⟩
  exact h

theorem guarded {ok : Bool} (h : Keeps m f w s t) : KeepsNext m f w s (s.guarded ok t) := next (.ite (fun _ => h) fun _ => .refl s)

theorem running (h : Keeps m f w s t) : KeepsNext m f w s (.next (s.whileOn t)) := next (.ite (fun _ => h) fun _ => .refl s)

theorem object {ok : Bool} (h : Keeps m f w s t) : KeepsNext m f w s (s.guarded ok (s.whileOn t)) :=
  guarded (.ite (fun _ => h) fun _ => .refl s)

theorem command {o : Org} {k : State → Nat → State} (hk : ∀ u p, Keeps m f w s u → Keeps m f w s (k u p)) :
    KeepsNext m f w s (.next (s.asCommand o k)) := next (.asCommand o k hk (.refl s))

theorem action {ok : Bool} {c : Nat} {kind : Sect → Bool} {act : TC → TC} (ha : ∀ x, Twf x → Twf (act x)) :
    KeepsNext false f w s (s.guarded ok (s.whileOn (s.coreStarts c kind act))) := object (.coreStarts c kind ha (.refl s))

end KeepsNext

/-- Every command keeps the queue, the grade, canonical memory, the eight ports and the security version, and, where it is in none of
the three lists of Obligations.lean, also memory, the flash and fuses, and the power part. -/
theorem exec_keeps (i : Instr) (s : State) :
    KeepsNext (!i.mayWriteMemory) (!i.mayWriteFlash) (!i.mayChangePower) s (exec i s) := by
  cases i with
  | regionDefine => exact .command fun _ _ h => h.doRegionDefine _ _ _ _
  | regionRelease => exact .command fun _ _ h => h.doRegionRelease _ _ _
  | moveStreamConfigWrite => exact .next (.ite (fun _ => .partWrite _ _ _ (.refl s)) fun _ => .partWrite _ _ _ (.refl s))
  | moveStreamEnable | moveStreamDisable | moveStreamAbort | watchdogWrite | snapshotAck | chipFlagSet | chipFlagClear
  | scoresheetEnable | scoresheetDisable | ringStepAbort => exact .next (.partWrite _ _ _ (.refl s))
  | moveFetch => exact .object (.moveFetch _ (.refl s))
  | laneDispatch => exact .running (.laneDispatch (.refl s))
  | laneStart => exact .object (.laneStart _ _ (.refl s))
  | laneFwaitPass => exact .object (.fwaitPass _ _ (.refl s))
  | reconfDrainEnd => exact .object (.drainEnd _ _ (.refl s))
  | reconfFreezeEnd => exact .object (.freezeEnd _ _ (.refl s))
  | reconfTablesEnd => exact .object (.tablesRead _ _ _ (.refl s))
  | reconfCheckEnd => exact .object (.checkEnd _ _ (.refl s))
  | bookSectionUnit => exact .object (.bookUnit _ (.refl s))
  | reconfSectionsEnd => exact .object (.sectionsRead _ _ _ (.refl s))
  | reconfRegistersEnd => exact .object (.registersEnd _ _ (.refl s))
  | reconfRelease => exact .object (.reconfRelease _ _ (.refl s))
  | tempoGrant => exact .object (.tempoGrant _ _ (.refl s))
  | tempoExecute => exact .object (.tempoExecute _ _ _ (.refl s))
  | laneRetire => exact .object (.ite (fun _ => .retireLane _ _ (.refl s)) fun _ => .refl s)
  | jobStopDrainEnd => exact .object (.ite (fun _ => .stopEnd _ (.refl s)) fun _ => .refl s)
  | wload | stream | aclr => exact .action fun _ h => h.startMat _ _
  | vectorChainProgram => exact .action fun _ h => h.startVec _
  | routeSetLoad => exact .action fun _ h => h.startRte _
  | flagSet | flagClear => exact .action fun _ h => h.startFlag _
  | flagOpArrive => exact .object (.flagArrive _ _ _ _ (.refl s))
  | pair | deliver | tokgen => exact .action fun _ h => h.startSteer _
  | cursor | castle | dmain | dmaout | smreq | rotate => exact .action fun _ h => h.startMem _
  | streamRequest => exact .object (.streamRequest _ (.refl s))
  | smReadEntry => exact .object (.smRead _ _ (.refl s))
  | streamWriteEntry => exact .object (.smWrite _ (.refl s))
  | bind => exact .object (.bind _ _ (.refl s))
  | unbind => exact .object (.unbind _ _ (.refl s))
  | creditGrant => exact .running (.creditGrant _ (.refl s))
  | outputStoreSend => exact .object (.storeSend _ _ (.refl s))
  | flitForward => exact .object (.flitForward _ _ (.refl s))
  | entryArrival => exact .object (.entryArrival _ (.refl s))
  | linkReplay => exact .object (.linkReplay _ _ _ (.refl s))
  | stalemate => exact .object (.staleMate _ _ (.refl s))
  | stalemateSnapshotDone => exact .object (.snapshotDone _ (.refl s))
  | qheadLatch => exact .object (.qheadLatch _ (.refl s))
  | scoresheetSample => exact .object (.sheetSample _ (.refl s))
  | barrierArrive => exact .object (.barrierArrive _ (.refl s))
  | barrierTimeout => exact .object (.barTimeout _ (.refl s))
  | stackRead | stackWrite | gather => exact .object (.takeDesc _ _ (.refl s))
  | stackWriteData => exact .object (.writeData _ (.refl s))
  | gatherIndex => exact .object (.gatherIndex _ (.refl s))
  | edgeDelivery => exact .object (.edgeDelivery _ _ (.refl s))
  | stackRequestComplete => exact .object (.requestDone _ (.refl s))
  | matchCommand => exact .object (.takeMatch _ (.refl s))
  | matchQueryEntry => exact .object (.queryEntry _ (.refl s))
  | matchScanStart => exact .object (.issueMulti _ (.scanStart _ (.refl s)))
  | matchPassEnd => exact .object (.passEnd _ _ (.refl s))
  | refresh => exact .object (.refresh _ (.refl s))
  | scrubRead => exact .object (.scrubRead _ _ (.refl s))
  | rowSpared => exact .object (.rowSpared _ _ (.refl s))
  | stackClearDone => exact .object (.stackClearDone _ (.refl s))
  | hstkEccClear | ringTableLoad => exact .guarded (.regCommand _ _ _ (.refl s))
  | coreEccClear | retireRequest => exact .next (.regCommand _ _ _ (.refl s))
  | ringKey => exact .command fun _ _ h => h.doRingKey _ _ _ _
  | ringStep => exact .command fun _ _ h => h.doRingStep _ _ _
  | stepDescriptor => exact .object (.paced _ (.stepDescriptor _ (.refl s)) (.refl s))
  | redFrame => exact .object (.ite (fun _ => .paced _ (.redFrame _ _ (.refl s)) (.refl s)) fun _ => .refl s)
  | bccFrame => exact .object (.ite (fun _ => .paced _ (.bccFrame _ _ (.refl s)) (.refl s)) fun _ => .refl s)
  | bcfFrame => exact .object (.ite (fun _ => .paced _ (.bcfFrame _ _ (.refl s)) (.refl s)) fun _ => .refl s)
  | ackFrame => exact .object (.ite (fun _ => .ackFrame _ _ (.refl s)) fun _ => .refl s)
  | normFrame => exact .object (.ite (fun _ => .normFrame _ _ (.refl s)) fun _ => .refl s)
  | barFrame => exact .object (.ite (fun _ => .barFrame _ _ (.refl s)) fun _ => .refl s)
  | ringResendTimeout => exact .object (.ringResend _ _ _ _ _ (.refl s))
  | ringProgressTimeout => exact .object (.ringTimeout _ (.refl s))
  | priorityResendTimeout => exact .object (.laneResend _ _ (.refl s))
  | updateBlock => exact .object (.paced _ (.updateBlock _ _ (.refl s)) (.refl s))
  | stepComplete => exact .object (.paced _ (.stepDone _ (.refl s)) (.refl s))
  | init => exact .guarded (.initMsg _ _ (.refl s))
  | confirm => exact .guarded (.confirmMsg _ _ (.refl s))
  | halfOpenExpiry => exact .object (.halfOpenExpiry _ _ (.refl s))
  | ack => exact .object (.ackMsg _ _ (.refl s))
  | keepalive => exact .object (.keepaliveMsg _ _ (.refl s))
  | close | mbox | dopen | dwrite => exact .object (.reliable _ _ _ (.refl s))
  | ranowAckTimer => exact .running (.ackTimer _ (.refl s))
  | ranowRetransmit => exact .running (.retransmit _ _ (.refl s))
  | sessionTimeout => exact .running (.sessionTimeout _ (.refl s))
  | arpRequest => exact .guarded (.arpRequest _ _ _ (.refl s))
  | echoRequest => exact .guarded (.echoRequest _ _ (.refl s))
  | foreignFrame => exact .guarded (.foreignFrame _ (.refl s))
  | commandRecordTake => exact .next (.recordTake _ (.refl s))
  | nop => exact .command fun _ _ h => h.doNop _
  | subscribe => exact .command fun _ _ h => h.doSubscribe _ _
  | sessionInfo => exact .command fun _ _ h => h.doSessionInfo _
  | regRead => exact .command fun _ _ h => h.doRegRead _ _ _ _ _ _
  | regWrite | registerWrite => exact .command fun _ _ h => h.doRegWrite _ _ _ _ _ _
  | jobAbort => exact .command fun _ _ h => h.doJobAbort _ _ _
  | matchMulti => exact .command fun _ _ h => h.doMatchMulti _ _ _ _ _ _
  | matchMultiMerge => exact .running (.multiMerge _ (.refl s))
  | dread => exact .running (.dread _ _ (.refl s))
  | grantSet => exact .command fun _ _ h => h.doGrantSet _ _ _
  | partDelete => exact .command fun _ _ h => h.doPartDelete _ _ _
  | grantRead => exact .command fun _ _ h => h.doGrantRead _ _ _
  | hostkeySet => exact .command fun _ _ h => h.doHostkeySet _ _ _ _ _ _
  | imageLoad => exact .command fun _ _ h => h.doImageLoad _ _ _ _ _ _
  | attest => exact .command fun _ _ h => h.doAttest _ _ _ _
  | certRead => exact .command fun _ _ h => h.doCertRead _ _ _
  | fwStage => exact .command fun _ _ h => h.doFwStage _ _ _ _
  | fwPromote => exact .command fun _ _ h => h.doFwPromote _ _ _ _ _
  | fwCancel => exact .command fun _ _ h => h.doFwCancel _ _
  | setRead => exact .command fun _ _ h => h.doSetRead _ _ _
  | setWrite => exact .command fun _ _ h => h.doSetWrite _ _ _ _
  | restart => exact .command fun _ _ h => h.doRestart _ _ _ _
  | activationDecision => exact .running (.decide_ _ (.refl s))
  | activationDeferred => exact .running (.activationLate (.refl s))
  | start => exact .next (.start _ (.refl s))
  | startTimeout => exact .next (.startLate _ (.refl s))
  | linkUp => exact .guarded (.linkUp _ (.refl s))
  | thermalWarning => exact .next (.thermalWarning _ _ (.refl s))
  | thermalThrottle => exact .next (.thermalThrottle _ _ (.refl s))
  | throttleStep => exact .next (.throttleStep (.refl s))
  | thermalTrip => exact .next (.thermalTrip _ _ (.refl s))
  | thermalClear => exact .next (.thermalClear _ _ (.refl s))
  | thermalClockRamp => exact .next (.clockRamp (.refl s))
  | inputVoltage => exact .next (.inputVoltage _ (.refl s))
  | inputOutOfRange => exact .next (.inputOut _ (.refl s))
  | overcurrentTrip => exact .next (.overcurrent _ (.refl s))
  | standbyUp => exact .next (.standbyUp _ (.refl s))
  | pwrEnRise => exact .next (.pwrEnRise (.refl s))
  | powerDown => exact .next (.powerDown (.refl s))
  | railFault => exact .next (.railFaults (.refl s))
  | resetPin => exact .next (.resetPin (.refl s))
  | refclkLoss => exact .next (.refclkLoss (.refl s))
  | powerCapTick => exact .next (.capTick _ _ (.refl s))
  | powerModelUpdate => exact .next (.modelUpdate _ _ (.refl s))
  | sbPwrlimWrite | smbusBlockWrite => exact .next (.blockWrite _ _ _ (.refl s))
  | smbusStatusRead | smbusBlockRead => exact .next (.blockRead _ (.refl s))
  | smbusAlertResponse => exact .next (.alertResponse (.refl s))
  | stackRequesterCompletion => exact .object (.paced _ (.requester _ _ _ (.refl s)) (.refl s))
  | linkDown => exact .guarded (.linkDown _ (.refl s))
  | standbyRailDown => exact .next (.standbyDown (.refl s))
  | deferredCommandEnd => exact .running (.deferredEnd _ _ (.refl s))
  | sharedMemoryScrub => exact .object (.sharedScrub _ _ (.refl s))
  | smbusClockLowTimeout => exact .next (.clockLow (.refl s))
  | unmatchedRingFrame => exact .object (.ite (fun _ => .foreignB _ (.refl s)) fun _ => .refl s)
  | transmitterFrameEnd => exact .object (.transmitEnd _ (.refl s))

/-- A sound state, of its two parts. -/
theorem sound_iff {s : State} : s.sound = true ↔ s.mem.wf = true ∧ s.ports.length = 8 := by simp [State.sound]

theorem Keeps.sound {m f w : Bool} {s t : State} (h : Keeps m f w s t) (hs : s.sound = true) : t.sound = true := by
  obtain ⟨hm, hp⟩ := sound_iff.mp hs
  exact sound_iff.mpr ⟨h.wf hm, h.ports hp⟩

/-- Settles O5: a step is a command or a fabric cycle, and each keeps memory canonical and the ports eight. -/
theorem stepKeepsSound : Obligations.StepKeepsSound := by
  intro s t hs ht
  unfold step at ht
  split at ht
  · cases ht
    exact (Keeps.tick (φ := false) (π := false) (.refl s)).sound hs
  · next c rest _ =>
    exact (exec_keeps c { s with pending := rest } t ht).sound hs

/-- Settles O6: no operation of a command touches the queue or the grade. -/
theorem commandsKeepQueueAndGrade : Obligations.CommandsKeepQueueAndGrade := by
  intro i s t h
  have hk := exec_keeps i s t h
  exact ⟨hk.pending, hk.grade⟩

/-- Every command is guarded by the existence of what it names; one that names no numbered object is guarded by nothing. -/
theorem exec_eq_guarded (i : Instr) (s : State) : ∃ t, exec i s = s.guarded (s.has i) t := by
  cases i <;> exact ⟨_, rfl⟩

/-- Settles O11: an outcome that is guarded is a next state, and the old one where the guard fails. -/
theorem everyCommandAnswers : Obligations.EveryCommandAnswers := by
  intro i s
  obtain ⟨t, ht⟩ := exec_eq_guarded i s
  refine ⟨⟨_, ht⟩, fun h => ?_⟩
  rw [ht, h, guarded_false]

end Sys2Proof.Machine
end

section
/-!
PROOFS. The commands of the mailbox that complete at once (R390-R394, R400, R425, R426, R436).
-/

open Sys2Proof Sys2Proof.Machine

namespace Sys2Proof.Machine

theorem serves_session {s : State} {n : Nat} {x : Sess} (h : s.serves n = some x) : s.session n = some x := by
  unfold State.serves at h
  split at h
  · cases h
  · next y hy =>
    split at h
    · cases h
      exact hy
    · cases h

/-- A command of the mailbox, of a session that the module serves, runs in the session's partition. -/
theorem exec_of_servedBy {s : State} {o : Org} {p : Nat} {i : Instr} {k : State → Nat → State} (h : s.servedBy o p)
    (he : exec i s = .next (s.asCommand o k)) : exec i s = .next (k s p) := by
  obtain ⟨x, hx, rfl⟩ := h
  rw [he, asCommand_of_serves hx]

section RegRead

variable {s : State} {p a w n : Nat}

/-- What a REG_READ has read, after the words at these addresses: the state, the bytes, and whether all were correctable. -/
def State.readWords (s : State) (p w : Nat) (as : List Nat) : State × List Byte × Bool :=
  as.foldl (fun (acc : State × List Byte × Bool) x =>
    ((acc.1.regRead p x w).1, acc.2.1 ++ natLe w (acc.1.regRead p x w).2.1, acc.2.2 && (acc.1.regRead p x w).2.2)) (s, [], true)

theorem regReads_of_readable (hok : ∀ i < n, s.regOk p (a + i * w) w = true)
    (hcore : ∀ i < n, ∀ c, s.coreMemAt p (a + i * w) = some c → s.coreBusy c = false) (hstk : ∀ i < n, s.stackBusy (a + i * w) = false) :
    s.regReads p a w n =
      let r := s.readWords p w ((List.range n).map fun i => a + i * w)
      if r.2.2 then (r.1, Code.ok, r.2.1) else (r.1, Code.uncorrectableData, []) := by
  unfold State.regReads
  dsimp only
  rw [if_neg, if_neg, if_neg]
  · rfl
  · simpa using hstk
  · intro h
    obtain ⟨i, hi, hbusy⟩ := by simpa only [List.any_map, List.any_eq_true, List.mem_range] using h
    dsimp only [Function.comp] at hbusy
    split at hbusy
    · next c hc => simp [hcore i hi c hc] at hbusy
    · cases hbusy
  · simpa using hok

theorem doRegRead_of_size (o : Org) (us : List Upset) (h1 : 1 ≤ n) (h64 : n ≤ 64) (hw : w = 4 ∨ w = 8) :
    s.doRegRead o p a w n us =
      if Upset.bus ∈ us then
        s.complete o 0x0010 (if (List.range n).all fun i => s.regOk p (a + i * w) w then Code.uncorrectableData else Code.badArgument) []
      else (s.regReads p a w n).1.complete o 0x0010 (s.regReads p a w n).2.1 (s.regReads p a w n).2.2 := by
  unfold State.doRegRead
  rw [if_neg (by omega)]
  simp only [List.contains_iff_mem]

end RegRead

section RegWrite

variable {s : State} {p a w : Nat}

theorem doRegWrite_of_ok (o : Org) (v : Nat) {us : List Upset} (h : s.regOk p a w = true) (hb : Upset.bus ∉ us) :
    s.doRegWrite o p a w v us = (s.regWrite p a w v).1.complete o 0x0011 (s.regWrite p a w v).2 [] := by
  simp [State.doRegWrite, h, hb]

theorem doRegWrite_of_bus (o : Org) (v : Nat) {us : List Upset} (h : s.regOk p a w = true) (hb : Upset.bus ∈ us) :
    s.doRegWrite o p a w v us = s.complete o 0x0011 Code.uncorrectableData [] := by
  simp [State.doRegWrite, h, hb]

theorem doRegWrite_of_not_ok (o : Org) (v : Nat) (us : List Upset) (h : s.regOk p a w = false) :
    s.doRegWrite o p a w v us = s.complete o 0x0011 Code.badArgument [] := by
  simp [State.doRegWrite, h]

@[simp] theorem mend_mem (s : State) (a n : Nat) : (s.mend a n).mem = s.mem := by
  unfold State.mend
  split <;> rfl

@[simp] theorem natLe_length (n x : Nat) : (natLe n x).length = n := by
  induction n generalizing x with
  | zero => rfl
  | succ n ih => simp [natLe, ih]

/-- A write into the memory of a core whose region does not forbid it (R214). -/
theorem regWrite_coreMem {c : Nat} (v : Nat) (hc : s.coreMemAt p a = some c) (hb : s.coreBusy c = false) (hw : w = 4 ∨ w = 8) :
    s.regWrite p a w v = ({ s with mem := s.mem.write a (natLe w (v % 2 ^ (8 * w))) }.mend a w, Code.ok) := by
  unfold State.regWrite
  obtain rfl | rfl := hw <;> simp [hc, hb]

end RegWrite

section Partition

variable {s : State} {p q : Nat}

theorem doGrantRead_of_reach (o : Org) (hp : p = 0 ∨ q = p) (hq : q ∈ s.defined) :
    s.doGrantRead o p q = s.complete o 0x0102 Code.ok ((s.part q).grant.bytes q) := by
  unfold State.doGrantRead
  rw [if_neg (by omega), if_neg (by simpa using hq)]

theorem doGrantRead_of_foreign (o : Org) (hp : p ≠ 0) (hq : q ≠ p) : s.doGrantRead o p q = s.complete o 0x0102 Code.notPermitted [] :=
  if_pos ⟨hp, hq⟩

theorem doHostkeySet_of_foreign (o : Org) (slot op : Nat) (key : List Byte) (hp : p ≠ 0) (hq : q ≠ p) :
    s.doHostkeySet o p q slot op key = s.complete o 0x0103 Code.notPermitted [] := if_pos ⟨hp, hq⟩

/-- The end of a HOSTKEY_SET, from the outcome of its write of the settings: the slot takes the key where the flash took the write. -/
def State.hostkeyEnd (o : Org) (q slot : Nat) (v : List Byte) (w : State × Bool) : State :=
  (if w.2 then w.1.modPart q fun x => { x with keys := SMap.set [] x.keys slot v } else w.1).complete o 0x0103 (writeCode w.2) []

theorem hostkeyEnd_of_written (o : Org) (slot : Nat) (v : List Byte) {w : State × Bool} (h : w.2 = true) :
    State.hostkeyEnd o q slot v w =
      (w.1.modPart q fun x => { x with keys := SMap.set [] x.keys slot v }).complete o 0x0103 Code.ok [] := by
  simp [State.hostkeyEnd, writeCode, h]

theorem hostkeyEnd_of_failed (o : Org) (slot : Nat) (v : List Byte) {w : State × Bool} (h : w.2 = false) :
    State.hostkeyEnd o q slot v w = w.1.complete o 0x0103 Code.flashWriteFail [] := by
  simp [State.hostkeyEnd, writeCode, h]

/-- A HOSTKEY_SET of a slot of a partition that the sender reaches comes to a write of the settings: with OP 1 the key is put in, with
OP 0 it is dropped (R425). -/
theorem doHostkeySet_of_reach (o : Org) {slot : Nat} (key : List Byte) (hp : p = 0 ∨ q = p) (hq : q ∈ s.defined) (hs : slot ≤ 3) :
    s.doHostkeySet o p q slot 1 key = State.hostkeyEnd o q slot (padTo 57 key)
        (s.writeSettings (setItem s.inForce.items (4, natLe 1 q ++ natLe 1 slot ++ padTo 57 key))) ∧
    s.doHostkeySet o p q slot 0 key = State.hostkeyEnd o q slot []
        (s.writeSettings (dropItem s.inForce.items (itemKey (4, natLe 1 q ++ natLe 1 slot ++ [])))) := by
  unfold State.doHostkeySet
  constructor <;> rw [if_neg (by omega), if_neg (by simp [hq, hs])] <;> rfl

end Partition

theorem doCertRead_of_fits {s : State} {p dest : Nat} (o : Org) (h64 : dest % 64 = 0) (hin : s.sharedIn p dest 224 = true) :
    s.doCertRead o p dest = (s.viewWrite p dest s.certificate).complete o 0x0121 Code.ok [] := by
  simp [State.doCertRead, h64, hin]

/-- Settles O53: each command, run in the partition of the session that sent it, by the branch of its meaning that the premises pick. -/
theorem mailboxCommandsComplete : Obligations.MailboxCommandsComplete := by
  refine ⟨?nop, ?subscribe, ?sessionInfo, ?regRead, ?regWrite, ?reach, ?foreign, ?certRead⟩
  case nop =>
    intro s o p h
    rw [exec_of_servedBy h rfl, State.doNop]
  case subscribe =>
    intro s o p mask h
    rw [exec_of_servedBy h rfl, State.doSubscribe]
  case sessionInfo =>
    intro s o x hx
    rw [exec_of_servedBy ⟨x, hx, rfl⟩ rfl]
    simp only [State.doSessionInfo, serves_session hx]
  case regRead =>
    intro s o p a w n h h1 h64 hw hok hcore hstk r
    have hr : s.regReads p a w n = if r.2.2 then (r.1, Code.ok, r.2.1) else (r.1, Code.uncorrectableData, []) :=
      regReads_of_readable hok hcore hstk
    refine ⟨fun us hus => ⟨fun hg => ?_, fun hg => ?_⟩, fun us hus => ?_⟩ <;>
      rw [exec_of_servedBy h rfl, doRegRead_of_size o us h1 h64 hw]
    · rw [if_neg hus, hr, if_pos hg]
    · rw [if_neg hus, hr, if_neg (by simp [hg])]
    · rw [if_pos hus, if_pos (by simpa using hok)]
  case regWrite =>
    intro s o p a w v us h
    have hw : exec (.regWrite o a w v us) s = .next (s.doRegWrite o p a w v us) := by
      rw [exec_of_servedBy h rfl]
    have hw' : exec (.registerWrite o a w v us) s = .next (s.doRegWrite o p a w v us) := by
      rw [exec_of_servedBy h rfl]
    rw [hw, hw']
    refine ⟨fun hok hus => ?_, fun hok hus => ?_, fun hok => ?_, fun c hc hb hsize => ?_⟩
    · rw [doRegWrite_of_ok o v hok hus]
      exact ⟨rfl, rfl⟩
    · rw [doRegWrite_of_bus o v hok hus]
      exact ⟨rfl, rfl⟩
    · rw [doRegWrite_of_not_ok o v us hok]
      exact ⟨rfl, rfl⟩
    · rw [regWrite_coreMem v hc hb hsize]
      refine ⟨rfl, mend_mem _ _ _, fun b hout => ?_⟩
      rw [mend_mem]
      exact Memory.byte_write_of_outside _ (by simpa using hout)
  case reach =>
    intro s o p q h hp hq
    refine ⟨by rw [exec_of_servedBy h rfl, doGrantRead_of_reach o hp hq], ?_⟩
    intro slot key hs set drop
    obtain ⟨hset, hdrop⟩ := doHostkeySet_of_reach o key hp hq hs
    have h1 : exec (.hostkeySet o q slot 1 key) s = .next (State.hostkeyEnd o q slot (padTo 57 key) set) := by
      rw [exec_of_servedBy h rfl, hset]
    have h0 : exec (.hostkeySet o q slot 0 key) s = .next (State.hostkeyEnd o q slot [] drop) := by
      rw [exec_of_servedBy h rfl, hdrop]
    rw [h1, h0]
    exact ⟨fun e => by rw [hostkeyEnd_of_written o slot _ e], fun e => by rw [hostkeyEnd_of_written o slot _ e],
      fun e => by rw [hostkeyEnd_of_failed o slot _ e], fun e => by rw [hostkeyEnd_of_failed o slot _ e]⟩
  case foreign =>
    intro s o p q slot op key h hp hq
    exact ⟨by rw [exec_of_servedBy h rfl, doGrantRead_of_foreign o hp hq],
      by rw [exec_of_servedBy h rfl, doHostkeySet_of_foreign o slot op key hp hq]⟩
  case certRead =>
    intro s o p dest h h64 hin
    rw [exec_of_servedBy h rfl, doCertRead_of_fits o h64 hin]

end Sys2Proof.Machine
end

section
/-!
PROOFS. Rules that the proofs about regions, move streams and sequencers share: what an update of a partition leaves of its parts, and
how a command comes to its meaning.
-/

open Sys2Proof Sys2Proof.Machine

namespace Sys2Proof.Machine

section Updates

variable (s : State) (p q r i : Nat)

/-- An update of a partition is what it makes of the partition as it stands. -/
theorem modPart_congr {s : State} {p : Nat} {f g : Part → Part} (h : f (s.part p) = g (s.part p)) : s.modPart p f = s.modPart p g := by
  unfold State.modPart
  rw [h]

/-- An update of a region is what it makes of the region as it stands. -/
theorem modRegion_congr {s : State} {p r : Nat} {f g : Region → Region} (h : f (s.region p r) = g (s.region p r)) :
    s.modRegion p r f = s.modRegion p r g :=
  modPart_congr (congrArg ((s.part p).setRegion r) h)

theorem part_modPart_of_ne {p q : Nat} (f : Part → Part) (h : q ≠ p) : (s.modPart p f).part q = s.part q := by rw [part_modPart, if_neg h]

theorem part_modRegion_of_ne {p q : Nat} (f : Region → Region) (h : q ≠ p) : (s.modRegion p r f).part q = s.part q := part_modPart_of_ne _ _ h

theorem part_modRegion_same (f : Region → Region) : (s.modRegion p r f).part p = (s.part p).setRegion r (f (s.region p r)) :=
  part_modPart_same _ _ _

@[simp] theorem job_modRegion (f : Region → Region) : ((s.modRegion p r f).part q).job = (s.part q).job := by
  by_cases h : q = p
  · subst h; rw [part_modRegion_same]; rfl
  · rw [part_modRegion_of_ne _ _ _ h]

@[simp] theorem ms_modRegion (f : Region → Region) : ((s.modRegion p r f).part q).ms = (s.part q).ms := by
  by_cases h : q = p
  · subst h; rw [part_modRegion_same]; rfl
  · rw [part_modRegion_of_ne _ _ _ h]

@[simp] theorem aborts_modRegion (f : Region → Region) : ((s.modRegion p r f).part q).aborts = (s.part q).aborts := by
  by_cases h : q = p
  · subst h; rw [part_modRegion_same]; rfl
  · rw [part_modRegion_of_ne _ _ _ h]

theorem region_modRegion_of_ne {s : State} {p r q i : Nat} (f : Region → Region) (h : ¬(q = p ∧ i = r)) :
    (s.modRegion p r f).region q i = s.region q i := by rw [region_modRegion, if_neg h]

/-- An update of a partition that keeps its regions keeps every region. -/
theorem region_modPart {f : Part → Part} (h : (f (s.part p)).regions = (s.part p).regions) : (s.modPart p f).region q i = s.region q i := by
  unfold State.region Part.region
  rw [part_modPart]
  split
  · next e => rw [e, h]
  · rfl

@[simp] theorem region_modMs (f : Stream → Stream) : (s.modMs p f).region q i = s.region q i := region_modPart s p q i rfl

@[simp] theorem region_modJob (f : Job → Job) : (s.modJob p f).region q i = s.region q i := region_modPart s p q i rfl

end Updates

section Commands

variable {s t : State}

/-- A command of the fabric whose object exists runs while the module runs. -/
theorem exec_of_runs {i : Instr} {ok : Bool} (hr : s.runs = true) (hok : ok = true) (he : exec i s = s.guarded ok (s.whileOn t)) :
    exec i s = .next t := by rw [he, hok, guarded_true, whileOn_of_runs s t hr]

/-- A command of a region's sequencer. -/
theorem exec_of_live {i : Instr} {p r : Nat} (h : s.live p r)
    (he : exec i s = s.guarded (decide (p < 8) && decide (r < 256)) (s.whileOn t)) : exec i s = .next t := by
  obtain ⟨hr, hp, hr256⟩ := h
  exact exec_of_runs hr (by simp [hp, hr256]) he

/-- A command at a core. -/
theorem exec_of_onCore {i : Instr} {f k : Nat} (h : s.onCore f k) (he : exec i s = s.guarded (coreActive s.grade f k) (s.whileOn t)) :
    exec i s = .next t := exec_of_runs h.1 h.2 he

/-- A register command to the block of the sender's own partition. -/
theorem partWrite_of_servedBy {o : Org} {p ofs w c : Nat} (h : s.servedBy o p) (hp : p < 8) (ho : ofs < 0x10000) (h4 : ofs % 4 = 0)
    (hr : s.partReg p ofs = some (w, c)) (hw : w = 4 ∨ w = 8) (v : Part → Nat) :
    s.partWrite o ofs v = (s.writePart p ofs (v (s.part p) % 2 ^ (8 * w))).1.complete o 0x0011
      (s.writePart p ofs (v (s.part p) % 2 ^ (8 * w))).2 [] := by
  obtain ⟨x, hx, rfl⟩ := h
  exact partWrite_eq hx hp ho h4 hr hw v

end Commands

end Sys2Proof.Machine
end

section
/-!
PROOFS. Region commands (R47-R54, R105, R215, R391, R395): what the definition and the release of a region leave in the book, in its
cores and in their memories, and how the commands complete.
-/

open Sys2Proof Sys2Proof.Machine

namespace Sys2Proof.Machine

section Folds

variable {α β : Type} {k : State → α → State}

/-- What every step of a fold keeps, the fold keeps. -/
theorem foldl_keeps {g : State → β} (hk : ∀ u a, g (k u a) = g u) (l : List α) (s : State) : g (l.foldl k s) = g s := by
  induction l generalizing s with
  | nil => rfl
  | cons a l ih => exact (ih _).trans (hk s a)

/-- What a step brings about for its own element and keeps for every other, the fold brings about for every element of the list. -/
theorem foldl_brings {P : State → α → Prop} (own : ∀ u a, P (k u a) a) (keeps : ∀ u a b, P u b → P (k u a) b) {l : List α} {b : α}
    (hb : b ∈ l) (s : State) : P (l.foldl k s) b := by
  have kept : ∀ (l : List α) (u : State), P u b → P (l.foldl k u) b := by
    intro l
    induction l with
    | nil => exact fun _ h => h
    | cons a l ih => exact fun u h => ih _ (keeps u a b h)
  induction l generalizing s with
  | nil => cases hb
  | cons a l ih =>
    obtain rfl | hb := List.mem_cons.mp hb
    · exact kept l _ (own s b)
    · exact ih hb _

end Folds

section Clearing

variable (s : State) (p r : Nat) (rect : Rect) (owner : Option (Nat × Nat)) (c d : Nat)

@[simp] theorem mend_core (a n : Nat) : (s.mend a n).core d = s.core d := by
  unfold State.mend
  split <;> rfl

@[simp] theorem mend_book (a n : Nat) : (s.mend a n).book = s.book := by
  unfold State.mend
  split <;> rfl

@[simp] theorem pressure_book : (s.pressure c).book = s.book := by
  unfold State.pressure
  split <;> rfl

@[simp] theorem routeReplaced_book : (s.routeReplaced c r).book = s.book := by
  unfold State.routeReplaced
  split <;> rfl

@[simp] theorem discardRoute_book (x : Src) : (s.discardRoute x).book = s.book := by
  unfold State.discardRoute
  dsimp only
  split <;> simp

@[simp] theorem dropAgentOut_book (kind core q : Nat) : (s.dropAgentOut kind core c q).book = s.book := by
  unfold State.dropAgentOut
  split <;> rfl

theorem releaseSource_book (q : Nat) : (s.releaseSource rect c q).book = s.book := by
  unfold State.releaseSource
  split
  · rfl
  · next x _ =>
    dsimp only
    split
    · split
      · rfl
      · exact discardRoute_book _ _
    · exact dropAgentOut_book _ _ _ _ _

theorem unbindAll_book : (s.unbindAll p rect c).book = s.book := by
  refine foldl_keeps (g := State.book) (fun u b => ?_) _ s
  dsimp only
  split <;> rfl

/-- The clearing of a rectangle up to the point where the cores themselves are cleared: sources and routes let go (R257). -/
def State.unlinkRect (s : State) (p : Nat) (rect : Rect) : State :=
  rect.cores.foldl (fun s c => s.unbindAll p rect c)
    (rect.cores.foldl (fun s c => (List.range 16).foldl (fun s q => s.releaseSource rect c q) s) s)

/-- The clearing of one core and of its memories (R105, R215). -/
def State.clearCore (s : State) (owner : Option (Nat × Nat)) (c : Nat) : State :=
  let s := s.modCore c fun d => d.cleared owner
  { s with mem := s.mem.clear (windowBase c) 0x70000,
           mesh := { s.mesh with credits := s.mesh.credits.filter fun m => !(m.dst.kind == 1 && m.dst.core == c) } }.mend (windowBase c) 0x70000

theorem clearRect_eq : s.clearRect p rect owner = rect.cores.foldl (fun s c => s.clearCore owner c) (s.unlinkRect p rect) := rfl

theorem core_clearCore : (s.clearCore owner c).core d = if d = c then (s.core c).cleared owner else s.core d := by
  unfold State.clearCore
  rw [mend_core]
  exact core_modCore s c d fun x => x.cleared owner

theorem mem_clearCore : (s.clearCore owner c).mem = s.mem.clear (windowBase c) 0x70000 := by
  unfold State.clearCore
  rw [mend_mem]
  rfl

theorem clearCore_book : (s.clearCore owner c).book = s.book := by
  unfold State.clearCore
  rw [mend_book]
  rfl

theorem unlinkRect_book : (s.unlinkRect p rect).book = s.book := by
  unfold State.unlinkRect
  rw [foldl_keeps (g := State.book) fun u c => unbindAll_book u p rect c]
  exact foldl_keeps (g := State.book) (fun u c => foldl_keeps (g := State.book) (fun v q => releaseSource_book v rect c q) _ u) _ s

@[simp] theorem clearRect_book : (s.clearRect p rect owner).book = s.book := by
  rw [clearRect_eq, foldl_keeps (g := State.book) fun u c => clearCore_book u owner c, unlinkRect_book]

/-- Core `c` is as the clearing for `owner` leaves a core, and its core and accumulator memories read as zero. -/
def State.isCleared (s : State) (owner : Option (Nat × Nat)) (c : Nat) : Prop :=
  (∃ x : Core, s.core c = x.cleared owner) ∧ ∀ a, windowBase c ≤ a → a < windowBase c + 0x70000 → s.mem.byte a = 0

theorem clearCore_isCleared : (s.clearCore owner c).isCleared owner c := by
  refine ⟨⟨s.core c, by rw [core_clearCore, if_pos rfl]⟩, fun a h1 h2 => ?_⟩
  rw [mem_clearCore, Memory.byte_clear, if_pos ⟨h1, h2⟩]

theorem clearCore_keeps_isCleared {s : State} {owner : Option (Nat × Nat)} {d : Nat} (h : s.isCleared owner d) :
    (s.clearCore owner c).isCleared owner d := by
  obtain ⟨⟨x, hx⟩, hz⟩ := h
  constructor
  · rw [core_clearCore]
    split
    · exact ⟨_, rfl⟩
    · exact ⟨x, hx⟩
  · intro a h1 h2
    rw [mem_clearCore, Memory.byte_clear]
    split
    · rfl
    · exact hz a h1 h2

theorem clearRect_isCleared {c : Nat} (hc : c ∈ rect.cores) : (s.clearRect p rect owner).isCleared owner c :=
  foldl_brings (P := fun u c => u.isCleared owner c) (fun u c => clearCore_isCleared u owner c) (fun _ c _ h => clearCore_keeps_isCleared c h) hc _

end Clearing

section Define

variable (s : State) (p r : Nat) (rect : Rect)

theorem region_withBook (b : List Staged) (i : Nat) : State.region { s with book := b } p i = s.region p i := rfl

theorem region_releaseRegion : (s.releaseRegion p r).region p r = Region.reset := by
  unfold State.releaseRegion
  dsimp only
  rw [region_withBook, region_modPart _ _ _ _ rfl, region_modRegion_same]

/-- The book that a definition of a region over a rectangle keeps: without the region's setups where the rectangle changes (log entry 19). -/
def State.keptBook (s : State) (p r : Nat) (rect : Rect) : List Staged :=
  if (s.region p r).state = .undefined ∨ (s.region p r).rect = rect then s.book
  else s.book.filter fun x => !(x.part == p && x.region == r)

/-- A definition ends with the clearing of the rectangle, and the making of the region. -/
theorem defineRegion_cleared : ∃ (u : State) (q : Nat), s.defineRegion p r rect =
    (State.clearRect { u with book := s.keptBook p r rect } p rect (some (p, r))).modRegion p r fun _ =>
      { Region.reset with state := .idle, rect := rect, seq := q } := ⟨_, _, rfl⟩

theorem defineRegion_region : ∃ q, (s.defineRegion p r rect).region p r = { Region.reset with state := .idle, rect := rect, seq := q } := by
  obtain ⟨u, q, h⟩ := defineRegion_cleared s p r rect
  exact ⟨q, by rw [h, region_modRegion_same]⟩

theorem defineRegion_book : (s.defineRegion p r rect).book = s.keptBook p r rect := by
  obtain ⟨u, q, h⟩ := defineRegion_cleared s p r rect
  rw [h, modRegion_book, clearRect_book]

theorem defineRegion_isCleared {c : Nat} (hc : c ∈ rect.cores) : (s.defineRegion p r rect).isCleared (some (p, r)) c := by
  obtain ⟨u, q, h⟩ := defineRegion_cleared s p r rect
  rw [h]
  exact clearRect_isCleared _ p rect _ hc

end Define

section RegionCommands

variable {s : State} {p r : Nat}

theorem defineCode_of_busy {rect : Rect} (hf : rect.f0 ≤ rect.f1) (hk : rect.k0 ≤ rect.k1)
    (h : (s.region p r).state = .loading ∨ (s.region p r).state = .running ∨ (s.region p r).state = .held) :
    s.defineCode p r rect = Code.regionBusy := by
  unfold State.defineCode
  rw [if_neg (by omega), if_pos h]

theorem doRegionDefine_of_held (o : Org) (rect : Rect) (h : s.holdsRegion p r = true) :
    s.doRegionDefine o p r rect = s.complete o 0x0020 Code.busy [] := if_pos h

theorem doRegionDefine_of_refused (o : Org) {rect : Rect} (h : s.holdsRegion p r = false) (hc : s.defineCode p r rect ≠ Code.ok) :
    s.doRegionDefine o p r rect = s.complete o 0x0020 (s.defineCode p r rect) [] := by simp [State.doRegionDefine, h, hc]

theorem doRegionDefine_of_ok (o : Org) {rect : Rect} (h : s.holdsRegion p r = false) (hc : s.defineCode p r rect = Code.ok) :
    s.doRegionDefine o p r rect =
      ((s.defineRegion p r rect).modPart p fun x => { x with digs := SMap.set noDigest x.digs r noDigest }).complete o 0x0020 Code.ok [] := by
  simp [State.doRegionDefine, h, hc]

theorem doRegionRelease_of_held (o : Org) (h : s.holdsRegion p r = true) :
    s.doRegionRelease o p r = s.complete o 0x0021 Code.busy [] := if_pos h

theorem doRegionRelease_of_busy (o : Org) (h : s.holdsRegion p r = false)
    (hst : (s.region p r).state = .loading ∨ (s.region p r).state = .running ∨ (s.region p r).state = .held) :
    s.doRegionRelease o p r = s.complete o 0x0021 Code.regionBusy [] := by
  obtain e | e | e := hst <;> simp [State.doRegionRelease, h, e]

theorem doRegionRelease_of_ended (o : Org) (h : s.holdsRegion p r = false)
    (hst : (s.region p r).state = .idle ∨ (s.region p r).state = .ready ∨ (s.region p r).state = .quarantined) :
    s.doRegionRelease o p r =
      ((s.releaseRegion p r).modPart p fun x => { x with digs := SMap.set noDigest x.digs r noDigest }).complete o 0x0021 Code.ok [] := by
  obtain e | e | e := hst <;> simp [State.doRegionRelease, h, e]

end RegionCommands

/-- Settles O14: a busy region or a deferred command refuses at the first test that it fails; the book is filtered exactly where the
rectangle changes. -/
theorem regionCommandsRefuseBusyRegions : Obligations.RegionCommandsRefuseBusyRegions := by
  refine ⟨?busy, ?held, ?moved, ?same⟩
  case busy =>
    intro s o p r rect h hfree hst
    refine ⟨fun hf hk => ?_, ?_⟩
    · have hcode := defineCode_of_busy hf hk hst
      rw [exec_of_servedBy h rfl, doRegionDefine_of_refused o hfree (by rw [hcode]; decide), hcode]
      rfl
    · rw [exec_of_servedBy h rfl, doRegionRelease_of_busy o hfree hst]
      rfl
  case held =>
    intro s o p r rect h hheld
    rw [exec_of_servedBy h rfl, exec_of_servedBy h rfl, doRegionDefine_of_held o rect hheld, doRegionRelease_of_held o hheld]
    exact ⟨rfl, rfl⟩
  case moved =>
    intro s p r rect hdef hrect b hb
    rw [defineRegion_book, State.keptBook, if_neg (by simp [hdef, hrect])] at hb
    have hkept := (List.mem_filter.mp hb).2
    rintro ⟨rfl, rfl⟩
    simp at hkept
  case same =>
    intro s p r _
    rw [defineRegion_book, State.keptBook, if_pos (.inr rfl)]

/-- Settles O15: the commands complete with the operation's state; a definition clears every core of its rectangle and zeroes its
window. -/
theorem regionCommandsComplete : Obligations.RegionCommandsComplete := by
  refine ⟨?define, ?release, ?after⟩
  case define =>
    intro s o p r rect h hfree hcode
    rw [exec_of_servedBy h rfl, doRegionDefine_of_ok o hfree hcode]
  case release =>
    intro s o p r h hfree hst
    rw [exec_of_servedBy h rfl, doRegionRelease_of_ended o hfree hst]
  case after =>
    intro s p r rect
    obtain ⟨q, hq⟩ := defineRegion_region s p r rect
    refine ⟨by rw [hq], by rw [hq], by rw [region_releaseRegion]; rfl, fun c hc => ?_⟩
    obtain ⟨⟨x, hx⟩, hzero⟩ := defineRegion_isCleared s p r rect hc
    rw [hx]
    exact ⟨rfl, rfl, rfl, rfl, hzero⟩

end Sys2Proof.Machine
end

section
/-!
PROOFS. Register commands of the move stream (R64, R65, R70, R281, R394): the words that they write, and what each comes to.
-/

open Sys2Proof Sys2Proof.Machine

namespace Sys2Proof.Machine

section MsCtlWord

theorem b2n_le (b : Bool) : b2n b ≤ 1 := by cases b <;> decide

/-- The word of PART_MSCTL with a size, EN and ABORT (R64). -/
def msctlWord (size : Nat) (en abort : Bool) : Nat := size + 2 ^ 16 * b2n en + 2 ^ 17 * b2n abort

variable {n : Nat} (hn : n < 2 ^ 13) (e a : Bool)

include hn

theorem msctlWord_size : bits (msctlWord n e a) 12 0 = n := by
  cases e <;> cases a <;> simp only [bits, msctlWord, b2n, Nat.shiftRight_zero] <;> simp <;> omega

theorem msctlWord_en : bit (msctlWord n e a) 16 = e := by
  cases e <;> cases a <;> simp [bit, msctlWord, b2n, Nat.shiftRight_eq_div_pow] <;> omega

theorem msctlWord_abort : bit (msctlWord n e a) 17 = a := by
  cases e <;> cases a <;> simp [bit, msctlWord, b2n, Nat.shiftRight_eq_div_pow] <;> omega

theorem msctlWord_lt : msctlWord n e a < 2 ^ 32 := by
  have he := b2n_le e
  have ha := b2n_le a
  unfold msctlWord
  omega

end MsCtlWord

section MsWrites

variable {s : State} {p : Nat}

/-- A write of PART_MSBASE while EN = 0 sets HEAD and TAIL to 0 and unsets the expected SEQ (R65, R70). -/
theorem writeMsBase_of_disabled {v : Nat} (hv : v < 2 ^ 48) (h : (s.part p).ms.en = false) :
    s.writeMsBase p v = (s.modMs p fun m =>
      { m with base := v / 2 ^ 12 * 4096, head := 0, tail := 0, expect := none, fetched := none }, Code.ok) := by
  have hbits : bits v 47 12 = v / 2 ^ 12 := by
    rw [bits, Nat.shiftRight_eq_div_pow]
    omega
  simp [State.writeMsBase, h, hbits]

theorem writeMsBase_of_enabled (v : Nat) (h : (s.part p).ms.en = true) : s.writeMsBase p v = (s, Code.busy) := by simp [State.writeMsBase, h]

/-- The stream after a write of PART_MSCTL.SIZE: a new value unsets the ring's place and SEQ (R65, R70). -/
def State.sized (s : State) (p n : Nat) : State :=
  if n = (s.part p).ms.size % 2 ^ 13 then s
  else s.modMs p fun m => { m with size := n, head := 0, tail := 0, expect := none, fetched := none }

/-- A write of PART_MSCTL that is not refused sets SIZE and EN; ABORT asks for an abort after that (R64). -/
theorem writeMsCtl_of_accepted {n : Nat} (hn : n < 2 ^ 13) {e : Bool} (a : Bool)
    (hsize : n = (s.part p).ms.size % 2 ^ 13 ∨ (s.part p).ms.en = false)
    (hring : e = true → (s.part p).ms.en = false → 1 ≤ n ∧ n ≤ 4096 ∧ s.sharedIn p (s.part p).ms.base (n * 4096) = true) :
    s.writeMsCtl p (msctlWord n e a) =
      let t := (s.sized p n).modMs p fun m => { m with en := e, stopped := if e = true ∧ ¬ m.en = true then false else m.stopped }
      if a then t.abortWrite p else (t, Code.ok) := by
  unfold State.writeMsCtl
  simp only [msctlWord_size hn, msctlWord_en hn, msctlWord_abort hn]
  rw [if_neg, if_neg]
  · rfl
  · rintro ⟨he, hen, hbad⟩
    exact hbad (hring he (by simpa using hen))
  · rintro ⟨hne, hen⟩
    obtain h | h := hsize
    · exact hne h
    · simp [h] at hen

theorem writeMsCtl_of_enabled {n : Nat} (hn : n < 2 ^ 13) (e a : Bool) (hsize : n ≠ (s.part p).ms.size % 2 ^ 13)
    (h : (s.part p).ms.en = true) : s.writeMsCtl p (msctlWord n e a) = (s, Code.busy) := by
  unfold State.writeMsCtl
  simp only [msctlWord_size hn]
  rw [if_pos ⟨hsize, h⟩]

theorem writeMsCtl_of_bad_ring {n : Nat} (hn : n < 2 ^ 13) (a : Bool) (h : (s.part p).ms.en = false)
    (hring : n = 0 ∨ 4096 < n ∨ s.sharedIn p (s.part p).ms.base (n * 4096) = false) :
    s.writeMsCtl p (msctlWord n true a) = (s, Code.badArgument) := by
  unfold State.writeMsCtl
  simp only [msctlWord_size hn, msctlWord_en hn]
  rw [if_neg (by simp [h]), if_pos]
  refine ⟨trivial, by simp [h], ?_⟩
  rintro ⟨h1, h2, hin⟩
  obtain e | e | e := hring
  · omega
  · omega
  · simp [hin] at e

end MsWrites

section Commands

variable {s : State} {o : Org} {p : Nat}

theorem partWrite_msBase (h : s.servedBy o p) (hp : p < 8) {v : Nat} (hv : v < 2 ^ 48) :
    s.partWrite o 0x100 (fun _ => v) = (s.writeMsBase p v).1.complete o 0x0011 (s.writeMsBase p v).2 [] := by
  have h64 : v % 2 ^ (8 * 8) = v := Nat.mod_eq_of_lt (by omega)
  rw [partWrite_of_servedBy h hp (by decide) (by decide) (show s.partReg p 0x100 = some (8, _) from rfl) (.inr rfl), h64]
  rfl

theorem partWrite_msCtl (h : s.servedBy o p) (hp : p < 8) {v : Part → Nat} {n : Nat} (hn : n < 2 ^ 13) {e a : Bool}
    (hv : v (s.part p) = msctlWord n e a) :
    s.partWrite o 0x108 v =
      (s.writeMsCtl p (msctlWord n e a)).1.complete o 0x0011 (s.writeMsCtl p (msctlWord n e a)).2 [] := by
  have h32 : msctlWord n e a % 2 ^ (8 * 4) = msctlWord n e a := Nat.mod_eq_of_lt (msctlWord_lt hn e a)
  rw [partWrite_of_servedBy h hp (by decide) (by decide) (show s.partReg p 0x108 = some (4, _) from rfl) (.inl rfl), hv, h32]
  rfl

/-- MOVE_STREAM_CONFIG_WRITE of a SIZE writes it with the EN in force. -/
theorem exec_configWrite_size (h : s.servedBy o p) (hp : p < 8) {v : Nat} (hv : v < 2 ^ 13) :
    exec (.moveStreamConfigWrite o true v) s = .next ((s.writeMsCtl p (msctlWord v (s.part p).ms.en false)).1.complete o 0x0011
      (s.writeMsCtl p (msctlWord v (s.part p).ms.en false)).2 []) := by
  have he : exec (.moveStreamConfigWrite o true v) s = .next (s.partWrite o 0x108 fun x => v % 2 ^ 13 + 2 ^ 16 * b2n x.ms.en) := rfl
  rw [he]
  exact congrArg Host.Outcome.next (partWrite_msCtl h hp hv (by rw [Nat.mod_eq_of_lt hv]; rfl))

theorem exec_configWrite_base (h : s.servedBy o p) (hp : p < 8) {v : Nat} (hv : v < 2 ^ 48) :
    exec (.moveStreamConfigWrite o false v) s = .next ((s.writeMsBase p v).1.complete o 0x0011 (s.writeMsBase p v).2 []) :=
  congrArg Host.Outcome.next (partWrite_msBase h hp hv)

theorem exec_enable (h : s.servedBy o p) (hp : p < 8) {n : Nat} (hn : n < 2 ^ 13) :
    exec (.moveStreamEnable o n) s = .next ((s.writeMsCtl p (msctlWord n true false)).1.complete o 0x0011
      (s.writeMsCtl p (msctlWord n true false)).2 []) :=
  congrArg Host.Outcome.next (partWrite_msCtl h hp hn (by rw [Nat.mod_eq_of_lt hn]; rfl))

theorem exec_disable (h : s.servedBy o p) (hp : p < 8) :
    exec (.moveStreamDisable o) s = .next ((s.writeMsCtl p (msctlWord ((s.part p).ms.size % 2 ^ 13) false false)).1.complete o 0x0011
      (s.writeMsCtl p (msctlWord ((s.part p).ms.size % 2 ^ 13) false false)).2 []) :=
  congrArg Host.Outcome.next (partWrite_msCtl h hp (Nat.mod_lt _ (by decide)) (by simp [msctlWord, b2n]))

theorem exec_streamAbort (h : s.servedBy o p) (hp : p < 8) :
    exec (.moveStreamAbort o) s = .next ((s.writeMsCtl p (msctlWord ((s.part p).ms.size % 2 ^ 13) (s.part p).ms.en true)).1.complete o 0x0011
      (s.writeMsCtl p (msctlWord ((s.part p).ms.size % 2 ^ 13) (s.part p).ms.en true)).2 []) :=
  congrArg Host.Outcome.next (partWrite_msCtl h hp (Nat.mod_lt _ (by decide)) (by simp [msctlWord, b2n]))

end Commands

/-- Settles O16: each write is one of the registers' own cases, by EN, the value of SIZE and the ring's place. -/
theorem moveStreamRegisterWrites : Obligations.MoveStreamRegisterWrites := by
  refine ⟨?base, ?size, ?busy, ?enable, ?disable⟩
  case base =>
    intro s o p v h hp hv hen
    rw [exec_configWrite_base h hp hv, writeMsBase_of_disabled hv hen]
  case size =>
    intro s o p v h hp hv hne hen
    rw [exec_configWrite_size h hp hv, hen, writeMsCtl_of_accepted hv false (.inr hen) (by simp)]
    rw [State.sized, if_neg hne]
    simp
  case busy =>
    intro s o p v h hp hv hen
    refine ⟨?_, fun hv13 hne => ?_⟩
    · rw [exec_configWrite_base h hp hv, writeMsBase_of_enabled v hen]
    · rw [exec_configWrite_size h hp hv13, writeMsCtl_of_enabled hv13 _ _ hne hen]
  case enable =>
    intro s o p n h hp hn hen
    refine ⟨fun h1 h2 hin => ?_, fun hbad => ?_⟩
    · rw [exec_enable h hp hn, writeMsCtl_of_accepted hn false (.inr hen) fun _ _ => ⟨h1, h2, hin⟩]
      simp [State.sized]
    · rw [exec_enable h hp hn, writeMsCtl_of_bad_ring hn false hen hbad]
  case disable =>
    intro s o p h hp
    rw [exec_disable h hp, writeMsCtl_of_accepted (Nat.mod_lt _ (by decide)) false (.inl rfl) (by simp)]
    simp [State.sized]

end Sys2Proof.Machine
end

section
/-!
PROOFS. The failure and the stop of a job (R95, R96, R297), and its abort (R94, R396).
-/

open Sys2Proof Sys2Proof.Machine

namespace Sys2Proof.Machine

section Stop

theorem part_of_parts {s t : State} (h : t.parts = s.parts) (p : Nat) : t.part p = s.part p := by rw [State.part, h, State.part]

variable (s : State) (p q r job : Nat) (rs : List Nat)

/-- The stop of the regions of a job (R95): no pending lane, no load, no further tempo. -/
def State.stopRegions (s : State) (p : Nat) (rs : List Nat) : State :=
  rs.foldl (fun s r => s.modRegion p r fun g => { g with pend := none, stopping := true, froze := false, stopAt := s.now, load := none }) s

theorem stopRegions_mem : (s.stopRegions p rs).mem = s.mem := foldl_keeps (g := State.mem) (fun u r => modRegion_mem u p r _) rs s

theorem stopRegions_job : ((s.stopRegions p rs).part q).job = (s.part q).job :=
  foldl_keeps (g := fun u => (u.part q).job) (fun _ _ => job_modRegion _ _ _ _ _) rs s

theorem stopRegions_ms : ((s.stopRegions p rs).part q).ms = (s.part q).ms :=
  foldl_keeps (g := fun u => (u.part q).ms) (fun _ _ => ms_modRegion _ _ _ _ _) rs s

theorem stopRegions_aborts : ((s.stopRegions p rs).part q).aborts = (s.part q).aborts :=
  foldl_keeps (g := fun u => (u.part q).aborts) (fun _ _ => aborts_modRegion _ _ _ _ _) rs s

/-- What the stop sets in a region does not depend on how the region stood. -/
theorem region_stopRegions {r : Nat} (hr : r ∈ rs) : ((s.stopRegions p rs).region p r).pend = none ∧
    ((s.stopRegions p rs).region p r).load = none ∧ ((s.stopRegions p rs).region p r).stopping = true := by
  refine foldl_brings (P := fun u r => (u.region p r).pend = none ∧ (u.region p r).load = none ∧ (u.region p r).stopping = true)
    (fun u a => ?_) (fun u a b h => ?_) hr s
  · rw [region_modRegion_same]
    exact ⟨rfl, rfl, rfl⟩
  · rw [region_modRegion]
    split
    · exact ⟨rfl, rfl, rfl⟩
    · exact h

theorem stopRegions_state : ((s.stopRegions p rs).region q r).state = (s.region q r).state := by
  refine foldl_keeps (g := fun u => (u.region q r).state) (fun u a => ?_) rs s
  rw [region_modRegion]
  split
  · next h => rw [h.1, h.2]
  · rfl

theorem stopRegions_run : ((s.stopRegions p rs).region q r).run = (s.region q r).run := by
  refine foldl_keeps (g := fun u => (u.region q r).run) (fun u a => ?_) rs s
  rw [region_modRegion]
  split
  · next h => rw [h.1, h.2]
  · rfl

/-- A region without a load has none after the stop. -/
theorem stopRegions_load (h : (s.region q r).load = none) : ((s.stopRegions p rs).region q r).load = none := by
  induction rs generalizing s with
  | nil => exact h
  | cons a rs ih =>
    refine ih _ ?_
    rw [region_modRegion]
    split
    · rfl
    · exact h

theorem stopRequests_parts : (s.stopRequests p job).parts = s.parts := by
  unfold State.stopRequests
  refine foldl_keeps (g := State.parts) (fun u m => ?_) _ _
  split
  · split <;> rfl
  · rfl

theorem stopRequests_mem : (s.stopRequests p job).mem = s.mem := by
  unfold State.stopRequests
  refine foldl_keeps (g := State.mem) (fun u m => ?_) _ _
  split
  · split <;> rfl
  · rfl

end Stop

section Fail

variable {s : State} {p : Nat} {j : Job}

/-- The partition's part of the stop of its job (R95, R97). -/
def State.stopped (s : State) (p : Nat) (j : Job) : State :=
  ((s.stopRegions p j.regions).modMs p fun m => { Stream.dropMove m with ended := some j.id, skipping := !j.lastSeen }).modJob p fun j =>
    { j with stopping := true }

theorem stopJob_of_job (h : (s.part p).job = some j) : s.stopJob p = (s.stopped p j).stopRequests p j.id := by
  unfold State.stopJob
  rw [h]
  rfl

theorem stopJob_of_no_job (h : (s.part p).job = none) : s.stopJob p = s := by
  unfold State.stopJob
  rw [h]

theorem part_stopJob (h : (s.part p).job = some j) (q : Nat) : (s.stopJob p).part q = (s.stopped p j).part q := by
  rw [stopJob_of_job h]
  exact part_of_parts (stopRequests_parts _ _ _) q

theorem region_stopJob (h : (s.part p).job = some j) (q r : Nat) : (s.stopJob p).region q r = (s.stopRegions p j.regions).region q r := by
  rw [State.region, part_stopJob h]
  change (s.stopped p j).region q r = _
  rw [State.stopped, region_modJob, region_modMs]

theorem stopJob_mem : (s.stopJob p).mem = s.mem := by
  cases h : (s.part p).job with
  | none => rw [stopJob_of_no_job h]
  | some j =>
    rw [stopJob_of_job h, stopRequests_mem]
    exact stopRegions_mem s p j.regions

theorem part_stopJob_same (h : (s.part p).job = some j) : (s.stopJob p).part p =
    { (s.stopRegions p j.regions).part p with
      ms := { (s.part p).ms.dropMove with ended := some j.id, skipping := !j.lastSeen }, job := some { j with stopping := true } } := by
  rw [part_stopJob h, State.stopped, part_modJob, if_pos rfl, part_modMs, if_pos rfl]
  simp only [stopRegions_job, stopRegions_ms, h, Option.map_some]

@[simp] theorem dropMove_fetched (m : Stream) : m.dropMove.fetched = none := by
  unfold Stream.dropMove
  split
  · assumption
  · rfl

variable (code : Nat) (charge core : Option Nat)

/-- The job with its failure entered (R96). -/
abbrev State.failing (s : State) (p code : Nat) (charge core : Option Nat) : State :=
  s.modJob p fun j => { j with fail := some (code, charge, core) }

theorem failing_job (hj : (s.part p).job = some j) :
    ((s.failing p code charge core).part p).job = some { j with fail := some (code, charge, core) } := by
  simp [State.failing, hj]

/-- The first failure of a job stops it (R95, R96). -/
theorem failJob_of_running (hj : (s.part p).job = some j) (hf : j.fail = none) :
    s.failJob p code charge core = (s.failing p code charge core).stopJob p := by
  unfold State.failJob
  rw [hj]
  dsimp only
  rw [hf]

/-- Without a job, or with one that has failed, a failure changes nothing. -/
theorem failJob_of_settled (h : ∀ j, (s.part p).job = some j → j.fail ≠ none) : s.failJob p code charge core = s := by
  unfold State.failJob
  split
  · rfl
  · next j hj =>
    split
    · rfl
    · next hf => exact absurd hf (h j hj)

theorem failJob_cases : s.failJob p code charge core = s ∨
    ∃ j, (s.part p).job = some j ∧ j.fail = none ∧ s.failJob p code charge core = (s.failing p code charge core).stopJob p := by
  by_cases h : ∃ j, (s.part p).job = some j ∧ j.fail = none
  · obtain ⟨j, hj, hf⟩ := h
    exact .inr ⟨j, hj, hf, failJob_of_running code charge core hj hf⟩
  · exact .inl (failJob_of_settled code charge core fun j hj hf => h ⟨j, hj, hf⟩)

theorem failJob_mem : (s.failJob p code charge core).mem = s.mem := by
  obtain h | ⟨j, -, -, h⟩ := failJob_cases (s := s) (p := p) code charge core
  · rw [h]
  · rw [h, stopJob_mem]
    rfl

theorem failJob_job (hj : (s.part p).job = some j) (hf : j.fail = none) :
    ((s.failJob p code charge core).part p).job = some { j with fail := some (code, charge, core), stopping := true } := by
  rw [failJob_of_running code charge core hj hf, part_stopJob_same (failing_job code charge core hj)]

theorem failJob_ms (hj : (s.part p).job = some j) (hf : j.fail = none) :
    ((s.failJob p code charge core).part p).ms = { (s.part p).ms.dropMove with ended := some j.id, skipping := !j.lastSeen } := by
  rw [failJob_of_running code charge core hj hf, part_stopJob_same (failing_job code charge core hj), part_modJob, if_pos rfl]

theorem failJob_aborts (hj : (s.part p).job = some j) (hf : j.fail = none) :
    ((s.failJob p code charge core).part p).aborts = (s.part p).aborts := by
  rw [failJob_of_running code charge core hj hf, part_stopJob_same (failing_job code charge core hj)]
  dsimp only
  rw [stopRegions_aborts, part_modJob, if_pos rfl]

theorem failJob_regions (hj : (s.part p).job = some j) (hf : j.fail = none) {r : Nat} (hr : r ∈ j.regions) :
    ((s.failJob p code charge core).region p r).pend = none ∧ ((s.failJob p code charge core).region p r).load = none ∧
    ((s.failJob p code charge core).region p r).stopping = true := by
  rw [failJob_of_running code charge core hj hf, region_stopJob (failing_job code charge core hj)]
  exact region_stopRegions _ p j.regions hr

/-- A failure leaves the state and the running lane of every region, and starts no load. -/
theorem region_failJob (q r : Nat) : ((s.failJob p code charge core).region q r).state = (s.region q r).state ∧
    ((s.failJob p code charge core).region q r).run = (s.region q r).run ∧
    ((s.region q r).load = none → ((s.failJob p code charge core).region q r).load = none) := by
  obtain h | ⟨j, hj, -, h⟩ := failJob_cases (s := s) (p := p) code charge core
  · rw [h]
    exact ⟨rfl, rfl, id⟩
  · have hreg : (s.failing p code charge core).region q r = s.region q r := region_modJob s p q r _
    rw [h, region_stopJob (failing_job code charge core hj), stopRegions_state, stopRegions_run, hreg]
    exact ⟨rfl, rfl, fun hl => stopRegions_load _ _ _ _ _ (by rw [hreg, hl])⟩

end Fail

section Abort

variable {s : State} {p : Nat} {j : Job}

/-- Whether a lane may retire does not depend on what an update of its partition changes beside regions and job. -/
theorem retireReady_modPart {f : Part → Part} (hr : (f (s.part p)).regions = (s.part p).regions) (hj : (f (s.part p)).job = (s.part p).job)
    (r : Nat) : (s.modPart p f).retireReady p r = s.retireReady p r := by
  have hreg : (s.modPart p f).region p r = s.region p r := region_modPart s p p r hr
  have hjob : ((s.modPart p f).part p).job = (s.part p).job := by rw [part_modPart_same, hj]
  have hreq : (s.modPart p f).requestsOf p r = s.requestsOf p r := by
    unfold State.requestsOf
    rw [hreg]
    rfl
  unfold State.retireReady
  rw [hreg, hjob, hreq]
  rfl

/-- A job is away from its retire point: some lane is left that does not retire in this cycle (R94). -/
def State.lanesLeft (s : State) (p : Nat) (j : Job) : Prop := ∃ m ∈ j.moves, 0 < m.2 ∧ ∀ r ∈ j.regions, s.retireReady p r = false

theorem lanes_pos {l : List (Nat × Nat)} {m : Nat × Nat} (hm : m ∈ l) (h : 0 < m.2) : 0 < l.foldl (fun acc m => acc + m.2) 0 := by
  have hsum : l.foldl (fun acc m => acc + m.2) 0 = (l.map (·.2)).sum := by rw [List.sum_eq_foldl, List.foldl_map]
  have := List.le_sum_of_mem (List.mem_map_of_mem (f := (·.2)) hm)
  omega

/-- Away from the retire point an abort fails the job (R94). -/
theorem abortJob_of_lanesLeft (hj : (s.part p).job = some j) (hf : j.fail = none) (hl : s.lanesLeft p j) :
    s.abortJob p = s.failJob p Code.aborted none none := by
  obtain ⟨m, hm, hpos, hready⟩ := hl
  have hnone : j.regions.filter (fun r => s.retireReady p r) = [] := by simpa using hready
  have hleft := lanes_pos hm hpos
  unfold State.abortJob
  rw [hj]
  dsimp only
  rw [hf, hnone, if_neg (by simp), if_neg]
  rintro ⟨-, h0, -⟩
  rw [h0] at hleft
  exact absurd hleft (by decide)

theorem abortWrite_fst : (s.abortWrite p).1 = s.abortJob p := by
  unfold State.abortWrite
  split
  · split <;> rfl
  · rfl

theorem abortCommand_of_current (o : Org) (hj : (s.part p).job = some j) :
    s.abortCommand p o j.id = (s.modPart p fun x => { x with aborts := x.aborts ++ [o] }).abortJob p := by
  simp [State.abortCommand, hj]

theorem abortCommand_of_ended {n code : Nat} (o : Org) (hj : (s.part p).job = none) (hl : (s.part p).lastJob = some (n, code)) (m : Nat) :
    s.abortCommand p o m = s.complete o 0x0022 (if m = n then abortOutcome code else Code.badArgument) [] := by
  simp only [State.abortCommand, hj, hl]
  by_cases h : m = n
  · subst h; simp
  · simp [h, Ne.symm h]

/-- The state after PART_MSCTL is written with the SIZE and EN that it holds. -/
def State.msctlKept (s : State) (p : Nat) : State :=
  s.modMs p fun m => { m with en := (s.part p).ms.en, stopped := if (s.part p).ms.en = true ∧ ¬ m.en = true then false else m.stopped }

theorem part_msctlKept : (s.msctlKept p).part p = s.part p := by
  rw [State.msctlKept, part_modMs, if_pos rfl]
  simp

theorem lanesLeft_msctlKept (hl : s.lanesLeft p j) : (s.msctlKept p).lanesLeft p j := by
  obtain ⟨m, hm, hpos, hready⟩ := hl
  exact ⟨m, hm, hpos, fun r hr => (retireReady_modPart rfl rfl r).trans (hready r hr)⟩

/-- A write of PART_MSCTL.ABORT leaves SIZE and EN, and aborts the job. -/
theorem exec_streamAbort_of_lanesLeft {o : Org} (h : s.servedBy o p) (hp : p < 8) (hj : (s.part p).job = some j) (hf : j.fail = none)
    (hl : s.lanesLeft p j) : exec (.moveStreamAbort o) s =
      .next (((s.msctlKept p).failJob p Code.aborted none none).complete o 0x0011 ((s.msctlKept p).abortWrite p).2 []) := by
  have hju : ((s.msctlKept p).part p).job = some j := by rw [part_msctlKept, hj]
  rw [exec_streamAbort h hp, writeMsCtl_of_accepted (Nat.mod_lt _ (by decide)) true (.inl rfl) (by simp +contextual),
    State.sized, if_pos rfl, if_pos rfl, ← abortJob_of_lanesLeft hju hf (lanesLeft_msctlKept hl), ← abortWrite_fst]
  rfl

end Abort

/-- Settles O17: an abort away from the retire point is a failure with ABORTED, and a failure stops the job. -/
theorem abortStopsTheJob : Obligations.AbortStopsTheJob := by
  refine ⟨?current, ?ended⟩
  case current =>
    intro s o p j h hp hj hf hl
    constructor
    · have hju : ((s.msctlKept p).part p).job = some j := by rw [part_msctlKept, hj]
      have told := Told.complete o 0x0011 ((s.msctlKept p).abortWrite p).2 [] (.refl ((s.msctlKept p).failJob p Code.aborted none none))
      refine ⟨_, exec_streamAbort_of_lanesLeft h hp hj hf hl, ?_, ?_, ?_, ?_, ?_, ?_⟩
      · rw [told.job, failJob_job _ _ _ hju hf]; rfl
      · rw [told.ms, failJob_ms _ _ _ hju hf]
      · rw [told.ms, failJob_ms _ _ _ hju hf]
      · rw [told.ms, failJob_ms _ _ _ hju hf]
        exact dropMove_fetched _
      · intro r hr
        rw [told.region]
        exact failJob_regions _ _ _ hju hf hr
      · rw [told.mem, failJob_mem]
        rfl
    · have hju : ((s.modPart p fun x => { x with aborts := x.aborts ++ [o] }).part p).job = some j := by rw [part_modPart_same]; exact hj
      obtain ⟨m, hm, hpos, hready⟩ := hl
      refine ⟨_, exec_of_servedBy h rfl, ?_⟩
      rw [State.doJobAbort, abortCommand_of_current o hj, abortJob_of_lanesLeft hju hf
        ⟨m, hm, hpos, fun r hr => (retireReady_modPart rfl rfl r).trans (hready r hr)⟩]
      refine ⟨failJob_job _ _ _ hju hf, ?_, fun r hr => failJob_regions _ _ _ hju hf hr, failJob_mem _ _ _⟩
      rw [failJob_aborts _ _ _ hju hf, part_modPart_same]
  case ended =>
    intro s o p n code h hj hl
    refine ⟨?_, fun m hm => ?_⟩
    · rw [exec_of_servedBy h rfl, State.doJobAbort, abortCommand_of_ended o hj hl, if_pos rfl]
      rfl
    · rw [exec_of_servedBy h rfl, State.doJobAbort, abortCommand_of_ended o hj hl, if_neg hm]
      rfl

end Sys2Proof.Machine
end

section
/-!
PROOFS. The chip sequencer: lanes handed out in turn (R71, R72), and the fetch of moves (R64-R71, R94).
-/

open Sys2Proof Sys2Proof.Machine

namespace Sys2Proof.Machine

section Dispatch

variable (s : State) (p : Nat)

/-- A partition's lane is handed to the pending place of its region; with the last lane of the move the stream drops the move. -/
def State.handOver (s : State) (p : Nat) (v : Move) (l : Lane) (rest : List Lane) : State :=
  ((s.modRegion p l.region fun g => { g with pend := some l }).modJob p fun j =>
      { j with regions := if j.regions.contains l.region then j.regions else j.regions ++ [l.region] }).modMs p fun m =>
    let m := { m with fetched := some { v with lanes := rest } }
    if rest.isEmpty then m.dropMove else m

theorem region_handOver (v : Move) (l : Lane) (rest : List Lane) (q r : Nat) :
    (s.handOver p v l rest).region q r = (s.modRegion p l.region fun g => { g with pend := some l }).region q r := by
  rw [State.handOver, region_modMs, region_modJob]

theorem part_handOver_of_ne (v : Move) (l : Lane) (rest : List Lane) {q : Nat} (h : q ≠ p) : (s.handOver p v l rest).part q = s.part q := by
  rw [State.handOver, part_modMs, if_neg h, part_modJob, if_neg h, part_modRegion_of_ne _ _ _ h]

theorem fetched_handOver (v : Move) (l : Lane) (rest : List Lane) :
    ((s.handOver p v l rest).part p).ms.fetched = if rest = [] then none else some { v with lanes := rest } := by
  rw [State.handOver, part_modMs, if_pos rfl]
  cases rest <;> simp

/-- Nobody's lane is ready: nothing is dispatched. -/
theorem laneDispatch_of_none (h : ∀ p < 8, s.laneReady p = false) : s.laneDispatch = s := by
  have hnone : ((List.range 8).map fun i => (s.lastPart + 1 + i) % 8).find? (fun p => s.laneReady p) = none := by
    rw [List.find?_eq_none]
    intro p hp
    obtain ⟨i, -, rfl⟩ := List.mem_map.mp hp
    simp [h _ (Nat.mod_lt _ (by decide))]
  unfold State.laneDispatch
  rw [hnone]

/-- The first partition in turn with a lane ready is served (R72). -/
theorem laneDispatch_of_first {i : Nat} (hi : i < 8) {v : Move} {l : Lane} {rest : List Lane}
    (hp : p = (s.lastPart + 1 + i) % 8) (hready : s.laneReady p = true)
    (hfirst : ∀ k < i, s.laneReady ((s.lastPart + 1 + k) % 8) = false) (hfree : s.dispAt ≤ s.now)
    (hv : (s.part p).ms.fetched = some v) (hl : v.lanes = l :: rest) (hdef : (s.region p l.region).state ≠ .undefined) :
    s.laneDispatch = { s with lastPart := p, dispAt := s.now + 1 }.handOver p v l rest := by
  have hfind : ((List.range 8).map fun i => (s.lastPart + 1 + i) % 8).find? (fun p => s.laneReady p) = some p := by
    rw [List.find?_map, hp, Option.map_eq_some_iff]
    refine ⟨i, List.find?_range_eq_some.mpr ⟨by simpa [← hp] using hready, by simpa using hi, fun k hk => ?_⟩, rfl⟩
    simp [hfirst k hk]
  unfold State.laneDispatch
  rw [hfind]
  dsimp only
  rw [if_neg (by omega), hv]
  dsimp only
  rw [hl]
  dsimp only
  rw [if_neg (show ¬ (State.region { s with lastPart := p, dispAt := s.now + 1 } p l.region).state = .undefined from hdef)]
  rfl

theorem laneReady_congr {s u : State} {p : Nat} (h : s.part p = u.part p) : s.laneReady p = u.laneReady p := by
  unfold State.laneReady State.region
  rw [h]

end Dispatch

/-- Settles O19: the partition found first in the order of the turn hands over its first lane. -/
theorem laneDispatchServesPartitionsInTurn : Obligations.LaneDispatchServesPartitionsInTurn := by
  refine ⟨?serves, ?idle, fun s u p h => laneReady_congr h⟩
  case serves =>
    intro s i v l rest hr hi p hready hfirst hfree hv hl hdef
    refine ⟨{ s with lastPart := p, dispAt := s.now + 1 }.handOver p v l rest, ?_, rfl, rfl, ?_, ?_, ?_, ?_, rfl, rfl⟩
    · rw [← laneDispatch_of_first s p hi rfl hready hfirst hfree hv hl hdef]
      exact exec_of_runs (ok := true) hr rfl rfl
    · rw [region_handOver, region_modRegion_same]
    · exact fetched_handOver _ _ _ _ _
    · exact fun q hq => part_handOver_of_ne _ _ _ _ _ hq
    · intro r hne
      rw [region_handOver, region_modRegion_of_ne _ (by simp [hne])]
      rfl
  case idle =>
    intro s h
    have he : exec .laneDispatch s = .next (s.whileOn s.laneDispatch) := rfl
    rw [he, laneDispatch_of_none s h, State.whileOn, ite_self]

section Fetch

variable {s : State} {p : Nat}

/-- A read of shared memory changes the dies' error counts alone (R479). -/
theorem sharedRead_state (s : State) (p a n : Nat) : ∃ e, (s.sharedRead p a n).1 = { s with dieEcc := e } := by
  unfold State.sharedRead
  dsimp only
  split
  · exact ⟨s.dieEcc, rfl⟩
  · refine List.foldlRecOn (motive := fun (acc : State × Bool) => ∃ e, acc.1 = { s with dieEcc := e }) _ _ ⟨s.dieEcc, rfl⟩ ?_
    intro acc hacc i _
    obtain ⟨e, he⟩ := hacc
    split
    · exact ⟨_, by rw [State.dieErrors, he]⟩
    · exact ⟨e, he⟩

/-- What MOVE_FETCH does with the header that it reads at HEAD, where the fetch is free and nothing is skipped. -/
theorem moveFetch_of_header {u : State} {hb : List Byte} {ok : Bool} (hm : (s.part p).mayFetch = true) (hfree : s.fetchAt ≤ s.now)
    (hskip : (s.part p).ms.skipping = false)
    (hread : s.sharedRead p ((s.part p).ms.base + (s.part p).ms.head) 16 = (u, hb, ok)) :
    let m := (s.part p).ms
    let h := MoveHdr.read hb
    let one := { u with fetchAt := s.now + 1 }
    s.moveFetch p =
      if ok = false then one.moveFail p h Code.uncorrectableData
      else if h.inOrder m = false then one.moveFormat p h
      else if h.fits m = false then (one.modMs p fun m => { m with expect := some ((h.seq + 1) % 65536) }).moveFormat p h
      else if h.wrap = true then one.modMs p fun m => m.pass h 0
      else if m.avail < h.bytes then s
      else if m.ended = some h.job ∧ ¬ h.jobstart ∧ (s.part p).job.isNone then one.skipMove p h
      else { s with fetchAt := s.now + fetchCycles h.bytes }.takeMove p h := by
  intro m h one
  unfold State.moveFetch
  simp only [hread, hm, hfree, hskip, Bool.not_eq_true', and_self, if_true, Bool.false_eq_true, if_false]
  rfl

theorem moveFetch_of_busy (p : Nat) (h : s.now < s.fetchAt) : s.moveFetch p = s := by
  unfold State.moveFetch
  rw [if_neg]
  rintro ⟨-, hfree⟩
  omega

/-- The partition after a whole move that opens a job: its lanes wait for dispatch, and the job is open with them (R69-R71, R94). -/
def withMove (x : Part) (m : Stream) (h : MoveHdr) (lanes : List Lane) : Part :=
  { x with
    ms := { m with expect := some ((h.seq + 1) % 65536), fetched := some ⟨m.nextMove, h.job, h.last, h.sync, h.bytes, lanes⟩,
                   nextMove := m.nextMove + 1, ended := none },
    jobField := h.job,
    job := some ⟨h.job, [], [(m.nextMove, h.lanes)], h.last, none, false, false⟩ }

theorem takeMove_of_opening {v : State} {b : List Byte} {h : MoveHdr} (hjob : (s.part p).job = none) (hstart : h.jobstart = true)
    (hread : s.sharedRead p ((s.part p).ms.base + (s.part p).ms.head) h.bytes = (v, b, true)) :
    let lanes := (List.range h.lanes).map fun i => Lane.read h.job (s.part p).ms.nextMove (slice b (16 + 32 * i) 32)
    noDup (lanes.map (·.region)) = true → lanes.all (fun l => l.good (s.part p) ((s.part p).allot s.grade)) = true →
    s.takeMove p h = v.modPart p fun x => withMove x (s.part p).ms h lanes := by
  intro lanes hdup hgood
  obtain ⟨e, hv⟩ := sharedRead_state s p ((s.part p).ms.base + (s.part p).ms.head) h.bytes
  rw [hread] at hv
  subst hv
  unfold State.takeMove
  simp only [hread, hjob, hstart]
  rw [if_neg (by simp), if_pos ⟨trivial, hdup, hgood⟩]
  refine modPart_congr ?_
  rw [show State.part { s with dieEcc := e } p = s.part p from rfl, hjob, withMove, if_pos trivial]

end Fetch

/-- Settles O18: the header decides, and a whole move that opens a job is taken with its lanes. -/
theorem moveFetchTakesTheNextMove : Obligations.MoveFetchTakesTheNextMove := by
  refine ⟨?free, fun s p h => ?busy⟩
  case free =>
    intro s u p hb ok hr hp hmay hfree hskip hread m h one
    have hexec : exec (.moveFetch p) s = .next (s.moveFetch p) := exec_of_runs hr (by simpa using hp) rfl
    have hfetch := moveFetch_of_header hmay hfree hskip hread
    obtain ⟨e, hu⟩ := sharedRead_state s p ((s.part p).ms.base + (s.part p).ms.head) 16
    rw [hread] at hu
    subst hu
    rw [hexec]
    refine ⟨?move, ?wrap, ?order, ?place, ?damaged⟩
    case move =>
      intro v b hmove lanes hok hord hfits hwrap hbytes hjob hstart hdup hgood
      obtain ⟨e', hv⟩ := sharedRead_state { s with fetchAt := s.now + fetchCycles h.bytes } p (m.base + m.head) h.bytes
      rw [hmove] at hv
      refine ⟨v.modPart p fun x => withMove x m h lanes, ?_, ?_, ?_, ?_, ?_, ?_, ?_, ?_⟩
      · rw [hfetch, if_neg (by simp [hok]), if_neg (by simp [h, hord, m]), if_neg (by simp [h, hfits, m]), if_neg (by simp [h, hwrap]),
          if_neg (by simp only [h, m] at hbytes; omega), if_neg (by simp [h, hstart])]
        exact congrArg _ (takeMove_of_opening hjob hstart hmove hdup hgood)
      all_goals subst hv
      · rfl
      · rw [part_modPart_same]; rfl
      · rw [part_modPart_same]; rfl
      · rw [part_modPart_same]; rfl
      · rw [part_modPart_same]; rfl
      · exact fun q hq => part_modPart_of_ne _ _ hq
      · rfl
    case wrap =>
      intro hok hord hfits hwrap
      refine ⟨one.modMs p fun m => m.pass h 0, ?_, ?_, ?_, ?_, ?_, rfl⟩
      · rw [hfetch, if_neg (by simp [hok]), if_neg (by simp [h, hord, m]), if_neg (by simp [h, hfits, m]), if_pos hwrap]
      · rw [part_modMs, if_pos rfl]
        exact if_pos hwrap
      · rw [part_modMs, if_pos rfl]; rfl
      · rw [part_modMs, if_pos rfl]; rfl
      · intro q hq
        rw [part_modMs, if_neg hq]; rfl
    case order =>
      intro hok hord
      rw [hfetch, if_neg (by simp [hok]), if_pos hord]
    case place =>
      intro hok hord hfits
      rw [hfetch, if_neg (by simp [hok]), if_neg (by simp [h, hord, m]), if_pos hfits]
    case damaged =>
      intro hok
      rw [hfetch, if_pos hok]
  case busy =>
    have he : exec (.moveFetch p) s = s.guarded (decide (p < 8)) (s.whileOn (s.moveFetch p)) := rfl
    rw [he, moveFetch_of_busy p h, State.whileOn, ite_self, State.guarded, ite_self]

end Sys2Proof.Machine
end

section
/-!
PROOFS. The region sequencer: the start of a lane and its wait (R74, R75, R269), and the first phases of a reload (R82, R86, R500).
-/

open Sys2Proof Sys2Proof.Machine

namespace Sys2Proof.Machine

section LaneStart

variable {s : State} {p r : Nat} {l : Lane}

/-- A pending lane that starts a reload: the lane runs, the region is LOADING, and its drain begins (R82 phase 1). -/
theorem laneStart_of_reconf (hrun : (s.region p r).run = none) (hpend : (s.region p r).pend = some l)
    (hstop : (s.region p r).stopping = false) (hq : (s.region p r).state ≠ .quarantined) (hl : l.reconf = true) :
    s.laneStart p r = s.modRegion p r fun g => { g with
      pend := none, state := .loading, hold := 0,
      run := some ⟨l, false, if l.tempo = 0xFFFFFFFF then none else some l.tempo, false⟩,
      load := some ⟨.drain, s.now, none, Tables.empty, []⟩ } := by
  unfold State.laneStart
  simp [hrun, hpend, hstop, hq, hl]

/-- A pending lane without a reload leaves its place and goes on to its start position. -/
theorem laneStart_of_resident (hrun : (s.region p r).run = none) (hpend : (s.region p r).pend = some l)
    (hstop : (s.region p r).stopping = false) (hq : (s.region p r).state ≠ .quarantined) (hi : (s.region p r).state ≠ .idle)
    (hl : l.reconf = false) : s.laneStart p r = (s.modRegion p r fun g => { g with pend := none }).laneSteps p r l := by
  unfold State.laneStart
  simp [hrun, hpend, hstop, hq, hi, hl]

/-- A lane to a region without a setup fails the job (R75). -/
theorem laneStart_of_not_ready (hrun : (s.region p r).run = none) (hpend : (s.region p r).pend = some l)
    (hstop : (s.region p r).stopping = false)
    (hbad : (s.region p r).state = .quarantined ∨ (s.region p r).state = .idle ∧ l.reconf = false) :
    s.laneStart p r = (s.modRegion p r fun g => { g with pend := none }).failJob p Code.regionNotReady (some r) none := by
  have hcond : (s.region p r).state = .quarantined ∨ ((s.region p r).state = .idle ∧ ¬ l.reconf = true) := by simpa using hbad
  unfold State.laneStart
  simp only [hrun, hpend, hstop, Bool.false_eq_true, if_false, hcond, if_true]

/-- The region with a lane started at its START or at the retained position (R74). -/
def startedRegion (g : Region) (l : Lane) : Region :=
  let pos : Pos := if l.keeppc then { g.gpos with lc := l.updates g.gpos.lc } else { pc := l.start, rep := 0, lc := l.updates g.gpos.lc, cld := none }
  { g with state := .held, gpos := pos, xpos := pos, load := none, hold := 0,
           run := some ⟨l, bit l.fwait 15, if l.tempo = 0xFFFFFFFF then none else some l.tempo, l.tempo == 0⟩ }

theorem laneSteps_of_held (h : l.keeppc = true ∨ l.start < (s.region p r).tab.prog.length) :
    s.laneSteps p r l = s.modRegion p r fun g => startedRegion g l := by
  unfold State.laneSteps
  dsimp only
  rw [if_neg]
  · exact modRegion_congr rfl
  · rintro ⟨hk, hlen⟩
    obtain h | h := h
    · exact hk h
    · omega

/-- The wait of a running lane on a chip flag that is set is over; bit 14 clears the flag (R74, R269). -/
theorem fwaitPass_of_set {x : LaneRun} (hrun : (s.region p r).run = some x) (hw : x.fwait = true)
    (hset : ((s.part p).cflag (bits x.lane.fwait 7 0)).read s.now = true) (hload : (s.region p r).load = none)
    (hstop : (s.region p r).stopping = false) : s.fwaitPass p r =
      (let u := s.modRegion p r fun g => { g with run := some { x with fwait := false } }
       if bit x.lane.fwait 14 then u.setChipFlag p (bits x.lane.fwait 7 0) ⟨false, 1, none, r, 0⟩ else u) := by
  unfold State.fwaitPass
  simp [hrun, hw, hset, hload, hstop]

end LaneStart

/-- Settles O20: a pending lane takes the branch of its RECONF bit and the region's state; a wait ends with its flag. -/
theorem laneStartsAndWaits : Obligations.LaneStartsAndWaits := by
  refine ⟨?starts, ?refused, ?passes⟩
  case starts =>
    intro s p r l h hrun hpend hstop hq
    have hexec : exec (.laneStart p r) s = .next (s.laneStart p r) := exec_of_live h rfl
    rw [hexec]
    refine ⟨fun hl => ?_, fun hl hi hpos => ?_⟩
    · rw [laneStart_of_reconf hrun hpend hstop hq hl]
      refine ⟨_, rfl, ?_, ?_, ?_, ?_, fun q i hne => region_modRegion_of_ne _ hne, rfl, rfl⟩ <;> rw [region_modRegion_same]
    · have hg : (s.modRegion p r fun g => { g with pend := none }).region p r = { s.region p r with pend := none } :=
        region_modRegion_same _ _ _ _
      rw [laneStart_of_resident hrun hpend hstop hq hi hl, laneSteps_of_held (by rw [hg]; exact hpos)]
      refine ⟨_, rfl, ?_, ?_, ?_, ?_, fun q i hne => ?_, rfl, rfl⟩
      · rw [region_modRegion_same]; rfl
      · rw [region_modRegion_same, hg]; rfl
      · rw [region_modRegion_same, hg]; rfl
      · rw [region_modRegion_same]; rfl
      · rw [region_modRegion_of_ne _ hne, region_modRegion_of_ne _ hne]
  case refused =>
    intro s p r l h hrun hpend hstop hbad
    have hexec : exec (.laneStart p r) s = .next (s.laneStart p r) := exec_of_live h rfl
    rw [hexec, laneStart_of_not_ready hrun hpend hstop hbad]
    rfl
  case passes =>
    intro s p r x h hrun hw hset hload hstop
    have hexec : exec (.laneFwaitPass p r) s = .next (s.fwaitPass p r) := exec_of_live h rfl
    rw [hexec, fwaitPass_of_set hrun hw hset hload hstop]

section Reload

variable {s : State} {p r : Nat} {l : Load}

theorem phaseOver_of_load {g : Region} {ph : Phase} (hl : g.load = some l) (hph : l.phase = ph)
    (ht : l.since + l.cycles g.rect.spans ≤ s.now) : s.phaseOver g ph = true := by
  unfold State.phaseOver
  rw [hl]
  simp [hph, ht]

theorem nextPhase_of_load (hl : (s.region p r).load = some l) (f : Load → Load) :
    s.nextPhase p r f = s.modRegion p r fun g => { g with load := some { f l with since := s.now } } :=
  modRegion_congr (by rw [hl]; rfl)

theorem drainEnd_of_idle (hl : (s.region p r).load = some l) (hph : l.phase = .drain) (ht : l.since + 1 ≤ s.now)
    (hg : (s.region p r).granted = []) (hu : s.unitsIdle (s.region p r) = true) :
    s.drainEnd p r = s.modRegion p r fun g => { g with load := some { l with phase := .freeze, since := s.now } } := by
  have hover : s.phaseOver (s.region p r) .drain = true := phaseOver_of_load hl hph (by rw [Load.cycles, hph]; exact ht)
  unfold State.drainEnd
  dsimp only
  rw [if_pos ⟨hover, by rw [hg]; rfl, hu⟩, nextPhase_of_load hl]

theorem freezeEnd_of_over {x : LaneRun} (hl : (s.region p r).load = some l) (hph : l.phase = .freeze) (ht : l.since + 8 ≤ s.now)
    (hrun : (s.region p r).run = some x) :
    s.freezeEnd p r = s.modRegion p r fun g => { g with load := some { l with
      phase := .tables, since := s.now,
      staged := s.book.find? fun b => b.part == p && b.region == r && b.setup == x.lane.setup } } := by
  have hover : s.phaseOver (s.region p r) .freeze = true := phaseOver_of_load hl hph (by rw [Load.cycles, hph]; exact ht)
  unfold State.freezeEnd
  dsimp only
  rw [hrun]
  dsimp only
  rw [if_pos hover, nextPhase_of_load hl]

/-- The reads of a setup from the books, none of them beyond correction, change the dies' error counts alone (R479). -/
theorem bookReads_state {us : List Upset} (h : (s.bookReads us).2 = false) : ∃ e, (s.bookReads us).1 = { s with dieEcc := e } := by
  unfold State.bookReads at h ⊢
  dsimp only at h ⊢
  rw [h, if_neg (by decide)]
  refine List.foldlRecOn (motive := fun (acc : State × Bool) => ∃ e, acc.1 = { s with dieEcc := e }) _ _ ⟨s.dieEcc, rfl⟩ ?_
  rintro acc ⟨e, he⟩ d -
  exact ⟨_, by rw [State.dieErrors, he]⟩

theorem tablesEnd_of_missing (hl : (s.region p r).load = some l) (hover : s.phaseOver (s.region p r) .tables = true)
    (hb : l.staged = none) : s.tablesEnd p r = s.loadFail p r Code.setupMissing := by
  unfold State.tablesEnd
  dsimp only
  rw [hl]
  dsimp only
  rw [if_pos hover, hb]

theorem tablesEnd_of_staged {b : Staged} (hl : (s.region p r).load = some l) (hover : s.phaseOver (s.region p r) .tables = true)
    (hb : l.staged = some b) : s.tablesEnd p r = s.modRegion p r fun g =>
      { g with load := some { l with phase := .check, since := s.now, tab := Tables.read (SetupHdr.read b.tables) b.tables } } := by
  unfold State.tablesEnd
  dsimp only
  rw [hl]
  dsimp only
  rw [if_pos hover, hb]
  dsimp only
  rw [nextPhase_of_load hl, ← hb]

/-- RECONF_TABLES_END after reads that could all be corrected is the end of the phase on what they leave. -/
theorem tablesRead_of_correctable {us : List Upset} (hl : (s.region p r).load = some l)
    (hover : s.phaseOver (s.region p r) .tables = true) (h : (s.bookReads us).2 = false) :
    s.tablesRead p r us = (s.bookReads us).1.tablesEnd p r := by
  unfold State.tablesRead
  dsimp only
  rw [if_pos ⟨by rw [hl]; rfl, hover⟩, if_neg (by simp [h])]

/-- The code of header and tables at the end of the check (R500). -/
abbrev State.tablesCode (s : State) (p r : Nat) (b : Staged) : Nat :=
  checkTables (s.pview p) (s.region p r).rect b.tables (s.steeredOthers p r) Code.ok Code.setupFormat Code.steerLimit

/-- Units of 512 bytes of the sections that each die has to read (R83). -/
abbrev unitsOfDies (b : Staged) : List Nat :=
  (List.range 4).map fun d => cdiv ((b.sects.filter fun y => dieOfCore y.1 == d).foldl (fun n y => n + y.2.length) 0) 512

theorem checkEnd_of_over {b : Staged} (hl : (s.region p r).load = some l) (hph : l.phase = .check) (ht : l.since + 32 ≤ s.now)
    (hb : l.staged = some b) : s.checkEnd p r =
      if s.tablesCode p r b = Code.ok then s.modRegion p r fun g =>
        { g with load := some { l with phase := .sections, since := s.now, left := unitsOfDies b } }
      else s.loadFail p r (s.tablesCode p r b) := by
  have hover : s.phaseOver (s.region p r) .check = true := phaseOver_of_load hl hph (by rw [Load.cycles, hph]; exact ht)
  unfold State.checkEnd
  dsimp only
  rw [hl]
  dsimp only
  rw [if_pos hover, hb]
  dsimp only
  rw [nextPhase_of_load hl, ← hb]

/-- A failed load leaves its region QUARANTINED, without load and running lane (R86). -/
theorem region_loadFail (s : State) (p r code : Nat) : ((s.loadFail p r code).region p r).state = .quarantined ∧
    ((s.loadFail p r code).region p r).load = none ∧ ((s.loadFail p r code).region p r).run = none := by
  obtain ⟨u, hu, hstate, hload, hrun⟩ : ∃ u : State, s.loadFail p r code = u.failJob p code (some r) none ∧
      (u.region p r).state = .quarantined ∧ (u.region p r).load = none ∧ (u.region p r).run = none :=
    ⟨_, rfl, by rw [region_modRegion_same], by rw [region_modRegion_same], by rw [region_modRegion_same]⟩
  obtain ⟨h1, h2, h3⟩ := region_failJob (s := u) (p := p) code (some r) none p r
  rw [hu]
  exact ⟨h1.trans hstate, h3 hload, h2.trans hrun⟩

end Reload

/-- Settles O21: each phase ends by its own test, and the reads of the books change error counts alone. -/
theorem reloadDrainFreezeTablesAndCheck : Obligations.ReloadDrainFreezeTablesAndCheck := by
  refine ⟨?drain, ?freeze, ?tables, ?check, region_loadFail⟩
  case drain =>
    intro s p r l h hl hph ht hg hu
    have hexec : exec (.reconfDrainEnd p r) s = .next (s.drainEnd p r) := exec_of_live h rfl
    rw [hexec, drainEnd_of_idle hl hph ht hg hu]
  case freeze =>
    intro s p r l x h hl hph ht hrun
    have hexec : exec (.reconfFreezeEnd p r) s = .next (s.freezeEnd p r) := exec_of_live h rfl
    rw [hexec, freezeEnd_of_over hl hph ht hrun]
  case tables =>
    intro s p r l us h hl hph ht hcorr
    have hover : s.phaseOver (s.region p r) .tables = true := phaseOver_of_load hl hph (by rw [Load.cycles, hph]; exact ht)
    have hexec : exec (.reconfTablesEnd p r us) s = .next (s.tablesRead p r us) := exec_of_live h rfl
    rw [hexec, tablesRead_of_correctable hl hover hcorr]
    obtain ⟨e, he⟩ := bookReads_state hcorr
    rw [he]
    refine ⟨fun hb => ?_, fun b hb => ?_⟩
    · rw [tablesEnd_of_missing (s := { s with dieEcc := e }) hl hover hb]
      rfl
    · rw [tablesEnd_of_staged (s := { s with dieEcc := e }) hl hover hb]
  case check =>
    intro s p r l b h hl hph ht hb code
    have hexec : exec (.reconfCheckEnd p r) s = .next (s.checkEnd p r) := exec_of_live h rfl
    rw [hexec, checkEnd_of_over hl hph ht hb]
    exact ⟨fun hc => by rw [if_neg hc], fun hc => by rw [if_pos hc]⟩

end Sys2Proof.Machine
end

section
/-!
PROOFS. Flag operations at cores and on the chip flag network (R84, R253, R260-R264, R269, R468).
-/

open Sys2Proof Sys2Proof.Machine

namespace Sys2Proof.Machine

section Arrive

variable {s : State} {c d i n : Nat} {op : FlagOp}

theorem flagReaches_of_thawed (h : s.flagsFrozen d = false) : s.flagReaches d i op = (s.setCoreFlag d i op, true) := by
  simp [State.flagReaches, h]

/-- At a core whose flags are frozen an operation waits while fewer than 8 do (R84). -/
theorem flagReaches_of_frozen (h : s.flagsFrozen d = true) (hroom : (s.core d).heldOps.length < 8) :
    s.flagReaches d i op = (s.modCore d fun x => { x with heldOps := x.heldOps ++ [(i, op, s.now)] }, true) := by
  unfold State.flagReaches
  rw [if_pos h, if_neg (by omega)]

/-- The state without the flag operation that waited at place `n`. -/
def State.opGone (s : State) (n : Nat) : State := { s with mesh := { s.mesh with ops := dropAt s.mesh.ops n } }

variable {m : FlagMsg} (us : List Upset)

/-- An operation that its core takes, in effect or in waiting, goes from where it waited. -/
theorem flagArrive_of_core {u : State} (hm : s.mesh.ops[n]? = some m) (hd : m.core = some d) (hu : s.flagReaches d m.flag m.op = (u, true)) :
    s.flagArrive false c n us = u.opGone n := by
  unfold State.flagArrive
  simp [hm, hd, hu, State.opGone]

theorem flagArrive_of_chip (hm : s.mesh.ops[n]? = some m) (hd : m.core = none) : s.flagArrive false c n us =
    if us.contains .flagNet then (s.opGone n).failJob m.part Code.uncorrectableData none none
    else (s.opGone n).setChipFlag m.part m.flag m.op := by
  unfold State.flagArrive
  simp [hm, hd, State.opGone]

/-- The region that a flag's record names for an operation from core `c` (R260). -/
def State.senderRegion (s : State) (c : Nat) : Nat := match (s.core c).owner with | some (_, r) => r | none => 0

/-- An operation along a route names the region of the core that sent it, takes effect, and leaves the local port. -/
theorem flagArrive_of_route {fl : Flit} (hf : s.localFront c = some fl) (hc : fl.cargo = .flag i op) (h : s.flagsFrozen c = false) :
    s.flagArrive true c n us = (s.setCoreFlag c i { op with region := s.senderRegion fl.src.core }).localTaken c := by
  unfold State.flagArrive
  simp only [hf, hc, flagReaches_of_thawed h, if_true]
  rfl

end Arrive

section Cfop

variable {s : State} {o : Org} {p : Nat}

/-- The word of PART_CFOP: the flag, and OP in bit 8 (R269). -/
def cfopWord (n : Nat) (clear : Bool) : Nat := n % 2 ^ 8 + 2 ^ 8 * b2n clear

theorem writeCfop_eq {n : Nat} (hn : n < 256) (clear : Bool) : s.writeCfop p (cfopWord n clear) =
    if n < (s.part p).allot s.grade then (s.setChipFlag p n ⟨!clear, 5, none, 0, 0⟩, Code.ok) else (s, Code.badArgument) := by
  have hflag : bits (cfopWord n clear) 7 0 = n := by
    cases clear <;> simp [bits, cfopWord, b2n] <;> omega
  have hop : bit (cfopWord n clear) 8 = clear := by
    cases clear <;> simp [bit, cfopWord, b2n, Nat.shiftRight_eq_div_pow]
  unfold State.writeCfop
  simp only [hflag, hop]

theorem partWrite_cfop (h : s.servedBy o p) (hp : p < 8) (n : Nat) (clear : Bool) :
    s.partWrite o 0x2020 (fun _ => cfopWord n clear) =
      (s.writeCfop p (cfopWord n clear)).1.complete o 0x0011 (s.writeCfop p (cfopWord n clear)).2 [] := by
  have h32 : cfopWord n clear % 2 ^ (8 * 4) = cfopWord n clear := by
    have hop := b2n_le clear
    unfold cfopWord
    omega
  rw [partWrite_of_servedBy h hp (by decide) (by decide) (show s.partReg p 0x2020 = some (4, _) from rfl) (.inl rfl), h32]
  rfl

theorem exec_chipFlagSet (h : s.servedBy o p) (hp : p < 8) (n : Nat) : exec (.chipFlagSet o n) s =
    .next ((s.writeCfop p (cfopWord n false)).1.complete o 0x0011 (s.writeCfop p (cfopWord n false)).2 []) := by
  rw [← partWrite_cfop h hp]
  rfl

theorem exec_chipFlagClear (h : s.servedBy o p) (hp : p < 8) (n : Nat) : exec (.chipFlagClear o n) s =
    .next ((s.writeCfop p (cfopWord n true)).1.complete o 0x0011 (s.writeCfop p (cfopWord n true)).2 []) := by
  rw [← partWrite_cfop h hp]
  rfl

end Cfop

section Record

variable {r : FlagR} {now : Nat} {op a : FlagOp}

/-- The first operation of a cycle on a flag: its value from the next cycle on, the old one until then (R260). -/
theorem apply_of_first (h : r.stamp ≠ now + 1) : (r.apply now op).val = op.set ∧ (r.apply now op).lastop = op.set ∧
    (r.apply now op).stamp = now + 1 ∧ (r.apply now op).old = r.val := by
  unfold FlagR.apply
  simp [h]

/-- A further operation of the cycle: the flag is set if it was, or if the operation sets it (R260). -/
theorem apply_of_later (h : r.stamp = now + 1) (hl : r.lastop = r.val) :
    (r.apply now op).val = (r.val || op.set) ∧ (r.apply now op).stamp = now + 1 := by
  unfold FlagR.apply
  rw [if_neg (not_not_intro h), hl]
  cases hv : r.val <;> cases ho : op.set
  case false.true => simp
  case true.false => simp [hv, h]
  all_goals
    simp only [Bool.false_and, Bool.and_false, Bool.not_true, Bool.not_false, Bool.false_eq_true, if_false]
    split <;> simp [hv, h]

/-- From the cycle after an operation the flag reads as the operation left it. -/
theorem read_next (h : r.stamp = now + 1) : r.read (now + 1) = r.val := by
  unfold FlagR.read
  rw [if_neg (by omega)]

theorem read_same (h : r.stamp = now + 1) : r.read now = r.old := if_pos h

/-- Two operations in one cycle leave the flag set if one of them sets it. -/
theorem read_apply_apply (h : r.stamp ≠ now + 1) : ((r.apply now a).apply now op).read (now + 1) = (a.set || op.set) := by
  obtain ⟨hval, hlast, hstamp, -⟩ := apply_of_first (op := a) h
  obtain ⟨hval2, hstamp2⟩ := apply_of_later (op := op) hstamp (hlast.trans hval.symm)
  rw [read_next hstamp2, hval2, hval]

end Record

/-- Settles O33: an operation takes effect or waits where it arrives; the register's operations go by the allotment; the record rule
lets a set win. -/
theorem flagOperations : Obligations.FlagOperations := by
  refine ⟨?arrives, ?routed, ?register, ?record⟩
  case arrives =>
    intro s f k n us m h hm gone
    have hexec : exec (.flagOpArrive false f k n us) s = .next (s.flagArrive false (coreId f k) n us) := exec_of_onCore h rfl
    rw [hexec]
    refine ⟨fun d hd hfree => ?_, fun d hd hfrozen hroom => ?_, fun hd hus => ?_, fun hd hus => ?_⟩
    · rw [flagArrive_of_core us hm hd (flagReaches_of_thawed hfree)]
      rfl
    · rw [flagArrive_of_core us hm hd (flagReaches_of_frozen hfrozen hroom)]
      rfl
    · rw [flagArrive_of_chip us hm hd, hus, if_neg (by decide)]
      rfl
    · rw [flagArrive_of_chip us hm hd, if_pos hus]
      rfl
  case routed =>
    intro s f k i us fl op h c hf hc hfree
    have hexec : exec (.flagOpArrive true f k 0 us) s = .next (s.flagArrive true c 0 us) := exec_of_onCore h rfl
    rw [hexec, flagArrive_of_route us hf hc hfree]
    rfl
  case register =>
    intro s o p n h hp hn
    rw [exec_chipFlagSet h hp, exec_chipFlagClear h hp, writeCfop_eq hn, writeCfop_eq hn]
    refine ⟨fun hin => ?_, fun hout => ?_⟩
    · rw [if_pos hin, if_pos hin]
      exact ⟨rfl, rfl⟩
    · rw [if_neg (by omega), if_neg (by omega)]
      exact ⟨rfl, rfl⟩
  case record =>
    intro r now op
    refine ⟨fun h => ?_, fun a h hset => ?_, fun a h ha hop => ?_⟩
    · obtain ⟨hval, -, hstamp, hold⟩ := apply_of_first (op := op) h
      rw [read_next hstamp, read_same hstamp, hval, hold]
      exact ⟨rfl, rfl⟩
    · rw [read_apply_apply h]
      simpa using hset
    · rw [read_apply_apply h, ha, hop]
      rfl

end Sys2Proof.Machine
end

section
/-!
PROOFS. A CURSOR action beside a queue whose count of new arrivals is above what it holds (R111, R224, R279).
-/

open Sys2Proof Sys2Proof.Machine

namespace Sys2Proof.Machine

/-- Core 0.0 of a running region: its section lists one CURSOR action, and its queue 0 counts one entry that arrived in this cycle
and holds none. -/
def miscountedCore : Core :=
  { Core.reset with
    owner := some (0, 0),
    sect := { Sect.empty with mems := [.cursor 0 false ⟨0, false, 0, false, 0⟩ 0] },
    queues := [(0, { Queue.reset with sawEmpty := false, lateAt := 1, lateN := 1 })] }

/-- A module that runs, with region 0 of partition 0 RUNNING on that core. -/
def miscounted : State :=
  { State.reset with
    pwr := { Power.reset with ready := true },
    parts := [(0, { Part.reset with regions := [(0, { Region.reset with state := .running })] })],
    cores := [(0, miscountedCore)] }

theorem miscounted_actsIn : miscounted.actsIn 0 0 := ⟨by decide +kernel, by decide +kernel, 0, 0, by decide +kernel, .inl (by decide +kernel)⟩

/-- The tempo's commit takes the entry that was counted and is not there for one that a unit took, and notes that the queue was empty. -/
theorem cursor_of_miscounted : ∃ t, exec (.cursor 0 0 1) miscounted = .next t ∧ ((t.core (coreId 0 0)).queue 0).sawEmpty = true :=
  ⟨_, rfl, by decide +kernel⟩

/-- Refutes O29: in the state `miscounted`, whose queue 0 counts an arrival of this cycle that it does not hold, a CURSOR action also
sets the queue's record that it was empty. -/
theorem not_cursorActionActsOnItsCoreAlone : ¬ Obligations.CursorActionActsOnItsCoreAlone := by
  intro h
  obtain ⟨t, ht, hcore, -⟩ := h miscounted 0 0 1 0 false ⟨0, false, 0, false, 0⟩ 0 miscounted_actsIn (by decide) (by decide +kernel)
  obtain ⟨u, hu, hsaw⟩ := cursor_of_miscounted
  obtain rfl : t = u := by injection ht.symm.trans hu
  rw [hcore] at hsaw
  exact absurd hsaw (by decide +kernel)

end Sys2Proof.Machine
end

section
/-!
PROOFS. Memory actions of a core as they start (R63, R223-R229, R234, R239, R240).
-/

open Sys2Proof Sys2Proof.Machine

namespace Sys2Proof

/-- The start of a memory action in a core's tempo, by its kind (R223). -/
def TC.startMemA (x : TC) : MemA → TC
  | .cursor a w b s => x.startCursor a w b s
  | .castle bs => x.startCastle bs
  | .dmain a => x.startDmain a
  | .dmaout a => x.startDmaout a
  | .smreq r w d a e s => x.startSmreq r w d a e s
  | .rotate s n m => x.startRotate s n m
  | _ => x

theorem startMem_of_listed {x : TC} {idx : Nat} {m : MemA} (h : x.core.sect.mems[idx - 1]? = some m) :
    x.startMem idx = x.startMemA m := by
  unfold TC.startMem
  rw [h]
  cases m <;> rfl

/-- The named buffers are all filled, as their flags read in the cycle (R234). -/
def Core.allFilled (c : Core) (now : Nat) (bs : List Nat) : Bool :=
  bs.all fun b => match c.buf b with | some y => (c.flag y.d.flag).read now | none => false

end Sys2Proof

namespace Sys2Proof.Machine

section ViewOfTheCycle

variable (c : Core) (now i : Nat)

/-! The core as its units see it differs from the core in its queues alone (R111). -/

@[simp] theorem view0_buf : (c.view0 now).buf i = c.buf i := rfl
@[simp] theorem view0_flag : (c.view0 now).flag i = c.flag i := rfl
@[simp] theorem view0_route : (c.view0 now).route i = c.route i := rfl
@[simp] theorem view0_din : (c.view0 now).din = c.din := rfl
@[simp] theorem view0_dout : (c.view0 now).dout = c.dout := rfl
@[simp] theorem view0_rots : (c.view0 now).rots = c.rots := rfl

end ViewOfTheCycle

/-- Tempo `x` of core `c` stands where it opens in state `s`: nothing has been started in it. -/
structure OpensIn (s : State) (c : Nat) (x : TC) : Prop where
  core : x.core = s.core c
  core0 : x.core0 = (s.core c).view0 s.now
  now : x.now = s.now

section Start

variable {s : State} {f k c idx : Nat} {act act' : TC → TC}

/-- One started action is what it makes of the tempo as it opens. -/
theorem startOne_congr (h : ∀ x, OpensIn s c x → act x = act' x) : s.startOne c act = s.startOne c act' := by
  unfold State.startOne
  split
  · rfl
  · simp only [State.runAll, List.foldl_cons, List.foldl_nil]
    rw [h _ ⟨rfl, rfl, rfl⟩]

theorem coreStarts_of_actsIn (h : s.actsIn f k) {kind : Sect → Bool} (hk : kind (s.sect f k) = true) :
    s.coreStarts (coreId f k) kind act = s.startOne (coreId f k) act := by
  obtain ⟨-, -, p, r, howner, hstate⟩ := h
  unfold State.coreStarts
  simp only [howner]
  exact if_pos ⟨hstate, hk⟩

variable {m : MemA}

/-- A memory action that the section lists, of a core that may start it, does what the action makes of the tempo as it opens. -/
theorem exec_of_memAction {i : Instr} {kind : Sect → Bool} (h : s.actsIn f k) (hk : kind (s.sect f k) = true)
    (he : exec i s = s.guarded (coreActive s.grade f k) (s.whileOn (s.coreStarts (coreId f k) kind fun x => x.startMem idx)))
    (hm : (s.sect f k).mems[idx - 1]? = some m) (ha : ∀ x, OpensIn s (coreId f k) x → x.startMemA m = act x) :
    exec i s = .next (s.startOne (coreId f k) act) := by
  have hact : ∀ x, OpensIn s (coreId f k) x → x.startMem idx = act x := fun x hx => by
    rw [startMem_of_listed (by rw [hx.core]; exact hm), ha x hx]
  rw [← startOne_congr hact, ← coreStarts_of_actsIn h hk]
  exact exec_of_onCore ⟨h.1, h.2.1⟩ he

end Start

section Kinds

variable {s : State} {c : Nat} {x : TC}

theorem startCastle_eq (hx : OpensIn s c x) (bufs : Nat) : x.startCastle bufs =
    let bs := (List.range 16).filter fun b => bit bufs b
    if (s.core c).allFilled s.now bs then
      bs.foldl (fun x b => match x.core0.buf b with
        | none => x
        | some y => { x with core := x.core.castle b, ops := x.ops ++ [(some x.id, y.d.flag, ⟨false, 5, some x.id, 0, x.pc⟩)] }) x
    else x.raise 3 Code.castleUnfilled := by
  unfold TC.startCastle TC.flag0
  simp only [hx.core0, hx.now, view0_buf, view0_flag]
  rfl

theorem startDmain_of_free (hx : OpensIn s c x) (h : (s.core c).din = none) (a : DmaA) :
    x.startDmain a = { x with core := { x.core with din := some ⟨a, x.pc, 0, 0⟩ } } :=
  if_neg (by simp [hx.core0, h])

theorem startDmain_of_running (hx : OpensIn s c x) (h : (s.core c).din ≠ none) (a : DmaA) : x.startDmain a = x.raise 3 Code.dmaOverlap :=
  if_pos (by simpa [hx.core0, Option.isSome_iff_ne_none] using h)

theorem startDmaout_of_free (hx : OpensIn s c x) (h : (s.core c).dout = none) (a : DmaA) :
    x.startDmaout a = { x with core := { x.core with dout := some ⟨a, x.pc, 0, 0⟩ } } :=
  if_neg (by simp [hx.core0, h])

theorem startDmaout_of_running (hx : OpensIn s c x) (h : (s.core c).dout ≠ none) (a : DmaA) : x.startDmaout a = x.raise 3 Code.dmaOverlap :=
  if_pos (by simpa [hx.core0, Option.isSome_iff_ne_none] using h)

/-- A write to a route that is not null waits to be placed in the output store (R194, R255). -/
theorem send_of_route (hx : OpensIn s c x) {route : Nat} (h : (RWord.read ((s.core c).route route).word).tgt ≠ 0) (ord cls : Nat)
    (y : Cargo) : x.send ord cls route y = { x with outs := x.outs ++ [(cls, route, y)] } :=
  if_neg (by simpa [hx.core0] using h)

theorem startSmreq_of_free (hx : OpensIn s c x) (hd : (s.core c).dout = none) {route : Nat}
    (h : (RWord.read ((s.core c).route route).word).tgt ≠ 0) (w : Bool) (dchan addr n stride : Nat) :
    x.startSmreq route w dchan addr n stride =
      { x with outs := x.outs ++ [(1, route, Cargo.entry (smEntry route w dchan addr n stride))] } := by
  rw [← send_of_route hx h 3]
  exact if_neg (by simp [hx.core0, hd])

theorem startRotate_of_free (hx : OpensIn s c x) {d : RotD} (hd : (s.core c).rot = some d) (h : (s.core c).rots = []) (slot nt mode : Nat) :
    x.startRotate slot nt mode = { x with core := { x.core with rots := x.core.rots ++ [⟨slot, nt, mode, 0, x.pc⟩] } } := by
  have hrot : x.core.rot = some d := by rw [hx.core, hd]
  unfold TC.startRotate
  simp [hrot, hx.core0, h]

end Kinds

/-- Settles O28: each memory action does, in a core that may start it, what its kind makes of the tempo as it opens. -/
theorem memoryActionsStart : Obligations.MemoryActionsStart := by
  refine ⟨?cursor, ?castle, ?dma, ?smreq, ?rotate⟩
  case cursor =>
    intro s f k idx arr w b st h hi hm
    have hk : (s.sect f k).isCursor idx = true := by simp [Sect.isCursor, entryAt, hi, hm]
    exact exec_of_memAction h hk rfl hm fun _ _ => rfl
  case castle =>
    intro s f k idx bufs h hi hm c bs full
    have hk : (s.sect f k).isCastle idx = true := by simp [Sect.isCastle, entryAt, hi, hm]
    refine ⟨fun hfull => exec_of_memAction h hk rfl hm fun x hx => ?_, fun hfull => exec_of_memAction h hk rfl hm fun x hx => ?_⟩
    · exact (startCastle_eq hx bufs).trans (if_pos hfull)
    · exact (startCastle_eq hx bufs).trans (if_neg (ne_true_of_eq_false hfull))
  case dma =>
    intro s f k idx a h hi
    refine ⟨fun hm => ?_, fun hm => ?_⟩
    · have hk : (s.sect f k).isDmain idx = true := by simp [Sect.isDmain, entryAt, hi, hm]
      exact ⟨fun hd => exec_of_memAction h hk rfl hm fun x hx => startDmain_of_free hx hd a,
        fun hd => exec_of_memAction h hk rfl hm fun x hx => startDmain_of_running hx hd a⟩
    · have hk : (s.sect f k).isDmaout idx = true := by simp [Sect.isDmaout, entryAt, hi, hm]
      exact ⟨fun hd => exec_of_memAction h hk rfl hm fun x hx => startDmaout_of_free hx hd a,
        fun hd => exec_of_memAction h hk rfl hm fun x hx => startDmaout_of_running hx hd a⟩
  case smreq =>
    intro s f k idx route w dchan addr n stride h hi hm hd hr
    have hk : (s.sect f k).isSmreq idx = true := by simp [Sect.isSmreq, entryAt, hi, hm]
    exact exec_of_memAction h hk rfl hm fun x hx => startSmreq_of_free hx hd hr w dchan addr n stride
  case rotate =>
    intro s f k idx slot nt mode d h hi hm hrot hfree
    have hk : (s.sect f k).isRotate idx = true := by simp [Sect.isRotate, entryAt, hi, hm]
    exact exec_of_memAction h hk rfl hm fun x hx => startRotate_of_free hx hrot hfree slot nt mode

end Sys2Proof.Machine
end

section
/-!
PROOFS. Streams of shared memory at an attachment (R32, R229-R231, R471): requests taken in, and the entries that they read and write.
-/

open Sys2Proof Sys2Proof.Machine

namespace Sys2Proof

/-- A request that finds a free context and none before it in the line takes the context at once (R231). -/
theorem fill_of_free {a : Attach} (q : SmReq) (hroom : a.ctxs.length < 8) (hwait : a.wait = []) :
    ({ a with wait := a.wait ++ [q] } : Attach).fill = { a with ctxs := a.ctxs ++ [q], wait := [] } := by
  obtain ⟨n, hn⟩ : ∃ n, 8 - a.ctxs.length = n + 1 := ⟨7 - a.ctxs.length, by omega⟩
  unfold Attach.fill
  simp [hwait, hn]

theorem agentBind_of_bound {outs : List AgentOut} {c n i : Nat} {o : AgentOut} (ho : outOf outs c n = some (i, o)) (hb : o.bound = true)
    (kind agent part job now : Nat) : agentBind outs kind agent c n part job now = (outs, none) := by
  simp [agentBind, ho, hb]

theorem length_padded (n : Nat) (b : List Byte) : (padTo n b).length = n := by
  simp only [padTo, zeros, List.length_append, List.length_take, List.length_replicate]
  omega

end Sys2Proof

namespace Sys2Proof.Machine

section Frames

variable (s : State) (c d : Nat)

@[simp] theorem att_modAtt_same (f : Attach → Attach) : (s.modAtt c f).att c = f (s.att c) := by simp [att_modAtt]

@[simp] theorem router_modRouter_same (f : Router → Router) : (s.modRouter c f).router c = f (s.router c) := by simp [router_modRouter]

@[simp] theorem vertTaken_streamAddr (x : Src) (q : SmReq) : (s.vertTaken c x).streamAddr d q = s.streamAddr d q := rfl

@[simp] theorem inject_att (port : Nat) (f : Flit) : (s.inject c port f).att d = s.att d := rfl

theorem inject_inq (port : Nat) (f : Flit) :
    ((s.inject c port f).router c).inq = modAt (s.router c).inq port (fun l => pushFlit l f) := by
  unfold State.inject
  rw [router_modRouter_same]

/-- Words made whole change the record of damage alone (R469). -/
theorem mend_state (a n : Nat) : ∃ m, s.mend a n = { s with dmg := m } := by
  unfold State.mend
  split
  · exact ⟨s.dmg, rfl⟩
  · exact ⟨_, rfl⟩

end Frames

section Request

variable {s : State} {c : Nat} {fl : Flit} {e : Entry}

/-- The state once a request has left the vertical port: its route has a credit, and the route's failed streams are gone (R230). -/
def State.requestTaken (s : State) (c : Nat) (x : Src) : State := (s.vertTaken c x).modAtt c fun a => a.buried x

/-- What becomes of a stream whose request was taken in (R230, R231). -/
def State.admitted (s : State) (c : Nat) (fl : Flit) (q : SmReq) : State :=
  let u := s.modAtt c fun a => ({ a with wait := a.wait ++ [q] }).fill
  if q.write then u
  else
    let b := agentBind (u.att c).outs 4 c fl.src.core q.dchan fl.part fl.job u.now
    let v := u.modAtt c fun a => { a with outs := b.1 }
    match b.2 with
    | some f => v.inject c 5 f
    | none => v

/-- A request at the front of the vertical port: it ends at once without an entry to move, fails outside the view, and is a stream of
the attachment otherwise. -/
theorem streamRequest_of_front (hf : s.vertFront c = some fl) (hc : fl.cargo = .entry e) (hw : (s.att c).wants fl.src fl.job = false) :
    s.streamRequest c =
      let q := SmReq.read fl.src fl.part fl.job e
      let u := s.requestTaken c fl.src
      if q.left = 0 then u
      else if (s.streamAddr c q).isNone then
        (if q.write then u.modAtt c fun a => ({ a with wait := a.wait ++ [{ q with dead := true }] }).fill else u).streamFail q Code.streamAddress
      else u.admitted c fl q := by
  unfold State.streamRequest
  simp only [hf, hc, hw, Bool.false_eq_true, if_false]
  rfl

/-- A stream that finds a free context, and an agent that is bound to its return route if it reads, takes the context; nothing leaves
the attachment. -/
theorem admitted_of_free {q : SmReq} (hroom : (s.att c).ctxs.length < 8) (hwait : (s.att c).wait = [])
    (hret : q.write = true ∨ ∃ i o, outOf (s.att c).outs fl.src.core q.dchan = some (i, o) ∧ o.bound = true) :
    (s.admitted c fl q).att c = { s.att c with ctxs := (s.att c).ctxs ++ [q], wait := [] } ∧
    (s.admitted c fl q).mesh = s.mesh ∧ (s.admitted c fl q).mem = s.mem ∧ (s.admitted c fl q).cores = s.cores := by
  unfold State.admitted
  cases hq : q.write with
  | true => simp [fill_of_free q hroom hwait]
  | false =>
    obtain ⟨i, o, ho, hb⟩ := hret.resolve_left (by simp [hq])
    simp [fill_of_free q hroom hwait, agentBind_of_bound ho hb]

end Request

section Address

variable {s : State} {c : Nat} {q : SmReq}

theorem streamAddr_of_outside (h : s.sharedIn q.part q.addr 64 = false) : s.streamAddr c q = none := by
  unfold State.streamAddr
  split
  · exact if_neg (by simp [h])
  · rfl

theorem sharedIn_of_streamAddr {a : Nat} (h : s.streamAddr c q = some a) :
    s.sharedIn q.part q.addr 64 = true ∧ s.sharedAddr q.part q.addr = some a := by
  unfold State.streamAddr at h
  split at h
  · split at h
    · next hin => exact ⟨hin.2, h⟩
    · cases h
  · cases h

end Address

section Entries

variable {s : State} {c i n a : Nat} {q : SmReq}

/-- The entry that a read stream at address `a` returns over the binding `o` of its queue (R230). -/
def State.readFlit (s : State) (c a : Nat) (q : SmReq) (o : AgentOut) : Flit :=
  ⟨agentSrc 4 c q.src.core q.dchan o.ep, ⟨q.src.core, 1, q.dchan, false⟩, .entry (s.mem.read a 64), s.now, q.part, q.job⟩

/-- A read stream whose return route has credit, at an address without an uncorrectable word, sends one entry (R230, R231). -/
theorem smRead_of_credit {o : AgentOut} (hctx : (s.att c).ctxs[i]? = some q) (hread : q.write = false)
    (ho : outOf (s.att c).outs q.src.core q.dchan = some (n, o)) (hb : o.bound = true) (hcred : 0 < o.credit)
    (hroom : (s.router c).room 5 s.now = true) (ha : s.streamAddr c q = some a) (hunc : (s.readErrors a 64).2 = 0) :
    s.smRead c i = ((s.dieErrors (dieOfCore c) (s.readErrors a 64).1 0).modAtt c fun x =>
      ({ x with outs := putAt x.outs n { o with credit := o.credit - 1 } }).advance i q.step).inject c 5 (s.readFlit c a q o) := by
  have hgo : ¬(o.credit = 0 ∨ ¬o.bound = true ∨ ¬(s.router c).room 5 s.now = true) := by
    simp [hb, hroom, Nat.pos_iff_ne_zero.mp hcred]
  unfold State.smRead
  simp only [hctx, hread, Bool.false_eq_true, if_false, ho, if_neg hgo, ha, hunc, if_true]
  rfl

variable {fl : Flit} {e : Entry}

/-- An entry of a write stream that stands at address `a` is written there (R230). -/
theorem smWrite_of_live (hf : s.vertFront c = some fl) (hc : fl.cargo = .entry e)
    (hq : findAt (fun (q : SmReq) => q.takes fl.src fl.job) (s.att c).ctxs = some (i, q)) (hd : q.dead = false)
    (ha : s.streamAddr c q = some a) : s.smWrite c =
      (({ s.vertTaken c fl.src with mem := s.mem.write a (padTo 64 e) }.mend a 64).modAtt c fun x => x.advance i q.step) := by
  unfold State.smWrite
  simp only [hf, hc, hq, hd, Bool.false_eq_true, if_false, vertTaken_streamAddr, ha]
  rfl

/-- An entry of a failed stream is taken in, and that is all (R230). -/
theorem smWrite_of_dead (hf : s.vertFront c = some fl) (hc : fl.cargo = .entry e)
    (hq : findAt (fun (q : SmReq) => q.takes fl.src fl.job) (s.att c).ctxs = some (i, q)) (hd : q.dead = true) :
    s.smWrite c = (s.vertTaken c fl.src).modAtt c fun x => x.advance i { q with left := q.left - 1 } := by
  unfold State.smWrite
  simp only [hf, hc, hq, hd, if_true]

end Entries

/-- Settles O32: a request is refused, fails or takes a context as its first entry's address says; an entry read leaves for its queue,
and an entry written is at its address alone. -/
theorem sharedMemoryStreams : Obligations.SharedMemoryStreams := by
  refine ⟨?request, ?address, ?read, ?write⟩
  case request =>
    intro s f k fl e h c hf hc hw q b u
    have hexec : exec (.streamRequest f k) s = .next (s.streamRequest c) := exec_of_onCore h rfl
    rw [hexec, streamRequest_of_front hf hc hw]
    refine ⟨fun hnone => ?_, fun hsome ⟨a, ha⟩ hroom hwait hret => ?_, fun hsome ha => ?_⟩
    · exact congrArg _ (if_pos hnone)
    · have hatt : (s.requestTaken c fl.src).att c = b := att_modAtt_same _ _ _
      have hret' : q.write = true ∨ ∃ i o, outOf b.outs fl.src.core q.dchan = some (i, o) ∧ o.bound = true := hret
      obtain ⟨hctxs, hmesh, hmem, hcores⟩ := admitted_of_free (hatt ▸ hroom) (hatt ▸ hwait) (hatt ▸ hret')
      refine ⟨_, congrArg _ ((if_neg hsome).trans (if_neg (by simp [q, ha]))), ?_, ?_, hmesh, hmem, hcores⟩
      · rw [hctxs, hatt]
      · rw [hctxs]
    · exact congrArg _ ((if_neg hsome).trans (if_pos (by simp [q, ha])))
  case address => exact fun s c q => ⟨streamAddr_of_outside, fun a => sharedIn_of_streamAddr⟩
  case read =>
    intro s f k i n a q o h c hctx hread ho hb hcred hroom ha hunc
    have hexec : exec (.smReadEntry f k i) s = .next (s.smRead c i) := exec_of_onCore h rfl
    rw [hexec, smRead_of_credit hctx hread ho hb hcred hroom ha hunc]
    exact ⟨_, rfl, (inject_att _ _ _ _ _).trans (att_modAtt_same _ _ _), inject_inq _ _ _ _, rfl, rfl⟩
  case write =>
    intro s f k i fl e q h c hf hc hq
    have hexec : exec (.streamWriteEntry f k) s = .next (s.smWrite c) := exec_of_onCore h rfl
    rw [hexec]
    refine ⟨fun a hlive ha _ => ?_, fun hdead => ?_⟩
    · obtain ⟨m, hm⟩ := mend_state { s.vertTaken c fl.src with mem := s.mem.write a (padTo 64 e) } a 64
      rw [smWrite_of_live hf hc hq hlive ha, hm]
      refine ⟨_, rfl, att_modAtt_same _ _ _, rfl, fun j hj => ?_, rfl, rfl⟩
      exact Memory.byte_write_of_outside _ (by simpa [length_padded] using hj)
    · rw [smWrite_of_dead hf hc hq hdead]
      exact ⟨_, rfl, att_modAtt_same _ _ _, rfl, rfl, rfl⟩

end Sys2Proof.Machine
end

section
/-!
PROOFS. The watchdog limit, a stalemate and its snapshot (R95, R271-R277).
-/

open Sys2Proof Sys2Proof.Machine

namespace Sys2Proof

theorem satAt_eq_min (cap x : Nat) : satAt cap x = min cap x := by
  unfold satAt
  split <;> omega

/-- The registers after a new limit was accepted in cycle `now`: the old one holds in that cycle (R271). -/
def Watch.relimit (w : Watch) (n now : Nat) : Watch := { w with log2 := n, old := w.limit now, newAt := now + 1 }

theorem limit_relimit_now (w : Watch) (n now : Nat) : (w.relimit n now).limit now = w.limit now := by simp [Watch.relimit, Watch.limit]

theorem limit_relimit_next (w : Watch) (n now : Nat) : (w.relimit n now).limit (now + 1) = n := by simp [Watch.relimit, Watch.limit]

end Sys2Proof

namespace Sys2Proof.Machine

section Watchdog

variable {s : State} {o : Org} {p : Nat}

/-- The state after a new watchdog limit was accepted. -/
def State.relimited (s : State) (p n : Nat) : State := s.modPart p fun x => { x with watch := x.watch.relimit n s.now }

/-- PART_WDOG takes a LOG2 of 12 to 30 and no other (R271). -/
theorem writeWdog_eq {v : Nat} (hv : v < 2 ^ 5) :
    s.writeWdog p v = if 12 ≤ v ∧ v ≤ 30 then (s.relimited p v, Code.ok) else (s, Code.badArgument) := by
  have hlog2 : bits v 4 0 = v := Nat.mod_eq_of_lt hv
  unfold State.writeWdog
  rw [hlog2]
  rfl

theorem exec_watchdogWrite (h : s.servedBy o p) (hp : p < 8) {v : Nat} (hv : v < 2 ^ 5) :
    exec (.watchdogWrite o v) s = .next ((s.writeWdog p v).1.complete o 0x0011 (s.writeWdog p v).2 []) := by
  have h32 : v % 2 ^ (8 * 4) = v := Nat.mod_eq_of_lt (by omega)
  have hwrite : s.partWrite o 0x200 (fun _ => v) = (s.writeWdog p v).1.complete o 0x0011 (s.writeWdog p v).2 [] := by
    rw [partWrite_of_servedBy h hp (by decide) (by decide) (show s.partReg p 0x200 = some (4, _) from rfl) (.inl rfl), h32]
    rfl
  rw [← hwrite]
  rfl

theorem exec_snapshotAck (h : s.servedBy o p) (hp : p < 8) :
    exec (.snapshotAck o) s = .next ((s.writeSnapStat p 1).1.complete o 0x0011 (s.writeSnapStat p 1).2 []) := by
  have hwrite : s.partWrite o 0x214 (fun _ => 1) = (s.writeSnapStat p 1).1.complete o 0x0011 (s.writeSnapStat p 1).2 [] := by
    rw [partWrite_of_servedBy h hp (by decide) (by decide) (show s.partReg p 0x214 = some (4, _) from rfl) (.inl rfl)]
    rfl
  rw [← hwrite]
  rfl

/-- What expires a region: a lane that runs without a load, and a HOLD that has reached the limit (R271). -/
theorem expired_eq {r : Nat} {x : LaneRun} (hrun : (s.region p r).run = some x) (hload : (s.region p r).load = none) :
    s.expired p r = decide (2 ^ (s.part p).watch.limit s.now ≤ (s.region p r).hold) := by
  simp [State.expired, hrun, hload]

theorem watch_relimited (n : Nat) : ((s.relimited p n).part p).watch = (s.part p).watch.relimit n s.now := by
  rw [State.relimited, part_modPart_same]

theorem region_relimited (n q r : Nat) : (s.relimited p n).region q r = s.region q r := region_modPart s p q r rfl

/-- In the cycle of the write the old limit decides. -/
theorem expired_relimited (n r : Nat) : (s.relimited p n).expired p r = s.expired p r := by
  have hnow : (s.relimited p n).now = s.now := rfl
  unfold State.expired
  rw [region_relimited, watch_relimited, hnow, limit_relimit_now]

/-- From the next cycle on the new limit decides. -/
theorem expired_relimited_next (n : Nat) {r : Nat} {x : LaneRun} (hrun : (s.region p r).run = some x) (hload : (s.region p r).load = none) :
    { s.relimited p n with now := s.now + 1 }.expired p r = decide (2 ^ n ≤ (s.region p r).hold) := by
  have hregion : { s.relimited p n with now := s.now + 1 }.region p r = s.region p r := region_relimited n p r
  have hwatch : ({ s.relimited p n with now := s.now + 1 }.part p).watch = (s.part p).watch.relimit n s.now := watch_relimited n
  rw [expired_eq (by rw [hregion]; exact hrun) (by rw [hregion]; exact hload), hregion, hwatch, limit_relimit_next]

end Watchdog

/-- Settles O35: a LOG2 in range is taken and any other refused; the limit before it decides in the cycle of the write, and the new one
in the next. -/
theorem watchdogLimit : Obligations.WatchdogLimit := by
  refine ⟨?write, ?expiry, ?register⟩
  case write =>
    intro s o p v h hp hv
    rw [exec_watchdogWrite h hp hv, writeWdog_eq hv]
    refine ⟨fun h12 h30 => ?_, fun hout => ?_⟩
    · rw [if_pos ⟨h12, h30⟩]
      rfl
    · rw [if_neg (by omega)]
      rfl
  case expiry =>
    intro s p r v x hrun hload u
    refine ⟨expired_relimited v r, fun hreach => ?_, fun hbelow => ?_⟩
    · exact (expired_relimited_next v hrun hload).trans (decide_eq_true hreach)
    · exact (expired_relimited_next v hrun hload).trans (decide_eq_false (by omega))
  case register =>
    intro s p hp
    exact regAt_part s hp (by decide)

section Detect

variable {s : State} {p r : Nat} {j : Job}

/-- A stalemate of the lowest expired region fails the job and is kept for the snapshot (R272, R274). -/
theorem staleMate_of_lowest (hj : (s.part p).job = some j) (hf : j.fail = none) (hr : r ∈ j.regions) (he : s.expired p r = true)
    (hlow : ∀ q ∈ j.regions, q < r → s.expired p q = false) :
    s.staleMate p r = s.modPart p fun x => { x with
      job := some { j with fail := some (Code.stalemate, some r, none), snap := true },
      stale := some ⟨r, s.now, x.watch.limit s.now, j.regions.map fun q => (q, (s.region p q).hold)⟩ } := by
  have hnone : ¬(j.regions.any fun q => decide (q < r) && s.expired p q) = true := by
    simpa using hlow
  unfold State.staleMate
  rw [hj]
  exact if_pos ⟨by rw [hf]; rfl, by simpa using hr, he, hnone⟩

end Detect

section Stop

variable {s : State} {p : Nat}

/-- The stop of regions changes nothing of a partition but its regions. -/
theorem part_stopRegions (s : State) (p q : Nat) (rs : List Nat) : ∃ l, (s.stopRegions p rs).part q = { s.part q with regions := l } := by
  induction rs generalizing s with
  | nil => exact ⟨_, rfl⟩
  | cons r rs ih =>
    obtain ⟨l, hl⟩ := ih (s.modRegion p r fun g => { g with pend := none, stopping := true, froze := false, stopAt := s.now, load := none })
    refine ⟨l, hl.trans ?_⟩
    rw [State.modRegion, part_modPart]
    split
    · next e => subst e; rfl
    · rfl

/-- The stop of a job leaves the snapshot registers, and what was detected, as they were. -/
theorem snapshot_stopJob : ((s.stopJob p).part p).watch = (s.part p).watch ∧ ((s.stopJob p).part p).stale = (s.part p).stale := by
  cases h : (s.part p).job with
  | none => rw [stopJob_of_no_job h]; exact ⟨rfl, rfl⟩
  | some j =>
    obtain ⟨l, hl⟩ := part_stopRegions s p p j.regions
    rw [part_stopJob_same h, hl]
    exact ⟨rfl, rfl⟩

end Stop

section Snapshot

variable {s : State} {p : Nat} {x : Stale} {j : Job}

theorem pieceWrite_parts (s : State) (p a : Nat) (bs : List Byte) : (s.pieceWrite p a bs).parts = s.parts := by
  unfold State.pieceWrite
  split
  · next b _ =>
    dsimp only
    split
    · obtain ⟨m, hm⟩ := mend_state { s with mem := s.mem.write b bs } (wordOf b) 16
      rw [hm]
    · rfl
  · rfl

/-- A write to shared memory leaves every partition as it was. -/
theorem viewWrite_parts (s : State) (p a : Nat) (bs : List Byte) : (s.viewWrite p a bs).parts = s.parts := by
  unfold State.viewWrite
  refine (foldl_keeps (g := State.parts) (fun u _ => pieceWrite_parts u p _ _) _ _).trans ?_
  split
  · rfl
  · exact pieceWrite_parts s p a _

/-- The firmware has written the snapshot, or counted it under MISSED (R273). -/
def State.snapshotKept (s : State) (p : Nat) (x : Stale) (j : Job) : State :=
  let w := (s.part p).watch
  if w.size ≠ 0 ∧ ¬ w.valid = true then
    let seq := (w.seq + 1) % 65536
    let y := s.snapshot p x j.id seq (w.size * 4096)
    (s.viewWrite p w.base y.1).modPart p fun z => { z with watch := { z.watch with valid := true, trunc := y.2, seq := seq } }
  else s.modPart p fun z => { z with watch := { z.watch with missed := satAt 255 (z.watch.missed + 1) } }

/-- The stalemate is forgotten, and told to the partition (R272). -/
def State.staleTold (s : State) (p : Nat) (x : Stale) (j : Job) : State :=
  (s.modPart p fun z => { z with stale := none }).event p Code.stalemate { Ev.none with region := x.region, job := j.id }

/-- Once the snapshot is dealt with the stalemate is told, and the job stops (R272). -/
def State.snapshotEnded (s : State) (p : Nat) (x : Stale) (j : Job) : State :=
  ((s.staleTold p x j).modJob p fun j => { j with snap := false }).stopJob p

theorem snapshotDone_eq (hx : (s.part p).stale = some x) (hj : (s.part p).job = some j) :
    s.snapshotDone p = (s.snapshotKept p x j).snapshotEnded p x j := by
  unfold State.snapshotDone
  rw [hx, hj]
  rfl

/-- With a buffer set and no snapshot pending in it, the snapshot is written at the buffer's base (R273). -/
theorem snapshotKept_of_buffer (hsize : (s.part p).watch.size ≠ 0) (hvalid : (s.part p).watch.valid = false) :
    let seq := ((s.part p).watch.seq + 1) % 65536
    let y := s.snapshot p x j.id seq ((s.part p).watch.size * 4096)
    (s.snapshotKept p x j).part p = { s.part p with watch := { (s.part p).watch with valid := true, trunc := y.2, seq := seq } } ∧
    (s.snapshotKept p x j).mem = (s.viewWrite p (s.part p).watch.base y.1).mem := by
  intro seq y
  have hkept : s.snapshotKept p x j = (s.viewWrite p (s.part p).watch.base y.1).modPart p fun z =>
      { z with watch := { z.watch with valid := true, trunc := y.2, seq := seq } } := if_pos ⟨hsize, by simp [hvalid]⟩
  rw [hkept, part_modPart_same, part_of_parts (viewWrite_parts s p (s.part p).watch.base y.1)]
  exact ⟨rfl, rfl⟩

/-- With no buffer, or one whose snapshot was not acknowledged, MISSED counts (R273). -/
theorem snapshotKept_of_no_buffer (h : (s.part p).watch.size = 0 ∨ (s.part p).watch.valid = true) :
    (s.snapshotKept p x j).part p = { s.part p with watch := { (s.part p).watch with missed := satAt 255 ((s.part p).watch.missed + 1) } } ∧
    (s.snapshotKept p x j).mem = s.mem := by
  have hkept : s.snapshotKept p x j = s.modPart p fun z => { z with watch := { z.watch with missed := satAt 255 (z.watch.missed + 1) } } := by
    refine if_neg ?_
    rintro ⟨hsize, hvalid⟩
    exact h.elim hsize hvalid
  rw [hkept, part_modPart_same]
  exact ⟨rfl, rfl⟩

/-- What the end of a stalemate leaves of the partition's registers, its job and memory. -/
theorem snapshotEnded_leaves {i : Job} (hj : (s.part p).job = some j) :
    ((s.snapshotEnded p x i).part p).watch = (s.part p).watch ∧ ((s.snapshotEnded p x i).part p).stale = none ∧
    ((s.snapshotEnded p x i).part p).job = some { j with snap := false, stopping := true } ∧ (s.snapshotEnded p x i).mem = s.mem := by
  have htold : Told (s.modPart p fun z => { z with stale := none }) (s.staleTold p x i) := (Told.refl _).event ..
  have hpart := htold.part p
  rw [part_modPart_same] at hpart
  have hjob : (((s.staleTold p x i).modJob p fun j => { j with snap := false }).part p).job = some { j with snap := false } := by
    rw [part_modJob, if_pos rfl, hpart]
    exact congrArg (Option.map _) hj
  refine ⟨snapshot_stopJob.1.trans ?_, snapshot_stopJob.2.trans ?_, ?_, stopJob_mem.trans htold.mem⟩
  · rw [part_modJob, if_pos rfl, hpart]
  · rw [part_modJob, if_pos rfl, hpart]
  · rw [State.snapshotEnded, part_stopJob_same hjob]

end Snapshot

/-- Settles O36: the lowest expired region is charged; the snapshot's end writes or counts, and stops the job; VALID acknowledges. -/
theorem stalemateAndSnapshot : Obligations.StalemateAndSnapshot := by
  refine ⟨?detect, ?done, ?ack⟩
  case detect =>
    intro s p r j h hj hf hr he hlow
    have hexec : exec (.stalemate p r) s = .next (s.staleMate p r) := exec_of_live h rfl
    rw [hexec, staleMate_of_lowest hj hf hr he hlow]
  case done =>
    intro s p x j hruns hp hx hj
    have hexec : exec (.stalemateSnapshotDone p) s = .next (s.snapshotDone p) := exec_of_runs hruns (decide_eq_true hp) rfl
    rw [hexec, snapshotDone_eq hx hj]
    refine ⟨fun hsize hvalid => ⟨_, rfl, ?_⟩, fun hfull => ⟨_, rfl, ?_⟩⟩
    · obtain ⟨hpart, hwritten⟩ := snapshotKept_of_buffer (x := x) (j := j) hsize hvalid
      obtain ⟨hwatch, hstale, hjob, hmem⟩ := snapshotEnded_leaves (x := x) (i := j) ((congrArg Part.job hpart).trans hj)
      rw [hwatch, hpart]
      exact ⟨rfl, rfl, rfl, hstale, hjob, hmem.trans hwritten⟩
    · obtain ⟨hpart, hkept⟩ := snapshotKept_of_no_buffer (x := x) (j := j) hfull
      obtain ⟨hwatch, hstale, hjob, hmem⟩ := snapshotEnded_leaves (x := x) (i := j) ((congrArg Part.job hpart).trans hj)
      rw [hwatch, hpart]
      exact ⟨rfl, satAt_eq_min _ _, hstale, hjob, hmem.trans hkept⟩
  case ack =>
    intro s o p h hp
    rw [exec_snapshotAck h hp]
    rfl

end Sys2Proof.Machine
end

section
/-!
PROOFS. Items that leave an output store, flits that routers forward, and entries that arrive (R34, R40, R245, R249-R252).
-/

open Sys2Proof Sys2Proof.Machine

namespace Sys2Proof

section NextItem

variable {c : Core} {r i : Nat} {o : OutE}

/-- Item `i` of the output store may leave along route `r`: it has its credit, and no earlier item of the route leads to the same end
(R249, R250). -/
def Core.mayLeave (c : Core) (r i : Nat) (o : OutE) : Prop :=
  o.route = r ∧ o.free_ (c.route r) = true ∧ ∀ (j : Nat) (u : OutE), j < i → c.out[j]? = some u → u.route = r → u.sameEnd o = false

/-- An element of a list, numbered from 0. -/
theorem getElem?_numbered {α : Type} {l : List α} {j : Nat} {x : α × Nat} :
    (l.zip (List.range l.length))[j]? = some x ↔ l[j]? = some x.1 ∧ x.2 = j := by
  rw [List.getElem?_zip_eq_some]
  refine and_congr_right fun h => ?_
  rw [List.getElem?_range (List.getElem?_eq_some_iff.mp h).1]
  exact ⟨fun e => (Option.some.inj e).symm, fun e => congrArg some e.symm⟩

/-- The next item of a route is the first that may leave. -/
theorem nextOut_eq_some_iff : c.nextOut r = some (i, o) ↔
    c.out[i]? = some o ∧ c.mayLeave r i o ∧ ∀ (j : Nat) (u : OutE), j < i → c.out[j]? = some u → ¬c.mayLeave r j u := by
  unfold Core.nextOut
  have hat := fun j x => getElem?_numbered (l := c.out) (j := j) (x := x)
  generalize c.out.zip (List.range c.out.length) = l at *
  have hpred : ∀ x : OutE × Nat, (x.1.route == r && x.1.free_ (c.route r) &&
      !(l.any fun y => decide (y.2 < x.2) && y.1.route == r && y.1.sameEnd x.1)) = true ↔ c.mayLeave r x.2 x.1 := by
    have hmem : ∀ y, y ∈ l ↔ c.out[y.2]? = some y.1 := fun y => by simp [List.mem_iff_getElem?, hat]
    intro x
    simp only [Core.mayLeave, Bool.and_eq_true, beq_iff_eq, Bool.not_eq_true', List.any_eq_false, decide_eq_true_eq, hmem, Prod.forall]
    grind
  simp only [Option.map_eq_some_iff, List.find?_eq_some_iff_getElem, hpred, Bool.not_eq_true', ← Bool.not_eq_true]
  constructor
  · rintro ⟨⟨o', i'⟩, ⟨hmay, k, hk, he, hbefore⟩, heq⟩
    obtain ⟨rfl, rfl⟩ : i' = i ∧ o' = o := by simpa using heq
    obtain ⟨hout, rfl⟩ := (hat k _).mp (List.getElem?_eq_some_iff.mpr ⟨hk, he⟩)
    refine ⟨hout, hmay, fun j u hj hu => ?_⟩
    obtain ⟨hjl, hju⟩ := List.getElem?_eq_some_iff.mp ((hat j (u, j)).mpr ⟨hu, rfl⟩)
    have hnot := hbefore j hj
    rwa [hju] at hnot
  · rintro ⟨hout, hmay, hbefore⟩
    obtain ⟨hil, hio⟩ := List.getElem?_eq_some_iff.mp ((hat i (o, i)).mpr ⟨hout, rfl⟩)
    refine ⟨(o, i), ⟨hmay, i, hil, hio, fun j hj => ?_⟩, rfl⟩
    obtain ⟨hju, hidx⟩ := (hat j l[j]).mp (List.getElem?_eq_getElem _)
    rw [hidx]
    exact hbefore j _ hj hju

theorem free_iff_of_entry {x : Route} {e : Entry} (h : o.cargo = .entry e) : o.free_ x = true ↔ 0 < x.credits o.ep := by
  simp [OutE.free_, h]

/-- An entry that leaves takes one credit of its route's binding (R250). -/
theorem after_of_entry {x : Route} {e : Entry} (h : o.cargo = .entry e) (hep : o.ep = x.ep) : o.after x = { x with credit := x.credit - 1 } := by
  simp [OutE.after, h, Route.modCredits, hep]

end NextItem

/-- A wide port that took no flit in a cycle takes two in it, and no third (R30, R32, R36). -/
theorem portFree_twice {t now : Nat} (h : t ≤ 2 * now) : portFree true t now = true ∧ portFree true (portNext true t now) now = true ∧
    portFree true (portNext true (portNext true t now) now) now = false := by
  simp only [portFree, portNext, if_true, decide_eq_true_eq, decide_eq_false_iff_not]
  omega

/-- A router after its port took flit `n` of input `i` in cycle `now`. -/
def Router.served (x : Router) (wide : Bool) (port i n now : Nat) : Router :=
  { x with inq := modAt x.inq i fun l => dropAt l n, last := putAt x.last port i,
           freeAt := putAt x.freeAt port (portNext wide (nth 0 x.freeAt port) now) }

/-- A router whose flit left the mesh: by the local port, the vertical port or the outward side (R252). -/
def Router.leftBy (x : Router) (port : Nat) (f : Flit) : Router :=
  if port = 4 then { x with arrL := x.arrL ++ [f] }
  else if port = 5 then { x with arrV := x.arrV ++ [f] }
  else { x with arrE := x.arrE ++ [f] }

end Sys2Proof

namespace Sys2Proof.Machine

section Store

variable {s : State} {c r i : Nat} {o : OutE}

/-- The partition whose region a core belongs to, and 0 for a core without one. -/
def State.sendsFor (s : State) (c : Nat) : Nat := match (s.core c).owner with | some (p, _) => p | none => 0

/-- What an UNBIND takes back of the credits still on their way to its route; other items take back none (R249). -/
def State.takenBack (s : State) (x : Src) (k : Cargo) : State × Nat :=
  match k with
  | .unbind _ => s.recall x
  | _ => (s, 0)

/-- The state once item `o`, at place `i` of the store, has left: `y` is what it took back with it. -/
def State.itemSent (s : State) (y : State × Nat) (c r i : Nat) (o : OutE) : State :=
  let k := s.core c
  let u := y.1.setCore c ({ k with out := dropAt k.out i }.setRoute r (o.after (k.route r)))
  (u.inject c 4 ⟨routeSrc c r o.ep, o.dst, (o.leaving (k.route r)).plus y.2, u.now, s.sendsFor c, u.jobId (s.sendsFor c)⟩).pressure c

theorem storeSend_of_item (hnext : (s.core c).nextOut r = some (i, o)) (hopen : s.shutOut c = false) :
    s.storeSend c r = s.itemSent (s.takenBack (routeSrc c r o.ep) o.cargo) c r i o := by
  unfold State.storeSend
  simp only [hnext, hopen, Bool.false_eq_true, if_false]
  rfl

theorem takenBack_of_other (x : Src) {k : Cargo} (h : ∀ m, k ≠ .unbind m) : s.takenBack x k = (s, 0) := by
  cases k with
  | unbind m => exact absurd rfl (h m)
  | _ => rfl

theorem cargo_plus_zero (k : Cargo) : k.plus 0 = k := by cases k <;> rfl

theorem leaving_of_unbind (x : Route) {m : Nat} (h : o.cargo = .unbind m) (n : Nat) : (o.leaving x).plus n = .unbind (x.credits o.ep + n) := by
  simp [OutE.leaving, Cargo.plus, h]

/-- The local input is no edge of the mesh: a flit that enters there only joins its queue. -/
theorem inject_local (f : Flit) : s.inject c 4 f = s.modRouter c fun x => { x with inq := modAt x.inq 4 fun l => pushFlit l f } := rfl

end Store

section Idle

variable (s : State)

theorem whileOn_self : s.whileOn s = s := ite_self _

theorem guarded_self (ok : Bool) : s.guarded ok s = .next s := congrArg Host.Outcome.next (ite_self _)

end Idle

section Forward

variable {s : State} {c port i n d : Nat} {fl : Flit}

/-- The flit that an output port serves next: its input, its place there, and the flit (R252). -/
def State.turnAt (s : State) (c port : Nat) : Option (Nat × Nat × Flit) :=
  (inputOrder (nth 5 (s.router c).last port)).findSome? fun i => (waiting c port s.now (nth [] (s.router c).inq i)).map fun w => (i, w.1, w.2)

/-- The state after output port `port` of a router took flit `n` of input `i`. -/
def State.portServed (s : State) (c port i n : Nat) : State := s.modRouter c fun x => x.served (widePort s.grade c port) port i n s.now

theorem flitForward_of_busy (h : portFree (widePort s.grade c port) (nth 0 (s.router c).freeAt port) s.now = false) :
    s.flitForward c port = s := by
  unfold State.flitForward
  simp [h]

theorem crossFull_of_same_die (h : dieOfCore c = dieOfCore d) (side : Nat) : s.crossFull c d side = false := by
  simp [State.crossFull, h]

section Served

variable (hfree : portFree (widePort s.grade c port) (nth 0 (s.router c).freeAt port) s.now = true) (hturn : s.turnAt c port = some (i, n, fl))
include hfree hturn

/-- Toward a neighbour over a link that works the flit stays while the bridge holds it, and is at the facing input otherwise (R34, R41). -/
theorem flitForward_of_neighbour (hd : neighbour s.grade c (RPort.ofNum port) = some d)
    (hlink : nth false (s.router d).dead (RPort.ofNum port).facing.num = false) :
    s.flitForward c port =
      let side := (RPort.ofNum port).facing.num
      if s.crossFull c d side then s
      else if dieOfCore c = dieOfCore d then (s.portServed c port i n).inject d side { fl with ready := s.now + 2 + 0 }
      else (s.fresh.1.portServed c port i n).inject d side { fl with ready := s.now + 2 + (10 + Config.freeNat s.free % 5) } := by
  unfold State.turnAt at hturn
  unfold State.flitForward
  simp only [hfree, hturn, hd, hlink, Bool.not_true, Bool.false_eq_true, if_false]
  split
  · rfl
  · split <;> rfl

theorem flitForward_outward (hd : neighbour s.grade c (RPort.ofNum port) = none) :
    s.flitForward c port =
      (s.portServed c port i n).modRouter c fun x => x.leftBy port { fl with ready := if i = 4 then s.now + 2 else s.now } := by
  unfold State.turnAt at hturn
  unfold State.flitForward
  simp only [hfree, hturn, hd, Bool.not_true, Bool.false_eq_true, if_false]
  unfold Router.leftBy
  split
  · rfl
  · split <;> rfl

end Served

end Forward

theorem entryArrival_of_entry {s : State} {c : Nat} {fl : Flit} {e : Entry} (hf : s.localFront c = some fl) (hc : fl.cargo = .entry e) :
    s.entryArrival c = (s.localTaken c).enterQueue c fl.dst.chan fl.src e := by
  unfold State.entryArrival
  simp only [hf, hc]

/-- Settles O30: an item leaves the store as the first of its route that may, a flit leaves a router by the neighbour or the end that its
port leads to, and an entry that is ready enters its queue. -/
theorem entriesLeaveAndArrive : Obligations.EntriesLeaveAndArrive := by
  refine ⟨?item, ?unbind, ?next, ?credit, ?forward, ?busy, ?ports, ?arrival⟩
  case item =>
    intro s f k route i o h c hnext hopen hcargo
    have hexec : exec (.outputStoreSend f k route) s = .next (s.storeSend c route) := exec_of_onCore h rfl
    rw [hexec, storeSend_of_item hnext hopen, takenBack_of_other _ hcargo, State.itemSent, inject_local, cargo_plus_zero]
    rfl
  case unbind =>
    intro s f k route i m o h c hnext hopen hcargo u
    have hexec : exec (.outputStoreSend f k route) s = .next (s.storeSend c route) := exec_of_onCore h rfl
    rw [hexec, storeSend_of_item hnext hopen, State.itemSent, inject_local, leaving_of_unbind _ hcargo, hcargo]
    rfl
  case next =>
    intro k route i o
    refine ⟨fun h => ?_, fun hout hroute hfree hbefore => ?_⟩
    · obtain ⟨hout, ⟨hroute, hfree, hend⟩, -⟩ := nextOut_eq_some_iff.mp h
      exact ⟨hout, hroute, hfree, hend⟩
    · have hmay : k.mayLeave route i o := ⟨hroute, hfree, fun j u hj hu hur => absurd hur (hbefore j u hj hu)⟩
      exact nextOut_eq_some_iff.mpr ⟨hout, hmay, fun j u hj hu hother => hbefore j u hj hu hother.1⟩
  case credit =>
    intro o x e he
    refine ⟨free_iff_of_entry he, fun hep => ?_⟩
    rw [after_of_entry he hep]
    exact ⟨rfl, rfl⟩
  case forward =>
    intro s f k port i n d fl h c wide hfree hturn take out
    have hexec : exec (.flitForward f k port) s = .next (s.flitForward c port) := exec_of_onCore h rfl
    rw [hexec]
    refine ⟨fun hd hlink => ⟨fun hdie => ?_, fun hdie hroom => ?_, fun hfull => ?_⟩, fun hd => ⟨?_, ?_, ?_⟩⟩
    · rw [flitForward_of_neighbour hfree hturn hd hlink]
      simp only [crossFull_of_same_die hdie, hdie, Bool.false_eq_true, if_false, if_true]
      rfl
    · rw [flitForward_of_neighbour hfree hturn hd hlink]
      simp only [hroom, hdie, Bool.false_eq_true, if_false]
      rfl
    · rw [flitForward_of_neighbour hfree hturn hd hlink]
      simp only [hfull, if_true]
    all_goals
      intro hport
      rw [flitForward_outward hfree hturn hd]
    · subst hport
      rfl
    · subst hport
      rfl
    · have hleft : ∀ (x : Router) (f : Flit), x.leftBy port f = { x with arrE := x.arrE ++ [f] } := fun x f => by
        rw [Router.leftBy, if_neg (by omega), if_neg (by omega)]
      simp only [hleft]
      rfl
  case busy =>
    intro s f k port h
    have hexec : exec (.flitForward f k port) s = s.guarded (coreActive s.grade f k) (s.whileOn (s.flitForward (coreId f k) port)) := rfl
    rw [hexec, flitForward_of_busy h, whileOn_self, guarded_self]
  case ports =>
    exact fun t now => ⟨fun _ => rfl, fun h => portFree_twice h⟩
  case arrival =>
    intro s f k fl e h c hf hc
    have hexec : exec (.entryArrival f k) s = .next (s.entryArrival c) := exec_of_onCore h rfl
    rw [hexec, entryArrival_of_entry hf hc]
    rfl

end Sys2Proof.Machine
end

section
/-!
PROOFS. Barriers (R265, R358) and the ends of a step: its timeout, its completion and its abort (R345, R347, R361-R363).
-/

open Sys2Proof Sys2Proof.Machine

namespace Sys2Proof.Machine

theorem memb_of_membs {s t : State} (h : t.membs = s.membs) (c : Nat) : t.memb c = s.memb c := by rw [State.memb, h, State.memb]

section Told

variable (s : State)

theorem told_membEvent (c code b a0 a1 : Nat) : Told s (s.membEvent c code b a0 a1) := by
  unfold State.membEvent
  split
  · exact (Told.refl s).event _ _ _
  · exact Told.refl s

theorem told_stepRecord (c code tag step port lvl pos entry : Nat) : Told s (s.stepRecord c code tag step port lvl pos entry) := by
  unfold State.stepRecord
  split
  · exact (Told.refl s).notify _ _
  · exact Told.refl s

end Told

theorem laneTab_of_memb {s t : State} {c : Nat} (h : t.memb c = s.memb c) : t.laneTab c = s.laneTab c := by
  unfold State.laneTab
  rw [h]

section Barrier

variable {s : State} {c p : Nat}

/-- An arrival at a barrier that is free, on a membership where the module is a member, starts the barrier (R265). -/
theorem barrierArrive_of_due {y : Nat × RingTab} (hc : s.ctxOf p (s.part p).barrier.ring = some c) (hen : (s.part p).barrier.en = true)
    (hdue : (s.part p).barrier.due = true) (hbusy : (s.part p).barrier.busy = false)
    (hset : ((s.part p).cflag (s.part p).barrier.arrive).read s.now = true) (htab : s.laneTab c = some y) (hmember : y.2.h.standby = false) :
    s.barrierArrive p = (((s.setChipFlag p (s.part p).barrier.arrive ⟨false, 6, none, 0, 0⟩).modPart p fun z =>
      { z with barrier := { z.barrier with busy := true } }).barStart c (s.part p).barrier.levels true).barNext c := by
  unfold State.barrierArrive
  simp only [hc]
  exact if_pos ⟨hen, hdue, by simp [hbusy], hset, by simp [htab, hmember]⟩

variable {x : Bar}

theorem barTimeout_of_told (hbar : (s.memb c).bar = some x) (htold : x.told = true) : s.barTimeout c = s := by
  unfold State.barTimeout
  simp only [hbar, htold, if_true]

/-- A barrier that has not been told runs out of time: the event names the port of the lane, and the barrier's owner ends it (R358). -/
theorem barTimeout_of_lane {b : Nat} {tab : RingTab} (hbar : (s.memb c).bar = some x) (htold : x.told = false)
    (htab : s.laneTab c = some (b, tab)) :
    s.barTimeout c =
      let u := s.stepEvent c Code.ringTimeout b x.num (s.ownModid c b)
      if x.chip then ((u.modMemb c fun m => { m with bar := none }).chipBarEnd c false).barNext c
      else u.stepFail c Code.ringTimeout b x.lane.lvl (tab.h.pos x.lane.lvl) 0 := by
  have hafter : (s.stepEvent c Code.ringTimeout b x.num (s.ownModid c b)).laneTab c = some (b, tab) :=
    (laneTab_of_memb (memb_of_membs (told_membEvent ..).memb c)).trans htab
  unfold State.barTimeout
  simp only [hbar, htold, htab, hafter, Bool.false_eq_true, if_false]

end Barrier

section Progress

variable {s : State} {c : Nat} {t : Step}

theorem ringTimeout_of_awaited (hstep : (s.memb c).step = some t) (h : t.spread = false ∨ t.lane.unacked ≠ []) :
    s.ringTimeout c = s.stepFail c Code.ringTimeout (s.lagging c).1 0xFF (s.lagging c).2 0 := by
  unfold State.ringTimeout
  simp only [hstep]
  exact if_neg (by simpa [or_iff_not_imp_left] using h)

theorem ringTimeout_of_nothing_awaited (hstep : (s.memb c).step = some t) (hspread : t.spread = true) (hacked : t.lane.unacked = []) :
    s.ringTimeout c = s := by
  unfold State.ringTimeout
  simp only [hstep, hspread, hacked]
  rfl

/-- A step that failed runs no more, and its membership holds the code (R363). -/
theorem stepFail_ends (hstep : (s.memb c).step = some t) (code port lvl pos entry : Nat) :
    ((s.stepFail c code port lvl pos entry).memb c).step = none ∧ ((s.stepFail c code port lvl pos entry).memb c).code = code := by
  unfold State.stepFail
  simp only [hstep]
  rw [memb_of_membs (told_stepRecord ..).memb c, memb_modMemb_same]
  exact ⟨rfl, rfl⟩

end Progress

section Complete

variable {s : State} {c p m : Nat} {t : Step}

/-- The owner states of a step's updated shards are marked, port by port, up to the first that its stack could not take: that port is
named (R351). -/
def State.markOwners (s : State) (t : Step) : State × Option Nat :=
  t.ports.foldl (fun (acc : State × Option Nat) x =>
    if x.2.full.isNone ∨ acc.2.isSome then acc
    else
      let y := acc.1.reqWrite (nth 0 t.o.ostate x.1 + 2) [1]
      let z := if y.2 then y.1.reqWrite (nth 0 t.o.ostate x.1 + 36) (natLe 4 t.d.step) else y
      (z.1, if z.2 then none else some x.1)) (s, none)

/-- A step that is done leaves the membership with its code, sets its DONE flag and posts its record (R361). -/
def State.stepOver (s : State) (c p : Nat) (t : Step) (code lastOk : Nat) : State :=
  let u := s.modMemb c fun x => { x with step := none, code := code, lastOk := lastOk }
  (if t.d.dfen then u.setChipFlag p t.d.done ⟨true, 6, none, 0, 0⟩ else u).stepRecord c code t.d.tag t.d.step 0xFF 0xFF 0xFF 0

theorem stepDone_of_skipped (hdone : s.stepComplete c = true) (hstep : (s.memb c).step = some t) (hholder : s.ctxHolder c = some (p, m))
    (hskip : t.skipped = true) : s.stepDone c = s.stepOver c p t Code.gradNonfinite (s.memb c).lastOk := by
  unfold State.stepDone State.stepEnd
  simp only [hdone, hstep, hholder, hskip, if_true]
  rfl

theorem stepDone_of_updated {v : State} {lost : Option Nat} (hdone : s.stepComplete c = true) (hstep : (s.memb c).step = some t)
    (hholder : s.ctxHolder c = some (p, m)) (hskip : t.skipped = false) (hmark : s.markOwners t = (v, lost)) :
    s.stepDone c = match lost with
      | none => v.stepOver c p t Code.ok t.d.step
      | some b => v.stepFail c Code.uncorrectableData b 0xFF 0xFF 0 := by
  unfold State.markOwners at hmark
  unfold State.stepDone State.stepEnd
  simp only [hdone, hstep, hholder, hskip, Bool.false_eq_true, if_true, if_false, hmark]
  cases lost <;> rfl

end Complete

section Paced

variable {s t : State} {w : Client}

theorem usedStacks_of_stks (h : t.stks = s.stks) : s.usedStacks t = [] := by
  unfold State.usedStacks State.stack
  simp [h]

/-- What accesses no stack waits for none (R45). -/
theorem paced_of_stks (h : t.stks = s.stks) : s.paced w t = t := by
  unfold State.paced State.roomFor State.through
  rw [usedStacks_of_stks h]
  rfl

theorem setChipFlag_stks (s : State) (p i : Nat) (o : FlagOp) : (s.setChipFlag p i o).stks = s.stks := by
  unfold State.setChipFlag
  dsimp only
  split <;> rfl

/-- The end of a step reaches flags, records and the membership, and no stack. -/
theorem stepOver_stks (s : State) (c p : Nat) (t : Step) (code lastOk : Nat) : (s.stepOver c p t code lastOk).stks = s.stks := by
  unfold State.stepOver
  refine (congrArg State.stks (told_stepRecord ..).eq).trans ?_
  dsimp only
  split
  · exact setChipFlag_stks _ _ _ _
  · rfl

end Paced

section Rctl

variable {s : State} {p m c : Nat} {o : Org}

theorem partReg_rctl (hm : m < 8) : s.partReg p (0x2140 + 4 * m) = (s.ctxOf p m).map fun _ => (4, 0) := by
  interval_cases m <;> rfl

theorem writePart_rctl (hm : m < 8) (v : Nat) : s.writePart p (0x2140 + 4 * m) v = s.writeRctl p m v := by
  interval_cases m <;> rfl

theorem exec_ringStepAbort (h : s.servedBy o p) (hp : p < 8) (hm : m < 8) (hc : s.ctxOf p m = some c) :
    exec (.ringStepAbort o m) s = .next ((s.writeRctl p m 1).1.complete o 0x0011 (s.writeRctl p m 1).2 []) := by
  have hwrite : s.partWrite o (0x2140 + 4 * m) (fun _ => 1) = (s.writeRctl p m 1).1.complete o 0x0011 (s.writeRctl p m 1).2 [] := by
    have hreg : s.partReg p (0x2140 + 4 * m) = some (4, 0) := (partReg_rctl hm).trans (congrArg (Option.map _) hc)
    rw [partWrite_of_servedBy h hp (by omega) (by omega) hreg (.inl rfl), writePart_rctl hm]
    rfl
  rw [← hwrite]
  rfl

/-- An abort of a step that runs and is not complete fails it (R362). -/
theorem writeRctl_of_running {t : Step} (hc : s.ctxOf p m = some c) (hstep : (s.memb c).step = some t) (hdone : s.stepComplete c = false) :
    s.writeRctl p m 1 = (s.stepFail c Code.ringAborted 0xFF 0xFF 0xFF 0, Code.ok) := by
  have habort : s.stepAbort c = (s.stepFail c Code.ringAborted 0xFF 0xFF 0xFF 0, true) := by
    unfold State.stepAbort
    simp [hstep, hdone]
  unfold State.writeRctl
  simp only [hc, habort]
  rfl

/-- With no step running the abort changes nothing, and tells whether the last step has completed (R362; log entry 55). -/
theorem writeRctl_of_idle (hc : s.ctxOf p m = some c) (hstep : (s.memb c).step = none) :
    s.writeRctl p m 1 = (s, if (s.memb c).cur ≠ 0 ∧ (s.memb c).failed = false ∧ ((s.memb c).code = Code.ok ∨ (s.memb c).code = Code.gradNonfinite)
      then Code.abortNoEffect else Code.ok) := by
  have habort : s.stepAbort c = (s, false) := by
    unfold State.stepAbort
    simp [hstep]
  unfold State.writeRctl
  simp only [hc, habort]
  refine congrArg (Prod.mk s) (if_congr ?_ rfl rfl)
  simp [and_assoc]

end Rctl

/-- Settles O47: an arrival that is due starts its barrier; a timeout ends the barrier, or the step, that still awaits something; a complete
step ends with its code; an abort fails the step that is not complete, and changes nothing where none runs. -/
theorem barriersStepsEnd : Obligations.BarriersStepsEnd := by
  refine ⟨?arrive, ?timeout, ?progress, ?complete, ?abort⟩
  case arrive =>
    intro s p c x hruns hp y hc hen hdue hbusy hset htab hmember
    have hexec : exec (.barrierArrive p) s = .next (s.barrierArrive p) := exec_of_runs hruns (decide_eq_true hp) rfl
    rw [hexec, barrierArrive_of_due hc hen hdue hbusy hset htab hmember]
  case timeout =>
    intro s c b x tab hruns hc hbar htab u
    have hexec : exec (.barrierTimeout c) s = .next (s.barTimeout c) := exec_of_runs hruns (decide_eq_true hc) rfl
    rw [hexec]
    refine ⟨fun htold hchip => ?_, fun htold hstep => ?_, fun htold => ?_⟩
    · rw [barTimeout_of_lane hbar htold htab]
      simp only [hchip, if_true]
      rfl
    · rw [barTimeout_of_lane hbar htold htab]
      simp only [hstep, Bool.false_eq_true, if_false]
      rfl
    · rw [barTimeout_of_told hbar htold]
  case progress =>
    intro s c t hruns hc hstep v
    have hexec : exec (.ringProgressTimeout c) s = .next (s.ringTimeout c) := exec_of_runs hruns (decide_eq_true hc) rfl
    rw [hexec]
    refine ⟨fun hawaits => ?_, fun hspread hacked => ?_, stepFail_ends hstep ..⟩
    · rw [ringTimeout_of_awaited hstep hawaits]
    · rw [ringTimeout_of_nothing_awaited hstep hspread hacked]
  case complete =>
    intro s v c p m t lost hruns hc hdone hstep hholder
    have hexec : exec (.stepComplete c) s = .next (s.paced (.link (s.lanePort c)) (s.stepDone c)) :=
      exec_of_runs hruns (decide_eq_true hc) rfl
    rw [hexec]
    refine ⟨fun hskip => ?_, fun hskip hmark => ?_⟩
    · rw [stepDone_of_skipped hdone hstep hholder hskip, paced_of_stks (stepOver_stks ..)]
      rfl
    · intro u r
      have hover : s.stepDone c = r := by
        rw [stepDone_of_updated hdone hstep hholder hskip hmark]
        cases lost <;> rfl
      rw [hover]
      exact ⟨fun hroom => congrArg _ (if_pos hroom), fun hroom => congrArg _ (if_neg (by simp [hroom]))⟩
  case abort =>
    intro s o m p c h hp hm hc
    rw [exec_ringStepAbort h hp hm hc]
    refine ⟨fun t hstep hdone => ?_, fun hstep => ?_⟩
    · rw [writeRctl_of_running hc hstep hdone]
    · rw [writeRctl_of_idle hc hstep]

end Sys2Proof.Machine
end

section
/-!
PROOFS. Edge agents and their descriptors: what an agent takes, refuses and starts (R287-R297).
-/

open Sys2Proof Sys2Proof.Machine

namespace Sys2Proof

/-- A table whose entries are all changed, the change leaving what an unlisted key reads as. -/
theorem get_mapped {α : Type} {d : α} {f : α → α} (hd : f d = d) (m : SMap α) (k : Nat) :
    SMap.get d (m.map fun e => (e.1, f e.2)) k = f (SMap.get d m k) := by
  induction m with
  | nil => exact hd.symm
  | cons e m ih =>
    simp only [List.map_cons, SMap.get]
    split
    · rfl
    · exact ih

/-- An agent after the stop of a job's requests (R297). -/
def EdgeAgent.stopFor (a : EdgeAgent) (p job : Nat) : EdgeAgent :=
  { a with
    reqs := a.reqs.filter fun q => !(q.part == p && q.job == job),
    drains := a.drains ++ (a.reqs.filter fun q => q.part == p && q.job == job).filterMap fun q =>
      if q.left = 0 then none else some ⟨q.src, if q.d.op = 2 then 2 else 3, q.left⟩ }

end Sys2Proof

namespace Sys2Proof.Machine

section Requests

variable (s : State) (c : Nat)

@[simp] theorem agent_modAgent_same (f : EdgeAgent → EdgeAgent) : (s.modAgent c f).agent c = f (s.agent c) := by simp [agent_modAgent]

/-- A change of an agent that keeps its requests keeps the requests of every agent. -/
theorem reqs_modAgent {f : EdgeAgent → EdgeAgent} (hf : ∀ a, (f a).reqs = a.reqs) (d : Nat) :
    ((s.modAgent d f).agent c).reqs = (s.agent c).reqs := by
  rw [agent_modAgent]
  split
  · next h => rw [hf, h]
  · rfl

/-- The stop of a job's requests adds none (R297). -/
theorem reqs_stopRequests (p job : Nat) {r : EReq} (hr : r ∈ ((s.stopRequests p job).agent c).reqs) : r ∈ (s.agent c).reqs := by
  unfold State.stopRequests at hr
  rw [foldl_keeps (g := fun u => (u.agent c).reqs)] at hr
  · have hagent := get_mapped (d := EdgeAgent.reset) (f := fun a => a.stopFor p job) rfl s.agents c
    have hmem : r ∈ ((s.agent c).stopFor p job).reqs := (congrArg (r ∈ ·.reqs) hagent).mp hr
    exact List.mem_of_mem_filter hmem
  · intro u m
    split
    · split
      · rfl
      · refine reqs_modAgent u c (fun a => ?_) _
        rfl
    · rfl

theorem stopped_agents (p : Nat) (j : Job) : (s.stopped p j).agents = s.agents :=
  foldl_keeps (g := State.agents) (fun u r => modRegion_agents u p r _) j.regions s

theorem reqs_failJob {p code : Nat} {charge core : Option Nat} {r : EReq} (hr : r ∈ ((s.failJob p code charge core).agent c).reqs) :
    r ∈ (s.agent c).reqs := by
  obtain h | ⟨j, hj, -, h⟩ := failJob_cases (s := s) (p := p) code charge core
  · rwa [h] at hr
  · rw [h, stopJob_of_job (failing_job code charge core hj)] at hr
    have hreq := reqs_stopRequests _ c _ _ hr
    rwa [State.agent, stopped_agents] at hreq

/-- A failure charged to the region of a core is nothing, or a failure of the job (R96). -/
theorem coreJobFail_cases (core part job code : Nat) :
    s.coreJobFail core part job code = s ∨ ∃ p r, s.coreJobFail core part job code = s.failJob p code (some r) (some core) := by
  unfold State.coreJobFail
  split
  · next p r _ =>
    split
    · exact .inr ⟨p, r, rfl⟩
    · exact .inl rfl
  · exact .inl rfl

variable {s c}

theorem coreJobFail_mem (core part job code : Nat) : (s.coreJobFail core part job code).mem = s.mem := by
  obtain h | ⟨p, r, h⟩ := coreJobFail_cases s core part job code
  · rw [h]
  · rw [h, failJob_mem]

theorem reqs_coreJobFail {core part job code : Nat} {r : EReq} (hr : r ∈ ((s.coreJobFail core part job code).agent c).reqs) :
    r ∈ (s.agent c).reqs := by
  obtain h | ⟨p, q, h⟩ := coreJobFail_cases s core part job code
  · rwa [h] at hr
  · rw [h] at hr
    exact reqs_failJob s c hr

theorem swallow_mem (fl : Flit) (kind left : Nat) : (s.swallow c fl kind left).mem = s.mem := by
  unfold State.swallow
  split <;> rfl

theorem reqs_swallow (fl : Flit) (kind left d : Nat) : ((s.swallow c fl kind left).agent d).reqs = (s.agent d).reqs := by
  unfold State.swallow
  split
  · rfl
  · refine reqs_modAgent s d (fun a => ?_) c
    rfl

end Requests

section Descriptors

variable {s : State} {f k c n : Nat} {fl : Flit} {e : Nat} {d : DmaDesc} {p : Nat → Bool} {i : Instr}

/-- The row that takes a descriptor with this OP (R290; log entry 104). -/
def takenBy (f k op : Nat) (i : Instr) : Prop :=
  (op ≠ 2 ∧ op ≠ 3 ∧ i = .stackRead f k) ∨ (op = 2 ∧ i = .stackWrite f k) ∨ (op = 3 ∧ i = .gather f k)

theorem exec_of_takenBy (h : s.onCore f k) {op : Nat} (hi : takenBy f k op i) :
    ∃ p, p op = true ∧ exec i s = .next (s.takeDesc (coreId f k) p) := by
  obtain ⟨h2, h3, rfl⟩ | ⟨h2, rfl⟩ | ⟨h3, rfl⟩ := hi
  · exact ⟨fun op => op != 2 && op != 3, by simp [h2, h3], exec_of_onCore h rfl⟩
  · exact ⟨fun op => op == 2, by simp [h2], exec_of_onCore h rfl⟩
  · exact ⟨fun op => op == 3, by simp [h3], exec_of_onCore h rfl⟩

section Taking

variable (hn : s.nextDesc c = some (n, fl)) (hd : DmaDesc.read fl.entry = d) (hp : p d.op = true)
include hn hd hp

/-- A descriptor that passes joins the agent's requests; one that delivers binds its queue (R288, R291, R292). -/
theorem takeDesc_of_good (hgo : s.jobGoes fl = true) (hcode : (s.edgeTaken c n fl.src).descCode fl.part (stackAt c) d = 0) :
    s.takeDesc c p =
      let u := (s.edgeTaken c n fl.src).modAgent c fun a => { a with reqs := a.reqs ++ [⟨fl.src, fl.part, fl.job, d, [], d.follows, 0, none, false⟩] }
      if d.op = 2 then u else u.edgeBind 2 c d.core d.dq fl.part fl.job := by
  unfold State.takeDesc
  simp [hn, hd, hp, hgo, hcode, Code.ok]

theorem takeDesc_of_bad (hgo : s.jobGoes fl = true) (hcode : (s.edgeTaken c n fl.src).descCode fl.part (stackAt c) d = e) (he : e ≠ 0) :
    s.takeDesc c p = (s.edgeTaken c n fl.src).refuse c fl d.op d.follows e := by
  unfold State.takeDesc
  simp [hn, hd, hp, hgo, hcode, Code.ok, he]

/-- From the failure or the abort of its job a descriptor starts nothing (R297). -/
theorem takeDesc_of_stopped (hgo : s.jobGoes fl = false) : s.takeDesc c p = (s.edgeTaken c n fl.src).swallow c fl d.op d.follows := by
  unfold State.takeDesc
  simp [hn, hd, hp, hgo]

end Taking

/-- A descriptor that does not start leaves memory as it is, and adds no request (R293, R297). -/
theorem takeDesc_starts_nothing (hn : s.nextDesc c = some (n, fl)) (hd : DmaDesc.read fl.entry = d) (hp : p d.op = true)
    (hcode : (s.edgeTaken c n fl.src).descCode fl.part (stackAt c) d = e) (he : e ≠ 0) :
    (s.takeDesc c p).mem = s.mem ∧ ∀ r ∈ ((s.takeDesc c p).agent c).reqs, r ∈ (s.agent c).reqs := by
  cases hgo : s.jobGoes fl with
  | true =>
    rw [takeDesc_of_bad hn hd hp hgo hcode he, State.refuse]
    refine ⟨(coreJobFail_mem _ _ _ _).trans (swallow_mem _ _ _), fun r hr => ?_⟩
    have hreq := reqs_coreJobFail hr
    rwa [reqs_swallow] at hreq
  | false =>
    rw [takeDesc_of_stopped hn hd hp hgo]
    refine ⟨swallow_mem _ _ _, fun r hr => ?_⟩
    rwa [reqs_swallow] at hr

end Descriptors

/-- Settles O38: the row of the descriptor's OP takes it, and it starts, is refused or is discarded as the check and its job say. -/
theorem stackRequestsTaken : Obligations.StackRequestsTaken := by
  intro s f k n fl h c hn d u q past
  have taken {i : Instr} (hi : takenBy f k d.op i) := exec_of_takenBy h hi
  refine ⟨fun hgo hcode => ?starts, fun e i hcode he hi => ?refused, fun hgo => ?discarded⟩
  case starts =>
    have starts : ∀ i, takenBy f k d.op i → exec i s = .next
        (let v := u.modAgent c fun a => { a with reqs := a.reqs ++ [q] }
         if d.op = 2 then v else v.edgeBind 2 c d.core d.dq fl.part fl.job) := fun i hi => by
      obtain ⟨p, hp, hexec⟩ := taken hi
      rw [hexec, takeDesc_of_good hn rfl hp hgo hcode]
    refine ⟨fun hop => ?_, fun hop => ?_, fun hop => ?_⟩
    · rw [starts _ (.inl ⟨by simp [hop], by simp [hop], rfl⟩)]
      simp only [hop, Nat.reduceEqDiff, if_false]
    · rw [starts _ (.inr (.inl ⟨hop, rfl⟩))]
      simp only [hop, if_true]
    · rw [starts _ (.inr (.inr ⟨hop, rfl⟩))]
      simp only [hop, Nat.reduceEqDiff, if_false]
  case refused =>
    obtain ⟨p, hp, hexec⟩ := taken hi
    refine ⟨fun hgo => ?_, _, hexec, takeDesc_starts_nothing hn rfl hp hcode he⟩
    rw [hexec, takeDesc_of_bad hn rfl hp hgo hcode he]
    rfl
  case discarded =>
    have discards : ∀ i, takenBy f k d.op i → exec i s = .next past := fun i hi => by
      obtain ⟨p, hp, hexec⟩ := taken hi
      rw [hexec, takeDesc_of_stopped hn rfl hp hgo]
      rfl
    exact ⟨fun h2 h3 => discards _ (.inl ⟨h2, h3, rfl⟩), fun hop => discards _ (.inr (.inl ⟨hop, rfl⟩)),
      fun hop => discards _ (.inr (.inr ⟨hop, rfl⟩))⟩

end Sys2Proof.Machine
end

section
/-!
PROOFS. The entries that follow a descriptor: data of a WRITE and indices of a GATHER (R285, R291-R293, R297, R303).
-/

open Sys2Proof Sys2Proof.Machine

namespace Sys2Proof

/-- A request with this OP that still takes in entries of a route (R291, R292). -/
def EReq.awaits (q : EReq) (op : Nat) (x : Src) : Bool := q.src == x && q.data.isNone && q.d.op == op && decide (0 < q.left)

/-- What discards the entries of a route that belong to requests with this OP, and which it is (R293, R297). -/
def EdgeAgent.drainFor (a : EdgeAgent) (op : Nat) (x : Src) : Option (Nat × Drain) := findAt (fun d => d.src == x && d.kind == op) a.drains

/-- The oldest request with this OP that awaits entries of a route. -/
def EdgeAgent.requestFor (a : EdgeAgent) (op : Nat) (x : Src) : Option (Nat × EReq) := findAt (fun q => q.awaits op x) a.reqs

/-- Address of the entry that a WRITE takes in next (R291). -/
def EReq.nextWrite (q : EReq) : Nat := q.d.entryAddr (q.d.entries - q.left)

/-- The indices that the next entry of a GATHER carries (R292). -/
def EReq.indices (q : EReq) (e : Entry) : List Nat :=
  (List.range (min 16 (q.d.nrow - 16 * (cdiv q.d.nrow 16 - q.left)))).map fun j => fld e (4 * j) 4

end Sys2Proof

namespace Sys2Proof.Machine

/-- The next entry at an agent that belongs to a request with this OP (R287). -/
def State.nextData (s : State) (c op : Nat) : Option (Nat × Flit) :=
  firstOf 0 (fun f => f.dst.tgt == 2 && ((s.agent c).drains.any (fun d => d.src == f.src && d.kind == op) ||
    (s.agent c).reqs.any fun q => q.awaits op f.src)) s.now (s.router c).arrE

section Data

variable {s : State} {c n i : Nat} {fl : Flit} {q : EReq}

@[simp] theorem agent_modStack (s : State) (t c : Nat) (f : Stack → Stack) : (s.modStack t f).agent c = s.agent c := rfl

/-- A codeword in the stack (R285, R303): beside memory, only damage and the stacks' own records change. -/
theorem stackWrite_state (s : State) (a : Nat) (e : Entry) :
    ∃ dmg stks, s.stackWrite a e = { s with mem := s.mem.write a (padTo 64 e), dmg := dmg, stks := stks } := by
  obtain ⟨m, hm⟩ := mend_state { s with mem := s.mem.write a (padTo 64 e) } a 64
  unfold State.stackWrite
  rw [hm]
  exact ⟨_, _, rfl⟩

/-- The state once the next data entry of WRITE `i` has been written (R291). -/
def State.dataWritten (s : State) (c n i : Nat) (fl : Flit) (q : EReq) : State :=
  ((((s.edgeTaken c n fl.src).stackCount q.nextWrite).stackWrite q.nextWrite fl.entry).modAgent c fun a =>
    { a with reqs := putAt a.reqs i { q with left := q.left - 1 } }).modStack (stackAt c) fun k => k.served (.edge c)

theorem writeData_eq (s : State) (c : Nat) : s.writeData c =
    match s.nextData c 2 with
    | none => s
    | some (n, f) =>
      match (s.agent c).drainFor 2 f.src with
      | some (i, d) => (s.edgeTaken c n f.src).modAgent c fun a => a.drained i d
      | none =>
        match (s.agent c).requestFor 2 f.src with
        | none => s
        | some (i, q) =>
          if s.stackRoom (.edge c) q.nextWrite then s.dataWritten c n i f q else s.modStack (stackAt c) fun k => k.await (.edge c) s.now := rfl

theorem writeData_of_drain {d : Drain} (hf : s.nextData c 2 = some (n, fl)) (hd : (s.agent c).drainFor 2 fl.src = some (i, d)) :
    s.writeData c = (s.edgeTaken c n fl.src).modAgent c fun a => a.drained i d := by
  simp only [writeData_eq, hf, hd]

theorem writeData_of_request (hf : s.nextData c 2 = some (n, fl)) (hd : (s.agent c).drainFor 2 fl.src = none)
    (hq : (s.agent c).requestFor 2 fl.src = some (i, q)) :
    (s.stackRoom (.edge c) q.nextWrite = true → s.writeData c = s.dataWritten c n i fl q) ∧
    (s.stackRoom (.edge c) q.nextWrite = false → s.writeData c = s.modStack (stackAt c) fun k => k.await (.edge c) s.now) := by
  simp only [writeData_eq, hf, hd, hq]
  exact ⟨fun hroom => if_pos hroom, fun hroom => if_neg (by simp [hroom])⟩

@[simp] theorem agent_edgeTaken (s : State) (c n d : Nat) (x : Src) : (s.edgeTaken c n x).agent d = s.agent d := rfl

@[simp] theorem agent_stackCount (s : State) (a d : Nat) : (s.stackCount a).agent d = s.agent d := rfl

@[simp] theorem stackWrite_mem (s : State) (a : Nat) (e : Entry) : (s.stackWrite a e).mem = s.mem.write a (padTo 64 e) := by
  obtain ⟨dmg, stks, hw⟩ := stackWrite_state s a e
  rw [hw]

@[simp] theorem stackWrite_cores (s : State) (a : Nat) (e : Entry) : (s.stackWrite a e).cores = s.cores := by
  obtain ⟨dmg, stks, hw⟩ := stackWrite_state s a e
  rw [hw]

@[simp] theorem stackWrite_parts (s : State) (a : Nat) (e : Entry) : (s.stackWrite a e).parts = s.parts := by
  obtain ⟨dmg, stks, hw⟩ := stackWrite_state s a e
  rw [hw]

@[simp] theorem agent_stackWrite (s : State) (a d : Nat) (e : Entry) : (s.stackWrite a e).agent d = s.agent d := by
  obtain ⟨dmg, stks, hw⟩ := stackWrite_state s a e
  rw [hw, State.agent, State.agent]

theorem reqs_dataWritten : ((s.dataWritten c n i fl q).agent c).reqs = putAt (s.agent c).reqs i { q with left := q.left - 1 } := by
  unfold State.dataWritten
  rw [agent_modStack, agent_modAgent_same, agent_stackWrite, agent_stackCount, agent_edgeTaken]

theorem dataWritten_mem : (s.dataWritten c n i fl q).mem = s.mem.write q.nextWrite (padTo 64 fl.entry) := by
  unfold State.dataWritten
  rw [modStack_mem, modAgent_mem, stackWrite_mem]
  rfl

theorem dataWritten_cores : (s.dataWritten c n i fl q).cores = s.cores := by
  unfold State.dataWritten
  rw [modStack_cores, modAgent_cores, stackWrite_cores]
  rfl

theorem dataWritten_parts : (s.dataWritten c n i fl q).parts = s.parts := by
  unfold State.dataWritten
  rw [modStack_parts, modAgent_parts, stackWrite_parts]
  rfl

/-- An index entry of a GATHER of which no element lies outside the view is taken in, and its indices join those to be read, as far as
all of them lie in the view (R292, R293). -/
theorem gatherIndex_of_request (hf : s.nextData c 3 = some (n, fl)) (hd : (s.agent c).drainFor 3 fl.src = none)
    (hq : (s.agent c).requestFor 3 fl.src = some (i, q)) (hbad : q.bad = false)
    (hin : ∀ x ∈ q.indices fl.entry, s.stackIn q.part (stackAt c) (q.d.addr + x * q.d.stride) q.d.rowb = true) :
    s.gatherIndex c = (s.edgeTaken c n fl.src).modAgent c fun a =>
      { a with reqs := putAt a.reqs i { q with left := q.left - 1, idx := q.idx ++ q.indices fl.entry } } := by
  have hgood : (q.indices fl.entry).takeWhile (fun x => (s.edgeTaken c n fl.src).stackIn q.part (stackAt c) (q.d.addr + x * q.d.stride) q.d.rowb) =
      q.indices fl.entry := List.takeWhile_eq_self_iff.mpr hin
  unfold State.gatherIndex
  simp only [State.nextData, EReq.awaits, EdgeAgent.drainFor, EdgeAgent.requestFor, EReq.indices] at hf hd hq hgood
  simp only [hf, hd, hq, hbad, hgood, Bool.false_eq_true, if_false, lt_self_iff_false, decide_false, false_and]
  rfl

end Data

/-- Settles O39: a data entry is written, waits in line, or is discarded; an index entry whose elements all lie in the view joins its
request. -/
theorem stackDataArrives : Obligations.StackDataArrives := by
  refine ⟨?write, ?index, ?discard⟩
  case write =>
    intro s f k n i fl q h c a mine hf hd hq at_
    have hexec : exec (.stackWriteData f k) s = .next (s.writeData c) := exec_of_onCore h rfl
    obtain ⟨written, waits⟩ := writeData_of_request hf hd hq
    rw [hexec]
    refine ⟨fun hroom => ?_, fun hroom => congrArg _ (waits hroom)⟩
    · rw [written hroom]
      refine ⟨_, rfl, dataWritten_mem, fun _ b hb => ?_, reqs_dataWritten, dataWritten_cores, dataWritten_parts⟩
      rw [dataWritten_mem]
      exact Memory.byte_write_of_outside _ (by rwa [length_padded])
  case index =>
    intro s f k n i fl q h c a mine hf hd hq hbad is u hin
    have hexec : exec (.gatherIndex f k) s = .next (s.gatherIndex c) := exec_of_onCore h rfl
    rw [hexec, gatherIndex_of_request hf hd hq hbad hin]
    rfl
  case discard =>
    intro s f k n i fl d h c a hd hf
    have hexec : exec (.stackWriteData f k) s = .next (s.writeData c) := exec_of_onCore h rfl
    rw [hexec, writeData_of_drain hf hd]

end Sys2Proof.Machine
end

section
/-!
PROOFS. What edge agents deliver, and the end of their requests (R288, R289, R291, R295, R298, R300, R301, R312).
-/

open Sys2Proof Sys2Proof.Machine

namespace Sys2Proof

/-- The agent once its request `i` has ended: the queue that it named is the one used last (R288). -/
def EdgeAgent.ended (a : EdgeAgent) (i : Nat) (q : EReq) : EdgeAgent :=
  { a with reqs := dropAt a.reqs i, outs := match findAt q.names a.outs with | some (n, o) => dropAt a.outs n ++ [o] | none => a.outs }

end Sys2Proof

namespace Sys2Proof.Machine

section Delivery

variable {s : State} {c i n : Nat} {q : EReq} {o : AgentOut}

/-- The oldest request of an agent that can deliver, with its place (R289). -/
def State.deliverer (s : State) (c : Nat) : Option (EReq × Nat) :=
  ((s.agent c).reqs.zip (List.range (s.agent c).reqs.length)).find? fun x => s.mayDeliver c x.2 x.1

/-- The state once entry `e` of request `i` is on the mesh, the request being `q'` after it (R289). -/
def State.entrySent (s : State) (c i n : Nat) (q : EReq) (o : AgentOut) (e : Entry) (q' : EReq) : State :=
  (s.modAgent c fun a => { a with
    outs := putAt a.outs n { o with credit := o.credit - 1 }, reqs := putAt a.reqs i q',
    sent := (a.sent.filter fun x => x.1 == s.now) ++ [(s.now, q.d.core, q.d.dq)] }).inject c (outPort c ⟨c, 2, 0, false⟩)
      ⟨agentSrc 2 c q.d.core q.d.dq o.ep, ⟨q.d.core, 1, q.d.dq, false⟩, .entry e, s.now, q.part, q.job⟩

theorem damages_nil (s : State) : s.damages [] = s := rfl

/-- A codeword that is read without damage (R300). -/
theorem stackRead_of_good {a : Nat} (h : s.readErrors a 64 = (0, 0)) (src : Nat) : s.stackRead a src = (s, s.mem.read a 64, false) := by
  unfold State.stackRead
  simp [h]

theorem edgeDelivery_of_none (h : s.deliverer c = none) : s.edgeDelivery c [] =
    if ((s.agent c).reqs.zip (List.range (s.agent c).reqs.length)).any fun x => s.wouldDeliver c x.2 x.1 then
      s.modStack (stackAt c) fun k => k.await (.edge c) s.now
    else s := by
  unfold State.deliverer at h
  unfold State.edgeDelivery
  simp only [damages_nil, h] <;> rfl

section Served

variable (h : s.deliverer c = some (q, i)) (ho : outOf (s.agent c).outs q.d.core q.d.dq = some (n, o))
include h ho

/-- A request whose queue is not bound binds it first (R288). -/
theorem edgeDelivery_of_unbound (hb : o.bound = false) : s.edgeDelivery c [] = s.edgeBind 2 c q.d.core q.d.dq q.part q.job := by
  unfold State.deliverer at h
  unfold State.edgeDelivery
  simp only [damages_nil, h, ho, hb, Bool.not_false, if_true]

/-- Results of a match are delivered as they stand (R312). -/
theorem edgeDelivery_of_results (hb : o.bound = true) {l : List Entry} (hl : q.data = some l) :
    s.edgeDelivery c [] = s.entrySent c i n q o (nth [] l q.done) { q with done := q.done + 1 } := by
  unfold State.deliverer at h
  unfold State.edgeDelivery
  simp only [State.entrySent, damages_nil, h, ho, hb, hl, Bool.not_true, Bool.false_eq_true, if_false]

/-- A READ delivers the codeword at its next address (R291, R298, R300). -/
theorem edgeDelivery_of_read (hb : o.bound = true) (hl : q.data = none) (hop : q.d.op = 1) (hleft : q.done < q.d.entries)
    (hgood : s.readErrors (q.d.entryAddr q.done) 64 = (0, 0)) (hbad : q.bad = false) :
    s.edgeDelivery c [] = ((s.modStack (stackAt c) fun k => k.served (.edge c)).stackCount (q.d.entryAddr q.done)).entrySent c i n q o
      (s.mem.read (q.d.entryAddr q.done) 64) { q with done := q.done + 1 } := by
  have haddr : q.nextAddr = some (q.d.entryAddr q.done) := by simp [EReq.nextAddr, hop, hleft]
  have hread := stackRead_of_good (s := (s.modStack (stackAt c) fun k => k.served (.edge c)).stackCount (q.d.entryAddr q.done)) hgood 0
  unfold State.deliverer at h
  unfold State.edgeDelivery
  simp only [State.entrySent, damages_nil, h, ho, hb, hl, haddr, hread, hop, hbad, Bool.not_true, Bool.false_eq_true, if_false, false_and]
  rfl

end Served

end Delivery

section Complete

variable {s : State} {c i : Nat} {q : EReq}

/-- The state once request `i` of an agent has ended, its flag apart: results of a match free the engine (R309, R312). -/
def State.requestEnded (s : State) (c i : Nat) (q : EReq) : State :=
  let u := s.modAgent c fun a => a.ended i q
  if q.data.isSome then u.modStack (stackAt c) fun k => { k with run := none, delivering := false } else u

theorem requestDone_of_complete
    (h : ((s.agent c).reqs.zip (List.range (s.agent c).reqs.length)).find? (fun x => s.reqDone c x.2 x.1) = some (q, i)) :
    s.requestDone c = if q.d.flag then (s.requestEnded c i q).edgeFlag c q.part q.d.core q.d.flg else s.requestEnded c i q := by
  unfold State.requestDone
  simp only [h]
  rfl

theorem requestEnded_leaves : ((s.requestEnded c i q).agent c).reqs = dropAt (s.agent c).reqs i ∧ (s.requestEnded c i q).mem = s.mem ∧
    (s.requestEnded c i q).cores = s.cores ∧ (s.requestEnded c i q).parts = s.parts ∧ (s.requestEnded c i q).mesh = s.mesh ∧
    (q.data.isSome = true → ((s.requestEnded c i q).stack (stackAt c)).run = none) := by
  unfold State.requestEnded
  have hreqs : ((s.modAgent c fun a => a.ended i q).agent c).reqs = dropAt (s.agent c).reqs i := by
    rw [agent_modAgent_same]
    rfl
  by_cases hd : q.data.isSome = true
  · simp only [hd, if_true]
    refine ⟨hreqs, rfl, rfl, rfl, rfl, fun _ => ?_⟩
    rw [stack_modStack_same]
  · simp only [hd]
    exact ⟨hreqs, rfl, rfl, rfl, rfl, fun h => absurd h (by decide)⟩

end Complete

/-- Settles O40: the oldest request that can deliver sends its entry or binds its queue, one that only lacks room waits in line, and the
oldest complete request ends. -/
theorem stackDeliveriesEnd : Obligations.StackDeliveriesEnd := by
  refine ⟨?delivers, ?waits, ?ends⟩
  case delivers =>
    intro s f k i n x q o h c rs hfind ho sent
    have hexec : exec (.edgeDelivery f k []) s = .next (s.edgeDelivery c []) := exec_of_onCore h rfl
    rw [hexec]
    refine ⟨fun hb hl hop hleft hx hgood hbad => ?_, fun l hb hl => ?_, fun hb => ?_⟩
    · subst hx
      rw [edgeDelivery_of_read hfind ho hb hl hop hleft hgood hbad]
      rfl
    · rw [edgeDelivery_of_results hfind ho hb hl]
      rfl
    · rw [edgeDelivery_of_unbound hfind ho hb]
  case waits =>
    intro s f k h c rs hnone
    have hexec : exec (.edgeDelivery f k []) s = .next (s.edgeDelivery c []) := exec_of_onCore h rfl
    rw [hexec, edgeDelivery_of_none hnone]
    exact ⟨fun hwould => congrArg _ (if_pos hwould), fun hwould => congrArg _ (if_neg (ne_true_of_eq_false hwould))⟩
  case ends =>
    intro s f k i q h c rs hfind
    have hexec : exec (.stackRequestComplete f k) s = .next (s.requestDone c) := exec_of_onCore h rfl
    obtain ⟨hreqs, hmem, hcores, hparts, hmesh, hrun⟩ := requestEnded_leaves (s := s) (c := c) (i := i) (q := q)
    refine ⟨_, hexec, ?_⟩
    rw [requestDone_of_complete hfind]
    cases hflag : q.d.flag with
    | true =>
      refine ⟨hreqs, hmem, hcores, hparts, fun _ => ?_, nofun, hrun⟩
      exact congrArg (fun m : Mesh => m.ops ++ _) hmesh
    | false => exact ⟨hreqs, hmem, hcores, hparts, nofun, fun _ => congrArg Mesh.ops hmesh, hrun⟩

end Sys2Proof.Machine
end

section
/-!
PROOFS. Match commands: taken, given their queries, started, and ended with their results (R297, R307-R312).
-/

open Sys2Proof Sys2Proof.Machine

namespace Sys2Proof

/-- What a list search finds satisfies the search. -/
theorem findAt_holds {α : Type} {p : α → Bool} {l : List α} {i : Nat} {x : α} (h : findAt p l = some (i, x)) : p x = true := by
  induction l generalizing i with
  | nil => cases h
  | cons a l ih =>
    unfold findAt at h
    split at h
    · cases h
      assumption
    · obtain ⟨⟨j, y⟩, hy, he⟩ := Option.map_eq_some_iff.mp h
      cases he
      exact ih hy

/-- A match command after one more of its query entries (R307). -/
def MCmd.given (m : MCmd) (e : Entry) : MCmd := { m with queries := m.queries ++ [e], left := m.left - 1 }

/-- The request that delivers results to a queue (R312). -/
def MCmd.delivery (m : MCmd) (x : Src) (res : List Entry) : EReq :=
  ⟨x, m.part, m.job, { DmaDesc.read [] with flag := m.c.flag, dfile := m.c.dfile, drank := m.c.drank, dq := m.c.dq, flg := m.c.flg },
    [], 0, 0, some res, false⟩

end Sys2Proof

namespace Sys2Proof.Machine

section Taken

variable {s : State} {c n : Nat} {fl : Flit}

/-- The next entry at an agent's match input whose route owes query entries, or owes none (R307). -/
def State.nextMatch (s : State) (c : Nat) (owes : Bool) : Option (Nat × Flit) :=
  firstOf 1 (fun f => f.dst.tgt == 2 && (s.owesQueries c f.src == owes)) s.now (s.router c).arrE

/-- A match command that finds a place in its stack's queue waits there for its queries, is refused, or is discarded with what follows
it (R297, R307-R309). -/
theorem takeMatch_of_room (hn : s.nextMatch c false = some (n, fl)) (hroom : (s.stack (stackAt c)).mq.length < 8) :
    s.takeMatch c =
      let m := MatchC.read fl.entry
      let u := s.edgeTaken c n fl.src
      if s.jobGoes fl = false then u.swallow c fl 1 m.qEntries
      else if u.matchCode fl.part (stackAt c) m ≠ 0 then u.refuse c fl 1 m.qEntries (u.matchCode fl.part (stackAt c) m)
      else u.modStack (stackAt c) fun k => { k with mq := k.mq ++ [⟨m, some (c, fl.src), fl.part, fl.job, 0, [], m.qEntries⟩] } := by
  unfold State.nextMatch at hn
  simp only [beq_false] at hn
  unfold State.takeMatch
  simp only [hn, if_neg (Nat.not_le.mpr hroom), Bool.not_eq_true]
  rfl

end Taken

section Queries

variable {s : State} {c n i : Nat} {fl : Flit} {m : MCmd}

theorem queryEntry_of_command (hn : s.nextMatch c true = some (n, fl))
    (hd : findAt (fun (d : Drain) => d.src == fl.src && d.kind == 1) (s.agent c).drains = none)
    (hm : findAt (fun (m : MCmd) => m.src == some (c, fl.src) && decide (0 < m.left)) (s.stack (stackAt c)).mq = some (i, m)) :
    s.queryEntry c =
      let u := s.edgeTaken c n fl.src
      if (m.given fl.entry).left = 0 ∧ ¬ (m.given fl.entry).queriesOk then
        (u.modStack (stackAt c) fun k => { k with mq := dropAt k.mq i }).coreJobFail fl.src.core m.part m.job Code.matchFormat
      else u.modStack (stackAt c) fun k => { k with mq := putAt k.mq i (m.given fl.entry) } := by
  have hdu : findAt (fun (d : Drain) => d.src == fl.src && d.kind == 1) ((s.edgeTaken c n fl.src).agent c).drains = none := hd
  have hmu : findAt (fun (m : MCmd) => m.src == some (c, fl.src) && decide (0 < m.left))
    ((s.edgeTaken c n fl.src).stack (stackAt c)).mq = some (i, m) := hm
  unfold State.nextMatch at hn
  simp only [beq_true] at hn
  unfold State.queryEntry
  simp only [hn, hdu, hmu]
  rfl

/-- The last query entry that a command owes is the one it gets with one entry left. -/
theorem given_left_eq_zero_iff {p : MCmd → Bool} {l : List MCmd} (hm : findAt (fun m => p m && decide (0 < m.left)) l = some (i, m)) (e : Entry) :
    (m.given e).left = 0 ↔ m.left = 1 := by
  have hpos := findAt_holds hm
  simp only [Bool.and_eq_true, decide_eq_true_eq] at hpos
  show m.left - 1 = 0 ↔ m.left = 1
  omega

end Queries

section Scan

variable {s : State} {t : Nat}

theorem issueMulti_of_none (h : ∀ d ∈ s.defs, ∀ a b c x y z, d.k ≠ .matchMulti a b c x y z) : s.issueMulti t = s := by
  refine List.foldl_fixed' (fun i => ?_) _
  split
  · next d hd =>
    split
    · next a b c x y z hk => exact absurd hk (h d (List.mem_of_getElem? hd) a b c x y z)
    · rfl
  · rfl

/-- The engine, when it runs nothing, starts the oldest command whose queries are all there (R309). -/
theorem scanStart_of_ready {m : MCmd} {rest : List MCmd} (hrun : (s.stack t).run = none) (hq : (s.stack t).mq = m :: rest) (hleft : m.left = 0) :
    s.scanStart t = s.modStack t fun k => { k with run := some m, mq := rest, runAt := s.now, items := 0 } := by
  unfold State.scanStart
  simp only [hrun, hq, hleft, if_true]

end Scan

section Bind

variable (s : State) (kind c d q part job x : Nat)

@[simp] theorem inject_agent (port : Nat) (f : Flit) : (s.inject c port f).agent x = s.agent x := rfl

/-- The agent lets go of the binding longest without a request where it holds as many as it can (R288; log entry 139). -/
def State.displaced (s : State) (kind c part job : Nat) : State :=
  if 64 ≤ ((s.agent c).outs.filter (·.bound)).length then
    match (s.agent c).idlest with
    | some (i, o) =>
      (s.modAgent c fun a => { a with outs := putAt a.outs i { o with bound := false, credit := 0 } }).inject c (outPort c ⟨c, kind, 0, false⟩)
        ⟨agentSrc kind c o.core o.queue o.ep, ⟨o.core, 1, o.queue, false⟩, .unbind o.credit, s.now, part, job⟩
    | none => s
  else s

/-- The agent notes its binding with a queue, and sends the BIND if there is one to send (R288). -/
def State.asksBind (s : State) (kind c d q part job : Nat) : State :=
  let y := agentBind (s.agent c).outs kind c d q part job s.now
  let u := s.modAgent c fun a => { a with outs := y.1 }
  match y.2 with
  | some f => u.inject c (outPort c ⟨c, kind, 0, false⟩) f
  | none => u

theorem edgeBind_cases : s.edgeBind kind c d q part job = s ∨
    s.edgeBind kind c d q part job = (s.displaced kind c part job).asksBind kind c d q part job := by
  unfold State.edgeBind
  dsimp only
  split
  · split
    · exact .inl rfl
    · exact .inr rfl
  · split
    · exact .inl rfl
    · exact .inr rfl

theorem reqs_displaced : ((s.displaced kind c part job).agent x).reqs = (s.agent x).reqs := by
  unfold State.displaced
  split
  · split
    · rw [inject_agent]
      refine reqs_modAgent s x (fun a => ?_) c
      rfl
    · rfl
  · rfl

theorem reqs_asksBind : ((s.asksBind kind c d q part job).agent x).reqs = (s.agent x).reqs := by
  unfold State.asksBind
  dsimp only
  split
  · rw [inject_agent]
    refine reqs_modAgent s x (fun a => ?_) c
    rfl
  · refine reqs_modAgent s x (fun a => ?_) c
    rfl

/-- A binding of an agent's queues leaves every agent's requests, and memory (R288). -/
theorem edgeBind_leaves :
    ((s.edgeBind kind c d q part job).agent x).reqs = (s.agent x).reqs ∧ (s.edgeBind kind c d q part job).mem = s.mem := by
  refine ⟨?_, (Keeps.edgeBind (μ := true) (φ := true) (π := true) kind c d q part job (.refl s)).mem rfl⟩
  obtain h | h := edgeBind_cases s kind c d q part job
  · rw [h]
  · rw [h, reqs_asksBind, reqs_displaced]

end Bind

section Pass

variable {s : State} {t c : Nat} {m : MCmd} {x : Src}

/-- The results of a match command, query by query (R310-R312). -/
def State.results (s : State) (t : Nat) (m : MCmd) : List Entry := (List.range m.c.nq).flatMap fun q => s.matchQuery t m.c m.queries q

/-- The state once a pass has written its results to the result area (R312). -/
def State.resultsStored (s : State) (t : Nat) (m : MCmd) : State :=
  ((((s.results t m).zip (List.range (s.results t m).length)).foldl (fun v e => v.stackWrite (m.c.raddr + 64 * e.2) e.1)
    (s.modStack t fun k => { k with items := m.c.nitem }))).modStack t fun k => { k with run := none }

/-- The state once the results of a pass have become a request of the agent (R312). -/
def State.resultsQueued (s : State) (t c : Nat) (m : MCmd) (x : Src) : State :=
  ((((s.modStack t fun k => { k with items := m.c.nitem }).modAgent c fun a => { a with reqs := a.reqs ++ [m.delivery x (s.results t m)] }).modStack t
    fun k => { k with delivering := true }).edgeBind 2 c (coreId m.c.dfile m.c.drank) m.c.dq m.part m.job)

/-- An undamaged pass of an issued command ends (R301, R312). -/
theorem passEnd_of_good (hrun : (s.stack t).run = some m) (hdel : (s.stack t).delivering = false) (hgood : s.passDamage t m.c = [])
    (hsrc : m.src = some (c, x)) :
    s.passEnd t [] =
      if m.c.rdst then
        if m.c.flag then (s.resultsStored t m).edgeFlag c m.part (coreId m.c.dfile m.c.drank) m.c.flg else s.resultsStored t m
      else s.resultsQueued t c m x := by
  unfold State.passEnd
  simp only [hrun, hdel, damages_nil, hgood, hsrc, List.find?_nil, List.foldl_nil, Bool.false_eq_true, if_false]
  rfl

end Pass

/-- Settles O41: a command is taken, given its queries, started, and ended with its results. -/
theorem matchCommandsRun : Obligations.MatchCommandsRun := by
  refine ⟨?taken, ?query, ?start, ?ends⟩
  case taken =>
    intro s f k n fl h c hn hroom m u
    have hexec : exec (.matchCommand f k) s = .next (s.takeMatch c) := exec_of_onCore h rfl
    rw [hexec, takeMatch_of_room (by simpa [State.nextMatch] using hn) hroom]
    refine ⟨fun hgo hcode => ?_, fun hgo hcode => ?_, fun hgo => ?_⟩
    · rw [if_neg (by simp [hgo]), if_neg (by simpa using hcode)]
      rfl
    · rw [if_neg (by simp [hgo]), if_pos hcode]
      rfl
    · rw [if_pos hgo]
      rfl
  case query =>
    intro s f k n i fl m h c hn hd hm m' u
    have hexec : exec (.matchQueryEntry f k) s = .next (s.queryEntry c) := exec_of_onCore h rfl
    have hleft := given_left_eq_zero_iff hm fl.entry
    rw [hexec, queryEntry_of_command (by simpa [State.nextMatch] using hn) hd hm]
    refine ⟨fun hok => ?_, fun hone hbad => ?_⟩
    · refine congrArg _ (if_neg fun hlast => ?_)
      exact hok.elim (fun hne => hne (hleft.mp hlast.1)) hlast.2
    · exact congrArg _ (if_pos ⟨hleft.mpr hone, ne_true_of_eq_false hbad⟩)
  case start =>
    intro s n m rest hruns hn hrun hq hleft hdefs
    have hexec : exec (.matchScanStart n) s = .next ((s.scanStart n).issueMulti n) := exec_of_runs hruns (decide_eq_true hn) rfl
    rw [hexec, scanStart_of_ready hrun hq hleft]
    exact congrArg _ (issueMulti_of_none (s := s.modStack n _) hdefs)
  case ends =>
    intro s n m c x hruns hn hrun hdel hgood hsrc res u v
    have hexec : exec (.matchPassEnd n []) s = .next (s.passEnd n []) := exec_of_runs hruns (decide_eq_true hn) rfl
    rw [hexec, passEnd_of_good hrun hdel hgood hsrc]
    refine ⟨fun hdst hflag => ?_, fun hdst hflag => ?_, fun hdst => ?_⟩
    · simp only [hdst, hflag, Bool.false_eq_true, if_true, if_false]
      rfl
    · simp only [hdst, hflag, if_true]
      rfl
    · simp only [hdst, Bool.false_eq_true, if_false]
      obtain ⟨hreqs, hmem⟩ := edgeBind_leaves ((((s.modStack n fun k => { k with items := m.c.nitem }).modAgent c fun a =>
        { a with reqs := a.reqs ++ [m.delivery x (s.results n m)] }).modStack n fun k => { k with delivering := true })) 2 c
          (coreId m.c.dfile m.c.drank) m.c.dq m.part m.job c
      refine ⟨_, m.delivery x (s.results n m), rfl, ?_, rfl, rfl, rfl, rfl, rfl, rfl, hmem⟩
      refine hreqs.trans ?_
      rw [agent_modStack, agent_modAgent_same]
      rfl

end Sys2Proof.Machine
end

section
/-!
PROOFS. The upkeep of the stacks (R301-R306, R317, R416, R477, R479): refresh, scrub, sparing, the clearing of a stack that changes holder, and
the error counters.
-/

open Sys2Proof Sys2Proof.Machine

namespace Sys2Proof

/-- What a list search finds stands at the place that it names. -/
theorem findAt_place {α : Type} {p : α → Bool} {l : List α} {i : Nat} {x : α} (h : findAt p l = some (i, x)) : l[i]? = some x := by
  induction l generalizing i with
  | nil => cases h
  | cons a l ih =>
    unfold findAt at h
    split at h
    · cases h
      rfl
    · obtain ⟨⟨j, y⟩, hy, he⟩ := Option.map_eq_some_iff.mp h
      cases he
      exact ih hy

/-- The register block of a stack (R19, R22). -/
theorem place_hstk (g : Grade) {n ofs : Nat} (hn : n < 8) (ho : ofs < 0x100000) :
    place g (0x040002000000 + 0x100000 * n + ofs) = .hstk n ofs := by
  obtain ⟨a, ha⟩ : ∃ a, a = 0x040002000000 + 0x100000 * n + ofs := ⟨_, rfl⟩
  have h1 : ¬ a < 8 * stackBytes := by rw [stackBytes]; omega
  have h2 : ¬ (0x010000000000 ≤ a ∧ a < 0x010000000000 + 4 * 0x08000000) := by omega
  have h3 : ¬ (0x020000000000 ≤ a ∧ a < 0x020060000000) := by omega
  have h4 : ¬ (0x030000000000 ≤ a ∧ a < 0x030000000000 + 4 * 0x08000000) := by omega
  have h5 : ¬ (0x040000000000 ≤ a ∧ a < 0x040000100000) := by omega
  have h6 : ¬ (0x040000100000 ≤ a ∧ a < 0x040000180000) := by omega
  have h7 : ¬ (0x040001000000 ≤ a ∧ a < 0x040001400000) := by omega
  have h8 : 0x040002000000 ≤ a ∧ a < 0x040002800000 := by omega
  have hindex : (a - 0x040002000000) / 0x100000 = n := by omega
  have hofs : (a - 0x040002000000) % 0x100000 = ofs := by omega
  rw [← ha]
  unfold place
  simp only [h1, h2, h3, h4, h5, h6, h7, h8, hindex, hofs, if_false, if_true, and_self]

/-- The register block of a die (R19, R22). -/
theorem place_die (g : Grade) {n ofs : Nat} (hn : n < 4) (ho : ofs < 0x100000) :
    place g (0x040001000000 + 0x100000 * n + ofs) = .die n ofs := by
  obtain ⟨a, ha⟩ : ∃ a, a = 0x040001000000 + 0x100000 * n + ofs := ⟨_, rfl⟩
  have h1 : ¬ a < 8 * stackBytes := by rw [stackBytes]; omega
  have h2 : ¬ (0x010000000000 ≤ a ∧ a < 0x010000000000 + 4 * 0x08000000) := by omega
  have h3 : ¬ (0x020000000000 ≤ a ∧ a < 0x020060000000) := by omega
  have h4 : ¬ (0x030000000000 ≤ a ∧ a < 0x030000000000 + 4 * 0x08000000) := by omega
  have h5 : ¬ (0x040000000000 ≤ a ∧ a < 0x040000100000) := by omega
  have h6 : ¬ (0x040000100000 ≤ a ∧ a < 0x040000180000) := by omega
  have h7 : 0x040001000000 ≤ a ∧ a < 0x040001400000 := by omega
  have hindex : (a - 0x040001000000) / 0x100000 = n := by omega
  have hofs : (a - 0x040001000000) % 0x100000 = ofs := by omega
  rw [← ha]
  unfold place
  simp only [h1, h2, h3, h4, h5, h6, h7, hindex, hofs, if_false, if_true, and_self]

/-- The window of an active core (R18). -/
theorem place_window {g : Grade} {n ofs : Nat} (hn : n < 3072) (ho : ofs < 0x80000) (hact : coreActive g (fileOf n) (rankOf n) = true) :
    place g (windowBase n + ofs) = .window n ofs := by
  obtain ⟨a, ha⟩ : ∃ a, a = windowBase n + ofs := ⟨_, rfl⟩
  have hb : a = 0x020000000000 + n * 0x80000 + ofs := ha
  have h1 : ¬ a < 8 * stackBytes := by rw [stackBytes]; omega
  have h2 : ¬ (0x010000000000 ≤ a ∧ a < 0x010000000000 + 4 * 0x08000000) := by omega
  have h3 : 0x020000000000 ≤ a ∧ a < 0x020060000000 := by omega
  have hindex : (a - 0x020000000000) / 0x80000 = n := by omega
  have hofs : (a - 0x020000000000) % 0x80000 = ofs := by omega
  rw [← ha]
  unfold place
  simp only [h1, h2, h3, hindex, hofs, hact, if_false, if_true, and_self]

end Sys2Proof

namespace Sys2Proof.Machine

section Upkeep

variable {s : State} {t : Nat}

/-- An update of a stack is what it makes of the stack as it stands. -/
theorem modStack_congr {f g : Stack → Stack} (h : f (s.stack t) = g (s.stack t)) : s.modStack t f = s.modStack t g := by
  unfold State.modStack
  rw [h]

theorem refresh_of_due (h : (s.stack t).refDue ≤ 1000 * s.now) : s.refresh t = s.modStack t fun k =>
    { k with refRow := (k.refRow + 1) % 65536, refDue := k.refDue + k.refreshNs * s.clock } :=
  modStack_congr (if_pos h)

theorem stack_refresh_of_early (h : 1000 * s.now < (s.stack t).refDue) (n : Nat) : (s.refresh t).stack n = s.stack n := by
  unfold State.refresh
  rw [stack_modStack]
  split
  · next e => rw [if_neg (by omega), e]
  · rfl

theorem patrolRead_of_good {a : Nat} (h : s.readErrors a 64 = (0, 0)) (src : Nat) : s.patrolRead a src = (s, false) := by
  unfold State.patrolRead
  simp [h]

/-- With nothing to write back and an undamaged codeword, the scrub moves on (R303). -/
theorem scrubRead_of_good (hq : (s.stack t).wback = []) (h : s.readErrors (stackBase t + 64 * (s.stack t).scrubAt) 64 = (0, 0)) :
    s.scrubRead t [] = s.modStack t fun k =>
      if k.scrubAt + 1 = stackWords then { k with scrubAt := 0, passes := satAt 0x1FFFF (k.passes + 1), seen := [] }
      else { k with scrubAt := k.scrubAt + 1 } := by
  unfold State.scrubRead
  simp only [damages_nil, hq, patrolRead_of_good h, Bool.false_eq_true, if_false]

/-- The copy of an undamaged row ends with the row on a spare of its bank (R304). -/
theorem rowSpared_of_undamaged {row : Nat} {rest : List Nat} (hc : (s.stack t).copying = row :: rest) (hd : s.dmg = []) :
    s.rowSpared t [] = (s.modStack t fun k => { k with
      copying := rest, moved := if k.moved.contains row then k.moved else k.moved ++ [row],
      seen := k.seen.filter fun a => rowNum (a % stackBytes) != row, written := k.written.filter fun a => rowNum (a % stackBytes) != row,
      spares := SMap.set 0 k.spares (row / 65536) (k.used (row / 65536) + 1) }).stackEvent t Code.rowSpared row := by
  unfold State.rowSpared
  simp only [hc, damages_nil, hd, List.filter_nil, List.foldl_nil]

end Upkeep

section Holdings

variable (s : State) (p r c d q : Nat)

/-- What the end of a grant change reads of the state: the deferred commands, the grade, and of each partition its grant and whether it
has a job. -/
def State.holdings (s : State) : List Defr × Grade × (Nat → GrantR × Bool) := (s.defs, s.grade, fun p => ((s.part p).grant, (s.part p).job.isNone))

theorem holdings_modPart {f : Part → Part} (hg : (f (s.part p)).grant = (s.part p).grant)
    (hj : (f (s.part p)).job.isNone = (s.part p).job.isNone) : (s.modPart p f).holdings = s.holdings := by
  refine congrArg (fun h => (s.defs, s.grade, h)) (funext fun q => ?_)
  rw [part_modPart]
  split
  · next e => rw [hg, hj, e]
  · rfl

@[simp] theorem holdings_modRegion (f : Region → Region) : (s.modRegion p r f).holdings = s.holdings := holdings_modPart s p rfl rfl

@[simp] theorem holdings_mend (a n : Nat) : (s.mend a n).holdings = s.holdings := by
  obtain ⟨m, h⟩ := mend_state s a n
  rw [h]
  rfl

@[simp] theorem holdings_routeReplaced : (s.routeReplaced c r).holdings = s.holdings := by
  unfold State.routeReplaced
  split
  · rfl
  · exact holdings_modRegion _ _ _ _

@[simp] theorem holdings_pressure : (s.pressure c).holdings = s.holdings := by
  unfold State.pressure
  split
  · rfl
  · exact holdings_modRegion _ _ _ _

theorem holdings_discardRoute (x : Src) : (s.discardRoute x).holdings = s.holdings := by
  unfold State.discardRoute
  dsimp only
  split
  · rw [holdings_pressure, holdings_routeReplaced]
    rfl
  · rw [holdings_pressure]
    rfl

theorem holdings_releaseSource (rect : Rect) : (s.releaseSource rect c q).holdings = s.holdings := by
  unfold State.releaseSource
  split
  · rfl
  · dsimp only
    split
    · split
      · rfl
      · exact holdings_discardRoute _ _
    · unfold State.dropAgentOut
      split <;> rfl

theorem holdings_unbindAll (rect : Rect) : (s.unbindAll p rect c).holdings = s.holdings := by
  refine foldl_keeps (g := State.holdings) (fun u b => ?_) _ s
  dsimp only
  split <;> rfl

theorem holdings_clearCore (owner : Option (Nat × Nat)) : (s.clearCore owner c).holdings = s.holdings := by
  unfold State.clearCore
  rw [holdings_mend]
  rfl

theorem holdings_clearRect (rect : Rect) (owner : Option (Nat × Nat)) : (s.clearRect p rect owner).holdings = s.holdings := by
  rw [clearRect_eq, foldl_keeps (g := State.holdings) fun u c => holdings_clearCore u c owner]
  unfold State.unlinkRect
  rw [foldl_keeps (g := State.holdings) fun u c => holdings_unbindAll u p c rect]
  exact foldl_keeps (g := State.holdings) (fun u c => foldl_keeps (g := State.holdings) (fun v q => holdings_releaseSource v c q rect) _ u) _ s

theorem holdings_withBook (b : List Staged) : State.holdings { s with book := b } = s.holdings := rfl

theorem holdings_releaseRegion : (s.releaseRegion p r).holdings = s.holdings := by
  unfold State.releaseRegion
  dsimp only
  rw [holdings_withBook, holdings_modPart, holdings_modRegion, holdings_clearRect]
  · rfl
  · exact Option.isNone_map

theorem holdings_loseBlocks (lost : List Nat) : (s.loseBlocks p lost).holdings = s.holdings := by
  unfold State.loseBlocks
  split
  · rfl
  · dsimp only
    rw [foldl_keeps (g := State.holdings), holdings_modPart _ p rfl rfl, foldl_keeps (g := State.holdings) fun u r => holdings_releaseRegion u p r]
    intro u b
    rw [holdings_mend]
    rfl

theorem holdings_freeBlocks (g : GrantR) : (s.freeBlocks q g).holdings = s.holdings :=
  foldl_keeps (g := State.holdings) (fun u _ => holdings_loseBlocks u _ _) _ s

end Holdings

section Clear

variable {s : State} {n i q op p : Nat} {o : Org} {g : GrantR} {dl fr : Bool} {cl : List Nat}

/-- A deferred command that changes a grant and still waits for stack `n` to be clear (R306, R416). -/
def State.clears (s : State) (n : Nat) (d : Defr) : Bool :=
  match d.k with
  | .grant q g _ cl _ => (stksMoved (s.part q).grant g).contains n && !cl.contains n
  | _ => false

/-- The state once stack `n` is clear: deferred command `i` has noted it, becoming `d` (R306). -/
def State.stackCleared (s : State) (n i : Nat) (d : Defr) : State :=
  { s with mem := s.mem.clear (stackBase n) stackBytes, defs := putAt s.defs i d }.mend (stackBase n) stackBytes

theorem stackClearDone_eq (s : State) (n : Nat) : s.stackClearDone n =
    match findAt (s.clears n) s.defs with
    | some (i, ⟨o, p, op, .grant q g dl cl fr⟩) =>
      if !s.losersIdle q g then s.abortLosers q g
      else ((if fr then s else s.freeBlocks q g).stackCleared n i ⟨o, p, op, .grant q g dl (cl ++ [n]) true⟩).grantEnd i
    | _ => s := rfl

theorem losersIdle_of_holdings {t : State} (h : t.holdings.2 = s.holdings.2) : t.losersIdle q g = s.losersIdle q g := by
  have hgrade : t.grade = s.grade := congrArg (·.1) h
  have hgrant : ∀ p, (t.part p).grant = (s.part p).grant := fun p => congrArg (fun x => (x.2 p).1) h
  have hjob : ∀ p, (t.part p).job.isNone = (s.part p).job.isNone := fun p => congrArg (fun x => (x.2 p).2) h
  unfold State.losersIdle State.blockLosers State.grantSides State.ownerWith State.grantsWith
  simp only [hgrade, hgrant, hjob]

theorem stackCleared_mem (d : Defr) : (s.stackCleared n i d).mem = s.mem.clear (stackBase n) stackBytes := mend_mem _ _ _

theorem stackCleared_leaves (d : Defr) : (s.stackCleared n i d).defs = putAt s.defs i d ∧ (s.stackCleared n i d).parts = s.parts ∧
    (s.stackCleared n i d).grade = s.grade := by
  obtain ⟨m, h⟩ := mend_state { s with mem := s.mem.clear (stackBase n) stackBytes, defs := putAt s.defs i d } (stackBase n) stackBytes
  unfold State.stackCleared
  rw [h]
  exact ⟨rfl, rfl, rfl⟩

/-- A grant change whose blocks are free ends with its last stack, and waits for the others until then (R306, R416). -/
theorem grantEnd_of_freed (hd : s.defs[i]? = some ⟨o, p, op, .grant q g dl cl true⟩) (hidle : s.losersIdle q g = true) :
    s.grantEnd i = if (stksMoved (s.part q).grant g).all fun t => cl.contains t then s.grantApply i o op q g dl else s := by
  unfold State.grantEnd
  simp only [hd, hidle, Bool.not_true, Bool.false_eq_true, if_false, if_true]

/-- A stack of a grant change whose losers are idle is clear (R306, R416): with the last stack that moves the grant applies. -/
theorem stackClearDone_of_idle (hfind : findAt (s.clears n) s.defs = some (i, ⟨o, p, op, .grant q g dl cl fr⟩))
    (hidle : s.losersIdle q g = true) :
    s.stackClearDone n =
      let u := (if fr then s else s.freeBlocks q g).stackCleared n i ⟨o, p, op, .grant q g dl (cl ++ [n]) true⟩
      if (stksMoved (s.part q).grant g).all fun t => (cl ++ [n]).contains t then u.grantApply i o op q g dl else u := by
  have hfreed : (if fr then s else s.freeBlocks q g).holdings = s.holdings := by
    cases fr
    · exact holdings_freeBlocks s q g
    · rfl
  have hdone := stackClearDone_eq s n
  simp only [hfind, hidle, Bool.not_true, Bool.false_eq_true, if_false] at hdone
  generalize (if fr then s else s.freeBlocks q g) = v at hfreed hdone ⊢
  obtain ⟨hdefs, hparts, hgrade⟩ := stackCleared_leaves (s := v) (n := n) (i := i) ⟨o, p, op, .grant q g dl (cl ++ [n]) true⟩
  have hplace : i < v.defs.length := by
    have hsame : v.defs = s.defs := congrArg (·.1) hfreed
    rw [hsame]
    exact (List.getElem?_eq_some_iff.mp (findAt_place hfind)).1
  have hidleu : (v.stackCleared n i ⟨o, p, op, .grant q g dl (cl ++ [n]) true⟩).losersIdle q g = true := by
    rw [losersIdle_of_holdings, hidle]
    rw [← congrArg (·.2) hfreed]
    simp only [State.holdings, hgrade, part_of_parts hparts]
  rw [hdone, grantEnd_of_freed (by rw [hdefs, putAt, List.getElem?_set_self hplace]) hidleu, part_of_parts hparts]
  have hgrant : (v.part q).grant = (s.part q).grant := congrArg (fun x => (x.2.2 q).1) hfreed
  rw [hgrant]

end Clear


section Counters

variable {s : State} {o : Org} {p a n : Nat}

/-- A register command to a 64-bit register that the sender reaches comes to the write of that register (R394). -/
theorem regCommand_of_reg (h : s.servedBy o p) {c : Nat} (hr : s.regAt p a = some (8, c)) (h4 : a % 4 = 0) (v : Nat) :
    s.regCommand o a v = (s.regWrite p a 8 v).1.complete o 0x0011 (s.regWrite p a 8 v).2 [] := by
  obtain ⟨x, hx, rfl⟩ := h
  have hok : s.regOk x.part a 8 = true := by simp [State.regOk, hr, h4]
  rw [State.regCommand, asCommand_of_serves hx, hr]
  exact doRegWrite_of_ok o v hok (by simp)

/-! CLR is the top bit of the 64-bit error counter registers (R317, R479). -/

theorem clear_of_hstk (h : s.servedBy o p) (hplace : place s.grade a = .hstk n 0x10) (h4 : a % 4 = 0) (hg : n ∈ (s.part p).grant.stks)
    (hc : (s.stack n).clearing = none) :
    s.regCommand o a (2 ^ 63) = (s.modStack n fun k => { k with corr := 0, unc := 0 }).complete o 0x0011 Code.ok [] := by
  have hreg : s.regAt p a = some (8, (s.stack n).corr + 2 ^ 32 * (s.stack n).unc) := by
    simp [State.regAt, hplace, hg, State.hstkReg]
  have hwrite : s.regWrite p a 8 (2 ^ 63) = (s.modStack n fun k => { k with corr := 0, unc := 0 }, Code.ok) := by
    simp only [State.regWrite, State.coreMemAt, hplace, hc]
    rfl
  rw [regCommand_of_reg h hreg h4, hwrite]

theorem clear_of_die (h : s.servedBy o 0) (hplace : place s.grade a = .die n 0xA00) (h4 : a % 4 = 0) :
    s.regCommand o a (2 ^ 63) = { s with dieEcc := putAt s.dieEcc n (0, 0) }.complete o 0x0011 Code.ok [] := by
  have hreg : s.regAt 0 a = some (8, satAt 0xFFFFFFFF (nth (0, 0) s.dieEcc n).1 + 2 ^ 32 * satAt 0xFFFF (nth (0, 0) s.dieEcc n).2) := by
    simp [State.regAt, hplace]
  have hwrite : s.regWrite 0 a 8 (2 ^ 63) = ({ s with dieEcc := putAt s.dieEcc n (0, 0) }, Code.ok) := by
    simp only [State.regWrite, State.coreMemAt, hplace]
    rfl
  rw [regCommand_of_reg h hreg h4, hwrite]

theorem clear_of_window (h : s.servedBy o p) (hplace : place s.grade a = .window n 0x70A00) (h4 : a % 4 = 0) (hp : s.reaches p n = true) :
    s.regCommand o a (2 ^ 63) = (s.modCore n fun x => { x with eccCorr := 0, eccUnc := 0 }).complete o 0x0011 Code.ok [] := by
  have hreg : ∃ c, s.regAt p a = some (8, c) := by
    simp [State.regAt, hplace, hp, State.coreReg]
  have hmem : s.coreMemAt p a = none := by simp [State.coreMemAt, hplace]
  have hwrite : s.regWrite p a 8 (2 ^ 63) = (s.modCore n fun x => { x with eccCorr := 0, eccUnc := 0 }, Code.ok) := by
    simp only [State.regWrite, hmem, hplace]
    rfl
  obtain ⟨c, hc⟩ := hreg
  rw [regCommand_of_reg h hc h4, hwrite]

theorem exec_hstkEccClear (h : s.servedBy o p) (hn : n < 8) (hg : n ∈ (s.part p).grant.stks) (hc : (s.stack n).clearing = none) :
    exec (.hstkEccClear o n) s = .next ((s.modStack n fun k => { k with corr := 0, unc := 0 }).complete o 0x0011 Code.ok []) := by
  have hexec : exec (.hstkEccClear o n) s = s.guarded (decide (n < 8)) (s.regCommand o (0x040002000000 + 0x100000 * n + 0x10) (2 ^ 63)) := rfl
  rw [hexec, decide_eq_true hn, guarded_true, clear_of_hstk h (place_hstk s.grade hn (by decide)) (by omega) hg hc]

theorem exec_dieEccClear (h : s.servedBy o 0) (hn : n < 4) :
    exec (.coreEccClear o true n) s = .next ({ s with dieEcc := putAt s.dieEcc n (0, 0) }.complete o 0x0011 Code.ok []) := by
  have hexec : exec (.coreEccClear o true n) s = .next (s.regCommand o (0x040001000000 + 0x100000 * n + 0xA00) (2 ^ 63)) := rfl
  rw [hexec, clear_of_die h (place_die s.grade hn (by decide)) (by omega)]

theorem exec_coreEccClear (h : s.servedBy o p) (hn : n < 3072) (hp : s.reaches p n = true) :
    exec (.coreEccClear o false n) s = .next ((s.modCore n fun x => { x with eccCorr := 0, eccUnc := 0 }).complete o 0x0011 Code.ok []) := by
  have hact : coreActive s.grade (fileOf n) (rankOf n) = true := by
    simp only [State.reaches, PView.grants, Bool.and_eq_true] at hp
    exact hp.1.1
  have hexec : exec (.coreEccClear o false n) s = .next (s.regCommand o (coreRegBase n + 0xA00) (2 ^ 63)) := rfl
  have haddr : coreRegBase n + 0xA00 = windowBase n + 0x70A00 := Nat.add_assoc _ _ _
  have halign : (windowBase n + 0x70A00) % 4 = 0 := by rw [windowBase]; omega
  rw [hexec, haddr, clear_of_window h (place_window hn (by decide) hact) halign hp]

end Counters

/-- Settles O42: each row by its rule; a grant change reads of the state only what the freeing of its blocks keeps. -/
theorem stackUpkeep : Obligations.StackUpkeep := by
  refine ⟨?refresh, ?scrub, ?spared, ?clear, ?stackCounters, ?otherCounters⟩
  case refresh =>
    intro s n hruns hn
    have hexec : exec (.refresh n) s = .next (s.refresh n) := exec_of_runs hruns (decide_eq_true hn) rfl
    refine ⟨fun hdue => ?_, fun hearly => ⟨_, hexec, stack_refresh_of_early hearly⟩⟩
    rw [hexec, refresh_of_due hdue]
    rfl
  case scrub =>
    intro s n hruns hn hq hgood
    have hexec : exec (.scrubRead n []) s = .next (s.scrubRead n []) := exec_of_runs hruns (decide_eq_true hn) rfl
    rw [hexec, scrubRead_of_good hq hgood]
  case spared =>
    intro s n row rest hruns hn hc hd
    have hexec : exec (.rowSpared n []) s = .next (s.rowSpared n []) := exec_of_runs hruns (decide_eq_true hn) rfl
    rw [hexec, rowSpared_of_undamaged hc hd]
    rfl
  case clear =>
    intro s n i q op p o g dl fr cl hruns hn hfind hidle v u
    have hexec : exec (.stackClearDone n) s = .next (s.stackClearDone n) := exec_of_runs hruns (decide_eq_true hn) rfl
    have hmem : u.mem = v.mem.clear (stackBase n) stackBytes := stackCleared_mem _
    rw [hexec, stackClearDone_of_idle hfind hidle]
    refine ⟨fun hleft => congrArg _ (if_neg ?_), fun hall => congrArg _ (if_pos ?_), fun b h1 h2 => ?_, fun b hb => ?_⟩
    · simpa using hleft
    · simpa using hall
    · rw [hmem, Memory.byte_clear, if_pos ⟨h1, h2⟩]
    · rw [hmem, Memory.byte_clear, if_neg (by omega)]
  case stackCounters =>
    exact fun s o n p h hn hg hc => exec_hstkEccClear h hn hg hc
  case otherCounters =>
    intro s o n p h
    refine ⟨fun hn hp => ?_, fun hn hp => exec_coreEccClear h hn hp⟩
    subst hp
    exact exec_dieEccClear h hn

end Sys2Proof.Machine
end

section
/-!
PROOFS. Thermal states, and what stops the module (R302, R440, R480, R481, R490, R495, R497).
-/

open Sys2Proof Sys2Proof.Machine

namespace Sys2Proof

theorem bit_eq_testBit (x i : Nat) : bit x i = x.testBit i := by
  rw [Nat.testBit_eq_decide_div_mod_eq, bit, Nat.shiftRight_eq_div_pow]
  rfl

theorem bit_or_pow (x i : Nat) : bit (x ||| 2 ^ i) i = true := by
  rw [bit_eq_testBit, Nat.testBit_or, Nat.testBit_two_pow_self, Bool.or_true]

/-- The power part with what the sensors tell (R482). -/
def Power.sensed (x : Power) (die : Nat) (l : List Nat) : Power :=
  { x with dieMax := die, stkMax := hottest l, sbDie := die, sbStk := hottest l }

/-- The caps of the stacks once the hot ones are capped (R480). -/
def Power.capsOf (x : Power) (l : List Nat) : List Nat := (List.range 8).map fun t => if 95 ≤ nth 0 l t then 8 else nth 16 x.thermCap t

/-- The power part with the hot stacks capped (R480). -/
def Power.hotCapped (x : Power) (l : List Nat) : Power := { x with thermCap := x.capsOf l }

theorem nth_capsOf (x : Power) (l : List Nat) {i : Nat} (hi : i < 8) :
    nth 16 (x.capsOf l) i = if 95 ≤ nth 0 l i then 8 else nth 16 x.thermCap i := by
  unfold Power.capsOf
  rw [nth, List.getD_eq_getElem?_getD, List.getElem?_map, List.getElem?_range hi]
  rfl

section Fields

variable (x : Power)

@[simp] theorem alerted_thermClk : (Power.alerted x).thermClk = x.thermClk := rfl
@[simp] theorem alerted_thermCap : (Power.alerted x).thermCap = x.thermCap := rfl
@[simp] theorem alerted_powClk : (Power.alerted x).powClk = x.powClk := rfl
@[simp] theorem alerted_profile : (Power.alerted x).profile = x.profile := rfl
@[simp] theorem alerted_atFloor : (Power.alerted x).atFloor = x.atFloor := rfl
@[simp] theorem alerted_dieMax : (Power.alerted x).dieMax = x.dieMax := rfl
@[simp] theorem alerted_stkMax : (Power.alerted x).stkMax = x.stkMax := rfl
@[simp] theorem alerted_sbstat : (Power.alerted x).sbstat = x.sbstat := rfl

end Fields

/-- The power part once thermal state `st` is entered (R480, R496). -/
def Power.entered (x : Power) (st : Nat) : Power := Power.sbSet { x with tstate := st, therm := true, atFloor := 0 } 10

/-- A step of the clock limit: 100 MHz down, or a millisecond more at the floor (R480). -/
def Power.stepped (x : Power) : Power :=
  if x.thermClk ≤ 500 then { x with atFloor := x.atFloor + 1 } else { x with thermClk := max 500 (x.thermClk - 100) }

/-- The power part once thermal state `goal` is reached from above (R480). -/
def Power.cooled (x : Power) (goal : Nat) : Power :=
  { x with tstate := goal, therm := decide (goal = 1), thermCap := List.replicate 8 16, atFloor := 0 }

end Sys2Proof

namespace Sys2Proof.Machine

section Parts

variable (s : State)

/-- Updates of stacks change nothing else. -/
theorem foldl_modStack (f : Nat → Stack → Stack) (l : List Nat) : ∃ k, l.foldl (fun s t => s.modStack t (f t)) s = { s with stks := k } := by
  induction l generalizing s with
  | nil => exact ⟨s.stks, rfl⟩
  | cons t l ih =>
    obtain ⟨k, h⟩ := ih (s.modStack t (f t))
    exact ⟨k, h⟩

theorem readSensors_state (die : Nat) (l : List Nat) :
    ∃ k, s.readSensors die l = { s with pwr := Power.alerted (s.pwr.sensed die l), stks := k } := foldl_modStack (s.modPwr fun x => x.sensed die l) _ _

@[simp] theorem readSensors_pwr (die : Nat) (l : List Nat) : (s.readSensors die l).pwr = Power.alerted (s.pwr.sensed die l) := by
  obtain ⟨k, h⟩ := readSensors_state s die l
  rw [h]

@[simp] theorem readSensors_clock (die : Nat) (l : List Nat) : (s.readSensors die l).clock = s.clock := by
  obtain ⟨k, h⟩ := readSensors_state s die l
  rw [h]

@[simp] theorem readSensors_mem (die : Nat) (l : List Nat) : (s.readSensors die l).mem = s.mem := by
  obtain ⟨k, h⟩ := readSensors_state s die l
  rw [h]

@[simp] theorem readSensors_flash (die : Nat) (l : List Nat) : (s.readSensors die l).flash = s.flash := by
  obtain ⟨k, h⟩ := readSensors_state s die l
  rw [h]

/-- The fabric clock in force is the least of the three limits (R495). -/
theorem reclock_state : ∃ k, s.reclock =
    { s with clock := min (profileClock s.pwr.profile) (min s.pwr.thermClk s.pwr.powClk), stks := k } :=
  foldl_modStack { s with clock := min (profileClock s.pwr.profile) (min s.pwr.thermClk s.pwr.powClk) } _ _

@[simp] theorem reclock_pwr : s.reclock.pwr = s.pwr := by
  obtain ⟨k, h⟩ := reclock_state s
  rw [h]

@[simp] theorem reclock_mem : s.reclock.mem = s.mem := by
  obtain ⟨k, h⟩ := reclock_state s
  rw [h]

@[simp] theorem reclock_parts : s.reclock.parts = s.parts := by
  obtain ⟨k, h⟩ := reclock_state s
  rw [h]

@[simp] theorem reclock_clock : s.reclock.clock = min (profileClock s.pwr.profile) (min s.pwr.thermClk s.pwr.powClk) := by
  obtain ⟨k, h⟩ := reclock_state s
  rw [h]

@[simp] theorem enterThermal_pwr (st : Nat) : (s.enterThermal st).pwr = Power.alerted (s.pwr.entered st) := rfl
@[simp] theorem enterThermal_clock (st : Nat) : (s.enterThermal st).clock = s.clock := rfl
@[simp] theorem enterThermal_mem (st : Nat) : (s.enterThermal st).mem = s.mem := rfl

theorem told_pwr {t : State} (h : Told s t) : t.pwr = s.pwr := by rw [h.eq]

theorem told_clock {t : State} (h : Told s t) : t.clock = s.clock := by rw [h.eq]

theorem capHot_pwr (l : List Nat) : (s.capHot l).pwr = Power.alerted (s.pwr.hotCapped l) := reclock_pwr _

@[simp] theorem capHot_mem (l : List Nat) : (s.capHot l).mem = s.mem := reclock_mem _

end Parts

section States

variable {s : State} {die : Nat} {l : List Nat}

theorem thermalWarning_of_reached (hw : s.watching = true) (hst : s.pwr.tstate = 0) (hr : reachesEntry 1 die l = true) :
    s.thermalWarning die l = ((s.readSensors die l).enterThermal 1).eventAll Code.thermalWarning Ev.none := if_pos ⟨hw, hst, hr⟩

/-- The state once THROTTLE is entered and its partitions have heard of it, before the hot stacks are capped (R440, R480). -/
def State.throttled (s : State) (die : Nat) (l : List Nat) : State :=
  let u := ((s.readSensors die l).enterThermal 2).eventAll Code.thermalThrottle Ev.none
  u.defined.foldl (fun s p => s.yields p 1 5 1) u

theorem thermalThrottle_of_reached (hw : s.watching = true) (hst : s.pwr.tstate < 2) (hr : reachesEntry 2 die l = true) :
    s.thermalThrottle die l = (s.throttled die l).capHot l := if_pos ⟨hw, hst, hr⟩

theorem told_throttled : Told ((s.readSensors die l).enterThermal 2) (s.throttled die l) :=
  Told.foldl (Told.eventAll _ _ (.refl _)) fun _ _ hu => hu.event _ _ _

theorem throttleStep_of_throttle (hw : s.watching = true) (hst : s.pwr.tstate = 2) :
    s.throttleStep = (s.modPwr Power.stepped).reclock := if_pos ⟨hw, hst⟩

theorem clockRamp_of_below (hw : s.watching = true) (hst : s.pwr.tstate < 2) :
    s.clockRamp = (s.modPwr fun x => { x with thermClk := min (profileClock x.profile) (x.thermClk + 100) }).reclock := if_pos ⟨hw, hst⟩

theorem thermalClear_of_below (hw : s.watching = true) (hst : 0 < s.pwr.tstate) (hb : belowEntry s.pwr.tstate die l = true) :
    s.thermalClear die l = ((s.readSensors die l).modPwr fun x =>
      x.cooled (if s.pwr.tstate = 2 ∧ belowEntry 1 die l = false then 1 else 0)).reclock.eventAll Code.thermalClear Ev.none := by
  unfold State.thermalClear Power.cooled
  simp only [hw, hst, hb, and_self, if_true, Bool.not_eq_true']

end States

section Rows

variable {s : State} {die : Nat} {l : List Nat}

theorem thermalWarning_effect (hw : s.watching = true) (hst : s.pwr.tstate = 0) (hr : reachesEntry 1 die l = true) :
    let t := s.thermalWarning die l
    t.pwr = Power.alerted ((Power.alerted (s.pwr.sensed die l)).entered 1) ∧ t.clock = s.clock ∧ t.mem = s.mem := by
  have told := Told.eventAll Code.thermalWarning Ev.none (.refl ((s.readSensors die l).enterThermal 1))
  rw [thermalWarning_of_reached hw hst hr]
  refine ⟨?_, ?_, ?_⟩
  · rw [told_pwr _ told, enterThermal_pwr, readSensors_pwr]
  · rw [told_clock _ told, enterThermal_clock, readSensors_clock]
  · rw [told.mem, enterThermal_mem, readSensors_mem]

theorem thermalThrottle_effect (hw : s.watching = true) (hst : s.pwr.tstate < 2) (hr : reachesEntry 2 die l = true) :
    let t := s.thermalThrottle die l
    let x := Power.alerted ((Power.alerted (s.pwr.sensed die l)).entered 2)
    t.pwr = Power.alerted (x.hotCapped l) ∧ t.mem = s.mem := by
  have hpwr : (s.throttled die l).pwr = Power.alerted ((Power.alerted (s.pwr.sensed die l)).entered 2) := by
    rw [told_pwr _ told_throttled, enterThermal_pwr, readSensors_pwr]
  rw [thermalThrottle_of_reached hw hst hr]
  refine ⟨?_, ?_⟩
  · rw [capHot_pwr, hpwr]
  · rw [capHot_mem, told_throttled.mem, enterThermal_mem, readSensors_mem]

theorem thermalClear_effect (hw : s.watching = true) (hst : 0 < s.pwr.tstate) (hb : belowEntry s.pwr.tstate die l = true) :
    let t := s.thermalClear die l
    t.pwr = Power.alerted ((Power.alerted (s.pwr.sensed die l)).cooled (if s.pwr.tstate = 2 ∧ belowEntry 1 die l = false then 1 else 0)) ∧
      t.mem = s.mem := by
  rw [thermalClear_of_below hw hst hb]
  generalize (if s.pwr.tstate = 2 ∧ belowEntry 1 die l = false then 1 else 0) = goal
  have told := Told.eventAll Code.thermalClear Ev.none (.refl ((s.readSensors die l).modPwr fun x => x.cooled goal).reclock)
  refine ⟨?_, ?_⟩
  · rw [told_pwr _ told, reclock_pwr, modPwr_pwr, readSensors_pwr]
  · rw [told.mem, reclock_mem, modPwr_mem, readSensors_mem]

end Rows

section Stop

variable (s : State) (code : Nat)

/-- A stopped module (R481, R490, R497): its fabric and ports stand, FAULT_N and the boot status word tell, and the trip is counted. -/
structure Stopped (s : State) (code : Nat) (t : State) : Prop where
  stopped : t.pwr.stopped = true
  ready : t.pwr.ready = false
  fault : t.pwr.fault = true
  failed : t.pwr.boot.failed = true
  code : t.pwr.boot.code = code
  ports : ∀ x ∈ t.ports, x.enabled = false
  flash : t.flash = { s.flash with trips := s.flash.trips + 1 }

theorem setBoot_pwr (b : BootW) : ∃ n, (s.setBoot b).pwr = Power.alerted { s.pwr with boot := b, sbstat := n } := by
  by_cases h : s.pwr.boot = b
  · subst h
    exact ⟨s.pwr.sbstat, congrArg Power.alerted (if_pos rfl)⟩
  · exact ⟨_, congrArg Power.alerted (if_neg h)⟩

theorem stopModule_stops : Stopped s code (s.stopModule code) := by
  have hports : ∀ x ∈ (s.stopModule code).ports, x.enabled = false := by
    intro x hx
    obtain ⟨y, -, rfl⟩ := List.mem_map.mp hx
    rfl
  obtain ⟨n, hpwr⟩ : ∃ n, (s.stopModule code).pwr = _ := setBoot_pwr _ _
  exact
    { stopped := by rw [hpwr]; simp
      ready := by rw [hpwr]; simp
      fault := by rw [hpwr]; simp
      failed := by rw [hpwr]; simp
      code := by rw [hpwr]; simp
      ports := hports
      flash := rfl }

variable {s code}

theorem Stopped.all {t : State} (h : Stopped s code t) : t.pwr.stopped = true ∧ t.pwr.ready = false ∧ t.pwr.fault = true ∧
    t.pwr.boot.failed = true ∧ t.pwr.boot.code = code ∧ (∀ x ∈ t.ports, x.enabled = false) ∧ t.flash = { s.flash with trips := s.flash.trips + 1 } :=
  ⟨h.stopped, h.ready, h.fault, h.failed, h.code, h.ports, h.flash⟩

theorem Stopped.of_flash {u t : State} (h : Stopped u code t) (hf : u.flash = s.flash) : Stopped s code t :=
  { h with flash := by rw [h.flash, hf] }

end Stop

/-- Settles O58. -/
theorem thermalStatesChange : Obligations.ThermalStatesChange := by
  refine ⟨?enter, ?step, ?ramp, ?clear, ?stop⟩
  case enter =>
    intro s die l hw
    refine ⟨fun hst hr => ?_, fun hst hr => ?_⟩
    · have hexec : exec (.thermalWarning die l) s = .next (s.thermalWarning die l) := rfl
      obtain ⟨hpwr, hclock, hmem⟩ := thermalWarning_effect hw hst hr
      refine ⟨_, hexec, ?_⟩
      rw [hpwr, hclock, hmem]
      simp [Power.entered, Power.sbSet, Power.sensed, bit_or_pow, -Nat.reducePow]
    · have hexec : exec (.thermalThrottle die l) s = .next (s.thermalThrottle die l) := rfl
      obtain ⟨hpwr, hmem⟩ := thermalThrottle_effect hw hst hr
      have hcaps : ∀ i < 8, nth 16 ((Power.alerted ((Power.alerted (s.pwr.sensed die l)).entered 2)).capsOf l) i =
          if 95 ≤ nth 0 l i then 8 else nth 16 s.pwr.thermCap i := fun i hi => nth_capsOf _ l hi
      refine ⟨_, hexec, ?_⟩
      rw [hpwr, hmem]
      refine ⟨?_, ?_, ?_, ?_, ?_, hcaps, rfl⟩
      all_goals simp [Power.hotCapped, Power.entered, Power.sbSet, Power.sensed, bit_or_pow, -Nat.reducePow]
  case step =>
    intro s hw hst
    have hexec : exec .throttleStep s = .next s.throttleStep := rfl
    refine ⟨_, hexec, ?_⟩
    rw [throttleStep_of_throttle hw hst, reclock_pwr, reclock_clock, reclock_parts, reclock_mem, modPwr_pwr]
    have hkeep : s.pwr.stepped.profile = s.pwr.profile ∧ s.pwr.stepped.powClk = s.pwr.powClk := by
      unfold Power.stepped
      split <;> exact ⟨rfl, rfl⟩
    refine ⟨fun h => ?_, fun h => ?_, ?_, rfl, rfl⟩
    · rw [Power.stepped, if_neg (by omega)]
      exact ⟨rfl, rfl⟩
    · rw [Power.stepped, if_pos h]
      exact ⟨rfl, rfl⟩
    · simp [hkeep]
  case ramp =>
    intro s hw hst
    have hexec : exec .thermalClockRamp s = .next s.clockRamp := rfl
    refine ⟨_, hexec, ?_⟩
    rw [clockRamp_of_below hw hst, reclock_pwr, reclock_clock, reclock_parts, reclock_mem]
    exact ⟨rfl, rfl, rfl, rfl⟩
  case clear =>
    intro s die l hw hst hb
    have hexec : exec (.thermalClear die l) s = .next (s.thermalClear die l) := rfl
    obtain ⟨hpwr, hmem⟩ := thermalClear_effect hw hst hb
    refine ⟨_, hexec, ?_⟩
    rw [hpwr, hmem]
    simp [Power.cooled, Power.sensed]
  case stop =>
    intro s die cur l hw
    refine ⟨fun h => ?_, fun h => ?_, fun h => ?_⟩
    · have heq : s.thermalTrip die l = (s.readSensors die l).stopModule Code.thermalTrip := if_pos ⟨hw, h⟩
      exact ⟨s.thermalTrip die l, rfl, heq ▸ ((stopModule_stops _ _).of_flash (readSensors_flash ..)).all⟩
    · have heq : s.overcurrent cur = (s.modPwr fun x => { x with iin := cur }).stopModule Code.powerCap := if_pos ⟨hw, h⟩
      exact ⟨s.overcurrent cur, rfl, heq ▸ ((stopModule_stops _ _).of_flash rfl).all⟩
    · have heq : s.refclkLoss = s.stopModule Code.hardwareSelftest := if_pos ⟨hw, h⟩
      exact ⟨s.refclkLoss, rfl, heq ▸ (stopModule_stops s _).all⟩

end Sys2Proof.Machine
end

section
/-!
PROOFS. The command ring, and the end of deferred commands (R314, R388-R398, R431-R438, R454, R455, R468).
-/

open Sys2Proof Sys2Proof.Machine

namespace Sys2Proof.Machine

section Ring

variable {s : State} {us : List Upset}

/-- True when an upset is a word of management memory beyond correction (R468). -/
def restarting (us : List Upset) : Bool := us.any fun u => match u with | .mgmt n => decide (1 < n) | _ => false

theorem restarting_of_correctable (h : ∀ n, Upset.mgmt n ∈ us → n ≤ 1) : restarting us = false := by
  refine List.any_eq_false.mpr fun u hu => ?_
  cases u with
  | mgmt n => simpa using h n hu
  | _ => simp

/-- One step of the ring of the session next in turn of the partition next in turn (R388, R391). -/
def State.turnTake (s : State) (us : List Upset) : State :=
  match nextInTurn s.takePart (s.readySess.map (·.part)) with
  | none => s
  | some p =>
    match nextInTurn (s.takeSid.get 0 p) ((s.readySess.filter fun x => x.part == p).map (·.sid)) with
    | none => s
    | some sid =>
      match s.session sid with
      | some x => { s with takePart := p, takeSid := SMap.set 0 s.takeSid p sid }.takeRecord x us
      | none => s

theorem recordTake_eq : s.recordTake us =
    (if s.pwr.ready ∧ ¬ s.pwr.stopped ∧ restarting us then s.mgmtRestart else s).turnTake us := rfl

theorem recordTake_of_quiet (h : restarting us = false) : s.recordTake us = s.turnTake us := by
  rw [recordTake_eq, if_neg (by simp [h])]

theorem recordTake_of_restarting (hr : s.runs = true) (h : restarting us = true) : s.recordTake us = s.mgmtRestart.turnTake us := by
  have hon : s.pwr.ready ∧ ¬ s.pwr.stopped := by simpa [State.runs] using hr
  rw [recordTake_eq, if_pos ⟨hon.1, hon.2, h⟩]

theorem turnTake_of_turn {p sid : Nat} {x : Sess} (hp : nextInTurn s.takePart (s.readySess.map (·.part)) = some p)
    (hs : nextInTurn (s.takeSid.get 0 p) ((s.readySess.filter fun x => x.part == p).map (·.sid)) = some sid) (hx : s.session sid = some x) :
    s.turnTake us = { s with takePart := p, takeSid := SMap.set 0 s.takeSid p sid }.takeNext x x.nextRecord us := by
  unfold State.turnTake
  simp only [hp, hs, hx]
  rfl

end Ring

section Records

variable (s : State) (o : Org) (p : Nat) {b : List Byte} (us : List Upset)

theorem runRecord_of_unknown (h : commandLen (fld b 2 2) b = none) :
    s.runRecord o p b us = s.complete o (fld b 2 2) Code.commandUnknown [] := by
  unfold State.runRecord
  simp only [h]

theorem runRecord_of_length {n : Nat} (h : commandLen (fld b 2 2) b = some n) (hn : b.length ≠ n) :
    s.runRecord o p b us = s.complete o (fld b 2 2) Code.badArgument [] := by
  unfold State.runRecord
  simp only [h]
  exact if_pos hn

theorem runRecord_regWrite (h : fld b 2 2 = 0x0011) (hn : b.length = 32) :
    s.runRecord o p b us = s.doRegWrite o p (fld (b.drop 8) 0 8) (fld (b.drop 8) 8 1) (fld (b.drop 8) 16 8) us := by
  unfold State.runRecord
  simp only [h]
  exact if_neg (not_not.mpr hn)

/-- Upsets of the management memory reach no register access (R468). -/
theorem doRegRead_mgmt (a w n m : Nat) : s.doRegRead o p a w n [.mgmt m] = s.doRegRead o p a w n [] := rfl

theorem doRegWrite_mgmt (a w v m : Nat) : s.doRegWrite o p a w v [.mgmt m] = s.doRegWrite o p a w v [] := rfl

theorem runRecord_mgmt (m : Nat) : s.runRecord o p b [.mgmt m] = s.runRecord o p b [] := by
  unfold State.runRecord
  simp only [doRegRead_mgmt, doRegWrite_mgmt]

theorem takeNext_mgmt (x : Sess) (n : Option Next) (m : Nat) : s.takeNext x n [.mgmt m] = s.takeNext x n [] := by
  cases n with
  | none => rfl
  | some n =>
    cases n with
    | record h b => exact runRecord_mgmt _ _ _ m
    | _ => rfl

theorem turnTake_mgmt (m : Nat) : s.turnTake [.mgmt m] = s.turnTake [] := by
  unfold State.turnTake State.takeRecord
  simp only [takeNext_mgmt]

end Records

section Ends

variable {s : State} {i p op : Nat} {o : Org}

theorem deferredEnd_of_attest {dest : Nat} {nonce : List Byte} (hd : s.defs[i]? = some ⟨o, p, op, .attest nonce dest⟩) (fail : Bool) :
    s.deferredEnd i fail = { s with defs := dropAt s.defs i }.attestEnd o p nonce dest := by
  unfold State.deferredEnd
  rw [hd]

theorem deferredEnd_of_image {r src len : Nat} {secret : List Byte} {st : List Nat}
    (hd : s.defs[i]? = some ⟨o, p, op, .image r src len secret st⟩) (fail : Bool) :
    s.deferredEnd i fail = { s with defs := dropAt s.defs i }.imageEnd o p r src len secret fail := by
  unfold State.deferredEnd
  rw [hd]

theorem deferredEnd_of_stage {src len : Nat} (hd : s.defs[i]? = some ⟨o, p, op, .stage src len⟩) (fail : Bool) :
    s.deferredEnd i fail = { s with defs := dropAt s.defs i }.stageEnd o src len fail := by
  unfold State.deferredEnd
  rw [hd]

theorem deferredEnd_of_promote {bank : Option Nat} {force x : Bool} (hd : s.defs[i]? = some ⟨o, p, op, .promote bank force x⟩) (fail : Bool) :
    s.deferredEnd i fail = s.preloadEnd i fail := by
  unfold State.deferredEnd
  rw [hd]

theorem exec_deferredCommandEnd (hr : s.runs = true) (fail : Bool) : exec (.deferredCommandEnd i fail) s = .next (s.deferredEnd i fail) :=
  congrArg Host.Outcome.next (whileOn_of_runs _ _ hr)

theorem attestEnd_of_room {dest : Nat} {nonce : List Byte} (h : s.sharedIn p dest (s.reportBytes p) = true) :
    s.attestEnd o p nonce dest = (s.viewWrite p dest (s.report p nonce)).complete o 0x0120 Code.ok [] := by
  unfold State.attestEnd
  rw [h]
  rfl

theorem preloadEnd_of_good {bank : Option Nat} {force x : Bool} (hd : s.defs[i]? = some ⟨o, p, op, .promote bank force x⟩)
    (hb : (s.flash.bank (bank.getD s.flash.cur.active)).good = true) :
    s.preloadEnd i false = { s with defs := putAt s.defs i ⟨o, p, op, .promote bank force true⟩ } := by
  unfold State.preloadEnd
  rw [hd]
  exact if_neg (by simp [hb])

theorem stageEnd_of_good {v : State} {src len : Nat} {pkg : List Byte} (hread : s.anyRead 0 src len = (v, pkg, true))
    (hlen : (Manifest.read pkg).pkglen = len) (hcode : packageCode pkg v.fuse.svn = Code.ok) :
    let b := 1 - s.flash.cur.active
    s.stageEnd o src len false = ((v.setBank b 0 Bank.empty).setBank b 1 (Bank.of pkg)).complete o 0x0200 Code.ok [] := by
  unfold State.stageEnd
  simp [hread, hlen, hcode]

theorem imageEnd_of_good {v : State} {r src len : Nat} {secret stream : List Byte} (hread : s.anyRead p src len = (v, stream, true))
    (hdef : (v.region p r).state ≠ .undefined) (hview : v.inView p src len = true) (himg : v.imageCode p r len (stream.take 96) = Code.ok) :
    let hb := stream.take 96
    let h := ImgHdr.read hb
    let c := slice stream 96 h.clen
    let plain := imagePlain (imageKeys secret hb).1 c
    let y := readFrames plain.length plain
    stream.drop (96 + h.clen) = imageTag (imageKeys secret hb).2 hb c → framesCode h [] y.1 = Code.ok →
    frameSet h (v.region p r).rect ((v.region p r).seq / 64) y.1 y.2 = true →
    s.imageEnd o p r src len secret false = (v.imageCommit p r h stream y.1).complete o 0x0110 Code.ok [] := by
  intro hb h c plain y htag hframes hset
  unfold State.imageEnd
  rw [hread]
  dsimp only
  rw [if_neg (by simp), if_neg (by simp [hdef, hview]), if_neg (not_not.mpr himg), if_neg (not_not.mpr htag), if_neg (not_not.mpr hframes)]
  rw [if_neg (by simpa using hset), if_neg (by simp)]

end Ends

section Merge

variable {s : State} {i p op num raddr : Nat} {o : Org} {c : MatchC} {l : List MStk} {qs : List Entry}

/-- The lists of the first `n` queries of a MATCH_MULTI, read and merged in order (R314, R398). -/
def State.mergeAll (s : State) (c : MatchC) (l : List MStk) (n : Nat) : State × List Entry × Bool :=
  (List.range n).foldl (fun (acc : State × List Entry × Bool) q =>
    let y := acc.1.multiLists c l q
    (y.1, acc.2.1 ++ mergeLists c q y.2.1, acc.2.2 && y.2.2)) (s, [], true)

theorem multiMerge_of_good (hd : s.defs[i]? = some ⟨o, p, op, .matchMulti num raddr c l qs []⟩) (hruns : s.multiRuns num = false)
    (hfail : ∀ x ∈ s.multiFail, x.1 ≠ num) :
    let u := { s with defs := dropAt s.defs i, multiFail := s.multiFail.filter fun x => x.1 != num }
    let r := u.mergeAll c l c.nq
    r.2.2 = true → (r.1.freeWork c l).sharedIn p raddr c.resultBytes = true →
    s.multiMerge i = ((r.1.freeWork c l).viewWrite p raddr r.2.1.flatten).complete o 0x0040 Code.ok [] := by
  intro u r hgood hroom
  have hnone : s.multiFail.find? (fun x => x.1 == num) = none := List.find?_eq_none.mpr fun x hx => by simpa using hfail x hx
  unfold State.multiMerge
  rw [hd]
  dsimp only
  rw [if_neg (by simp [hruns]), hnone]
  have hundamaged : ¬ (!r.2.2) = true := by simp [hgood]
  have hplaced : ¬ (!(r.1.freeWork c l).sharedIn p raddr c.resultBytes) = true := by simp [hroom]
  exact (if_neg hundamaged).trans (if_neg hplaced)

end Merge

/-- Settles O55. -/
theorem recordsAreTakenAndDeferredCommandsEnd : Obligations.RecordsAreTakenAndDeferredCommandsEnd := by
  refine ⟨?take, ?mgmt, ?record, ?attest, ?image, ?stage, ?promote, ?merge⟩
  case take =>
    intro s p sid x us h ready hp hs hx u
    have htake : exec (.commandRecordTake us) s = .next (u.takeNext x x.nextRecord us) := by
      have hexec : exec (.commandRecordTake us) s = .next (s.recordTake us) := rfl
      rw [hexec, recordTake_of_quiet (restarting_of_correctable h), turnTake_of_turn hp hs hx]
    refine ⟨fun h b hn => ?_, fun h hn => ?_, fun h hn => ?_, fun h hn => ?_⟩
    all_goals rw [htake, hn]; rfl
  case mgmt =>
    intro s n hr hn
    refine ⟨?_, fun hp => ?_⟩
    · have hup : exec (.commandRecordTake [.mgmt n]) s = .next (s.recordTake [.mgmt n]) := rfl
      have hno : exec (.commandRecordTake []) s.mgmtRestart = .next (s.mgmtRestart.recordTake []) := rfl
      rw [hup, hno, recordTake_of_restarting hr (by simp [restarting, hn]), recordTake_of_quiet rfl, turnTake_mgmt]
    · unfold State.mgmtRestart
      rw [hp]
      rfl
  case record =>
    intro s o p b us
    exact ⟨runRecord_of_unknown s o p us, fun n => runRecord_of_length s o p us, runRecord_regWrite s o p us⟩
  case attest =>
    intro s i p op dest o nonce fail hr hd u hroom
    have hseen : u.sharedIn p dest (u.reportBytes p) = true := hroom
    rw [exec_deferredCommandEnd hr, deferredEnd_of_attest hd, attestEnd_of_room hseen]
  case image =>
    intro s v i p op r src len o secret stream st hr hd hread hb h c plain y hdef hview himg htag hframes hset
    rw [exec_deferredCommandEnd hr, deferredEnd_of_image hd, imageEnd_of_good hread hdef hview himg htag hframes hset]
  case stage =>
    intro s v i p op src len o pkg hr hd hread hlen hcode b
    rw [exec_deferredCommandEnd hr, deferredEnd_of_stage hd, stageEnd_of_good hread hlen hcode]
  case promote =>
    intro s i p op o bank force x hr hd hb
    rw [exec_deferredCommandEnd hr, deferredEnd_of_promote hd, preloadEnd_of_good hd hb]
  case merge =>
    intro s i p op num raddr o c l qs hr hd hruns hfail u r hgood hroom
    have hexec : exec (.matchMultiMerge i) s = .next (s.multiMerge i) := congrArg Host.Outcome.next (whileOn_of_runs _ _ hr)
    rw [hexec, multiMerge_of_good hd hruns hfail hgood hroom]
    rfl

end Sys2Proof.Machine
end

section
/-!
PROOFS. Frames of network B as a port takes them (R324, R341-R345): one that is got reaches its handler, the next of its stream the
running step; and the room of the stacks decides when it acts (R45, R298). The partial sums of a RED frame (R339, R340, R344), and the frames of the broadcast
(R353-R356).
-/

open Sys2Proof Sys2Proof.Machine

namespace Sys2Proof

/-- The position before the module's own at a level (R340). -/
abbrev RingHdr.pred (h : RingHdr) (l : Nat) : Nat := (h.pos l + h.n l - 1) % h.n l

/-- A frame comes to a member, of a level that has others, from its predecessor there (R340, R356). -/
def RingF.fromPred (f : RingF) (h : RingHdr) : Prop :=
  h.standby = false ∧ f.lvl ≤ h.levels ∧ 1 < h.n f.lvl ∧ memberFrame h f f.lvl (h.pred f.lvl) = true

/-- `n` entries of a frame from entry `at_` continue a sub-piece of `total` entries from `first`, of which `got` had come; LAST says that
they complete it (R341). -/
def RingF.continues (f : RingF) (at_ n first got total : Nat) : Prop :=
  at_ = first + got ∧ got + n ≤ total ∧ (f.last = true ↔ got + n = total)

theorem RingF.continues.last_eq {f : RingF} {at_ n first got total : Nat} (h : f.continues at_ n first got total) :
    f.last = decide (got + n = total) := by
  rw [Bool.eq_iff_iff, h.2.2, decide_eq_true_iff]

end Sys2Proof

namespace Sys2Proof.Machine

section Got

variable {s t : State} {b : Nat} {d : Dgram}

/-- A frame that is got runs its command. -/
theorem exec_of_got {i : Instr} {ty c : Nat} {tab : RingTab} {body : List Byte} (h : s.ringGot b d ty c tab body)
    (he : exec i s = s.guarded (decide (b < 4)) (s.whileOn (if s.portUp (4 + b) then t else s))) : exec i s = .next t := by
  obtain ⟨hruns, hb, hup, -⟩ := h
  rw [if_pos hup] at he
  exact exec_of_runs hruns (decide_eq_true hb) he

/-- A frame that is got reaches the handler of its type (R324, R343). -/
theorem ringFrame_of_got {ty c : Nat} {tab : RingTab} {body : List Byte} (h : s.ringGot b d ty c tab body)
    (k : State → Nat → RingTab → RingF → List Byte → State) : s.ringFrame b d [ty] k = k s c tab (RingF.read d.data) body := by
  obtain ⟨-, -, -, hmatch, htab, hopen, hty, hver, henc, hport, hlo, hhi⟩ := h
  unfold State.ringFrame
  simp [hmatch, htab, hopen, hty, hver, henc, hport, hlo, hhi]

/-- The next frame of a stream of the running step is handled (R345). -/
theorem inStep_of_next {c phase : Nat} {f : RingF} {st : Step} {q : PStep} (h : s.ringNext b f c phase st q) (e : RingEnt)
    (k : State → Step → PStep → State) : s.inStep c b phase f e k = k s st q := by
  obtain ⟨hstep, hcur, hdead, hport, hseq⟩ := h
  unfold State.inStep
  simp only [hdead, hcur, hstep, hport, hseq, Bool.false_eq_true, lt_irrefl, if_true, if_false]

end Got

section Paced

variable {s t : State} {w : Client}

theorem paced_of_room (h : s.roomFor w t = true) : s.paced w t = s.through w t := if_pos h

theorem paced_of_wait (h : s.roomFor w t = false) : s.paced w t = s.inLine w t := if_neg (by simp [h])

/-- What a client does with the stacks happens where they have room, and else waits in line (R45, R298; log entry 123). -/
theorem exec_of_paced {i : Instr} (h : exec i s = .next (s.paced w t)) :
    (s.roomFor w t = true → exec i s = .next (s.through w t)) ∧
      (s.roomFor w t = false → exec i s = .next (s.inLine w t)) :=
  ⟨fun hroom => by rw [h, paced_of_room hroom], fun hwait => by rw [h, paced_of_wait hwait]⟩

end Paced

section Reduce

/-- What the checks of R344 say of the groups of a RED frame's body, added to the own values `x`. -/
def redChecks (body : List Byte) (n : Nat) (x : List W32) : List Bool :=
  let rv := words32 body n
  let out := (rv.zip x).map fun y => fadd y.1 y.2
  ((chunks 64 rv).zip ((chunks 64 x).zip ((chunks 64 out).zip (words32 (body.drop (4 * n)) (cdiv n 64))))).map fun y =>
    groupOk y.1 y.2.1 y.2.2.1 y.2.2.2

/-- What follows the checks of a RED frame: the sums of sub-piece `j`, of which `got` had come, are kept or sent on (R339, R340). -/
def State.redPassed (s : State) (c b : Nat) (tab : RingTab) (f : RingF) (out : List W32) (j got : Nat) : State :=
  let l := f.lvl
  let v := s.accepted c b 1 1 l f.step f.last (tab.ent l (tab.h.pred l))
  if j = tab.h.pos l then v.sumDone c b l f.arg0 out
  else ((v.streamSend c b 1 l 0 1 f.last f.arg0 f.count (valueBody out)).modPStep c b fun q =>
    { q with got := SMap.set 0 q.got (64 * l + j) (got + f.count) }).stepNext c

/-- A RED frame after its own values `x` were read: the step ends at a group that fails a check (R344). -/
def State.redAdded (s : State) (c b : Nat) (tab : RingTab) (f : RingF) (body : List Byte) (x : List W32) (j got : Nat) : State :=
  match firstBad (redChecks body f.count x) f.arg0 with
  | some bad => s.stepFail c Code.linkAddMismatch b f.lvl (tab.h.pos f.lvl) bad
  | none => s.redPassed c b tab f (((words32 body f.count).zip x).map fun y => fadd y.1 y.2) j got

variable {s u : State} {b c j got first total bad : Nat} {d : Dgram} {tab : RingTab} {body : List Byte} {f : RingF} {x : List W32}

theorem redAdded_of_bad (h : firstBad (redChecks body f.count x) f.arg0 = some bad) :
    s.redAdded c b tab f body x j got = s.stepFail c Code.linkAddMismatch b f.lvl (tab.h.pos f.lvl) bad := by
  simp only [State.redAdded, h]

theorem redAdded_of_good (h : firstBad (redChecks body f.count x) f.arg0 = none) :
    s.redAdded c b tab f body x j got = s.redPassed c b tab f (((words32 body f.count).zip x).map fun y => fadd y.1 y.2) j got := by
  simp only [State.redAdded, h]

/-- A RED frame that fits its table, its stream, its sub-piece and the retain buffer is added to the own values (R339, R341). -/
theorem redFrame_of_next {t : Step} {q : PStep} (hgot : s.ringGot b d 1 c tab body) (hf : RingF.read d.data = f)
    (hnext : s.ringNext b f c 1 t q)
    (hshape : 1 ≤ f.count ∧ f.count ≤ maxCount tab.h ∧ body.length = 4 * f.count + 4 * cdiv f.count 64 ∧ f.arg1 = 0)
    (hpred : f.fromPred tab.h) (hsub : subOf t q tab.h f.lvl f.arg0 = some (j, first, total)) (hj : j ≠ tab.h.pred f.lvl)
    (hdone : (if j = tab.h.pos f.lvl then nth 0 q.sums (f.lvl - 1) else q.got.get 0 (64 * f.lvl + j)) = got)
    (hplace : f.continues f.arg0 f.count first got total)
    (hsums : f.lvl = 1 ∨ f.arg0 - 256 * (q.piece (f.lvl - 1)).1 + f.count ≤ nth 0 q.sums (f.lvl - 2))
    (hroom : j = tab.h.pos f.lvl ∨ s.retainRoom b (body.length + 64) = true)
    (hown : s.ownValues b t q f.lvl f.arg0 f.count = (u, x, true)) :
    s.redFrame b d = u.redAdded c b tab f body x j got := by
  obtain ⟨hlo, hhi, hlen, harg1⟩ := hshape
  obtain ⟨hmember, hlevels, hothers, hfrom⟩ := hpred
  have hlast : f.last = decide (got + f.count = total) := hplace.last_eq
  obtain ⟨hfirst, hfits, -⟩ := hplace
  have hready : ¬ (f.lvl ≠ 1 ∧ nth 0 q.sums (f.lvl - 2) < f.arg0 - 256 * (q.piece (f.lvl - 1)).1 + f.count ∨
      (!(j == tab.h.pos f.lvl)) = true ∧ (!s.retainRoom b (4 * f.count + 4 * cdiv f.count 64 + 64)) = true) := by
    rw [hlen] at hroom
    obtain h | h := hroom <;> simp [h] <;> omega
  unfold State.redFrame
  rw [ringFrame_of_got hgot, hf]
  simp only [hlo, hhi, hlen, hlevels, hmember, hothers, harg1, hfrom, decide_true, beq_self_eq_true, Bool.not_false, Bool.and_self,
    Bool.not_true, Bool.false_eq_true, if_false]
  rw [inStep_of_next hnext]
  simp only [hsub, beq_iff_eq, hdone]
  rw [if_neg (by simp [hj, hfirst.symm, hlast, Nat.not_lt.mpr hfits]), if_neg hready, hown]
  rfl

end Reduce

/-- Settles O43: the frame is added to the own values, and each outcome of the checks is one branch of what follows. -/
theorem partialSumFramesAdd : Obligations.PartialSumFramesAdd := by
  intro s u b d c tab body t q j first total x hgot f l h pred hnext hlo hhi hlen hlevels hring hmembers harg1 hpred hsub hj done hfirst hfits
    hlast hsums hroom hown rv out checks v r hr
  have hframe : s.redFrame b d = u.redAdded c b tab f body x j done :=
    redFrame_of_next hgot rfl hnext ⟨hlo, hhi, hlen, harg1⟩ ⟨hring, hlevels, hmembers, hpred⟩ hsub hj rfl ⟨hfirst, hfits, hlast⟩ hsums hroom hown
  have hresult : u.redAdded c b tab f body x j done = r := by
    obtain ⟨hgood, hmine, rfl⟩ | ⟨hgood, hother, rfl⟩ | ⟨bad, hbad, rfl⟩ := hr
    · exact (redAdded_of_good hgood).trans (if_pos hmine)
    · exact (redAdded_of_good hgood).trans (if_neg hother)
    · exact redAdded_of_bad hbad
  have hexec : exec (.redFrame b d) s = .next (s.paced (.link b) r) := by
    rw [exec_of_got (i := .redFrame b d) hgot rfl, hframe, hresult]
  exact exec_of_paced hexec

section Broadcast

/-- A broadcast frame of `n` entries of sub-piece `j`, of which `got` had come, after they were reconstructed and kept: it is accepted,
counted and sent on (R354-R356). -/
def State.spreadPassed (s : State) (c b : Nat) (tab : RingTab) (f : RingF) (full : Bool) (j got first n : Nat) (body : List Byte) : State :=
  let l := f.lvl
  let v := s.accepted c b 2 f.type l f.step f.last (tab.ent l (tab.h.pred l))
  ((v.modPStep c b fun q =>
    let q := { q with bgot := SMap.set 0 q.bgot (64 * l + j) (got + n), recon := q.recon + n, writes := q.writes + 1 }
    if l = 1 then q else q.hold first n full).spreadSend c b l f.type (j != (tab.h.pos l + 1) % tab.h.n l) f.last f.arg0 f.count body).stepNext c

/-- The values of a broadcast frame: full ones, or the corrections of its blocks (R342, R353). -/
def spreadValues (full : Bool) (f : RingF) (body : List Byte) (n : Nat) : List W32 :=
  if full then words32 body n else (List.range f.count).flatMap fun i => corrValues (slice body (36 * i) 36) (min 256 (n - 256 * i))

/-- Values above level 1 are kept for the next level down: full ones in WORK, corrections in CBUF (R355). -/
def State.spreadKeep (s : State) (b : Nat) (t : Step) (q : PStep) (full : Bool) (l first : Nat) (vs : List W32) (body : List Byte) : State × Bool :=
  if l = 1 then (s, true)
  else if full then s.workWrite b t q first vs
  else s.reqWrite (nth 0 t.o.cbuf b + 36 * (first / 256 - (q.piece 1).1)) body

variable {s u w : State} {b c j a n got total : Nat} {d : Dgram} {tab : RingTab} {body : List Byte} {f : RingF} {full : Bool} {t : Step} {q : PStep}
  {vs : List W32}

/-- A broadcast frame that fits its table, its stream, its sub-piece and the retain buffer, with good groups, is reconstructed, kept and
sent on (R344, R354-R356). -/
theorem spreadFrame_of_next {first : Nat} (hnext : s.ringNext b f c 2 t q) (hpred : f.fromPred tab.h)
    (hstart : (if full then f.arg0 else 256 * f.arg0) = first) (hsub : subOf t q tab.h f.lvl first = some (j, a, total))
    (hj : j ≠ tab.h.pos f.lvl) (hn : (if full then f.count else min (256 * f.count) (total - (first - a))) = n) (hpos : 0 < n)
    (hdone : q.bgot.get 0 (64 * f.lvl + j) = got) (hplace : f.continues first n a got total)
    (hblocks : full = true ∨ (n = 256 * f.count ∨ got + n = total) ∧ f.count ≤ cdiv n 256)
    (hroom : s.retainRoom b ((body.length + 64) *
      (b2n (j != (tab.h.pos f.lvl + 1) % tab.h.n f.lvl) + if f.lvl = 1 ∧ tab.h.pos1 = 0 then tab.h.nspare else 0)) = true)
    (hvs : spreadValues full f body n = vs)
    (hcheck : full = true → firstBad (((groupWords vs).zip (words32 (body.drop (4 * n)) (cdiv n 64))).map fun y => y.1 == y.2) first = none)
    (hrecon : s.reconstruct t first n (fun r i => if full then nth 0#32 vs i else fadd r (nth 0#32 vs i)) = (u, true))
    (hkeep : u.spreadKeep b t q full f.lvl first vs body = (w, true)) :
    s.spreadFrame c b tab f full body (spreadValues full f body) =
      w.spreadPassed c b tab f full j got first n (if full then valueBody vs else body) := by
  obtain ⟨hmember, hlevels, hothers, hfrom⟩ := hpred
  have hlast : f.last = decide (got + n = total) := hplace.last_eq
  obtain ⟨hfirst, hfits, -⟩ := hplace
  have hgroups : (if full then firstBad (((groupWords vs).zip (words32 (body.drop (4 * n)) (cdiv n 64))).map fun y => y.1 == y.2) first else none)
      = none := by
    cases full
    · rfl
    · exact hcheck rfl
  unfold State.spreadKeep at hkeep
  unfold State.spreadFrame
  simp only [hmember, hlevels, hothers, hfrom, hstart, decide_true, Bool.and_self, Bool.not_true, Bool.not_false, Bool.false_eq_true, if_false,
    Bool.true_and]
  rw [inStep_of_next hnext]
  simp only [hsub, hn, hdone, hvs, hgroups, hrecon, hkeep]
  rw [if_neg, if_neg]
  · rfl
  · simpa using hroom
  · rintro (⟨-, h⟩ | h | h | h | h | ⟨hpart, hblock, hend⟩ | h)
    · exact hj h
    · exact h hfirst
    · omega
    · omega
    · exact h hlast
    · obtain rfl | ⟨hcount | hcount, -⟩ := hblocks
      · cases hpart
      · exact hblock hcount
      · exact hend hcount
    · obtain rfl | ⟨-, hcount⟩ := hblocks
      · exact Nat.not_lt_zero _ h
      · split at h <;> omega

theorem bcfFrame_of_got (hgot : s.ringGot b d 3 c tab body) (hf : RingF.read d.data = f)
    (hshape : 1 ≤ f.count ∧ f.count ≤ maxCount tab.h ∧ body.length = 4 * f.count + 4 * cdiv f.count 64 ∧ f.arg1 = 0) :
    s.bcfFrame b d = s.spreadFrame c b tab f true body (spreadValues true f body) := by
  unfold State.bcfFrame
  rw [ringFrame_of_got hgot, hf]
  exact if_neg (by simp [hshape])

theorem bccFrame_of_got (hgot : s.ringGot b d 2 c tab body) (hf : RingF.read d.data = f)
    (hshape : 1 ≤ f.count ∧ f.count ≤ 252 ∧ body.length = 36 * f.count ∧ f.arg1 = 0) :
    s.bccFrame b d = s.spreadFrame c b tab f false body (spreadValues false f body) := by
  unfold State.bccFrame
  rw [ringFrame_of_got hgot, hf]
  exact if_neg (by simp [hshape])

end Broadcast

/-- Settles O44: of both types the frame passes the checks of its shape, and what is left is common to the two. -/
theorem broadcastFramesReconstruct : Obligations.BroadcastFramesReconstruct := by
  intro s u w b d full c tab body t q j a total hgot f l h pred hnext hring hlevels hmembers harg1 hpred first hsub hj done n hlo hhi hlen hfirst hpos
    hfits hlast hblocks onward hroom vs hcheck hrecon hkeep v r hr
  have hspread : s.spreadFrame c b tab f full body (spreadValues full f body) = r :=
    spreadFrame_of_next hnext ⟨hring, hlevels, hmembers, hpred⟩ rfl hsub hj rfl hpos rfl ⟨hfirst, hfits, hlast⟩ hblocks hroom rfl hcheck hrecon hkeep
  constructor
  · rintro rfl
    have hframe : s.bcfFrame b d = r := (bcfFrame_of_got hgot rfl ⟨hlo, hhi, hlen, harg1⟩).trans hspread
    rw [exec_of_got (i := .bcfFrame b d) hgot rfl, hframe, paced_of_room hr]
  · rintro rfl
    have hframe : s.bccFrame b d = r := (bccFrame_of_got hgot rfl ⟨hlo, hhi, hlen, harg1⟩).trans hspread
    rw [exec_of_got (i := .bccFrame b d) hgot rfl, hframe, paced_of_room hr]
end Sys2Proof.Machine
end

section
/-!
PROOFS. Answers on network B (R341, R345-R347, R358): ACK, NORM and BAR frames, foreign frames, the resends and the transmitter.
-/

open Sys2Proof Sys2Proof.Machine

namespace Sys2Proof

/-- A stream after an ACK with READY 1 of the frames below `next` (R345). -/
def RTx.ackedTo (x : RTx) (next : Nat) : RTx :=
  let kept := x.kept.filter fun k => decide (next ≤ k.lseq)
  { x with kept := kept, held := false, resends := if kept.length < x.kept.length then 0 else x.resends }

section AckWord

variable {n : Nat} (h : n < 2 ^ 9)

theorem ackWord_type (n : Nat) : bits n 7 0 = n % 256 := rfl

include h

theorem ackWord_ready : bit n 8 = decide (256 ≤ n) := by
  unfold bit
  rw [Nat.shiftRight_eq_div_pow, Bool.eq_iff_iff, beq_iff_eq, decide_eq_true_iff]
  omega

theorem ackWord_gap : bit n 9 = false := by
  unfold bit
  rw [Nat.shiftRight_eq_div_pow, Nat.div_eq_of_lt h]
  rfl

theorem ackWord_zero : bits n 31 10 = 0 := by
  unfold bits
  rw [Nat.shiftRight_eq_div_pow, Nat.div_eq_of_lt (by omega), Nat.zero_mod]

end AckWord

end Sys2Proof

namespace Sys2Proof.Machine

section Answers

variable {s : State} {b c : Nat} {d : Dgram} {tab : RingTab} {f : RingF}

/-- An ACK from the successor, GAP 0, for a stream of the running step: READY 1 advances the stream, READY 0 holds it (R345). -/
theorem ackFrame_of_stream {t : Step} {q : PStep} (hgot : s.ringGot b d 4 c tab []) (hf : RingF.read d.data = f) (hcount : f.count = 0)
    (harg1 : f.arg1 < 2 ^ 9) (hty : f.arg1 % 256 = 1 ∨ f.arg1 % 256 = 2 ∨ f.arg1 % 256 = 3) (hstep : (s.memb c).step = some t) (hport : t.port b = some q)
    (hnum : t.d.step = f.step) (hplain : f.standby = false)
    (hsucc : memberFrame tab.h f f.lvl ((tab.h.pos f.lvl + 1) % tab.h.n f.lvl) = true) :
    s.ackFrame b d = s.modPStep c b fun q' => q'.setStream
      (let x := q.stream (if f.arg1 % 256 = 1 then 1 else 2) f.lvl 0
      if 256 ≤ f.arg1 then x.ackedTo f.arg0 else { x with held := true }) := by
  have hdata : ¬ (f.arg1 % 256 = 5 ∨ f.arg1 % 256 = 6) := by omega
  have hstream : 1 ≤ f.arg1 % 256 ∧ f.arg1 % 256 ≤ 3 := by omega
  unfold State.ackFrame
  rw [ringFrame_of_got hgot, hf]
  simp only [ackWord_type, ackWord_ready harg1, ackWord_gap harg1, ackWord_zero harg1, hcount, hdata, hstream, hstep, hport, hnum, hplain, hsucc,
    List.isEmpty_nil, beq_self_eq_true, Bool.and_self, Bool.or_true, Bool.not_true, Bool.false_eq_true, and_self, not_true_eq_false, ne_eq, or_self, if_false]
  by_cases hready : 256 ≤ f.arg1
  · simp only [hready, decide_true, Bool.not_true, Bool.false_eq_true, if_false, if_true]
    rfl
  · simp only [hready, decide_false, Bool.not_false, if_false, if_true]
    rfl

/-- A NORM frame of the running step is acknowledged, and its value moves the norm lane on (R346, R347). -/
theorem normFrame_of_running {t : Step} (hgot : s.ringGot b d 5 c tab []) (hf : RingF.read d.data = f) (hcount : f.count = 0)
    (hfrom : memberFrame tab.h f f.lvl (f.posAt f.lvl) = true) (hpos : f.posAt f.lvl < tab.h.n f.lvl) (hstep : (s.memb c).step = some t)
    (hcur : (s.memb c).cur = f.step) (hdead : (s.memb c).dead.contains f.step = false) (hmember : tab.h.standby = false) :
    s.normFrame b d = (((s.ringAck c b 5 f.lvl f.round f.step 1 true false (tab.ent f.lvl (f.posAt f.lvl))).modStep c fun t =>
      { t with lane := t.lane.take f.lvl (f.posAt f.lvl) (BitVec.ofNat 32 f.arg0) }).normRun c).stepBar c := by
  have hlive : f.step ∉ (s.memb c).dead := by simpa using hdead
  unfold State.normFrame
  rw [ringFrame_of_got hgot, hf]
  simp [hcount, hfrom, hpos, hstep, hcur, hlive, hmember]

/-- A BAR frame of the running barrier is acknowledged, and the arrival moves the barrier on (R358). -/
theorem barFrame_of_running {x : Bar} (hgot : s.ringGot b d 6 c tab []) (hf : RingF.read d.data = f) (hcount : f.count = 0) (harg0 : f.arg0 = 0)
    (hfrom : memberFrame tab.h f f.lvl (f.posAt f.lvl) = true) (hpos : f.posAt f.lvl < tab.h.n f.lvl) (hmember : tab.h.standby = false)
    (hbar : (s.memb c).bar = some x) (hnum : x.num = f.step) (hdead : (s.memb c).barDead.contains f.step = false) :
    s.barFrame b d = ((s.ringAck c b 6 f.lvl f.round f.step 1 true false (tab.ent f.lvl (f.posAt f.lvl))).modMemb c fun m =>
      { m with bar := m.bar.map fun x => { x with lane := x.lane.take f.lvl (f.posAt f.lvl) 0#32 } }).barNext c := by
  have hlive : f.step ∉ (s.memb c).barDead := by simpa using hdead
  unfold State.barFrame
  rw [ringFrame_of_got hgot, hf]
  simp [hcount, harg0, hfrom, hpos, hmember, hbar, hnum, hlive]

end Answers

section Resends

variable {s : State} {b c : Nat} {tab : RingTab}

/-- A stream that keeps frames and has not made progress fails its step after 8 resends, unless it is held; else it resends them (R345). -/
theorem ringResend_of_kept {phase lvl peer : Nat} {t : Step} {q : PStep} {x : RTx} (hstep : (s.memb c).step = some t)
    (htab : (s.memb c).tab b = some tab) (hport : t.port b = some q)
    (hfind : q.tx.find? (fun x => x.phase == phase && x.lvl == lvl && x.peer == peer) = some x) (hkept : x.kept ≠ []) :
    s.ringResend c b phase lvl peer =
      if x.held = false ∧ 8 ≤ x.resends then s.stepFail c Code.ringTimeout b lvl (tab.h.pos lvl) 0
      else
        let e := if peer = 0 then tab.ent lvl ((tab.h.pos lvl + 1) % tab.h.n lvl) else tab.ent 4 (peer - 1)
        x.kept.foldl (fun u k => u.transmit (4 + b) (ringMsg c tab.h false e k.data))
          ((s.modPStep c b fun q => q.setStream { x with resends := if x.held then x.resends else x.resends + 1 }).modMemb c fun m =>
            { m with resent := min 0xFFFFFFFF (m.resent + x.kept.length) }) := by
  unfold State.ringResend
  simp [hstep, htab, hport, hfind, hkept, satAt_eq_min]

/-- A NORM or BAR frame that was not acknowledged goes to the end of its lane's list and leaves again (R343, R358). -/
theorem laneResend_of_unacked {bar : Bool} {l : LaneS} {lvl pos : Nat} {data : List Byte} {rest : List (Nat × Nat × List Byte)}
    (htab : s.laneTab c = some (b, tab)) (hlane : (if bar then (s.memb c).bar.map (·.lane) else (s.memb c).step.map (·.lane)) = some l)
    (hunacked : l.unacked = (lvl, pos, data) :: rest) :
    s.laneResend c bar = (s.modMemb c fun m =>
      let m := { m with resent := min 0xFFFFFFFF (m.resent + 1) }
      let l := { l with unacked := rest ++ [(lvl, pos, data)] }
      if bar then { m with bar := m.bar.map fun x => { x with lane := l } }
      else { m with step := m.step.map fun x => { x with lane := l } }).transmit (4 + b) (ringMsg c tab.h true (tab.ent lvl pos) data) := by
  unfold State.laneResend
  simp only [htab, hlane, hunacked, satAt_eq_min]

end Resends

section Transmitter

variable {s : State} {i : Nat}

theorem transmitEnd_of_untold (h : 4 ≤ i ∨ (s.port i).cur = none) : s.transmitEnd i = s.frameEnd i := by
  unfold State.transmitEnd
  dsimp only
  split
  · next m n hm hn =>
    refine if_neg fun hyield => ?_
    obtain hi | hnone := h
    · omega
    · cases hm.symm.trans hnone
  · rfl

/-- The end of a frame picks the next message, and at most the partition of the frame is told that it yields (R440; log entry 63). -/
theorem transmitEnd_picks (s : State) (i : Nat) :
    s.transmitEnd i = s.frameEnd i ∨ ∃ m, (s.port i).cur = some m ∧ s.transmitEnd i = (s.frameEnd i).yields m.who 4 5 5 := by
  unfold State.transmitEnd
  dsimp only
  split
  · next m n hm hn =>
    split
    · exact .inr ⟨m, hm, rfl⟩
    · exact .inl rfl
  · exact .inl rfl

end Transmitter

/-- Settles O45: each frame and each timeout is one branch of its handler. -/
theorem ringAnswersAndResends : Obligations.RingAnswersAndResends := by
  refine ⟨?ack, ?norm, ?bar, ?foreign, ?resend, ?lane, ?message, ?transmitter⟩
  case ack =>
    intro s b c d tab t q hgot f hcount harg1 hty hstep hport hnum hplain hsucc x kept
    have hframe := ackFrame_of_stream hgot rfl hcount harg1 hty hstep hport hnum hplain hsucc
    rw [exec_of_got (i := .ackFrame b d) hgot rfl, hframe]
    exact ⟨fun hready => by rw [if_pos hready]; rfl, fun hhold => by rw [if_neg (Nat.not_le.mpr hhold)]⟩
  case norm =>
    intro s b c d tab t hgot f pos hcount hfrom hpos hstep hcur hdead hmember
    rw [exec_of_got (i := .normFrame b d) hgot rfl, normFrame_of_running hgot rfl hcount hfrom hpos hstep hcur hdead hmember]
  case bar =>
    intro s b c d tab x hgot f pos hcount harg0 hfrom hpos hmember hbar hnum hdead
    rw [exec_of_got (i := .barFrame b d) hgot rfl, barFrame_of_running hgot rfl hcount harg0 hfrom hpos hmember hbar hnum hdead]
  case foreign =>
    intro s b d hruns hb hup hmatch
    have hcounted : (s.portUp (4 + b) && (s.ringMatch b d).isNone) = true := by simp [hup, hmatch]
    rw [exec_of_runs (i := .unmatchedRingFrame b d) hruns (decide_eq_true hb) rfl, if_pos hcounted, State.foreignB]
    simp only [satAt_eq_min]
  case resend =>
    intro s c b phase lvl peer t tab q x hruns hc hb hstep htab hport hfind hkept
    have hexec : exec (.ringResendTimeout c b phase lvl peer) s = .next (s.ringResend c b phase lvl peer) :=
      exec_of_runs hruns (by simp [hc, hb]) rfl
    rw [hexec, ringResend_of_kept hstep htab hport hfind hkept]
    refine ⟨fun hgoes => ?_, fun hheld hresends => ?_⟩
    · have hagain : ¬ (x.held = false ∧ 8 ≤ x.resends) := by
        rintro ⟨hheld, h8⟩
        simp [hheld] at hgoes
        omega
      rw [if_neg hagain]
    · rw [if_pos ⟨hheld, hresends⟩]
  case lane =>
    intro s c b lvl pos data rest tab hruns hc htab
    have hexec : ∀ bar, exec (.priorityResendTimeout c bar) s = .next (s.laneResend c bar) := fun bar =>
      exec_of_runs hruns (decide_eq_true hc) rfl
    refine ⟨fun t hstep hunacked => ?_, fun x hbar hunacked => ?_⟩
    · rw [hexec, laneResend_of_unacked (bar := false) htab (by simp [hstep]) hunacked]
      rfl
    · rw [hexec, laneResend_of_unacked (bar := true) htab (by simp [hbar]) hunacked]
      rfl
  case message => exact fun _ _ _ _ _ => rfl
  case transmitter =>
    intro s i hruns hi u
    have hexec : exec (.transmitterFrameEnd i) s = .next (s.transmitEnd i) := exec_of_runs hruns (decide_eq_true hi) rfl
    rw [hexec]
    exact ⟨fun h => by rw [transmitEnd_of_untold h]; rfl, _, rfl, transmitEnd_picks s i⟩

end Sys2Proof.Machine
end

section
/-!
PROOFS. The update of a shard's blocks (R347-R355) and what a completion of the stack requester lets a port do (R323, R340).
-/

open Sys2Proof Sys2Proof.Machine

namespace Sys2Proof

theorem findAt_eq_none {α : Type} {p : α → Bool} {l : List α} (h : ∀ x ∈ l, p x = false) : findAt p l = none := by
  induction l with
  | nil => rfl
  | cons a l ih =>
    unfold findAt
    rw [if_neg (by simp [h a]), ih fun x hx => h x (List.mem_cons_of_mem a hx)]
    rfl

/-- The factor of gradient clipping, given the square `qv` of the norm (R348). -/
def Step.clipBy (t : Step) (qv : W32) : W32 :=
  if flt 0#32 t.o.clip && flt t.o.clip (fsqrt qv) then fdiv t.o.clip (fsqrt qv) else one32

/-- The optimizer on the owner records `rb` of a block of `n` entries with the sums `g`: each record, the new one, and u (R349). -/
def Step.updates (t : Step) (qv : W32) (rb : List Byte) (g : List W32) (n : Nat) : List (OwnerR × OwnerR × W32) :=
  (List.range n).map fun i =>
    let r := OwnerR.read (slice rb (16 * i) 16)
    let gh := fmul (nth 0#32 g i) t.d.gscale
    (r, optimize t.o t.k t.d.lr r (if t.clipBy qv = one32 then gh else fmul gh (t.clipBy qv)))

/-- The changes of a block's replica with the error memory of its records added (R353). -/
def blockChanges (rs : List (OwnerR × OwnerR × W32)) : List W32 := rs.map fun x => fadd (fsub x.2.1.w x.1.w) x.1.e

/-- The owner records of a block after its update: in full width the error memory is zero (R350, R353). -/
def blockRecords (full : Bool) (rs : List (OwnerR × OwnerR × W32)) : List Byte :=
  let us := blockChanges rs
  (rs.zip (if full then us.map fun _ => 0#32 else (corrections us).2.2)).flatMap fun x => OwnerR.bytes { x.1.2.1 with e := x.2 }

/-- The bytes of a block's corrections (R342). -/
def blockCorrections (rs : List (OwnerR × OwnerR × W32)) : List Byte :=
  let cr := corrections (blockChanges rs)
  corrBytes cr.1 cr.2.1

/-- Every result of the update of a block is finite (R352). -/
def blockFinite (full : Bool) (rs : List (OwnerR × OwnerR × W32)) : Prop :=
  (∀ x ∈ rs, isFinite x.2.1.w = true ∧ isFinite x.2.1.m = true ∧ isFinite x.2.1.v = true ∧ isFinite x.2.2 = true) ∧
    (full = true ∨ (∀ x ∈ blockChanges rs, isFinite x = true) ∧ isFinite (corrections (blockChanges rs)).1 = true)

end Sys2Proof

namespace Sys2Proof.Machine

section Update

/-- The values of an updated block that the broadcast takes: full ones in WORK, corrections in CBUF (R353, R355). -/
def State.blockKeep (s : State) (b : Nat) (t : Step) (q : PStep) (full : Bool) (first : Nat) (rs : List (OwnerR × OwnerR × W32)) : State × Bool :=
  if full then s.workWrite b t q first (rs.map fun x => x.2.1.w)
  else s.reqWrite (nth 0 t.o.cbuf b + 36 * (first / 256 - (q.piece 1).1)) (blockCorrections rs)

variable {s s1 s2 s3 s4 u : State} {c b : Nat} {t : Step} {tab : RingTab} {q : PStep} {qv : W32} {full : Bool} {rb : List Byte} {g : List W32}
  {rs : List (OwnerR × OwnerR × W32)}

/-- A block with finite results is written back, kept for the broadcast and taken by the module's own replica (R349-R354). -/
theorem updateBlock_of_finite {e : Nat × Nat} {at_ : Nat} (hstep : (s.memb c).step = some t) (htab : (s.memb c).tab b = some tab)
    (hport : t.port b = some q) (hq : t.q = some qv) (hgo : t.skipped = false ∧ tab.h.standby = false ∧ q.upd < (q.piece tab.h.levels).2)
    (hfull : q.full = some full) (he : t.ents ((q.piece tab.h.levels).1 + q.upd, 1) = e)
    (hat : nth 0 t.o.ostate b + 64 + 16 * (e.1 - (t.ents (q.piece tab.h.levels)).1) = at_)
    (hread : s.reqRead at_ (16 * e.2) = (s1, rb, true)) (hsums : s1.ownValues b t q 2 e.1 e.2 = (s2, g, true))
    (hrs : t.updates qv rb g e.2 = rs) (hfine : blockFinite full rs) (hback : s2.reqWrite at_ (blockRecords full rs) = (s3, true))
    (hkeep : s3.blockKeep b t q full e.1 rs = (s4, true))
    (hrecon : s4.reconstruct t e.1 e.2 (fun r i => if full then nth 0#32 (rs.map fun x => x.2.1.w) i
      else fadd r (nth 0#32 (corrValues (blockCorrections rs) e.2) i)) = (u, true)) :
    s.updateBlock c b = (u.modPStep c b fun q =>
      { q with upd := q.upd + 1, recon := q.recon + e.2, writes := q.writes + 1 }.hold e.1 e.2 full).stepNext c := by
  obtain ⟨hskip, hmember, hleft⟩ := hgo
  obtain ⟨hresults, hchanges⟩ := hfine
  have hnew : findAt (fun x => !(isFinite x.2.1.w && isFinite x.2.1.m && isFinite x.2.1.v && isFinite x.2.2)) rs = none :=
    findAt_eq_none fun x hx => by simp [hresults x hx]
  have hsent : (if full then none else findAt (fun x => !isFinite x) (blockChanges rs)) = none := by
    obtain rfl | ⟨hall, -⟩ := hchanges
    · rfl
    · rw [findAt_eq_none fun x hx => by simp [hall x hx], ite_self]
  have hscale : (full || isFinite (corrections (blockChanges rs)).1) = true := by
    obtain rfl | ⟨-, h⟩ := hchanges
    · rfl
    · rw [h, Bool.or_true]
  unfold Step.updates Step.clipBy at hrs
  unfold blockRecords blockChanges at hback
  unfold State.blockKeep blockCorrections blockChanges at hkeep
  unfold blockCorrections blockChanges at hrecon
  unfold blockChanges at hsent hscale
  unfold State.updateBlock
  simp only [hstep, htab, hport, hq, hfull]
  rw [if_neg (by simp [hskip, hmember, hleft])]
  simp only [he, hat, hread, hsums, hrs, hnew, hsent, hscale, hback, hkeep, hrecon, Bool.and_self, Bool.not_true, Bool.false_eq_true, if_false, if_true]

end Update

section Chain

variable {s u : State} {c b : Nat} {t : Step} {tab : RingTab} {q : PStep} {v : List W32}

/-- The next entries of the gradients of the chain of level 1 leave as a RED frame and are counted as sent (R338, R340). -/
theorem chainSend_of_gradients {ch : Nat × Nat} {done n : Nat} (hstep : (s.memb c).step = some t) (htab : (s.memb c).tab b = some tab)
    (hport : t.port b = some q) (hothers : tab.h.n 1 ≠ 1) (hch : t.ents (q.chain tab.h 1) = ch) (hdone : nth 0 q.sent 0 = done)
    (hn : min (maxCount tab.h) (ch.2 - done) = n) (hsome : n ≠ 0) (hroom : s.retainRoom b (4 * n + 4 * cdiv n 64 + 64) = true)
    (hown : s.ownValues b t q 1 (ch.1 + done) n = (u, v, true)) :
    s.chainSend c b 1 = (((u.streamSend c b 1 1 0 1 (decide (done + n = ch.2)) (ch.1 + done) n (valueBody v)).modPStep c b fun q =>
      { q with sent := addAt q.sent 0 n }).stepNext c, true) := by
  have hone : (tab.h.n 1 == 1) = false := by simpa using hothers
  unfold State.chainSend
  simp only [hstep, htab, hport, hone, hch, hdone, hn, hown, hsome, hroom, ite_self, Bool.false_eq_true, Nat.sub_self, Bool.not_true,
    if_false, if_true, and_false, or_self]

/-- A completed read lets the chain of level 1 go first (R323, R340). -/
theorem requester_of_chain {r : State} (htab : (s.memb c).tab b = some tab) (hlevels : 1 ≤ tab.h.levels)
    (hchain : s.chainSend c b 1 = (r, true)) : s.requester c b false = r := by
  obtain ⟨k, hk⟩ := Nat.exists_eq_add_of_le' hlevels
  unfold State.requester
  simp only [htab, hk, hchain, Bool.false_eq_true, if_false, List.take_succ_cons, List.cons_append, List.foldl_cons]
  rw [List.foldl_fixed' fun _ => rfl]

end Chain

section Completion

variable {s : State} {b : Nat}

theorem exec_stackRequesterCompletion {c : Nat} (hruns : s.runs = true) (hc : c < 8) (hb : b < 4) (write : Bool) :
    exec (.stackRequesterCompletion c b write) s = .next (s.paced (.link b) (s.requester c b write)) :=
  exec_of_runs hruns (by simp [hc, hb]) rfl

end Completion

/-- Settles O48: with finite results the block goes through every stage of its update; a completed write is one less to wait for; a
completed read lets the chain of level 1 go. -/
theorem updatesAndRequesterSends : Obligations.UpdatesAndRequesterSends := by
  refine ⟨?update, ?write, ?read⟩
  case update =>
    intro s s1 s2 s3 s4 u c b t tab q qv full rb g hruns hc hb hstep htab hport hq h sh hskip hmember hleft hfull e at_ hread hsums nrm clip rs
      hresults us cr hchanges es hback ws hkeep hrecon r
    have hexec : exec (.updateBlock c b) s = .next (s.paced (.link b) (s.updateBlock c b)) := exec_of_runs hruns (by simp [hc, hb]) rfl
    have hupdate : s.updateBlock c b = r := updateBlock_of_finite hstep htab hport hq ⟨hskip, hmember, hleft⟩ hfull rfl rfl hread hsums rfl
      ⟨hresults, hchanges⟩ hback hkeep hrecon
    exact exec_of_paced (by rw [hexec, hupdate])
  case write =>
    intro s c b hruns hc hb r
    exact exec_of_paced (exec_stackRequesterCompletion hruns hc hb true)
  case read =>
    intro s u c b t tab q v hruns hc hb hstep htab hport hlevels hothers ch done n hsome hroom hown r
    have hchain : s.chainSend c b 1 = (r, true) := chainSend_of_gradients hstep htab hport hothers rfl rfl rfl hsome hroom hown
    exact exec_of_paced (by rw [exec_stackRequesterCompletion hruns hc hb, requester_of_chain htab hlevels hchain])

end Sys2Proof.Machine
end

section
/-!
PROOFS. Ring tables and keys (R327-R331), and the step descriptors of a membership: pending, checked and started (R332, R333, R397).
-/

open Sys2Proof Sys2Proof.Machine

namespace Sys2Proof

/-- The register block of a port of network B (R19, R22). -/
theorem place_lnkb (g : Grade) {n ofs : Nat} (hn : n < 4) (ho : ofs < 0x10000) :
    place g (0x040003100000 + 0x10000 * n + ofs) = .lnkb n ofs := by
  obtain ⟨a, ha⟩ : ∃ a, a = 0x040003100000 + 0x10000 * n + ofs := ⟨_, rfl⟩
  have h1 : ¬ a < 8 * stackBytes := by rw [stackBytes]; omega
  have h2 : ¬ (0x010000000000 ≤ a ∧ a < 0x010000000000 + 4 * 0x08000000) := by omega
  have h3 : ¬ (0x020000000000 ≤ a ∧ a < 0x020060000000) := by omega
  have h4 : ¬ (0x030000000000 ≤ a ∧ a < 0x030000000000 + 4 * 0x08000000) := by omega
  have h5 : ¬ (0x040000000000 ≤ a ∧ a < 0x040000100000) := by omega
  have h6 : ¬ (0x040000100000 ≤ a ∧ a < 0x040000180000) := by omega
  have h7 : ¬ (0x040001000000 ≤ a ∧ a < 0x040001400000) := by omega
  have h8 : ¬ (0x040002000000 ≤ a ∧ a < 0x040002800000) := by omega
  have h9 : ¬ (0x040003000000 ≤ a ∧ a < 0x040003040000) := by omega
  have h10 : 0x040003100000 ≤ a ∧ a < 0x040003140000 := by omega
  have hindex : (a - 0x040003100000) / 0x10000 = n := by omega
  have hofs : (a - 0x040003100000) % 0x10000 = ofs := by omega
  rw [← ha]
  unfold place
  simp only [h1, h2, h3, h4, h5, h6, h7, h8, h9, h10, hindex, hofs, if_false, if_true, and_self]

theorem elemOf_ringTab {m : Nat} (hm : m < 8) : elemOf (0x200 + 8 * m) 0x200 8 8 = some m := by
  have hofs : 0x200 + 8 * m - 0x200 = 8 * m := by omega
  unfold elemOf
  rw [hofs, if_pos (by omega), Nat.mul_div_cancel_left m (by decide)]

/-- The bytes of the `n` member entries of a ring table (R328). -/
def tableEntries (bs : List Byte) (n : Nat) : List (List Byte) := (List.range n).map fun i => slice bs (64 + 32 * i) 32

/-- A membership that is about to load port `b`'s table from 64-byte place `n` (R327). -/
def Memb.loading (x : Memb) (b n : Nat) : Memb := { x with taddr := putAt x.taddr b n, tvalid := putAt x.tvalid b false }

/-- A membership after table `t` was loaded on port `b` (R327, R331). -/
def Memb.loaded (x : Memb) (b : Nat) (t : RingTab) : Memb :=
  { x with tabs := putAt x.tabs b (some t), tvalid := putAt x.tvalid b true, fresh := putAt x.fresh b false,
           lastGen := putAt x.lastGen b t.h.gen, resent := 0, reject := 0, barNum := 0, barDead := [] }

section LoadWord

variable {addr : Nat} (h64 : addr % 64 = 0) (h48 : addr < 2 ^ 48)

/-! The word that a load writes to LNKB_RINGTAB: ADDR and LOAD (R327). -/

include h64

theorem loadWord_load : bit (addr + 2) 1 = true := by
  unfold bit
  rw [Nat.shiftRight_eq_div_pow, beq_iff_eq]
  omega

include h48

theorem loadWord_eq : 64 * (addr % 2 ^ 48 / 64) + 2 = addr + 2 := by omega

theorem loadWord_addr : bits (addr + 2) 47 6 = addr / 64 := by
  unfold bits
  rw [Nat.shiftRight_eq_div_pow]
  omega

end LoadWord

end Sys2Proof

namespace Sys2Proof.Machine

section SharedReads

variable {s : State} {p a n : Nat}

theorem sharedRead_bytes (h : a % 16 = 0) : (s.sharedRead p a n).2.1 = s.viewRead p a n := by
  unfold State.sharedRead
  simp only [h, Nat.sub_zero, Nat.zero_add, List.drop_zero]
  split <;> rfl

/-- A read of shared memory without a word beyond correction gives the bytes, and changes the dies' error counts alone (R469, R479). -/
theorem sharedRead_of_correctable (h16 : a % 16 = 0)
    (hgood : ∀ i < cdiv n 16, ∀ b, s.sharedAddr p (a + 16 * i) = some b → (s.readErrors b 16).2 = 0) :
    ∃ e, s.sharedRead p a n = ({ s with dieEcc := e }, s.viewRead p a n, true) := by
  have hall : (s.sharedRead p a n).2.2 = true := by
    unfold State.sharedRead
    simp only [h16, Nat.sub_zero, Nat.zero_add]
    split
    · rfl
    · refine (List.foldlRecOn (motive := fun (acc : State × Bool) => (∃ e, acc.1 = { s with dieEcc := e }) ∧ acc.2 = true) _ _
        ⟨⟨s.dieEcc, rfl⟩, rfl⟩ ?_).2
      rintro ⟨u, ok⟩ ⟨⟨e, rfl⟩, rfl⟩ i hi
      dsimp only
      split
      · next b hb => exact ⟨⟨_, rfl⟩, by rw [Bool.true_and, beq_iff_eq]; exact hgood i (List.mem_range.mp hi) b hb⟩
      · exact ⟨⟨e, rfl⟩, rfl⟩
  obtain ⟨e, he⟩ := sharedRead_state s p a n
  exact ⟨e, Prod.ext he (Prod.ext (sharedRead_bytes h16) hall)⟩

end SharedReads

section Table

variable {s : State} {o : Org} {p m c b addr : Nat}

/-- The state in which the load of port `b`'s table of a membership reads it (R327). -/
def State.ringTabOpened (s : State) (c b n : Nat) : State :=
  (s.modMemb c fun x => { x with taddr := putAt x.taddr b n }).modMemb c fun x => { x with tvalid := putAt x.tvalid b false }

theorem memb_ringTabOpened (s : State) (c b n d : Nat) :
    (s.ringTabOpened c b n).memb d = if d = c then (s.memb c).loading b n else s.memb d := by
  unfold State.ringTabOpened
  simp only [memb_modMemb]
  split <;> rfl

/-- The opening reaches the memberships alone: what the reads of the table depend on is as it was. -/
theorem ringTabOpened_reads (s : State) (c b n : Nat) :
    (∀ p a k, (s.ringTabOpened c b n).viewRead p a k = s.viewRead p a k) ∧
      (∀ p a, (s.ringTabOpened c b n).sharedAddr p a = s.sharedAddr p a) ∧
      (∀ p a k, (s.ringTabOpened c b n).sharedIn p a k = s.sharedIn p a k) ∧
      (∀ a k, (s.ringTabOpened c b n).readErrors a k = s.readErrors a k) := by
  obtain ⟨x, hx⟩ : ∃ x, s.ringTabOpened c b n = { s with membs := x } := ⟨_, rfl⟩
  rw [hx]
  exact ⟨fun _ _ _ => rfl, fun _ _ => rfl, fun _ _ _ => rfl, fun _ _ => rfl⟩

/-- The load of port `b`'s table of a membership from `addr`, once the membership is known to be idle (R327-R331). -/
def State.readRingTab (s : State) (p c b addr : Nat) : State × Nat :=
  let head := s.sharedRead p addr 64
  let h := RingHdr.read head.2.1
  let all := head.1.sharedRead p addr (64 + 32 * h.count)
  let es := tableEntries all.2.1 h.count
  if !(s.sharedIn p addr 64 && s.sharedIn p addr (64 + 32 * h.count)) then (s.membEvent c Code.ringTableFormat b 0 0, Code.ok)
  else if !all.2.2 then (all.1, Code.uncorrectableData)
  else if !ringTableOk b (slice all.2.1 0 64) h es then (all.1.membEvent c Code.ringTableFormat b 0 0, Code.ok)
  else if (all.1.memb c).key.isNone ∨ (nth false (all.1.memb c).fresh b = false ∧ nth 0 (all.1.memb c).lastGen b = h.gen) then
    (all.1.membEvent c Code.ringKeyStale b 0 0, Code.ok)
  else (all.1.modMemb c fun x => x.loaded b ⟨h, es.map RingEnt.read⟩, Code.ok)

theorem writeRingTab_of_idle (hc : s.ctxOf p m = some c) (hidle : (s.memb c).busy = false) (h64 : addr % 64 = 0) (h48 : addr < 2 ^ 48) :
    s.writeRingTab p b m (addr + 2) = (s.ringTabOpened c b (addr / 64)).readRingTab p c b addr := by
  have hplace : 64 * (addr / 64) = addr := by omega
  unfold State.writeRingTab
  simp only [hc, hidle, loadWord_addr h64 h48, loadWord_load h64, hplace, Bool.false_eq_true, Bool.not_true, if_false]
  rfl

/-- A load of a table that passes R329, under a key that it may use, changes the membership and the dies' error counts alone. -/
theorem readRingTab_of_good {hd : RingHdr} {bs : List Byte} (h16 : addr % 16 = 0) (hhd : RingHdr.read (s.viewRead p addr 64) = hd)
    (hbs : s.viewRead p addr (64 + 32 * hd.count) = bs)
    (hgood : ∀ i < cdiv (64 + 32 * hd.count) 16, ∀ a, s.sharedAddr p (addr + 16 * i) = some a → (s.readErrors a 16).2 = 0)
    (hin : s.sharedIn p addr 64 = true ∧ s.sharedIn p addr (64 + 32 * hd.count) = true)
    (hok : ringTableOk b (slice bs 0 64) hd (tableEntries bs hd.count) = true) (hkey : (s.memb c).key ≠ none)
    (hfresh : nth false (s.memb c).fresh b = true ∨ nth 0 (s.memb c).lastGen b ≠ hd.gen) :
    ∃ t, s.readRingTab p c b addr = (t, Code.ok) ∧
      (∀ d, t.memb d = if d = c then (s.memb c).loaded b ⟨hd, (tableEntries bs hd.count).map RingEnt.read⟩ else s.memb d) ∧
      t.mem = s.mem ∧ t.parts = s.parts := by
  obtain ⟨e1, he1⟩ := sharedRead_state s p addr 64
  have hhead : RingHdr.read (s.sharedRead p addr 64).2.1 = hd := by rw [sharedRead_bytes h16, hhd]
  obtain ⟨e, hall⟩ := sharedRead_of_correctable (s := { s with dieEcc := e1 }) (n := 64 + 32 * hd.count) h16 hgood
  have hbytes : State.viewRead { s with dieEcc := e1 } p addr (64 + 32 * hd.count) = bs := hbs
  have husable : ¬ ((s.memb c).key.isNone = true ∨ (nth false (s.memb c).fresh b = false ∧ nth 0 (s.memb c).lastGen b = hd.gen)) := by
    rintro (hnone | ⟨hstale, hgen⟩)
    · exact hkey (Option.isNone_iff_eq_none.mp hnone)
    · obtain h | h := hfresh
      · exact absurd (h.symm.trans hstale) (by decide)
      · exact h hgen
  refine ⟨State.modMemb { s with dieEcc := e } c fun x => x.loaded b ⟨hd, (tableEntries bs hd.count).map RingEnt.read⟩, ?_,
    fun d => memb_modMemb _ c d _, rfl, rfl⟩
  unfold State.readRingTab
  simp only [hhead, he1, hall, hbytes]
  rw [if_neg (by simp [hin]), if_neg (by simp), if_neg (by simp [hok])]
  exact if_neg husable

/-- A LOAD on an idle membership of a table that passes R329, under a key that it may use (R327-R331). -/
theorem writeRingTab_of_good {hd : RingHdr} {bs : List Byte} (hc : s.ctxOf p m = some c) (hidle : (s.memb c).busy = false)
    (h64 : addr % 64 = 0) (h48 : addr < 2 ^ 48) (hhd : RingHdr.read (s.viewRead p addr 64) = hd)
    (hbs : s.viewRead p addr (64 + 32 * hd.count) = bs)
    (hgood : ∀ i < cdiv (64 + 32 * hd.count) 16, ∀ a, s.sharedAddr p (addr + 16 * i) = some a → (s.readErrors a 16).2 = 0)
    (hin : s.sharedIn p addr 64 = true ∧ s.sharedIn p addr (64 + 32 * hd.count) = true)
    (hok : ringTableOk b (slice bs 0 64) hd (tableEntries bs hd.count) = true) (hkey : (s.memb c).key ≠ none)
    (hfresh : nth false (s.memb c).fresh b = true ∨ nth 0 (s.memb c).lastGen b ≠ hd.gen) :
    ∃ t, s.writeRingTab p b m (addr + 2) = (t, Code.ok) ∧
      (∀ d, t.memb d = if d = c then ((s.memb c).loading b (addr / 64)).loaded b ⟨hd, (tableEntries bs hd.count).map RingEnt.read⟩
        else s.memb d) ∧ t.mem = s.mem ∧ t.parts = s.parts := by
  obtain ⟨hview, haddr, hinside, herrors⟩ := ringTabOpened_reads s c b (addr / 64)
  have hmemb := memb_ringTabOpened s c b (addr / 64)
  have hrest : (s.ringTabOpened c b (addr / 64)).mem = s.mem ∧ (s.ringTabOpened c b (addr / 64)).parts = s.parts := ⟨rfl, rfl⟩
  rw [writeRingTab_of_idle hc hidle h64 h48]
  generalize s.ringTabOpened c b (addr / 64) = u at hview haddr hinside herrors hmemb hrest ⊢
  have hown : u.memb c = (s.memb c).loading b (addr / 64) := (hmemb c).trans (if_pos rfl)
  obtain ⟨t, hread, htabs, hmem, hparts⟩ := readRingTab_of_good (s := u) (c := c) (by omega : addr % 16 = 0) (by rw [hview, hhd])
    (by rw [hview, hbs]) (by simpa only [haddr, herrors] using hgood) (by simpa only [hinside] using hin) hok
    (by rw [hown]; exact hkey) (by rw [hown]; exact hfresh)
  refine ⟨t, hread, fun d => ?_, hmem.trans hrest.1, hparts.trans hrest.2⟩
  rw [htabs, hown]
  split
  · rfl
  · next hd => rw [hmemb, if_neg hd]

/-- The load is a write of the 64-bit register LNKB_RINGTAB of the membership on the port (R327, R394). -/
theorem exec_ringTableLoad (h : s.servedBy o p) (hb : b < 4) (hm : m < 8) (hc : s.ctxOf p m = some c) (h64 : addr % 64 = 0)
    (h48 : addr < 2 ^ 48) :
    exec (.ringTableLoad o b m addr) s =
      .next ((s.writeRingTab p b m (addr + 2)).1.complete o 0x0011 (s.writeRingTab p b m (addr + 2)).2 []) := by
  obtain ⟨a, ha⟩ : ∃ a, a = 0x040003100000 + 0x10000 * b + (0x200 + 8 * m) := ⟨_, rfl⟩
  have hplace : place s.grade a = .lnkb b (0x200 + 8 * m) := ha ▸ place_lnkb s.grade hb (by omega)
  have hreg : s.regAt p a = some (8, (s.memb c).ringTabReg b) := by
    simp only [State.regAt, hplace, State.lnkbReg]
    rw [if_neg (by omega), elemOf_ringTab hm]
    exact congrArg (Option.map _) hc
  have hmod : (addr + 2) % 2 ^ 64 = addr + 2 := Nat.mod_eq_of_lt (by omega)
  have hwrite : s.regWrite p a 8 (addr + 2) = s.writeRingTab p b m (addr + 2) := by
    simp only [State.regWrite, State.coreMemAt, hplace, elemOf_ringTab hm, hmod]
    rw [if_neg (by decide)]
  have hexec : exec (.ringTableLoad o b m addr) s =
      s.guarded (decide (b < 4)) (s.regCommand o (0x040003100000 + 0x10000 * b + 0x200 + 8 * m) (64 * (addr % 2 ^ 48 / 64) + 2)) := rfl
  rw [hexec, decide_eq_true hb, guarded_true, loadWord_eq h64 h48, Nat.add_assoc _ 0x200, ← ha, regCommand_of_reg h hreg (by omega), hwrite]

end Table

section Commands

variable {s : State} {o : Org} {p m c : Nat}

/-- RING_KEY of an idle membership that nothing holds (R330, R397). -/
theorem doRingKey_of_idle (hc : s.ctxOf p m = some c) (hidle : (s.memb c).busy = false) (hfree : s.holdsMemb c = false) (key : List Byte) :
    s.doRingKey o p m key = (s.modMemb c fun x =>
      { x with key := some (padTo 32 key), fresh := [true, true, true, true], fcnt := [0, 0, 0, 0] }).complete o 0x0030 Code.ok [] := by
  unfold State.doRingKey State.ringKey
  simp only [hc, hfree, hidle, Bool.false_eq_true, if_false]

/-- RING_STEP on a membership that nothing holds: its descriptor becomes pending, unless a step runs or pends (R333, R397). -/
theorem doRingStep_of_free {desc : List Byte} (hc : s.ctxOf p (StepD.read desc).ring = some c) (hfree : s.holdsMemb c = false) :
    s.doRingStep o p desc =
      if (s.memb c).step = none ∧ (s.memb c).pend = none then
        (s.modMemb c fun x => { x with pend := some desc }).complete o 0x0031 Code.ok []
      else s.complete o 0x0031 Code.busy [] := by
  unfold State.doRingStep State.ringStep
  simp only [hc, hfree, Bool.false_eq_true, if_false]
  split
  · next hbusy =>
    rw [if_neg]
    rintro ⟨hstep, hpend⟩
    simp [hstep, hpend] at hbusy
  · next hidle =>
    rw [if_pos]
    simpa using hidle

end Commands

section Reads

/-! What the checks of a descriptor read leaves every membership as it is. -/

theorem stackCorrected_membs (s : State) (a : Nat) : (s.stackCorrected a).membs = s.membs := by
  have told : ∀ (u : State) (tell : Bool) (t : Nat), (if tell then u.stackEvent t Code.correctedRate 0 else u).membs = u.membs := by
    intro u tell t
    unfold State.stackEvent
    split
    · split
      · exact ((Told.refl u).event _ _ _).memb
      · rfl
    · rfl
  unfold State.stackCorrected
  exact told _ _ _

theorem stackRead_membs (s : State) (a src : Nat) : (s.stackRead a src).1.membs = s.membs := by
  unfold State.stackRead
  dsimp only
  split
  · rfl
  · split
    · exact stackCorrected_membs s a
    · rfl

theorem reqRead_membs (s : State) (a n : Nat) : (s.reqRead a n).1.membs = s.membs := by
  unfold State.reqRead
  refine List.foldlRecOn (motive := fun (acc : State × List Byte × Bool) => acc.1.membs = s.membs) _ _ rfl fun acc hacc i _ => ?_
  exact (stackRead_membs _ _ _).trans hacc

theorem anyRead_membs (s : State) (p a n : Nat) : (s.anyRead p a n).1.membs = s.membs := by
  unfold State.anyRead
  split
  · exact reqRead_membs s a n
  · obtain ⟨e, he⟩ := sharedRead_state s p a n
    rw [he]

theorem stepCheck_membs (s : State) (p c : Nat) (desc : List Byte) : (s.stepCheck p c desc).1.membs = s.membs := by
  have ite_membs : ∀ {u : State} {q : Prop} [Decidable q] {x y : State × Nat × Option Step},
      x.1.membs = u.membs → y.1.membs = u.membs → (if q then x else y).1.membs = u.membs := by
    intro u q _ x y hx hy
    split
    · exact hx
    · exact hy
  unfold State.stepCheck
  dsimp only
  split
  · rfl
  · refine ite_membs rfl (ite_membs rfl ?_)
    have hrec := anyRead_membs s p (StepD.read desc).orec 192
    generalize s.anyRead p (StepD.read desc).orec 192 = r at hrec ⊢
    obtain ⟨s1, ob, ok1⟩ := r
    refine Eq.trans ?_ hrec
    refine ite_membs rfl (ite_membs rfl (ite_membs rfl ?_))
    have hmap := anyRead_membs s1 p (OptR.read ob).vmap (32 * (OptR.read ob).nseg)
    generalize s1.anyRead p (OptR.read ob).vmap (32 * (OptR.read ob).nseg) = r at hmap ⊢
    obtain ⟨s2, vb, ok2⟩ := r
    refine Eq.trans ?_ hmap
    exact ite_membs rfl (ite_membs rfl (ite_membs rfl (ite_membs rfl rfl)))

end Reads

section Descriptors

variable {s : State} {b c p m : Nat} {e : List Byte}

/-- A descriptor that pends for a membership that runs no step starts there (R332, R333). -/
def State.startPending (s : State) (c : Nat) : State :=
  match (s.memb c).pend, (s.memb c).step, s.ctxHolder c with
  | some e, none, some (p, _) => s.stepStart p c e
  | _, _, _ => s

/-- A membership has no descriptor to start. -/
def State.nothingStarts (s : State) (c : Nat) : Prop := (s.memb c).pend = none ∨ (s.memb c).step ≠ none

theorem startPending_of_nothing (h : s.nothingStarts c) : s.startPending c = s := by
  unfold State.startPending
  split
  · next hpend hstep _ =>
    obtain hnone | hruns := h
    · cases hnone.symm.trans hpend
    · exact absurd hstep hruns
  · rfl

theorem startPending_of_pending (hpend : (s.memb c).pend = some e) (hstep : (s.memb c).step = none) (hholder : s.ctxHolder c = some (p, m)) :
    s.startPending c = s.stepStart p c e := by
  unfold State.startPending
  simp only [hpend, hstep, hholder]

theorem startAll_of_nothing (h : ∀ d, s.nothingStarts d) (l : List Nat) : l.foldl State.startPending s = s :=
  List.foldl_fixed' (fun d => startPending_of_nothing (h d)) l

/-- Where one membership alone has a descriptor to start, and its start leaves none, the start is all that happens. -/
theorem startAll_of_one {r : State} (hothers : ∀ d, d ≠ c → s.nothingStarts d) (hstart : s.startPending c = r)
    (hafter : ∀ d, r.nothingStarts d) {l : List Nat} (hc : c ∈ l) : l.foldl State.startPending s = r := by
  induction l with
  | nil => cases hc
  | cons a l ih =>
    rw [List.foldl_cons]
    by_cases ha : a = c
    · rw [ha, hstart, startAll_of_nothing hafter]
    · rw [startPending_of_nothing (hothers a ha)]
      exact ih ((List.mem_cons.mp hc).resolve_left (Ne.symm ha))

/-- A descriptor whose checks pass starts its step (R332). -/
theorem stepStart_of_ok {v : State} {code : Nat} {t : Step}
    (h : (s.modMemb c fun m => { m with pend := none }).stepCheck p c e = (v, code, some t)) :
    s.stepStart p c e = v.modMemb c fun m => { m with
      step := some t, cur := (StepD.read e).step, failed := false, dead := m.dead.filter (· != (StepD.read e).step) } := by
  unfold State.stepStart
  simp only [h]

/-- A descriptor of which a check fails is refused with the step's record (R333, R399). -/
theorem stepStart_of_refused {v : State} {code : Nat}
    (h : (s.modMemb c fun m => { m with pend := none }).stepCheck p c e = (v, code, none)) :
    s.stepStart p c e = (v.modMemb c fun m => { m with code := code }).stepRecord c code (StepD.read e).tag (StepD.read e).step 0xFF 0xFF 0xFF 0 := by
  unfold State.stepStart
  simp only [h]

/-- After the start of a membership's step, or its refusal, the descriptor pends no more; the others are as they were. -/
theorem stepStart_pend (s : State) (p c d : Nat) (e : List Byte) :
    ((s.stepStart p c e).memb d).pend = if d = c then none else (s.memb d).pend := by
  have hread : ((s.modMemb c fun m => { m with pend := none }).stepCheck p c e).1.membs = (s.modMemb c fun m => { m with pend := none }).membs :=
    stepCheck_membs _ p c e
  obtain ⟨⟨v, code, st⟩, hcheck⟩ : ∃ x, (s.modMemb c fun m => { m with pend := none }).stepCheck p c e = x := ⟨_, rfl⟩
  have hv : ∀ d, (v.memb d).pend = if d = c then none else (s.memb d).pend := by
    intro d
    rw [hcheck] at hread
    rw [memb_of_membs hread, memb_modMemb]
    split <;> rfl
  cases st with
  | none =>
    rw [stepStart_of_refused hcheck, memb_of_membs (told_stepRecord ..).memb, memb_modMemb, ← hv d]
    split
    · next hd => rw [hd]
    · rfl
  | some t =>
    rw [stepStart_of_ok hcheck, memb_modMemb, ← hv d]
    split
    · next hd => rw [hd]
    · rfl

/-- The descriptor that port `b`'s step input takes next: the oldest whose place is free (R325, R332). -/
def State.stepInput (s : State) (b : Nat) : Option (Nat × Flit) :=
  firstOf 0 (fun f => f.dst.tgt == 3 && (match s.ctxOf f.part (StepD.read f.entry).ring with
    | some c => (s.memb c).pend.isNone
    | none => true)) s.now (s.router (portBCore s.grade b)).arrE

/-- The state after port `b`'s step input was served: a descriptor of a membership of its view pends there (R332). -/
def State.inputTaken (s : State) (b : Nat) : State :=
  match s.stepInput b with
  | none => s
  | some (n, f) =>
    let s := s.edgeTaken (portBCore s.grade b) n f.src
    let d := StepD.read f.entry
    match s.ctxOf f.part d.ring with
    | some c => s.modMemb c fun m => { m with pend := some f.entry }
    | none => s.notify f.part ⟨3, Code.ringStepFormat, s.now, natLe 1 d.ring ++ [0xFF, 0xFF, 0xFF] ++ natLe 2 d.tag ++ natLe 2 0 ++ natLe 4 d.step
        ++ natLe 8 0 ++ natLe 4 0⟩

theorem stepDescriptor_eq (s : State) (b : Nat) : s.stepDescriptor b = (List.range 8).foldl State.startPending (s.inputTaken b) := rfl

theorem inputTaken_of_some {n : Nat} {f : Flit} (hin : s.stepInput b = some (n, f)) (hc : s.ctxOf f.part (StepD.read f.entry).ring = some c) :
    s.inputTaken b = (s.edgeTaken (portBCore s.grade b) n f.src).modMemb c fun m => { m with pend := some f.entry } := by
  have hview : (s.edgeTaken (portBCore s.grade b) n f.src).ctxOf f.part (StepD.read f.entry).ring = some c := hc
  unfold State.inputTaken
  simp only [hin, hview]

theorem inputTaken_of_empty (h : (s.router (portBCore s.grade b)).arrE = []) : s.inputTaken b = s := by
  have hnone : s.stepInput b = none := by
    unfold State.stepInput
    rw [h]
    rfl
  unfold State.inputTaken
  simp only [hnone]

/-- With one descriptor pending, and none at the input, its membership alone starts. -/
theorem stepDescriptor_of_pending (hempty : (s.router (portBCore s.grade b)).arrE = []) (hc : c < 8) (hpend : (s.memb c).pend = some e)
    (hstep : (s.memb c).step = none) (hholder : s.ctxHolder c = some (p, m)) (hothers : ∀ d, d ≠ c → (s.memb d).pend = none) :
    s.stepDescriptor b = s.stepStart p c e := by
  have hafter : ∀ d, (s.stepStart p c e).nothingStarts d := by
    intro d
    refine .inl ((stepStart_pend s p c d e).trans ?_)
    split
    · rfl
    · next hd => exact hothers d hd
  rw [stepDescriptor_eq, inputTaken_of_empty hempty]
  exact startAll_of_one (fun d hd => .inl (hothers d hd)) (startPending_of_pending hpend hstep hholder) hafter (List.mem_range.mpr hc)

/-- A descriptor taken for a membership that runs a step pends there, and starts nothing. -/
theorem stepDescriptor_of_busy {n : Nat} {f : Flit} (hin : s.stepInput b = some (n, f))
    (hc : s.ctxOf f.part (StepD.read f.entry).ring = some c) (hstep : (s.memb c).step ≠ none) (hothers : ∀ d, d ≠ c → s.nothingStarts d) :
    s.stepDescriptor b = (s.edgeTaken (portBCore s.grade b) n f.src).modMemb c fun m => { m with pend := some f.entry } := by
  rw [stepDescriptor_eq, inputTaken_of_some hin hc]
  refine startAll_of_nothing (fun d => ?_) _
  unfold State.nothingStarts
  rw [memb_modMemb]
  split
  · exact .inr hstep
  · next hd => exact hothers d hd

theorem exec_stepDescriptor (hruns : s.runs = true) (hb : b < 4) :
    exec (.stepDescriptor b) s = .next (s.paced (.link b) (s.stepDescriptor b)) := exec_of_runs hruns (decide_eq_true hb) rfl

end Descriptors

/-- Settles O46: the load of a table that passes its checks, the commands on an idle membership, and what one descriptor leads to. -/
theorem ringTablesKeysAndSteps : Obligations.RingTablesKeysAndSteps := by
  refine ⟨?table, ?key, ?step, ?input, ?pending⟩
  case table =>
    intro s o b m addr p c h hb hm hc hidle h64 h48 hd bs hb64 es hgood hin hinAll hok hkey hfresh
    obtain ⟨t, hwrite, htabs, hmem, hparts⟩ := writeRingTab_of_good hc hidle h64 h48 rfl rfl hgood ⟨hin, hinAll⟩ hok hkey hfresh
    exact ⟨t, by rw [exec_ringTableLoad h hb hm hc h64 h48, hwrite], (htabs c).trans (if_pos rfl), fun d hd => (htabs d).trans (if_neg hd),
      hmem, hparts⟩
  case key =>
    intro s o m p c key h hc hidle hfree
    rw [exec_of_servedBy h rfl, doRingKey_of_idle hc hidle hfree]
  case step =>
    intro s o p c desc h hc hfree
    rw [exec_of_servedBy h rfl, doRingStep_of_free hc hfree]
    refine ⟨fun hstep hpend => by rw [if_pos ⟨hstep, hpend⟩], fun hbusy => ?_⟩
    rw [if_neg fun ⟨hstep, hpend⟩ => hbusy.elim (absurd hstep) (absurd hpend)]
  case input =>
    intro s b n c f hruns hb core hin hc hstep hothers
    rw [exec_stepDescriptor hruns hb, stepDescriptor_of_busy hin hc hstep hothers]
    exact congrArg Host.Outcome.next (paced_of_stks rfl)
  case pending =>
    intro s b c p m e hruns hb hempty hc hpend hstep hholder hothers u
    have hexec : exec (.stepDescriptor b) s = .next (s.paced (.link b) (s.stepStart p c e)) := by
      rw [exec_stepDescriptor hruns hb, stepDescriptor_of_pending hempty hc hpend hstep hholder hothers]
    refine ⟨fun t v hcheck => ?_, fun v code hcheck => ?_⟩
    · rw [stepStart_of_ok hcheck] at hexec
      exact exec_of_paced hexec
    · rw [stepStart_of_refused hcheck] at hexec
      exact (exec_of_paced hexec).1

end Sys2Proof.Machine
end

section
/-!
PROOFS. What operations leave of the sessions (R380-R384, R399-R402): which sessions are open, what a session has received and not yet
used, and the records that a completion or an event leaves.
-/

open Sys2Proof Sys2Proof.Machine

namespace Sys2Proof

/-- What a session has received and not used (R381): the messages out of order, and how many came since its last ACK. -/
def Sess.inbox (x : Sess) : List (Nat × Nat × List Byte) × Nat := (x.rxBuf, x.rxSince)

end Sys2Proof

namespace Sys2Proof.Machine

/-- Settles O13: a completion, an event and a record are records told to hosts. -/
theorem recordsTouchOnlySessions : Obligations.RecordsTouchOnlySessions := by
  intro s t o op code p data e r h
  have told : Told s t := by
    obtain rfl | rfl | rfl := h
    · exact (Told.refl s).complete o op code data
    · exact (Told.refl s).event p code e
    · exact (Told.refl s).notify p r
  exact ⟨told.eq, told.part, told.sids⟩

section Open

variable {s t : State} {n : Nat} {x : Sess}

theorem session_eq_none_iff : s.session n = none ↔ n ∉ s.sess.map (·.sid) := by
  simp [State.session, List.find?_eq_none]

/-- Records to hosts open no session. -/
theorem Told.session_none (h : Told s t) (hn : s.session n = none) : t.session n = none := by
  rw [session_eq_none_iff] at hn ⊢
  rwa [h.sids]

theorem Told.stks (h : Told s t) : t.stks = s.stks := by rw [h.eq]

theorem Told.flash (h : Told s t) : t.flash = s.flash := by rw [h.eq]

/-- A change of the sessions under one identifier is seen under that identifier alone. -/
theorem session_modSess (m : Nat) {f : Sess → Sess} (hf : ∀ x, x.sid = m → (f x).sid = m) :
    (s.modSess m f).session n = if n = m then (s.session n).map f else s.session n := by
  have hsame : ((fun x => x.sid == n) ∘ fun x : Sess => if x.sid = m then f x else x) = fun x => x.sid == n := by
    funext x
    by_cases hx : x.sid = m
    · simp [hx, hf x hx]
    · simp [hx]
  unfold State.session State.modSess
  rw [List.find?_map, hsame]
  cases hfind : s.sess.find? fun x => x.sid == n with
  | none => simp
  | some x =>
    have hsid : x.sid = n := Told.session_sid hfind
    by_cases hn : n = m
    · simp [hn, hsid]
    · simp [hn, hsid]

theorem session_modSess_same {f : Sess → Sess} (hf : ∀ x, (f x).sid = x.sid) (h : s.session n = some x) :
    (s.modSess n f).session n = some (f x) := by
  rw [session_modSess n fun x hx => (hf x).trans hx, if_pos rfl, h, Option.map_some]

theorem modSess_modSess {f g : Sess → Sess} (hf : ∀ x, (f x).sid = x.sid) : (s.modSess n f).modSess n g = s.modSess n fun x => g (f x) := by
  unfold State.modSess
  simp only [List.map_map]
  congr 1
  refine List.map_congr_left fun x _ => ?_
  by_cases hx : x.sid = n
  · simp [hx, hf x]
  · simp [hx]

end Open

section Ended

variable {s : State} {sid : Nat} {x : Sess}

/-- The state without a session. -/
def State.withoutSession (s : State) (sid : Nat) : State := { s with sess := s.sess.filter fun y => y.sid != sid }

theorem session_withoutSession (s : State) (sid : Nat) : (s.withoutSession sid).session sid = none := by
  rw [session_eq_none_iff]
  simp [State.withoutSession]

/-- What follows the end of a session is told to its partition (R384). -/
theorem told_endSession (h : s.session sid = some x) (byHost : Bool) : Told (s.withoutSession sid) (s.endSession sid byHost) := by
  have kept : Told (s.withoutSession sid) (x.kept.foldl (fun s r => s.notify x.part r) (s.withoutSession sid)) :=
    Told.foldl (Told.refl _) fun _ _ hu => hu.notify _ _
  unfold State.endSession
  simp only [h]
  exact Told.ite (fun _ => kept) fun _ => kept.event _ _ _

/-- A session that has ended is in the table no more. -/
theorem session_endSession (s : State) (sid : Nat) (byHost : Bool) : (s.endSession sid byHost).session sid = none := by
  cases h : s.session sid with
  | none => simp only [State.endSession, h]
  | some x => exact (told_endSession h byHost).session_none (session_withoutSession s sid)

theorem endSession_leaves (s : State) (sid : Nat) (byHost : Bool) :
    (s.endSession sid byHost).mem = s.mem ∧ (s.endSession sid byHost).flash = s.flash ∧ (s.endSession sid byHost).stks = s.stks := by
  cases h : s.session sid with
  | none => simp only [State.endSession, h, and_self]
  | some x =>
    have told := told_endSession h byHost
    exact ⟨told.mem, told.flash, told.stks⟩

theorem session_closeSession (s : State) (sid code : Nat) : (s.closeSession sid code).session sid = none := by
  unfold State.closeSession
  split
  · next h => exact h
  · exact session_endSession _ _ _

theorem closeSession_stks (s : State) (sid code : Nat) : (s.closeSession sid code).stks = s.stks := by
  unfold State.closeSession
  split
  · rfl
  · exact (endSession_leaves _ _ _).2.2

end Ended

section Inbox

variable {s : State} {n : Nat}

/-- What the session of an identifier has received and not used. -/
def State.inbox (s : State) (n : Nat) : Option (List (Nat × Nat × List Byte) × Nat) := (s.session n).map Sess.inbox

theorem inbox_of_sess {t : State} (h : t.sess = s.sess) : t.inbox n = s.inbox n := by
  unfold State.inbox State.session
  rw [h]

theorem inbox_modSess (m : Nat) {f : Sess → Sess} (hsid : ∀ x, x.sid = m → (f x).sid = m)
    (hin : ∀ x, s.session m = some x → (f x).inbox = x.inbox) : (s.modSess m f).inbox n = s.inbox n := by
  unfold State.inbox
  rw [session_modSess m hsid]
  split
  · next hn =>
    subst hn
    cases hx : s.session n with
    | none => rfl
    | some x => exact congrArg some (hin x hx)
  · rfl

theorem inbox_transmit (i : Nat) (m : TxMsg) : (s.transmit i m).inbox n = s.inbox n := inbox_of_sess rfl

theorem inbox_sendRel (m ty : Nat) (bs : List Byte) : (s.sendRel m ty bs).inbox n = s.inbox n := by
  unfold State.sendRel
  split
  · rfl
  · split
    · exact inbox_modSess m (fun _ hx => hx) fun _ _ => rfl
    · exact (inbox_transmit _ _).trans (inbox_modSess m (fun _ hx => hx) fun _ _ => rfl)

theorem place_inbox {x y : Sess} {bs : List Byte} {ps : List (List Byte)} (h : x.place bs = some (y, ps)) : y.inbox = x.inbox := by
  unfold Sess.place at h
  dsimp only at h
  split at h <;> split at h
  · cases h; rfl
  · cases h
  · cases h; rfl
  · cases h

theorem inbox_flushOne (m : Nat) : (s.flushOne m).inbox n = s.inbox n := by
  unfold State.flushOne
  split
  · rfl
  · next x hx =>
    split
    · rfl
    · split
      · rfl
      · next y ps hy =>
        refine (foldl_keeps (g := fun u => u.inbox n) (fun u p => inbox_sendRel m 0x21 p) ps _).trans ?_
        refine (inbox_modSess m (fun _ _ => ?_) fun z hz => ?_).trans (inbox_of_sess rfl)
        · exact (Told.place_sid hy).trans (Told.session_sid hx)
        · obtain rfl : x = z := Option.some.inj (hx.symm.trans hz)
          exact (place_inbox hy : y.inbox = x.inbox)

theorem inbox_deliver (m : Nat) (r : Rec) : (s.deliver m r).inbox n = s.inbox n := by
  have flushed (u : State) : (u.flush m).inbox n = u.inbox n := by
    unfold State.flush
    split
    · rfl
    · exact foldl_keeps (g := fun u => u.inbox n) (fun u _ => inbox_flushOne m) _ _
  refine (flushed _).trans (inbox_modSess m (fun x hx => ?_) fun x _ => ?_)
  · dsimp only
    split <;> exact hx
  · dsimp only
    split <;> rfl

/-- A record to a partition leaves what its sessions have received. -/
theorem inbox_notify (p : Nat) (r : Rec) : (s.notify p r).inbox n = s.inbox n := by
  unfold State.notify
  split
  · exact inbox_of_sess rfl
  · exact foldl_keeps (g := fun u => u.inbox n) (fun u m => inbox_deliver m r) _ _

end Inbox

end Sys2Proof.Machine
end

section
/-!
PROOFS. What a port of network A answers by itself, its link, and the timers of a session (R370, R380-R384, R408, R444).
-/

open Sys2Proof Sys2Proof.Machine

namespace Sys2Proof.Machine

section Ports

variable {s : State} {i : Nat}

theorem foreignA_eq (s : State) (i : Nat) : s.foreignA i = s.modPort i fun x => { x with foreign := min 0xFFFF (x.foreign + 1) } := by
  simp only [State.foreignA, satAt_eq_min]

theorem arpRequest_of_own {mac target : Nat} (hup : s.portUp i = true) (hown : (s.port i).cfg.owns target = true) :
    s.arpRequest i mac target = s.transmit i ⟨true, none, 0, 0, mac, target, 0, natLe 6 (s.port i).cfg.mac ++ natLe 16 target⟩ := by
  simp [State.arpRequest, hup, hown]

theorem arpRequest_of_foreign {target : Nat} (mac : Nat) (hup : s.portUp i = true) (hown : (s.port i).cfg.owns target = false) :
    s.arpRequest i mac target = s.foreignA i := by
  simp [State.arpRequest, hup, hown]

theorem echoRequest_of_own {d : Dgram} (hup : s.portUp i = true) (hown : (s.port i).cfg.owns d.dst = true) :
    s.echoRequest i d = s.transmit i ⟨true, none, 0, 0, d.mac, d.src, 0, d.data⟩ := by
  simp [State.echoRequest, hup, hown]

theorem echoRequest_of_foreign {d : Dgram} (hup : s.portUp i = true) (hown : (s.port i).cfg.owns d.dst = false) :
    s.echoRequest i d = s.foreignA i := by
  simp [State.echoRequest, hup, hown]

theorem foreignFrame_of_up (hup : s.portUp i = true) : s.foreignFrame i = s.foreignA i := if_pos hup

/-- A command whose object exists is its meaning. -/
theorem exec_of_object {t : State} {c : Instr} {ok : Bool} (hok : ok = true) (he : exec c s = s.guarded ok t) : exec c s = .next t := by
  rw [he, hok, guarded_true]

end Ports

section Timers

variable {s : State} {sid seq : Nat} {x : Sess} {m : RelMsg}

theorem sendAck_of_session (h : s.session sid = some x) :
    s.sendAck sid = (s.modSess sid fun y => { y with ackDue := false, rxSince := 0 }).sendCtl sid 0x10
      (natLe 8 x.rxNext ++ natLe 32 ((x.rxBuf.map fun y => 2 ^ (y.1 - x.rxNext - 1)).sum) ++ natLe 4 x.chead ++ natLe 4 0) := by
  simp only [State.sendAck, h]

theorem ackTimer_of_due (h : s.session sid = some x) (hdue : x.ackDue = true) : s.ackTimer sid = s.sendAck sid := by
  simp only [State.ackTimer, h, hdue, if_true]

theorem retransmit_of_few (h : s.session sid = some x) (hm : x.unack.find? (fun m => m.seq == seq) = some m) (hr : m.resends < 12) :
    s.retransmit sid seq = ((s.modSess sid fun y =>
      { y with unack := y.unack.map fun n => if n.seq = seq then { n with resends := n.resends + 1 } else n }).modPort x.port fun p =>
        { p with resent := min 0xFFFFFFFF (p.resent + 1) }).transmit x.port ⟨false, none, x.part, x.sid, x.mac, x.ip, x.udp, m.data⟩ := by
  simp only [State.retransmit, h, hm, Nat.not_le.mpr hr, if_false, satAt_eq_min, Sess.msg]

theorem retransmit_of_lost (h : s.session sid = some x) (hm : x.unack.find? (fun m => m.seq == seq) = some m) (hr : 12 ≤ m.resends) :
    s.retransmit sid seq = s.endSession sid false := by
  simp only [State.retransmit, h, hm, hr, if_true]

end Timers

/-- Settles O50: each answer of a port is one branch of its handler, and a timer's end of a session takes it from the table. -/
theorem portsAnswerAndTimersRun : Obligations.PortsAnswerAndTimersRun := by
  refine ⟨?arp, ?echo, ?foreign, ?link, ?ack, ?resend, ?timeout⟩
  case arp =>
    intro s i mac target hi hup
    have hexec : exec (.arpRequest i mac target) s = .next (s.arpRequest i mac target) := exec_of_object (decide_eq_true hi) rfl
    exact ⟨fun h => by rw [hexec, arpRequest_of_own hup h], fun h => by rw [hexec, arpRequest_of_foreign mac hup h, foreignA_eq]⟩
  case echo =>
    intro s i d hi hup
    have hexec : exec (.echoRequest i d) s = .next (s.echoRequest i d) := exec_of_object (decide_eq_true hi) rfl
    exact ⟨fun h => by rw [hexec, echoRequest_of_own hup h], fun h => by rw [hexec, echoRequest_of_foreign hup h, foreignA_eq]⟩
  case foreign =>
    intro s i hi hup
    rw [exec_of_object (c := .foreignFrame i) (decide_eq_true hi) rfl, foreignFrame_of_up hup, foreignA_eq]
  case link =>
    intro s i hi
    refine ⟨fun hon => ?_, exec_of_object (decide_eq_true hi) rfl⟩
    exact (exec_of_object (decide_eq_true hi) rfl).trans (congrArg Host.Outcome.next (if_pos hon))
  case ack =>
    intro s sid x hruns h hdue
    rw [exec_of_runs (i := .ranowAckTimer sid) hruns rfl rfl, ackTimer_of_due h hdue, sendAck_of_session h]
  case resend =>
    intro s sid seq x m hruns h hm
    have hexec : exec (.ranowRetransmit sid seq) s = .next (s.retransmit sid seq) := exec_of_runs hruns rfl rfl
    refine ⟨fun hfew => by rw [hexec, retransmit_of_few h hm hfew], fun hmany => ?_⟩
    rw [retransmit_of_lost h hm hmany] at hexec
    exact ⟨_, hexec, session_endSession s sid false, (endSession_leaves s sid false).1⟩
  case timeout =>
    intro s sid hruns _
    obtain ⟨hmem, hflash, -⟩ := endSession_leaves s sid false
    exact ⟨_, exec_of_runs hruns rfl rfl, session_endSession s sid false, hmem, hflash⟩

end Sys2Proof.Machine
end

section
/-!
PROOFS. How a session opens (R372-R379): the answers to an INIT and to a CONFIRM, and the identifier of a half-open session.
-/

open Sys2Proof Sys2Proof.Machine

namespace Sys2Proof

/-- The header of a well-formed INIT with all its payload (R372, R375). -/
def Dgram.isInit (d : Dgram) : Prop :=
  (RHdr.read d.data).magic = 0x4E52 ∧ (RHdr.read d.data).ver = 1 ∧ (RHdr.read d.data).sid = 0 ∧ (RHdr.read d.data).len = 96 ∧
    (d.data.drop 24).length = 96

/-- The header and the length of a well-formed CONFIRM (R372, R375). -/
def Dgram.isConfirm (d : Dgram) : Prop :=
  (RHdr.read d.data).magic = 0x4E52 ∧ (RHdr.read d.data).ver = 1 ∧ (RHdr.read d.data).len = 178 ∧ d.data.length = 202

/-- The fields of an INIT's payload are in range (R375). -/
def initFields (b : List Byte) : Prop :=
  fld b 0 1 ≤ 1 ∧ 1 ≤ fld b 1 1 ∧ bits (fld b 3 1) 3 0 ≤ 4 ∧ bits (fld b 3 1) 7 4 ≤ 4 ∧ 1232 ≤ fld b 4 2 ∧ fld b 4 2 ≤ 9146

end Sys2Proof

namespace Sys2Proof.Machine

section Identifiers

variable {s : State} {i n : Nat}

/-- A port changed in other than its half-open sessions leaves the identifiers in use. -/
theorem sids_modPort {f : Port → Port} (hf : ∀ x, (f x).half = x.half) : (s.modPort i f).sids = s.sids := by
  have hhalf : (putAt s.ports i (f (s.port i))).map (fun x => x.half.map (·.sid)) = s.ports.map fun x => x.half.map (·.sid) := by
    unfold putAt
    rw [List.map_set, hf]
    by_cases hi : i < s.ports.length
    · rw [State.port, nth, List.getD_eq_getElem _ _ hi, ← List.getElem_map (fun x : Port => x.half.map (·.sid)) (h := by simpa using hi),
        List.set_getElem_self]
    · exact List.set_eq_of_length_le (by simpa using hi)
  simp only [State.sids, State.modPort, List.flatMap_def, hhalf]

/-- Identifiers from `n` on, one more than are in use, so that one is free (R375). -/
def sidsFrom (n k : Nat) : List Nat := (List.range (k + 1)).map fun i => 1 + (n + i) % (2 ^ 64 - 1)

theorem nodup_sidsFrom {k : Nat} (hk : k + 1 < 2 ^ 64) : (sidsFrom n k).Nodup := by
  refine List.Nodup.map_on (fun a ha b hb h => ?_) List.nodup_range
  rw [List.mem_range] at ha hb
  have hmod : a % (2 ^ 64 - 1) = b % (2 ^ 64 - 1) := Nat.ModEq.add_left_cancel' n (Nat.add_left_cancel h)
  rwa [Nat.mod_eq_of_lt (by omega), Nat.mod_eq_of_lt (by omega)] at hmod

/-- The identifier of a half-open session is not zero, and nothing uses it (R375). -/
theorem newSid_unused (n : Nat) (h : s.sids.length + 1 < 2 ^ 64) : s.newSid n ≠ 0 ∧ s.newSid n ∉ s.sids := by
  unfold State.newSid
  dsimp only
  split
  · next x hx =>
    obtain ⟨i, -, rfl⟩ := List.mem_map.mp (List.mem_of_find?_eq_some hx)
    exact ⟨by omega, by simpa using List.find?_some hx⟩
  · next hnone =>
    have hsub : sidsFrom n s.sids.length ⊆ s.sids := fun x hx => by simpa using List.find?_eq_none.mp hnone x hx
    have hlen := (List.subperm_of_subset (nodup_sidsFrom h) hsub).length_le
    simp [sidsFrom] at hlen

end Identifiers

section Refusal

variable {s : State} {i p : Nat}

/-- A partition that may open a session on a port has a share of it (R371, R378). -/
theorem share_of_accepted (h : s.refusal i p = 0) : p ≤ 7 ∧ nth 0 (s.part p).grant.shares i ≠ 0 := by
  unfold State.refusal at h
  split at h
  · cases h
  · next hp =>
    rw [not_or, not_or] at hp
    exact ⟨Nat.not_lt.mp hp.1, hp.2.2⟩

theorem refusal_of_stopped (hruns : s.runs = false) (hp : p ≤ 7) (hdef : s.defined.contains p = true)
    (hshare : nth 0 (s.part p).grant.shares i ≠ 0) (h16 : (s.sess.filter fun x => x.part == p).length < 16) (h64 : s.sess.length < 64) :
    s.refusal i p = 5 := by
  have hstop : s.pwr.stopped ∨ ¬ s.pwr.ready := by
    rw [State.runs, Bool.and_eq_false_iff, Bool.not_eq_false'] at hruns
    exact hruns.symm.imp_right (by simp [·])
  unfold State.refusal
  rw [if_neg (not_or.mpr ⟨Nat.not_lt.mpr hp, not_or.mpr ⟨not_not.mpr hdef, hshare⟩⟩), if_neg (by omega), if_pos hstop]

/-- A setup message takes the turn of a partition that has a share (R371). -/
theorem setupMsg_of_share (hp : p ≤ 7) (hshare : nth 0 (s.part p).grant.shares i ≠ 0) (sid : Nat) (d : Dgram) (data : List Byte) :
    s.setupMsg i p sid d data = s.transmit i ⟨false, none, p, sid, d.mac, d.src, d.sport, data⟩ := by
  have hturn : (decide (7 < p) || nth 0 (s.part p).grant.shares i == 0) = false := by simp [hp, hshare]
  rw [State.setupMsg, hturn]

end Refusal

section Init

variable {s : State} {i : Nat} {d : Dgram}

/-- The times of the INITs that a port took within the last second (R379). -/
def State.recentInits (s : State) (i : Nat) : List Nat := (s.port i).inits.filter fun t => decide (s.now < t + s.clock * 1000000)

/-- The state in which a well-formed INIT is answered (R375, R378, R379). -/
def State.tookInit (s : State) (i : Nat) : State := s.modPort i fun x => { x with inits := s.recentInits i ++ [s.now] }

/-- The answer to a well-formed INIT (R375, R378, R379). -/
def State.initAnswer (s : State) (i : Nat) (d : Dgram) : State :=
  let b := d.data.drop 24
  match (s.port i).half.find? fun x => x.init == d.data with
  | some x => s.setupMsg i x.part x.sid d x.reply
  | none =>
    if 1 < fld b 0 1 ∨ fld b 1 1 < 1 ∨ 4 < bits (fld b 3 1) 3 0 ∨ 4 < bits (fld b 3 1) 7 4 ∨ fld b 4 2 < 1232 ∨ 9146 < fld b 4 2 then
      s.rejectMsg i (fld b 2 1) d 1
    else if s.refusal i (fld b 2 1) ≠ 0 then s.rejectMsg i (fld b 2 1) d (s.refusal i (fld b 2 1))
    else if 16 ≤ (s.port i).half.length then s.foreignA i
    else s.answerInit i d

theorem initMsg_of_wellFormed (harr : s.arrives i d 1 = true) (h : d.isInit) (hrecent : (s.recentInits i).length < 64) :
    s.initMsg i d = (s.tookInit i).initAnswer i d := by
  obtain ⟨hmagic, hver, hsid, hlen, hbody⟩ := h
  have h64 : ¬ 64 ≤ ((s.port i).inits.filter fun t => decide (s.now < t + s.clock * 1000000)).length := Nat.not_le.mpr hrecent
  unfold State.initMsg
  rw [harr, if_neg (by decide)]
  dsimp only
  rw [if_neg (by simp only [hmagic, hver, hsid, hlen, hbody]; decide), if_neg h64]
  rfl

theorem initAnswer_of_repeated {x : HalfOpen} (h : (s.port i).half.find? (fun x => x.init == d.data) = some x) :
    s.initAnswer i d = s.setupMsg i x.part x.sid d x.reply := by
  simp only [State.initAnswer, h]

variable (hnew : (s.port i).half.find? (fun x => x.init == d.data) = none) (hfields : initFields (d.data.drop 24))

include hnew hfields

theorem initAnswer_of_refused (hwhy : s.refusal i (fld (d.data.drop 24) 2 1) ≠ 0) :
    s.initAnswer i d = s.rejectMsg i (fld (d.data.drop 24) 2 1) d (s.refusal i (fld (d.data.drop 24) 2 1)) := by
  unfold initFields at hfields
  simp only [State.initAnswer, hnew]
  rw [if_neg (by omega), if_pos hwhy]

theorem initAnswer_of_accepted (hwhy : s.refusal i (fld (d.data.drop 24) 2 1) = 0) (hroom : (s.port i).half.length < 16) :
    s.initAnswer i d = s.answerInit i d := by
  unfold initFields at hfields
  simp only [State.initAnswer, hnew]
  rw [if_neg (by omega), if_neg (not_not.mpr hwhy), if_neg (Nat.not_le.mpr hroom)]

omit hnew hfields

/-- The state with a half-open session kept, three free values having been used (R375, R379). -/
def State.halfOpened (s : State) (i : Nat) (x : HalfOpen) : State :=
  State.modPort { s with free := s.free + 3 } i fun p => { p with half := p.half ++ [x] }

/-- The half-open session that answers an INIT, with an identifier drawn from the first of three free values (R375). -/
theorem answerInit_half (s : State) (i : Nat) (d : Dgram) :
    ∃ x : HalfOpen, x.sid = State.newSid { s with free := s.free + 3 } (Config.freeNat s.free) ∧ x.part = fld (d.data.drop 24) 2 1 ∧
      x.rings = fld (d.data.drop 24) 3 1 ∧ x.msgmax = fld (d.data.drop 24) 4 2 ∧ x.init = d.data ∧
      x.mac = d.mac ∧ x.ip = d.src ∧ x.udp = d.sport ∧
      s.answerInit i d = (s.halfOpened i x).setupMsg i x.part x.sid d x.reply :=
  ⟨_, rfl, rfl, rfl, rfl, rfl, rfl, rfl, rfl, rfl⟩

/-- The half-open session of an INIT that is accepted, and its REPLY in the partition's turn (R371, R375). -/
theorem answerInit_of_share (s : State) {i : Nat} {d : Dgram} (hwhy : s.refusal i (fld (d.data.drop 24) 2 1) = 0)
    (hsids : s.sids.length + 1 < 2 ^ 64) :
    ∃ x : HalfOpen, x.sid ≠ 0 ∧ x.sid ∉ s.sids ∧ x.part = fld (d.data.drop 24) 2 1 ∧ x.rings = fld (d.data.drop 24) 3 1 ∧
      x.msgmax = fld (d.data.drop 24) 4 2 ∧ x.init = d.data ∧ x.mac = d.mac ∧ x.ip = d.src ∧ x.udp = d.sport ∧
      s.answerInit i d = (s.halfOpened i x).transmit i
        ⟨false, none, x.part, x.sid, d.mac, d.src, d.sport, x.reply⟩ := by
  obtain ⟨hp, hshare⟩ := share_of_accepted hwhy
  obtain ⟨x, hsid, hpart, hrings, hmax, hinit, hmac, hip, hudp, heq⟩ := answerInit_half s i d
  obtain ⟨hzero, hunused⟩ := newSid_unused (s := { s with free := s.free + 3 }) (Config.freeNat s.free) hsids
  rw [← hsid] at hzero hunused
  rw [← hpart] at hp hshare
  exact ⟨x, hzero, hunused, hpart, hrings, hmax, hinit, hmac, hip, hudp, heq.trans (setupMsg_of_share (s := s.halfOpened i x) hp hshare _ _ _)⟩

end Init

section Confirm

variable {s : State} {i : Nat} {d : Dgram} {x : HalfOpen}

/-- What follows the drop of a half-open session that a CONFIRM names (R376-R378). -/
def State.confirmAnswer (s : State) (i : Nat) (d : Dgram) (x : HalfOpen) : State :=
  let why := s.refusal i x.part
  if why = 2 ∨ why = 3 then s.rejectMsg i x.part d why
  else if !s.confirmOk x d.data then s.rejectMsg i x.part d 4
  else if why ≠ 0 then s.rejectMsg i x.part d why
  else ({ s with sess := s.sess ++ [x.open_ i d] }.release x.sid).sendAck x.sid

theorem confirmMsg_of_half (harr : s.arrives i d 3 = true) (h : d.isConfirm)
    (hx : (s.port i).half.find? (fun x => x.sid == (RHdr.read d.data).sid) = some x) :
    s.confirmMsg i d = (s.dropHalf i x.sid).confirmAnswer i d x := by
  obtain ⟨hmagic, hver, hlen, hall⟩ := h
  unfold State.confirmMsg
  rw [harr, if_neg (by decide)]
  dsimp only
  rw [if_neg (by simp only [hmagic, hver, hlen, hall]; decide), hx]
  rfl

theorem confirmAnswer_of_signed (hwhy : s.refusal i x.part = 0) (hok : s.confirmOk x d.data = true) :
    s.confirmAnswer i d x = (State.release { s with sess := s.sess ++ [x.open_ i d] } x.sid).sendAck x.sid := by
  simp [State.confirmAnswer, hwhy, hok]

theorem confirmAnswer_of_unsigned (hwhy : s.refusal i x.part = 0) (hok : s.confirmOk x d.data = false) :
    s.confirmAnswer i d x = s.rejectMsg i x.part d 4 := by
  simp [State.confirmAnswer, hwhy, hok]

end Confirm

/-- Settles O49: each answer is one branch of what follows a well-formed INIT or CONFIRM; among more identifiers than are in use one is free. -/
theorem sessionsOpen : Obligations.SessionsOpen := by
  refine ⟨?init, ?stopped, ?confirm, ?expiry⟩
  case init =>
    intro s i d hi harr h b recent hmagic hver hsid hlen hbody hrecent u good
    have hexec : exec (.init i d) s = .next (u.initAnswer i d) :=
      (exec_of_object (c := .init i d) (decide_eq_true hi) rfl).trans
        (congrArg Host.Outcome.next (initMsg_of_wellFormed harr ⟨hmagic, hver, hsid, hlen, hbody⟩ hrecent))
    refine ⟨fun hnew hgood hwhy hroom hsids => ?_, fun hnew hgood hwhy => ?_, fun x hx => ?_⟩
    · have husids : u.sids = s.sids := sids_modPort fun _ => rfl
      obtain ⟨x, hzero, hunused, hpart, hrings, hmax, hinit, hmac, hip, hudp, heq⟩ :=
        answerInit_of_share u hwhy (husids ▸ hsids)
      refine ⟨x, hzero, husids ▸ hunused, hpart, hrings, hmax, hinit, hmac, hip, hudp, ?_⟩
      rw [hexec, initAnswer_of_accepted hnew hgood hwhy hroom, heq]
      rfl
    · rw [hexec, initAnswer_of_refused hnew hgood hwhy]
    · rw [hexec, initAnswer_of_repeated hx]
  case stopped => exact fun s i p hruns hp hdef hshare h16 h64 => refusal_of_stopped hruns hp hdef hshare h16 h64
  case confirm =>
    intro s i d x hi harr h hmagic hver hlen hall hx u hwhy
    have hexec : exec (.confirm i d) s = .next (u.confirmAnswer i d x) :=
      (exec_of_object (c := .confirm i d) (decide_eq_true hi) rfl).trans
        (congrArg Host.Outcome.next (confirmMsg_of_half harr ⟨hmagic, hver, hlen, hall⟩ hx))
    exact ⟨fun hok => by rw [hexec, confirmAnswer_of_signed hwhy hok], fun hok => by rw [hexec, confirmAnswer_of_unsigned hwhy hok]⟩
  case expiry => exact fun s i sid hruns hi => exec_of_runs hruns (decide_eq_true hi) rfl

end Sys2Proof.Machine
end

section
/-!
PROOFS. The protected messages of a session (R372-R374, R380-R386): what authenticates them, the turn in which a reliable one acts, and
what ACK, KEEPALIVE, MBOX and CLOSE then do.
-/

open Sys2Proof Sys2Proof.Machine

namespace Sys2Proof

/-- A session after it has received a reliable message (R381). -/
def Sess.received (m : Nat × Nat × List Byte) (x : Sess) : Sess := { x with ackDue := true, rxSince := x.rxSince + 1, rxBuf := x.rxBuf ++ [m] }

/-- A session after it has received its next reliable message, which acts (R381). -/
def Sess.tookNext (m : Nat × Nat × List Byte) (x : Sess) : Sess :=
  { x with ackDue := true, rxSince := x.rxSince + 1, rxBuf := dropAt (x.rxBuf ++ [m]) 0, rxNext := x.rxNext + 1 }

/-- A session with nothing behind its next reliable message, once that message `d` has been taken in (R374, R381). -/
def Sess.tookTurn (d : Dgram) (x : Sess) : Sess :=
  { x with mac := d.mac, ip := d.src, udp := d.sport, ackDue := true, rxSince := x.rxSince + 1, rxBuf := [], rxNext := x.rxNext + 1 }

/-- Command `c` is the arrival of datagram `d` at port `i` as a protected message of type `t` of a host. -/
def Instr.carries (c : Instr) (i : Nat) (d : Dgram) (t : Nat) : Prop :=
  (t = 0x10 ∧ c = .ack i d) ∨ (t = 0x11 ∧ c = .keepalive i d) ∨ (t = 0x12 ∧ c = .close i d) ∨ (t = 0x20 ∧ c = .mbox i d) ∨
    (t = 0x30 ∧ c = .dopen i d) ∨ (t = 0x31 ∧ c = .dwrite i d)

end Sys2Proof

namespace Sys2Proof.Machine

section Authentic

variable {s : State} {i ty t : Nat} {d : Dgram} {x : Sess} {b : List Byte}

theorem rejectA_eq (s : State) (i : Nat) : s.rejectA i = s.modPort i fun x => { x with reject := min 0xFFFFFFFF (x.reject + 1) } := by
  simp only [State.rejectA, satAt_eq_min]

theorem arrives_type (h : s.arrives i d ty = true) : fld d.data 3 1 = ty := by
  simp only [State.arrives, Bool.and_eq_true, beq_iff_eq] at h
  exact h.2

/-- A message whose type no host's row takes arrives all the same (R373). -/
theorem arrives_any (h : s.arrives i d ty = true) (t : Nat) (hty : notOfHost ty = true ∨ ty = 0x02 ∨ ty = 0x04 ∨ ty = t) :
    (s.arrives i d t || (s.arrives i d (fld d.data 3 1) && (notOfHost (fld d.data 3 1) || fld d.data 3 1 == 0x02 || fld d.data 3 1 == 0x04))) =
      true := by
  rw [arrives_type h, h]
  obtain hty | rfl | rfl | rfl := hty <;> simp [*]

/-- A REPLY or a REJECT carries no tag: it is discarded and counted (log entry 132). -/
theorem authentic_of_setup (h : s.arrives i d ty = true) (hty : ty = 0x02 ∨ ty = 0x04) (k : State → Nat → Nat → List Byte → State) :
    s.authentic i d t k = s.rejectA i := by
  unfold State.authentic
  dsimp only
  rw [arrives_any h t (.inr (hty.imp_right .inl)), arrives_type h, if_neg (by decide), if_pos hty]

/-- A message whose tag is not valid is discarded and counted (R374). -/
theorem authentic_of_bad_tag (h : s.arrives i d ty = true) (hty : ty ≠ 0x02 ∧ ty ≠ 0x04) (hx : s.session (RHdr.read d.data).sid = some x)
    (htag : fld d.data (24 + (RHdr.read d.data).len) 16 ≠ (Config.gcmTag x.kin (x.sin ++ natLe 8 (RHdr.read d.data).seq) (d.data.take 24)
      (slice d.data 24 (RHdr.read d.data).len)).toNat) (k : State → Nat → Nat → List Byte → State) :
    s.authentic i d ty k = s.rejectA i := by
  unfold State.authentic
  dsimp only
  rw [arrives_any h ty (.inr (.inr (.inr rfl))), arrives_type h, if_neg (by decide), if_neg (not_or.mpr hty), hx]
  dsimp only
  rw [if_pos (.inr (.inr (.inr (.inr htag))))]

/-- A protected message with a valid tag makes its sender the session's peer; it closes the session where it is not of the type that is
handled, and else is handled (R374). -/
theorem authentic_of_protected (h : s.protectedFrom i d ty x b) (hty : notOfHost ty = true ∨ ty = t) (hsetup : ty ≠ 0x02 ∧ ty ≠ 0x04)
    (k : State → Nat → Nat → List Byte → State) : s.authentic i d t k =
      if ty ≠ t then (s.heard d).closeSession (RHdr.read d.data).sid Code.sessionProtocol
      else k (s.heard d) (RHdr.read d.data).sid (RHdr.read d.data).seq b := by
  obtain ⟨-, -, harr, hx, hmagic, hver, hport, hlen, htag, rfl⟩ := h
  have htype : (RHdr.read d.data).type = ty := arrives_type harr
  unfold State.authentic
  dsimp only
  rw [arrives_any harr t (hty.imp_right (.inr ∘ .inr)), arrives_type harr, if_neg (by decide), if_neg (not_or.mpr hsetup), hx]
  dsimp only
  rw [if_neg (by simp only [hmagic, hver, hport, hlen, htag, ne_eq, not_true_eq_false, or_self, not_false_eq_true]), htype]
  rfl

theorem authentic_of_type (h : s.protectedFrom i d t x b) (hsetup : t ≠ 0x02 ∧ t ≠ 0x04) (k : State → Nat → Nat → List Byte → State) :
    s.authentic i d t k = k (s.heard d) (RHdr.read d.data).sid (RHdr.read d.data).seq b := by
  rw [authentic_of_protected h (.inr rfl) hsetup, if_neg (not_not.mpr rfl)]

theorem heard_session (h : s.protectedFrom i d ty x b) :
    (s.heard d).session (RHdr.read d.data).sid = some { x with mac := d.mac, ip := d.src, udp := d.sport } := by
  obtain ⟨-, -, -, hx, -⟩ := h
  exact session_modSess_same (fun _ => rfl) hx

end Authentic

section Turn

variable {s : State} {i n sid ty : Nat} {d : Dgram} {x : Sess} {b : List Byte}

/-- Nothing that a session has received waits to act, and no ACK is due at once (R381). -/
def State.rests (s : State) (sid : Nat) : Prop := ∀ y ∈ s.inbox sid, y.1 = [] ∧ y.2 < 16

theorem rests_of_session (h : ∀ x, s.session sid = some x → x.rxBuf = [] ∧ x.rxSince < 16) : s.rests sid := by
  intro y hy
  obtain ⟨x, hx, rfl⟩ := Option.map_eq_some_iff.mp hy
  exact h x hx

theorem rests_of_none (h : s.session sid = none) : s.rests sid := rests_of_session fun x hx => by rw [h] at hx; cases hx

theorem rests_of_inbox {t : State} (h : t.inbox sid = s.inbox sid) (hs : s.rests sid) : t.rests sid := by
  unfold State.rests at *
  rwa [h]

theorem drainRx_of_rests (h : s.rests sid) (n : Nat) : State.drainRx n s sid = s := by
  cases n with
  | zero => rfl
  | succ n =>
    unfold State.drainRx
    split
    · rfl
    · next x hx =>
      have hbuf : x.rxBuf = [] := (h x.inbox (Option.mem_def.mpr (congrArg (Option.map Sess.inbox) hx))).1
      rw [hbuf]
      rfl

/-- What follows the reliable messages that acted: an ACK at once for every 16 (R381). -/
def State.ackEvery16 (s : State) (sid : Nat) : State :=
  match s.session sid with
  | some y => if 16 ≤ y.rxSince then s.sendAck sid else s
  | none => s

theorem ackEvery16_of_rests (h : s.rests sid) : s.ackEvery16 sid = s := by
  unfold State.ackEvery16
  split
  · next y hy =>
    have hsince : y.rxSince < 16 := (h y.inbox (Option.mem_def.mpr (congrArg (Option.map Sess.inbox) hy))).2
    rw [if_neg (Nat.not_le.mpr hsince)]
  · rfl

theorem tookIn_session (h : s.protectedFrom i d ty x b) (hturn : x.turnOf d) :
    (s.tookIn d ty b).session (RHdr.read d.data).sid = some (x.tookTurn d) := by
  obtain ⟨-, -, hbuf, -⟩ := hturn
  refine (session_modSess_same (f := Sess.tookNext ((RHdr.read d.data).seq, ty, b)) (fun _ => rfl) (heard_session h)).trans ?_
  rw [Sess.tookNext, Sess.tookTurn, hbuf]
  rfl

/-- Once a message in its turn has been taken in, its session rests. -/
theorem tookIn_rests (h : s.protectedFrom i d ty x b) (hturn : x.turnOf d) : (s.tookIn d ty b).rests (RHdr.read d.data).sid := by
  refine rests_of_session fun y hy => ?_
  obtain rfl := Option.some.inj ((tookIn_session h hturn).symm.trans hy)
  obtain ⟨-, -, -, hsince⟩ := hturn
  exact ⟨rfl, Nat.succ_lt_succ hsince⟩

/-- A reliable message in its turn acts in the state that has taken it in, and nothing else acts with it (R381). -/
theorem reliable_of_turn (h : s.protectedFrom i d ty x b) (hturn : x.turnOf d) (hsetup : ty ≠ 0x02 ∧ ty ≠ 0x04) {r : State}
    (hact : (s.tookIn d ty b).act (RHdr.read d.data).sid ty b = r) (hr : r.rests (RHdr.read d.data).sid) :
    s.reliable i d ty = s.paced (.burst i) r := by
  obtain ⟨hseq, hlow, hbuf, -⟩ := hturn
  have hcontrol : bit (RHdr.read d.data).seq 63 = false := by
    rw [bit, Nat.shiftRight_eq_div_pow, Nat.div_eq_of_lt hlow]
    rfl
  unfold State.reliable
  rw [authentic_of_type h hsetup, heard_session h]
  dsimp only
  rw [hcontrol, if_neg (by decide)]
  have htakes : (decide (x.rxNext ≤ (RHdr.read d.data).seq) && decide ((RHdr.read d.data).seq ≤ x.rxNext + 256) &&
      !(x.rxBuf.any fun y => y.1 == (RHdr.read d.data).seq)) = true := by simp [hseq, hbuf]
  rw [htakes]
  simp only [if_true]
  have hdrain : State.drainRx 257 ((s.heard d).modSess (RHdr.read d.data).sid (Sess.received ((RHdr.read d.data).seq, ty, b)))
      (RHdr.read d.data).sid = r := by
    rw [State.drainRx, session_modSess_same (f := Sess.received _) (fun _ => rfl) (heard_session h), Sess.received, hbuf]
    simp only [List.nil_append, findAt, hseq, beq_self_eq_true, if_true]
    rw [modSess_modSess (f := Sess.received _) fun _ => rfl, ← hseq]
    exact (congrArg (fun u => State.drainRx 256 u _) hact).trans (drainRx_of_rests hr 256)
  exact congrArg _ ((congrArg (State.ackEvery16 · _) hdrain).trans (ackEvery16_of_rests hr))

/-- Such a message that reaches no stack acts at once. -/
theorem reliable_of_stks (h : s.protectedFrom i d ty x b) (hturn : x.turnOf d) (hsetup : ty ≠ 0x02 ∧ ty ≠ 0x04) {r : State}
    (hact : (s.tookIn d ty b).act (RHdr.read d.data).sid ty b = r) (hr : r.rests (RHdr.read d.data).sid) (hstks : r.stks = s.stks) :
    s.reliable i d ty = r := (reliable_of_turn h hturn hsetup hact hr).trans (paced_of_stks hstks)

end Turn

section Messages

variable {s : State} {i t sid : Nat} {d : Dgram} {x y z : Sess} {b : List Byte}

/-- What authentication leads to, whatever the handler, is what the command does. -/
theorem exec_of_authentic {c : Instr} {u : State} (hruns : s.runs = true) (hi : i < 4) (hc : c.carries i d t)
    (hu : ∀ k, s.authentic i d t k = u) (hstks : u.stks = s.stks) : exec c s = .next u := by
  have hreliable : s.reliable i d t = u := by
    unfold State.reliable
    rw [hu, paced_of_stks hstks]
  obtain ⟨rfl, rfl⟩ | ⟨rfl, rfl⟩ | ⟨rfl, rfl⟩ | ⟨rfl, rfl⟩ | ⟨rfl, rfl⟩ | ⟨rfl, rfl⟩ := hc
  · exact (exec_of_runs hruns (decide_eq_true hi) rfl).trans (congrArg _ (hu _))
  · exact (exec_of_runs hruns (decide_eq_true hi) rfl).trans (congrArg _ (hu _))
  · exact (exec_of_runs hruns (decide_eq_true hi) rfl).trans (congrArg _ hreliable)
  · exact (exec_of_runs hruns (decide_eq_true hi) rfl).trans (congrArg _ hreliable)
  · exact (exec_of_runs hruns (decide_eq_true hi) rfl).trans (congrArg _ hreliable)
  · exact (exec_of_runs hruns (decide_eq_true hi) rfl).trans (congrArg _ hreliable)

theorem ackMsg_of_good (h : s.protectedFrom i d 0x10 x b) (hcontrol : bit (RHdr.read d.data).seq 63 = true) (hlen : b.length = 48)
    (hok : x.ackOk (fld b 0 8) (fld b 40 4) = true) :
    s.ackMsg i d = ((s.heard d).modSess (RHdr.read d.data).sid fun y => y.acked (fld b 0 8) (fld b 8 32) (fld b 40 4)).refill
      (RHdr.read d.data).sid := by
  have hgood : Sess.ackOk { x with mac := d.mac, ip := d.src, udp := d.sport } (fld b 0 8) (fld b 40 4) = true := hok
  unfold State.ackMsg
  rw [authentic_of_type h (by decide), heard_session h]
  dsimp only
  rw [hcontrol, hgood, if_neg (by simp [hlen])]

theorem keepaliveMsg_of_good (h : s.protectedFrom i d 0x11 x []) (hcontrol : bit (RHdr.read d.data).seq 63 = true) :
    s.keepaliveMsg i d = s.heard d := by
  unfold State.keepaliveMsg
  rw [authentic_of_type h (by decide), hcontrol, if_neg (by simp)]

/-- The command ring after an MBOX that keeps the rules of R385: the bytes at the offset, and TAIL; with RESET also HEAD. -/
theorem mbox_eq_some (h : x.mbox b = some z) :
    b.length = 16 + fld b 4 4 ∧ fld b 0 4 + fld b 4 4 ≤ x.csize ∧ z = { x with
      cring := x.cring.write (fld b 0 4) (b.drop 16), ctail := fld b 8 4, chead := if bit (fld b 12 1) 0 then fld b 8 4 else x.chead } := by
  unfold Sess.mbox at h
  dsimp only at h
  split at h
  · cases h
  · next hlen =>
    obtain ⟨-, hlen, hsize⟩ := not_or.mp hlen |>.imp_right not_or.mp
    refine ⟨not_not.mp hlen, Nat.not_lt.mp hsize, ?_⟩
    split at h
    · next hreset =>
      split at h
      · cases h
      · cases h
        rw [if_pos hreset]
    · next hreset =>
      split at h
      · cases h
      · cases h
        rw [if_neg hreset]

theorem mbox_keeps (h : x.mbox b = some z) : z.sid = x.sid ∧ z.inbox = x.inbox := by
  obtain ⟨-, -, rfl⟩ := mbox_eq_some h
  exact ⟨rfl, rfl⟩

theorem mboxAct_of_good (hy : s.session sid = some y) (h : y.mbox b = some z) : s.mboxAct sid b = s.modSess sid fun _ => z := by
  simp only [State.mboxAct, hy, h]

theorem mboxAct_of_bad (hy : s.session sid = some y) (h : y.mbox b = none) : s.mboxAct sid b = s.closeSession sid Code.sessionProtocol := by
  simp only [State.mboxAct, hy, h]

theorem sendAck_stks (s : State) (sid : Nat) : (s.sendAck sid).stks = s.stks := by
  unfold State.sendAck
  split
  · rfl
  · exact (((Told.refl s).modSess sid (f := fun y => { y with ackDue := false, rxSince := 0 }) fun _ => rfl).sendCtl _ _ _).stks

end Messages

/-- Settles O51: each message is authenticated, and a reliable one in its turn then acts alone; what fails reaches no handler. -/
theorem sessionMessagesAct : Obligations.SessionMessagesAct := by
  refine ⟨?ack, ?keepalive, ?mbox, ?ring, ?close, ?tag, ?other⟩
  case ack =>
    intro s i d x b h _ hcontrol hlen hok
    rw [exec_of_runs (i := .ack i d) h.1 (decide_eq_true h.2.1) rfl, ackMsg_of_good h hcontrol hlen hok]
  case keepalive =>
    intro s i d x h hcontrol
    rw [exec_of_runs (i := .keepalive i d) h.1 (decide_eq_true h.2.1) rfl, keepaliveMsg_of_good h hcontrol]
  case mbox =>
    intro s i d x y b h hturn sid u hy
    have hrests : u.rests sid := tookIn_rests h hturn
    have hexec : exec (.mbox i d) s = .next (s.reliable i d 0x20) := exec_of_runs h.1 (decide_eq_true h.2.1) rfl
    refine ⟨fun z hz => ?_, fun hbad => ?_⟩
    · obtain ⟨hsid, hinbox⟩ := mbox_keeps hz
      have hkept : (u.modSess sid fun _ => z).inbox sid = u.inbox sid :=
        inbox_modSess sid (fun _ _ => hsid.trans (Told.session_sid hy)) fun y' hy' => by rw [hinbox, Option.some.inj (hy'.symm.trans hy)]
      rw [hexec, reliable_of_stks h hturn (by decide) (mboxAct_of_good hy hz) (rests_of_inbox hkept hrests) rfl]
    · rw [hexec, reliable_of_stks h hturn (by decide) (mboxAct_of_bad hy hbad) (rests_of_none (session_closeSession _ _ _))
        (closeSession_stks _ _ _)]
  case ring =>
    intro x z b h
    obtain ⟨hlen, hsize, rfl⟩ := mbox_eq_some h
    exact ⟨rfl, rfl, hlen, hsize, rfl⟩
  case close =>
    intro s i d x b h hturn hlen sid
    have hended := session_endSession ((s.tookIn d 0x12 b).sendAck sid) sid true
    have hstks : (((s.tookIn d 0x12 b).sendAck sid).endSession sid true).stks = s.stks :=
      (endSession_leaves _ _ _).2.2.trans (sendAck_stks _ _)
    refine ⟨?_, hended⟩
    rw [exec_of_runs (i := .close i d) h.1 (decide_eq_true h.2.1) rfl,
      reliable_of_stks h hturn (by decide) (if_neg (not_not.mpr hlen)) (rests_of_none hended) hstks]
  case tag =>
    intro s i d x ty c hruns hi harr hc _ hx htag
    have hty : ty ≠ 0x02 ∧ ty ≠ 0x04 := by omega
    rw [exec_of_authentic hruns hi hc (authentic_of_bad_tag harr hty hx htag) rfl, rejectA_eq]
  case other =>
    intro s i d ty c hruns hi harr hc
    obtain ⟨t, hcarries, hmem⟩ : ∃ t, c.carries i d t ∧ t ∈ [0x01, 0x02, 0x03, 0x04, 0x10, 0x11, 0x12, 0x20, 0x30, 0x31] := by
      unfold Instr.carries
      obtain rfl | rfl | rfl | rfl | rfl | rfl := hc <;> simp
    refine ⟨fun hty => ?_, fun x b hty h => ?_⟩
    · rw [exec_of_authentic hruns hi hcarries (authentic_of_setup harr hty) rfl, rejectA_eq]
    · have hne : ty ≠ t := fun e => hty (e ▸ hmem)
      have hsetup : ty ≠ 0x02 ∧ ty ≠ 0x04 := by constructor <;> rintro rfl <;> exact hty (by decide)
      have hhost : notOfHost ty = true := by simpa [notOfHost] using hty
      refine exec_of_authentic hruns hi hcarries (fun k => ?_) (closeSession_stks _ _ _)
      rw [authentic_of_protected h (.inl hhost) hsetup, if_pos hne]

end Sys2Proof.Machine
end

section
/-!
PROOFS. The data port (R403-R407): the bursts that DOPEN opens, the chunks that DWRITE and DREAD move, and what a chunk leaves in memory
and in the sessions.
-/

open Sys2Proof Sys2Proof.Machine

namespace Sys2Proof

/-- Piece `i` of a list cut into pieces of `n`. -/
theorem getElem?_chunksF {α : Type} {n : Nat} {c : List α} : ∀ {fuel : Nat} {l : List α} {i : Nat},
    (chunksF n fuel l)[i]? = some c → c = (l.drop (n * i)).take n
  | 0, _, _, h => by simp [chunksF] at h
  | fuel + 1, l, i, h => by
    unfold chunksF at h
    split at h
    · simp at h
    · cases i with
      | zero => simpa using h.symm
      | succ i =>
        rw [List.getElem?_cons_succ] at h
        rw [getElem?_chunksF h, List.drop_drop, Nat.mul_succ, Nat.add_comm]

theorem eq_of_mem_zip_chunks {α : Type} {n k : Nat} {l : List α} {x : List α × Nat}
    (h : x ∈ (chunks n l).zip (List.range k)) :
    x.2 < k ∧ x.1 = (l.drop (n * x.2)).take n := by
  obtain ⟨i, hi⟩ := List.mem_iff_getElem?.mp h
  obtain ⟨hchunk, hnum⟩ := List.getElem?_zip_eq_some.mp hi
  obtain ⟨hlt, hnum⟩ := List.getElem?_eq_some_iff.mp hnum
  rw [List.getElem_range] at hnum
  rw [List.length_range] at hlt
  exact ⟨hnum ▸ hlt, hnum ▸ getElem?_chunksF hchunk⟩

theorem padTo_of_length {n : Nat} {bs : List Byte} (h : bs.length = n) : padTo n bs = bs := by
  simp [padTo, zeros, h, List.take_of_length_le]

namespace Memory

theorem getD_read (m : Memory) (a n : Nat) {j : Nat} (hj : j < n) : (m.read a n).getD j 0 = m.byte (a + j) := by
  induction n generalizing a j with
  | zero => omega
  | succ n ih =>
    cases j with
    | zero => rfl
    | succ j => rw [read, List.getD_cons_succ, ih (a + 1) (by omega), Nat.add_right_comm, Nat.add_assoc]

theorem read_append (m : Memory) (a n k : Nat) : m.read a n ++ m.read (a + n) k = m.read a (n + k) := by
  induction n generalizing a with
  | zero => simp [read]
  | succ n ih => rw [read, List.cons_append, Nat.add_comm n 1, ← Nat.add_assoc a 1 n, ih (a + 1), Nat.add_assoc 1 n k, Nat.add_comm 1 (n + k), read]

theorem slice_read (m : Memory) (a : Nat) {o n k : Nat} (h : o + n ≤ k) : slice (m.read a k) o n = m.read (a + o) n := by
  obtain ⟨r, rfl⟩ := Nat.exists_eq_add_of_le h
  rw [slice, ← read_append m a (o + n) r, ← read_append m a o n, List.append_assoc, List.drop_left' (length_read ..),
    List.take_left' (length_read ..)]

end Memory

end Sys2Proof

namespace Sys2Proof.Machine

section StackBytes

variable {s : State} {a n : Nat} {bs : List Byte}

theorem stackRead_data {src : Nat} (h : (s.stackRead a src).2.2 = false) : (s.stackRead a src).2.1 = s.mem.read a 64 := by
  unfold State.stackRead at h ⊢
  dsimp only at h ⊢
  split at h
  · cases h
  · next hne =>
    rw [if_neg hne]
    split <;> rfl

theorem mem_stackRead (s : State) (a src : Nat) : (s.stackRead a src).1.mem = s.mem :=
  (Keeps.stackRead (φ := true) (π := true) a src (.refl s)).mem rfl

/-- The requester reads codeword `w + i` behind those it has read (R323). -/
def readWord (w : Nat) (acc : State × List Byte × Bool) (i : Nat) : State × List Byte × Bool :=
  let x := (acc.1.stackCount ((w + i) * 64)).stackRead ((w + i) * 64) 0
  (x.1, acc.2.1 ++ x.2.1, acc.2.2 && !x.2.2)

theorem readWords_data (s : State) (w k : Nat) :
    ((List.range k).foldl (readWord w) (s, [], true)).1.mem = s.mem ∧ (((List.range k).foldl (readWord w) (s, [], true)).2.2 = true →
      ((List.range k).foldl (readWord w) (s, [], true)).2.1 = s.mem.read (w * 64) (64 * k)) := by
  induction k with
  | zero => exact ⟨rfl, fun _ => rfl⟩
  | succ k ih =>
    rw [List.range_succ, List.foldl_append]
    generalize (List.range k).foldl (readWord w) (s, [], true) = acc at ih
    obtain ⟨u, data, good⟩ := acc
    obtain ⟨hmem, hdata⟩ := ih
    refine ⟨(mem_stackRead _ _ _).trans hmem, fun hgood => ?_⟩
    obtain ⟨hbefore, hlast⟩ := Bool.and_eq_true_iff.mp hgood
    have hword : ((u.stackCount ((w + k) * 64)).stackRead ((w + k) * 64) 0).2.1 = s.mem.read (w * 64 + 64 * k) 64 := by
      rw [stackRead_data ((Bool.not_eq_true' _).mp hlast), Nat.add_mul, Nat.mul_comm k, ← hmem]
      rfl
    rw [Nat.mul_succ 64 k, ← Memory.read_append, ← hdata hbefore, ← hword]
    rfl

/-- What the requester reads of a stack without damage beyond correction is what stands there (R323). -/
theorem reqRead_data (h : (s.reqRead a n).2.2 = true) : (s.reqRead a n).2.1 = s.mem.read a n := by
  have hcover : a % 64 + n ≤ 64 * cdiv (a % 64 + n) 64 := by unfold cdiv; omega
  have hwords := (readWords_data s (a / 64) (cdiv (a % 64 + n) 64)).2 h
  refine (congrArg (fun l => slice l (a % 64) n) hwords).trans ?_
  rw [Memory.slice_read _ _ hcover, Nat.mul_comm, Nat.div_add_mod]

theorem mem_reqRead (s : State) (a n : Nat) : (s.reqRead a n).1.mem = s.mem :=
  (Keeps.reqRead (φ := true) (π := true) a n (.refl s)).mem rfl

/-- The bytes of the codewords that a write touches: those before it, the written ones, those after it (R323). -/
def State.rewritten (s : State) (a : Nat) (bs : List Byte) : List Byte :=
  s.mem.read (a / 64 * 64) (a % 64) ++ bs ++ s.mem.read (a + bs.length) ((64 - (a + bs.length) % 64) % 64)

theorem length_rewritten (s : State) (a : Nat) (bs : List Byte) : (s.rewritten a bs).length = 64 * cdiv (a % 64 + bs.length) 64 := by
  simp only [State.rewritten, List.length_append, Memory.length_read, cdiv]
  omega

/-- Outside the written bytes the codewords keep what they held. -/
theorem getD_rewritten {k : Nat} (hout : k < a ∨ a + bs.length ≤ k) (hlo : a / 64 * 64 ≤ k)
    (hhi : k < a / 64 * 64 + 64 * cdiv (a % 64 + bs.length) 64) : (s.rewritten a bs).getD (k - a / 64 * 64) 0 = s.mem.byte k := by
  unfold State.rewritten
  obtain hk | hk := hout
  · have hj : k - a / 64 * 64 < a % 64 := by omega
    rw [List.append_assoc, List.getD_append _ _ _ _ (by simpa using hj), Memory.getD_read _ _ _ hj]
    congr 1
    omega
  · have hlen : (s.mem.read (a / 64 * 64) (a % 64) ++ bs).length = a % 64 + bs.length := by simp
    rw [List.getD_append_right _ _ _ _ (by omega), hlen, Memory.getD_read _ _ _ (by unfold cdiv at hhi; omega)]
    congr 1
    omega

/-- The requester reads a part of a codeword, where there is one (R323). -/
def State.readPart (s : State) (a n : Nat) (empty : Prop) [Decidable empty] : State × List Byte × Bool :=
  if empty then (s, [], true) else s.reqRead a n

theorem readPart_data (s : State) (a : Nat) {n m : Nat} {empty : Prop} [Decidable empty] (h0 : empty → m = 0) (hn : ¬ empty → m = n) :
    (s.readPart a n empty).1.mem = s.mem ∧ ((s.readPart a n empty).2.2 = true → (s.readPart a n empty).2.1 = s.mem.read a m) := by
  unfold State.readPart
  split
  · next h => exact ⟨rfl, fun _ => by rw [h0 h]; rfl⟩
  · next h => exact ⟨mem_reqRead s a n, fun hgood => by rw [hn h, reqRead_data hgood]⟩

/-- What a write at `a` reads of the codeword in which it starts (R323). -/
def State.readHead (s : State) (a : Nat) : State × List Byte × Bool := s.readPart (a / 64 * 64) (a % 64) (a % 64 = 0)

/-- What a write that ends before `e` reads of the codeword in which it ends (R323). -/
def State.readTail (s : State) (e : Nat) : State × List Byte × Bool := s.readPart e (64 - e % 64) (e % 64 = 0)

theorem readHead_data (s : State) (a : Nat) : (s.readHead a).1.mem = s.mem ∧
    ((s.readHead a).2.2 = true → (s.readHead a).2.1 = s.mem.read (a / 64 * 64) (a % 64)) := readPart_data s _ id fun _ => rfl

theorem readTail_data (s : State) (e : Nat) : (s.readTail e).1.mem = s.mem ∧
    ((s.readTail e).2.2 = true → (s.readTail e).2.1 = s.mem.read e ((64 - e % 64) % 64)) := readPart_data s e (by omega) (by omega)

/-- The requester writes codewords from the one at place `w` on. -/
def State.writeWords (s : State) (w : Nat) (cs : List (List Byte × Nat)) : State :=
  cs.foldl (fun s x => (s.stackCount ((w + x.2) * 64)).stackWrite ((w + x.2) * 64) x.1) s

theorem reqWrite_eq (s : State) (a : Nat) (bs : List Byte) : s.reqWrite a bs =
    if bs.isEmpty then (s, true)
    else if !((s.readHead a).2.2 && ((s.readHead a).1.readTail (a + bs.length)).2.2) then (((s.readHead a).1.readTail (a + bs.length)).1, false)
    else (((s.readHead a).1.readTail (a + bs.length)).1.writeWords (a / 64)
      ((chunks 64 ((s.readHead a).2.1 ++ bs ++ ((s.readHead a).1.readTail (a + bs.length)).2.1)).zip
        (List.range (cdiv (a % 64 + bs.length) 64))), true) := rfl

/-- The requester's write of a stack is of whole codewords, which hold the bytes beside it as they stood (R323). -/
theorem reqWrite_cases (s : State) (a : Nat) (bs : List Byte) : (s.reqWrite a bs).1.mem = s.mem ∨
    ∃ u : State, u.mem = s.mem ∧
      (s.reqWrite a bs).1 = u.writeWords (a / 64) ((chunks 64 (s.rewritten a bs)).zip (List.range (cdiv (a % 64 + bs.length) 64))) := by
  obtain ⟨hheadMem, hheadData⟩ := readHead_data s a
  obtain ⟨htailMem, htailData⟩ := readTail_data (s.readHead a).1 (a + bs.length)
  rw [reqWrite_eq]
  split
  · exact .inl rfl
  · split
    · exact .inl (htailMem.trans hheadMem)
    · next hgood =>
      rw [Bool.not_eq_true', Bool.not_eq_false, Bool.and_eq_true_iff] at hgood
      obtain ⟨hhead, htail⟩ := hgood
      have hdata : (s.readHead a).2.1 ++ bs ++ ((s.readHead a).1.readTail (a + bs.length)).2.1 = s.rewritten a bs := by
        rw [hheadData hhead, htailData htail, hheadMem, State.rewritten]
      exact .inr ⟨_, htailMem.trans hheadMem, by rw [hdata]⟩

/-- The bytes beside those that the requester writes stay (R285, R323). -/
theorem byte_reqWrite_of_outside {k : Nat} (hout : k < a ∨ a + bs.length ≤ k) : (s.reqWrite a bs).1.mem.byte k = s.mem.byte k := by
  obtain hsame | ⟨u, hu, hwrite⟩ := reqWrite_cases s a bs
  · rw [hsame]
  · rw [hwrite, State.writeWords]
    refine List.foldlRecOn (motive := fun v : State => v.mem.byte k = s.mem.byte k) _ _ (by rw [hu]) fun v hv x hx => ?_
    obtain ⟨hx2, hx1⟩ := eq_of_mem_zip_chunks hx
    obtain ⟨dmg, stks, hstep⟩ := stackWrite_state (v.stackCount ((a / 64 + x.2) * 64)) ((a / 64 + x.2) * 64) x.1
    rw [hstep]
    dsimp only
    rw [Memory.byte_write]
    split
    · next hk =>
      have hall := length_rewritten s a bs
      have hstart : (a / 64 + x.2) * 64 = a / 64 * 64 + 64 * x.2 := by omega
      have hword : x.1.length = 64 := by
        rw [hx1, List.length_take, List.length_drop]
        omega
      rw [padTo_of_length hword, hword, hstart] at hk
      rw [padTo_of_length hword, hstart, hx1, ← getD_rewritten hout (by omega) (by omega), List.getD_eq_getElem?_getD, List.getD_eq_getElem?_getD,
        List.getElem?_take_of_lt (by omega), List.getElem?_drop]
      congr 2
      omega
    · exact hv

end StackBytes

section ChunkInbox

variable {s : State} {a n : Nat} {bs : List Byte}

theorem inbox_stackCorrected (s : State) (a n : Nat) : (s.stackCorrected a).inbox n = s.inbox n := by
  have told (u : State) (tell : Bool) (t : Nat) : (if tell then u.stackEvent t Code.correctedRate 0 else u).inbox n = u.inbox n := by
    unfold State.stackEvent
    split
    · split
      · exact inbox_notify _ _
      · rfl
    · rfl
  unfold State.stackCorrected
  exact (told _ _ _).trans (inbox_of_sess rfl)

theorem inbox_stackRead (s : State) (a src n : Nat) : (s.stackRead a src).1.inbox n = s.inbox n := by
  unfold State.stackRead
  dsimp only
  split
  · exact inbox_of_sess rfl
  · split
    · exact inbox_stackCorrected s a n
    · rfl

theorem inbox_reqRead (s : State) (a k n : Nat) : (s.reqRead a k).1.inbox n = s.inbox n := by
  unfold State.reqRead
  refine List.foldlRecOn (motive := fun (acc : State × List Byte × Bool) => acc.1.inbox n = s.inbox n) _ _ rfl fun acc hacc i _ => ?_
  exact (inbox_stackRead _ _ _ n).trans hacc

theorem inbox_readPart (s : State) (a k n : Nat) (empty : Prop) [Decidable empty] : (s.readPart a k empty).1.inbox n = s.inbox n := by
  unfold State.readPart
  split
  · rfl
  · exact inbox_reqRead s a k n

theorem inbox_writeWords (s : State) (w : Nat) (cs : List (List Byte × Nat)) (n : Nat) : (s.writeWords w cs).inbox n = s.inbox n :=
  foldl_keeps (g := fun u => u.inbox n) (fun u x => by
    obtain ⟨dmg, stks, hu⟩ := stackWrite_state (u.stackCount ((w + x.2) * 64)) ((w + x.2) * 64) x.1
    rw [hu]
    exact inbox_of_sess rfl) cs s

theorem inbox_reqWrite (s : State) (a : Nat) (bs : List Byte) (n : Nat) : (s.reqWrite a bs).1.inbox n = s.inbox n := by
  have hread : ((s.readHead a).1.readTail (a + bs.length)).1.inbox n = s.inbox n :=
    (inbox_readPart _ _ _ n _).trans (inbox_readPart _ _ _ n _)
  rw [reqWrite_eq]
  split
  · rfl
  · split
    · exact hread
    · exact (inbox_writeWords _ _ _ n).trans hread

theorem viewWrite_sess (s : State) (p a : Nat) (bs : List Byte) : (s.viewWrite p a bs).sess = s.sess := by
  have piece (u : State) (a : Nat) (bs : List Byte) : (u.pieceWrite p a bs).sess = u.sess := by
    unfold State.pieceWrite
    split
    · next b _ =>
      dsimp only
      split
      · obtain ⟨m, hm⟩ := mend_state { u with mem := u.mem.write b bs } (wordOf b) 16
        rw [hm]
      · rfl
    · rfl
  unfold State.viewWrite
  refine (foldl_keeps (g := State.sess) (fun u _ => piece u _ _) _ _).trans ?_
  split
  · rfl
  · exact piece s a _

/-- A chunk that is written leaves what every session has received. -/
theorem inbox_chunkWrite (s : State) (p a : Nat) (bs : List Byte) (n : Nat) : (s.chunkWrite p a bs).inbox n = s.inbox n := by
  unfold State.chunkWrite
  split
  · exact inbox_reqWrite s a bs n
  · split
    · exact inbox_of_sess (viewWrite_sess s p a bs)
    · obtain ⟨m, hm⟩ := mend_state { s with mem := s.mem.write a bs } a bs.length
      rw [hm]
      exact inbox_of_sess rfl

theorem inbox_burstNext (s : State) (sid : Nat) (y : Burst) (n : Nat) : (s.burstNext sid y).inbox n = s.inbox n := by
  unfold State.burstNext
  dsimp only
  split
  · exact (inbox_sendRel _ _ _).trans (inbox_modSess sid (fun _ hx => hx) fun _ _ => rfl)
  · exact inbox_modSess sid (fun _ hx => hx) fun _ _ => rfl

end ChunkInbox

section Bursts

variable {s : State} {sid i : Nat} {d : Dgram} {x : Sess} {b : List Byte} {y : Burst} {w : Client}

theorem through_mem (s : State) (w : Client) (t : State) : (s.through w t).mem = t.mem :=
  foldl_keeps (g := State.mem) (fun u i => modStack_mem u i _) (s.usedStacks t) t

theorem burstNext_mem (s : State) (sid : Nat) (y : Burst) : (s.burstNext sid y).mem = s.mem :=
  (Keeps.burstNext (φ := true) (π := true) sid y (.refl s)).mem rfl

/-- The burst that a DOPEN asks for (R403). -/
def burstOf (b : List Byte) : Burst := ⟨fld b 0 1, fld b 1 1 == 1, fld b 2 2, fld b 8 8, fld b 16 8, 0⟩

/-- The code of a DOPEN (R403, R406). -/
def State.dopenCode (s : State) (x : Sess) (b : List Byte) : Nat :=
  if !x.burstFields (burstOf b) (fld b 1 1) then Code.burstFormat else s.rangeCode x.part (burstOf b).addr (burstOf b).len

theorem dopenCode_eq (s : State) (x : Sess) (b : List Byte) : s.dopenCode x b =
    if x.burstFields (burstOf b) (fld b 1 1) then s.rangeCode x.part (burstOf b).addr (burstOf b).len else Code.burstFormat := by
  unfold State.dopenCode
  cases x.burstFields (burstOf b) (fld b 1 1) <;> rfl

theorem dopenAct_eq (hx : s.session sid = some x) (hlen : b.length = 24) : s.dopenAct sid b =
    if s.dopenCode x b ≠ Code.ok then s.sendRel sid 0x33 (dstatPayload (fld b 0 1) 3 (s.dopenCode x b) 0)
    else (s.modSess sid fun z => { z with bursts := z.bursts ++ [burstOf b] }).sendRel sid 0x33 (dstatPayload (fld b 0 1) 1 0 0) := by
  unfold State.dopenAct
  rw [hx]
  dsimp only
  rw [if_neg (not_not.mpr hlen)]
  rfl

/-- A chunk that is the next of its open write burst, in a range that passes, is written, and the burst goes on (R404-R406). -/
theorem dwriteAct_of_next (hx : s.session sid = some x) (hy : x.bursts.find? (fun y => y.bid == fld b 0 1) = some y) (hrd : y.rd = false)
    (hnext : fld b 4 4 = y.next) (h8 : 8 ≤ b.length) (hlen : b.length = 8 + y.nextChunk.2)
    (hrange : s.rangeCode x.part y.nextChunk.1 y.nextChunk.2 = Code.ok) :
    s.dwriteAct sid b = (s.chunkWrite x.part y.nextChunk.1 (b.drop 8)).burstNext sid y := by
  unfold State.dwriteAct
  rw [hx]
  dsimp only
  rw [if_neg (Nat.not_lt.mpr h8), hy]
  dsimp only
  rw [if_neg (by simp [hrd, hnext, hlen]), if_neg (not_not.mpr hrange)]

/-- The next chunk of an open read burst, read without damage beyond correction, is sent, and the burst goes on (R404-R406). -/
theorem dread_of_next {u : State} {data : List Byte} (hx : s.session sid = some x)
    (hy : x.bursts.find? (fun z => z.bid == y.bid) = some y) (hrd : y.rd = true)
    (hrange : s.rangeCode x.part y.nextChunk.1 y.nextChunk.2 = Code.ok) (hread : s.chunkRead x.part y.nextChunk.1 y.nextChunk.2 = (u, data, true)) :
    s.dread sid y.bid = s.paced (.burst x.port) ((u.sendRel sid 0x32 (natLe 1 y.bid ++ zeros 3 ++ natLe 4 y.next ++ data)).burstNext sid y) := by
  unfold State.dread
  rw [hx]
  dsimp only
  rw [hy]
  dsimp only
  rw [if_neg (not_not.mpr hrd), if_neg (not_not.mpr hrange), hread]
  rfl

theorem burstNext_of_last (h : y.len ≤ (y.next + 1) * y.chunk) :
    s.burstNext sid y = (s.modSess sid fun z => { z with bursts := z.bursts.filter fun w => w.bid != y.bid }).sendRel sid 0x33
      (dstatPayload y.bid 2 0 (min y.len ((y.next + 1) * y.chunk))) := if_pos h

theorem burstNext_of_more (h : (y.next + 1) * y.chunk < y.len) :
    s.burstNext sid y = s.modSess sid fun z =>
      { z with bursts := z.bursts.map fun w => if w.bid = y.bid then { y with next := y.next + 1 } else w } :=
  if_neg (Nat.not_le.mpr h)

end Bursts

/-- Settles O52: a message in its turn acts alone, and each burst command is one branch of its act; a write of a stack rewrites whole
codewords with the bytes that stood beside the chunk. -/
theorem dataPortBursts : Obligations.DataPortBursts := by
  refine ⟨?dopen, ?dwrite, ?dread, ?next⟩
  case dopen =>
    intro s i d x b h hturn hlen sid u y code
    have hact := dopenAct_eq (tookIn_session h hturn) hlen
    have hcode : u.dopenCode (x.tookTurn d) b = code := dopenCode_eq u _ b
    have hrests : u.rests sid := tookIn_rests h hturn
    have hexec : exec (.dopen i d) s = .next (s.reliable i d 0x30) := exec_of_runs h.1 (decide_eq_true h.2.1) rfl
    rw [hcode] at hact
    refine ⟨fun hok => ?_, fun hbad => ?_⟩
    · have hopened : u.dopenAct sid b = (u.modSess sid fun z => { z with bursts := z.bursts ++ [y] }).sendRel sid 0x33 (dstatPayload y.bid 1 0 0) :=
        hact.trans (if_neg (not_not.mpr hok))
      have hinbox : (u.dopenAct sid b).inbox sid = u.inbox sid := by
        rw [hopened]
        exact (inbox_sendRel _ _ _).trans (inbox_modSess sid (fun _ hx => hx) fun _ _ => rfl)
      have hkept := (Told.refl u).modSess sid (f := fun z => { z with bursts := z.bursts ++ [y] }) fun _ => rfl
      rw [hexec, reliable_of_stks h hturn (by decide) hopened (rests_of_inbox (hopened ▸ hinbox) hrests) (hkept.sendRel _ _ _).stks]
    · have hrefused := hact.trans (if_pos hbad)
      rw [hexec, reliable_of_stks h hturn (by decide) hrefused (rests_of_inbox (inbox_sendRel _ _ _) hrests) ((Told.refl u).sendRel _ _ _).stks]
  case dwrite =>
    intro s i d x b y h hturn hy sid u a n r hrd hnext h8 hlen hrange
    have hact : u.act sid 0x31 b = r := dwriteAct_of_next (x := x.tookTurn d) (tookIn_session h hturn) hy hrd hnext h8 hlen hrange
    have hrests : r.rests sid :=
      rests_of_inbox ((inbox_burstNext _ _ _ _).trans (inbox_chunkWrite _ _ _ _ _)) (tookIn_rests h hturn)
    have hexec : exec (.dwrite i d) s = .next (s.paced (.burst i) r) := by
      rw [exec_of_runs (i := .dwrite i d) h.1 (decide_eq_true h.2.1) rfl, reliable_of_turn h hturn (by decide) hact hrests]
    obtain ⟨hroom, hwait⟩ := exec_of_paced hexec
    refine ⟨hroom, hwait, fun ha k hk => ?_⟩
    have hbytes : (b.drop 8).length = n := by rw [List.length_drop, hlen, Nat.add_sub_cancel_left]
    have hwrite : u.chunkWrite x.part a (b.drop 8) = (u.reqWrite a (b.drop 8)).1 := if_pos ha
    rw [through_mem, burstNext_mem, hwrite, byte_reqWrite_of_outside (hbytes.symm ▸ hk)]
    rfl
  case dread =>
    intro s sid x y hruns hx hrd a n hrange u data hread hy r
    have hexec : exec (.dread sid y.bid) s = .next (s.paced (.burst x.port) r) := by
      rw [exec_of_runs (i := .dread sid y.bid) hruns rfl rfl, dread_of_next hx hy hrd hrange hread]
    obtain ⟨hroom, hwait⟩ := exec_of_paced hexec
    refine ⟨hroom, hwait, fun _ => ?_⟩
    have hmem : u.mem = s.mem := by
      have hkeeps := (Keeps.chunkRead (φ := true) (π := true) x.part a n (.refl s)).mem rfl
      rwa [hread] at hkeeps
    rw [through_mem, burstNext_mem, ((Told.refl u).sendRel _ _ _).mem, hmem]
  case next => exact fun s sid y => ⟨burstNext_of_last, burstNext_of_more⟩

end Sys2Proof.Machine
end

section
/-!
PROOFS. Deferred commands that start (R391, R398, R413-R417, R431, R433, R438): each stands last among those that run.
-/

open Sys2Proof Sys2Proof.Machine

namespace Sys2Proof.Machine

section Grants

variable {s : State} {q : Nat} {g : GrantR} {b : List Byte}

/-- A grant change that starts is the last of the deferred commands that run (R391). -/
theorem grantStart_last (s : State) (o : Org) (op q : Nat) (g : GrantR) (delete : Bool) :
    (s.grantStart o op q g delete).defs.getLast? = some ⟨o, 0, op, .grant q g delete [] false⟩ := List.getLast?_concat

theorem doGrantSet_of_accepted (o : Org) (hfields : grantFields s.grade b = true) (hruns : s.grantRuns = false)
    (hconflict : s.grantConflict (fld b 0 1) (GrantR.read b) = false) (hheld : s.grantHeld (fld b 0 1) (GrantR.read b) = false)
    (huse : bit (fld b 1 1) 1 = true ∨ s.takesUsed (fld b 0 1) (s.part (fld b 0 1)).grant (GrantR.read b) = false ∧
      s.takesUsed 0 (s.part 0).grant (s.ownerWith (fld b 0 1) (GrantR.read b)) = false) :
    s.doGrantSet o 0 b = s.grantStart o 0x0100 (fld b 0 1) (GrantR.read b) false := by
  have hfree : ¬ ((!bit (fld b 1 1) 1) = true ∧ (s.takesUsed (fld b 0 1) (s.part (fld b 0 1)).grant (GrantR.read b) = true ∨
      s.takesUsed 0 (s.part 0).grant (s.ownerWith (fld b 0 1) (GrantR.read b)) = true)) := by
    obtain h | ⟨hq, h0⟩ := huse
    · simp [h]
    · simp [hq, h0]
  unfold State.doGrantSet
  dsimp only
  rw [if_neg (not_not.mpr rfl), hfields, if_neg (by decide), hruns, if_neg (by decide), hconflict, if_neg (by decide), if_neg hfree, hheld,
    if_neg (by decide)]

theorem doGrantSet_of_other {p : Nat} (o : Org) (hp : p ≠ 0) : s.doGrantSet o p b = s.complete o 0x0100 Code.notPermitted [] := if_pos hp

theorem doPartDelete_of_accepted (o : Org) (h1 : 1 ≤ q) (h7 : q ≤ 7) (hdef : q ∈ s.defined) (hheld : s.grantHeld q GrantR.empty = false)
    (hconflict : s.grantConflict q GrantR.empty = false) : s.doPartDelete o 0 q = s.grantStart o 0x0101 q GrantR.empty true := by
  have hnamed : ¬ (q = 0 ∨ 7 < q ∨ ¬ s.defined.contains q = true) := by
    simp only [List.contains_iff_mem, hdef, not_true_eq_false, or_false]
    omega
  unfold State.doPartDelete
  dsimp only
  rw [if_neg (not_not.mpr rfl), if_neg hnamed, hheld, if_neg (by decide), hconflict, if_neg (by decide)]

theorem doPartDelete_of_other {p : Nat} (o : Org) (hp : p ≠ 0) : s.doPartDelete o p q = s.complete o 0x0101 Code.notPermitted [] := if_pos hp

end Grants

section Commands

variable {s u : State} {p qaddr raddr r src len dest : Nat} {tmpl bs hb : List Byte} {l : List MStk}

/-- The state in which a MATCH_MULTI runs, before any of its commands is issued (R391, R398). -/
def State.multiStarted (s : State) (o : Org) (p raddr : Nat) (c : MatchC) (l : List MStk) (qs : List Entry) : State :=
  { s with
    multiNum := s.multiNum + 1
    defs := s.defs ++ [⟨o, p, 0x0040, .matchMulti s.multiNum raddr c l qs (l.map (·.stack))⟩] }

theorem doMatchMulti_of_good (o : Org) (h1 : 1 ≤ l.length) (h8 : l.length ≤ 8) (hdup : noDup (l.map (·.stack)) = true)
    (hq64 : qaddr % 64 = 0) (hr64 : raddr % 64 = 0)
    (hstks : ∀ x ∈ l, x.stack ∈ (s.part p).grant.stks ∧ s.holdsStack x.stack = false) (htmpl : (MatchC.read tmpl).template = true)
    (hcode : s.multiCode p (MatchC.read tmpl) l = Code.ok)
    (hqin : s.sharedIn p qaddr (4 * (MatchC.read tmpl).nq * (MatchC.read tmpl).dim) = true)
    (hrin : s.sharedIn p raddr (MatchC.read tmpl).resultBytes = true)
    (hread : s.sharedRead p qaddr (4 * (MatchC.read tmpl).nq * (MatchC.read tmpl).dim) = (u, bs, true))
    (hok : (⟨MatchC.read tmpl, none, p, 0, 0, chunks 64 bs, 0⟩ : MCmd).queriesOk = true) :
    s.doMatchMulti o p qaddr raddr tmpl l =
      l.foldl (fun v x => v.issueMulti x.stack) (u.multiStarted o p raddr (MatchC.read tmpl) l (chunks 64 bs)) := by
  have hmine : (l.all fun x => (s.part p).grant.stks.contains x.stack) = true :=
    List.all_eq_true.mpr fun x hx => List.contains_iff_mem.mpr (hstks x hx).1
  have hfree : (l.any fun x => s.holdsStack x.stack) = false := List.any_eq_false.mpr fun x hx => by simp [(hstks x hx).2]
  have hargs : ¬ (l.length = 0 ∨ 8 < l.length ∨ (!noDup (l.map (·.stack))) = true ∨ qaddr % 64 ≠ 0 ∨ raddr % 64 ≠ 0) := by
    rw [hdup, hq64, hr64]
    simp only [Bool.not_true, Bool.false_eq_true, ne_eq, not_true_eq_false, or_false]
    omega
  unfold State.doMatchMulti
  dsimp only
  rw [if_neg hargs, hmine, if_neg (by decide), hfree,
    if_neg (by decide), htmpl, if_neg (by decide), if_neg (not_not.mpr hcode), hqin, hrin, if_neg (by decide), hread]
  dsimp only
  rw [if_neg (by decide), hok, if_neg (by decide)]
  rfl

/-- An IMAGE_LOAD that passes stage 1 has its bytes staged (R431, R433). -/
theorem doImageLoad_of_good (o : Org) (secret : List Byte)
    (hidle : ∀ d ∈ s.defs, d.part = p → ∀ a b c e f, d.k ≠ .image a b c e f) (hsrc : s.imageSource p src (max 1 len) = Code.ok)
    (hread : s.anyRead p src (min len 96) = (u, hb, true)) (hcode : u.imageCode p r len hb = Code.ok) :
    s.doImageLoad o p r src len secret =
      { u with defs := u.defs ++ [⟨o, p, 0x0110, .image r src len (padTo 32 secret) (ImgHdr.read hb).bytes⟩] } := by
  have hruns : (s.defs.any fun d => d.part == p && (match d.k with | .image _ _ _ _ _ => true | _ => false)) = false := by
    refine List.any_eq_false.mpr fun d hd => ?_
    rw [Bool.and_eq_true, beq_iff_eq]
    rintro ⟨hpart, himage⟩
    split at himage
    · next hk => exact hidle d hd hpart _ _ _ _ _ hk
    · cases himage
  unfold State.doImageLoad
  dsimp only
  rw [if_neg (Bool.not_eq_true _ ▸ hruns), if_neg (not_not.mpr hsrc), hread]
  dsimp only
  rw [if_neg (by decide), if_neg (not_not.mpr hcode)]

theorem doAttest_of_room (o : Org) (nonce : List Byte) (h64 : dest % 64 = 0) (hin : s.sharedIn p dest (s.reportBytes p) = true) :
    s.doAttest o p nonce dest = { s with defs := s.defs ++ [⟨o, p, 0x0120, .attest (padTo 32 nonce) dest⟩] } := by
  unfold State.doAttest
  rw [if_neg (by simp [h64, hin])]

end Commands

/-- Settles O54: with its checks passed each command reaches the last branch of its handler, which adds it to those that run. -/
theorem deferredCommandsStart : Obligations.DeferredCommandsStart := by
  refine ⟨?grant, ?delete, ?other, ?multi, ?image, ?attest⟩
  case grant =>
    intro s o b h g q hfields hruns hconflict hheld huse
    refine ⟨?_, grantStart_last s o 0x0100 q g false⟩
    rw [exec_of_servedBy h rfl, doGrantSet_of_accepted o hfields hruns hconflict hheld huse]
  case delete =>
    intro s o q h h1 h7 hdef hheld hconflict
    refine ⟨?_, grantStart_last s o 0x0101 q GrantR.empty true⟩
    rw [exec_of_servedBy h rfl, doPartDelete_of_accepted o h1 h7 hdef hheld hconflict]
  case other =>
    intro s o p q b h hp
    exact ⟨by rw [exec_of_servedBy h rfl, doGrantSet_of_other o hp], by rw [exec_of_servedBy h rfl, doPartDelete_of_other o hp]⟩
  case multi =>
    intro s u o p qaddr raddr tmpl bs l h c h1 h8 hdup hq64 hr64 hstks htmpl hcode hqin hrin hread hok
    rw [exec_of_servedBy h rfl, doMatchMulti_of_good o h1 h8 hdup hq64 hr64 hstks htmpl hcode hqin hrin hread hok]
    rfl
  case image =>
    intro s u o p r src len secret hb h hidle hsrc hread hcode
    rw [exec_of_servedBy h rfl, doImageLoad_of_good o secret hidle hsrc hread hcode]
  case attest =>
    intro s o p dest nonce h h64 hin
    rw [exec_of_servedBy h rfl, doAttest_of_room o nonce h64 hin]

end Sys2Proof.Machine
end

section
/-!
PROOFS. What no command does: the security version in the fuses never falls (R453), a command outside the list of those that may write
the flash leaves flash and fuses (R442), and a module that does not run leaves its whole state (R444, R448, R481).
-/

open Sys2Proof Sys2Proof.Machine

namespace Sys2Proof.Machine

/-- Settles O7: no operation of a command or of a fabric cycle lowers the security version. -/
theorem securityVersionNeverFalls : Obligations.SecurityVersionNeverFalls := by
  refine ⟨fun i s t h => (exec_keeps i s t h).svn, fun s t h => ?_⟩
  unfold step at h
  split at h
  · cases h
    exact (Keeps.tick (φ := false) (π := false) (.refl s)).svn
  · next c rest _ => exact (exec_keeps c { s with pending := rest } t h).svn

/-- Settles O9: outside the list, no operation of a command reaches the flash or the fuses. -/
theorem flashFrame : Obligations.FlashFrame := by
  intro i s t h hi
  have hk := exec_keeps i s t h
  have hswitch : (!i.mayWriteFlash) = true := by rw [hi]; rfl
  exact ⟨hk.flash hswitch, hk.fuse hswitch⟩

section Stopped

variable {s : State} (hs : s.runs = false)

include hs

theorem whileOn_of_stopped (t : State) : s.whileOn t = s := if_neg (by simp [hs])

theorem serves_of_stopped (n : Nat) : s.serves n = none :=
  Option.eq_none_iff_forall_ne_some.mpr fun _ hx => Bool.false_ne_true (hs ▸ servedBy_runs hx)

theorem asCommand_of_stopped (o : Org) (k : State → Nat → State) : s.asCommand o k = s := by
  simp [State.asCommand, serves_of_stopped hs]

theorem readySess_of_stopped : s.readySess = [] := by
  simp [State.readySess, serves_of_stopped hs]

/-- The firmware of a module that does not run takes no record, and no error of its memory restarts it (R444, R468). -/
theorem recordTake_of_stopped (us : List Upset) : s.recordTake us = s := by
  have hoff : ∀ bad : Bool, ¬ (s.pwr.ready = true ∧ ¬ s.pwr.stopped = true ∧ bad = true) := by
    rintro bad ⟨hready, hstop, -⟩
    simp [State.runs, hready, hstop] at hs
  unfold State.recordTake
  dsimp only
  rw [if_neg (hoff _), readySess_of_stopped hs]
  rfl

/-! The outcomes of the commands of a module that does not run, by what guards them. -/

theorem next_whileOn_of_stopped (t : State) : (.next (s.whileOn t) : Host.Outcome State Fault Refusal) = .next s :=
  congrArg _ (whileOn_of_stopped hs t)

theorem guarded_whileOn_of_stopped (ok : Bool) (t : State) : s.guarded ok (s.whileOn t) = .next s := by
  rw [whileOn_of_stopped hs]
  exact guarded_self s ok

theorem next_asCommand_of_stopped (o : Org) (k : State → Nat → State) :
    (.next (s.asCommand o k) : Host.Outcome State Fault Refusal) = .next s :=
  congrArg _ (asCommand_of_stopped hs o k)

theorem guarded_asCommand_of_stopped (ok : Bool) (o : Org) (k : State → Nat → State) : s.guarded ok (s.asCommand o k) = .next s := by
  rw [asCommand_of_stopped hs]
  exact guarded_self s ok

/-- A command that does not act in a module that does not run leaves the state, by the guard that it has. -/
theorem exec_of_stopped (i : Instr) (hi : i.actsWhenStopped = false) : exec i s = .next s := by
  cases i with
  | init | confirm | arpRequest | echoRequest | foreignFrame | start | startTimeout | linkUp | thermalWarning | thermalThrottle
  | throttleStep | thermalTrip | thermalClear | thermalClockRamp | inputVoltage | inputOutOfRange | overcurrentTrip | standbyUp
  | pwrEnRise | powerDown | railFault | resetPin | refclkLoss | powerCapTick | powerModelUpdate | sbPwrlimWrite | smbusStatusRead
  | smbusBlockRead | smbusBlockWrite | smbusAlertResponse | linkDown | standbyRailDown | smbusClockLowTimeout => cases hi
  | commandRecordTake => exact congrArg _ (recordTake_of_stopped hs _)
  | moveStreamConfigWrite =>
    show Host.Outcome.next (ite _ _ _) = _
    split <;> exact next_asCommand_of_stopped hs _ _
  | regionDefine | regionRelease | ringKey | ringStep | nop | subscribe | sessionInfo | regRead | regWrite | registerWrite | jobAbort
  | matchMulti | grantSet | partDelete | grantRead | hostkeySet | imageLoad | attest | certRead | fwStage | fwPromote | fwCancel
  | setRead | setWrite | restart | moveStreamEnable | moveStreamDisable | moveStreamAbort | watchdogWrite | snapshotAck | chipFlagSet
  | chipFlagClear | scoresheetEnable | scoresheetDisable | ringStepAbort | coreEccClear | retireRequest =>
    exact next_asCommand_of_stopped hs _ _
  | hstkEccClear | ringTableLoad => exact guarded_asCommand_of_stopped hs _ _ _
  | laneDispatch | creditGrant | ranowAckTimer | ranowRetransmit | sessionTimeout | matchMultiMerge | dread | activationDecision
  | activationDeferred | deferredCommandEnd => exact next_whileOn_of_stopped hs _
  | _ => exact guarded_whileOn_of_stopped hs _ _

end Stopped

/-- Settles O12: every other command stands behind the test that the module runs, or behind the session that it would serve. -/
theorem nothingRunsInAModuleThatIsOff : Obligations.NothingRunsInAModuleThatIsOff := by
  intro i s t hs hi ht
  rw [exec_of_stopped hs i hi] at ht
  injection ht with ht
  exact ht.symm

end Sys2Proof.Machine
end

section
/-!
PROOFS. Firmware, settings and retirement commands (R454-R456, R459, R460, R464, R474, R478).
-/

open Sys2Proof Sys2Proof.Machine

namespace Sys2Proof

/-- The management registers (R19, R22). -/
theorem place_mgmt (g : Grade) {ofs : Nat} (ho : ofs < 0x100000) : place g (0x040000000000 + ofs) = .mgmt ofs := by
  obtain ⟨a, ha⟩ : ∃ a, a = 0x040000000000 + ofs := ⟨_, rfl⟩
  have h1 : ¬ a < 8 * stackBytes := by rw [stackBytes]; omega
  have h2 : ¬ (0x010000000000 ≤ a ∧ a < 0x010000000000 + 4 * 0x08000000) := by omega
  have h3 : ¬ (0x020000000000 ≤ a ∧ a < 0x020060000000) := by omega
  have h4 : ¬ (0x030000000000 ≤ a ∧ a < 0x030000000000 + 4 * 0x08000000) := by omega
  have h5 : 0x040000000000 ≤ a ∧ a < 0x040000100000 := by omega
  have hofs : a - 0x040000000000 = ofs := by omega
  rw [← ha]
  unfold place
  simp only [h1, h2, h3, h4, h5, hofs, if_false, if_true, and_self]

/-- MGMT_RETIRE with FILE, RANK and REQ (R478). -/
def retireWord (f k : Nat) : Nat := f % 64 + 2 ^ 6 * (k % 64) + 2 ^ 12

section RetireWord

variable {f k : Nat}

theorem retireWord_lt (f k : Nat) : retireWord f k < 2 ^ 32 := by unfold retireWord; omega

theorem retireWord_core (hf : f < 64) (hk : k < 48) : coreId (bits (retireWord f k) 5 0) (bits (retireWord f k) 11 6) = coreId f k := by
  have hfile : bits (retireWord f k) 5 0 = f := by
    rw [bits, Nat.shiftRight_eq_div_pow, retireWord]
    omega
  have hrank : bits (retireWord f k) 11 6 = k := by
    rw [bits, Nat.shiftRight_eq_div_pow, retireWord]
    omega
  rw [hfile, hrank]

theorem retireWord_req (f k : Nat) : bit (retireWord f k) 12 = true := by
  rw [bit, Nat.shiftRight_eq_div_pow, retireWord, beq_iff_eq]
  omega

theorem fileOf_coreId (hf : f < 64) : fileOf (coreId f k) = f := by unfold fileOf coreId; omega

theorem rankOf_coreId (hf : f < 64) : rankOf (coreId f k) = k := by unfold rankOf coreId; omega

end RetireWord

end Sys2Proof

namespace Sys2Proof.Machine

section Retire

theorem Told.eventHolder {s t : State} (c code : Nat) (e : Ev) (h : Told s t) : Told s (t.eventHolder c code e) := by
  unfold State.eventHolder
  dsimp only
  split
  · exact .ite (fun _ => h.event _ _ _) fun _ => (h.event _ _ _).event _ _ _
  · exact h.event _ _ _

/-- A core becomes pending retirement, and nothing else of the fabric changes (R474). -/
structure Pends (s : State) (c : Nat) (t : State) : Prop where
  core : c ∈ t.pendingRetire
  others : ∀ d, d ≠ c → (d ∈ t.pendingRetire ↔ d ∈ s.pendingRetire)
  cores : t.cores = s.cores
  mem : t.mem = s.mem

theorem retireCandidate_pends (s : State) (c cause : Nat) : Pends s c (s.retireCandidate c cause) := by
  unfold State.retireCandidate
  split
  · next h => exact ⟨List.contains_iff_mem.mp h, fun _ _ => Iff.rfl, rfl, rfl⟩
  · have told := Told.eventHolder c Code.coreRetirePending { Ev.none with file := fileOf c, rank := rankOf c }
      (.refl { s with pendingRetire := s.pendingRetire ++ [c], causes := SMap.set 0 s.causes c cause })
    rw [told.eq]
    exact ⟨by simp, fun d hd => by simp [hd], rfl, rfl⟩

variable {s : State} {f k : Nat}

theorem writeRetire_pends (hf : f < 64) (hk : k < 48) (ha : coreActive s.grade f k = true) :
    (s.writeRetire (retireWord f k)).2 = Code.ok ∧ Pends s (coreId f k) (s.writeRetire (retireWord f k)).1 := by
  unfold State.writeRetire
  dsimp only
  rw [retireWord_core hf hk, fileOf_coreId hf, rankOf_coreId hf, retireWord_req, if_neg (by decide), if_pos ha]
  obtain ⟨hcore, hothers, hcores, hmem⟩ := retireCandidate_pends
    ({ s with retireSel := bits (retireWord f k) 11 0 }.fresh).1 (coreId f k) (({ s with retireSel := bits (retireWord f k) 11 0 }.fresh).2 % 2 ^ 16)
  exact ⟨rfl, hcore, hothers, hcores, hmem⟩

theorem regAt_retire (s : State) : ∃ v, s.regAt 0 0x040000000080 = some (4, v) := by
  have hplace : place s.grade 0x040000000080 = .mgmt 0x80 := place_mgmt s.grade (ofs := 0x80) (by decide)
  exact ⟨_, by rw [State.regAt, hplace]; rfl⟩

theorem regWrite_retire (s : State) {v : Nat} (hv : v < 2 ^ 32) : s.regWrite 0 0x040000000080 4 v = s.writeRetire v := by
  have hplace : place s.grade 0x040000000080 = .mgmt 0x80 := place_mgmt s.grade (ofs := 0x80) (by decide)
  have hmem : s.coreMemAt 0 0x040000000080 = none := by rw [State.coreMemAt, hplace]
  simp only [State.regWrite, hmem, hplace, if_true, Nat.mod_eq_of_lt hv]

theorem exec_retireRequest {o : Org} (h : s.servedBy o 0) :
    exec (.retireRequest o f k) s =
      .next ((s.writeRetire (retireWord f k)).1.complete o 0x0011 (s.writeRetire (retireWord f k)).2 []) := by
  obtain ⟨v, hreg⟩ := regAt_retire s
  have hok : s.regOk 0 0x040000000080 4 = true := by simp [State.regOk, hreg]
  rw [exec_of_servedBy h rfl, hreg, doRegWrite_of_ok o _ hok (by simp)]
  exact congrArg (fun w : State × Nat => Host.Outcome.next (w.1.complete o 0x0011 w.2 [])) (regWrite_retire s (retireWord_lt f k))

end Retire

section Commands

variable {s : State} {p : Nat}

theorem doFwStage_of_room (o : Org) {src len : Nat} (hstage : s.stagingRuns = false) (hprom : s.promotion = none) (h64 : src % 64 = 0)
    (hin : s.inOne 0 src (max 1 len) = true) :
    s.doFwStage o 0 src len = { s with defs := s.defs ++ [⟨o, 0, 0x0200, .stage src len⟩] } := by
  simp [State.doFwStage, hstage, hprom, h64, hin]

theorem doRestart_of_idle (o : Org) {force deadline : Nat} (hforce : force ≤ 1) (hdl : deadline ≤ 3600000) (hstage : s.stagingRuns = false)
    (hprom : s.promotion = none) : s.doRestart o 0 force deadline = s.announce o 0x0220 none force deadline := by
  unfold State.doRestart
  rw [if_neg (by decide), if_neg (by omega), if_neg (by simp [hstage, hprom])]

theorem doFwPromote_of_idle (o : Org) {target force deadline : Nat} (hforce : force ≤ 1) (hdl : deadline ≤ 3600000)
    (hstage : s.stagingRuns = false) (hprom : s.promotion = none) (htarget : target ≤ 1)
    (hst : s.flash.cur.st (1 - s.flash.cur.active) = if target = 0 then 1 else 3)
    (hsvn : s.fuse.svn ≤ (s.flash.bank (1 - s.flash.cur.active)).svn) :
    s.doFwPromote o 0 target force deadline = s.announce o 0x0201 (some (1 - s.flash.cur.active)) force deadline := by
  unfold State.doFwPromote
  dsimp only
  rw [if_neg (by decide), if_neg (by omega), if_neg (by simp [hstage, hprom]), if_neg (not_not.mpr hst), if_neg (by omega)]

theorem doFwCancel_of_pending (o : Org) {i : Nat} {d : Defr} (hprom : s.promotion = some (i, d)) :
    s.doFwCancel o 0 =
      ({ s with defs := dropAt s.defs i }.complete d.o d.op Code.activationDeferred []).complete o 0x0202 Code.ok [] := by
  unfold State.doFwCancel
  rw [if_neg (by decide), hprom]

theorem doSetRead_of_fits (o : Org) {dest : Nat} (hin : s.sharedIn 0 dest s.inForce.bytes.length = true) :
    s.doSetRead o 0 dest = (s.viewWrite 0 dest s.inForce.bytes).complete o 0x0210 Code.ok [] := by
  simp [State.doSetRead, hin]

theorem doSetWrite_of_items (o : Org) {n : Nat} {b : List Byte} {l : List (Nat × List Byte)} (hread : readItems n b = some l)
    (hok : l.all itemOk = true) :
    s.doSetWrite o 0 n b = (s.writeSettings (l.foldl setItem s.inForce.items)).1.complete o 0x0211
      (writeCode (s.writeSettings (l.foldl setItem s.inForce.items)).2) [] := by
  unfold State.doSetWrite
  rw [if_neg (by decide), hread]
  exact if_pos hok

/-- A write of the settings that the flash takes puts them in force (R460). -/
theorem writeSettings_of_written {items : List (Nat × List Byte)} (h : (s.writeSettings items).2 = true) :
    (s.writeSettings items).1.inForce = ⟨s.inForce.sver, s.flash.nextSeq, items⟩ ∧
    (s.writeSettings items).1.flash =
      { s.flash with slots := putAt s.flash.slots (s.flash.target s.inForce.sver) (some (s.writeSettings items).1.inForce) } := by
  unfold State.writeSettings at h ⊢
  dsimp only at h ⊢
  split at h
  · next heven =>
    rw [if_pos heven]
    exact ⟨rfl, rfl⟩
  · cases h

/-- A write of the settings that the flash does not take leaves those in force, and its slot invalid (R460, log entry 133). -/
theorem writeSettings_of_failed {items : List (Nat × List Byte)} (h : (s.writeSettings items).2 = false) :
    (s.writeSettings items).1.inForce = s.inForce ∧
    (s.writeSettings items).1.flash = { s.flash with slots := putAt s.flash.slots (s.flash.target s.inForce.sver) none } := by
  unfold State.writeSettings at h ⊢
  dsimp only at h ⊢
  split at h
  · cases h
  · next hodd =>
    rw [if_neg hodd]
    exact ⟨rfl, rfl⟩

theorem activationLate_of_pending {i q op : Nat} {o : Org} {bank : Option Nat} {x : Bool}
    (hprom : s.promotion = some (i, ⟨o, q, op, .promote bank false x⟩)) :
    s.activationLate = { s with defs := dropAt s.defs i }.complete o op Code.activationDeferred [] := by
  unfold State.activationLate
  rw [hprom]

/-- Only the management partition may command the firmware and the settings (R464). -/
theorem exec_of_otherPartition {o : Org} (h : s.servedBy o p) (hp : p ≠ 0) :
    (∀ src len, exec (.fwStage o src len) s = .next (s.complete o 0x0200 Code.notPermitted [])) ∧
    (∀ a b c, exec (.fwPromote o a b c) s = .next (s.complete o 0x0201 Code.notPermitted [])) ∧
    exec (.fwCancel o) s = .next (s.complete o 0x0202 Code.notPermitted []) ∧
    (∀ a, exec (.setRead o a) s = .next (s.complete o 0x0210 Code.notPermitted [])) ∧
    (∀ a b, exec (.setWrite o a b) s = .next (s.complete o 0x0211 Code.notPermitted [])) ∧
    (∀ a b, exec (.restart o a b) s = .next (s.complete o 0x0220 Code.notPermitted [])) := by
  refine ⟨fun src len => ?_, fun a b c => ?_, ?_, fun a => ?_, fun a b => ?_, fun a b => ?_⟩
  all_goals rw [exec_of_servedBy h rfl]; exact congrArg _ (if_pos hp)

end Commands

/-- Settles O56: with its checks passed each command reaches the last branch of its handler. -/
theorem firmwareAndSettingsCommandsComplete : Obligations.FirmwareAndSettingsCommandsComplete := by
  refine ⟨?stage, ?promote, ?cancel, ?setRead, ?setWrite, ?other, ?retire, ?deferred⟩
  case stage =>
    intro s o src len h hstage hprom h64 hin
    rw [exec_of_servedBy h rfl, doFwStage_of_room o hstage hprom h64 hin]
  case promote =>
    intro s o target force deadline h hforce hdl hstage hprom told
    refine ⟨?_, fun htarget hst hsvn => ?_⟩
    · rw [exec_of_servedBy h rfl, doRestart_of_idle o hforce hdl hstage hprom]
      rfl
    · rw [exec_of_servedBy h rfl, doFwPromote_of_idle o hforce hdl hstage hprom htarget hst hsvn]
      rfl
  case cancel =>
    intro s o i d h hprom
    rw [exec_of_servedBy h rfl, doFwCancel_of_pending o hprom]
  case setRead =>
    intro s o dest h hin
    rw [exec_of_servedBy h rfl, doSetRead_of_fits o hin]
  case setWrite =>
    intro s o n b l h hread hok items w at_
    have hexec : exec (.setWrite o n b) s = .next (w.1.complete o 0x0211 (writeCode w.2) []) := by
      rw [exec_of_servedBy h rfl, doSetWrite_of_items o hread hok]
    refine ⟨fun hw => ⟨?_, writeSettings_of_written hw⟩, fun hw => ⟨?_, writeSettings_of_failed hw⟩⟩
    all_goals rw [hexec, hw]; rfl
  case other =>
    intro s o p i op h hp hi
    obtain ⟨hstage, hpromote, hcancel, hread, hwrite, hrestart⟩ := exec_of_otherPartition h hp
    obtain ⟨_, _, rfl, rfl⟩ | ⟨_, _, _, rfl, rfl⟩ | ⟨rfl, rfl⟩ | ⟨_, rfl, rfl⟩ | ⟨_, _, rfl, rfl⟩ | ⟨_, _, rfl, rfl⟩ := hi
    · exact hstage _ _
    · exact hpromote _ _ _
    · exact hcancel
    · exact hread _
    · exact hwrite _ _
    · exact hrestart _ _
  case retire =>
    intro s o f k h hf hk ha
    obtain ⟨hcode, hcore, hothers, hcores, hmem⟩ := writeRetire_pends hf hk ha
    exact ⟨_, by rw [exec_retireRequest h, hcode], hcore, hothers, hcores, hmem⟩
  case deferred =>
    intro s i p op o bank x hr hprom
    have hexec : exec .activationDeferred s = .next (s.whileOn s.activationLate) := rfl
    rw [hexec, whileOn_of_runs _ _ hr, activationLate_of_pending hprom]

end Sys2Proof.Machine
end

section
/-!
PROOFS. The start of the module (R443-R449, R461, R491), its failure and fallback (R447), and the decision of a promotion (R456, R457).
-/

open Sys2Proof Sys2Proof.Machine

namespace Sys2Proof

@[simp] theorem nth_replicate {α : Type} (d : α) (n i : Nat) : nth d (List.replicate n d) i = d := by
  rw [nth, List.getD_eq_getElem?_getD, List.getElem?_replicate]
  split <;> rfl

/-- What reads as it was written stands as it was. -/
theorem reread_of_written {α : Type} (f : List Byte → Option α) (l : List (Option α)) (n : Nat) : reread f l (List.replicate n none) = l := by
  simp only [reread, nth_replicate]
  exact List.map_fst_zip (by simp)

/-- A settings slot of the firmware's own version is taken as it is (R461). -/
theorem stage5_of_version {f : Flash} {v : Nat} {x : SetSlot} (h : f.settings v = some x) (hx : x.sver = v) : f.stage5 v = .ok (x, false) := by
  unfold Flash.stage5
  rw [h]
  exact if_pos hx

/-- Before stage 3 there is no fallback (R445, log entry 134). -/
theorem fallback_of_early (f : Flash) (fuse : Fuses) {stage : Nat} (h : stage ≤ 2) (free : Nat) : fallback f fuse stage free = none := by
  unfold fallback
  split
  · rfl
  · exact if_neg (by omega)

end Sys2Proof

namespace Sys2Proof.Machine

section Stages

variable {s t : State} {e : StartEnv}

theorem atStage_of_pass {n : Nat} {f : State → State × Option Nat} (h : f s = (t, none)) : atStage none n f (s, none) = (t, none) := by
  simp [atStage, h]

/-- A start that stands still in stage 1 changes nothing (R449). -/
theorem runStages_of_late (h : e.late = some 1) : s.runStages e false 1 e.halts.1 = (s, some (1, Code.startTimeout)) := by
  have hhalt : e.halts.1 = some (1, Code.startTimeout) := by rw [StartEnv.halts, h]; rfl
  rw [hhalt]
  rfl

/-! The stages of a start in which nothing fails. -/

theorem bootStage_of_accepted (h : s.fuse.accepts s.flash.boot = true) : s.bootStage StartEnv.good = (s, none) := by
  unfold State.bootStage
  rw [show StartEnv.good.boot = none from rfl, Option.getD_none, if_pos h]

theorem bankStage_of_good (hrec : s.flash.recordAt.isSome = true) (hbank : s.activeBank.good = true) (hsvn : s.fuse.svn ≤ s.activeBank.svn) :
    s.bankStage StartEnv.good = (s, none) := by
  have hread : reread BankRec.read s.flash.recs StartEnv.good.recs = s.flash.recs := reread_of_written _ _ 2
  have hsame : { s with flash := { s.flash with recs := reread BankRec.read s.flash.recs StartEnv.good.recs } } = s := by rw [hread]
  have hpkg : nth none StartEnv.good.bank s.flash.cur.active = none := nth_replicate _ 2 _
  unfold State.bankStage
  rw [hsame]
  dsimp only
  rw [hpkg]
  exact congrArg (Prod.mk s) (if_pos (by simp [hrec, hbank, hsvn]))

theorem fwStage_of_written (s : State) : s.fwStage StartEnv.good = (s, none) := by
  have himg : nth none StartEnv.good.fw s.flash.cur.active = none := nth_replicate _ 2 _
  unfold State.fwStage
  rw [himg]

theorem setStage_of_version {x : SetSlot} (h : s.flash.settings s.activeBank.sver = some x) (hx : x.sver = s.activeBank.sver) :
    s.setStage StartEnv.good = ({ s with inForce := x, applied := x }, none) := by
  have hread : reread SetSlot.read s.flash.slots StartEnv.good.slots = s.flash.slots := reread_of_written _ _ 4
  have hsame : { s with flash := { s.flash with slots := reread SetSlot.read s.flash.slots StartEnv.good.slots } } = s := by rw [hread]
  unfold State.setStage
  rw [hsame]
  dsimp only
  rw [stage5_of_version h hx]
  rfl

/-- A controller whose image is not named takes the one of the active bank (R446). -/
theorem loadCtl_written (s : State) (i t : Nat) : (s.loadCtl i t []).2 = true := rfl

theorem ctlStage_of_written (s : State) : ∃ t, s.ctlStage StartEnv.good = (t, none) := by
  have hnone : nth [] StartEnv.good.ctl s.flash.cur.active = [] := nth_replicate _ 2 _
  have hall : ∀ (l : List (Nat × Nat)) (a : State × Bool), a.2 = true →
      (l.foldl (fun (a : State × Bool) x => if a.2 then a.1.loadCtl x.2 x.1 [] else a) a).2 = true := by
    intro l
    induction l with
    | nil => exact fun a ha => ha
    | cons x l ih => exact fun a ha => ih _ (by dsimp only; rw [if_pos ha]; exact loadCtl_written _ _ _)
  unfold State.ctlStage
  dsimp only
  rw [hnone, if_pos (hall _ _ rfl)]
  exact ⟨_, rfl⟩

/-- A start of a module whose flash is as the manual lays down passes every stage (R443-R446, R461). -/
theorem runStages_of_good {x : SetSlot} (hboot : s.fuse.accepts s.flash.boot = true) (hrec : s.flash.recordAt.isSome = true)
    (hbank : s.activeBank.good = true) (hsvn : s.fuse.svn ≤ s.activeBank.svn) (hset : s.flash.settings s.activeBank.sver = some x)
    (hx : x.sver = s.activeBank.sver) : (s.runStages StartEnv.good false 1 none).2 = none := by
  obtain ⟨u, hctl⟩ := ctlStage_of_written { s with inForce := x, applied := x }
  unfold State.runStages
  dsimp only
  rw [if_neg Bool.false_ne_true, if_pos rfl, if_neg Bool.false_ne_true, atStage_of_pass (s := s) rfl, atStage_of_pass (bootStage_of_accepted hboot),
    atStage_of_pass (bankStage_of_good hrec hbank hsvn), atStage_of_pass (fwStage_of_written s), atStage_of_pass (setStage_of_version hset hx),
    atStage_of_pass hctl]
  rfl

end Stages

section PendingRetire

variable (s : State) (e : StartEnv)

theorem atStage_pendingRetire {halt : Option (Nat × Nat)} {n : Nat} {f : State → State × Option Nat} {x : State × Option (Nat × Nat)}
    (hf : ∀ s, (f s).1.pendingRetire = s.pendingRetire) : (atStage halt n f x).1.pendingRetire = x.1.pendingRetire := by
  unfold atStage
  split
  · rfl
  · split
    · rfl
    · exact hf _
  · exact hf _

theorem setStage_pendingRetire : (s.setStage e).1.pendingRetire = s.pendingRetire := by
  unfold State.setStage
  dsimp only
  split <;> rfl

theorem loadCtl_pendingRetire (i t : Nat) (l : List (Nat × Option (List Byte))) : (s.loadCtl i t l).1.pendingRetire = s.pendingRetire := by
  unfold State.loadCtl
  split
  · rfl
  · split <;> rfl
  · rfl

theorem ctlStage_pendingRetire : (s.ctlStage e).1.pendingRetire = s.pendingRetire := by
  have hall : ∀ (ctl : List (Nat × Option (List Byte))) (l : List (Nat × Nat)) (a : State × Bool),
      (l.foldl (fun (a : State × Bool) x => if a.2 then a.1.loadCtl x.2 x.1 ctl else a) a).1.pendingRetire = a.1.pendingRetire := by
    intro ctl l
    induction l with
    | nil => exact fun a => rfl
    | cons x l ih =>
      intro a
      rw [List.foldl_cons, ih]
      split
      · exact loadCtl_pendingRetire _ _ _ _
      · rfl
  exact hall _ _ _

theorem memStage_pendingRetire : (s.memStage e).1.pendingRetire = s.pendingRetire := by
  unfold State.memStage
  split <;> rfl

/-- No stage before stage 8's retirements changes which cores are pending retirement (R474). -/
theorem runStages_pendingRetire (first : Nat) (halt : Option (Nat × Nat)) :
    (s.runStages e false first halt).1.pendingRetire = s.pendingRetire := by
  have hfirst : (if first = 1 then atStage halt 1 (fun s : State => (s, (none : Option Nat))) (s, none) else (s, none)).1.pendingRetire
      = s.pendingRetire := by
    split
    · exact atStage_pendingRetire fun _ => rfl
    · rfl
  unfold State.runStages
  dsimp only
  rw [if_neg Bool.false_ne_true, if_neg Bool.false_ne_true, atStage_pendingRetire fun _ => rfl, atStage_pendingRetire fun _ => rfl,
    atStage_pendingRetire fun _ => rfl, atStage_pendingRetire (memStage_pendingRetire · e), atStage_pendingRetire (ctlStage_pendingRetire · e),
    atStage_pendingRetire (setStage_pendingRetire · e), atStage_pendingRetire fun _ => rfl, atStage_pendingRetire fun _ => rfl,
    atStage_pendingRetire fun _ => rfl, hfirst]

theorem pendingRetire_of_runStages {s x : State} {e : StartEnv} {first : Nat} {halt r : Option (Nat × Nat)}
    (h : s.runStages e false first halt = (x, r)) : x.pendingRetire = s.pendingRetire := by
  rw [← runStages_pendingRetire s e first halt, h]

end PendingRetire

section Ends

variable {s : State} {e : StartEnv}

theorem retireAll_of_none (h : s.pendingRetire = []) : s.retireAll [] = s := by simp [State.retireAll, h]

/-- State `t` shows boot status word `b`, and of `u` nothing has changed but the power part, the clock, the stacks and what leaves the
ports. -/
structure Shown (u : State) (b : BootW) (t : State) : Prop where
  boot : t.pwr.boot = b
  ready : t.pwr.ready = u.pwr.ready
  stopped : t.pwr.stopped = u.pwr.stopped
  fault : t.pwr.fault = u.pwr.fault
  sids : t.sess.map (·.sid) = u.sess.map (·.sid)
  defs : t.defs = u.defs
  book : t.book = u.book
  membs : t.membs = u.membs
  mem : t.mem = u.mem
  now : t.now = u.now

theorem Shown.told {u t v : State} {b : BootW} (h : Shown u b t) (k : Told t v) : Shown u b v :=
  ⟨(congrArg Power.boot (told_pwr _ k)).trans h.boot, (congrArg Power.ready (told_pwr _ k)).trans h.ready,
    (congrArg Power.stopped (told_pwr _ k)).trans h.stopped, (congrArg Power.fault (told_pwr _ k)).trans h.fault, k.sids.trans h.sids,
    (congrArg State.defs k.eq).trans h.defs, (congrArg State.book k.eq).trans h.book, k.memb.trans h.membs, k.mem.trans h.mem,
    (congrArg State.now k.eq).trans h.now⟩

/-- The end of a start without a retirement: the boot status word, the clock, and what the ports send first. -/
theorem shown_of_told {t : State} {b : BootW} (ht : Told ((List.range 8).foldl (fun s i => s.pick i) ((s.setBoot b).reclock.retireAll [])) t)
    (hp : s.pendingRetire = []) : Shown s b t := by
  obtain ⟨n, hpwr⟩ := setBoot_pwr s b
  obtain ⟨k, hclk⟩ := reclock_state (s.setBoot b)
  have hret : (s.setBoot b).reclock.retireAll [] = (s.setBoot b).reclock := retireAll_of_none (by rw [hclk]; exact hp)
  have hshown : Shown s b (s.setBoot b).reclock := by
    rw [hclk]
    exact ⟨by rw [hpwr]; rfl, by rw [hpwr]; rfl, by rw [hpwr]; rfl, by rw [hpwr]; rfl, rfl, rfl, rfl, rfl, rfl, rfl⟩
  rw [hret] at ht
  exact (hshown.told (Told.foldl (.refl _) fun _ _ hu => hu.pick _)).told ht

/-- A module in service after a start (R444, R449). -/
structure Serving (bank : Nat) (fell : Bool) (t : State) : Prop where
  ready : t.pwr.ready = true
  stopped : t.pwr.stopped = false
  fault : t.pwr.fault = false
  boot : t.pwr.boot = ⟨10, false, bank, fell, 0⟩
  sess : t.sess = []
  defs : t.defs = []
  book : t.book = []
  membs : t.membs = []
  mem : t.mem = []
  now : t.now = 0

theorem Serving.of_shown {u t : State} {bank : Nat} {fell : Bool} (h : Shown u ⟨10, false, bank, fell, 0⟩ t) (hready : u.pwr.ready = true)
    (hstopped : u.pwr.stopped = false) (hfault : u.pwr.fault = false) (hsess : u.sess = []) (hdefs : u.defs = []) (hbook : u.book = [])
    (hmembs : u.membs = []) (hmem : u.mem = []) (hnow : u.now = 0) : Serving bank fell t :=
  ⟨h.ready.trans hready, h.stopped.trans hstopped, h.fault.trans hfault, h.boot, List.map_eq_nil_iff.mp (h.sids.trans (by rw [hsess]; rfl)),
    h.defs.trans hdefs, h.book.trans hbook, h.membs.trans hmembs, h.mem.trans hmem, h.now.trans hnow⟩

/-- A module whose stages have passed, with no core to retire, is in service, also once its partitions have heard of it. -/
theorem bringUp_serving {t : State} {fell : Bool} (hf : e.failing = []) (hp : s.pendingRetire = []) (ht : Told (s.bringUp e true fell) t) :
    Serving s.flash.cur.active fell t := by
  unfold State.bringUp at ht
  dsimp only at ht
  rw [hf] at ht
  exact .of_shown (shown_of_told ht hp) rfl rfl rfl rfl rfl rfl rfl (by simp) rfl

/-- A start failure in force (R447-R449). -/
structure StartFailed (s : State) (stage code : Nat) (t : State) : Prop where
  ready : t.pwr.ready = false
  fault : t.pwr.fault = true
  stage : t.pwr.boot.stage = stage
  failed : t.pwr.boot.failed = true
  code : t.pwr.boot.code = code
  ports : ∀ y ∈ t.ports, y.enabled = false
  flash : t.flash = s.flash
  mem : t.mem = s.mem

theorem startFailure_failed (s : State) (stage code : Nat) : StartFailed s stage code (s.startFailure stage code) := by
  have hports : ∀ y ∈ (s.startFailure stage code).ports, y.enabled = false := by
    intro y hy
    obtain ⟨_, -, rfl⟩ := List.mem_map.mp hy
    rfl
  obtain ⟨n, hpwr⟩ : ∃ n, (s.startFailure stage code).pwr = _ := setBoot_pwr _ _
  exact ⟨by rw [hpwr]; rfl, by rw [hpwr]; rfl, by rw [hpwr]; rfl, by rw [hpwr]; rfl, by rw [hpwr]; rfl, hports, rfl, rfl⟩

variable {x : State} {pause : Bool} {halts : Option (Nat × Nat) × Option (Nat × Nat)} {stage code : Nat}

theorem stages_of_pass (h : s.runStages e false 1 halts.1 = (x, none)) : s.stages e false halts = x.bringUp e true false := by
  unfold State.stages
  rw [h]
  rfl

theorem stages_of_failed (h : s.runStages e pause 1 halts.1 = (x, some (stage, code))) (hfb : fallback x.flash x.fuse stage x.fresh.2 = none) :
    StartFailed x stage code (s.stages e pause halts) := by
  have heq : s.stages e pause halts = x.fresh.1.startFailure stage code := by
    unfold State.stages
    rw [h]
    dsimp only
    rw [show fallback x.fresh.1.flash x.fresh.1.fuse stage x.fresh.2 = none from hfb]
  rw [heq]
  exact { startFailure_failed x.fresh.1 stage code with }

/-- A start that falls back and then passes comes up on the other bank, and the partitions hear of it (R447, R461). -/
theorem stages_of_fallback {g : BankRec → BankRec} {z : State} (h : s.runStages e pause 1 halts.1 = (x, some (stage, code)))
    (hfb : fallback x.flash x.fuse stage x.fresh.2 = some g)
    (hz : { x.fresh.1 with flash := x.flash.writeRec g }.runStages e.again false 2 halts.2 = (z, none)) :
    Told (z.bringUp e true true) (s.stages e pause halts) := by
  unfold State.stages
  rw [h]
  dsimp only
  rw [show fallback x.fresh.1.flash x.fresh.1.fuse stage x.fresh.2 = some g from hfb]
  dsimp only
  rw [show x.fresh.1.flash.writeRec g = x.flash.writeRec g from rfl, hz]
  have told := Told.eventAll Code.fwRolledBack { Ev.none with arg0 := code } (.refl (z.bringUp e true true))
  exact .ite (fun _ => told.eventAll _ _) fun _ => told

end Ends

section Commands

variable {s : State} {e : StartEnv}

theorem exec_start_of_clock (hmay : s.mayStart = true) (hclk : e.refclk = true) :
    exec (.start e) s = .next ((s.modPwr fun y => { y with resetN := true }).stages e false (none, none)) := by
  have hexec : exec (.start e) s = .next (s.start e) := rfl
  rw [hexec, State.start, if_neg (by simp [hmay])]
  dsimp only
  rw [if_pos hclk]

theorem exec_startTimeout_of_late (hmay : s.mayStart = true) (hlate : e.late ≠ none) :
    exec (.startTimeout e) s = .next ((s.modPwr fun y => { y with resetN := true }).stages e false e.halts) := by
  have hexec : exec (.startTimeout e) s = .next (s.startLate e) := rfl
  rw [hexec, State.startLate, if_neg (by simp [hmay, hlate])]

/-- A preloaded promotion without FORCE is decided in a quiescent cycle (R456). -/
theorem decide_of_quiescent {i p op : Nat} {o : Org} {bank : Option Nat}
    (hprom : s.promotion = some (i, ⟨o, p, op, .promote bank false true⟩)) (hq : s.quiescent = true) :
    s.decide_ e = s.pause e i ⟨o, p, op, .promote bank false true⟩ bank false := by
  unfold State.decide_
  rw [hprom]
  dsimp only
  rw [if_neg (by simp [hq]), if_neg Bool.false_ne_true, hprom]

end Commands

/-- Settles O57: a start ends in the branch of its stages' outcome; a decision in a quiescent cycle is the pause. -/
theorem startAndActivationDecision : Obligations.StartAndActivationDecision := by
  refine ⟨?start, ?pass, ?fail, ?fall, ?timeout, ?first, ?decide⟩
  case start =>
    intro s x e hmay hclk hrun hf hp
    have hexec := exec_start_of_clock hmay hclk
    rw [stages_of_pass (halts := (none, none)) hrun] at hexec
    have hx : x.pendingRetire = [] := (pendingRetire_of_runStages hrun).trans hp
    have h := bringUp_serving hf hx (.refl (x.bringUp e true false))
    exact ⟨_, hexec, h.ready, h.stopped, h.fault, congrArg BootW.stage h.boot, congrArg BootW.failed h.boot, congrArg BootW.code h.boot,
      congrArg BootW.fellback h.boot, h.sess, h.defs, h.book, h.membs, h.mem, h.now, (exec_keeps _ s _ hexec).pending⟩
  case pass => exact fun s x hboot hrec hbank hsvn hset hx => runStages_of_good hboot hrec hbank hsvn hset hx
  case fail =>
    intro s x e stage code hmay hclk hrun hfb
    have h := stages_of_failed (halts := (none, none)) hrun hfb
    exact ⟨_, exec_start_of_clock hmay hclk, h.ready, h.fault, h.stage, h.failed, h.code, h.ports, h.flash, h.mem⟩
  case fall =>
    intro s x z e stage code g hmay hclk hf hp hrun hfb hz
    have hz' : z.pendingRetire = [] := (pendingRetire_of_runStages hz).trans ((pendingRetire_of_runStages hrun).trans hp)
    have h := bringUp_serving hf hz' (stages_of_fallback (halts := (none, none)) hrun hfb hz)
    exact ⟨_, exec_start_of_clock hmay hclk, h.ready, h.fault, congrArg BootW.stage h.boot, congrArg BootW.failed h.boot,
      congrArg BootW.fellback h.boot, congrArg BootW.bank h.boot, h.sess⟩
  case timeout =>
    intro s x e stage code hmay hlate hrun hfb
    have h := stages_of_failed hrun hfb
    exact ⟨_, exec_startTimeout_of_late hmay hlate, h.ready, h.fault, h.stage, h.failed, h.code, h.ports, h.flash⟩
  case first =>
    intro s e hmay hlate
    have hrun := runStages_of_late (s := s.modPwr fun y => { y with resetN := true }) hlate
    have h := stages_of_failed hrun (fallback_of_early _ _ (by decide) _)
    exact ⟨_, exec_startTimeout_of_late hmay (by simp [hlate]), h.ready, h.fault, h.stage, h.failed, h.code, h.ports, h.flash, h.mem⟩
  case decide =>
    intro s e i p op o bank hr hprom hq u y v w
    have hexec : exec (.activationDecision e) s = .next (s.whileOn (s.decide_ e)) := rfl
    rw [hexec, whileOn_of_runs _ _ hr, decide_of_quiescent hprom hq]
    rfl

end Sys2Proof.Machine
end

section
/-!
PROOFS. A command outside the list of those that may change power leaves pins, heat, sideband and clock (R480, R489, R491, R494, R496).
-/

open Sys2Proof Sys2Proof.Machine

namespace Sys2Proof.Machine

/-- Settles O10: outside the list, no operation of a command reaches the power part, the sideband's answer or the clock. -/
theorem powerFrame : Obligations.PowerFrame := by
  intro i s t h hi
  have hk := exec_keeps i s t h
  have hswitch : (!i.mayChangePower) = true := by rw [hi]; rfl
  exact ⟨hk.pwr hswitch, hk.smbOut hswitch, hk.clock hswitch⟩

end Sys2Proof.Machine
end

section
/-!
PROOFS. The power controller, the sideband and the scrub of shared memory (R468, R469, R493-R496).
-/

open Sys2Proof Sys2Proof.Machine

namespace Sys2Proof

section StepDown

variable {x : Power}

theorem stepDown_of_clock (h : 500 < x.powClk) : x.stepDown = some { x with powClk := max 500 (x.powClk - 50) } := if_pos h

theorem stepDown_of_stack (hclk : x.powClk ≤ 500) (hcap : 8 < x.powCap) : x.stepDown = some { x with powCap := x.powCap - 1 } := by
  rw [Power.stepDown, if_neg (by omega), if_pos hcap]

theorem stepDown_of_floors (hclk : x.powClk ≤ 500) (hcap : x.powCap ≤ 8) : x.stepDown = none := by
  rw [Power.stepDown, if_neg (by omega), if_neg (by omega)]

/-- Whether the controller caps is not the step's to change. -/
theorem stepDown_capping {y : Power} (h : x.stepDown = some y) : y.capping = x.capping := by
  unfold Power.stepDown at h
  split at h
  · injection h with h
    rw [← h]
  · split at h
    · injection h with h
      rw [← h]
    · cases h

end StepDown

section Fields

variable (x : Power)

@[simp] theorem alerted_powCap : (Power.alerted x).powCap = x.powCap := rfl
@[simp] theorem alerted_capping : (Power.alerted x).capping = x.capping := rfl
@[simp] theorem alerted_floor : (Power.alerted x).floor = x.floor := rfl
@[simp] theorem alerted_calm : (Power.alerted x).calm = x.calm := rfl
@[simp] theorem alerted_energy : (Power.alerted x).energy = x.energy := rfl
@[simp] theorem alerted_k : (Power.alerted x).k = x.k := rfl

end Fields

/-- The power part with what a tick of the controller measures beside the temperatures (R495, R496). -/
def Power.metered (x : Power) (m : Measured) : Power :=
  { x with pin := m.pin, vin := m.vin, iin := m.iin, inlet := m.inlet, outlet := m.outlet, energy := x.energy + m.pin }

end Sys2Proof

namespace Sys2Proof.Machine

section Tick

variable {s : State} {m : Measured} {a : Activity}

/-- The power part once a tick has read its sensors. -/
def State.tickPart (s : State) (m : Measured) : Power := Power.alerted ((Power.alerted (s.pwr.sensed m.die m.stks)).metered m)

section Fields

variable (s : State) (m : Measured)

@[simp] theorem tickPart_powClk : (s.tickPart m).powClk = s.pwr.powClk := by simp [State.tickPart, Power.metered, Power.sensed]
@[simp] theorem tickPart_powCap : (s.tickPart m).powCap = s.pwr.powCap := by simp [State.tickPart, Power.metered, Power.sensed]
@[simp] theorem tickPart_profile : (s.tickPart m).profile = s.pwr.profile := by simp [State.tickPart, Power.metered, Power.sensed]
@[simp] theorem tickPart_thermClk : (s.tickPart m).thermClk = s.pwr.thermClk := by simp [State.tickPart, Power.metered, Power.sensed]
@[simp] theorem tickPart_k : (s.tickPart m).k = s.pwr.k := by simp [State.tickPart, Power.metered, Power.sensed]
@[simp] theorem tickPart_pwrlim : (s.tickPart m).pwrlim = s.pwr.pwrlim := by simp [State.tickPart, Power.metered, Power.sensed]
@[simp] theorem tickPart_energy : (s.tickPart m).energy = s.pwr.energy + m.pin := by simp [State.tickPart, Power.metered, Power.sensed]

end Fields

/-- The state once a tick has read its sensors. -/
def State.metered (s : State) (m : Measured) : State := (s.readSensors m.die m.stks).modPwr fun x => x.metered m

/-- The power that a tick compares with the target: the larger of the measured and the predicted (R494). -/
def State.tickPower (s : State) (m : Measured) (a : Activity) : Nat :=
  max m.pin (predictPower s.pwr.profile s.clock s.pwr.k (s.ports.map (·.link)) a)

theorem metered_state (s : State) (m : Measured) : ∃ k, s.metered m = { s with pwr := s.tickPart m, stks := k } := by
  obtain ⟨k, h⟩ := readSensors_state s m.die m.stks
  exact ⟨k, by rw [State.metered, h]; rfl⟩

@[simp] theorem metered_pwr (s : State) (m : Measured) : (s.metered m).pwr = s.tickPart m := by
  obtain ⟨k, h⟩ := metered_state s m
  rw [h]

@[simp] theorem metered_clock (s : State) (m : Measured) : (s.metered m).clock = s.clock := by
  obtain ⟨k, h⟩ := metered_state s m
  rw [h]

@[simp] theorem metered_mem (s : State) (m : Measured) : (s.metered m).mem = s.mem := by
  obtain ⟨k, h⟩ := metered_state s m
  rw [h]

@[simp] theorem metered_ports (s : State) (m : Measured) : (s.metered m).ports = s.ports := by
  obtain ⟨k, h⟩ := metered_state s m
  rw [h]

/-- The prediction reads nothing that the sensors of a tick change (R493). -/
theorem tickPower_metered : (s.metered m).tickPower m a = s.tickPower m a := by simp [State.tickPower]

theorem capWatts_metered : (s.metered m).pwr.capWatts = s.pwr.capWatts := by simp [Power.capWatts]

/-- The state once the controller has stepped its limits down to those of `y` (R440, R494, R495). -/
def State.steppedTo (s : State) (y : Power) : State :=
  let t := (s.modPwr fun _ => { y with calm := 0, floor := false }).reclock
  if s.pwr.capping then t else t.capBegins

/-- A tick of a module in service goes by its power: over the target a step down or the floors, 30 W below it the release, else neither. -/
theorem capTick_eq (hw : s.watching = true) (hr : s.pwr.ready = true) (m : Measured) (a : Activity) : s.capTick m a =
    if 10 * s.pwr.capWatts - 100 < s.tickPower m a then
      (s.tickPart m).stepDown.elim
        ((s.metered m).modPwr fun y => { y with calm := 0, floor := decide (10 * s.pwr.capWatts < s.tickPower m a) }) (s.metered m).steppedTo
    else if s.tickPower m a + 300 ≤ 10 * s.pwr.capWatts - 100 then
      ((s.metered m).modPwr fun y => { (if y.capped then y.stepUp else { y with calm := y.calm + 1, capping := false }) with floor := false }).reclock
    else (s.metered m).modPwr fun y => { y with calm := 0, floor := false } := by
  rw [← tickPower_metered (m := m), ← capWatts_metered (m := m), ← metered_pwr]
  unfold State.capTick
  rw [if_neg (by simp [hw, hr])]
  refine if_congr Iff.rfl ?_ rfl
  generalize hx : (s.metered m).pwr.stepDown = d
  change (match (s.metered m).pwr.stepDown with | some y => _ | none => _) = _
  rw [hx]
  cases d <;> rfl

/-- The controller that begins to cap says so in SB_STAT and tells the partitions (R440, R495, R496). -/
theorem told_capBegins (s : State) : Told (s.modPwr fun x => Power.sbSet { x with capping := true } 9) s.capBegins :=
  Told.foldl (Told.eventAll _ _ (.refl _)) fun _ _ hu => hu.event _ _ _

theorem steppedTo_effect (s : State) {y : Power} (hy : y.capping = s.pwr.capping) :
    (∃ n, (s.steppedTo y).pwr = Power.alerted { y with calm := 0, floor := false, capping := true, sbstat := n }) ∧
      (s.steppedTo y).clock = min (profileClock y.profile) (min y.thermClk y.powClk) ∧ (s.steppedTo y).mem = s.mem := by
  unfold State.steppedTo
  dsimp only
  split
  · next hcap =>
    refine ⟨⟨y.sbstat, ?_⟩, reclock_clock _, reclock_mem _⟩
    rw [reclock_pwr, modPwr_pwr, ← hcap, ← hy]
  · refine ⟨⟨y.sbstat ||| 2 ^ 9, ?_⟩, ?_, ?_⟩
    · rw [told_pwr _ (told_capBegins _), modPwr_pwr, reclock_pwr, modPwr_pwr]
      simp only [Power.alerted, Power.sbSet]
    · rw [told_clock _ (told_capBegins _), modPwr_clock, reclock_clock]
      rfl
    · rw [(told_capBegins _).mem, modPwr_mem, reclock_mem]
      rfl

/-- A tick over the target that can step down leaves the stepped limits in force, the wait for the release begun again (R494, R495). -/
theorem capTick_stepDown (hw : s.watching = true) (hr : s.pwr.ready = true) (hover : 10 * s.pwr.capWatts - 100 < s.tickPower m a) {y : Power}
    (hy : (s.tickPart m).stepDown = some y) :
    (∃ n, (s.capTick m a).pwr = Power.alerted { y with calm := 0, floor := false, capping := true, sbstat := n }) ∧
      (s.capTick m a).clock = min (profileClock y.profile) (min y.thermClk y.powClk) ∧ (s.capTick m a).mem = s.mem := by
  have heq : s.capTick m a = (s.metered m).steppedTo y := by
    rw [capTick_eq hw hr, if_pos hover, hy]
    rfl
  have h := steppedTo_effect (s.metered m) ((stepDown_capping hy).trans (by rw [metered_pwr]))
  rw [metered_mem] at h
  rwa [heq]

theorem capTick_atFloors (hw : s.watching = true) (hr : s.pwr.ready = true) (hover : 10 * s.pwr.capWatts - 100 < s.tickPower m a)
    (hy : (s.tickPart m).stepDown = none) :
    s.capTick m a = (s.metered m).modPwr fun y => { y with calm := 0, floor := decide (10 * s.pwr.capWatts < s.tickPower m a) } := by
  rw [capTick_eq hw hr, if_pos hover, hy]
  rfl

theorem capTick_between (hw : s.watching = true) (hr : s.pwr.ready = true) (hle : s.tickPower m a ≤ 10 * s.pwr.capWatts - 100)
    (hgt : 10 * s.pwr.capWatts - 100 < s.tickPower m a + 300) :
    s.capTick m a = (s.metered m).modPwr fun y => { y with calm := 0, floor := false } := by
  rw [capTick_eq hw hr, if_neg (by omega), if_neg (by omega)]

end Tick

section Model

variable {s : State} {pin : Nat} {a : Activity}

/-- The ratio of measured to predicted power in 1/1000, within the bounds of k (R493). -/
def State.modelGoal (s : State) (pin : Nat) (a : Activity) : Nat :=
  min 1250 (max 800 (1000 * pin / max 1 (predictPower s.pwr.profile s.clock s.pwr.k (s.ports.map (·.link)) a)))

/-- `k` moved toward `goal` by `n` thousandths of the way, at most the whole (R493). -/
def movedToward (k goal n : Nat) : Nat :=
  if k ≤ goal then k + (goal - k) * (n % 1001) / 1000 else k - (k - goal) * (n % 1001) / 1000

/-- A part in thousandths, of at most a thousand, is no more than the whole. -/
theorem thousandths_le (d n : Nat) : d * (n % 1001) / 1000 ≤ d :=
  Nat.div_le_of_le_mul (by rw [Nat.mul_comm]; exact Nat.mul_le_mul_right d (by omega))

theorem movedToward_of_le {k goal : Nat} (h : k ≤ goal) (n : Nat) : k ≤ movedToward k goal n ∧ movedToward k goal n ≤ goal := by
  have hpart := thousandths_le (goal - k) n
  rw [movedToward, if_pos h]
  omega

theorem movedToward_of_ge {k goal : Nat} (h : goal ≤ k) (n : Nat) : goal ≤ movedToward k goal n ∧ movedToward k goal n ≤ k := by
  by_cases hle : k ≤ goal
  · obtain rfl := Nat.le_antisymm hle h
    exact movedToward_of_le hle n
  · have hpart := thousandths_le (k - goal) n
    rw [movedToward, if_neg hle]
    omega

theorem modelUpdate_eq (hw : s.watching = true) (hr : s.pwr.ready = true) :
    s.modelUpdate pin a = s.fresh.1.modPwr fun x => { x with k := movedToward x.k (s.modelGoal pin a) s.fresh.2 } :=
  if_neg (by simp [hw, hr])

end Model

section Sideband

variable {s : State} {code n v : Nat} {data : List Byte} {pec : Byte}

/-- The PEC that the host must send after a Block Write (R496). -/
def State.writePec (s : State) (code : Nat) (data : List Byte) : Byte :=
  Config.smbusPec (natLe 1 (2 * s.pwr.smbAddr) ++ natLe 1 code ++ natLe 1 data.length ++ data)

/-- What a Block Read answers: byte count, value, PEC (R496). -/
def State.readAnswer (s : State) (code n v : Nat) : List Byte :=
  natLe 1 n ++ natLe n v ++ [Config.smbusPec (natLe 1 (2 * s.pwr.smbAddr) ++ natLe 1 code ++ natLe 1 (2 * s.pwr.smbAddr + 1) ++
    (natLe 1 n ++ natLe n v))]

theorem blockWrite_of_taken {f : Power → Power} (hside : s.dataSide = true) (hreg : s.sbReg code = some (data.length, v))
    (hpec : pec = s.writePec code data) (hf : s.sbWrite code (leNat data) = some f) :
    s.blockWrite code data pec = { s with smbOut := some [] }.modPwr f := by
  unfold State.blockWrite
  simp only [hreg, hf]
  exact if_pos ⟨hside, hpec, trivial⟩

theorem blockWrite_of_refused (hreg : s.sbReg code = some (n, v)) (hbad : pec ≠ s.writePec code data ∨ data.length ≠ n) :
    s.blockWrite code data pec = { s with smbOut := none } := by
  unfold State.blockWrite
  simp only [hreg]
  refine if_neg fun ⟨_, hpec, hlen⟩ => ?_
  exact hbad.elim (· hpec) (· hlen)

/-- A rack cap of 0, or of 400 W up to the profile's limit, is taken (R494). -/
theorem sbWrite_pwrlim {x : Nat} (h : x % 2 ^ 11 = 0 ∨ 400 ≤ x % 2 ^ 11 ∧ x % 2 ^ 11 ≤ profileWatts s.pwr.profile) :
    s.sbWrite 0x20 x = some fun y => { y with pwrlim := x % 2 ^ 11 } := if_pos h

/-- A data side that is answered has its standby rail up (R448, R496). -/
theorem dataSide_standby (h : s.dataSide = true) : s.pwr.standby = true := by
  simp only [State.dataSide, Bool.and_eq_true] at h
  obtain ⟨⟨⟨⟨hstandby, -⟩, -⟩, -⟩, -⟩ := h
  exact hstandby

theorem blockRead_of_answered (hreg : s.sbReg code = some (n, v)) (hok : (if code = 0 then s.pwr.standby else s.dataSide) = true) :
    s.blockRead code = { s with smbOut := some (s.readAnswer code n v) } := by
  unfold State.blockRead
  simp only [hreg]
  exact if_pos hok

theorem blockRead_of_silent (hside : s.dataSide = false) (hcode : code ≠ 0) : s.blockRead code = { s with smbOut := none } := by
  unfold State.blockRead
  simp only [hside, if_neg hcode, Bool.false_eq_true, if_false]
  split <;> rfl

end Sideband

section Scrub

variable {s : State} {d : Nat}

/-- An undamaged place of shared memory is read, and the scrub moves on (R468). -/
theorem sharedScrub_of_good (hplace : nth 0 s.smScrub d < sharedBytes / 16)
    (hgood : s.readErrors (sharedBase d + 16 * nth 0 s.smScrub d) 16 = (0, 0)) :
    s.sharedScrub d [] = State.dieErrors { s with smScrub := putAt s.smScrub d ((nth 0 s.smScrub d + 1) % scrubPlaces) } d 0 0 := by
  have hgood' : ∀ l, State.readErrors { s with smScrub := l } (sharedBase d + 16 * nth 0 s.smScrub d) 16 = (0, 0) := fun _ => hgood
  unfold State.sharedScrub
  simp only [damages_nil, if_pos hplace, hgood']
  rfl

end Scrub

/-- Settles O60: a tick goes by its power, k moves by a part of its way, and a transaction of the sideband is taken or refused by the
register that its code names. -/
theorem powerCapAndSideband : Obligations.PowerCapAndSideband := by
  refine ⟨?tick, ?model, ?write, ?read, ?other, ?scrub⟩
  case tick =>
    intro s m a hw hr power cap
    have hexec : exec (.powerCapTick m a) s = .next (s.capTick m a) := rfl
    rw [← tickPart_powClk s m, ← tickPart_powCap s m]
    refine ⟨fun hover hclk => ?_, fun hover hclk hcap => ?_, fun hover hclk hcap => ?_, fun hle hgt => ?_⟩
    · obtain ⟨⟨n, hpwr⟩, hclock, hmem⟩ := capTick_stepDown hw hr hover (stepDown_of_clock hclk)
      refine ⟨_, hexec, ?_⟩
      rw [hclock, hpwr, hmem]
      simp
    · obtain ⟨⟨n, hpwr⟩, -, -⟩ := capTick_stepDown hw hr hover (stepDown_of_stack hclk hcap)
      refine ⟨_, hexec, ?_⟩
      rw [hpwr]
      simp
    · refine ⟨_, hexec, ?_⟩
      rw [capTick_atFloors hw hr hover (stepDown_of_floors hclk hcap), modPwr_pwr, metered_pwr]
      simp [State.tickPower, power, cap]
    · refine ⟨_, hexec, ?_⟩
      rw [capTick_between hw hr hle hgt, modPwr_pwr, modPwr_clock, metered_pwr, metered_clock]
      simp
  case model =>
    intro s pin a hw hr goal
    have hexec : exec (.powerModelUpdate pin a) s = .next (s.modelUpdate pin a) := rfl
    refine ⟨_, hexec, ?_⟩
    rw [modelUpdate_eq hw hr, modPwr_pwr, modPwr_clock, modPwr_mem, alerted_k, fresh_pwr]
    exact ⟨fun h => movedToward_of_le h _, fun h => movedToward_of_ge h _, rfl, rfl⟩
  case write =>
    intro s data pec code n v hside want
    refine ⟨fun hpec hlen hcap => ?_, fun hreg hbad => ?_, fun hpec hlen => ?_⟩
    · have hreg : s.sbReg 0x20 = some (data.length, s.pwr.pwrlim) := by rw [hlen]; rfl
      have heq := blockWrite_of_taken hside hreg hpec (sbWrite_pwrlim hcap)
      exact ⟨_, congrArg Host.Outcome.next heq, congrArg Host.Outcome.next heq, rfl, rfl, rfl, rfl⟩
    · exact congrArg Host.Outcome.next (blockWrite_of_refused hreg hbad)
    · have hreg : s.sbReg 0x31 = some (data.length, s.pwr.alerten * 2 ^ 8) := by rw [hlen]; rfl
      have heq := blockWrite_of_taken hside hreg hpec rfl
      exact ⟨_, congrArg Host.Outcome.next heq, rfl, rfl, bne_iff_ne⟩
  case read =>
    intro s code n v answer
    refine ⟨fun hstandby => ?_, fun hside hreg => ?_, fun hside hcode => ?_⟩
    · exact congrArg Host.Outcome.next (blockRead_of_answered rfl hstandby)
    · have hok : (if code = 0 then s.pwr.standby else s.dataSide) = true := by rw [dataSide_standby hside, hside, ite_self]
      exact congrArg Host.Outcome.next (blockRead_of_answered hreg hok)
    · exact congrArg Host.Outcome.next (blockRead_of_silent hside hcode)
  case other =>
    intro s
    refine ⟨rfl, fun hstandby halert => ?_⟩
    have heq : s.alertResponse = { s with smbOut := some (natLe 1 (2 * s.pwr.smbAddr)) } := by
      rw [State.alertResponse, if_pos ⟨hstandby, halert⟩]
    exact congrArg Host.Outcome.next heq
  case scrub =>
    intro s d hr hd hplace hgood
    have hexec : exec (.sharedMemoryScrub d []) s = .next (s.sharedScrub d []) := exec_of_runs hr (decide_eq_true hd) rfl
    refine ⟨_, hexec, ?_⟩
    rw [sharedScrub_of_good hplace hgood]
    exact ⟨rfl, rfl, rfl⟩

end Sys2Proof.Machine
end

section
/-!
PROOFS. A step and the command in front of the queue, the state after reset, and the commands that store nothing (R322, R369).
-/

open Sys2Proof Sys2Proof.Machine

namespace Sys2Proof.Machine

/-- Settles O8: outside the list, no operation of a command reaches memory, so every byte reads as before. -/
theorem memoryFrame : Obligations.MemoryFrame := by
  intro i s t h hi
  have hswitch : (!i.mayWriteMemory) = true := by rw [hi]; rfl
  have hmem : t.mem = s.mem := (exec_keeps i s t h).mem hswitch
  exact ⟨hmem, fun a => congrArg (Memory.byte · a) hmem⟩

/-- Settles O1: with a command in front, the step is the second branch of its definition. -/
theorem stepRunsFrontCommand : Obligations.StepRunsFrontCommand := by
  intro s c rest hfront
  simp only [step, hfront]

theorem wf_mem_initial (g : Grade) : (State.initial g).mem.wf = true := rfl

theorem length_ports_initial (g : Grade) : (State.initial g).ports.length = 8 := List.length_replicate

/-- A module of any grade starts sound. -/
theorem sound_initial (g : Grade) : (State.initial g).sound = true := sound_iff.mpr ⟨wf_mem_initial g, length_ports_initial g⟩

/-- Settles O3: a GX9-3072 starts sound, with an empty queue. -/
theorem resetIsSound : Obligations.ResetIsSound := ⟨sound_initial .gx9_3072, rfl⟩

end Sys2Proof.Machine
end
